-- ==== Sys2Proof/Word.lean ====
section
/-! DEFINITION. The word types, the station numbers, and the container of eight like things. -/

namespace Sys2Proof

/-- One byte of the configuration image. -/
abbrev Byte := BitVec 8

/-- A 16-bit word: a round number (R4), a signature (R54), a check (R48) or a digest (R189). -/
abbrev Word16 := BitVec 16

/-- A set of station numbers: bit k stands for station k (R26, R45, R46). -/
abbrev StationSet := BitVec 8

/-- A station number 0..7 (1.2), and equally a channel number AN0..AN7. -/
abbrev StationNo := Fin 8

/-- Eight like things, one for each station number, slot or channel. -/
structure Eight (α : Type) where
  (n0 n1 n2 n3 n4 n5 n6 n7 : α)
  deriving DecidableEq, Repr

/-- The entry of number `k`. -/
def Eight.get {α : Type} (v : Eight α) (k : Fin 8) : α :=
  match k.val with
  | 0 => v.n0
  | 1 => v.n1
  | 2 => v.n2
  | 3 => v.n3
  | 4 => v.n4
  | 5 => v.n5
  | 6 => v.n6
  | _ => v.n7

/-- `v` with the entry of number `k` replaced. -/
def Eight.set {α : Type} (v : Eight α) (k : Fin 8) (a : α) : Eight α :=
  match k.val with
  | 0 => { v with n0 := a }
  | 1 => { v with n1 := a }
  | 2 => { v with n2 := a }
  | 3 => { v with n3 := a }
  | 4 => { v with n4 := a }
  | 5 => { v with n5 := a }
  | 6 => { v with n6 := a }
  | _ => { v with n7 := a }

/-- Eight copies of one value. -/
def Eight.fill {α : Type} (a : α) : Eight α := ⟨a, a, a, a, a, a, a, a⟩

/-- The eight values of a function of the number. -/
def Eight.ofFn {α : Type} (f : Fin 8 → α) : Eight α :=
  ⟨f 0, f 1, f 2, f 3, f 4, f 5, f 6, f 7⟩

/-- The station numbers in ascending order. -/
def allStations : List (Fin 8) := [0, 1, 2, 3, 4, 5, 6, 7]

/-- Station `k` is in the set. -/
def inSet (S : StationSet) (k : Fin 8) : Bool := S.getLsbD k.val

/-- The set of the stations for which `p` holds. -/
def setOf (p : Fin 8 → Bool) : StationSet :=
  allStations.foldl (fun S k => if p k then S ||| (1#8 <<< k.val) else S) 0#8

/-- `x` saturated to the range `lo`..`hi` (1.7 Saturation). -/
def saturate (lo hi x : Int) : Int := if x < lo then lo else if hi < x then hi else x

/-- `n + 1`, saturating at `cap`. -/
def succSat (cap n : Nat) : Nat := min cap (n + 1)

end Sys2Proof
end

