-- ==== Sys2Proof/Syntax.lean ====
section
/-! DEFINITION. The commands of the block: one constructor for each row of spec/opcode_table.json.
The table gives its rows no fields; the operands are what the event brings from outside the station (log 4).
Numbering of bit strings: the first bit on the wire is the most significant bit of the operand. -/

namespace Sys2Proof

/-- One command: an event of the station. Each constructor names its row's rule. -/
inductive Instr where
  /-- RESET (R61): power-on or assertion of RST. -/
  | reset
  /-- RESET_RELEASE (R185): the strap levels STN2..STN0, the bytes the serial memory gives from address 0, and the level
  at which SDI stands beyond them (log 27). -/
  | resetRelease (straps : BitVec 3) (memory : List (BitVec 8)) (idleHigh : Bool)
  /-- SVC_FALLING_EDGE (R187): a falling edge on SVC, `us` microseconds after reset release. -/
  | svcFallingEdge (us : Nat)
  /-- IMAGE_READ_DONE (R188). -/
  | imageReadDone
  /-- LOAD_END (R186). -/
  | loadEnd
  /-- SYNC_MARK (R6). -/
  | syncMark
  /-- OWN_SYNC_MARK_DRIVE (R7). -/
  | ownSyncMarkDrive
  /-- MARK_NOT_READ_BACK (R8): the sample point 0..7 of the own mark that reads recessive. -/
  | markNotReadBack (sample : Fin 8)
  /-- SYNC_WINDOW_EXPIRY (R9). -/
  | syncWindowExpiry
  /-- COLD_START_TIMEOUT (R10). -/
  | coldStartTimeout
  /-- JOIN_ENTRY (R63). -/
  | joinEntry
  /-- TALLY_IMAGE (R23). -/
  | tallyImage
  /-- TALLY_HANDOVER (R16): the 70 bits read at positions 10 to 79. -/
  | tallyHandover (wire : BitVec 70)
  /-- ANSWER_TIMEOUT (R150). -/
  | answerTimeout
  /-- PREPARE_TIMEOUT (R151). -/
  | prepareTimeout
  /-- SPLIT_VIEW (R136). -/
  | splitView
  /-- PEER_LOST (R82): the station number of the record. -/
  | peerLost (k : Fin 8)
  /-- OWN_REPORT_SEND (R40): the 247 bits read at the sample points of the own frame. -/
  | ownReportSend (readBack : BitVec 247)
  /-- OWN_SLOT_END (R50). -/
  | ownSlotEnd
  /-- CLASH_SILENCE (R75). -/
  | clashSilence
  /-- SLOT_END (R51): the slot and the 247 bits sampled in it. -/
  | slotEnd (k : Fin 8) (sampled : BitVec 247)
  /-- REPORT_SECTION_END (R53). -/
  | reportSectionEnd
  /-- SUSPECT_RECOVERY (R97): the station number of the record. -/
  | suspectRecovery (k : Fin 8)
  /-- STUCK_BUS (R20): the first and last position of a span that read dominant at every sample point. -/
  | stuckBus (first last : Nat)
  /-- APPLY_POINT (R120): the level of PARK_REQ at the apply point (true: asserted). -/
  | applyPoint (parkReq : Bool)
  /-- SETTLE_TIMEOUT (R126). -/
  | settleTimeout
  /-- DEMAND_LOST (R134). -/
  | demandLost
  /-- LOCK_RAMP_END (R168). -/
  | lockRampEnd
  /-- RELEASE_HOLD_END (R169). -/
  | releaseHoldEnd
  /-- CONVERSION_END (R102): the raw value in counts. -/
  | conversionEnd (raw : BitVec 12)
  /-- SCAN_END (R102). -/
  | scanEnd
  /-- CAL_WAIT_TIMEOUT (R113). -/
  | calWaitTimeout
  /-- PULSE_EDGE (R110): the input, PS1 (true) or PS0 (false). -/
  | pulseEdge (ps1 : Bool)
  /-- DISABLE_ASSERTED (R72): `seen` when a sample point shows the level, clear for a pulse too short (R162). -/
  | disableAsserted (seen : Bool)
  /-- DISABLE_RELEASED (R72). -/
  | disableReleased (seen : Bool)
  /-- DRV_FLT_ASSERTED (R161): `seen` as for DISABLE. -/
  | drvFltAsserted (seen : Bool)
  /-- DRV_FLT_RELEASED (R161). -/
  | drvFltReleased (seen : Bool)
  /-- BUS_LOSS (R74). -/
  | busLoss
  /-- SILENT_HOLD_END (R76). -/
  | silentHoldEnd
  /-- CONDITION_EXPIRY (R175). -/
  | conditionExpiry
  /-- RECESSIVE_TO_DOMINANT_EDGE (R5): the position in which the edge falls. -/
  | recessiveToDominantEdge (position : Nat)
  /-- CANDIDATE_MARK_DROPPED (R5): the position of the sample point that read recessive. -/
  | candidateMarkDropped (position : Nat)
  deriving DecidableEq, Repr

end Sys2Proof
end

