-- ==== Sys2Proof/Decode.lean ====
section
/-! DEFINITION. The command a table word spells. No row of spec/opcode_table.json gives bits, so no word spells one (log 5). -/

namespace Sys2Proof

/-- The table gives none of its rows a match, a mask or fields (98_reader.md counts 0 rows with fixed bits). -/
def decodeTableWord (_nbits _w : Nat) : Option Instr := none

end Sys2Proof
end

