-- ==== Sys2Proof/Config.lean ====
section
/-! DEFINITION. What the UB-740 fixes for every scooter: the positions of the round and the fixed counts.
The image parameters are loaded at every reset and stand in State. The spec leaves no value of a step open, so there is no free value (log 38). -/

namespace Sys2Proof.Config

/-- Bit times in a round (Table 1-3, Table 2-2). -/
def roundLength : Nat := 2500
/-- The position counter saturates here (R4). -/
def positionMax : Nat := 65535
/-- First position of the tally section (R11). -/
def tallyStart : Nat := 10
/-- Last position of the tally section (R11, R16). -/
def tallyEnd : Nat := 79
/-- First position of the signature fields, which the stuck-bus monitor leaves out (R20). -/
def signatureStart : Nat := 48
/-- First position of slot 0 (R11). -/
def slotBase : Nat := 100
/-- Bit times in a slot (R11). -/
def slotLength : Nat := 256
/-- Bits of a report frame (R39). -/
def frameLength : Nat := 247
/-- The positions of a slot in which reception looks for the start edge (R19). -/
def startEdgeSpan : Nat := 16
/-- Last position of the report section (R53). -/
def reportEnd : Nat := 2147
/-- The sync window (R5). -/
def windowFirst : Nat := 2480
/-- The sync window (R5). -/
def windowLast : Nat := 2520
/-- Bit times from the leading edge of a mark to its confirmation (R5, R6, Table 2-1). -/
def confirmTime : Nat := 4
/-- Bit times of a sync mark (R7). -/
def markLength : Nat := 8
/-- Cold-start threshold of station 0 and its step per station number (R10). -/
def coldStartBase : Nat := 7500
/-- Cold-start threshold step per station number (R10). -/
def coldStartStep : Nat := 40
/-- Counted dominant positions that make a stuck bus (R20). -/
def stuckLimit : Nat := 33
/-- Bit times of one conversion (R102). -/
def conversionTime : Nat := 250
/-- The SILENT hold of 64 round periods in bit times (R76). -/
def silentHoldTime : Nat := 160000
/-- In-window marks that lead from LISTEN to JOIN (R63). -/
def goodRounds : Nat := 8
/-- Rounds served in JOIN (R67). -/
def joinRounds : Nat := 16
/-- Matching rounds that JOIN asks for (R70). -/
def matchRounds : Nat := 4
/-- Round periods not well-formed that make a bus loss (R74). -/
def lossPeriods : Nat := 4
/-- Consecutive clashed frames that silence (R50). -/
def clashLimit : Nat := 3
/-- Split rounds that make SPLIT_VIEW (R136). -/
def splitLimit : Nat := 3
/-- Handovers without the MEMBERS bit that make a record ABSENT (R82). -/
def absentLimit : Nat := 3
/-- Missed or stale count that is a suspect cause (R96). -/
def suspectCount : Nat := 2
/-- Clean rounds that return SUSPECT to PRESENT (R97). -/
def recoverLimit : Nat := 32
/-- Sync events without evidence that end the wait for standstill (R113). -/
def calWaitLimit : Nat := 32
/-- Saturation of a calibrated offset (R115). -/
def offsetLimit : Int := 127
/-- Stage limit of ANSWER (R150). -/
def answerLimit : Nat := 4
/-- Stage limit of PREPARE (R151). -/
def prepareLimit : Nat := 16
/-- The loss age saturates here (R142). -/
def lossAgeMax : Nat := 64
/-- Backoff after a failed claim (R157). -/
def backoffRounds : Nat := 16
/-- Failed claims that give up the group (R157). -/
def giveUpFailures : Nat := 3
/-- Entries of the active-condition table (R172). -/
def tableSize : Nat := 16
/-- Records of the condition queue (R177). -/
def queueSize : Nat := 8
/-- Round starts an event stays active (R172). -/
def expiryRounds : Nat := 250
/-- A record's count in the queue saturates here (R177). -/
def queueCountMax : Nat := 15
/-- The window in which SVC edges count, in microseconds after reset release (R187). -/
def svcWindowUs : Nat := 50000
/-- The format code of a good image (Table 12-2). -/
def formatCode : Nat := 0x4A
/-- Length of the shared section in format 4Ah (14.3). -/
def sharedLength : Nat := 448
/-- First byte after the station section (Table 14-4). -/
def stationEnd : Nat := 124
/-- A claim field with no claim (R34). -/
def noClaimCode : Nat := 127
/-- A wheel speed that is not available, on the wire (Table 1-3). -/
def speedNone : Nat := 4095
/-- A lean or demand that is not available, on the wire (Table 1-3). -/
def leanNone : Int := -512
/-- A secondary that is not available, on the wire (R42). -/
def secondaryNone : Int := -2048

end Sys2Proof.Config
end

