-- ==== Sys2Proof/Machine/State.lean ====
section
/-! DEFINITION. The state of the station as plain data, and the state at reset. -/

namespace Sys2Proof.Machine

/-! ## Names -/

/-- The station states (R61). -/
inductive StationState where
  | load | configFault | listen | join | member | halted | silent | quiet
  deriving DecidableEq, Repr

/-- The station roles (Table 1-1); `none` is the roster entry for no station. -/
inductive Role where
  | none | tiltL | tiltR | steer | steerB | speed | frame
  deriving DecidableEq, Repr

/-- The riding modes, from the most conservative (1.7). -/
inductive Mode where
  | lock | park | walk | guided | free
  deriving DecidableEq, Repr

/-- The quantities of Table 7-1. -/
inductive Quantity where
  | none | leanA | leanB | steerAngle | steerTorque | actCurrent | supply | temp | frameRoll | brake
  deriving DecidableEq, Repr

/-- The step kinds of Table 8-1. -/
inductive StepKind where
  | hold | ramp | track | settle | freeze
  deriving DecidableEq, Repr

/-- The two groups of actuator authority (R142). -/
inductive Group where
  | tilt | steer
  deriving DecidableEq, Repr

/-- The conditions of Table 11-1, in the order of their codes 1..27. -/
inductive CondCode where
  | channelLow | channelHigh | sensorPair | scanOverrun | calSkipped | calRange | driveFault | txClash | busFault
  | stuckBus | busLoss | splitView | peerSuspect | peerExcluded | peerLost | roleMismatch | configDiffers
  | trajMismatch | demandLost | settleTimeout | authFail | authGiveup | tiltSole | tiltVacant | steerVacant
  | haltInput | svcCount
  deriving DecidableEq, Repr

/-- The class of a round (R25, R37). -/
inductive RoundClass where
  | none | agreed | split | memberless | abandoned
  deriving DecidableEq, Repr

/-- An authority response (R46, R149). -/
inductive Response where
  | none | ready | give | keep | release
  deriving DecidableEq, Repr

/-! ## Image parameters (Tables 12-3 and 12-4) -/

/-- One channel record of the station section (Table 14-5). -/
structure ChannelConfig where
  quantity : Quantity
  differential : Bool
  zero : Int
  gain : Int
  offset : Int
  low : Int
  high : Int
  filter : Nat
  level : Nat
  deriving DecidableEq, Repr

/-- One pulse input record of the station section (Table 14-6). -/
structure PulseConfig where
  mapped : Bool
  scale : Nat
  window : Nat
  zeroRounds : Nat
  deriving DecidableEq, Repr

/-- The station section (R190). -/
structure StationSection where
  channels : Eight ChannelConfig
  ps0 : PulseConfig
  ps1 : PulseConfig
  kp : Int
  kd : Int
  ka : Int
  kl : Int
  effortMax : Nat
  effortSlew : Nat
  dirInverted : Bool
  applyAt : Nat
  pairBand : Nat
  pairFilter : Nat
  deriving DecidableEq, Repr

/-- One step of the library (Table 8-1). -/
structure StepDef where
  kind : StepKind
  syncEnd : Bool
  keepAuthority : Bool
  target : Int
  rate : Nat
  duration : Nat
  band : Nat
  repeats : Nat
  increment : Int
  deriving DecidableEq, Repr

/-- One entry of the mode table (R118). -/
structure ModeEntry where
  first : Nat
  last : Nat
  loop : Bool
  maxLean : Nat
  deriving DecidableEq, Repr

/-- One point of the limit curve (R182). -/
structure CurvePoint where
  speed : Nat
  limit : Nat
  deriving DecidableEq, Repr

/-- The shared section (R191). -/
structure SharedSection where
  slowBitRate : Bool
  roster : Eight Role
  demandPrimary : StationNo
  demandSecondary : StationNo
  modes : List ModeEntry
  library : List StepDef
  vWalk : Nat
  vGuided : Nat
  vh : Nat
  curve : List CurvePoint
  cautionLimit : Nat
  walkLimit : Nat
  soleLimit : Nat
  leanBand : Nat
  speedBand : Nat
  steerBand : Nat
  leanFilter : Nat
  speedFilter : Nat
  steerFilter : Nat
  voteMin : Nat
  rejoinMax : Nat
  rampRounds : Nat
  calSamples : Nat
  demandHold : Nat
  lockRamp : Nat
  releaseHold : Nat
  deriving DecidableEq, Repr

/-- The parameters in force (R192), with the own role of the header. -/
structure Params where
  role : Role
  own : StationSection
  shared : SharedSection
  deriving DecidableEq, Repr

/-! ## Pins and Configuration Loader -/

/-- The levels of the input pins that the blocks read (Table 1-2); true is asserted. -/
structure Pins where
  disable : Bool
  drvFlt : Bool
  parkReq : Bool
  deriving DecidableEq, Repr

/-- The Configuration Loader (Figure 12-1). -/
structure Loader where
  released : Bool
  straps : StationNo
  reading : Bool
  csHigh : Bool
  sdoSent : List Byte
  buffer : List Byte
  svcCount : Nat
  /-- none before the checks; some true is good (R188). -/
  verdict : Option Bool
  /-- The start option: quiet when set, normal otherwise (R187). -/
  quietOption : Bool
  digest : Word16
  deriving DecidableEq, Repr

/-! ## Reports (Table 4-1) -/

/-- The six trajectory fields, as they stand on the wire (R44). -/
structure TrajFields where
  mode : Nat
  step : Nat
  repeatLeft : Nat
  elapsed : Nat
  setpoint : Int
  pending : Nat
  deriving DecidableEq, Repr

/-- The authority view of one group, as it stands on the wire (R46). -/
structure View where
  holders : StationSet
  stage : Nat
  rampCount : Nat
  epoch : BitVec 8
  deriving DecidableEq, Repr

/-- The fields of one report frame as received, the check left out (R39). -/
structure Report where
  station : Nat
  seq : Bool
  state : Nat
  role : Nat
  digest : Word16
  lean : Int
  leanRate : Int
  secondary : Int
  speed : Nat
  demand : Int
  effort : Int
  traj : TrajFields
  propMode : Nat
  propLimit : Nat
  propFault : Nat
  suspects : StationSet
  tiltView : View
  steerView : View
  tiltResponse : Nat
  steerResponse : Nat
  staleScan : Bool
  calDone : Bool
  condCode : Nat
  condSource : Nat
  condCount : Nat
  overflow : Bool
  deriving DecidableEq, Repr

/-- The class of a slot, with the fields of a RECEIVED frame (R51). -/
inductive SlotClass where
  | silent
  | garbled
  | received (report : Report)
  deriving DecidableEq, Repr

/-! ## Bus Unit -/

/-- SYNCHRONISED or SEARCHING (R4). -/
inductive SyncState where
  | synchronised | searching
  deriving DecidableEq, Repr

/-- A candidate mark (R4): the moment of its leading edge, held as the bit times since then, and whether it opened in the window
of a SYNCHRONISED station. -/
structure Candidate where
  age : Nat
  inWindow : Bool
  deriving DecidableEq, Repr

/-- The own mark of a round (R7, R8): the bit times since its drive start, whether it was confirmed, and whether BUS_FAULT was
raised for it. -/
structure MarkDrive where
  age : Nat
  confirmed : Bool
  faulted : Bool
  deriving DecidableEq, Repr

/-- How the round was opened (R6, R8); `noRound` while the timer has none (R120). -/
inductive Opening where
  | noRound | inWindow | acquired | markless
  deriving DecidableEq, Repr

/-- The tally image (R23): the fields the station drives, with their values; none is abstaining. -/
structure TallyImage where
  joining : Bool
  mode : Option Nat
  limit : Option Nat
  fault : Option Nat
  advance : Option Bool
  claim : Option Nat
  sig : Option Word16
  deriving DecidableEq, Repr

/-- The own report frame of the round (R17, R18, R40), with the first frame bit read otherwise than driven. -/
inductive OwnSlot where
  | notBegun
  | sending (frame : BitVec 247) (report : Report) (mismatch : Option Nat)
  | ended
  deriving DecidableEq, Repr

/-- What the Bus Unit holds of the round in progress; `cutAt` is the position at which an abandoned one was abandoned (R21). -/
structure RoundState where
  opening : Opening
  abandoned : Bool
  cutAt : Nat
  image : Option TallyImage
  handed : Bool
  activity : Eight Bool
  slots : Eight (Option SlotClass)
  ownSlot : OwnSlot
  sectionDone : Bool
  applied : Bool
  deriving DecidableEq, Repr

/-- A proper claim (R34, R35). -/
structure Claim where
  group : Group
  urgency : Nat
  station : StationNo
  deriving DecidableEq, Repr

/-- The own claim result (R35). -/
inductive ClaimResult where
  | named | lost | none
  deriving DecidableEq, Repr

/-- The held outcome set (R25, R27). -/
structure HeldSet where
  members : StationSet
  joining : StationSet
  alone : Bool
  mode : Mode
  limit : Nat
  fault : Nat
  advance : Bool
  claim : Option Claim
  roundClass : RoundClass
  agreedSig : Option Word16
  deriving DecidableEq, Repr

/-- An adoption entry (R58). -/
structure AdoptionEntry where
  source : StationNo
  traj : TrajFields
  tiltHolders : StationSet
  tiltEpoch : BitVec 8
  steerHolders : StationSet
  steerEpoch : BitVec 8
  roundClass : RoundClass
  mode : Mode
  limit : Nat
  advance : Bool
  demand : Int
  deriving DecidableEq, Repr

/-- The decision record (R57); a response of none is "not heard". -/
structure DecisionRecord where
  tag : Word16
  exclusions : StationSet
  responses : Eight (Option (Response × Response))
  adoption : Option AdoptionEntry
  deriving DecidableEq, Repr

/-- The Bus Unit (Figure 2-1, Figure 4-1). -/
structure BusUnit where
  position : Nat
  sync : SyncState
  roundNumber : Word16
  candidate : Option Candidate
  mark : Option MarkDrive
  /-- TXD still holds the bit time in which the station left the states that drive, until the next one (R3, R74, R75). -/
  cutBit : Bool
  round : RoundState
  stuckCount : Nat
  stuckNext : Nat
  keptMode : Nat
  keptLimit : Nat
  keptFault : Nat
  wireRead : BitVec 70
  held : HeldSet
  claimResult : ClaimResult
  nextSeq : Bool
  clashCount : Nat
  signature : Word16
  ownSig : Option Word16
  pendingRecord : Option DecisionRecord
  lastSection : Option Word16
  deriving DecidableEq, Repr

/-! ## Membership Unit -/

/-- The digest verdict (R68). -/
inductive DigestVerdict where
  | none | noMembers | met | failed
  deriving DecidableEq, Repr

/-- The station state and the counters of chapter 5. -/
structure MembershipUnit where
  state : StationState
  goodRounds : Nat
  silencings : Nat
  losses : Nat
  joinRounds : Nat
  matchCount : Nat
  verdict : DigestVerdict
  lossPeriods : Nat
  keptOwnMatch : Bool
  disableSeen : Bool
  dropPending : Bool
  viewRefused : Bool
  quietCompares : Bool
  silentHold : Nat
  deriving DecidableEq, Repr

/-- The states of a peer record (R80). -/
inductive PeerState where
  | absent | joining | present | suspect | excluded | self
  deriving DecidableEq, Repr

/-- One record of the peer table (Table 6-1). -/
structure PeerRecord where
  state : PeerState
  rosterRole : Role
  lastReport : Option Report
  lastHeard : Option Word16
  expectedSeq : Option Bool
  missed : Nat
  stale : Nat
  leanDisagree : Nat
  speedDisagree : Nat
  steerDisagree : Nat
  recover : Nat
  absentRounds : Nat
  exclusions : Nat
  deriving DecidableEq, Repr

/-! ## Measurement Unit -/

/-- One entry of a scan list (R101). -/
structure ScanEntry where
  channel : StationNo
  swapped : Bool
  deriving DecidableEq, Repr

/-- Which of the two lists (R101). -/
inductive ScanList where
  | run | calibration
  deriving DecidableEq, Repr

/-- The two lists, each with an active and a shadow copy, and the selection held with the shadows (R101). -/
structure ScanLists where
  runActive : List ScanEntry
  runShadow : List ScanEntry
  calActive : List ScanEntry
  calShadow : List ScanEntry
  selected : ScanList
  deriving DecidableEq, Repr

/-- A scan in progress (R102). -/
structure RunningScan where
  list : ScanList
  left : List ScanEntry
  written : List StationNo
  elapsed : Nat
  deriving DecidableEq, Repr

/-- Where the own lean came from (R109). -/
inductive LeanSource where
  | leanA | leanB | peers | none
  deriving DecidableEq, Repr

/-- One set of scan results (Table 7-2); none is not available. -/
structure MeasSet where
  channels : Eight (Option Int)
  ownLean : Option Int
  leanSource : LeanSource
  leanRate : Int
  speed0 : Option Nat
  speed1 : Option Nat
  ownSpeed : Option Nat
  deriving DecidableEq, Repr

/-- The states of a channel monitor (R107). -/
inductive MonitorState where
  | normal | low | high
  deriving DecidableEq, Repr

/-- The class of one scan of a channel (R107). -/
inductive MonitorClass where
  | below | within | above
  deriving DecidableEq, Repr

/-- A channel monitor (R107). -/
structure Monitor where
  state : MonitorState
  run : Nat
  previous : Option MonitorClass
  deriving DecidableEq, Repr

/-- A pulse counter with its ring, the oldest entry first (R110). -/
structure PulseCounter where
  count : Nat
  ring : List Nat
  fill : Nat
  quiet : Nat
  deriving DecidableEq, Repr

/-- The calibration status (7.7). -/
inductive CalStatus where
  | none | waiting | running | done | skipped
  deriving DecidableEq, Repr

/-- Calibration control (R112 to R116). `heard` holds the speeds of the latest section classed in JOIN (R112). -/
structure Calibration where
  status : CalStatus
  waiting : Nat
  scans : Nat
  pSums : Eight Nat
  nSums : Eight Nat
  done : Bool
  heard : Option (List Nat)
  deriving DecidableEq, Repr

/-- The Measurement Unit (Figure 7-1). -/
structure MeasurementUnit where
  lists : ScanLists
  scan : Option RunningScan
  working : MeasSet
  latest : MeasSet
  snapshot : MeasSet
  stale : Bool
  endedSinceSync : Bool
  offsets : Eight Int
  monitors : Eight Monitor
  apart : Bool
  pairRun : Nat
  prevLean : Option Int
  ps0 : PulseCounter
  ps1 : PulseCounter
  cal : Calibration
  deriving DecidableEq, Repr

/-! ## Trajectory Engine -/

/-- The engine states (R119). -/
inductive EngineState where
  | idle | running | suspended | complete | frozen
  deriving DecidableEq, Repr

/-- The run state (Table 8-2). -/
structure RunState where
  engine : EngineState
  mode : Option Mode
  step : Nat
  repeatLeft : Nat
  accInc : Int
  elapsed : Nat
  setpoint : Int
  pending : Option Mode
  adopted : Bool
  deriving DecidableEq, Repr

/-- The Trajectory Engine (Figure 8-1); the program store is in the parameters. -/
structure Engine where
  run : RunState
  demand : Int
  lastDemand : Int
  holdCount : Nat
  readinessCount : Nat
  ready : Bool
  splitCount : Nat
  deriving DecidableEq, Repr

/-! ## Authority Unit -/

/-- A holder with its share in per mille (R142). -/
structure Holder where
  station : StationNo
  share : Nat
  deriving DecidableEq, Repr

/-- The stages of a transaction (chapter 9). -/
inductive Stage where
  | answer | prepare | ramp
  deriving DecidableEq, Repr

/-- An open transaction (Table 9-1). -/
structure Transaction where
  claimant : StationNo
  stage : Stage
  age : Nat
  rampCount : Nat
  saved : Option (List Holder)
  deriving DecidableEq, Repr

/-- A group record (Table 9-1). -/
structure GroupRecord where
  holders : List Holder
  epoch : BitVec 8
  transaction : Option Transaction
  lossAge : Nat
  deriving DecidableEq, Repr

/-- The retry state of a group (R157). -/
structure Retry where
  failures : Nat
  backoff : Nat
  givenUp : Bool
  deriving DecidableEq, Repr

/-- The Authority Unit (Figure 9-1). -/
structure Authority where
  live : Bool
  tilt : GroupRecord
  steer : GroupRecord
  tiltRetry : Retry
  steerRetry : Retry
  deriving DecidableEq, Repr

/-! ## Drive Unit -/

/-- The output states (Table 10-1). -/
inductive OutputState where
  | off | locked | rampUp | active | rampDown
  deriving DecidableEq, Repr

/-- The Drive Unit (Figure 10-1). `lrel` is what the unit asks of LREL; the pin gate of R169 is Station.lrelOut. -/
structure Drive where
  output : OutputState
  lockRamp : Nat
  release : Nat
  effort : Int
  applied : Int
  pwm : Nat
  dirHigh : Bool
  lrel : Bool
  fltSeen : Bool
  deriving DecidableEq, Repr

/-! ## Condition Unit -/

/-- The key of a condition (R171). -/
structure CondKey where
  code : CondCode
  source : Nat
  deriving DecidableEq, Repr

/-- An entry of the active-condition table (R172): its place in the list is its entry order; `expiry` is none for a state
condition; `raised` is the order of its raise (R174 "earliest raised first"). -/
structure CondEntry where
  key : CondKey
  level : Nat
  expiry : Option Nat
  raised : Nat
  deriving DecidableEq, Repr

/-- A record of the condition queue (R177). -/
structure QueueRecord where
  key : CondKey
  count : Nat
  deriving DecidableEq, Repr

/-- The proposal record (R183). -/
structure Proposal where
  mode : Mode
  limit : Nat
  fault : Nat
  ready : Bool
  claim : Nat
  deriving DecidableEq, Repr

/-- The Condition Unit (Figure 11-1). -/
structure ConditionUnit where
  table : List CondEntry
  displaced : List CondEntry
  nextRaise : Nat
  queue : List QueueRecord
  overflow : Bool
  dropped : Bool
  proposal : Option Proposal
  speedMode : Mode
  deriving DecidableEq, Repr

/-! ## The station and the machine -/

/-- The whole station: everything the spec gives the part. -/
structure Station where
  pins : Pins
  loader : Loader
  params : Params
  bus : BusUnit
  member : MembershipUnit
  peers : Eight PeerRecord
  meas : MeasurementUnit
  engine : Engine
  auth : Authority
  drive : Drive
  cond : ConditionUnit
  deriving DecidableEq, Repr

/-- The state of the machine: the station, and the commands that wait, oldest first. -/
structure State where
  station : Station
  pending : List Instr
  deriving DecidableEq, Repr

/-- The reasons the machine stops with a fault. There are none: no rule of the spec stops the part, and every abnormal
event is a condition, a change of state or an ignored event. Safe: nothing is hidden behind a stop. -/
inductive Fault where
  deriving DecidableEq, Repr

/-- The reasons the machine refuses a command. -/
inductive Refusal where
  /-- A command without a meaning yet, by its row's mnemonic. Raised by Machine/Dispatch.lean alone, and by no arm of it
  now. Safe. -/
  | notModelled (mnemonic : String)
  deriving DecidableEq, Repr

/-! ## Reset values -/

/-- A channel before the image is in force (log 6). -/
def ChannelConfig.blank : ChannelConfig :=
  { quantity := .none, differential := false, zero := 0, gain := 0, offset := 0, low := 0, high := 0, filter := 0,
    level := 0 }

/-- A pulse input before the image is in force (log 6). -/
def PulseConfig.blank : PulseConfig := { mapped := false, scale := 0, window := 0, zeroRounds := 0 }

/-- A step before the image is in force (log 6); also what a step number outside the library reads as. -/
def StepDef.blank : StepDef :=
  { kind := .freeze, syncEnd := false, keepAuthority := false, target := 0, rate := 0, duration := 0, band := 0,
    repeats := 0, increment := 0 }

/-- A mode entry before the image is in force (log 6). -/
def ModeEntry.blank : ModeEntry := { first := 0, last := 0, loop := false, maxLean := 0 }

/-- The parameters before the image is in force (log 6). No block but the loader runs in LOAD (R186). -/
def Params.blank : Params :=
  { role := .none
    own :=
      { channels := Eight.fill ChannelConfig.blank, ps0 := PulseConfig.blank, ps1 := PulseConfig.blank, kp := 0, kd := 0,
        ka := 0, kl := 0, effortMax := 0, effortSlew := 0, dirInverted := false, applyAt := 0, pairBand := 0,
        pairFilter := 0 }
    shared :=
      { slowBitRate := false, roster := Eight.fill .none, demandPrimary := 0, demandSecondary := 0, modes := [],
        library := [], vWalk := 0, vGuided := 0, vh := 0, curve := [], cautionLimit := 0, walkLimit := 0,
        soleLimit := 0, leanBand := 0, speedBand := 0, steerBand := 0, leanFilter := 0, speedFilter := 0,
        steerFilter := 0, voteMin := 0, rejoinMax := 0, rampRounds := 0, calSamples := 0, demandHold := 0,
        lockRamp := 0, releaseHold := 0 } }

/-- The pins at power-on: nothing asserted (log 7). -/
def Pins.reset : Pins := { disable := false, drvFlt := false, parkReq := false }

/-- The loader at reset (R61, R185 to R187; log 6). -/
def Loader.reset : Loader :=
  { released := false, straps := 0, reading := false, csHigh := true, sdoSent := [], buffer := [], svcCount := 0,
    verdict := none, quietOption := false, digest := 0 }

/-- No round is held (R4). -/
def RoundState.none : RoundState :=
  { opening := .noRound, abandoned := false, cutAt := 0, image := Option.none, handed := false, activity := Eight.fill false,
    slots := Eight.fill Option.none, ownSlot := .notBegun, sectionDone := false, applied := false }

/-- The held outcome set at reset, at every entry to LISTEN and on entry to QUIET (R25). -/
def HeldSet.reset : HeldSet :=
  { members := 0, joining := 0, alone := false, mode := .lock, limit := 0, fault := 0, advance := false, claim := none,
    roundClass := .none, agreedSig := none }

/-- The Bus Unit at reset (R1, R4, R25, R49, R50, R54, R60; log 6 for the kept values). -/
def BusUnit.reset : BusUnit :=
  { position := 0, sync := .searching, roundNumber := 0, candidate := none, mark := none, cutBit := false,
    round := RoundState.none, stuckCount := 0, stuckNext := 0, keptMode := 7, keptLimit := 511, keptFault := 0,
    wireRead := BitVec.allOnes 70, held := HeldSet.reset, claimResult := .none, nextSeq := false, clashCount := 0,
    signature := 0, ownSig := none, pendingRecord := none, lastSection := none }

/-- The Membership Unit at reset (R61, R64, Table 5-5). -/
def MembershipUnit.reset : MembershipUnit :=
  { state := .load, goodRounds := 0, silencings := 0, losses := 0, joinRounds := 0, matchCount := 0, verdict := .none,
    lossPeriods := 0, keptOwnMatch := false, disableSeen := false, dropPending := false, viewRefused := false,
    quietCompares := false, silentHold := 0 }

/-- A record with the values of R80 at reset, for a roster role. -/
def PeerRecord.reset (rosterRole : Role) : PeerRecord :=
  { state := .absent, rosterRole := rosterRole, lastReport := none, lastHeard := none, expectedSeq := none, missed := 0,
    stale := 0, leanDisagree := 0, speedDisagree := 0, steerDisagree := 0, recover := 0, absentRounds := 0,
    exclusions := 0 }

/-- A set of scan results with nothing available (Table 7-2), both pulse inputs unmapped. -/
def MeasSet.reset : MeasSet :=
  { channels := Eight.fill none, ownLean := none, leanSource := .none, leanRate := 0, speed0 := none, speed1 := none,
    ownSpeed := none }

/-- A cleared pulse counter with a ring of `window` zeros (R110). -/
def PulseCounter.cleared (window : Nat) : PulseCounter :=
  { count := 0, ring := List.replicate window 0, fill := 0, quiet := 255 }

/-- Calibration control at reset: the status NONE and CAL_DONE clear (R116). The waiting count, the scan count and the sums of a
pass are 0, and no speeds are heard: the spec names no reset value for them (DESIGN CHOICE, log 6). -/
def Calibration.reset : Calibration :=
  { status := .none, waiting := 0, scans := 0, pSums := Eight.fill 0, nSums := Eight.fill 0, done := false, heard := none }

/-- The Measurement Unit at reset (Table 7-2, R101, R106 to R110). Table 7-2 gives the latest set and the snapshot; the working
set holds the same values (DESIGN CHOICE, log 6). -/
def MeasurementUnit.reset : MeasurementUnit :=
  { lists := { runActive := [], runShadow := [], calActive := [], calShadow := [], selected := .run }
    scan := none, working := MeasSet.reset, latest := MeasSet.reset, snapshot := MeasSet.reset, stale := true,
    endedSinceSync := false, offsets := Eight.fill 0,
    monitors := Eight.fill { state := .normal, run := 0, previous := none }
    apart := false, pairRun := 0, prevLean := none, ps0 := PulseCounter.cleared 0, ps1 := PulseCounter.cleared 0,
    cal := Calibration.reset }

/-- The values of Table 8-2. -/
def RunState.idle : RunState :=
  { engine := .idle, mode := none, step := 0, repeatLeft := 0, accInc := 0, elapsed := 0, setpoint := 0, pending := none,
    adopted := false }

/-- The Trajectory Engine at reset (Table 8-2, R134, R136, R137; log 6). -/
def Engine.reset : Engine :=
  { run := RunState.idle, demand := 0, lastDemand := 0, holdCount := 0, readinessCount := 0, ready := false,
    splitCount := 0 }

/-- A VACANT group record (R142). -/
def GroupRecord.vacant : GroupRecord := { holders := [], epoch := 0, transaction := none, lossAge := 64 }

/-- A cleared retry state (R142, R157). -/
def Retry.cleared : Retry := { failures := 0, backoff := 0, givenUp := false }

/-- The authority table at rest (R142, R143). -/
def Authority.atRest : Authority :=
  { live := false, tilt := GroupRecord.vacant, steer := GroupRecord.vacant, tiltRetry := Retry.cleared,
    steerRetry := Retry.cleared }

/-- The Drive Unit at reset (R160). -/
def Drive.reset : Drive :=
  { output := .off, lockRamp := 0, release := 0, effort := 0, applied := 0, pwm := 0, dirHigh := false, lrel := false,
    fltSeen := false }

/-- The Condition Unit at reset (R172, R177, R180, R183). -/
def ConditionUnit.reset : ConditionUnit :=
  { table := [], displaced := [], nextRaise := 0, queue := [], overflow := false, dropped := false, proposal := none,
    speedMode := .park }

/-- The station right after reset (R61). The own record is ABSENT like every other until a good image makes it SELF: R80 gives reset
values for the others alone (DESIGN CHOICE, log 6). -/
def Station.reset : Station :=
  { pins := Pins.reset, loader := Loader.reset, params := Params.blank, bus := BusUnit.reset,
    member := MembershipUnit.reset, peers := Eight.fill (PeerRecord.reset .none), meas := MeasurementUnit.reset,
    engine := Engine.reset, auth := Authority.atRest, drive := Drive.reset, cond := ConditionUnit.reset }

/-- The machine right after reset, with no command waiting. -/
def State.reset : State := { station := Station.reset, pending := [] }

/-- What a command does to the machine: the outcome of one step. -/
abbrev Result := Host.Outcome State Fault Refusal

end Sys2Proof.Machine
end

