-- ==== Sys2Proof/Machine/Operands.lean ====
section
/-! DEFINITION. Codes and formats: the codes of modes, roles and quantities, bit fields, the tally section (Table 14-1),
the report frame (Table 14-2), the CRC (R48) and the image (14.3). -/

namespace Sys2Proof.Machine

/-! ## Codes -/

/-- The mode code (1.7 Mode codes). -/
def modeCode : Mode → Nat
  | .lock => 0
  | .park => 1
  | .walk => 2
  | .guided => 3
  | .free => 4

/-- The mode of a code 0..4. -/
def modeOfCode (n : Nat) : Option Mode :=
  match n with
  | 0 => some .lock
  | 1 => some .park
  | 2 => some .walk
  | 3 => some .guided
  | 4 => some .free
  | _ => none

/-- The code of a mode that may be absent: 7 is none (R44). -/
def modeCode7 : Option Mode → Nat
  | some m => modeCode m
  | none => 7

/-- The role code (Table 1-1). -/
def roleCode : Role → Nat
  | .none => 0
  | .tiltL => 1
  | .tiltR => 2
  | .steer => 3
  | .steerB => 4
  | .speed => 5
  | .frame => 6

/-- The role of a roster code 0..6. -/
def roleOfCode (n : Nat) : Option Role :=
  match n with
  | 0 => some .none
  | 1 => some .tiltL
  | 2 => some .tiltR
  | 3 => some .steer
  | 4 => some .steerB
  | 5 => some .speed
  | 6 => some .frame
  | _ => none

/-- The tilt roles (1.2). -/
def isTiltRole (r : Role) : Bool := r = .tiltL || r = .tiltR

/-- The steering roles. -/
def isSteerRole (r : Role) : Bool := r = .steer || r = .steerB

/-- The drive roles (R160). -/
def isDriveRole (r : Role) : Bool := isTiltRole r || isSteerRole r

/-- The roles that measure lean (R92). -/
def isLeanRole (r : Role) : Bool := isTiltRole r || r = .frame

/-- The roles that measure wheel speed (Table 1-1, R93). -/
def isSpeedRole (r : Role) : Bool := isTiltRole r || r = .speed

/-- The group a role is admitted to (R142). -/
def admits (g : Group) (r : Role) : Bool :=
  match g with
  | .tilt => isTiltRole r
  | .steer => isSteerRole r

/-- The group code of a claim (R34). -/
def groupCode : Group → Nat
  | .tilt => 0
  | .steer => 1

/-- The response code of a report (Table 4-1). -/
def responseCode : Response → Nat
  | .none => 0
  | .ready => 1
  | .give => 2
  | .keep => 3
  | .release => 4

/-- The response of a code as read: 5, 6 and 7 are NONE (Table 4-2). -/
def responseOfCode (n : Nat) : Response :=
  match n with
  | 1 => .ready
  | 2 => .give
  | 3 => .keep
  | 4 => .release
  | _ => .none

/-- The code of the state field (R41): the state field of a station that sends no frame does not arise. -/
def stateField : StationState → Nat
  | .join => 1
  | .member => 2
  | .halted => 3
  | _ => 0

/-- The range of a quantity (Table 7-1); NONE has no range (log 26). -/
def quantityRange : Quantity → Option (Int × Int)
  | .none => none
  | .leanA | .leanB | .frameRoll => some (-360, 360)
  | .steerAngle | .steerTorque | .actCurrent | .temp => some (-2047, 2047)
  | .supply => some (0, 2047)
  | .brake => some (0, 1000)

/-- A value saturated to the range of its quantity (R100). -/
def saturateTo (q : Quantity) (x : Int) : Int :=
  match quantityRange q with
  | some (lo, hi) => saturate lo hi x
  | none => x

/-! ## Bits and fields -/

/-- The bits of a number of `w` bits, the most significant first. -/
def bitsOf (w n : Nat) : List Bool := (List.range w).map fun i => n.testBit (w - 1 - i)

/-- The number whose bits, the most significant first, are `l`. -/
def ofBits (l : List Bool) : Nat := l.foldl (fun acc b => 2 * acc + b.toNat) 0

/-- The field of `w` bits that begins at bit `first` of an `n`-bit string numbered from its first bit. -/
def fieldOf (n x first w : Nat) : Nat := (x >>> (n - first - w)) % 2 ^ w

/-- A `w`-bit number read as two's complement (R39). -/
def signedOf (w v : Nat) : Int := if 2 * v < 2 ^ w then (v : Int) else (v : Int) - 2 ^ w

/-- An integer as a `w`-bit two's complement number. -/
def signedField (w : Nat) (x : Int) : Nat := (x % (2 ^ w : Int)).toNat

/-- Fields of stated widths laid end to end, the first the most significant. -/
def packFields (fields : List (Nat × Nat)) : Nat := fields.foldl (fun acc f => acc * 2 ^ f.1 + f.2 % 2 ^ f.1) 0

/-! ## The check register and the signature register -/

/-- One step of the check register (R48): stage i is bit i; stages 0, 2 and 15 are inverted on a feedback of 1. -/
def checkStep (r : Word16) (b : Bool) : Word16 :=
  if b != r.getLsbD 15 then (r <<< 1) ^^^ 0x8005#16 else r <<< 1

/-- The check over a bit string, from a register of ones (R48). -/
def checkOf (bits : List Bool) : Word16 := bits.foldl checkStep 0xFFFF#16

/-- One step of the signature register (R54): stages 0, 11, 13 and 14 are inverted on a feedback of 1. -/
def signatureStep (r : Word16) (b : Bool) : Word16 :=
  if b != r.getLsbD 15 then (r <<< 1) ^^^ 0x6801#16 else r <<< 1

/-- The signature register after absorbing a bit string (R54). -/
def absorb (r : Word16) (bits : List Bool) : Word16 := bits.foldl signatureStep r

/-- The check over bytes in ascending order, each its most significant bit first (R189). -/
def checkBytes (bytes : List Byte) : Word16 := bytes.foldl (fun r b => (bitsOf 8 b.toNat).foldl checkStep r) 0xFFFF#16

/-! ## The report frame (Table 14-2) -/

/-- The widths and values of bits 0 to 230 of a report, in the order of Table 4-1. -/
def reportFields (r : Report) : List (Nat × Nat) :=
  [ (3, r.station), (1, r.seq.toNat), (3, r.state), (3, r.role), (16, r.digest.toNat)
  , (10, signedField 10 r.lean), (12, signedField 12 r.leanRate), (12, signedField 12 r.secondary), (12, r.speed)
  , (10, signedField 10 r.demand), (11, signedField 11 r.effort)
  , (3, r.traj.mode), (5, r.traj.step), (4, r.traj.repeatLeft), (16, r.traj.elapsed)
  , (10, signedField 10 r.traj.setpoint), (3, r.traj.pending)
  , (3, r.propMode), (9, r.propLimit), (2, r.propFault), (8, r.suspects.toNat)
  , (8, r.tiltView.holders.toNat), (3, r.tiltView.stage), (7, r.tiltView.rampCount), (8, r.tiltView.epoch.toNat)
  , (8, r.steerView.holders.toNat), (3, r.steerView.stage), (7, r.steerView.rampCount), (8, r.steerView.epoch.toNat)
  , (3, r.tiltResponse), (3, r.steerResponse), (1, r.staleScan.toNat), (1, r.calDone.toNat)
  , (6, r.condCode), (4, r.condSource), (4, r.condCount), (1, r.overflow.toNat) ]

/-- The check of a frame whose bits 0 to 230 are `body` (R48). -/
def frameCheck (body : Nat) : Word16 := checkOf (bitsOf 231 body)

/-- The 247 bits of a report's frame (R39, R48). -/
def encodeReport (r : Report) : BitVec 247 :=
  let body := packFields (reportFields r)
  BitVec.ofNat 247 (body * 2 ^ 16 + (frameCheck body).toNat)

/-- The view fields that begin at bit `first` of a frame. -/
def decodeView (x first : Nat) : View :=
  { holders := BitVec.ofNat 8 (fieldOf 247 x first 8)
    stage := fieldOf 247 x (first + 8) 3
    rampCount := fieldOf 247 x (first + 11) 7
    epoch := BitVec.ofNat 8 (fieldOf 247 x (first + 18) 8) }

/-- The fields of a frame at the bit positions of Table 14-2. -/
def decodeReport (f : BitVec 247) : Report :=
  let x := f.toNat
  { station := fieldOf 247 x 0 3
    seq := fieldOf 247 x 3 1 = 1
    state := fieldOf 247 x 4 3
    role := fieldOf 247 x 7 3
    digest := BitVec.ofNat 16 (fieldOf 247 x 10 16)
    lean := signedOf 10 (fieldOf 247 x 26 10)
    leanRate := signedOf 12 (fieldOf 247 x 36 12)
    secondary := signedOf 12 (fieldOf 247 x 48 12)
    speed := fieldOf 247 x 60 12
    demand := signedOf 10 (fieldOf 247 x 72 10)
    effort := signedOf 11 (fieldOf 247 x 82 11)
    traj :=
      { mode := fieldOf 247 x 93 3
        step := fieldOf 247 x 96 5
        repeatLeft := fieldOf 247 x 101 4
        elapsed := fieldOf 247 x 105 16
        setpoint := signedOf 10 (fieldOf 247 x 121 10)
        pending := fieldOf 247 x 131 3 }
    propMode := fieldOf 247 x 134 3
    propLimit := fieldOf 247 x 137 9
    propFault := fieldOf 247 x 146 2
    suspects := BitVec.ofNat 8 (fieldOf 247 x 148 8)
    tiltView := decodeView x 156
    steerView := decodeView x 182
    tiltResponse := fieldOf 247 x 208 3
    steerResponse := fieldOf 247 x 211 3
    staleScan := fieldOf 247 x 214 1 = 1
    calDone := fieldOf 247 x 215 1 = 1
    condCode := fieldOf 247 x 216 6
    condSource := fieldOf 247 x 222 4
    condCount := fieldOf 247 x 226 4
    overflow := fieldOf 247 x 230 1 = 1 }

/-- The check of a sampled frame compares equal (R48). -/
def checkHolds (f : BitVec 247) : Bool :=
  decide (frameCheck (f.toNat >>> 16) = BitVec.ofNat 16 (f.toNat % 2 ^ 16))

/-- The class of a slot record with activity (R51). -/
def classOfBits (k : StationNo) (f : BitVec 247) : SlotClass :=
  if checkHolds f && decide (fieldOf 247 f.toNat 0 3 = k.val) then .received (decodeReport f) else .garbled

/-! ## Reading of received fields (Table 4-2) -/

/-- The lean field: outside ±360 is not available. -/
def readLean (r : Report) : Option Int := if -360 ≤ r.lean ∧ r.lean ≤ 360 then some r.lean else none

/-- The demand field: outside ±360 is not available. -/
def readDemand (r : Report) : Option Int := if -360 ≤ r.demand ∧ r.demand ≤ 360 then some r.demand else none

/-- The wheel speed field: 4095 is not available. -/
def readSpeed (r : Report) : Option Nat := if r.speed = Config.speedNone then none else some r.speed

/-- The secondary field: −2048 is not available. -/
def readSecondary (r : Report) : Option Int := if r.secondary = Config.secondaryNone then none else some r.secondary

/-- The lean rate field: −2048 is read as −2047. -/
def readLeanRate (r : Report) : Int := saturate (-2047) 2047 r.leanRate

/-- The effort field, saturated to ±1000. -/
def readEffort (r : Report) : Int := saturate (-1000) 1000 r.effort

/-- The number of stations in a set. -/
def setSize (S : StationSet) : Nat := (allStations.filter (inSet S)).length

/-- The view is proper (Table 4-2) for a group of at most `most` holders. -/
def viewProper (most : Nat) (v : View) : Bool := decide (v.stage ≤ 3) && decide (setSize v.holders ≤ most)

/-! ## The tally section (Table 14-1) -/

/-- A field of the tally section at the round position of its first bit. -/
def tallyField (wire : BitVec 70) (position w : Nat) : Nat := fieldOf 70 wire.toNat (position - Config.tallyStart) w

/-- The set of stations whose bits of a bitmap field read dominant: station 7's bit comes first (R14, R26). -/
def bitmapOf (v : Nat) : StationSet := ~~~(BitVec.ofNat 8 v)

/-- The bits a station puts into a bitmap field: its own bit dominant when it asserts the field (R14). -/
def bitmapBits (own : StationNo) (asserted : Bool) : List Bool :=
  bitsOf 8 (if asserted then (~~~(1#8 <<< own.val)).toNat else 255)

/-- The wire value of a min field: all ones when abstaining (R13). -/
def minBits (w : Nat) (v : Option Nat) : List Bool := bitsOf w (v.getD (2 ^ w - 1))

/-- The wire value of a max field: the complement, and all ones when abstaining (R13). -/
def maxBits (w : Nat) (v : Option Nat) : List Bool := bitsOf w ((v.map fun n => 2 ^ w - 1 - n % 2 ^ w).getD (2 ^ w - 1))

/-- The levels driven in a min or max field and the read-back: a contending station that drives recessive and reads
dominant stops contending (R13). Each pair is (driven, read), true recessive. -/
def contend : Bool → List Bool → List Bool → List (Bool × Bool)
  | contending, v :: vs, r :: rs =>
    let d := if contending then v else true
    (d, r) :: contend (contending && !(d && !r)) vs rs
  | _, _, _ => []

/-- The levels driven and read through the whole tally section for a tally image (R12 to R15, R23). -/
def tallyLevels (own : StationNo) (image : TallyImage) (wire : BitVec 70) : List (Bool × Bool) :=
  let read := fun position w => bitsOf w (tallyField wire position w)
  (bitmapBits own true).zip (read 10 8)
    ++ (bitmapBits own image.joining).zip (read 18 8)
    ++ contend true (minBits 3 image.mode) (read 26 3)
    ++ contend true (minBits 9 image.limit) (read 29 9)
    ++ contend true (maxBits 2 image.fault) (read 38 2)
    ++ [(image.advance.getD true, decide (tallyField wire 40 1 = 1))]
    ++ contend true (minBits 7 image.claim) (read 41 7)
    ++ contend true (minBits 16 (image.sig.map (·.toNat))) (read 48 16)
    ++ contend true (maxBits 16 (image.sig.map (·.toNat))) (read 64 16)

/-- The number of bits driven dominant and read recessive (R15). -/
def notReadBack (levels : List (Bool × Bool)) : Nat := (levels.filter fun l => !l.1 && l.2).length

/-- The MODE outcome: 5, 6 and 7 are taken as PARK (R29). -/
def modeOutcome (v : Nat) : Mode := (modeOfCode v).getD .park

/-- The LIMIT outcome: 361..511 is taken as 360 (R31). -/
def limitOutcome (v : Nat) : Nat := min v 360

/-- The CLAIM outcome: a proper code is a claim, every other one is no claim (R35, Table 3-2). -/
def claimOutcome (v : Nat) : Option Claim :=
  if v < 24 then some { group := .tilt, urgency := v / 8, station := Fin.ofNat 8 (v % 8) }
  else if 32 ≤ v ∧ v < 56 then some { group := .steer, urgency := v / 8 - 4, station := Fin.ofNat 8 (v % 8) }
  else none

/-- The class of a round by the two signature outcomes (R37). -/
def classOutcome (sigMin sigMax : Nat) : RoundClass :=
  if sigMin = sigMax then .agreed else if sigMin = 0xFFFF ∧ sigMax = 0 then .memberless else .split

/-- The outcomes of a tally as read (R26 to R37); `alone` is the flag of R27. -/
def resolveTally (driving : Bool) (own : StationNo) (wire : BitVec 70) : HeldSet :=
  let members := bitmapOf (tallyField wire 10 8)
  let joining := bitmapOf (tallyField wire 18 8) &&& members
  let sigMin := tallyField wire 48 16
  let sigMax := 0xFFFF - tallyField wire 64 16
  let roundClass := classOutcome sigMin sigMax
  { members := members
    joining := joining
    alone := driving && decide (members = 1#8 <<< own.val)
    mode := modeOutcome (tallyField wire 26 3)
    limit := limitOutcome (tallyField wire 29 9)
    fault := 3 - tallyField wire 38 2
    advance := tallyField wire 40 1 = 1
    claim := claimOutcome (tallyField wire 41 7)
    roundClass := roundClass
    agreedSig := if roundClass = .agreed then some (BitVec.ofNat 16 sigMin) else none }

/-- The member set: MEMBERS less JOINING (R27). -/
def memberSet (h : HeldSet) : StationSet := h.members &&& ~~~h.joining

/-! ## The image (14.3) -/

/-- Byte `i` of a byte string, 0 beyond its end. -/
def byteAt (b : List Byte) (i : Nat) : Nat := (b.getD i 0).toNat

/-- Two bytes, the most significant first. -/
def wordAt (b : List Byte) (i : Nat) : Nat := byteAt b i * 256 + byteAt b (i + 1)

/-- Two bytes as two's complement. -/
def signedWordAt (b : List Byte) (i : Nat) : Int := signedOf 16 (wordAt b i)

/-- A number within its stated range. -/
def natIn (lo hi n : Nat) : Option Nat := if lo ≤ n ∧ n ≤ hi then some n else none

/-- A test that the image must pass. -/
def require (test : Bool) : Option Unit := if test then some () else none

/-- An integer within its stated range. -/
def intIn (lo hi x : Int) : Option Int := if lo ≤ x ∧ x ≤ hi then some x else none

/-- A flag byte: 0 or 1 (14.3). -/
def flagIn (n : Nat) : Option Bool :=
  match n with
  | 0 => some false
  | 1 => some true
  | _ => none

/-- The quantity codes of 14.3. -/
def quantityOfCode (n : Nat) : Option Quantity :=
  match n with
  | 0 => some .none
  | 1 => some .leanA
  | 2 => some .leanB
  | 3 => some .steerAngle
  | 4 => some .steerTorque
  | 5 => some .actCurrent
  | 6 => some .supply
  | 7 => some .temp
  | 8 => some .frameRoll
  | 9 => some .brake
  | _ => none

/-- The step kinds of Table 14-8. -/
def stepKindOfCode (n : Nat) : Option StepKind :=
  match n with
  | 0 => some .hold
  | 1 => some .ramp
  | 2 => some .track
  | 3 => some .settle
  | 4 => some .freeze
  | _ => none

/-- A monitor limit within the range of its quantity (Table 12-3); a channel mapped to NONE has none (log 26). -/
def monitorLimitIn (q : Quantity) (x : Int) : Option Int :=
  match quantityRange q with
  | some (lo, hi) => intIn lo hi x
  | none => some x

/-- The channel record at byte `o` (Table 14-5), when every field is in range, its low limit is no greater than its high
limit and its differential flag is set only on STEER_TORQUE or ACT_CURRENT (R100, R188). -/
def parseChannel (b : List Byte) (o : Nat) : Option ChannelConfig := do
  let head := byteAt b o
  let _ ← natIn 0 0 (head / 16 % 8)
  let quantity ← quantityOfCode (head % 16)
  let differential := decide (128 ≤ head)
  let _ ← require (!differential || quantity = .steerTorque || quantity = .actCurrent)
  let zeroCounts ← natIn 0 4095 (wordAt b (o + 1))
  let gain ← intIn (-8192) 8192 (signedWordAt b (o + 3))
  let offset ← intIn (-127) 127 (signedOf 8 (byteAt b (o + 5)))
  let low ← monitorLimitIn quantity (signedWordAt b (o + 6))
  let high ← monitorLimitIn quantity (signedWordAt b (o + 8))
  let _ ← require (decide (low ≤ high))
  let tail := byteAt b (o + 10)
  let _ ← natIn 0 0 (tail / 4 % 4)
  return { quantity, differential, zero := (zeroCounts : Int), gain, offset, low, high, filter := tail / 16, level := tail % 4 }

/-- The pulse input record at byte `o` (Table 14-6). -/
def parsePulse (b : List Byte) (o : Nat) : Option PulseConfig := do
  let mapped ← flagIn (byteAt b o)
  let scale ← natIn 1 4095 (wordAt b (o + 1))
  let window ← natIn 1 16 (byteAt b (o + 3))
  let zeroRounds ← natIn 1 255 (byteAt b (o + 4))
  return { mapped, scale, window, zeroRounds }

/-- Eight results together. -/
def eightOf {α : Type} (f : Fin 8 → Option α) : Option (Eight α) := do
  let n0 ← f 0
  let n1 ← f 1
  let n2 ← f 2
  let n3 ← f 3
  let n4 ← f 4
  let n5 ← f 5
  let n6 ← f 6
  let n7 ← f 7
  return { n0, n1, n2, n3, n4, n5, n6, n7 }

/-- No quantity other than NONE is mapped to two channels (R100). -/
def quantitiesDistinct (channels : Eight ChannelConfig) : Bool :=
  allStations.all fun i => allStations.all fun j =>
    decide (i = j) || decide ((channels.get i).quantity = .none) ||
      decide ((channels.get i).quantity ≠ (channels.get j).quantity)

/-- The station section (Tables 12-3 and 14-4), when every parameter is in range. -/
def parseStation (b : List Byte) : Option StationSection := do
  let channels ← eightOf fun c => parseChannel b (8 + 11 * c.val)
  let _ ← require (quantitiesDistinct channels)
  let ps0 ← parsePulse b 96
  let ps1 ← parsePulse b 101
  let kp ← natIn 0 4095 (wordAt b 106)
  let kd ← natIn 0 4095 (wordAt b 108)
  let ka ← natIn 0 4095 (wordAt b 110)
  let kl ← natIn 0 4095 (wordAt b 112)
  let effortMax ← natIn 1 1000 (wordAt b 114)
  let effortSlew ← natIn 1 1000 (wordAt b 116)
  let dirInverted ← flagIn (byteAt b 118)
  let applyAt ← natIn 2160 2480 (wordAt b 119)
  let pairBand ← natIn 1 360 (wordAt b 121)
  let pairFilter ← natIn 1 15 (byteAt b 123)
  return { channels, ps0, ps1, kp := (kp : Int), kd := (kd : Int), ka := (ka : Int), kl := (kl : Int), effortMax,
           effortSlew, dirInverted, applyAt, pairBand, pairFilter }

/-- The mode entry at byte `o` (Table 14-7). -/
def parseMode (b : List Byte) (o : Nat) : Option ModeEntry := do
  let first ← natIn 0 31 (byteAt b o)
  let last ← natIn first 31 (byteAt b (o + 1))
  let loop ← flagIn (byteAt b (o + 2))
  let maxLean ← natIn 0 360 (wordAt b (o + 3))
  return { first, last, loop, maxLean }

/-- The step record at byte `o` (Table 14-8); the duration of a HOLD or SETTLE is at least 1 (R191). -/
def parseStep (b : List Byte) (o : Nat) : Option StepDef := do
  let kind ← stepKindOfCode (byteAt b o)
  let flags ← natIn 0 3 (byteAt b (o + 1))
  let target ← intIn (-360) 360 (signedWordAt b (o + 2))
  let rate ← natIn 1 80 (byteAt b (o + 4))
  let duration ← natIn (if kind = .hold || kind = .settle then 1 else 0) 65535 (wordAt b (o + 5))
  let band ← natIn 1 80 (byteAt b (o + 7))
  let repeats ← natIn 0 15 (byteAt b (o + 8))
  let increment ← intIn (-360) 360 (signedWordAt b (o + 9))
  return { kind, syncEnd := decide (flags % 2 = 1), keepAuthority := decide (2 ≤ flags), target, rate, duration, band,
           repeats, increment }

/-- The curve point at byte `o` (Table 14-7). -/
def parsePoint (b : List Byte) (o : Nat) : Option CurvePoint := do
  let speed ← natIn 0 4094 (wordAt b o)
  let limit ← natIn 0 360 (wordAt b (o + 2))
  return { speed, limit }

/-- The speeds of the limit curve ascend strictly (R188). -/
def curveAscends : List CurvePoint → Bool
  | p :: q :: rest => decide (p.speed < q.speed) && curveAscends (q :: rest)
  | _ => true

/-- The shared section that begins at byte `o` (Tables 12-4 and 14-7), when every parameter is in range and the structural
tests on it hold (R188). -/
def parseShared (b : List Byte) (o : Nat) : Option SharedSection := do
  let slowBitRate ← flagIn (byteAt b o)
  let roster ← eightOf fun k => roleOfCode (byteAt b (o + 1 + k.val))
  let primary ← natIn 0 7 (byteAt b (o + 9))
  let secondary ← natIn 0 7 (byteAt b (o + 10))
  let modes ← (List.range 5).mapM fun m => parseMode b (o + 11 + 5 * m)
  let library ← (List.range 32).mapM fun s => parseStep b (o + 36 + 11 * s)
  let vWalk ← natIn 2 4093 (wordAt b (o + 388))
  let vGuided ← natIn 3 4094 (wordAt b (o + 390))
  let _ ← require (decide (vWalk < vGuided))
  let vh ← natIn 0 1000 (wordAt b (o + 392))
  let curve ← (List.range 8).mapM fun p => parsePoint b (o + 394 + 4 * p)
  let _ ← require (curveAscends curve)
  let cautionLimit ← natIn 0 360 (wordAt b (o + 426))
  let walkLimit ← natIn 0 360 (wordAt b (o + 428))
  let soleLimit ← natIn 0 360 (wordAt b (o + 430))
  let leanBand ← natIn 1 360 (wordAt b (o + 432))
  let speedBand ← natIn 0 4094 (wordAt b (o + 434))
  let steerBand ← natIn 1 2047 (wordAt b (o + 436))
  let leanFilter ← natIn 1 15 (byteAt b (o + 438))
  let speedFilter ← natIn 1 15 (byteAt b (o + 439))
  let steerFilter ← natIn 1 15 (byteAt b (o + 440))
  let voteMin ← natIn 1 4 (byteAt b (o + 441))
  let rejoinMax ← natIn 0 3 (byteAt b (o + 442))
  let rampRounds ← natIn 8 127 (byteAt b (o + 443))
  let calSamples ← natIn 1 16 (byteAt b (o + 444))
  let demandHold ← natIn 1 255 (byteAt b (o + 445))
  let lockRamp ← natIn 1 255 (byteAt b (o + 446))
  let releaseHold ← natIn 1 255 (byteAt b (o + 447))
  return { slowBitRate, roster, demandPrimary := Fin.ofNat 8 primary, demandSecondary := Fin.ofNat 8 secondary, modes,
           library, vWalk, vGuided, vh, curve, cautionLimit, walkLimit, soleLimit, leanBand, speedBand, steerBand,
           leanFilter, speedFilter, steerFilter, voteMin, rejoinMax, rampRounds, calSamples, demandHold, lockRamp,
           releaseHold }

/-- The total length L of the header (Table 14-3). -/
def imageLength (b : List Byte) : Nat := wordAt b 1

/-- The length lies within 16..1024 (Table 12-2 check 2). -/
def lengthFits (b : List Byte) : Bool := decide (16 ≤ imageLength b) && decide (imageLength b ≤ 1024)

/-- The image CRC compares equal (Table 12-2 check 3, R189). -/
def imageCrcHolds (b : List Byte) : Bool :=
  decide ((checkBytes (b.take (imageLength b - 2))).toNat = wordAt b (imageLength b - 2))

/-- The shared section stands where R188 and 14.3 ask: its length is that of format 4Ah, it begins after the station section
and ends at or before byte L − 3. -/
def sharedPlaced (b : List Byte) : Bool :=
  decide (wordAt b 6 = Config.sharedLength) && decide (Config.stationEnd ≤ wordAt b 4) &&
    decide (wordAt b 4 + Config.sharedLength ≤ imageLength b - 2)

/-- Check 6 (R188): every parameter in range and the structural tests. -/
def parseParams (b : List Byte) (straps : StationNo) : Option Params := do
  let role ← roleOfCode (byteAt b 3 % 16)
  let _ ← require (sharedPlaced b)
  let own ← parseStation b
  let shared ← parseShared b (wordAt b 4)
  let _ ← require (decide (shared.roster.get straps = role))
  return { role, own, shared }

/-- The six checks of Table 12-2 in order; the parameters when every check passes (R188). -/
def checkImage (b : List Byte) (straps : StationNo) : Option Params :=
  if byteAt b 0 ≠ Config.formatCode then none
  else if lengthFits b = false then none
  else if imageCrcHolds b = false then none
  else if byteAt b 3 / 16 ≠ straps.val then none
  else if ¬(1 ≤ byteAt b 3 % 16 ∧ byteAt b 3 % 16 ≤ 6) then none
  else parseParams b straps

/-- The shared digest: the check over the shared section as the header places it (R189). -/
def sharedDigest (b : List Byte) : Word16 := checkBytes ((b.drop (wordAt b 4)).take (wordAt b 6))

end Sys2Proof.Machine
end

