-- ==== Sys2Proof/Machine/Flags.lean ====
section
/-! DEFINITION. The Condition Unit's table and queue (chapter 11), the fault level, and the output pins that follow the
state: TXD, DRV_EN, LREL and FLT. -/

namespace Sys2Proof.Machine

/-! ## Condition codes (Table 11-1) -/

/-- The code number 1..27. -/
def condNumber : CondCode → Nat
  | .channelLow => 1
  | .channelHigh => 2
  | .sensorPair => 3
  | .scanOverrun => 4
  | .calSkipped => 5
  | .calRange => 6
  | .driveFault => 7
  | .txClash => 8
  | .busFault => 9
  | .stuckBus => 10
  | .busLoss => 11
  | .splitView => 12
  | .peerSuspect => 13
  | .peerExcluded => 14
  | .peerLost => 15
  | .roleMismatch => 16
  | .configDiffers => 17
  | .trajMismatch => 18
  | .demandLost => 19
  | .settleTimeout => 20
  | .authFail => 21
  | .authGiveup => 22
  | .tiltSole => 23
  | .tiltVacant => 24
  | .steerVacant => 25
  | .haltInput => 26
  | .svcCount => 27

/-- The class: event (true) or state (false). -/
def condIsEvent : CondCode → Bool
  | .scanOverrun | .calSkipped | .calRange | .txClash | .busFault | .stuckBus | .busLoss | .peerSuspect | .peerExcluded
  | .peerLost | .trajMismatch | .settleTimeout | .authFail | .svcCount => true
  | .channelLow | .channelHigh | .sensorPair | .driveFault | .splitView | .roleMismatch | .configDiffers | .demandLost
  | .authGiveup | .tiltSole | .tiltVacant | .steerVacant | .haltInput => false

/-- The default level; CHANNEL_LOW and CHANNEL_HIGH take the level of their monitor instead (R171). -/
def condLevel : CondCode → Nat
  | .channelLow | .channelHigh | .svcCount => 0
  | .scanOverrun | .calSkipped | .calRange | .txClash | .peerSuspect | .peerExcluded | .peerLost | .roleMismatch
  | .configDiffers | .trajMismatch | .demandLost | .settleTimeout | .authFail | .tiltSole => 1
  | .sensorPair | .driveFault | .splitView | .authGiveup | .steerVacant => 2
  | .busFault | .stuckBus | .busLoss | .tiltVacant | .haltInput => 3

/-! ## The active-condition table (R172 to R175) -/

/-- The key has an entry in a list of entries. -/
def hasKey (entries : List CondEntry) (k : CondKey) : Bool := entries.any fun e => decide (e.key = k)

/-- The entries without the one of a key. -/
def dropKey (entries : List CondEntry) (k : CondKey) : List CondEntry := entries.filter fun e => !decide (e.key = k)

/-- The weakest entry: lowest level, and among those the earliest in entry order (R174). -/
def weakest : List CondEntry → Option CondEntry
  | [] => none
  | e :: rest =>
    match weakest rest with
    | none => some e
    | some w => if w.level < e.level then some w else some e

/-- A state condition that loses or misses its place is displaced; an event is not kept (R174). -/
def displace (c : ConditionUnit) (e : CondEntry) : ConditionUnit :=
  if condIsEvent e.key.code then c else { c with displaced := c.displaced ++ [e] }

/-- Enter a key that has no entry: at the end of a table with room, in place of the weakest entry of a full one when its level
is higher, and otherwise not (R172, R174). -/
def enterCond (c : ConditionUnit) (e : CondEntry) : ConditionUnit :=
  if c.table.length < Config.tableSize then { c with table := c.table ++ [e] }
  else
    match weakest c.table with
    | none => displace c e
    | some w =>
      if w.level < e.level then displace { c with table := dropKey c.table w.key ++ [e] } w else displace c e

/-- Offer one raise of a key to the queue (R177). -/
def offerQueue (c : ConditionUnit) (k : CondKey) : ConditionUnit :=
  if c.queue.any (fun r => decide (r.key = k)) then
    { c with
      queue := c.queue.map fun r => if r.key = k then { r with count := succSat Config.queueCountMax r.count } else r }
  else if c.queue.length < Config.queueSize then { c with queue := c.queue ++ [{ key := k, count := 1 }] }
  else { c with overflow := true, dropped := true }

/-- An entry of a key as it is raised. -/
def newEntry (c : ConditionUnit) (k : CondKey) (level : Nat) : CondEntry :=
  { key := k, level := level, expiry := if condIsEvent k.code then some Config.expiryRounds else none,
    raised := c.nextRaise }

/-- Raise an event: refresh its entry, or enter it, and offer it to the queue (R172 to R174, R177). -/
def raiseEvent (c : ConditionUnit) (k : CondKey) (level : Nat) : ConditionUnit :=
  let entered :=
    if hasKey c.table k then
      { c with
        table := c.table.map fun e => if e.key = k then { e with expiry := some Config.expiryRounds } else e }
    else { enterCond c (newEntry c k level) with nextRaise := c.nextRaise + 1 }
  offerQueue entered k

/-- The block holds the key now: it is in the table or displaced (R174). -/
def isHeld (c : ConditionUnit) (k : CondKey) : Bool := hasKey c.table k || hasKey c.displaced k

/-- Hold a state condition: a key already held has no second raise (R171, R173). -/
def holdCond (c : ConditionUnit) (k : CondKey) (level : Nat) : ConditionUnit :=
  if isHeld c k then c
  else offerQueue { enterCond c (newEntry c k level) with nextRaise := c.nextRaise + 1 } k

/-- Of two displaced entries the one offered first: highest level, then earliest raised (R174). -/
def offeredBefore (a b : CondEntry) : Bool :=
  decide (b.level < a.level) || (decide (a.level = b.level) && decide (a.raised ≤ b.raised))

/-- Put an entry into a list kept in the order of offering. -/
def insertOffered (e : CondEntry) : List CondEntry → List CondEntry
  | [] => [e]
  | f :: rest => if offeredBefore e f then e :: f :: rest else f :: insertOffered e rest

/-- The displaced entries in the order in which they are offered. -/
def offerOrder (entries : List CondEntry) : List CondEntry := entries.foldr insertOffered []

/-- Offer every displaced state condition to the table again (R174); none of them is offered to the queue. -/
def reofferDisplaced (c : ConditionUnit) : ConditionUnit :=
  (offerOrder c.displaced).foldl enterCond { c with displaced := [] }

/-- Remove a state condition; when an entry leaves the table, the displaced ones are offered again (R174, R175). -/
def removeCond (c : ConditionUnit) (k : CondKey) : ConditionUnit :=
  if hasKey c.table k then reofferDisplaced { c with table := dropKey c.table k }
  else { c with displaced := dropKey c.displaced k }

/-- Hold or remove a state condition as its cause stands. -/
def setCond (c : ConditionUnit) (cause : Bool) (k : CondKey) (level : Nat) : ConditionUnit :=
  if cause then holdCond c k level else removeCond c k

/-- The decrement of the expiry counts at a round start (R175). -/
def ageConds (c : ConditionUnit) : ConditionUnit :=
  { c with table := c.table.map fun e => { e with expiry := e.expiry.map (· - 1) } }

/-- An event whose expiry count is 0. -/
def isExpired (e : CondEntry) : Bool := decide (e.expiry = some 0)

/-- The events whose count is 0 leave the table, and the displaced ones are offered again (R174, R175). -/
def expireConds (c : ConditionUnit) : ConditionUnit :=
  if c.table.any isExpired then reofferDisplaced { c with table := c.table.filter fun e => !isExpired e } else c

/-- The highest level among some entries, 0 for none. -/
def highestLevel (entries : List CondEntry) : Nat := entries.foldl (fun m e => max m e.level) 0

/-- The own fault level (R176). -/
def faultLevel (c : ConditionUnit) : Nat := highestLevel c.table

/-- The group-state conditions, which the authority level leaves out (R149). -/
def isGroupCond (code : CondCode) : Bool := code = .tiltSole || code = .tiltVacant || code = .steerVacant

/-- The authority level (R149). -/
def authorityLevel (c : ConditionUnit) : Nat := highestLevel (c.table.filter fun e => !isGroupCond e.key.code)

/-- The head record has the sent count subtracted, and is removed at 0 (R178). -/
def tellHead (queue : List QueueRecord) (sent : Nat) : List QueueRecord :=
  match queue with
  | [] => []
  | r :: rest => if r.count ≤ sent then rest else { r with count := r.count - sent } :: rest

/-- What the report transmitter hands back for a clean frame (R47, R178): the count sent, 0 for an empty queue, and whether
the overflow flag was sent set. -/
def reportTold (c : ConditionUnit) (sent : Nat) (overflowSent : Bool) : ConditionUnit :=
  { c with
    queue := if sent = 0 then c.queue else tellHead c.queue sent
    overflow := if overflowSent && !c.dropped then false else c.overflow }

/-! ## Raising at the station -/

/-- Raise an event condition at its default level (R171). -/
def Station.raise (s : Station) (code : CondCode) (source : Nat) : Station :=
  { s with cond := raiseEvent s.cond { code := code, source := source } (condLevel code) }

/-- Raise an event condition `n` times. -/
def Station.raiseTimes (s : Station) (code : CondCode) (source : Nat) : Nat → Station
  | 0 => s
  | n + 1 => Station.raiseTimes (s.raise code source) code source n

/-- Hold or remove a state condition at its default level, as its cause stands (R171). -/
def Station.setHeld (s : Station) (cause : Bool) (code : CondCode) (source : Nat) : Station :=
  { s with cond := setCond s.cond cause { code := code, source := source } (condLevel code) }

/-- Hold or remove CHANNEL_LOW or CHANNEL_HIGH at the level of its monitor (R107, R171). -/
def Station.setHeldAt (s : Station) (cause : Bool) (code : CondCode) (source level : Nat) : Station :=
  { s with cond := setCond s.cond cause { code := code, source := source } level }

/-- TILT_SOLE and the like are held now. -/
def Station.holds (s : Station) (code : CondCode) (source : Nat) : Bool :=
  isHeld s.cond { code := code, source := source }

/-! ## Station states -/

/-- The states that drive the bus (R3). -/
def isDriving (x : StationState) : Bool := x = .join || x = .member || x = .halted

/-- The states that follow marks without driving (R4). -/
def isFollowing (x : StationState) : Bool := x = .listen || x = .quiet

/-- The states in which the round timer runs (R4). -/
def timerRuns (x : StationState) : Bool := isDriving x || isFollowing x

/-- The states that take tally outcomes and receive slots (R19, R25, R81). -/
def takesPart (x : StationState) : Bool := isDriving x || x = .quiet

/-- The states in which the pins are read (R72, R161). -/
def readsPins (x : StationState) : Bool := !(x = .load || x = .configFault)

/-- The round was opened by a recognised mark (R12). -/
def RoundState.recognised (r : RoundState) : Bool := r.opening = .inWindow || r.opening = .acquired

/-! ## Output pins -/

/-- The own mark is being driven dominant: for 8 bit times from its drive start (R7). -/
def BusUnit.markDominant (b : BusUnit) : Bool := b.mark.any fun m => decide (m.age < Config.markLength)

/-- Frame bit `i` of the own slot is driven dominant: for 0 (R17), and never after the first mismatch (R18). -/
def frameDominant (frame : BitVec 247) (mismatch : Option Nat) (i : Nat) : Bool :=
  !(frame.getMsbD i) && (match mismatch with
    | some m => decide (i ≤ m)
    | none => true)

/-- What a driving station drives dominant at the present position: its mark, its tally bits, its report frame (R3). The level
inside the tally section depends on the bits read there so far (R13), which `tallyRead` gives. -/
def Station.drivesDominant (s : Station) (tallyRead : BitVec 70) : Bool :=
  let p := s.bus.position
  let slot := Config.slotBase + Config.slotLength * s.loader.straps.val
  isDriving s.member.state &&
    (s.bus.markDominant
    || (match s.bus.round.image with
      | some image =>
        !s.bus.round.abandoned && decide (Config.tallyStart ≤ p) && decide (p ≤ Config.tallyEnd) &&
          (match (tallyLevels s.loader.straps image tallyRead)[p - Config.tallyStart]? with
          | some l => !l.1
          | none => false)
      | none => false)
    || (match s.bus.round.ownSlot with
      | .sending frame _ mismatch =>
        !s.bus.round.abandoned && decide (slot ≤ p) && decide (p < slot + Config.frameLength) &&
          frameDominant frame mismatch (p - slot)
      | .notBegun | .ended => false))

/-- TXD drives the bus dominant at the present position (R1, R3, R7, R11): what the station drives, and in the first bit time of
LISTEN or SILENT what it was driving as it left the states that drive (R3, R74, R75). -/
def Station.txdDominant (s : Station) (tallyRead : BitVec 70) : Bool :=
  s.drivesDominant tallyRead || ((s.member.state = .listen || s.member.state = .silent) && s.bus.cutBit)

/-- DRV_EN is asserted (R162). -/
def Station.drvEn (s : Station) : Bool :=
  (s.drive.output = .rampUp || s.drive.output = .active || s.drive.output = .rampDown) &&
    s.member.state = .member && !s.pins.disable && !s.pins.drvFlt

/-- LREL is asserted (R169): what the Drive Unit asks, gated by the pin levels of DISABLE and DRV_FLT. -/
def Station.lrelOut (s : Station) : Bool := s.drive.lrel && !s.pins.disable && !s.pins.drvFlt

/-- FLT is asserted (R184). -/
def Station.fltOut (s : Station) : Bool :=
  match s.member.state with
  | .load => false
  | .configFault => true
  | .listen | .join | .member | .halted | .silent | .quiet => decide (1 ≤ s.bus.held.fault)

end Sys2Proof.Machine
end

