-- ==== Sys2Proof/Machine/Ops.lean ====
section
/-! DEFINITION. Operations that several blocks share: the own number, the moments of a round, leaving and entering states,
and what re-entry clears and keeps (Table 5-5). -/

namespace Sys2Proof.Machine

/-! ## Outcome of a command -/

/-- A command whose effect on the station is `f` ends in a next state; the queue is left alone. -/
def State.after (s : State) (f : Station → Station) : Result := .next { s with station := f s.station }

/-! ## Number, roles and sets -/

/-- The own station number: the strap latch (R185, R192). -/
def Station.number (s : Station) : StationNo := s.loader.straps

/-- A station's role for authority and for what it measures: the roster role, and the own role for the own number
(R142; log 16). -/
def Station.roleOf (s : Station) (k : StationNo) : Role :=
  if k = s.number then s.params.role else (s.peers.get k).rosterRole

/-- A peer is usable while its record is PRESENT or SUSPECT (R99). -/
def Station.usable (s : Station) (k : StationNo) : Bool :=
  (s.peers.get k).state = .present || (s.peers.get k).state = .suspect

/-- The rejoin allowance is spent (R64). -/
def Station.allowanceSpent (s : Station) : Bool :=
  decide (s.params.shared.rejoinMax < s.member.silencings + s.member.losses)

/-- The stations whose last report passes the this-round test of R81. -/
def Station.thisRound (s : Station) (k : StationNo) : Option Report :=
  if (s.peers.get k).lastHeard = some s.bus.roundNumber then (s.peers.get k).lastReport else none

/-- First position of slot `k` (R11). -/
def slotStart (k : StationNo) : Nat := Config.slotBase + Config.slotLength * k.val

/-- Last position of slot `k` (R11). -/
def slotLast (k : StationNo) : Nat := slotStart k + (Config.slotLength - 1)

/-! ## Drive Unit: entry to OFF (R161) -/

/-- The unit enters OFF: effort, counts and magnitude 0, LREL deasserted, DIR kept. -/
def Drive.enterOff (d : Drive) : Drive :=
  { d with output := .off, lockRamp := 0, release := 0, effort := 0, applied := 0, pwm := 0, lrel := false }

/-- A drive role enters OFF; the other roles are in OFF always (R160). -/
def Station.driveOff (s : Station) : Station := { s with drive := s.drive.enterOff }

/-! ## The sample points of DISABLE and DRV_FLT (R72, R161) -/

/-- DISABLE as a sample point shows it (R72, R161). -/
def Station.seeDisable (s : Station) (level : Bool) : Station :=
  let s := { s with member := { s.member with disableSeen := level } }
  let s := s.setHeld level .haltInput 0
  if level then
    let s := if s.member.state = .member then { s with member := { s.member with state := .halted } } else s
    s.driveOff
  else if s.member.state = .halted then { s with member := { s.member with state := .member } }
  else s

/-- DRV_FLT as a sample point shows it, on a drive role (R161). -/
def Station.seeDrvFlt (s : Station) (level : Bool) : Station :=
  if isDriveRole s.params.role then
    let s := { s with drive := { s.drive with fltSeen := level } }
    let s := s.setHeld level .driveFault 0
    if level then s.driveOff else s
  else s

/-- A sample point shows both pins, in the states that read them (R72, R161). A level that stands is read at every sample point,
and reading it once more changes nothing. -/
def Station.samplePins (s : Station) : Station :=
  if readsPins s.member.state then (s.seeDisable s.pins.disable).seeDrvFlt s.pins.drvFlt else s

/-- The sample points of the bit times until position `p` read the pins, when `p` is still to come (R72, R161; log 23). -/
def Station.sampleUntil (s : Station) (p : Nat) : Station := if s.bus.position < p then s.samplePins else s

/-! ## Positions -/

/-- A candidate after `n` more bit times: past the fourth bit time from its edge without a confirmation it is dropped (R5;
log 51). -/
def Candidate.later (n : Nat) (c : Candidate) : Option Candidate :=
  if c.age + n ≤ Config.confirmTime then some { c with age := c.age + n } else none

/-- The own mark after `n` more bit times. -/
def MarkDrive.later (n : Nat) (m : MarkDrive) : MarkDrive := { m with age := min Config.positionMax (m.age + n) }

/-- The round timer as it reaches position `p`, or stays at a later one; it saturates (R4). A bit cut by a bus loss is released at
the next bit time (R3, R74). -/
def BusUnit.later (b : BusUnit) (p : Nat) : BusUnit :=
  { b with
    position := min Config.positionMax (max b.position p)
    candidate := b.candidate.bind (Candidate.later (p - b.position))
    mark := b.mark.map (MarkDrive.later (p - b.position))
    cutBit := b.cutBit && decide (p ≤ b.position) }

/-- A SYNCHRONISED following station is past position 2520 (R9). -/
def Station.windowPassed (s : Station) : Bool :=
  isFollowing s.member.state && s.bus.sync = .synchronised && decide (Config.windowLast < s.bus.position)

/-- The timer becomes SEARCHING: no round, no pending record (R9, R60, R120). The own signature that a QUIET station holds stays
until the next handover: R36 and R60 do not say (DESIGN CHOICE, log 56). -/
def BusUnit.loseMarks (b : BusUnit) : BusUnit :=
  { b with sync := .searching, pendingRecord := none, round := RoundState.none }

/-- The marks are lost, and the good-round count with them (R9, R63). -/
def Station.loseMarks (s : Station) : Station :=
  { s with bus := s.bus.loseMarks, member := { s.member with goodRounds := 0 } }

/-- The timer has reached position `p`, or a later one it was at already, with what the passing of time alone does to it: a
candidate not confirmed in time is dropped (R5), and a following station past its window loses the marks (R9; log 2). -/
def Station.advance (s : Station) (p : Nat) : Station :=
  let s := { s with bus := s.bus.later p }
  if s.windowPassed then s.loseMarks else s

/-- The bit times until position `p` have passed, or the station is at a later one already: the pins were sampled in them, and the
timer goes on (R5, R9, R72, R161; log 2). -/
def Station.reach (s : Station) (p : Nat) : Station := (s.sampleUntil p).advance p

/-- An event that the spec fixes at position `p` is taken there, while `p` has not passed (log 2). -/
def Station.atMoment (s : Station) (p : Nat) (f : Station → Station) : Station :=
  if s.bus.position ≤ p then f (s.reach p) else s

/-! ## The round -/

/-- A new round (R6, R8), with nothing of it done. -/
def RoundState.fresh (opening : Opening) : RoundState := { RoundState.none with opening := opening }

/-- The round that ends now was well-formed (R22). -/
def RoundState.wellFormed (r : RoundState) : Bool := r.recognised && !r.abandoned

/-- The class the apply point takes (R120): abandoned when no handover was made or the round was abandoned before. -/
def Station.applyClass (s : Station) : RoundClass :=
  if s.bus.round.abandoned || !s.bus.round.handed then .abandoned else s.bus.held.roundClass

/-- The claim goes and the class is abandoned; the rest of the held outcome set stands (R25). -/
def HeldSet.markAbandoned (h : HeldSet) : HeldSet := { h with claim := none, roundClass := .abandoned }

/-! ## Drive Unit at an entry to LISTEN (R160) -/

/-- The Drive Unit at an entry to LISTEN (R160); the level of DRV_FLT stays as read. DIR is low, as R160 has it at every entry to
LISTEN, also where bus loss leaves MEMBER and R161 keeps its level at the OFF entry (DESIGN CHOICE, log 59). -/
def Drive.atListen (d : Drive) : Drive := { Drive.reset with fltSeen := d.fltSeen }

/-! ## Authority table at rest (R142, R143) -/

/-- The table is cleared and at rest, its group conditions and AUTH_GIVEUP are removed (R143, R157, R158). -/
def Station.restAuthority (s : Station) : Station :=
  let s := { s with auth := Authority.atRest }
  let s := s.setHeld false .tiltSole 0
  let s := s.setHeld false .tiltVacant 0
  let s := s.setHeld false .steerVacant 0
  let s := s.setHeld false .authGiveup 0
  s.setHeld false .authGiveup 1

/-! ## Trajectory Engine cleared (R119, R134, R136, R137) -/

/-- The run state takes the values of Table 8-2, and the readiness count becomes 0. -/
def Engine.clearRun (e : Engine) : Engine := { e with run := RunState.idle, readinessCount := 0 }

/-- Remove DEMAND_LOST whatever its source, 0..8. -/
def Station.removeDemandLost (s : Station) : Station :=
  (List.range 9).foldl (fun s src => s.setHeld false .demandLost src) s

/-- The engine at an entry to LISTEN: Table 8-2, the demand hold state and the split count. -/
def Station.clearEngine (s : Station) : Station :=
  let s := { s with engine := Engine.reset }
  (s.removeDemandLost).setHeld false .splitView 0

/-! ## Peer table cleared (R80, R82) -/

/-- The values a record takes at an entry to ABSENT: its roster role and exclusions are kept (R82). -/
def PeerRecord.toAbsent (r : PeerRecord) : PeerRecord :=
  { PeerRecord.reset r.rosterRole with exclusions := r.exclusions }

/-- The conditions that a record's PRESENT or SUSPECT state holds are removed (R89, R171). -/
def Station.removeRecordConds (s : Station) (k : StationNo) : Station :=
  (s.setHeld false .roleMismatch k.val).setHeld false .configDiffers k.val

/-- Every record other than the own one takes the values of R80; the own one loses its last report. -/
def clearedPeers (own : StationNo) (peers : Eight PeerRecord) : Eight PeerRecord :=
  Eight.ofFn fun k =>
    if k = own then { peers.get k with lastReport := none, lastHeard := none }
    else PeerRecord.reset (peers.get k).rosterRole

/-- The peer table at an entry to LISTEN, with the state conditions it held (R80, R171). -/
def Station.clearPeers (s : Station) : Station :=
  let s := { s with peers := clearedPeers s.number s.peers }
  allStations.foldl Station.removeRecordConds s

/-! ## Measurement Unit at re-entry (Table 5-5, R101, R110, R116) -/

/-- The lists as selected after reset and at re-entry: the run list, and normal polarity in the shadow. -/
def ScanLists.select (l : ScanLists) (list : ScanList) (swapped : Bool) (differential : StationNo → Bool) : ScanLists :=
  { l with
    calShadow := l.calShadow.map fun e => if differential e.channel then { e with swapped := swapped } else e
    selected := list }

/-- A channel has the differential flag (R100). -/
def Station.isDifferential (s : Station) (c : StationNo) : Bool := (s.params.own.channels.get c).differential

/-- Post a list and a polarity to the shadow copies (R101). -/
def Station.postList (s : Station) (list : ScanList) (swapped : Bool) : Station :=
  { s with meas := { s.meas with lists := s.meas.lists.select list swapped s.isDifferential } }

/-- The sums of a pass are discarded (R116), and the scan count with them: both are 0 outside a pass (DESIGN CHOICE, log 57). -/
def Calibration.clearPass (c : Calibration) : Calibration :=
  { c with scans := 0, pSums := Eight.fill 0, nSums := Eight.fill 0 }

/-- The Measurement Unit at an entry to LISTEN: rings and calibration status cleared, the run list at normal polarity
posted; the latest set, the snapshot, the offsets, the monitors and the pair check are kept. R108 has the pair check keep its state
and does not say whether its run count is kept with it: it is (DESIGN CHOICE, log 60). The counts and the sums of the calibration
are 0 (DESIGN CHOICE, log 57). -/
def Station.clearMeasurement (s : Station) : Station :=
  let s := s.postList .run false
  { s with
    meas :=
      { s.meas with
        ps0 := PulseCounter.cleared s.params.own.ps0.window
        ps1 := PulseCounter.cleared s.params.own.ps1.window
        cal := { Calibration.reset with done := s.meas.cal.done } } }

/-! ## Bus Unit at an entry to LISTEN (R4, R25, R50, R54, R60, Table 5-5) -/

/-- The timer, the held outcome set, the clash count, the signature and the pending record are cleared; next seq and the
kept proposals stay. The own claim result is NONE: R25, R35 and Table 5-5 do not say (DESIGN CHOICE, log 46). -/
def BusUnit.atListen (b : BusUnit) : BusUnit :=
  { BusUnit.reset with
    keptMode := b.keptMode, keptLimit := b.keptLimit, keptFault := b.keptFault, wireRead := b.wireRead,
    nextSeq := b.nextSeq }

/-! ## Entry to LISTEN (R62, R77) -/

/-- The Membership Unit at an entry to LISTEN: the returns and the level of DISABLE are kept (R64, Table 5-5). -/
def MembershipUnit.atListen (m : MembershipUnit) : MembershipUnit :=
  { MembershipUnit.reset with
    state := .listen, silencings := m.silencings, losses := m.losses, disableSeen := m.disableSeen }

/-- Entry to LISTEN: each block clears or keeps its state as Table 5-5 states (R62, R77, R180, R183). CONFIG_DIFFERS with
source 8 leaves with JOIN (R68). -/
def Station.enterListen (s : Station) : Station :=
  let s := { s with bus := s.bus.atListen, member := s.member.atListen, drive := s.drive.atListen }
  let s := s.clearPeers
  let s := s.clearMeasurement
  let s := s.clearEngine
  let s := s.restAuthority
  let s := s.setHeld false .configDiffers 8
  { s with cond := { s.cond with proposal := none, speedMode := .park } }

/-! ## SILENT (R75) -/

/-- The Bus Unit at an entry to SILENT: the timer stops, whatever was driven ends after the present bit time, in which TXD is
dominant where `cut` says so, and the pending record is discarded (R3, R4, R60, R75). The held outcome set stays as it was left
(R184). -/
def BusUnit.atSilent (b : BusUnit) (cut : Bool) : BusUnit :=
  { b with candidate := none, mark := none, cutBit := cut, round := RoundState.none, pendingRecord := none }

/-- Entry to SILENT from JOIN, MEMBER or HALTED (R64, R75, R76, R116): a scan or a calibration pass in progress ends without
a result (log 13). TXD keeps its level to the end of the bit time (R3): at a handover that of the last signature bit, by the values
just read; at the end of the own slot nothing is driven. -/
def Station.enterSilent (s : Station) : Station :=
  let s :=
    { s with
      bus := s.bus.atSilent (s.drivesDominant s.bus.wireRead)
      member := { s.member with state := .silent, silencings := succSat 4 s.member.silencings, silentHold := 0 }
      meas := { s.meas with scan := none, cal := s.meas.cal.clearPass } }
  (s.driveOff).setHeld false .configDiffers 8

/-- The clash count has reached 3 at a driving station (R50, R75). -/
def Station.clashSilenceDue (s : Station) : Bool :=
  isDriving s.member.state && decide (Config.clashLimit ≤ s.bus.clashCount)

/-- Silence after the third consecutive clashed frame, where it is due (R50, R75). -/
def Station.clashSilence (s : Station) : Station := if s.clashSilenceDue then s.enterSilent else s

/-! ## Bus loss (R74) -/

/-- The loss period count has reached 4 at a driving station. -/
def Station.busLossDue (s : Station) : Bool :=
  isDriving s.member.state && decide (Config.lossPeriods ≤ s.member.lossPeriods)

/-- The return to LISTEN after bus loss: BUS_LOSS, the loss count, the re-entry; a mark being driven is cut short, and TXD holds
the present bit time of it (R3, R64, R74, R77). -/
def Station.returnAfterLoss (s : Station) : Station :=
  let cut := isDriving s.member.state && s.bus.markDominant
  let s := s.raise .busLoss 0
  let s := { s with member := { s.member with losses := succSat 4 s.member.losses } }
  let s := s.enterListen
  { s with bus := { s.bus with cutBit := cut } }

/-- Bus loss, where it is due. -/
def Station.busLoss (s : Station) : Station := if s.busLossDue then s.returnAfterLoss else s

/-! ## Entry to JOIN (R63, R65, R113, R141, R142) -/

/-- Some channel has the differential flag (R113). -/
def Station.hasDifferential (s : Station) : Bool := allStations.any s.isDifferential

/-- The calibration status of a new JOIN episode (R113); the speeds heard belong to the episode (R112). -/
def Station.startCalibration (s : Station) : Station :=
  { s with
    meas :=
      { s.meas with
        cal :=
          { Calibration.reset with
            status := if s.hasDifferential then .waiting else .done, done := s.meas.cal.done } } }

/-- The Membership Unit on entry to JOIN (R65). -/
def MembershipUnit.atJoin (m : MembershipUnit) : MembershipUnit :=
  { m with state := .join, joinRounds := 0, matchCount := 0, verdict := .none, lossPeriods := 0, keptOwnMatch := false,
           dropPending := false, viewRefused := false, quietCompares := false }

/-- Entry to JOIN: the values of R65, the adopted flag cleared, the authority table at rest. -/
def Station.enterJoin (s : Station) : Station :=
  let s := { s with bus := { s.bus with nextSeq := false }, member := s.member.atJoin }
  let s := s.startCalibration
  let s := { s with engine := s.engine.clearRun }
  s.restAuthority

/-- Eight consecutive in-window marks in LISTEN, with the rejoin allowance left (R63, R64). -/
def Station.joinEntryDue (s : Station) : Bool :=
  s.member.state = .listen && decide (Config.goodRounds ≤ s.member.goodRounds) && !s.allowanceSpent

/-- Entry to JOIN after the eighth in-window mark, where it is due. -/
def Station.joinEntry (s : Station) : Station := if s.joinEntryDue then s.enterJoin else s

/-! ## Abandonment (R21) -/

/-- The round is markless, or was abandoned up to position 79, and its tally was not handed on (Table 2-6). -/
def RoundState.tallyCut (r : RoundState) : Bool :=
  r.abandoned && !r.handed && (decide (r.opening = .markless) || decide (r.cutAt ≤ Config.tallyEnd))

/-- The tally's consumers are told at position 79 that the round was abandoned before its handover: the claim and the class of the
held set (R25), and the own signature and the record of the round before are discarded, which are held until then (R36, R59, Table
2-6; log 54). The own claim result of the last handover stands (log 46). -/
def BusUnit.tellTally (b : BusUnit) : BusUnit :=
  { b with held := b.held.markAbandoned, ownSig := none, pendingRecord := none }

/-- An own frame that an abandonment cut ends with its slot, neither clean nor clashed: next seq is inverted, and the clash count
stands (R18, R49, R50). -/
def BusUnit.cutFrame (b : BusUnit) : BusUnit :=
  match b.round.ownSlot with
  | .sending _ _ _ => { b with nextSeq := !b.nextSeq, round := { b.round with ownSlot := .ended } }
  | .notBegun | .ended => b

/-- The round is abandoned at a position (R21). A round abandoned in its quiet span discards the record built in it at once (R57,
Table 2-6); every other consumer is told where it would have taken the round's results, at position 79, at the end of the own slot
and at position 2147 (R21; log 58). -/
def Station.abandonRound (s : Station) (position : Nat) : Station :=
  { s with
    bus :=
      { s.bus with
        pendingRecord := if s.bus.round.sectionDone then none else s.bus.pendingRecord
        round := { s.bus.round with abandoned := true, cutAt := position } } }

end Sys2Proof.Machine
end

