-- ==== Sys2Proof/Machine/Measurement.lean ====
section
/-! DEFINITION. The Measurement Unit (chapter 7): the scan, scaling, monitors, own lean, pulses, calibration, and the
meanings of CONVERSION_END, SCAN_END, CAL_WAIT_TIMEOUT and PULSE_EDGE. -/

namespace Sys2Proof.Machine

/-! ## Channels -/

/-- The channel mapped to a quantity, if any (R100). -/
def Station.channelOf (s : Station) (q : Quantity) : Option StationNo :=
  allStations.find? fun c => decide ((s.params.own.channels.get c).quantity = q)

/-- The channel is mapped (R100). -/
def Station.isMapped (s : Station) (c : StationNo) : Bool := decide ((s.params.own.channels.get c).quantity ≠ .none)

/-- The channel's value is failed (R107). -/
def Station.isFailed (s : Station) (c : StationNo) : Bool := decide ((s.meas.monitors.get c).state ≠ .normal)

/-- The value of a quantity in a set when its channel is mapped and not failed (R42, R94, R165; log 15). -/
def Station.fitValue (s : Station) (set : MeasSet) (q : Quantity) : Option Int :=
  match s.channelOf q with
  | none => none
  | some c => if s.isFailed c then none else set.channels.get c

/-! ## Scaling (R105) -/

/-- A raw value scaled by offset, zero and gain, and saturated to the range of its quantity. -/
def scaleRaw (cfg : ChannelConfig) (offset : Int) (raw : Nat) : Int :=
  saturateTo cfg.quantity ((((raw : Int) - offset - cfg.zero) * cfg.gain).tdiv 1024)

/-! ## Channel monitors (R107, Table 7-3) -/

/-- The class of a scaled value. -/
def monitorClass (cfg : ChannelConfig) (x : Int) : MonitorClass :=
  if x < cfg.low then .below else if cfg.high < x then .above else .within

/-- The monitor state towards which a class counts. -/
def classTarget : MonitorClass → MonitorState
  | .below => .low
  | .above => .high
  | .within => .normal

/-- One scan of a monitor that is on: a class that belongs to its state clears the run count; another class counts, and
the transition is taken at the filter count. -/
def monitorStep (filter : Nat) (m : Monitor) (c : MonitorClass) : Monitor :=
  if classTarget c = m.state then { m with run := 0, previous := some c }
  else
    let run := if m.previous = some c then succSat 15 m.run else 1
    { state := if filter ≤ run then classTarget c else m.state, run := run, previous := some c }

/-- The conditions of a channel follow its monitor (R107): what ends is removed before what begins is held. -/
def Station.monitorConds (s : Station) (c : StationNo) (state : MonitorState) : Station :=
  let level := (s.params.own.channels.get c).level
  match state with
  | .normal => (s.setHeldAt false .channelLow c.val level).setHeldAt false .channelHigh c.val level
  | .low => (s.setHeldAt false .channelHigh c.val level).setHeldAt true .channelLow c.val level
  | .high => (s.setHeldAt false .channelLow c.val level).setHeldAt true .channelHigh c.val level

/-- Hand a scaled value to its channel's monitor; a monitor that is off takes no action (R107). -/
def Station.monitorChannel (s : Station) (c : StationNo) : Station :=
  let cfg := s.params.own.channels.get c
  match s.meas.working.channels.get c with
  | none => s
  | some x =>
    if s.isMapped c && decide (0 < cfg.filter) then
      let m := s.meas.monitors.get c
      let m' := monitorStep cfg.filter m (monitorClass cfg x)
      let s := { s with meas := { s.meas with monitors := s.meas.monitors.set c m' } }
      if m'.state = m.state then s else s.monitorConds c m'.state
    else s

/-! ## Pair check (R108) -/

/-- The pair check at the end of a scan, on a tilt role with both lean channels mapped. -/
def Station.pairCheck (s : Station) : Station :=
  if isTiltRole s.params.role then
    match s.channelOf .leanA, s.channelOf .leanB with
    | some a, some b =>
      match s.meas.working.channels.get a, s.meas.working.channels.get b with
      | some x, some y =>
        let split := decide (s.params.own.pairBand < (x - y).natAbs)
        let run := if split = s.meas.apart then 0 else succSat 15 s.meas.pairRun
        if s.params.own.pairFilter ≤ run then
          let s := { s with meas := { s.meas with apart := split, pairRun := 0 } }
          s.setHeld split .sensorPair 0
        else { s with meas := { s.meas with pairRun := run } }
      | _, _ => s
    | _, _ => s
  else s

/-! ## Own lean and lean rate (R106, R109) -/

/-- A lean channel is unfit: unmapped, failed, or outside its own limits while the pair check is APART. -/
def Station.fitLean (s : Station) (q : Quantity) : Option Int :=
  match s.channelOf q with
  | none => none
  | some c =>
    if s.isFailed c then none
    else
      match s.meas.working.channels.get c with
      | none => none
      | some x =>
        if s.meas.apart && decide (monitorClass (s.params.own.channels.get c) x ≠ .within) then none else some x

/-- The mean of some values, truncated toward zero; none of none. -/
def meanOf (l : List Int) : Option Int := if l.isEmpty then none else some (l.sum.tdiv l.length)

/-- The leans of the usable peers of lean roles whose report satisfies `report` (R109, R165; log 16). -/
def Station.peerLeans (s : Station) (report : StationNo → Option Report) : List Int :=
  allStations.filterMap fun k =>
    if s.usable k && decide (k ≠ s.number) && isLeanRole (s.roleOf k) then (report k).bind readLean else none

/-- The last report of a peer when it was taken in at the latest end of a report section (R109): the latest that handed on its
results (log 43). -/
def Station.latestSectionReport (s : Station) (k : StationNo) : Option Report :=
  if s.bus.lastSection.isSome && decide ((s.peers.get k).lastHeard = s.bus.lastSection) then (s.peers.get k).lastReport
  else none

/-- The peer lean, or not available (R109 cases 3 and 4). -/
def Station.peerLean (s : Station) : Option Int × LeanSource :=
  match meanOf (s.peerLeans s.latestSectionReport) with
  | some x => (some x, .peers)
  | none => (none, .none)

/-- The own lean and its source (R109). -/
def Station.selectLean (s : Station) : Option Int × LeanSource :=
  if isTiltRole s.params.role then
    match s.fitLean .leanA with
    | some x => (some x, .leanA)
    | none =>
      match s.fitLean .leanB with
      | some x => (some x, .leanB)
      | none => s.peerLean
  else if s.params.role = .frame then
    match s.fitLean .frameRoll with
    | some x => (some x, .leanA)
    | none => s.peerLean
  else (none, .none)

/-- The own lean rate from the leans of this scan and the one before (R106). -/
def leanRate (now before : Option Int) : Int :=
  match now, before with
  | some x, some y => saturate (-2047) 2047 (x - y)
  | _, _ => 0

/-- The working set is completed with own lean, source and rate, and the lean is held for the next scan (R102 step 3). -/
def Station.completeLean (s : Station) : Station :=
  let lean := s.selectLean
  let rate := leanRate lean.1 s.meas.prevLean
  { s with
    meas :=
      { s.meas with
        working := { s.meas.working with ownLean := lean.1, leanSource := lean.2, leanRate := rate }
        prevLean := lean.1 } }

/-! ## Calibration (R113 to R116) -/

/-- The saturated offset of a channel from its two sums (R115), with whether saturation changed it. -/
def passOffset (samples pSum nSum : Nat) : Int × Bool :=
  let x := ((nSum : Int) - pSum).tdiv (2 * samples)
  (saturate (-Config.offsetLimit) Config.offsetLimit x,
    decide (saturate (-Config.offsetLimit) Config.offsetLimit x ≠ x))

/-- The offset that the pass gives channel `c`. -/
def Station.offsetOf (s : Station) (c : StationNo) : Int × Bool :=
  passOffset s.params.shared.calSamples (s.meas.cal.pSums.get c) (s.meas.cal.nSums.get c)

/-- Raise CAL_RANGE for a differential channel whose result saturated (R115 step 1). -/
def Station.raiseCalRange (s : Station) (c : StationNo) : Station :=
  if s.isDifferential c && (s.offsetOf c).2 then s.raise .calRange c.val else s

/-- The pass completes (R115). With the run list, normal polarity is posted (DESIGN CHOICE, log 49). The scan count and the sums
are 0 after it: R115 does not say, and Table 7-5 shows a dash (DESIGN CHOICE, log 57). -/
def Station.completePass (s : Station) : Station :=
  let s := allStations.foldl Station.raiseCalRange s
  let offsets := Eight.ofFn fun c => if s.isDifferential c then (s.offsetOf c).1 else s.meas.offsets.get c
  let s :=
    { s with
      meas :=
        { s.meas with
          offsets := offsets, cal := { (s.meas.cal.clearPass) with status := .done, done := true } } }
  s.postList .run false

/-- The end of a scan made under a list, as a running pass counts it (R114, R115). -/
def Station.countPass (s : Station) (list : ScanList) : Station :=
  if s.meas.cal.status = .running && list = .calibration then
    let scans := s.meas.cal.scans + 1
    let s := { s with meas := { s.meas with cal := { s.meas.cal with scans := scans } } }
    if 2 * s.params.shared.calSamples ≤ scans then s.completePass
    else if s.params.shared.calSamples = scans then s.postList .calibration true
    else s
  else s

/-! ## The scan (R102 to R104) -/

/-- The end of a scan: monitors, pair check, own lean, latest set, pass (R102 steps 1 to 4, R114). -/
def Station.endScan (s : Station) (scan : RunningScan) : Station :=
  let s := scan.written.foldl Station.monitorChannel s
  let s := s.pairCheck
  let s := s.completeLean
  let s := { s with meas := { s.meas with latest := s.meas.working, scan := none, endedSinceSync := true } }
  s.countPass scan.list

/-- The running scan has no entry left (R102). -/
def Station.scanEndDue (s : Station) : Bool :=
  match s.meas.scan with
  | some scan => scan.left.isEmpty
  | none => false

/-- The end of the running scan, where its last entry is done. -/
def Station.scanEnd (s : Station) : Station :=
  match s.meas.scan with
  | some scan => if scan.left.isEmpty then s.endScan scan else s
  | none => s

/-- A raw value joins the P or N sum of a differential channel of a running pass (R114). -/
def Calibration.addSample (c : Calibration) (e : ScanEntry) (raw : Nat) : Calibration :=
  if e.swapped then { c with nSums := c.nSums.set e.channel (c.nSums.get e.channel + raw) }
  else { c with pSums := c.pSums.set e.channel (c.pSums.get e.channel + raw) }

/-- The calibration sums after one conversion (R114). -/
def Station.sample (s : Station) (list : ScanList) (e : ScanEntry) (raw : Nat) : Calibration :=
  if s.meas.cal.status = .running && list = .calibration && s.isDifferential e.channel then s.meas.cal.addSample e raw
  else s.meas.cal

/-- One entry of the scan completes with a raw value: scaled and written, but for a swapped entry, whose value and monitor
stay (R102, R105, R114). -/
def Station.convert (s : Station) (scan : RunningScan) (e : ScanEntry) (rest : List ScanEntry) (raw : Nat) : Station :=
  let x := scaleRaw (s.params.own.channels.get e.channel) (s.meas.offsets.get e.channel) raw
  { s with
    meas :=
      { s.meas with
        cal := s.sample scan.list e raw
        working :=
          if e.swapped then s.meas.working
          else { s.meas.working with channels := s.meas.working.channels.set e.channel (some x) }
        scan :=
          some { scan with
            left := rest, elapsed := 0, written := if e.swapped then scan.written else scan.written ++ [e.channel] } } }

/-- The conversion in progress ends (R102); the last one ends the scan. The command is itself the end of the entry's 250 bit times
(DESIGN CHOICE, log 2). -/
def Station.conversionEnd (s : Station) (raw : Nat) : Station :=
  match s.meas.scan with
  | some scan =>
    match scan.left with
    | e :: rest => (s.convert scan e rest raw).scanEnd
    | [] => s
  | none => s

/-- The list that is active now is copied from its shadow (R101). -/
def ScanLists.load (l : ScanLists) : ScanLists :=
  match l.selected with
  | .run => { l with runActive := l.runShadow }
  | .calibration => { l with calActive := l.calShadow }

/-- The entries of the selected list's active copy. -/
def ScanLists.active (l : ScanLists) : List ScanEntry :=
  match l.selected with
  | .run => l.runActive
  | .calibration => l.calActive

/-- A scan starts with a working set that holds the latest set's values and the new wheel speeds (R101, R102, R111). -/
def Station.startScan (s : Station) (working : MeasSet) : Station :=
  let lists := s.meas.lists.load
  let s :=
    { s with
      meas :=
        { s.meas with
          lists := lists, working := working,
          scan := some { list := lists.selected, left := lists.active, written := [], elapsed := 0 } } }
  s.scanEnd

/-! ## Wheel pulses (R110, R111) -/

/-- The placement of the round count into the ring at a sync event. -/
def PulseCounter.place (p : PulseCounter) (window : Nat) : PulseCounter :=
  let ring := p.ring ++ [p.count]
  { count := 0, ring := ring.drop (ring.length - window), fill := succSat 16 p.fill,
    quiet := if p.count = 0 then succSat 255 p.quiet else 0 }

/-- The speed of an input after the placement; none when it is not mapped (R111). -/
def pulseSpeed (cfg : PulseConfig) (p : PulseCounter) : Option Nat :=
  if !cfg.mapped then none
  else if cfg.zeroRounds ≤ p.quiet then some 0
  else some (min 4094 (p.ring.sum * cfg.scale / cfg.window))

/-- The own wheel speed from the two inputs (R111). -/
def ownSpeedOf : Option Nat → Option Nat → Option Nat
  | some a, some b => some ((a + b) / 2)
  | some a, none => some a
  | none, some b => some b
  | none, none => none

/-- A placement for a mapped input; an unmapped one is left alone (R110). -/
def placeMapped (cfg : PulseConfig) (p : PulseCounter) : PulseCounter := if cfg.mapped then p.place cfg.window else p

/-- The speeds in a set of results (R111). -/
def Station.withSpeeds (s : Station) (set : MeasSet) : MeasSet :=
  let speed0 := pulseSpeed s.params.own.ps0 s.meas.ps0
  let speed1 := pulseSpeed s.params.own.ps1 s.meas.ps1
  { set with speed0 := speed0, speed1 := speed1, ownSpeed := ownSpeedOf speed0 speed1 }

/-- A rising edge on a mapped pulse input, in the states in which counting runs (R110). -/
def Station.pulseEdge (s : Station) (ps1 : Bool) : Station :=
  if timerRuns s.member.state then
    if ps1 then
      if s.params.own.ps1.mapped then
        { s with meas := { s.meas with ps1 := { s.meas.ps1 with count := succSat 255 s.meas.ps1.count } } }
      else s
    else if s.params.own.ps0.mapped then
      { s with meas := { s.meas with ps0 := { s.meas.ps0 with count := succSat 255 s.meas.ps0.count } } }
    else s
  else s

/-! ## Standstill evidence and the calibration step (R112, R113, R116) -/

/-- The results of R112. -/
inductive Evidence where
  | standstill | motion | none
  deriving DecidableEq, Repr

/-- A mapped input shows motion: it placed a non-zero count now, or while WAITING holds a non-zero entry. -/
def showsMotion (waiting : Bool) (cfg : PulseConfig) (p : PulseCounter) : Bool :=
  cfg.mapped && (decide (p.ring.getLast? ≠ some 0 ∧ p.ring ≠ []) || (waiting && p.ring.any fun n => decide (n ≠ 0)))

/-- A mapped input shows standstill; an unmapped one does not speak. -/
def showsStandstill (cfg : PulseConfig) (p : PulseCounter) : Bool :=
  !cfg.mapped || (decide (cfg.window ≤ p.fill) && p.ring.all fun n => decide (n = 0))

/-- The evidence at a sync event, after the placement (R112). -/
def Station.evidence (s : Station) : Evidence :=
  let waiting : Bool := s.meas.cal.status = .waiting
  if s.params.own.ps0.mapped || s.params.own.ps1.mapped then
    if showsMotion waiting s.params.own.ps0 s.meas.ps0 || showsMotion waiting s.params.own.ps1 s.meas.ps1 then .motion
    else if showsStandstill s.params.own.ps0 s.meas.ps0 && showsStandstill s.params.own.ps1 s.meas.ps1 then .standstill
    else .none
  else
    match s.meas.cal.heard with
    | none => .none
    | some speeds =>
      if speeds.any (fun v => decide (v ≠ 0)) then .motion else if speeds.isEmpty then .none else .standstill

/-- The calibration status becomes SKIPPED and CAL_SKIPPED is raised (R113, R116). The scan count is 0 with the sums, and the
waiting count stands (DESIGN CHOICE, log 57). -/
def Station.skipCalibration (s : Station) (source : Nat) : Station :=
  let s := { s with meas := { s.meas with cal := { (s.meas.cal.clearPass) with status := .skipped } } }
  s.raise .calSkipped source

/-- The waiting count has reached 32 (R113). -/
def Station.calWaitDue (s : Station) : Bool :=
  s.meas.cal.status = .waiting && decide (Config.calWaitLimit ≤ s.meas.cal.waiting)

/-- Calibration is skipped for want of evidence, where it is due (R113). -/
def Station.calWaitTimeout (s : Station) : Station := if s.calWaitDue then s.skipCalibration 2 else s

/-- The pass begins (R113): sums and scan count 0, the calibration list at normal polarity posted. -/
def Station.beginPass (s : Station) : Station :=
  let s := { s with meas := { s.meas with cal := { (s.meas.cal.clearPass) with status := .running } } }
  s.postList .calibration false

/-- One more sync event waited (R113). -/
def Station.countWait (s : Station) : Station :=
  { s with
    meas := { s.meas with cal := { s.meas.cal with waiting := succSat Config.calWaitLimit s.meas.cal.waiting } } }

/-- The calibration step of a sync event in a JOIN episode (R103 step 3, R113, R116). -/
def Station.calibrationStep (s : Station) : Station :=
  if s.member.state = .join then
    match s.meas.cal.status with
    | .waiting =>
      let evidence := s.evidence
      let s := s.countWait
      match evidence with
      | .motion => s.skipCalibration 0
      | .standstill => s.beginPass
      | .none => s.calWaitTimeout
    | .running =>
      match s.evidence with
      | .motion => (s.skipCalibration 1).postList .run false
      | .standstill | .none => s
    | .none | .done | .skipped => s
  else s

/-! ## The sync event (R103, R104) -/

/-- Step 1: the snapshot latch. -/
def Station.latchSnapshot (s : Station) : Station :=
  { s with
    meas :=
      { s.meas with snapshot := s.meas.latest, stale := !s.meas.endedSinceSync, endedSinceSync := false } }

/-- Step 2: the placements. -/
def Station.placePulses (s : Station) : Station :=
  { s with
    meas :=
      { s.meas with
        ps0 := placeMapped s.params.own.ps0 s.meas.ps0, ps1 := placeMapped s.params.own.ps1 s.meas.ps1 } }

/-- Step 4: a scan starts, or the trigger is ignored and SCAN_OVERRUN raised (R104; log 14). -/
def Station.triggerScan (s : Station) : Station :=
  match s.meas.scan with
  | some _ => s.raise .scanOverrun 0
  | none => s.startScan (s.withSpeeds s.meas.latest)

/-- The Measurement Unit's work at a sync event, in the order of R103. -/
def Station.syncEvent (s : Station) : Station := s.latchSnapshot.placePulses.calibrationStep.triggerScan

/-! ## Meanings -/

/-- CONVERSION_END (R102, R105, R114): one scan entry completes with its raw value, in a state that scans. -/
def execConversionEnd (raw : BitVec 12) (s : State) : Result :=
  s.after fun st => if timerRuns st.member.state then st.conversionEnd raw.toNat else st

/-- SCAN_END (R102): the running scan ends when its last entry is done. -/
def execScanEnd (s : State) : Result := s.after fun st => if timerRuns st.member.state then st.scanEnd else st

/-- CAL_WAIT_TIMEOUT (R113): a waiting count of 32 skips calibration with CAL_SKIPPED source 2. -/
def execCalWaitTimeout (s : State) : Result := s.after Station.calWaitTimeout

/-- PULSE_EDGE (R110): a rising edge on PS0 or PS1. -/
def execPulseEdge (ps1 : Bool) (s : State) : Result := s.after fun st => st.pulseEdge ps1

end Sys2Proof.Machine
end

