-- ==== Sys2Proof/Machine/Peers.lean ====
section
/-! DEFINITION. The peer table (chapter 6): the handover, the end of the report section, the checks, the vote, the digest
verdict and the match count, and the meanings of PEER_LOST and SUSPECT_RECOVERY. -/

namespace Sys2Proof.Machine

/-! ## Records -/

/-- Record `k` replaced. -/
def Station.setPeer (s : Station) (k : StationNo) (r : PeerRecord) : Station := { s with peers := s.peers.set k r }

/-- The same work on every record but the own one, in ascending order. -/
def Station.forPeers (s : Station) (f : Station → StationNo → Station) : Station :=
  allStations.foldl (fun s k => if k = s.number then s else f s k) s

/-- The record is refused (R84). -/
def Station.refused (s : Station) (k : StationNo) : Bool :=
  decide (s.params.shared.rejoinMax < (s.peers.get k).exclusions)

/-- The report of slot `k` when it was classed RECEIVED in this round (R51). -/
def Station.heard (s : Station) (k : StationNo) : Option Report :=
  match s.bus.round.slots.get k with
  | some (.received f) => some f
  | some .silent | some .garbled | none => none

/-- Slot `k` was RECEIVED. -/
def Station.wasReceived (s : Station) (k : StationNo) : Bool := (s.heard k).isSome

/-- The station's MEMBERS bit in this round's outcome. -/
def Station.membersBit (s : Station) (k : StationNo) : Bool := inSet s.bus.held.members k

/-- The station is in this round's member set (R27). -/
def Station.inMemberSet (s : Station) (k : StationNo) : Bool := inSet (memberSet s.bus.held) k

/-- The states that can be lost and are excluded with a change of state (R82, Table 6-2). -/
def isTaken (x : PeerState) : Bool := x = .joining || x = .present || x = .suspect

/-! ## The handover (R82 to R84) -/

/-- Entry to ABSENT (R82), with the conditions that the record held. -/
def Station.makeAbsent (s : Station) (k : StationNo) : Station :=
  (s.setPeer k (s.peers.get k).toAbsent).removeRecordConds k

/-- The absent rounds count of a record has reached 3 (R82). -/
def Station.absentDue (s : Station) (k : StationNo) : Bool :=
  let r := s.peers.get k
  decide (k ≠ s.number) && (isTaken r.state || r.state = .excluded) && decide (Config.absentLimit ≤ r.absentRounds)

/-- The record becomes ABSENT where its count has reached 3; PEER_LOST unless it was EXCLUDED (R82). -/
def Station.peerLost (s : Station) (k : StationNo) : Station :=
  if s.absentDue k then
    if isTaken (s.peers.get k).state then (s.makeAbsent k).raise .peerLost k.val else s.makeAbsent k
  else s

/-- The MEMBERS bit as the record takes it: a refused record's bits are disregarded (R84; log 17). -/
def Station.bitTaken (s : Station) (k : StationNo) : Bool := s.membersBit k && !s.refused k

/-- The record after its bits of the handover, before the count is acted on (R82). A record that is ABSENT and refused as the
handover begins has the count 0 (R84; log 17); one that only this handover's exclusion makes refused counts here (log 62). -/
def countAbsent (r : PeerRecord) (bit joining refused : Bool) : PeerRecord :=
  { r with
    absentRounds := if bit || (refused && r.state = .absent) then 0 else succSat Config.absentLimit r.absentRounds
    state := if r.state = .absent && joining && !refused then .joining else r.state }

/-- The record's state and counters on entry to EXCLUDED (R83). -/
def PeerRecord.toExcluded (r : PeerRecord) : PeerRecord :=
  { r with
    state := .excluded, missed := 0, stale := 0, leanDisagree := 0, speedDisagree := 0, steerDisagree := 0, recover := 0 }

/-- The named record becomes EXCLUDED (Table 6-2), by its state before the handover and the bits of the handover. -/
def Station.excludes (s : Station) (before : PeerState) (bit : Bool) (k : StationNo) : Bool :=
  (isTaken before && decide ((s.peers.get k).state ≠ .absent)) || (before = .absent && bit)

/-- One exclusion of record `k` counted, its state changed where Table 6-2 says so, PEER_EXCLUDED raised (R83). -/
def Station.excludePeer (s : Station) (before : PeerState) (bit : Bool) (k : StationNo) : Station :=
  if before = .excluded then s
  else
    let r := s.peers.get k
    let r := { r with exclusions := succSat 15 r.exclusions }
    let s :=
      if s.excludes before bit k then (s.setPeer k r.toExcluded).removeRecordConds k else s.setPeer k r
    s.raise .peerExcluded k.val

/-- One record's handover: the bitmaps, then the exclusion when it is named (R82, R83). An ABSENT record named with its bit clear
that this exclusion makes refused has counted its absent round here, and its count becomes 0 at the next handover: R84 says that
the count of a refused record stays 0, and Table 6-2 names no count (DESIGN CHOICE, log 62). -/
def Station.peerHandover (named : StationSet) (s : Station) (k : StationNo) : Station :=
  let before := (s.peers.get k).state
  let bit := s.bitTaken k
  let s :=
    (s.setPeer k (countAbsent (s.peers.get k) bit (inSet s.bus.held.joining k) (s.refused k))).peerLost k
  if inSet named k then s.excludePeer before bit k else s

/-- The peer table's handover, with the exclusions of an applied record (R81 to R84). -/
def Station.peersHandover (s : Station) (named : StationSet) : Station := s.forPeers (Station.peerHandover named)

/-! ## The end of the report section: reports, missed, seq, presence (R85 to R88) -/

/-- Step 1: the report is taken in. -/
def Station.takeReport (s : Station) (k : StationNo) : Station :=
  match s.heard k with
  | some f =>
    if s.refused k then s
    else s.setPeer k { s.peers.get k with lastReport := some f, lastHeard := some s.bus.roundNumber }
  | none => s

/-- The record is PRESENT or SUSPECT. -/
def isJudged (x : PeerState) : Bool := x = .present || x = .suspect

/-- The missed count of a PRESENT or SUSPECT record, and what a count of 15 takes away (R81, R86). -/
def countMissed (r : PeerRecord) (received bit : Bool) : PeerRecord :=
  if isJudged r.state then
    let missed := if received then 0 else if bit then succSat 15 r.missed else r.missed
    if missed = 15 then { r with missed := missed, lastReport := none, lastHeard := none } else { r with missed := missed }
  else r

/-- The stale count of a record after a compared frame (R87). -/
def staleAfter (r : PeerRecord) (seq : Bool) : Nat :=
  match r.expectedSeq with
  | none => r.stale
  | some e => if isJudged r.state then (if e = seq then 0 else succSat 15 r.stale) else 0

/-- The expected seq and the stale count (R87); an EXCLUDED record counts neither (R83; log 18). -/
def countSeq (r : PeerRecord) (frame : Option Report) (bit : Bool) : PeerRecord :=
  if r.state = .excluded then r
  else
    match frame with
    | some f => { r with expectedSeq := some (!f.seq), stale := staleAfter r f.seq }
    | none => if bit then { r with expectedSeq := r.expectedSeq.map not } else r

/-- Step 2. -/
def Station.countRecord (s : Station) (k : StationNo) : Station :=
  let r := countMissed (s.peers.get k) (s.wasReceived k) (s.membersBit k)
  s.setPeer k (countSeq r (s.heard k) (s.membersBit k))

/-- A record becomes PRESENT (R88). -/
def Station.becomesPresent (s : Station) (k : StationNo) : Bool :=
  let x := (s.peers.get k).state
  (x = .joining || (x = .absent && !s.refused k)) && s.inMemberSet k && s.wasReceived k

/-- Step 3. -/
def Station.takePresence (s : Station) (k : StationNo) : Station :=
  if s.becomesPresent k then s.setPeer k { s.peers.get k with state := .present } else s

/-! ## The checks (R89 to R95) -/

/-- The frame's role is the roster's: codes 0 and 7 differ from every roster role (Table 4-2, R89). -/
def roleMatches (roster : Role) (f : Report) : Bool := decide (f.role ≠ 0) && decide (f.role = roleCode roster)

/-- The role check gives a cause (R89). -/
def Station.roleCause (s : Station) (k : StationNo) : Bool :=
  match s.heard k with
  | some f => !roleMatches (s.peers.get k).rosterRole f
  | none => false

/-- The digest check gives a cause (R89). -/
def Station.digestCause (s : Station) (k : StationNo) : Bool :=
  match s.heard k with
  | some f => decide (f.digest ≠ s.loader.digest)
  | none => false

/-- The own run state as it stands on the wire (R44). -/
def RunState.fields (r : RunState) : TrajFields :=
  if r.engine = .idle then
    { mode := 7, step := 0, repeatLeft := 0, elapsed := 0, setpoint := 0, pending := modeCode7 r.pending }
  else
    { mode := modeCode7 r.mode, step := r.step, repeatLeft := r.repeatLeft, elapsed := r.elapsed,
      setpoint := r.setpoint, pending := modeCode7 r.pending }

/-- The station makes the trajectory comparison for its records (R79, R90). -/
def Station.comparesTraj (s : Station) : Bool :=
  match s.member.state with
  | .member | .halted => true
  | .quiet => s.member.quietCompares
  | .load | .configFault | .listen | .join | .silent => false

/-- The trajectory check gives a cause (R90). The own run state does not change between the own slot start and the end of the
section. -/
def Station.trajCause (s : Station) (k : StationNo) : Bool :=
  match s.heard k with
  | some f => s.comparesTraj && s.inMemberSet k && decide (f.traj ≠ s.engine.run.fields)
  | none => false

/-- The report of record `k` as the cross-checks may use it (R91). -/
def Station.crossReport (s : Station) (k : StationNo) : Option Report :=
  if decide (k ≠ s.number) && isJudged (s.peers.get k).state && !s.meas.stale then
    match s.heard k with
    | some f => if f.staleScan then none else some f
    | none => none
  else none

/-- The peer's lean for the LEAN check (R92). -/
def Station.leanOf (s : Station) (k : StationNo) : Option Int :=
  if isLeanRole (s.roleOf k) then (s.crossReport k).bind readLean else none

/-- The peer's speed for the SPEED check, and for its reference (R93, R95): that of a role that measures wheel speed (R91, Table
1-1; log 52). -/
def Station.speedOf (s : Station) (k : StationNo) : Option Int :=
  if isSpeedRole (s.roleOf k) then (s.crossReport k).bind fun f => (readSpeed f).map fun v => (v : Int) else none

/-- The peer's steer angle for the STEER check (R94). -/
def Station.steerOf (s : Station) (k : StationNo) : Option Int :=
  if (s.params.role = .steer && s.roleOf k = .steerB) || (s.params.role = .steerB && s.roleOf k = .steer) then
    (s.crossReport k).bind readSecondary
  else none

/-- Put a value into an ascending list. -/
def insertAscending (x : Int) : List Int → List Int
  | [] => [x]
  | y :: rest => if x ≤ y then x :: y :: rest else y :: insertAscending x rest

/-- The values in ascending order. -/
def ascending (l : List Int) : List Int := l.foldr insertAscending []

/-- The reference of three or more values: their median, the mean of the two middle ones truncated (R95). -/
def reference (values : List Int) : Option Int :=
  let sorted := ascending values
  let n := sorted.length
  if n < 3 then none
  else if n % 2 = 1 then some (sorted.getD (n / 2) 0)
  else some ((sorted.getD (n / 2 - 1) 0 + sorted.getD (n / 2) 0).tdiv 2)

/-- What the LEAN check compares with: the own value, or the reference (R92, R95). -/
def Station.leanBase (s : Station) : Option Int :=
  if isLeanRole s.params.role && (s.meas.snapshot.leanSource = .leanA || s.meas.snapshot.leanSource = .leanB) then
    s.meas.snapshot.ownLean
  else reference (allStations.filterMap s.leanOf)

/-- What the SPEED check compares with (R93, R95). -/
def Station.speedBase (s : Station) : Option Int :=
  match s.meas.snapshot.ownSpeed with
  | some v => some (v : Int)
  | none => reference (allStations.filterMap s.speedOf)

/-- What the STEER check compares with (R94). -/
def Station.steerBase (s : Station) : Option Int := s.fitValue s.meas.snapshot .steerAngle

/-- A band check disagrees (R92, R94). -/
def outsideBand (band : Nat) (x y : Int) : Bool := decide (band < (x - y).natAbs)

/-- The SPEED check disagrees (R93). -/
def speedDisagrees (band : Nat) (x y : Int) : Bool := decide (band + (max x y).toNat / 8 < (x - y).natAbs)

/-- A counter after a check: up on disagreement, 0 on agreement, as it stands when the check is not made (R91). -/
def countCheck (disagrees : Int → Int → Bool) (base value : Option Int) (n : Nat) : Nat :=
  match base, value with
  | some x, some y => if disagrees x y then succSat 15 n else 0
  | _, _ => n

/-- The counters of the three cross-checks after this round (R91 to R95). -/
def Station.crossCheck (s : Station) (k : StationNo) : PeerRecord :=
  let r := s.peers.get k
  let sh := s.params.shared
  { r with
    leanDisagree := countCheck (outsideBand sh.leanBand) s.leanBase (s.leanOf k) r.leanDisagree
    speedDisagree := countCheck (speedDisagrees sh.speedBand) s.speedBase (s.speedOf k) r.speedDisagree
    steerDisagree := countCheck (outsideBand sh.steerBand) s.steerBase (s.steerOf k) r.steerDisagree }

/-- The conditions of the role and digest checks follow a RECEIVED frame (R89). -/
def Station.identityConds (s : Station) (k : StationNo) : Station :=
  if s.wasReceived k then
    (s.setHeld (s.roleCause k) .roleMismatch k.val).setHeld (s.digestCause k) .configDiffers k.val
  else s

/-- Step 4: the checks of a PRESENT or SUSPECT record. -/
def Station.checkRecord (s : Station) (k : StationNo) : Station :=
  if isJudged (s.peers.get k).state then
    let s := s.identityConds k
    let s := if s.trajCause k then s.raise .trajMismatch k.val else s
    s.setPeer k (s.crossCheck k)
  else s

/-! ## Suspicion (R96, R97) -/

/-- The record has a suspect cause in this round (R96). -/
def Station.suspectCause (s : Station) (k : StationNo) : Bool :=
  let r := s.peers.get k
  let sh := s.params.shared
  decide (Config.suspectCount ≤ r.missed) || decide (Config.suspectCount ≤ r.stale)
    || decide (sh.leanFilter ≤ r.leanDisagree) || decide (sh.speedFilter ≤ r.speedDisagree)
    || decide (sh.steerFilter ≤ r.steerDisagree)
    || s.roleCause k || s.digestCause k || s.trajCause k

/-- The recover count of a SUSPECT record has reached 32 (R97). -/
def Station.recoveryDue (s : Station) (k : StationNo) : Bool :=
  (s.peers.get k).state = .suspect && decide (Config.recoverLimit ≤ (s.peers.get k).recover)

/-- The record becomes PRESENT again, where its recover count has reached 32 (R97). -/
def Station.suspectRecovery (s : Station) (k : StationNo) : Station :=
  if s.recoveryDue k then s.setPeer k { s.peers.get k with state := .present, recover := 0 } else s

/-- Step 5: PRESENT to SUSPECT with a cause, and the recover count of a SUSPECT record. -/
def Station.judgeRecord (s : Station) (k : StationNo) : Station :=
  let r := s.peers.get k
  match r.state with
  | .present =>
    if s.suspectCause k then (s.setPeer k { r with state := .suspect, recover := 0 }).raise .peerSuspect k.val else s
  | .suspect =>
    let clean := s.wasReceived k && !s.suspectCause k
    (s.setPeer k { r with recover := if clean then succSat Config.recoverLimit r.recover else 0 }).suspectRecovery k
  | .absent | .joining | .excluded | .self => s

/-- Steps 1 to 5 of R85. The own record takes its report and keeps no expected seq (DEDUCED, log 48). -/
def Station.peersSection (s : Station) : Station :=
  let s := allStations.foldl Station.takeReport s
  let s := s.forPeers Station.countRecord
  let s := s.forPeers Station.takePresence
  let s := s.forPeers Station.checkRecord
  s.forPeers Station.judgeRecord

/-! ## The vote (R98) -/

/-- `v` is an eligible voter for `p`. -/
def Station.eligible (s : Station) (p v : StationNo) : Bool :=
  decide (v ≠ p) && s.wasReceived v &&
    (if v = s.number then s.inMemberSet v else isJudged (s.peers.get v).state)

/-- The frame of `v` votes for `p`. -/
def Station.votesFor (s : Station) (p v : StationNo) : Bool :=
  match s.heard v with
  | some f => inSet f.suspects p
  | none => false

/-- The vote count excludes `p`. -/
def Station.votedOut (s : Station) (p : StationNo) : Bool :=
  let voters := allStations.filter (s.eligible p)
  let votes := (voters.filter (s.votesFor p)).length
  decide ((s.peers.get p).state ≠ .excluded) && decide (s.params.shared.voteMin ≤ votes)
    && decide (voters.length < 2 * votes)

/-- The exclusions of this round (R98). -/
def Station.exclusions (s : Station) : StationSet := setOf s.votedOut

/-- The excluded set of the decision digest (R56). -/
def Station.excludedSet (s : Station) : StationSet := setOf fun k => decide ((s.peers.get k).state = .excluded)

/-- The own suspect set (R45, R96). -/
def Station.suspectSet (s : Station) : StationSet := setOf fun k => decide ((s.peers.get k).state = .suspect)

/-! ## The digest verdict and the match count (R68, R69, R79) -/

/-- The reports RECEIVED from stations of the member set. -/
def Station.memberReports (s : Station) : List Report :=
  allStations.filterMap fun k => if s.inMemberSet k then s.heard k else none

/-- The digest verdict of a section (R68). -/
def Station.takeVerdict (s : Station) : DigestVerdict :=
  let m := s.memberReports
  let d := m.filter fun f => decide (f.digest = s.loader.digest)
  if memberSet s.bus.held = 0 then .noMembers else if m.length < 2 * d.length then .met else .failed

/-- The verdict of a station in JOIN, with CONFIG_DIFFERS source 8 while it is FAILED (R68). -/
def Station.judgeDigest (s : Station) : Station :=
  if s.member.state = .join then
    let verdict := s.takeVerdict
    let s := { s with member := { s.member with verdict := verdict } }
    s.setHeld (decide (verdict = .failed)) .configDiffers 8
  else s

/-- The results of the comparison of R69. -/
inductive MatchResult where
  | noState | equal | differ | noneHeard
  deriving DecidableEq, Repr

/-- The comparison of the own run state with the member reports; a refused view counts as a difference (R69, R144; log 36). -/
def Station.matchResult (s : Station) : MatchResult :=
  let own := s.engine.run.fields
  if !s.engine.run.adopted then .noState
  else if s.member.viewRefused || s.memberReports.any (fun f => decide (f.traj ≠ own)) then .differ
  else if s.memberReports.isEmpty then .noneHeard
  else .equal

/-- The match count and what goes with it (R69, R79). -/
def MembershipUnit.takeMatch (m : MembershipUnit) : MatchResult → MembershipUnit
  | .noState => { m with matchCount := 0, quietCompares := false, viewRefused := false }
  | .equal =>
    let count := succSat Config.matchRounds m.matchCount
    { m with
      matchCount := count, viewRefused := false
      quietCompares := m.quietCompares || (m.state = .quiet && decide (count = Config.matchRounds)) }
  | .differ => { m with matchCount := 0, dropPending := true, quietCompares := false, viewRefused := false }
  | .noneHeard => { m with matchCount := 0, viewRefused := false }

/-- The match count at the end of a section in JOIN and QUIET (R69, R79). A view refused at the very handover at which the station
enters MEMBER (alone, the member set empty) is never taken as a differing report: R69 compares in JOIN, and R144 does not say what
becomes of such a refusal (DESIGN CHOICE, log 61). -/
def Station.judgeMatch (s : Station) : Station :=
  if s.member.state = .join || s.member.state = .quiet then
    { s with member := s.member.takeMatch s.matchResult }
  else s

/-- The speeds that calibration reads from a section classed in JOIN (R112): of RECEIVED frames of other stations whose
MEMBERS bit was set. -/
def Station.heardSpeeds (s : Station) : List Nat :=
  allStations.filterMap fun k =>
    if decide (k ≠ s.number) && s.membersBit k then (s.heard k).bind readSpeed else none

/-- The evidence of a section classed in JOIN is kept for the sync events to come (R112). -/
def Station.keepEvidence (s : Station) : Station :=
  if s.member.state = .join then
    { s with meas := { s.meas with cal := { s.meas.cal with heard := some s.heardSpeeds } } }
  else s

/-! ## Meanings -/

/-- PEER_LOST (R82): a record whose absent rounds count has reached 3 becomes ABSENT. -/
def execPeerLost (k : StationNo) (s : State) : Result := s.after fun st => st.peerLost k

/-- SUSPECT_RECOVERY (R97): a recover count of 32 makes a SUSPECT record PRESENT. -/
def execSuspectRecovery (k : StationNo) (s : State) : Result := s.after fun st => st.suspectRecovery k

end Sys2Proof.Machine
end

