-- ==== Sys2Proof/Machine/Engine.lean ====
section
/-! DEFINITION. The Trajectory Engine (chapter 8): steps, mode intake, pass ends, demand, suspend, readiness and adoption, and
the meanings of SETTLE_TIMEOUT, DEMAND_LOST and SPLIT_VIEW. -/

namespace Sys2Proof.Machine

/-! ## The program store (R117, R118) -/

/-- A step of the library. -/
def stepAt (sh : SharedSection) (n : Nat) : StepDef := sh.library.getD n StepDef.blank

/-- An entry of the mode table. -/
def modeAt (sh : SharedSection) (m : Mode) : ModeEntry := sh.modes.getD (modeCode m) ModeEntry.blank

/-- The entry of the running mode; a run state without a mode has none. -/
def RunState.entry (sh : SharedSection) (r : RunState) : ModeEntry :=
  match r.mode with
  | some m => modeAt sh m
  | none => ModeEntry.blank

/-- The current step. -/
def RunState.current (sh : SharedSection) (r : RunState) : StepDef := stepAt sh r.step

/-- The inputs of one apply point (chapter 8). -/
structure EngineInputs where
  roundClass : RoundClass
  mode : Mode
  limit : Nat
  advance : Bool
  demand : Int
  deriving DecidableEq, Repr

/-! ## Entering steps and modes (R129 to R132) -/

/-- A step is entered: repeat left loaded (log 40), increment and elapsed 0, FROZEN at once on a FREEZE. -/
def RunState.enterStep (sh : SharedSection) (n : Nat) (r : RunState) : RunState :=
  { r with
    engine := if (stepAt sh n).kind = .freeze then .frozen else .running
    step := n, repeatLeft := (stepAt sh n).repeats, accInc := 0, elapsed := 0 }

/-- A mode is started at its first step; the setpoint keeps its value (R131). -/
def RunState.startMode (sh : SharedSection) (m : Mode) (r : RunState) : RunState :=
  { (r.enterStep sh (modeAt sh m).first) with mode := some m, pending := none }

/-- A mode start gives up the readiness count (R137). -/
def Engine.startMode (sh : SharedSection) (m : Mode) (e : Engine) : Engine :=
  { e with run := e.run.startMode sh m, readinessCount := 0 }

/-- Mode intake of a RUNNING engine (Table 8-4, R131, R132). -/
def Engine.intakeRunning (sh : SharedSection) (m : Mode) (e : Engine) : Engine :=
  if modeCode m < modeCode7 e.run.mode then e.startMode sh m
  else if e.run.mode = some m then { e with run := { e.run with pending := none } }
  else { e with run := { e.run with pending := some m } }

/-- Mode intake (Table 8-4, R121, R130): a SUSPENDED engine becomes RUNNING first, an armed IDLE one starts from setpoint 0. -/
def Engine.intake (sh : SharedSection) (armed : Bool) (m : Mode) (e : Engine) : Engine :=
  match e.run.engine with
  | .running => e.intakeRunning sh m
  | .suspended => ({ e with run := { e.run with engine := .running } } : Engine).intakeRunning sh m
  | .complete | .frozen => if e.run.mode = some m then e else e.startMode sh m
  | .idle => if armed then ({ e with run := { e.run with setpoint := 0 } } : Engine).startMode sh m else e

/-! ## The setpoint move (R123 to R128) -/

/-- The effective target (R123). -/
def RunState.target (sh : SharedSection) (limit : Nat) (r : RunState) : Int :=
  saturate (-(limit : Int)) limit (saturate (-360) 360 ((r.current sh).target + r.accInc))

/-- Move toward a value by a rate (R123). -/
def moveToward (rate : Nat) (value setpoint : Int) : Int :=
  if (value - setpoint).natAbs ≤ rate then value else if setpoint < value then setpoint + rate else setpoint - rate

/-- The setpoint after the move of the current step (Table 8-3). -/
def RunState.movedSetpoint (sh : SharedSection) (inp : EngineInputs) (r : RunState) : Int :=
  let st := r.current sh
  match st.kind with
  | .hold | .ramp => moveToward st.rate (r.target sh inp.limit) r.setpoint
  | .track => moveToward st.rate inp.demand r.setpoint
  | .settle => r.target sh inp.limit
  | .freeze => r.setpoint

/-- Part 2 of R121: a RUNNING engine moves the setpoint. -/
def Engine.move (sh : SharedSection) (inp : EngineInputs) (e : Engine) : Engine :=
  if e.run.engine = .running then { e with run := { e.run with setpoint := e.run.movedSetpoint sh inp } } else e

/-! ## Elapsed and step end (R126, R127, R129) -/

/-- The kind counts elapsed (Table 8-3). -/
def StepDef.counts (st : StepDef) : Bool :=
  match st.kind with
  | .hold | .ramp | .settle => true
  | .track => decide (st.duration ≠ 0)
  | .freeze => false

/-- A RUNNING engine counts elapsed. -/
def Engine.countElapsed (sh : SharedSection) (e : Engine) : Engine :=
  if e.run.engine = .running && (e.run.current sh).counts then
    { e with run := { e.run with elapsed := succSat 65535 e.run.elapsed } }
  else e

/-- The step is run as a sync-end step (R117, R127). -/
def StepDef.isSyncEnd (st : StepDef) : Bool :=
  match st.kind with
  | .settle => true
  | .hold | .ramp => st.syncEnd
  | .track => st.syncEnd && decide (st.duration ≠ 0)
  | .freeze => false

/-- The own end condition of Table 8-3; "equals duration" is read as reached (log 20). -/
def RunState.ownEnd (sh : SharedSection) (limit : Nat) (r : RunState) : Bool :=
  let st := r.current sh
  match st.kind with
  | .hold => decide (st.duration ≤ r.elapsed)
  | .ramp => decide (r.setpoint = r.target sh limit) || decide (65535 ≤ r.elapsed)
  | .track => decide (st.duration ≠ 0) && decide (st.duration ≤ r.elapsed)
  | .settle | .freeze => false

/-- The step ends without a timeout (R124 to R128). -/
def RunState.endsNormally (sh : SharedSection) (inp : EngineInputs) (r : RunState) : Bool :=
  let st := r.current sh
  match st.kind with
  | .settle => inp.advance
  | .hold | .ramp | .track => r.ownEnd sh inp.limit && (!st.isSyncEnd || inp.advance)
  | .freeze => false

/-- The source of the SETTLE_TIMEOUT with which the step ends, if it ends so: 0 for a SETTLE at its duration while ADVANCE is not
all ready (R126), 1 for another sync-end step at 65535, whatever ADVANCE is (R127). -/
def RunState.timeout (sh : SharedSection) (inp : EngineInputs) (r : RunState) : Option Nat :=
  let st := r.current sh
  if r.engine ≠ .running then none
  else
    match st.kind with
    | .settle => if !inp.advance && decide (st.duration ≤ r.elapsed) then some 0 else none
    | .hold | .ramp | .track => if st.isSyncEnd && decide (65535 ≤ r.elapsed) then some 1 else none
    | .freeze => none

/-- The end of a pass (R129, cases 1 to 5). -/
def RunState.passEnd (sh : SharedSection) (r : RunState) : RunState :=
  match r.pending with
  | some m => r.startMode sh m
  | none =>
    if 0 < r.repeatLeft then
      { r with
        repeatLeft := r.repeatLeft - 1, accInc := saturate (-720) 720 (r.accInc + (r.current sh).increment),
        elapsed := 0 }
    else if r.step < (r.entry sh).last then r.enterStep sh (r.step + 1)
    else if (r.entry sh).loop then r.enterStep sh (r.entry sh).first
    else { r with engine := .complete, repeatLeft := 0, elapsed := 65535 }

/-- A pass end gives up the readiness count. -/
def Engine.passEnd (sh : SharedSection) (e : Engine) : Engine :=
  { e with run := e.run.passEnd sh, readinessCount := 0 }

/-- Parts 1 and 2 of R121, and the count of part 3. -/
def Engine.runToCount (sh : SharedSection) (armed : Bool) (inp : EngineInputs) (e : Engine) : Engine :=
  ((e.intake sh armed inp.mode).move sh inp).countElapsed sh

/-- The rest of part 3: a step that ends, by itself or by a timeout, is followed. -/
def Engine.checkEnd (sh : SharedSection) (inp : EngineInputs) (e : Engine) : Engine :=
  if e.run.engine = .running && (e.run.endsNormally sh inp || (e.run.timeout sh inp).isSome) then e.passEnd sh else e

/-- The suspend of a round that is not agreed (R135). -/
def Engine.suspend (e : Engine) : Engine :=
  if e.run.engine = .running then { e with run := { e.run with engine := .suspended } } else e

/-- The clamp (R122). -/
def clampSetpoint (limit : Nat) (x : Int) : Int := saturate (-(limit : Int)) limit x

/-- Stage 3 (R122). -/
def Engine.clamp (limit : Nat) (e : Engine) : Engine :=
  { e with run := { e.run with setpoint := clampSetpoint limit e.run.setpoint } }

/-! ## Demand (R133, R134) -/

/-- A number may be the demand source: its record is usable, or it is the own one (R133). -/
def Station.maySource (s : Station) (k : StationNo) : Bool := s.usable k || decide (k = s.number)

/-- The demand source (R133). -/
def Station.demandSource (s : Station) : Option StationNo :=
  if s.maySource s.params.shared.demandPrimary then some s.params.shared.demandPrimary
  else if s.maySource s.params.shared.demandSecondary then some s.params.shared.demandSecondary
  else none

/-- The demand of the source report, if there is one (R133). -/
def Station.sourceDemand (s : Station) : Option Int :=
  s.demandSource.bind fun k => (s.thisRound k).bind readDemand

/-- The source number of DEMAND_LOST: the chosen source, or 8 (R134). -/
def Station.demandLostSource (s : Station) : Nat :=
  match s.demandSource with
  | some k => k.val
  | none => 8

/-- Hold DEMAND_LOST under one source, and under no other (R134). -/
def Station.holdDemandLost (s : Station) (source : Nat) : Station :=
  let s := (List.range 9).foldl (fun s n => if n = source then s else s.setHeld false .demandLost n) s
  s.setHeld true .demandLost source

/-- The hold count is above DEMAND_HOLD (R134). -/
def Station.demandLostDue (s : Station) : Bool :=
  takesPart s.member.state && decide (s.params.shared.demandHold < s.engine.holdCount)

/-- The demand is lost, where the hold count is above DEMAND_HOLD (R134). -/
def Station.demandLost (s : Station) : Station :=
  if s.demandLostDue then
    ({ s with engine := { s.engine with demand := 0 } } : Station).holdDemandLost s.demandLostSource
  else s

/-- Stage 1: the demand is formed (R133, R134). -/
def Station.formDemand (s : Station) : Station :=
  match s.sourceDemand with
  | some d =>
    ({ s with engine := { s.engine with demand := d, lastDemand := d, holdCount := 0 } } : Station).removeDemandLost
  | none =>
    let count := succSat (s.params.shared.demandHold + 1) s.engine.holdCount
    ({ s with engine := { s.engine with demand := s.engine.lastDemand, holdCount := count } } : Station).demandLost

/-! ## The apply point (R119 to R121, R141) -/

/-- An IDLE engine of this station is armed (R119). -/
def Station.armed (s : Station) : Bool :=
  match s.member.state with
  | .member | .halted => true
  | .join | .quiet => s.engine.run.adopted
  | .load | .configFault | .listen | .silent => false

/-- The inputs of this apply point. -/
def Station.engineInputs (s : Station) : EngineInputs :=
  { roundClass := s.applyClass, mode := s.bus.held.mode, limit := s.bus.held.limit, advance := s.bus.held.advance,
    demand := s.engine.demand }

/-- The source of the SETTLE_TIMEOUT that is due in an agreed round (R126, R127). -/
def Station.settleSource (s : Station) : Option Nat :=
  if takesPart s.member.state && s.applyClass = .agreed then s.engine.run.timeout s.params.shared s.engineInputs
  else none

/-- The step ends by its limit and SETTLE_TIMEOUT is raised, where that is due (R126, R127). -/
def Station.settleTimeout (s : Station) : Station :=
  match s.settleSource with
  | some source =>
    ({ s with engine := s.engine.passEnd s.params.shared } : Station).raise .settleTimeout source
  | none => s

/-- Stage 2 in an agreed round (R121). -/
def Station.runAgreed (s : Station) : Station :=
  let s := { s with engine := s.engine.runToCount s.params.shared s.armed s.engineInputs }
  if s.settleSource.isSome then s.settleTimeout
  else { s with engine := s.engine.checkEnd s.params.shared s.engineInputs }

/-- The adopted state is dropped in place of stage 2 (R69, R141), and the authority table goes to rest with it (R143). -/
def Station.dropAdopted (s : Station) : Station :=
  ({ s with engine := s.engine.clearRun, member := { s.member with dropPending := false } } : Station).restAuthority

/-- Stage 2: the drop, the run or the suspend. -/
def Station.runOrSuspend (s : Station) : Station :=
  if s.member.dropPending then s.dropAdopted
  else if s.applyClass = .agreed then s.runAgreed
  else { s with engine := s.engine.suspend }

/-! ## Readiness (R137) -/

/-- Own lean comes from an own sensor. -/
def ownSensor (src : LeanSource) : Bool := src = .leanA || src = .leanB

/-- The own lean lies within the step's band of the setpoint. -/
def withinBand (band : Nat) (lean : Option Int) (setpoint : Int) : Bool :=
  match lean with
  | some x => decide ((x - setpoint).natAbs ≤ band)
  | none => false

/-- Stage 4 (R137). -/
def Engine.formReadiness (sh : SharedSection) (latest : MeasSet) (e : Engine) : Engine :=
  let st := e.run.current sh
  if st.isSyncEnd && ownSensor latest.leanSource && (e.run.engine = .running || e.run.engine = .suspended) then
    let count :=
      if e.run.engine = .suspended then e.readinessCount
      else if withinBand st.band latest.ownLean e.run.setpoint then succSat 4 e.readinessCount
      else 0
    { e with readinessCount := count, ready := decide (4 ≤ count) }
  else { e with ready := true }

/-- The demand of stage 1 goes into a pending adoption entry (R120 stage 5). -/
def DecisionRecord.withDemand (demand : Int) (r : DecisionRecord) : DecisionRecord :=
  { r with adoption := r.adoption.map fun a => { a with demand := demand } }

/-- The engine's apply point, stages 1 to 5 (R120). -/
def Station.engineApply (s : Station) : Station :=
  let s := s.formDemand
  let s := s.runOrSuspend
  let e := (s.engine.clamp s.bus.held.limit).formReadiness s.params.shared s.meas.latest
  { s with
    engine := e, bus := { s.bus with pendingRecord := s.bus.pendingRecord.map (DecisionRecord.withDemand e.demand) } }

/-- The keep-authority flag (R138). -/
def Station.keepsAuthority (s : Station) : Bool :=
  (s.engine.run.engine = .running || s.engine.run.engine = .suspended || s.engine.run.engine = .frozen)
    && (s.engine.run.current s.params.shared).keepAuthority

/-! ## Split count (R136) -/

/-- SPLIT_VIEW follows the split count (R136). -/
def Station.splitView (s : Station) : Station :=
  s.setHeld (decide (Config.splitLimit ≤ s.engine.splitCount)) .splitView 0

/-- The split count at a tally handover (R136). -/
def Station.countSplit (s : Station) : Station :=
  let count :=
    match s.bus.held.roundClass with
    | .split => succSat Config.splitLimit s.engine.splitCount
    | .agreed => 0
    | .memberless | .abandoned | .none => s.engine.splitCount
  ({ s with engine := { s.engine with splitCount := count } } : Station).splitView

/-! ## Adoption (R139, R140) -/

/-- The pending mode of the wire is none or higher than the running mode (R139). -/
def pendingProper (t : TrajFields) : Bool :=
  decide (t.pending = 7) || (decide (t.pending ≤ 4) && decide (t.mode < t.pending))

/-- COMPLETE is shown only at the last step of a profile without loop, with no pending mode (R139). -/
def elapsedProper (entry : ModeEntry) (t : TrajFields) : Bool :=
  decide (t.elapsed ≠ 65535) || (decide (t.step = entry.last) && !entry.loop && decide (t.pending = 7))

/-- The six fields are proper (R139). -/
def trajProper (sh : SharedSection) (t : TrajFields) : Bool :=
  match modeOfCode t.mode with
  | some m =>
    let entry := modeAt sh m
    decide (entry.first ≤ t.step) && decide (t.step ≤ entry.last)
      && decide (t.repeatLeft ≤ (stepAt sh t.step).repeats)
      && decide (-360 ≤ t.setpoint) && decide (t.setpoint ≤ 360)
      && pendingProper t && elapsedProper entry t
  | none => decide (t = { mode := 7, step := 0, repeatLeft := 0, elapsed := 0, setpoint := 0, pending := 7 })

/-- The engine state that the fields show (R139). -/
def engineOfFields (sh : SharedSection) (t : TrajFields) : EngineState :=
  if t.mode = 7 then .idle
  else if t.elapsed = 65535 then .complete
  else if (stepAt sh t.step).kind = .freeze then .frozen
  else .running

/-- The run state of proper fields, adopted (R139). Elapsed is taken as reported, also for a TRACK of duration 0 or a FREEZE
(DEDUCED, log 50). -/
def runOfFields (sh : SharedSection) (t : TrajFields) : RunState :=
  let st := stepAt sh t.step
  { engine := engineOfFields sh t
    mode := modeOfCode t.mode
    step := t.step
    repeatLeft := t.repeatLeft
    accInc := if t.mode = 7 then 0 else saturate (-720) 720 (((st.repeats : Int) - t.repeatLeft) * st.increment)
    elapsed := t.elapsed
    setpoint := t.setpoint
    pending := modeOfCode t.pending
    adopted := true }

/-- The inputs that the entry recorded (R58). -/
def AdoptionEntry.inputs (a : AdoptionEntry) : EngineInputs :=
  { roundClass := a.roundClass, mode := a.mode, limit := a.limit, advance := a.advance, demand := a.demand }

/-- Stages 2 and 3 once, with recorded inputs and no condition (R140). -/
def Engine.bringForward (sh : SharedSection) (inp : EngineInputs) (e : Engine) : Engine :=
  let e :=
    if inp.roundClass = .agreed then (e.runToCount sh true inp).checkEnd sh inp else e.suspend
  e.clamp inp.limit

/-- The engine may take an adoption entry (R139). -/
def Station.mayAdopt (s : Station) : Bool :=
  (s.member.state = .join || s.member.state = .member || s.member.state = .quiet)
    && s.engine.run.engine = .idle && !s.engine.run.adopted

/-- The engine takes an applied adoption entry, and brings it forward (R139, R140). -/
def Station.engineAdopt (s : Station) (a : AdoptionEntry) : Station :=
  if s.mayAdopt && trajProper s.params.shared a.traj then
    let e := { s.engine with run := runOfFields s.params.shared a.traj, readinessCount := 0 }
    { s with engine := e.bringForward s.params.shared a.inputs }
  else s

/-! ## Meanings -/

/-- SETTLE_TIMEOUT (R126, R127): a step at its limit ends and SETTLE_TIMEOUT is raised. -/
def execSettleTimeout (s : State) : Result := s.after Station.settleTimeout

/-- DEMAND_LOST (R134): the demand is 0 and DEMAND_LOST is held. -/
def execDemandLost (s : State) : Result := s.after Station.demandLost

/-- SPLIT_VIEW (R136): held while the split count is 3. -/
def execSplitView (s : State) : Result := s.after Station.splitView

end Sys2Proof.Machine
end

