-- ==== Sys2Proof/Machine/Authority.lean ====
section
/-! DEFINITION. Actuator authority (chapter 9): group records, the handover, claims, responses, ramps, retries and the group
conditions, and the meanings of ANSWER_TIMEOUT and PREPARE_TIMEOUT. -/

namespace Sys2Proof.Machine

/-! ## Group records (R142) -/

/-- The record of a group. -/
def Authority.group (a : Authority) : Group → GroupRecord
  | .tilt => a.tilt
  | .steer => a.steer

/-- The record of a group replaced. -/
def Authority.setGroup (a : Authority) (g : Group) (r : GroupRecord) : Authority :=
  match g with
  | .tilt => { a with tilt := r }
  | .steer => { a with steer := r }

/-- The retry state of a group. -/
def Authority.retry (a : Authority) : Group → Retry
  | .tilt => a.tiltRetry
  | .steer => a.steerRetry

/-- The retry state of a group replaced. -/
def Authority.setRetry (a : Authority) (g : Group) (r : Retry) : Authority :=
  match g with
  | .tilt => { a with tiltRetry := r }
  | .steer => { a with steerRetry := r }

/-- The greatest number of holders of a group (R142). -/
def mostHolders : Group → Nat
  | .tilt => 2
  | .steer => 1

/-- The station is a holder. -/
def isHolder (holders : List Holder) (k : StationNo) : Bool := holders.any fun h => decide (h.station = k)

/-- The station's share, 0 for no holder (R159). -/
def shareOf (holders : List Holder) (k : StationNo) : Nat :=
  match holders.find? fun h => decide (h.station = k) with
  | some h => h.share
  | none => 0

/-- A holder left alone takes the whole (R153). -/
def soleShare : List Holder → List Holder
  | [h] => [{ h with share := 1000 }]
  | l => l

/-- The fields of a transaction whose change counts for the epoch: all but the stage age (R145). -/
def Transaction.visible (t : Transaction) : StationNo × Stage × Nat × Option (List Holder) :=
  (t.claimant, t.stage, t.rampCount, t.saved)

/-- The group record differs in what counts for the epoch (R145). -/
def differs (a b : GroupRecord) : Bool :=
  decide (a.holders ≠ b.holders) || decide (a.transaction.map Transaction.visible ≠ b.transaction.map Transaction.visible)

/-! ## The work on one group -/

/-- How a transaction closes (R156, R157). -/
inductive CloseCode where
  | complete | refused | noAnswer | notReady | withdrawn | aborted
  deriving DecidableEq, Repr

/-- The close code of R157; COMPLETE has none. -/
def closeNumber : CloseCode → Nat
  | .complete => 0
  | .refused => 1
  | .noAnswer => 2
  | .notReady => 3
  | .withdrawn => 4
  | .aborted => 5

/-- A group record in work, with the close that the work made, if any. -/
structure GroupWork where
  record : GroupRecord
  closed : Option (StationNo × CloseCode)
  deriving DecidableEq, Repr

/-- What one group's handover reads (R148): the stations that are no loss, the responses that are not disregarded for their
sender, whether the agreed MODE is LOCK or the agreed FAULT 3, and a claim for the group that is taken as far as the claimant
goes. -/
structure GroupInputs where
  group : Group
  parties : StationSet
  responses : Eight Response
  stopped : Bool
  claimant : Option StationNo
  deriving DecidableEq, Repr

/-- Close the open transaction, leaving the holders given (R156). -/
def GroupWork.close (w : GroupWork) (holders : List Holder) (code : CloseCode) : GroupWork :=
  match w.record.transaction with
  | some t => { record := { w.record with holders := holders, transaction := none }, closed := some (t.claimant, code) }
  | none => w

/-- The open transaction replaced. -/
def GroupWork.moveTo (w : GroupWork) (t : Transaction) : GroupWork :=
  { w with record := { w.record with transaction := some t } }

/-- Step 1 of R148: the stage age. -/
def GroupWork.ageStage (w : GroupWork) : GroupWork :=
  match w.record.transaction with
  | some t => w.moveTo { t with age := succSat 16 t.age }
  | none => w

/-- The station is lost or releases at this handover (R153, R154). -/
def GroupInputs.lost (inp : GroupInputs) (k : StationNo) : Bool :=
  !inSet inp.parties k || decide (inp.responses.get k = .release)

/-- The holders of a list that are not lost, the last one left taking the whole, and the loss age when one went (R153). -/
def GroupWork.removeLost (w : GroupWork) (inp : GroupInputs) (holders : List Holder) : GroupWork :=
  let left := holders.filter fun h => !inp.lost h.station
  if left.length = holders.length then { w with record := { w.record with holders := holders } }
  else { w with record := { w.record with holders := soleShare left, lossAge := 0 } }

/-- The holders that a transaction's end without completion leaves: the saved copy in RAMP, the holders otherwise (R154,
R155). -/
def GroupRecord.restored (r : GroupRecord) (t : Transaction) : List Holder :=
  match t.stage, t.saved with
  | .ramp, some saved => saved
  | .ramp, none => r.holders
  | .answer, _ | .prepare, _ => r.holders

/-- Step 2: losses and releases (R153, R154). -/
def GroupWork.dealLosses (w : GroupWork) (inp : GroupInputs) : GroupWork :=
  match w.record.transaction with
  | none => w.removeLost inp w.record.holders
  | some t =>
    if inp.lost t.claimant then (w.close (w.record.restored t) .withdrawn).removeLost inp (w.record.restored t)
    else
      match t.stage with
      | .answer =>
        if w.record.holders.any (fun h => inp.lost h.station) then
          (w.removeLost inp w.record.holders).moveTo { t with stage := .prepare, age := 0 }
        else w
      | .prepare => w.removeLost inp w.record.holders
      | .ramp =>
        if w.record.holders.any (fun h => inp.lost h.station) then
          let w := w.removeLost inp w.record.holders
          w.close w.record.holders .complete
        else w

/-- The group has a holder other than the claimant. -/
def otherHolder (holders : List Holder) (claimant : StationNo) : Bool :=
  holders.any fun h => decide (h.station ≠ claimant)

/-- Step 3: the abort test (R155). -/
def GroupWork.abort (w : GroupWork) (inp : GroupInputs) : GroupWork :=
  match w.record.transaction with
  | some t =>
    if inp.stopped && otherHolder w.record.holders t.claimant then w.close (w.record.restored t) .aborted else w
  | none => w

/-- A READY is taken (R151; log 21 for the stage age). -/
def GroupWork.takeReady (w : GroupWork) (g : Group) (t : Transaction) : GroupWork :=
  let ramp : GroupWork :=
    { w with
      record :=
        { w.record with
          holders := w.record.holders ++ [{ station := t.claimant, share := 0 }]
          transaction := some { t with stage := .ramp, age := 0, rampCount := 0, saved := some w.record.holders } } }
  match g with
  | .tilt => if w.record.holders.isEmpty then w.close [{ station := t.claimant, share := 1000 }] .complete else ramp
  | .steer => ramp

/-- Some holder gives the response. -/
def someHolder (holders : List Holder) (inp : GroupInputs) (r : Response) : Bool :=
  holders.any fun h => decide (inp.responses.get h.station = r)

/-- Step 4: the stage responses, by the stage at the start of the handover (R148, R150, R151). -/
def GroupWork.respond (w : GroupWork) (inp : GroupInputs) (start : Option Stage) : GroupWork :=
  match w.record.transaction with
  | some t =>
    match start, t.stage with
    | some .answer, .answer =>
      if someHolder w.record.holders inp .keep then w.close w.record.holders .refused
      else if someHolder w.record.holders inp .give then w.moveTo { t with stage := .prepare, age := 0 }
      else w
    | some .prepare, .prepare =>
      if inp.responses.get t.claimant = .ready then w.takeReady inp.group t else w
    | _, _ => w
  | none => w

/-- The limit of ANSWER (R150). -/
def GroupWork.answerLimit (w : GroupWork) : GroupWork :=
  match w.record.transaction with
  | some t =>
    if t.stage = .answer && decide (Config.answerLimit ≤ t.age) then w.close w.record.holders .noAnswer else w
  | none => w

/-- The limit of PREPARE (R151). -/
def GroupWork.prepareLimit (w : GroupWork) : GroupWork :=
  match w.record.transaction with
  | some t =>
    if t.stage = .prepare && decide (Config.prepareLimit ≤ t.age) then w.close w.record.holders .notReady else w
  | none => w

/-- A claim is void for what the group holds (R147): the claimant is a holder, no room, a transaction open at the start, or a
holder under LOCK or FAULT 3. -/
def GroupWork.claimVoid (w : GroupWork) (inp : GroupInputs) (openAtStart : Bool) (claimant : StationNo) : Bool :=
  isHolder w.record.holders claimant || decide (mostHolders inp.group ≤ w.record.holders.length) || openAtStart
    || (inp.stopped && !w.record.holders.isEmpty)

/-- Step 6: a claim that is not void opens a transaction (R147). -/
def GroupWork.takeClaim (w : GroupWork) (inp : GroupInputs) (openAtStart : Bool) : GroupWork :=
  match inp.claimant with
  | some c =>
    if w.claimVoid inp openAtStart c then w
    else
      w.moveTo
        { claimant := c, stage := if w.record.holders.isEmpty then .prepare else .answer, age := 0, rampCount := 0,
          saved := none }
  | none => w

/-- The handover work of one group, steps 1 to 6 (R148). -/
def groupHandover (inp : GroupInputs) (start : GroupRecord) : GroupWork :=
  let w : GroupWork := { record := start, closed := none }
  let w := w.ageStage
  let w := w.dealLosses inp
  let w := w.abort inp
  let w := w.respond inp (start.transaction.map (·.stage))
  let w := w.answerLimit.prepareLimit
  w.takeClaim inp start.transaction.isSome

/-- The shares of a ramp at a count (R152). -/
def rampShares (g : Group) (rampRounds count : Nat) (claimant : StationNo) (holders : List Holder) : List Holder :=
  let part := (match g with | .tilt => 500 | .steer => 1000) * count / rampRounds
  holders.map fun h => if h.station = claimant then { h with share := part } else { h with share := 1000 - part }

/-- The shares of a completed ramp (R152). -/
def rampDone (g : Group) (holders : List Holder) : List Holder :=
  holders.map fun h => { h with share := match g with | .tilt => 500 | .steer => 1000 }

/-- One ramp step of one group (R152). -/
def groupRamp (g : Group) (rampRounds : Nat) (start : GroupRecord) : GroupWork :=
  let w : GroupWork := { record := start, closed := none }
  match start.transaction with
  | some t =>
    if t.stage = .ramp then
      if rampRounds ≤ t.rampCount + 1 then w.close (rampDone g start.holders) .complete
      else
        { w with
          record :=
            { start with
              holders := rampShares g rampRounds (t.rampCount + 1) t.claimant start.holders
              transaction := some { t with rampCount := t.rampCount + 1 } } }
    else w
  | none => w

/-! ## Retry state (R157) -/

/-- A close without completion whose claimant is the own number (R157). -/
def Station.failClaim (s : Station) (g : Group) (code : CloseCode) : Station :=
  let retry := s.auth.retry g
  let failures := succSat Config.giveUpFailures retry.failures
  let givenUp := retry.givenUp || decide (Config.giveUpFailures ≤ failures)
  let retry : Retry := { failures := failures, backoff := Config.backoffRounds, givenUp := givenUp }
  let s := { s with auth := s.auth.setRetry g retry }
  let s := s.raise .authFail (8 * groupCode g + closeNumber code)
  if givenUp then s.setHeld true .authGiveup (groupCode g) else s

/-- What a close does to the retry state, at the station whose number the claimant has (R156, R157). -/
def Station.takeClose (s : Station) (g : Group) (closed : Option (StationNo × CloseCode)) : Station :=
  match closed with
  | some (claimant, code) =>
    if claimant = s.number then
      if code = .complete then { s with auth := s.auth.setRetry g { s.auth.retry g with failures := 0 } }
      else s.failClaim g code
    else s
  | none => s

/-- The end of a handover's or an apply point's work on a group: the record, its epoch (R145) and the close. -/
def Station.commitGroup (s : Station) (g : Group) (w : GroupWork) : Station :=
  let start := s.auth.group g
  let epoch := if differs start w.record then start.epoch + 1 else start.epoch
  ({ s with auth := s.auth.setGroup g { w.record with epoch := epoch } } : Station).takeClose g w.closed

/-! ## Group conditions (R158) -/

/-- A tilt-role station is a member (R158). -/
def Station.tiltMember (s : Station) : Bool :=
  ((s.member.state = .member || s.member.state = .halted) && isTiltRole s.params.role)
    || allStations.any fun k => decide (k ≠ s.number) && s.usable k && isTiltRole (s.roleOf k)

/-- TILT_SOLE, TILT_VACANT and STEER_VACANT of a live table (R158; log 33). -/
def Station.groupConds (s : Station) : Station :=
  if s.auth.live then
    let s := s.setHeld (decide (s.auth.tilt.holders.length = 1)) .tiltSole 0
    let s := s.setHeld (s.auth.tilt.holders.isEmpty && s.tiltMember) .tiltVacant 0
    s.setHeld s.auth.steer.holders.isEmpty .steerVacant 0
  else s

/-- The table is live as the station enters MEMBER, from rest or by an adopted view (R143, R158). -/
def Station.makeLive (s : Station) : Station :=
  ({ s with auth := { s.auth with live := true } } : Station).groupConds

/-! ## The handover (R147, R148) -/

/-- The station is no loss to a group: usable, or the own number (R99, R153). -/
def Station.isParty (s : Station) (k : StationNo) : Bool := s.usable k || decide (k = s.number)

/-- A response from the station is not disregarded for its sender (R148). -/
def Station.isSender (s : Station) (k : StationNo) : Bool :=
  if k = s.number then s.member.state = .member || s.member.state = .halted else s.usable k

/-- The response for one group of a pair. -/
def pairResponse (g : Group) (p : Response × Response) : Response :=
  match g with
  | .tilt => p.1
  | .steer => p.2

/-- The responses of an applied record for one group, those of disregarded senders left out (R148). -/
def Station.responsesFor (s : Station) (g : Group) (applied : Option DecisionRecord) : Eight Response :=
  Eight.ofFn fun k =>
    match applied with
    | some r => if s.isSender k then ((r.responses.get k).map (pairResponse g)).getD .none else .none
    | none => .none

/-- The agreed MODE is LOCK or the agreed FAULT is 3 (R147, R155). -/
def Station.stopped (s : Station) : Bool := s.bus.held.mode = .lock || decide (s.bus.held.fault = 3)

/-- Claims are taken in an agreed round, and in a memberless one with the alone flag (R147). -/
def Station.takesClaims (s : Station) : Bool :=
  s.bus.held.roundClass = .agreed || (s.bus.held.roundClass = .memberless && s.bus.held.alone)

/-- The claimant of this round's claim for a group, when it is taken as far as the claimant goes (R147). -/
def Station.claimantFor (s : Station) (g : Group) : Option StationNo :=
  match s.bus.held.claim with
  | some c =>
    let fit := if c.station = s.number then decide (s.member.state = .member) else s.usable c.station
    if s.takesClaims && decide (c.group = g) && fit && admits g (s.roleOf c.station) then some c.station else none
  | none => none

/-- What the handover of one group reads. -/
def Station.groupInputs (s : Station) (g : Group) (applied : Option DecisionRecord) : GroupInputs :=
  { group := g, parties := setOf s.isParty, responses := s.responsesFor g applied, stopped := s.stopped,
    claimant := s.claimantFor g }

/-- One group's handover. -/
def Station.groupWork (s : Station) (applied : Option DecisionRecord) (g : Group) : Station :=
  s.commitGroup g (groupHandover (s.groupInputs g applied) (s.auth.group g))

/-- The authority handover of a live table (R148, R158). -/
def Station.authorityHandover (s : Station) (applied : Option DecisionRecord) : Station :=
  if s.auth.live then ((s.groupWork applied .tilt).groupWork applied .steer).groupConds else s

/-! ## Adopted views (R144) -/

/-- The stations of a set in ascending order. -/
def stationsOf (S : StationSet) : List StationNo := allStations.filter (inSet S)

/-- The holders of an adopted view (R144). -/
def viewHolders (S : StationSet) : List Holder :=
  match stationsOf S with
  | [k] => [{ station := k, share := 1000 }]
  | l => l.map fun k => { station := k, share := 500 }

/-- Every holder of a view is usable, is not the own number and is admitted (R144). -/
def Station.viewFits (s : Station) (g : Group) (S : StationSet) : Bool :=
  (stationsOf S).all fun k => s.usable k && decide (k ≠ s.number) && admits g (s.roleOf k)

/-- The Authority Unit takes or refuses the view of an entry that the engine took (R144; log 36). -/
def Station.takeView (s : Station) (a : AdoptionEntry) : Station :=
  if s.viewFits .tilt a.tiltHolders && s.viewFits .steer a.steerHolders then
    { s with
      auth :=
        { s.auth with
          live := true
          tilt := { GroupRecord.vacant with holders := viewHolders a.tiltHolders, epoch := a.tiltEpoch }
          steer := { GroupRecord.vacant with holders := viewHolders a.steerHolders, epoch := a.steerEpoch } } }
  else { s with member := { s.member with viewRefused := true } }

/-- An applied adoption entry (R139, R144): the engine takes it or not, and the Authority Unit with it. -/
def Station.adopt (s : Station) (entry : Option AdoptionEntry) : Station :=
  match entry with
  | some a => if s.mayAdopt && trajProper s.params.shared a.traj then (s.engineAdopt a).takeView a else s
  | none => s

/-! ## The apply point (R146, R152) -/

/-- One group's ramp step. -/
def Station.rampGroup (s : Station) (g : Group) : Station :=
  s.commitGroup g (groupRamp g s.params.shared.rampRounds (s.auth.group g))

/-- The ramp steps of an agreed round (R152). -/
def Station.rampStep (s : Station) : Station :=
  if s.auth.live && s.applyClass = .agreed then (s.rampGroup .tilt).rampGroup .steer else s

/-- The group that the own role is admitted to (R146). -/
def Station.ownGroup (s : Station) : Option Group :=
  if isTiltRole s.params.role then some .tilt else if isSteerRole s.params.role then some .steer else none

/-- A claim for the group may be formed (R146). -/
def Station.mayClaim (s : Station) (g : Group) : Bool :=
  let r := s.auth.group g
  let retry := s.auth.retry g
  s.auth.live && s.member.state = .member && !isHolder r.holders s.number
    && decide (r.holders.length < mostHolders g) && r.transaction.isNone
    && decide (retry.backoff = 0) && !retry.givenUp && !s.drive.fltSeen
    && (r.holders.isEmpty || (decide (s.bus.held.mode ≠ .lock) && decide (s.bus.held.fault < 3)))

/-- The urgency of a claim (R146). -/
def Station.urgency (s : Station) (g : Group) : Nat :=
  if (s.auth.group g).lossAge < Config.lossAgeMax then 0 else if 0 < (s.auth.retry g).failures then 2 else 1

/-- The claim code of this apply point (R146). -/
def Station.claimCode (s : Station) : Nat :=
  match s.ownGroup with
  | some g => if s.mayClaim g then 32 * groupCode g + 8 * s.urgency g + s.number.val else Config.noClaimCode
  | none => Config.noClaimCode

/-- Loss age up, backoff down, after the code is formed (R146). -/
def Authority.countRounds (a : Authority) : Authority :=
  { a with
    tilt := { a.tilt with lossAge := succSat Config.lossAgeMax a.tilt.lossAge }
    steer := { a.steer with lossAge := succSat Config.lossAgeMax a.steer.lossAge }
    tiltRetry := { a.tiltRetry with backoff := a.tiltRetry.backoff - 1 }
    steerRetry := { a.steerRetry with backoff := a.steerRetry.backoff - 1 } }

/-- The counts of a live table after the claim code. -/
def Station.countAuthority (s : Station) : Station :=
  if s.auth.live then { s with auth := s.auth.countRounds } else s

/-- The own share of a group (R159). -/
def Station.ownShare (s : Station) (g : Group) : Nat := shareOf (s.auth.group g).holders s.number

/-! ## The view and the responses (R46, R149, R159) -/

/-- The stage code of a view (R46). -/
def stageCode : Option Stage → Nat
  | none => 0
  | some .answer => 1
  | some .prepare => 2
  | some .ramp => 3

/-- The set of the holders. -/
def holderSet (holders : List Holder) : StationSet := setOf (isHolder holders)

/-- The view of a group (R46). -/
def GroupRecord.view (r : GroupRecord) : View :=
  { holders := holderSet r.holders
    stage := stageCode (r.transaction.map (·.stage))
    rampCount := match r.transaction with
      | some t => if t.stage = .ramp then t.rampCount else 0
      | none => 0
    epoch := r.epoch }

/-- The open transaction is at a stage. -/
def GroupRecord.atStage (r : GroupRecord) (stage : Stage) : Bool := decide (r.transaction.map (·.stage) = some stage)

/-- The own station is the claimant of the open transaction. -/
def Station.isClaimant (s : Station) (g : Group) : Bool :=
  decide ((s.auth.group g).transaction.map (·.claimant) = some s.number)

/-- The own station holds a share of the group. -/
def Station.isOwnHolder (s : Station) (g : Group) : Bool := isHolder (s.auth.group g).holders s.number

/-- What a claimant must measure to be READY (R149). -/
def Station.claimantMeasures (s : Station) (g : Group) : Bool :=
  match g with
  | .tilt => ownSensor s.meas.latest.leanSource
  | .steer =>
    match s.channelOf .steerTorque with
    | some c => !s.isFailed c
    | none => false

/-- The response of R149, the first that applies. -/
def Station.response (s : Station) (g : Group) : Response :=
  let r := s.auth.group g
  let level := authorityLevel s.cond
  if !s.auth.live then .none
  else if (s.isOwnHolder g || s.isClaimant g)
      && (s.drive.fltSeen || s.member.state = .halted || decide (level = 3)) then .release
  else if r.atStage .answer && s.isOwnHolder g then
    if s.keepsAuthority || decide (2 ≤ level) || s.bus.held.mode = .lock then .keep else .give
  else if r.atStage .prepare && s.isClaimant g && !s.drive.fltSeen && decide (level ≤ 1) && s.claimantMeasures g then
    .ready
  else .none

/-! ## Meanings -/

/-- The limit of one stage on one group, as its own step. -/
def Station.limitGroup (limit : GroupWork → GroupWork) (s : Station) (g : Group) : Station :=
  s.commitGroup g (limit { record := s.auth.group g, closed := none })

/-- The limit of one stage on both groups of a live table. -/
def Station.limitStage (s : Station) (limit : GroupWork → GroupWork) : Station :=
  if s.auth.live && takesPart s.member.state then
    ((s.limitGroup limit .tilt).limitGroup limit .steer).groupConds
  else s

/-- ANSWER_TIMEOUT (R150): a transaction still in ANSWER at stage age 4 closes as NO_ANSWER. -/
def execAnswerTimeout (s : State) : Result := s.after fun st => st.limitStage GroupWork.answerLimit

/-- PREPARE_TIMEOUT (R151): a transaction still in PREPARE at stage age 16 closes as NOT_READY. -/
def execPrepareTimeout (s : State) : Result := s.after fun st => st.limitStage GroupWork.prepareLimit

end Sys2Proof.Machine
end

