-- ==== Sys2Proof/Machine/Drive.lean ====
section
/-! DEFINITION. The Drive Unit (chapter 10): lock entry, lock stepping, the two laws, slew and limit, the pins DISABLE and
DRV_FLT, and the meanings of LOCK_RAMP_END, RELEASE_HOLD_END and the four pin rows. -/

namespace Sys2Proof.Machine

/-! ## Lock entry at the handover (R167) -/

/-- The drive under an agreed MODE of LOCK. -/
def Drive.enterLock (lockRampMax : Nat) (d : Drive) : Drive :=
  match d.output with
  | .active => { d with output := .rampDown, lockRamp := lockRampMax, release := 0, lrel := false }
  | .rampUp => { d with output := .rampDown, release := 0, lrel := false }
  | .off | .locked | .rampDown => { d with release := 0, lrel := false }

/-- A drive role at a handover that takes an agreed MODE of LOCK, in every class (R167). -/
def Station.lockEntry (s : Station) : Station :=
  if s.bus.held.mode = .lock && isDriveRole s.params.role then
    { s with drive := s.drive.enterLock s.params.shared.lockRamp }
  else s

/-! ## Lock stepping at the apply point (R163 stages 1 and 2, R168, R169) -/

/-- An OFF unit may leave OFF: the station in MEMBER, both inputs released (R163; log 35). -/
def Station.mayLeaveOff (s : Station) : Bool :=
  s.member.state = .member && !s.pins.disable && !s.pins.drvFlt && !s.member.disableSeen && !s.drive.fltSeen

/-- Stage 1: leaving OFF (R163). -/
def Station.leaveOff (s : Station) : Station :=
  if s.drive.output = .off && s.mayLeaveOff then
    { s with drive := { s.drive with output := .locked, lockRamp := 0 } }
  else s

/-- The end of a lock ramp: 0 in RAMP_DOWN enters LOCKED, LOCK_RAMP in RAMP_UP enters ACTIVE (R168). -/
def Drive.endLockRamp (lockRampMax : Nat) (d : Drive) : Drive :=
  match d.output with
  | .rampDown => if d.lockRamp = 0 then { d with output := .locked } else d
  | .rampUp => if lockRampMax ≤ d.lockRamp then { d with output := .active, release := 0 } else d
  | .off | .locked | .active => d

/-- The end of a lock ramp at this station, where it is due. -/
def Station.lockRampEnd (s : Station) : Station :=
  { s with drive := s.drive.endLockRamp s.params.shared.lockRamp }

/-- One RAMP_UP step (R168). -/
def Drive.stepUp (lockRampMax : Nat) (d : Drive) : Drive :=
  ({ d with output := .rampUp, lockRamp := succSat lockRampMax d.lockRamp } : Drive).endLockRamp lockRampMax

/-- One RAMP_DOWN step (R168). -/
def Drive.stepDown (lockRampMax : Nat) (d : Drive) : Drive :=
  ({ d with lockRamp := d.lockRamp - 1 } : Drive).endLockRamp lockRampMax

/-- Stage 2: the lock ramps and the release count (R168, R169). -/
def Drive.stepLock (sh : SharedSection) (agreed : Bool) (mode : Mode) (d : Drive) : Drive :=
  match d.output with
  | .off => d
  | .locked => if agreed && decide (mode ≠ .lock) then d.stepUp sh.lockRamp else d
  | .rampDown => if agreed && decide (mode ≠ .lock) then d.stepUp sh.lockRamp else d.stepDown sh.lockRamp
  | .rampUp => if agreed then d.stepUp sh.lockRamp else d
  | .active => if agreed then { d with release := succSat sh.releaseHold d.release } else d

/-- The release hold has run at a tilt role in ACTIVE, in MEMBER, under an agreed MODE of at least 1 (R169). -/
def Station.releaseDue (s : Station) : Bool :=
  s.drive.output = .active && decide (s.params.shared.releaseHold ≤ s.drive.release) && isTiltRole s.params.role
    && s.member.state = .member && decide (s.bus.held.mode ≠ .lock)

/-- LREL is asked for, where the release hold has run (R169). -/
def Station.releaseHoldEnd (s : Station) : Station :=
  if s.releaseDue then { s with drive := { s.drive with lrel := true } } else s

/-! ## The laws (R164, R165) -/

/-- The target effort of a raw effort and a share (R164 steps 4 and 5, R165 steps 4 and 5). -/
def targetEffort (effortMax share : Nat) (raw : Int) : Int :=
  (saturate (-(effortMax : Int)) effortMax raw * share).tdiv 1000

/-- The raw effort of the tilt law before saturation (R164); 0 without an own lean. -/
def tiltLaw (own : StationSection) (setpoint rate : Int) (lean : Option Int) : Int :=
  match lean with
  | some x => (own.kp * (setpoint - x)).tdiv 64 - (own.kd * rate).tdiv 64
  | none => 0

/-- The raw effort of the steer law before saturation (R165); a term without its input is 0. -/
def steerLaw (own : StationSection) (setpoint : Int) (torque lean : Option Int) : Int :=
  (match torque with
    | some t => (own.ka * t).tdiv 64
    | none => 0)
  + (match lean with
    | some x => (own.kl * (setpoint - x)).tdiv 64
    | none => 0)

/-- The scooter lean (R165). -/
def Station.scooterLean (s : Station) : Option Int := meanOf (s.peerLeans s.thisRound)

/-- Stage 3: the target effort of the own role. -/
def Station.driveTarget (s : Station) : Int :=
  let own := s.params.own
  let setpoint := s.engine.run.setpoint
  if isTiltRole s.params.role then
    targetEffort own.effortMax (s.ownShare .tilt) (tiltLaw own setpoint s.meas.latest.leanRate s.meas.latest.ownLean)
  else
    targetEffort own.effortMax (s.ownShare .steer)
      (steerLaw own setpoint (s.fitValue s.meas.latest .steerTorque) s.scooterLean)

/-! ## Slew, limit and outputs (R166, Table 10-1) -/

/-- The effort limit of an output state (Table 10-1). -/
def effortLimit (effortMax lockRampMax : Nat) (d : Drive) : Nat :=
  match d.output with
  | .off | .locked => 0
  | .rampUp | .rampDown => effortMax * d.lockRamp / lockRampMax
  | .active => effortMax

/-- Stage 4: slew, then limit (R166). -/
def slewAndLimit (slew limit : Nat) (target effort : Int) : Int :=
  saturate (-(limit : Int)) limit (moveToward slew target effort)

/-- DIR by the sign of the effort; 0 leaves it (R166). -/
def dirLevel (inverted before : Bool) (effort : Int) : Bool :=
  if 0 < effort then !inverted else if effort < 0 then inverted else before

/-- Stage 5: PWM, DIR and the applied effort (R166, R170). -/
def Drive.putOut (inverted : Bool) (effort : Int) (d : Drive) : Drive :=
  { d with effort := effort, applied := effort, pwm := effort.natAbs, dirHigh := dirLevel inverted d.dirHigh effort }

/-- Stages 2 to 5 of a unit that is not OFF. -/
def Station.driveUpdate (s : Station) : Station :=
  let sh := s.params.shared
  let own := s.params.own
  let d := s.drive.stepLock sh (decide (s.applyClass = .agreed)) s.bus.held.mode
  let s := { s with drive := d }
  let effort := slewAndLimit own.effortSlew (effortLimit own.effortMax sh.lockRamp d) s.driveTarget d.effort
  let s := { s with drive := d.putOut own.dirInverted effort }
  s.releaseHoldEnd

/-- The Drive Unit's apply point (R163): a unit that stays in OFF keeps effort 0. -/
def Station.driveApply (s : Station) : Station :=
  if isDriveRole s.params.role then
    let s := s.leaveOff
    if s.drive.output = .off then s else s.driveUpdate
  else s

/-! ## The levels of the pins change (R72, R161, R162) -/

/-- The level of DISABLE changes; a sample point sees it or not (R72, R162; log 23). -/
def Station.changeDisable (s : Station) (level seen : Bool) : Station :=
  let s := { s with pins := { s.pins with disable := level } }
  if seen && readsPins s.member.state then s.seeDisable level else s

/-- The level of DRV_FLT changes; a sample point sees it or not (R161, R162; log 23). -/
def Station.changeDrvFlt (s : Station) (level seen : Bool) : Station :=
  let s := { s with pins := { s.pins with drvFlt := level } }
  if seen && readsPins s.member.state then s.seeDrvFlt level else s

/-! ## Meanings -/

/-- LOCK_RAMP_END (R168): a lock ramp at its end enters LOCKED or ACTIVE. -/
def execLockRampEnd (s : State) : Result := s.after Station.lockRampEnd

/-- RELEASE_HOLD_END (R169): a release hold that has run asserts LREL on a tilt role. -/
def execReleaseHoldEnd (s : State) : Result := s.after Station.releaseHoldEnd

/-- DISABLE_ASSERTED (R72, R161, R162). -/
def execDisableAsserted (seen : Bool) (s : State) : Result := s.after fun st => st.changeDisable true seen

/-- DISABLE_RELEASED (R72). -/
def execDisableReleased (seen : Bool) (s : State) : Result := s.after fun st => st.changeDisable false seen

/-- DRV_FLT_ASSERTED (R161, R162). -/
def execDrvFltAsserted (seen : Bool) (s : State) : Result := s.after fun st => st.changeDrvFlt true seen

/-- DRV_FLT_RELEASED (R161). -/
def execDrvFltReleased (seen : Bool) (s : State) : Result := s.after fun st => st.changeDrvFlt false seen

end Sys2Proof.Machine
end

