-- ==== Sys2Proof/Machine/Proposals.lean ====
section
/-! DEFINITION. The proposal record (11.4), the whole apply point, and the meaning of APPLY_POINT. -/

namespace Sys2Proof.Machine

/-! ## Caps (R179) -/

/-- The cap level: the higher of the own fault level and the agreed FAULT. -/
def Station.capLevel (s : Station) : Nat := max (faultLevel s.cond) s.bus.held.fault

/-- The mode cap (Table 11-3). -/
def modeCap (level : Nat) : Nat :=
  match level with
  | 0 => 4
  | 1 => 3
  | 2 => 2
  | _ => 0

/-- The limit cap (Table 11-3). -/
def limitCap (sh : SharedSection) (level : Nat) : Nat :=
  match level with
  | 0 => 360
  | 1 => sh.cautionLimit
  | 2 => sh.walkLimit
  | _ => 0

/-! ## Speed mode (R180) -/

/-- The highest of the four modes whose lower bound plus a margin is at most the speed; PARK when none is. -/
def modeAbove (sh : SharedSection) (margin speed : Nat) : Mode :=
  if sh.vGuided + margin ≤ speed then .free
  else if sh.vWalk + margin ≤ speed then .guided
  else if 1 + margin ≤ speed then .walk
  else .park

/-- The speed mode after a speed (R180). -/
def nextSpeedMode (sh : SharedSection) (before : Mode) (speed : Nat) : Mode :=
  let plain := modeAbove sh 0 speed
  let raised := modeAbove sh sh.vh speed
  if modeCode plain < modeCode before then plain
  else if modeCode before < modeCode raised then raised
  else before

/-- The speed mode of this apply point. -/
def Station.moveSpeedMode (s : Station) : Station :=
  match s.meas.latest.ownSpeed with
  | some v => { s with cond := { s.cond with speedMode := nextSpeedMode s.params.shared s.cond.speedMode v } }
  | none => s

/-- The speed term; 7 without an own wheel speed. -/
def Station.speedTerm (s : Station) : Nat :=
  if s.meas.latest.ownSpeed.isSome then modeCode s.cond.speedMode else 7

/-! ## Park and halt terms (R181) -/

/-- The wheel speed of the source report, when there is one (R181 case 2). -/
def Station.sourceSpeed (s : Station) : Option Nat :=
  (s.demandSource.bind s.thisRound).bind fun f => if (readDemand f).isSome then readSpeed f else none

/-- The highest wheel speed among this round's reports of usable peers (R181 case 3). -/
def Station.peerSpeed (s : Station) : Option Nat :=
  (allStations.filterMap fun k =>
    if decide (k ≠ s.number) && s.usable k then (s.thisRound k).bind readSpeed else none).max?

/-- The park speed (R181). -/
def Station.parkSpeed (s : Station) : Option Nat :=
  s.meas.latest.ownSpeed.orElse fun _ => s.sourceSpeed.orElse fun _ => s.peerSpeed

/-- The park term (R181). -/
def Station.parkTerm (s : Station) : Nat :=
  match s.parkSpeed with
  | some v => if isSteerRole s.params.role && s.pins.parkReq && decide (v < s.params.shared.vWalk) then 1 else 7
  | none => 7

/-- The halt term (R181). -/
def Station.haltTerm (s : Station) : Nat := if s.member.state = .halted then 0 else 7

/-- The mode proposal (R181). -/
def Station.modeProposal (s : Station) : Nat :=
  min (min (modeCap s.capLevel) s.speedTerm) (min s.parkTerm s.haltTerm)

/-! ## Limit (R182) -/

/-- The limit between two points of the curve, truncated toward zero. -/
def between (p q : CurvePoint) (v : Nat) : Nat :=
  ((p.limit : Int) + (((q.limit : Int) - p.limit) * ((v : Int) - p.speed)).tdiv ((q.speed : Int) - p.speed)).toNat

/-- The curve from one of its points onward. -/
def curveFrom (v : Nat) : List CurvePoint → Nat
  | [] => 0
  | [p] => p.limit
  | p :: q :: rest => if v ≤ p.speed then p.limit else if v < q.speed then between p q v else curveFrom v (q :: rest)

/-- The curve term; 511 without an own wheel speed. -/
def Station.curveTerm (s : Station) : Nat :=
  match s.meas.latest.ownSpeed with
  | some v => curveFrom v s.params.shared.curve
  | none => 511

/-- The limit proposal (R182). -/
def Station.limitProposal (s : Station) : Nat :=
  let sh := s.params.shared
  let sole := if s.holds .tiltSole 0 then sh.soleLimit else 511
  min (min s.curveTerm (limitCap sh s.capLevel)) (min (modeAt sh s.bus.held.mode).maxLean sole)

/-! ## The proposal record (R183) -/

/-- The record that this apply point hands over, with the claim code formed at it. -/
def Station.buildProposal (s : Station) (claim : Nat) : Proposal :=
  { mode := (modeOfCode s.modeProposal).getD .lock, limit := s.limitProposal, fault := faultLevel s.cond,
    ready := s.engine.ready, claim := claim }

/-- The proposal builder's apply point: displaced conditions offered, speed mode moved, record handed over (R174, R180,
R183). -/
def Station.propose (s : Station) (claim : Nat) : Station :=
  let s := { s with cond := reofferDisplaced s.cond }
  let s := s.moveSpeedMode
  { s with cond := { s.cond with proposal := some (s.buildProposal claim) } }

/-! ## The apply point (R120, R163, R183) -/

/-- The work of every block at APPLY_AT: engine, ramps, claim, drive, proposal. -/
def Station.applyWork (s : Station) : Station :=
  let s := s.engineApply
  let s := s.rampStep
  let s := s.groupConds
  let claim := s.claimCode
  let s := s.countAuthority
  let s := s.driveApply
  let s := s.propose claim
  { s with bus := { s.bus with round := { s.bus.round with applied := true } } }

/-- The apply point of this round is to come: a round that the timer opened, its work not taken (R120). -/
def Station.applyDue (s : Station) : Bool :=
  takesPart s.member.state && decide (s.bus.round.opening ≠ .noRound) && !s.bus.round.applied

/-- The apply point, with the level of PARK_REQ at it (R181; log 22). -/
def Station.applyPoint (s : Station) (parkReq : Bool) : Station :=
  if s.applyDue then
    s.atMoment s.params.own.applyAt fun s => ({ s with pins := { s.pins with parkReq := parkReq } } : Station).applyWork
  else s

/-! ## Meanings -/

/-- APPLY_POINT (R120, R152, R163, R183). -/
def execApplyPoint (parkReq : Bool) (s : State) : Result := s.after fun st => st.applyPoint parkReq

end Sys2Proof.Machine
end

