-- ==== Sys2Proof/Machine/Tally.lean ====
section
/-! DEFINITION. The tally of a round: the image (R23), the handover with everything the outcomes lead to (R16), and the
meanings of TALLY_IMAGE and TALLY_HANDOVER. -/

namespace Sys2Proof.Machine

/-! ## The image (R23, R24) -/

/-- The fields that a member drives from its proposal record: all of them abstained without one (R23). -/
def memberImage (claims : Bool) (proposal : Option Proposal) (sig : Option Word16) : TallyImage :=
  { joining := false
    mode := proposal.map fun p => modeCode p.mode
    limit := proposal.map (·.limit)
    fault := proposal.map (·.fault)
    advance := proposal.map (·.ready)
    claim := if claims then proposal.map (·.claim) else none
    sig := sig }

/-- The tally image by the station state (Table 3-1, R23). -/
def Station.tallyImage (s : Station) : TallyImage :=
  match s.member.state with
  | .member => memberImage true s.cond.proposal s.bus.ownSig
  | .halted => memberImage false s.cond.proposal s.bus.ownSig
  | .join | .load | .configFault | .listen | .silent | .quiet =>
    { joining := true, mode := none, limit := none, fault := none, advance := none, claim := none, sig := none }

/-- The kept values of an image: an abstained field is kept as 7, 511 or 0 (R24). -/
def BusUnit.keep (b : BusUnit) (image : TallyImage) : BusUnit :=
  { b with
    keptMode := image.mode.getD 7, keptLimit := image.limit.getD 511, keptFault := image.fault.getD 0
    round := { b.round with image := some image } }

/-- The station takes part in this round's tally as a driver, and has no image yet (R12, R23). -/
def Station.imageDue (s : Station) : Bool :=
  isDriving s.member.state && s.bus.round.recognised && !s.bus.round.abandoned && s.bus.round.image.isNone
    && !s.bus.round.handed

/-- The image is taken at position 10. -/
def Station.takeImage (s : Station) : Station :=
  if s.imageDue then
    s.atMoment Config.tallyStart fun s => { s with bus := s.bus.keep s.tallyImage }
  else s

/-! ## The outcomes (R15, R16, R35, R38) -/

/-- BUS_FAULT source 1 for each bit driven dominant and read recessive (R15; log 25). -/
def Station.readBackTally (s : Station) (wire : BitVec 70) : Station :=
  match s.bus.round.image with
  | some image => s.raiseTimes .busFault 1 (notReadBack (tallyLevels s.number image wire))
  | none => s

/-- The levels of the bits that a station drove before its round was abandoned (R15, R21). -/
def levelsUntil (cutAt : Nat) (levels : List (Bool × Bool)) : List (Bool × Bool) :=
  levels.take (cutAt + 1 - Config.tallyStart)

/-- BUS_FAULT source 1 for the tally bits of an abandoned round that were driven dominant and read recessive (R15; log 25). The
image has been read back with it. -/
def Station.readBackCut (s : Station) (wire : BitVec 70) : Station :=
  match s.bus.round.image with
  | some image =>
    ({ s with bus := { s.bus with round := { s.bus.round with image := none } } } : Station).raiseTimes .busFault 1
      (notReadBack (levelsUntil s.bus.round.cutAt (tallyLevels s.number image wire)))
  | none => s

/-- The station drove a claim of its own (R35). -/
def droveClaim (image : Option TallyImage) : Bool :=
  match image with
  | some i => match i.claim with
    | some c => decide (c ≠ Config.noClaimCode)
    | none => false
  | none => false

/-- The own claim result (R35). -/
def claimResultOf (own : StationNo) (drove : Bool) (claim : Option Claim) : ClaimResult :=
  if claim.map (·.station) = some own then .named else if drove then .lost else .none

/-- The outcomes replace the held outcome set (R16, R25). The values read are kept with them (R24); a round whose tally is not handed
on leaves those of the last handover (DESIGN CHOICE, log 55). -/
def Station.takeOutcomes (s : Station) (wire : BitVec 70) : Station :=
  let held := resolveTally (isDriving s.member.state) s.number wire
  { s with
    bus :=
      { s.bus with
        held := held, wireRead := wire
        claimResult := claimResultOf s.number (droveClaim s.bus.round.image) held.claim
        round := { s.bus.round with handed := true } } }

/-- The own match of an agreed round is kept; the own signature is discarded (R36, R38). -/
def Station.takeOwnMatch (s : Station) : Station :=
  let kept :=
    if s.bus.held.roundClass = .agreed then s.bus.ownSig.isSome && decide (s.bus.ownSig = s.bus.held.agreedSig)
    else s.member.keptOwnMatch
  { s with bus := { s.bus with ownSig := none }, member := { s.member with keptOwnMatch := kept } }

/-! ## The fate of the pending record (R59) -/

/-- The record is applied (Table 4-4): on agreement, or memberless and alone, and only in the round after its own. -/
def recordApplies (h : HeldSet) (roundNumber : Word16) (r : DecisionRecord) : Bool :=
  decide (r.tag + 1 = roundNumber) && (h.roundClass = .agreed || (h.roundClass = .memberless && h.alone))

/-- The record that is applied at this handover, if any. -/
def Station.appliedRecord (s : Station) : Option DecisionRecord :=
  s.bus.pendingRecord.filter (recordApplies s.bus.held s.bus.roundNumber)

/-! ## Joining (R67, R70, R71) -/

/-- The join conditions (Table 5-3). -/
def Station.joinConditions (s : Station) : Bool :=
  let noMembers := decide (memberSet s.bus.held = 0)
  decide (Config.joinRounds ≤ s.member.joinRounds)
    && (s.meas.cal.status = .done || s.meas.cal.status = .skipped)
    && decide (faultLevel s.cond ≤ 2)
    && (noMembers || s.member.verdict = .met)
    && (noMembers || (s.engine.run.adopted && decide (s.member.matchCount = Config.matchRounds)))
    && (noMembers || s.member.keptOwnMatch)

/-- Entry to MEMBER from JOIN: CONFIG_DIFFERS source 8 leaves with JOIN, a table at rest becomes live, and the group conditions
follow the new member (R68, R71, R143, R158). -/
def Station.enterMember (s : Station) : Station :=
  let s := { s with member := { s.member with state := .member } }
  let s := s.setHeld false .configDiffers 8
  s.makeLive

/-- The handover in JOIN: the round is counted, then the conditions are evaluated (R67, R70). -/
def Station.joinHandover (s : Station) : Station :=
  if s.member.state = .join then
    let s := { s with member := { s.member with joinRounds := succSat 255 s.member.joinRounds } }
    if s.joinConditions then s.enterMember else s
  else s

/-! ## The handover (R16) -/

/-- The exclusions of an applied record. -/
def exclusionsOf (applied : Option DecisionRecord) : StationSet :=
  match applied with
  | some r => r.exclusions
  | none => 0

/-- The applied record's way through the blocks, in the order of log 19: the peer table, the engine with the view it adopts, the
authority table (R82 to R84, R139, R144, R148). No record stays pending (R59). -/
def Station.consumeOutcomes (s : Station) : Station :=
  let applied := s.appliedRecord
  let s := { s with bus := { s.bus with pendingRecord := none } }
  let s := s.peersHandover (exclusionsOf applied)
  let s := s.adopt (applied.bind (·.adoption))
  s.authorityHandover applied

/-- The outcomes taken and consumed, before the station state moves (R15, R25, R36, R136). -/
def Station.takeTally (s : Station) (wire : BitVec 70) : Station :=
  let s := s.readBackTally wire
  let s := s.takeOutcomes wire
  let s := s.countSplit
  let s := s.takeOwnMatch
  s.consumeOutcomes

/-- An applied exclusion of the own number silences a driving station (R75, R83). -/
def Station.silencedBy (s : Station) (wire : BitVec 70) : Bool :=
  isDriving s.member.state && inSet (exclusionsOf (s.takeOutcomes wire).appliedRecord) s.number

/-- The whole handover after the sample point of position 79: the station state moves last, by an exclusion of the own number, or
by the join conditions, and then the drive takes a MODE of LOCK (R67, R75, R167; log 19). -/
def Station.handover (s : Station) (wire : BitVec 70) : Station :=
  if s.silencedBy wire then (s.takeTally wire).enterSilent.groupConds else (s.takeTally wire).joinHandover.lockEntry

/-- This round's outcomes are to be handed on: a recognised mark, not abandoned, not handed on yet (R16, R25). -/
def Station.handoverDue (s : Station) : Bool :=
  takesPart s.member.state && s.bus.round.recognised && !s.bus.round.abandoned && !s.bus.round.handed

/-- The round was abandoned before its handover: nothing is handed on, and its consumers are told so (R16, R21). -/
def Station.cutTallyDue (s : Station) : Bool := takesPart s.member.state && s.bus.round.tallyCut

/-- Position 79 of a round abandoned before it: the bits driven until the abandonment are read back, and the consumers are told (R15,
R16, R21). -/
def Station.cutTally (s : Station) (wire : BitVec 70) : Station :=
  let s := s.readBackCut wire
  { s with bus := s.bus.tellTally }

/-- The handover at position 79, where it is due. In LISTEN, and in a round abandoned before it, the values read stay those of the
last handover (log 55). -/
def Station.tallyHandover (s : Station) (wire : BitVec 70) : Station :=
  if s.handoverDue then s.atMoment Config.tallyEnd fun s => s.handover wire
  else if s.cutTallyDue then s.atMoment Config.tallyEnd fun s => s.cutTally wire
  else s

/-! ## Meanings -/

/-- TALLY_IMAGE (R23, R24). -/
def execTallyImage (s : State) : Result := s.after Station.takeImage

/-- TALLY_HANDOVER (R16): the nine outcomes and the fate of the pending record, or the abandonment told in their place (R21). -/
def execTallyHandover (wire : BitVec 70) (s : State) : Result := s.after fun st => st.tallyHandover wire

end Sys2Proof.Machine
end

