-- ==== Sys2Proof/Machine/Reports.lean ====
section
/-! DEFINITION. Reports, the round signature and the decision record (chapter 4), and the meanings of OWN_REPORT_SEND,
OWN_SLOT_END, SLOT_END and REPORT_SECTION_END. -/

namespace Sys2Proof.Machine

/-! ## The report builder (R40 to R47) -/

/-- The quantity of the secondary field (R42). -/
def secondaryQuantity : Role → Quantity
  | .steer | .steerB => .steerAngle
  | .frame => .frameRoll
  | .speed => .brake
  | .tiltL | .tiltR => .supply
  | .none => .none

/-- The secondary value, when its channel is mapped and not failed (R42). -/
def Station.secondaryValue (s : Station) : Option Int := s.fitValue s.meas.snapshot (secondaryQuantity s.params.role)

/-- The lean field (R42). -/
def Station.leanField (s : Station) : Int :=
  if isLeanRole s.params.role then s.meas.snapshot.ownLean.getD Config.leanNone else Config.leanNone

/-- The lean rate field (R42). -/
def Station.leanRateField (s : Station) : Int :=
  if isLeanRole s.params.role then saturate (-2047) 2047 s.meas.snapshot.leanRate else 0

/-- The secondary field (R42). -/
def Station.secondaryField (s : Station) : Int :=
  match s.secondaryValue with
  | some x => saturate (-2047) 2047 x
  | none => Config.secondaryNone

/-- The demand field (R43). -/
def Station.demandField (s : Station) : Int :=
  if isSteerRole s.params.role then
    match s.secondaryValue with
    | some x => saturate (-360) 360 x
    | none => Config.leanNone
  else 0

/-- The effort field (R43, R170). -/
def Station.effortField (s : Station) : Int := if isDriveRole s.params.role then s.drive.applied else 0

/-- The head of the queue; 0 with an empty queue (R47). -/
def queueHead (queue : List QueueRecord) : Nat × Nat × Nat :=
  match queue with
  | r :: _ => (condNumber r.key.code, r.key.source, r.count)
  | [] => (0, 0, 0)

/-- The report as its sources hold it at the own slot start (R40). -/
def Station.buildReport (s : Station) : Report :=
  let head := queueHead s.cond.queue
  { station := s.number.val
    seq := s.bus.nextSeq
    state := stateField s.member.state
    role := roleCode s.params.role
    digest := s.loader.digest
    lean := s.leanField
    leanRate := s.leanRateField
    secondary := s.secondaryField
    speed := s.meas.snapshot.ownSpeed.getD Config.speedNone
    demand := s.demandField
    effort := s.effortField
    traj := s.engine.run.fields
    propMode := s.bus.keptMode
    propLimit := s.bus.keptLimit
    propFault := s.bus.keptFault
    suspects := s.suspectSet
    tiltView := s.auth.tilt.view
    steerView := s.auth.steer.view
    tiltResponse := responseCode (s.response .tilt)
    steerResponse := responseCode (s.response .steer)
    staleScan := s.meas.stale
    calDone := s.meas.cal.done
    condCode := head.1
    condSource := head.2.1
    condCount := head.2.2
    overflow := s.cond.overflow }

/-! ## Sending with read-back (R17, R18, R40) -/

/-- The first frame bit that reads otherwise than it was driven. -/
def firstMismatch (frame readBack : BitVec 247) : Option Nat :=
  (List.range Config.frameLength).find? fun i => decide (frame.getMsbD i ≠ readBack.getMsbD i)

/-- The source of TX_CLASH: 0 for a recessive bit read dominant, 1 for a dominant bit read recessive (R18). -/
def clashSource (frame : BitVec 247) (i : Nat) : Nat := if frame.getMsbD i then 0 else 1

/-- The frame is fixed and sent; a mismatch raises TX_CLASH (R18, R40; log 25). -/
def Station.sendReport (s : Station) (readBack : BitVec 247) : Station :=
  let report := s.buildReport
  let frame := encodeReport report
  let mismatch := firstMismatch frame readBack
  let s :=
    { s with
      bus := { s.bus with round := { s.bus.round with ownSlot := .sending frame report mismatch } }
      cond := { s.cond with dropped := false } }
  match mismatch with
  | some i => s.raise .txClash (clashSource frame i)
  | none => s

/-- The station sends in this round, and its slot has not begun (R17). -/
def Station.sendDue (s : Station) : Bool :=
  isDriving s.member.state && s.bus.round.recognised && !s.bus.round.abandoned && decide (s.bus.round.ownSlot = .notBegun)

/-- The own frame at the start of the own slot, where it is due. -/
def Station.ownReport (s : Station) (readBack : BitVec 247) : Station :=
  if s.sendDue then s.atMoment (slotStart s.number) fun s => s.sendReport readBack else s

/-! ## The round signature (R54, R55) -/

/-- The bits absorbed for a slot: its class marker, and the frame of a RECEIVED one (R55). -/
def slotBits (frame : BitVec 247) : SlotClass → List Bool
  | .silent => [false, false]
  | .garbled => [true, false]
  | .received _ => true :: true :: bitsOf 247 frame.toNat

/-- A slot is classed and absorbed into the signature (R51, R55). -/
def BusUnit.classSlot (b : BusUnit) (k : StationNo) (c : SlotClass) (frame : BitVec 247) : BusUnit :=
  { b with
    signature := absorb b.signature (slotBits frame c)
    round := { b.round with slots := b.round.slots.set k (some c) } }

/-! ## The end of the own slot (R47, R49, R50, R51, R178) -/

/-- The class of the own slot by the transmit outcome. -/
def ownClass (report : Report) (mismatch : Option Nat) : SlotClass :=
  match mismatch with
  | none => .received report
  | some _ => .garbled

/-- The Bus Unit at the end of its own frame: class and signature, clash count, next seq. -/
def BusUnit.endOwnSlot (b : BusUnit) (own : StationNo) (frame : BitVec 247) (report : Report) (mismatch : Option Nat) :
    BusUnit :=
  let b := b.classSlot own (ownClass report mismatch) frame
  { b with
    clashCount := if mismatch.isNone then 0 else succSat Config.clashLimit b.clashCount
    nextSeq := !b.nextSeq
    round := { b.round with ownSlot := .ended } }

/-- The end of a frame that was sent: a clean one is told to the Condition Unit, a third clash silences (R47, R50, R178). -/
def Station.endFrame (s : Station) (frame : BitVec 247) (report : Report) (mismatch : Option Nat) : Station :=
  let s := { s with bus := s.bus.endOwnSlot s.number frame report mismatch }
  let s := if mismatch.isNone then { s with cond := reportTold s.cond report.condCount report.overflow } else s
  s.clashSilence

/-- The end of the own slot, where a frame was begun in it: a frame that an abandonment cut is told to no one (R18, R49). -/
def Station.ownSlotEnd (s : Station) : Station :=
  match s.bus.round.ownSlot with
  | .sending frame report mismatch =>
    s.atMoment (slotLast s.number) fun s =>
      if s.bus.round.abandoned then { s with bus := s.bus.cutFrame } else s.endFrame frame report mismatch
  | .notBegun | .ended => s

/-! ## Reception (R51) -/

/-- The class of a slot that is not sent in: SILENT without activity, and for the own slot in QUIET (R19, R51). -/
def Station.receivedClass (s : Station) (k : StationNo) (sampled : BitVec 247) : SlotClass :=
  if decide (k ≠ s.number) && s.bus.round.activity.get k then classOfBits k sampled else .silent

/-- The slot is to be classed: the own slot of a driving station is classed by its transmit outcome instead. -/
def Station.slotDue (s : Station) (k : StationNo) : Bool :=
  takesPart s.member.state && s.bus.round.recognised && !s.bus.round.abandoned && (s.bus.round.slots.get k).isNone
    && (decide (k ≠ s.number) || s.member.state = .quiet)

/-- The end of a slot, where it is to be classed. -/
def Station.slotEnd (s : Station) (k : StationNo) (sampled : BitVec 247) : Station :=
  if s.slotDue k then
    s.atMoment (slotLast k) fun s => { s with bus := s.bus.classSlot k (s.receivedClass k sampled) sampled }
  else s

/-! ## The end of the report section (R53, R56 to R58) -/

/-- The decision digest (R56). -/
def Station.digestBits (s : Station) : List Bool :=
  let idle := decide (s.engine.run.engine = .idle)
  bitsOf 8 s.auth.tilt.epoch.toNat ++ bitsOf 8 s.auth.steer.epoch.toNat ++ bitsOf 8 s.excludedSet.toNat
    ++ bitsOf 3 (if idle then 7 else modeCode7 s.engine.run.mode) ++ bitsOf 5 (if idle then 0 else s.engine.run.step)

/-- The responses of the record: not heard, or the pair as read (R57). -/
def Station.recordResponses (s : Station) : Eight (Option (Response × Response)) :=
  Eight.ofFn fun k => (s.heard k).map fun f => (responseOfCode f.tiltResponse, responseOfCode f.steerResponse)

/-- The adoption source: the lowest-numbered station of the member set whose slot was RECEIVED (R58). -/
def Station.adoptionSource (s : Station) : Option StationNo :=
  allStations.find? fun k => s.inMemberSet k && s.wasReceived k

/-- Both views of a report are proper and show no open transaction (R58). -/
def viewsSettled (f : Report) : Bool :=
  viewProper 2 f.tiltView && viewProper 1 f.steerView && decide (f.tiltView.stage = 0) && decide (f.steerView.stage = 0)

/-- The station makes adoption entries: in JOIN or QUIET without an adopted state (R58, R79). -/
def Station.seeksAdoption (s : Station) : Bool :=
  (s.member.state = .join || s.member.state = .quiet) && !s.engine.run.adopted

/-- The adoption entry of this section; the demand is written in at the apply point (R58, R120). -/
def Station.adoptionEntry (s : Station) : Option AdoptionEntry :=
  if s.seeksAdoption then
    match s.adoptionSource with
    | some k =>
      match s.heard k with
      | some f =>
        if viewsSettled f then
          some
            { source := k, traj := f.traj, tiltHolders := f.tiltView.holders, tiltEpoch := f.tiltView.epoch,
              steerHolders := f.steerView.holders, steerEpoch := f.steerView.epoch,
              roundClass := s.bus.held.roundClass, mode := s.bus.held.mode, limit := s.bus.held.limit,
              advance := s.bus.held.advance, demand := s.engine.demand }
        else none
      | none => none
    | none => none
  else none

/-- The decision record of this section (R57). -/
def Station.buildRecord (s : Station) : DecisionRecord :=
  { tag := s.bus.roundNumber, exclusions := s.exclusions, responses := s.recordResponses, adoption := s.adoptionEntry }

/-- The signature is completed and the record held (R36, R56, R57). -/
def Station.closeSection (s : Station) : Station :=
  let signature := absorb s.bus.signature s.digestBits
  { s with
    bus :=
      { s.bus with
        signature := signature, ownSig := some signature, pendingRecord := some s.buildRecord,
        lastSection := some s.bus.roundNumber } }

/-- The round hands its results on (R53): peer table, verdict, match count, evidence, signature and record, and the group
conditions, whose cause the peer table may change (log 33). -/
def Station.handOn (s : Station) : Station :=
  let s := s.peersSection
  let s := s.judgeDigest
  let s := s.judgeMatch
  let s := s.keepEvidence
  let s := s.closeSection
  s.groupConds

/-- A section that hands nothing on: no signature, and no match in JOIN and QUIET (R53, R69, R79; log 29). -/
def Station.handNothing (s : Station) : Station :=
  let restarts := s.member.state = .join || s.member.state = .quiet
  { s with
    bus := { s.bus with ownSig := none }
    member := { s.member with matchCount := if restarts then 0 else s.member.matchCount } }

/-- Every slot was classed. -/
def RoundState.allClassed (r : RoundState) : Bool := allStations.all fun k => (r.slots.get k).isSome

/-- The round hands its results on: recognised, not abandoned, every slot classed (R53; log 29). -/
def RoundState.handsOn (r : RoundState) : Bool := r.recognised && !r.abandoned && r.allClassed

/-- The end of the report section at position 2147. -/
def Station.endSection (s : Station) : Station :=
  let s := if s.bus.round.handsOn then s.handOn else s.handNothing
  { s with bus := { s.bus with round := { s.bus.round with sectionDone := true } } }

/-- The end of the section is to come: of a recognised round, or of an abandoned one, which a markless round is too (R21, R53,
R69). -/
def Station.sectionDue (s : Station) : Bool :=
  takesPart s.member.state && (s.bus.round.recognised || s.bus.round.abandoned) && !s.bus.round.sectionDone

/-- The end of the report section, where it is due. -/
def Station.reportSectionEnd (s : Station) : Station :=
  if s.sectionDue then s.atMoment Config.reportEnd Station.endSection else s

/-! ## Meanings -/

/-- OWN_REPORT_SEND (R17, R18, R40): the own frame, with the bits read while it was sent. -/
def execOwnReportSend (readBack : BitVec 247) (s : State) : Result := s.after fun st => st.ownReport readBack

/-- OWN_SLOT_END (R47, R49, R50, R51, R178). -/
def execOwnSlotEnd (s : State) : Result := s.after Station.ownSlotEnd

/-- CLASH_SILENCE (R50, R75): a clash count of 3 at a driving station moves it to SILENT. -/
def execClashSilence (s : State) : Result := s.after Station.clashSilence

/-- SLOT_END (R51, R55): the slot is classed from its activity and its sampled bits. -/
def execSlotEnd (k : StationNo) (sampled : BitVec 247) (s : State) : Result := s.after fun st => st.slotEnd k sampled

/-- REPORT_SECTION_END (R53, R56, R57, R69, R85). -/
def execReportSectionEnd (s : State) : Result := s.after Station.reportSectionEnd

end Sys2Proof.Machine
end

