-- ==== Sys2Proof/Machine/RoundTimer.lean ====
section
/-! DEFINITION. The round timer, the sync mark, cold start, the stuck-bus monitor (chapter 2), and the meanings of the rows of
the round timer and of JOIN_ENTRY, BUS_LOSS, SILENT_HOLD_END and CONDITION_EXPIRY. -/

namespace Sys2Proof.Machine

/-! ## Round starts (R6, R8, R22, R175) -/

/-- The round-start notification of a driving station, when a round has ended (R22, R74; log 10): at the drive start of its own
mark, or at the confirmation of another station's. -/
def Station.notifyRound (s : Station) : Station :=
  if isDriving s.member.state && decide (s.bus.round.opening ≠ .noRound) then
    let periods := if s.bus.round.wellFormed then 0 else succSat Config.lossPeriods s.member.lossPeriods
    { s with member := { s.member with lossPeriods := periods } }
  else s

/-- What the consumers of an abandoned round were not told by its end is done there, before the next round starts: a sender may have
left out TALLY_HANDOVER, OWN_SLOT_END or REPORT_SECTION_END (R21, R36, R60; DESIGN CHOICE, log 58). -/
def Station.closeAbandoned (s : Station) : Station :=
  if s.bus.round.abandoned then
    let s := if s.bus.round.tallyCut then { s with bus := s.bus.tellTally } else s
    let s := if s.bus.round.sectionDone then s else s.handNothing
    { s with bus := s.bus.cutFrame }
  else s

/-- The expiry counts at a round start (R175). -/
def Station.ageConditions (s : Station) : Station := { s with cond := expireConds (ageConds s.cond) }

/-- An own mark is being driven and not confirmed yet (R8). -/
def BusUnit.markPending (b : BusUnit) : Bool :=
  match b.mark with
  | some m => !m.confirmed
  | none => false

/-- How the mark that is confirmed now opens its round (R6): in-window for the own mark, and for one whose edge fell inside the
window of a station that is SYNCHRONISED still; acquired for a station that is SEARCHING (R9; log 11). -/
def BusUnit.markOpening (b : BusUnit) : Opening :=
  if b.markPending || (b.sync = .synchronised && b.candidate.any (·.inWindow)) then .inWindow else .acquired

/-- The timer at a confirmed mark (R6), the signature cleared (R54), the stuck-bus count at 0 (R20), and TXD long released by a
mark that was cut (R74). -/
def BusUnit.openRound (b : BusUnit) : BusUnit :=
  { b with
    position := Config.confirmTime, sync := .synchronised, roundNumber := b.roundNumber + 1, candidate := none
    mark := if b.markPending then b.mark.map fun m => { m with age := Config.confirmTime, confirmed := true } else none
    cutBit := false, round := RoundState.fresh b.markOpening, signature := 0, stuckCount := 0, stuckNext := 0 }

/-- The good-round count of LISTEN at a recognised mark (R63). -/
def Station.countGoodRound (s : Station) : Station :=
  if s.member.state = .listen then
    let count := if s.bus.round.opening = .inWindow then succSat Config.goodRounds s.member.goodRounds else 0
    { s with member := { s.member with goodRounds := count } }
  else s

/-- A mark is confirmed (R6, R22, R63, R74, R103, R175). The own mark was notified at its drive start (log 10). The sync event's
work comes before a bus loss of the same mark (DESIGN CHOICE, log 47). -/
def Station.confirmMark (s : Station) : Station :=
  let s := if s.bus.markPending then s else s.notifyRound
  let s := s.closeAbandoned
  let s := { s with bus := s.bus.openRound }
  let s := s.ageConditions
  let s := s.countGoodRound
  let s := s.syncEvent
  let s := s.busLoss
  s.joinEntry

/-- A candidate is open, and its fourth bit time has not passed (R5). -/
def BusUnit.candidateOpen (b : BusUnit) : Bool := b.candidate.any fun c => decide (c.age ≤ Config.confirmTime)

/-- An own mark is driven, and its fourth bit time has not passed without a confirmation (R8). -/
def BusUnit.markOpen (b : BusUnit) : Bool := b.mark.any fun m => !m.confirmed && decide (m.age ≤ Config.confirmTime)

/-- A mark may be confirmed: a candidate is open, or an own mark is driven, and the fourth bit time has not passed (R5, R8;
log 51). -/
def Station.markDue (s : Station) : Bool := timerRuns s.member.state && (s.bus.candidateOpen || s.bus.markOpen)

/-- The bit times from now to the confirmation: to the fourth bit time from the edge of the mark (R5, R8). -/
def BusUnit.toConfirmation (b : BusUnit) : Nat :=
  match b.markPending, b.mark, b.candidate with
  | true, some m, _ => Config.confirmTime - m.age
  | _, _, some c => Config.confirmTime - c.age
  | _, _, none => 0

/-- The confirmation at the fourth bit time from the edge, where there is a mark to confirm. The bit times until then pass first: a
following station that they carry past position 2520 loses the marks before its candidate is confirmed (R9; log 2, log 11). -/
def Station.syncMark (s : Station) : Station :=
  if s.markDue then (s.reach (s.bus.position + s.bus.toConfirmation)).confirmMark else s

/-! ## The own mark (R7, R8) -/

/-- The station begins to drive its mark at the present position. -/
def BusUnit.driveMark (b : BusUnit) : BusUnit := { b with mark := some { age := 0, confirmed := false, faulted := false } }

/-- A driving station owes a mark: no candidate open, none being driven (R7). -/
def Station.ownMarkDue (s : Station) : Bool :=
  isDriving s.member.state && s.bus.candidate.isNone && !s.bus.markPending

/-- The drive start of a mark that brings a bus loss: the mark is cut after its first bit time (R74), so it is the markless drive
of R175, whose decrement comes before BUS_LOSS (log 10). -/
def Station.loseBusAtDrive (s : Station) : Station := if s.busLossDue then s.ageConditions.busLoss else s

/-- A driving station begins its mark: the round that ended is told, and the fourth period without a well-formed one loses the bus
at this drive start (R7, R22, R74; log 10). -/
def Station.startMark (s : Station) : Station :=
  let s := s.notifyRound
  ({ s with bus := s.bus.driveMark } : Station).loseBusAtDrive

/-- The own mark at position 2500, or at once when a candidate held it back (R7). -/
def Station.ownMark (s : Station) : Station :=
  let t := s.reach Config.roundLength
  if t.ownMarkDue then t.startMark else s

/-- The round of a mark that is not confirmed (R8): position counted from the own drive start, nothing opened. The mark is released
at once, since an abandoned round drives nothing (R21; DEDUCED, log 44). -/
def BusUnit.openMarkless (b : BusUnit) (position : Nat) : BusUnit :=
  { b with
    position := position, candidate := none, mark := none, round := RoundState.fresh .markless, stuckCount := 0,
    stuckNext := 0 }

/-- A markless round starts: it is abandoned, BUS_FAULT source 0 is raised after the round start's decrement (R8, R21, R175). The
round before it was notified at the drive start (R22; log 10). -/
def Station.startMarkless (s : Station) (position : Nat) : Station :=
  let s := s.closeAbandoned
  let s := { s with bus := s.bus.openMarkless position }
  let s := s.abandonRound position
  let s := s.ageConditions
  s.raise .busFault 0

/-- A confirmed own mark reads recessive at a later sample point: BUS_FAULT, once for a mark (R8). -/
def Station.faultMark (s : Station) : Station :=
  match s.bus.mark with
  | some m =>
    if m.faulted then s
    else ({ s with bus := { s.bus with mark := some { m with faulted := true } } } : Station).raise .busFault 0
  | none => s

/-- Sample point `sample` of a mark not confirmed yet reads recessive: the round is markless (R8). The bit times until that sample
point pass first, and one that has passed leaves the station as it is (log 2). -/
def Station.markMissed (s : Station) (m : MarkDrive) (sample : Nat) : Station :=
  if m.age ≤ sample then (s.reach (s.bus.position + (sample - m.age))).startMarkless sample else s

/-- Sample point `sample` of the own mark reads recessive (R8): before confirmation the round is markless, after it BUS_FAULT is
raised. -/
def Station.markNotReadBack (s : Station) (sample : Nat) : Station :=
  match s.bus.mark with
  | some m => if m.confirmed then s.atMoment sample Station.faultMark else s.markMissed m sample
  | none => s

/-- The own mark that no command confirmed by its fourth bit time: its round is markless (R8; log 51). -/
def Station.overdueMark (s : Station) : Station :=
  match s.bus.mark with
  | some m =>
    if isDriving s.member.state && !m.confirmed && decide (Config.confirmTime < m.age) then s.startMarkless m.age else s
  | none => s

/-! ## Cold start (R10) -/

/-- The cold-start threshold of a station number. -/
def coldStartAt (k : StationNo) : Nat := Config.coldStartBase + Config.coldStartStep * k.val

/-- A station in LISTEN may take the cold-start timeout: allowance left, no candidate open (R10, R64). -/
def Station.coldStartDue (s : Station) : Bool :=
  s.member.state = .listen && !s.allowanceSpent && s.bus.candidate.isNone

/-- The cold-start timeout: entry to JOIN, and the own mark at once (R10). No round has ended in JOIN yet (log 10). -/
def Station.coldStart (s : Station) : Station :=
  let t := s.reach (coldStartAt s.number)
  if t.coldStartDue then
    let t := t.enterJoin
    { t with bus := t.bus.driveMark }
  else s

/-! ## Losing the marks (R9, R60) -/

/-- First position past the sync window. -/
def expiryPosition : Nat := Config.windowLast + 1

/-- A SYNCHRONISED following station passes position 2520 without a mark (R9, R63). -/
def Station.windowExpiry (s : Station) : Station :=
  if isFollowing s.member.state && s.bus.sync = .synchronised then s.reach expiryPosition else s

/-! ## Edges and candidates (R5, R19) -/

/-- An edge at this position opens a candidate (R5; log 11). -/
def BusUnit.opensCandidate (b : BusUnit) (position : Nat) : Bool :=
  b.candidate.isNone && !b.markPending &&
    (b.sync = .searching || (decide (Config.windowFirst ≤ position) && decide (position ≤ Config.windowLast)))

/-- The edge lies where reception looks for the start of slot `k` (R19). -/
def inStartSpan (position : Nat) (k : StationNo) : Bool :=
  decide (slotStart k ≤ position) && decide (position < slotStart k + Config.startEdgeSpan)

/-- The activity of the slots after an edge (R19). -/
def Station.markActivity (s : Station) (position : Nat) : Eight Bool :=
  if takesPart s.member.state && s.bus.round.recognised then
    Eight.ofFn fun k => s.bus.round.activity.get k || inStartSpan position k
  else s.bus.round.activity

/-- A recessive-to-dominant edge at a position (R5, R19). -/
def Station.takeEdge (s : Station) (position : Nat) : Station :=
  { s with
    bus :=
      { s.bus with
        candidate :=
          if s.bus.opensCandidate position then
            some { age := 0, inWindow := decide (s.bus.sync = .synchronised) }
          else s.bus.candidate
        round := { s.bus.round with activity := s.markActivity position } } }

/-- The edge, in the states in which the timer runs. -/
def Station.edge (s : Station) (position : Nat) : Station :=
  if timerRuns s.member.state then s.atMoment position fun s => s.takeEdge position else s

/-- What a dropped candidate held back starts at the next bit time: an own mark or a cold start (R7, R10). -/
def Station.releaseHeldBack (s : Station) (position : Nat) : Station :=
  let t := s.reach (position + 1)
  if decide (Config.roundLength ≤ position) && t.ownMarkDue then t.ownMark
  else if decide (coldStartAt s.number ≤ position) && t.coldStartDue then t.coldStart
  else s

/-- The candidate is dropped at a sample point that reads recessive, up to its fourth bit time (R5). -/
def Station.dropCandidate (s : Station) (position : Nat) : Station :=
  if timerRuns s.member.state && (s.reach position).bus.candidate.isSome then
    s.atMoment position fun s =>
      ({ s with bus := { s.bus with candidate := none } } : Station).releaseHeldBack position
  else s

/-! ## The stuck-bus monitor (R20) -/

/-- The position lies in the first 247 positions of a report slot. -/
def inFrame (position : Nat) : Bool :=
  decide (Config.slotBase ≤ position) && decide (position ≤ Config.reportEnd)
    && decide ((position - Config.slotBase) % Config.slotLength < Config.frameLength)

/-- A counted position (R20). A dominant sample point of a mark not confirmed yet, at position 2500 or later, counts for the round
it ends (DEDUCED, log 45). -/
def isCounted (recognised : Bool) (position : Nat) : Bool :=
  !(recognised && decide (position < Config.markLength))
    && !(decide (Config.signatureStart ≤ position) && decide (position ≤ Config.tallyEnd))
    && !inFrame position

/-- The source of STUCK_BUS at a position (R20): 0 up to 79, 1 in the report section, 2 in the quiet span. Table 2-2 ends the quiet
span at 2499, and R20 gives no source past it (2500 to 2503 at a driving station, up to 2520 in QUIET): source 2 there too (DESIGN
CHOICE, log 53). -/
def stuckSource (position : Nat) : Nat :=
  if position ≤ Config.tallyEnd then 0 else if position ≤ Config.reportEnd then 1 else 2

/-- A stuck bus is detected at a position: the condition, and the round abandoned (R20, R21). -/
def Station.detectStuck (s : Station) (position : Nat) : Station :=
  let s := s.raise .stuckBus (stuckSource position)
  if s.bus.round.abandoned then s else s.abandonRound position

/-- One dominant sample point of a span (R20). -/
def Station.countStuck (s : Station) (position : Nat) : Station :=
  if isCounted s.bus.round.recognised position then
    let count := s.bus.stuckCount + 1
    if Config.stuckLimit ≤ count then
      ({ s with bus := { s.bus with stuckCount := 0 } } : Station).detectStuck position
    else { s with bus := { s.bus with stuckCount := count } }
  else s

/-- `n` dominant sample points from a position on. -/
def Station.countSpan (s : Station) (position : Nat) : Nat → Station
  | 0 => s
  | n + 1 => Station.countSpan (s.countStuck position) (position + 1) n

/-- The monitor runs (R20). -/
def Station.monitorsBus (s : Station) : Bool :=
  isDriving s.member.state || (s.member.state = .quiet && s.bus.round.opening = .inWindow)

/-- The count goes on from the span before when this one follows it without a gap (R20; log 24). -/
def BusUnit.beginSpan (b : BusUnit) (first : Nat) : BusUnit :=
  { b with stuckCount := if first = b.stuckNext then b.stuckCount else 0 }

/-- The last position of a span that lies in the round: a round of QUIET ends with its window (R9, R20). -/
def Station.spanEnd (s : Station) (last : Nat) : Nat :=
  if isDriving s.member.state then last else min last Config.windowLast

/-- A dominant span from `first` to `last`: its bit times pass, the pins read in the first of them. -/
def Station.stuckSpan (s : Station) (first last : Nat) : Station :=
  if s.monitorsBus && decide (first ≤ last) && decide (s.bus.position ≤ last) then
    let t := s.sampleUntil last
    let t := { t with bus := t.bus.beginSpan first }
    let t := t.countSpan first (s.spanEnd last + 1 - first)
    ({ t with bus := { t.bus with stuckNext := last + 1 } } : Station).advance last
  else s

/-! ## The SILENT hold (R76) -/

/-- The rest of the hold passes, and with it its sample points (R72, R161). -/
def Station.passHold (s : Station) : Station :=
  if s.member.silentHold < Config.silentHoldTime then s.samplePins else s

/-- The hold of 64 round periods ends: entry to LISTEN (R76, R77; log 2). -/
def Station.silentHoldEnd (s : Station) : Station :=
  if s.member.state = .silent then s.passHold.enterListen else s

/-! ## Meanings -/

/-- SYNC_MARK (R6): the confirmation of a candidate or of the own mark. -/
def execSyncMark (s : State) : Result := s.after Station.syncMark

/-- OWN_SYNC_MARK_DRIVE (R7). -/
def execOwnSyncMarkDrive (s : State) : Result := s.after Station.ownMark

/-- MARK_NOT_READ_BACK (R8). -/
def execMarkNotReadBack (sample : Fin 8) (s : State) : Result := s.after fun st => st.markNotReadBack sample.val

/-- SYNC_WINDOW_EXPIRY (R9). -/
def execSyncWindowExpiry (s : State) : Result := s.after Station.windowExpiry

/-- COLD_START_TIMEOUT (R10). -/
def execColdStartTimeout (s : State) : Result := s.after Station.coldStart

/-- JOIN_ENTRY (R63 to R65): eight in-window marks in LISTEN with the allowance left. -/
def execJoinEntry (s : State) : Result := s.after Station.joinEntry

/-- STUCK_BUS (R20, R21): a span that reads dominant at every sample point. -/
def execStuckBus (first last : Nat) (s : State) : Result := s.after fun st => st.stuckSpan first last

/-- BUS_LOSS (R74): a loss period count of 4 returns a driving station to LISTEN. -/
def execBusLoss (s : State) : Result := s.after Station.busLoss

/-- SILENT_HOLD_END (R76, R77). -/
def execSilentHoldEnd (s : State) : Result := s.after Station.silentHoldEnd

/-- CONDITION_EXPIRY (R175): events whose expiry count is 0 leave the table. -/
def execConditionExpiry (s : State) : Result := s.after fun st => { st with cond := expireConds st.cond }

/-- RECESSIVE_TO_DOMINANT_EDGE (R5, R19). -/
def execRecessiveToDominantEdge (position : Nat) (s : State) : Result := s.after fun st => st.edge position

/-- CANDIDATE_MARK_DROPPED (R5, R7, R10). -/
def execCandidateMarkDropped (position : Nat) (s : State) : Result := s.after fun st => st.dropCandidate position

end Sys2Proof.Machine
end

