-- ==== Sys2Proof/Machine/Loader.lean ====
section
/-! DEFINITION. The Configuration Loader (chapter 12), and the meanings of RESET, RESET_RELEASE, SVC_FALLING_EDGE,
IMAGE_READ_DONE and LOAD_END. -/

namespace Sys2Proof.Machine

/-! ## The read (R185) -/

/-- The first `n` bytes that SDI gives: the memory's, then the level at which SDI stands (R185; log 27). -/
def bytesRead (memory : List Byte) (idleHigh : Bool) (n : Nat) : List Byte :=
  (memory ++ List.replicate n (if idleHigh then 0xFF#8 else 0x00#8)).take n

/-- The bytes clocked in: the header, and the rest of the image when its length is in range (R185 steps 4 and 5). -/
def imageRead (memory : List Byte) (idleHigh : Bool) : List Byte :=
  let header := bytesRead memory idleHigh 8
  if lengthFits header then bytesRead memory idleHigh (imageLength header) else header

/-- The read command and the address (R185 step 3). -/
def readCommand : List Byte := [0x03#8, 0x00#8, 0x00#8, 0x00#8]

/-- Release of reset: SVC count 0, straps latched, CS low, command sent, bytes clocked in (R185, R187). -/
def Loader.release (straps : BitVec 3) (memory : List Byte) (idleHigh : Bool) : Loader :=
  { Loader.reset with
    released := true, straps := straps.toFin, reading := true, csHigh := false, sdoSent := readCommand,
    buffer := imageRead memory idleHigh }

/-- The release, while reset holds the part in LOAD. -/
def Station.release (s : Station) (straps : BitVec 3) (memory : List Byte) (idleHigh : Bool) : Station :=
  if s.member.state = .load && !s.loader.released then { s with loader := Loader.release straps memory idleHigh } else s

/-! ## SVC (R187) -/

/-- A falling edge counts from release until 50 ms after it. -/
def Station.svcEdge (s : Station) (us : Nat) : Station :=
  if s.member.state = .load && s.loader.released && decide (us ≤ Config.svcWindowUs) then
    { s with loader := { s.loader with svcCount := succSat 255 s.loader.svcCount } }
  else s

/-! ## The checks (R188, R189) -/

/-- The end of the read: CS high, verdict and digest formed. -/
def Loader.check (l : Loader) : Loader :=
  { l with
    reading := false, csHigh := true, verdict := some (checkImage l.buffer l.straps).isSome
    digest := if lengthFits l.buffer then sharedDigest l.buffer else l.digest }

/-- The checks, at the end of a read. -/
def Station.imageReadDone (s : Station) : Station :=
  if s.member.state = .load && s.loader.reading then { s with loader := s.loader.check } else s

/-! ## Putting the image into effect (R101, R105, R186, R187, R192) -/

/-- The run list: every mapped channel in ascending number (R101); the calibration list holds the same entries. -/
def scanListOf (own : StationSection) : List ScanEntry :=
  (allStations.filter fun c => decide ((own.channels.get c).quantity ≠ .none)).map fun c => { channel := c, swapped := false }

/-- The speed of an input after reset (Table 7-2). -/
def firstSpeed (cfg : PulseConfig) : Option Nat := if cfg.mapped then some 0 else none

/-- A set of results after reset (Table 7-2). -/
def firstSet (own : StationSection) : MeasSet :=
  let speed0 := firstSpeed own.ps0
  let speed1 := firstSpeed own.ps1
  { MeasSet.reset with speed0 := speed0, speed1 := speed1, ownSpeed := ownSpeedOf speed0 speed1 }

/-- The Measurement Unit as the image seeds it (Table 12-5). The working set holds what Table 7-2 gives for the latest set and the
snapshot (DESIGN CHOICE, log 6). -/
def measurementOf (own : StationSection) : MeasurementUnit :=
  let list := scanListOf own
  { MeasurementUnit.reset with
    lists := { runActive := list, runShadow := list, calActive := list, calShadow := list, selected := .run }
    working := firstSet own, latest := firstSet own, snapshot := firstSet own
    offsets := Eight.ofFn fun c => (own.channels.get c).offset
    ps0 := PulseCounter.cleared own.ps0.window, ps1 := PulseCounter.cleared own.ps1.window }

/-- The peer table as the image seeds it (R80, Table 12-5). -/
def peersOf (own : StationNo) (p : Params) : Eight PeerRecord :=
  Eight.ofFn fun k =>
    if k = own then { PeerRecord.reset p.role with state := .self } else PeerRecord.reset (p.shared.roster.get k)

/-- The state at the end of a good LOAD, by the start option (R61, R187). -/
def stateAfterLoad (quiet : Bool) : StationState := if quiet then .quiet else .listen

/-- The start option of the SVC count, at the end of LOAD whatever the verdict (R187). -/
def Loader.selectOption (l : Loader) : Loader := { l with quietOption := decide (l.svcCount = 3) }

/-- A good image in effect (R192). -/
def Station.putIntoEffect (s : Station) (p : Params) : Station :=
  let loader := s.loader.selectOption
  { Station.reset with
    pins := s.pins
    loader := loader
    params := p
    member := { MembershipUnit.reset with state := stateAfterLoad loader.quietOption }
    peers := peersOf s.loader.straps p
    meas := measurementOf p.own }

/-- SVC_COUNT for a count that selects no option (R187). -/
def Station.tellSvc (s : Station) : Station :=
  if s.loader.svcCount = 0 ∨ s.loader.svcCount = 3 then s else s.raise .svcCount (min 15 s.loader.svcCount)

/-- The end of LOAD: the image in effect, or CONFIG_FAULT with nothing in effect (R61, R186). The pins are sampled from the next
bit time on (log 7). -/
def Station.endLoad (s : Station) : Station :=
  match checkImage s.loader.buffer s.loader.straps with
  | some p => (s.putIntoEffect p).tellSvc
  | none =>
    { Station.reset with
      pins := s.pins, loader := s.loader.selectOption, member := { MembershipUnit.reset with state := .configFault } }

/-- The end of LOAD, once the checks are complete (R186). -/
def Station.loadEnd (s : Station) : Station :=
  if s.member.state = .load && s.loader.verdict.isSome then s.endLoad else s

/-! ## Meanings -/

/-- RESET (R61): LOAD from any state; the levels of the input pins are outside the part (log 7). -/
def execReset (s : State) : Result := s.after fun st => { Station.reset with pins := st.pins }

/-- RESET_RELEASE (R185, R187). -/
def execResetRelease (straps : BitVec 3) (memory : List (BitVec 8)) (idleHigh : Bool) (s : State) : Result :=
  s.after fun st => st.release straps memory idleHigh

/-- SVC_FALLING_EDGE (R187). -/
def execSvcFallingEdge (us : Nat) (s : State) : Result := s.after fun st => st.svcEdge us

/-- IMAGE_READ_DONE (R185 step 6, R188, R189). -/
def execImageReadDone (s : State) : Result := s.after Station.imageReadDone

/-- LOAD_END (R61, R186, R187, R192). -/
def execLoadEnd (s : State) : Result := s.after Station.loadEnd

end Sys2Proof.Machine
end

