-- ==== Sys2Proof/Machine/Clock.lean ====
section
/-! DEFINITION. One bit time with no command waiting (log 1): the pins are sampled, the counters of bit times go on, and what
the clock alone makes due is taken. -/

namespace Sys2Proof.Machine

/-- A bit that was cut is released (R3). -/
def BusUnit.releaseBit (b : BusUnit) : BusUnit := { b with cutBit := false }

/-- The round timer goes on by one bit time (R4, R5, R9). Where it does not run the bit time passes all the same: a station that has
fallen silent releases TXD (R3, R75). -/
def Station.tickPosition (s : Station) : Station :=
  if timerRuns s.member.state then s.advance (s.bus.position + 1) else { s with bus := s.bus.releaseBit }

/-- The SILENT hold goes on by one bit time (R76). -/
def Station.tickHold (s : Station) : Station :=
  if s.member.state = .silent then
    { s with member := { s.member with silentHold := succSat Config.silentHoldTime s.member.silentHold } }
  else s

/-- The converter goes on by one bit time; its value comes with CONVERSION_END (R102). -/
def Station.tickScan (s : Station) : Station :=
  { s with
    meas :=
      { s.meas with scan := s.meas.scan.map fun r => { r with elapsed := succSat Config.conversionTime r.elapsed } } }

/-- What falls due at this position (R7, R8, R10, R23, R76, R120). -/
def Station.takeDue (s : Station) : Station :=
  let s := s.overdueMark
  let s := if s.bus.position = Config.tallyStart then s.takeImage else s
  let s := if s.bus.position = s.params.own.applyAt then s.applyPoint s.pins.parkReq else s
  let s := if Config.roundLength ≤ s.bus.position then s.ownMark else s
  let s := if coldStartAt s.number ≤ s.bus.position then s.coldStart else s
  if Config.silentHoldTime ≤ s.member.silentHold then s.silentHoldEnd else s

/-- One bit time. -/
def Station.tick (s : Station) : Station := s.samplePins.tickPosition.tickHold.tickScan.takeDue

end Sys2Proof.Machine
end

