-- ==== Sys2Proof/Machine/Dispatch.lean ====
section
/-! DEFINITION. Which meaning each command has. -/

namespace Sys2Proof.Machine

/-- The effect of a command on everything but the queue. -/
def exec (i : Instr) (s : State) : Host.Outcome State Fault Refusal :=
  match i with
  | .reset => Sys2Proof.Machine.execReset s
  | .resetRelease straps memory idleHigh => Sys2Proof.Machine.execResetRelease straps memory idleHigh s
  | .svcFallingEdge us => Sys2Proof.Machine.execSvcFallingEdge us s
  | .imageReadDone => Sys2Proof.Machine.execImageReadDone s
  | .loadEnd => Sys2Proof.Machine.execLoadEnd s
  | .syncMark => Sys2Proof.Machine.execSyncMark s
  | .ownSyncMarkDrive => Sys2Proof.Machine.execOwnSyncMarkDrive s
  | .markNotReadBack sample => Sys2Proof.Machine.execMarkNotReadBack sample s
  | .syncWindowExpiry => Sys2Proof.Machine.execSyncWindowExpiry s
  | .coldStartTimeout => Sys2Proof.Machine.execColdStartTimeout s
  | .joinEntry => Sys2Proof.Machine.execJoinEntry s
  | .tallyImage => Sys2Proof.Machine.execTallyImage s
  | .tallyHandover wire => Sys2Proof.Machine.execTallyHandover wire s
  | .answerTimeout => Sys2Proof.Machine.execAnswerTimeout s
  | .prepareTimeout => Sys2Proof.Machine.execPrepareTimeout s
  | .splitView => Sys2Proof.Machine.execSplitView s
  | .peerLost k => Sys2Proof.Machine.execPeerLost k s
  | .ownReportSend readBack => Sys2Proof.Machine.execOwnReportSend readBack s
  | .ownSlotEnd => Sys2Proof.Machine.execOwnSlotEnd s
  | .clashSilence => Sys2Proof.Machine.execClashSilence s
  | .slotEnd k sampled => Sys2Proof.Machine.execSlotEnd k sampled s
  | .reportSectionEnd => Sys2Proof.Machine.execReportSectionEnd s
  | .suspectRecovery k => Sys2Proof.Machine.execSuspectRecovery k s
  | .stuckBus first last => Sys2Proof.Machine.execStuckBus first last s
  | .applyPoint parkReq => Sys2Proof.Machine.execApplyPoint parkReq s
  | .settleTimeout => Sys2Proof.Machine.execSettleTimeout s
  | .demandLost => Sys2Proof.Machine.execDemandLost s
  | .lockRampEnd => Sys2Proof.Machine.execLockRampEnd s
  | .releaseHoldEnd => Sys2Proof.Machine.execReleaseHoldEnd s
  | .conversionEnd raw => Sys2Proof.Machine.execConversionEnd raw s
  | .scanEnd => Sys2Proof.Machine.execScanEnd s
  | .calWaitTimeout => Sys2Proof.Machine.execCalWaitTimeout s
  | .pulseEdge ps1 => Sys2Proof.Machine.execPulseEdge ps1 s
  | .disableAsserted seen => Sys2Proof.Machine.execDisableAsserted seen s
  | .disableReleased seen => Sys2Proof.Machine.execDisableReleased seen s
  | .drvFltAsserted seen => Sys2Proof.Machine.execDrvFltAsserted seen s
  | .drvFltReleased seen => Sys2Proof.Machine.execDrvFltReleased seen s
  | .busLoss => Sys2Proof.Machine.execBusLoss s
  | .silentHoldEnd => Sys2Proof.Machine.execSilentHoldEnd s
  | .conditionExpiry => Sys2Proof.Machine.execConditionExpiry s
  | .recessiveToDominantEdge position => Sys2Proof.Machine.execRecessiveToDominantEdge position s
  | .candidateMarkDropped position => Sys2Proof.Machine.execCandidateMarkDropped position s

end Sys2Proof.Machine
end

