-- ==== Sys2Proof/Machine/Step.lean ====
section
/-! DEFINITION. One step: the command at the front of the queue, or one bit time when none waits (log 1). -/

namespace Sys2Proof.Machine

/-- Take the oldest command and run it on the state with the rest of the queue; with no command waiting, one bit time
passes. -/
def step (s : State) : Host.Outcome State Fault Refusal :=
  match s.pending with
  | [] => .next { s with station := s.station.tick }
  | c :: rest => exec c { s with pending := rest }

/-- The state with the command of a table word at the front of its queue; no word spells one (log 5). -/
def State.withFetchWord (s : State) (nbits w : Nat) : State :=
  match Sys2Proof.decodeTableWord nbits w with
  | some c => { s with pending := c :: s.pending }
  | none => s

end Sys2Proof.Machine
end

