-- ==== Sys2Proof/Safety.lean ====
section
/-! DEFINITION. What every reachable state of the station satisfies, one predicate for each kind of state. Each is decidable, so
that a state can be checked against it. -/

namespace Sys2Proof.Machine

/-! ## Conditions (R172 to R177) -/

/-- The keys of some entries. -/
def keysOf (entries : List CondEntry) : List CondKey := entries.map (·.key)

/-- An event has an expiry count of 1..250, a state condition has none (R172). -/
def expiryFits (e : CondEntry) : Prop :=
  if condIsEvent e.key.code then ∃ n ∈ List.range' 1 Config.expiryRounds, e.expiry = some n else e.expiry = none

/-- The table and the displaced conditions: at most 16 entries, no key twice, only state conditions displaced, and no displaced
condition of a higher level than an entry, so that the table never hides one (R172, R174). -/
def ConditionUnit.tableSound (c : ConditionUnit) : Prop :=
  c.table.length ≤ Config.tableSize
    ∧ (keysOf (c.table ++ c.displaced)).Nodup
    ∧ (∀ e ∈ c.table ++ c.displaced, expiryFits e)
    ∧ (∀ d ∈ c.displaced, condIsEvent d.key.code = false)
    ∧ (c.displaced ≠ [] → c.table.length = Config.tableSize)
    ∧ (∀ d ∈ c.displaced, ∀ e ∈ c.table, d.level ≤ e.level)

/-- The queue: at most 8 records, no key twice, every count 1..15 (R177). -/
def ConditionUnit.queueSound (c : ConditionUnit) : Prop :=
  c.queue.length ≤ Config.queueSize
    ∧ (c.queue.map (·.key)).Nodup
    ∧ (∀ r ∈ c.queue, 1 ≤ r.count ∧ r.count ≤ Config.queueCountMax)

/-- The Condition Unit is sound. -/
def ConditionUnit.sound (c : ConditionUnit) : Prop := c.tableSound ∧ c.queueSound

/-! ## Authority (R142, R143, R147, R151 to R154) -/

/-- The stations of some holders. -/
def holderStations (holders : List Holder) : List StationNo := holders.map (·.station)

/-- The shares of some holders, added up. -/
def shareSum (holders : List Holder) : Nat := (holders.map (·.share)).sum

/-- A TILT transaction fits its group: room beside the holders before RAMP, the giver and the claimant in it. -/
def tiltStageSound (holders : List Holder) (t : Transaction) : Prop :=
  match t.stage with
  | .answer | .prepare => holders.length ≤ 1 ∧ t.claimant ∉ holderStations holders
  | .ramp => ∃ giver : StationNo,
      holderStations holders = [giver, t.claimant] ∧ t.saved = some [{ station := giver, share := 1000 }]

/-- The other of the two groups. -/
def Group.other : Group → Group
  | .tilt => .steer
  | .steer => .tilt

/-- TILT: at most two holders, different stations, whose shares sum to 1000 when there is one (R142). -/
def tiltSound (r : GroupRecord) : Prop :=
  r.holders.length ≤ 2
    ∧ (holderStations r.holders).Nodup
    ∧ (r.holders ≠ [] → shareSum r.holders = 1000)
    ∧ (∀ t ∈ r.transaction, tiltStageSound r.holders t)

/-- A STEER transaction fits its group: no holder before RAMP, the claimant alone in it. -/
def steerStageSound (holders : List Holder) (t : Transaction) : Prop :=
  match t.stage with
  | .answer | .prepare => holders = []
  | .ramp => holderStations holders = [t.claimant] ∧ t.saved = some []

/-- STEER: at most one holder, with the whole share outside a transaction (R142). -/
def steerSound (r : GroupRecord) : Prop :=
  r.holders.length ≤ 1
    ∧ (r.transaction = none → ∀ h ∈ r.holders, h.share = 1000)
    ∧ (∀ t ∈ r.transaction, steerStageSound r.holders t)

/-- An adoption entry shows no more holders than its groups have (R58). -/
def AdoptionEntry.sound (a : AdoptionEntry) : Prop := setSize a.tiltHolders ≤ 2 ∧ setSize a.steerHolders ≤ 1

/-- The authority table and the entry it may take are sound; a table at rest is cleared (R143). -/
def Station.authoritySound (s : Station) : Prop :=
  tiltSound s.auth.tilt ∧ steerSound s.auth.steer
    ∧ (s.auth.live = false → s.auth = Authority.atRest)
    ∧ (∀ r ∈ s.bus.pendingRecord, ∀ a ∈ r.adoption, a.sound)

/-- TILT_SOLE is held with exactly one TILT holder, TILT_VACANT with none while a tilt-role station is a member (the own one in
MEMBER or HALTED, or a usable peer), STEER_VACANT with no STEER holder (R158). -/
def Station.groupCondsStand (s : Station) : Prop :=
  let tiltMember : Prop :=
    ((s.member.state = .member ∨ s.member.state = .halted) ∧ isTiltRole s.params.role = true)
      ∨ ∃ k : StationNo, k ≠ s.number ∧ s.usable k = true ∧ isTiltRole (s.roleOf k) = true
  (isHeld s.cond { code := .tiltSole, source := 0 } = true ↔ s.auth.tilt.holders.length = 1)
    ∧ (isHeld s.cond { code := .tiltVacant, source := 0 } = true ↔ s.auth.tilt.holders = [] ∧ tiltMember)
    ∧ (isHeld s.cond { code := .steerVacant, source := 0 } = true ↔ s.auth.steer.holders = [])

/-! ## Drive (R160 to R162, R166, R169, R170) -/

/-- An effort output within EFFORT_MAX that PWM and the report show, counts within their ranges, OFF outside MEMBER with
nothing driven, and LREL asked for only where R169 lets it be. -/
def Station.driveSound (s : Station) : Prop :=
  s.drive.effort.natAbs ≤ s.params.own.effortMax
    ∧ s.drive.applied = s.drive.effort ∧ s.drive.pwm = s.drive.effort.natAbs
    ∧ s.drive.lockRamp ≤ s.params.shared.lockRamp ∧ s.drive.release ≤ s.params.shared.releaseHold
    ∧ (s.drive.output = .off → s.drive.effort = 0 ∧ s.drive.lockRamp = 0 ∧ s.drive.release = 0)
    ∧ (s.drive.output ≠ .off → s.member.state = .member ∧ isDriveRole s.params.role = true)
    ∧ (s.drive.lrel = true → s.drive.output = .active ∧ isTiltRole s.params.role = true ∧ s.bus.held.mode ≠ .lock)

/-! ## Timer, tally and membership counts -/

/-- The Bus Unit's counts within their ranges, and no candidate open past its fourth bit time (R4, R5, R20, R31, R32, R50). -/
def BusUnit.countsSound (b : BusUnit) : Prop :=
  b.position ≤ Config.positionMax ∧ b.stuckCount < Config.stuckLimit ∧ b.clashCount ≤ Config.clashLimit
    ∧ b.held.limit ≤ 360 ∧ b.held.fault ≤ 3 ∧ b.held.joining &&& ~~~b.held.members = 0
    ∧ (∀ c ∈ b.candidate, c.age ≤ Config.confirmTime)

/-- The Membership Unit's counts within their ranges (R63, R64, R67, R69, R74, R76). -/
def MembershipUnit.countsSound (m : MembershipUnit) : Prop :=
  m.goodRounds ≤ Config.goodRounds ∧ m.silencings ≤ 4 ∧ m.losses ≤ 4 ∧ m.joinRounds ≤ 255
    ∧ m.matchCount ≤ Config.matchRounds ∧ m.lossPeriods ≤ Config.lossPeriods ∧ m.silentHold ≤ Config.silentHoldTime

/-- The counts within their ranges, no change of state that they make due left untaken (R50, R63, R74), and nothing to drive at a
station that does not drive the bus, but for the bit time in which it left the states that drive, the first of LISTEN or of SILENT
(R3, R74, R75). -/
def Station.countsSound (s : Station) : Prop :=
  s.bus.countsSound ∧ s.member.countsSound
    ∧ (isDriving s.member.state = true → s.bus.clashCount < Config.clashLimit ∧ s.member.lossPeriods < Config.lossPeriods)
    ∧ (s.member.state = .listen → s.bus.clashCount = 0 ∧ s.joinEntryDue = false)
    ∧ (isDriving s.member.state = false →
        s.bus.mark = none ∧ s.bus.round.image = none ∧ s.bus.round.ownSlot = .notBegun)
    ∧ (s.bus.cutBit = true →
        (s.member.state = .listen ∧ s.bus.position = 0) ∨ (s.member.state = .silent ∧ s.member.silentHold = 0))

/-! ## Peer table (R80 to R82, R97) -/

/-- The counters of a record within the ranges of Table 6-1. -/
def PeerRecord.countsSound (r : PeerRecord) : Prop :=
  r.missed ≤ 15 ∧ r.stale ≤ 15 ∧ r.leanDisagree ≤ 15 ∧ r.speedDisagree ≤ 15 ∧ r.steerDisagree ≤ 15
    ∧ r.recover ≤ Config.recoverLimit ∧ r.absentRounds ≤ Config.absentLimit ∧ r.exclusions ≤ 15

/-- Every record's counters are in range, and from the end of a good LOAD the own record, and no other, is SELF (R80). -/
def Station.peersSound (s : Station) : Prop :=
  (∀ k : StationNo, (s.peers.get k).countsSound)
    ∧ (s.member.state ≠ .load → s.member.state ≠ .configFault →
        ∀ k : StationNo, (s.peers.get k).state = .self ↔ k = s.number)

/-! ## Trajectory Engine (R119, R122, R133, R134, R136, R137) -/

/-- A value within ±360. -/
def leanFits (x : Int) : Prop := -360 ≤ x ∧ x ≤ 360

/-- Setpoint and demands within ±360, an IDLE engine at setpoint 0, counts within their ranges. -/
def Station.engineSound (s : Station) : Prop :=
  leanFits s.engine.run.setpoint ∧ leanFits s.engine.demand ∧ leanFits s.engine.lastDemand
    ∧ (s.engine.run.engine = .idle → s.engine.run.setpoint = 0)
    ∧ s.engine.holdCount ≤ s.params.shared.demandHold + 1 ∧ s.engine.readinessCount ≤ 4
    ∧ s.engine.splitCount ≤ Config.splitLimit
    ∧ (∀ r ∈ s.bus.pendingRecord, ∀ a ∈ r.adoption, leanFits a.demand)

/-! ## The station -/

/-- Everything the predicates above say. -/
def Station.sound (s : Station) : Prop :=
  s.cond.sound ∧ s.authoritySound ∧ s.driveSound ∧ s.countsSound ∧ s.peersSound ∧ s.engineSound

end Sys2Proof.Machine
end

