-- ==== Sys2Proof/Certificates/Slice0/Obligations.lean ====
section
/-! DEFINITION. The statements for the provers. A state is written as its station and its queue; a conclusion that names the whole
next state says at once what the command changes and that it leaves everything else. -/

open Sys2Proof Sys2Proof.Machine

/-! ## The machine -/

/-- O1. A step takes the oldest command and runs it on the state with the rest of the queue (the model's queue, log 1). -/
def Obligations.StepRunsTheFrontCommand : Prop :=
  ∀ (c : Instr) (q : List Instr) (x : Station), step ⟨x, c :: q⟩ = exec c ⟨x, q⟩

/-- O2. With no command waiting one bit time passes (log 1). Where the timer does not run and no SILENT hold ends, the Bus
Unit stands still, but that a bit still driven at the entry to SILENT is released (R3, R75); a QUIET station that is SEARCHING
counts its position on (R4). -/
def Obligations.EmptyQueueStepIsOneBitTime : Prop :=
  ∀ x : Station,
    step ⟨x, []⟩ = .next ⟨x.tick, []⟩
      ∧ (timerRuns x.member.state = false → x.member.silentHold + 1 < 160000 →
          x.tick.bus = { x.bus with cutBit := false })
      ∧ (x.member.state = .quiet → x.bus.sync = .searching → x.tick.bus.position = min 65535 (x.bus.position + 1))

/-- O3. Every command on every state ends in a next state, and leaves the queue. -/
def Obligations.EveryCommandCompletes : Prop :=
  ∀ (c : Instr) (x : Station) (q : List Instr), ∃ y : Station, exec c ⟨x, q⟩ = .next ⟨y, q⟩

/-! ## Reset and LOAD -/

/-- O4. RESET puts every part but the input pins at its reset value (R61; the pins are outside the part, log 7): the station
in LOAD, nothing driven, nothing held, no scan, no transaction. The reset values that the spec does not give are the model's
choice: log 6 (straps 0, the own record ABSENT, the kept proposals, the demand and the readiness among them). -/
def Obligations.ResetEntersLoad : Prop :=
  ∀ (x : Station) (q : List Instr),
    exec .reset ⟨x, q⟩ = .next ⟨{ Station.reset with pins := x.pins }, q⟩
      ∧ Station.reset.member.state = .load ∧ Station.reset.bus.position = 0 ∧ Station.reset.bus.sync = .searching
      ∧ Station.reset.bus.mark = none ∧ Station.reset.bus.round.image = none
      ∧ Station.reset.bus.round.ownSlot = .notBegun ∧ Station.reset.meas.scan = none
      ∧ Station.reset.meas.cal.status = .none ∧ Station.reset.auth.tilt.transaction = none
      ∧ Station.reset.auth.steer.transaction = none ∧ Station.reset.drive.output = .off
      ∧ Station.reset.loader.released = false

/-- O5. The release of reset latches the straps, drives CS low, sends 03 00 00 00 and clocks in the L bytes of the image when
L is within 16..1024, and the 8 header bytes alone otherwise (R185), from a memory that holds them. A falling edge on SVC
counts from release until 50 ms after it, up to 255, and has no effect in a later state (R187). The bound of 50 ms included:
log 30. -/
def Obligations.LoadReadsTheImage : Prop :=
  (∀ (x : Station) (q : List Instr) (straps : BitVec 3) (memory : List (BitVec 8)) (idleHigh : Bool) (bytes : Nat),
    x.member.state = .load → x.loader.released = false → 8 ≤ memory.length →
    bytes = (if 16 ≤ imageLength memory ∧ imageLength memory ≤ 1024 then imageLength memory else 8) →
    bytes ≤ memory.length →
    exec (.resetRelease straps memory idleHigh) ⟨x, q⟩ =
      .next ⟨{ x with
        loader :=
          { Loader.reset with
            released := true, straps := straps.toFin, reading := true, csHigh := false,
            sdoSent := [0x03#8, 0x00#8, 0x00#8, 0x00#8], buffer := memory.take bytes, svcCount := 0 } }, q⟩)
  ∧ ∀ (x : Station) (q : List Instr) (us : Nat),
    (x.member.state = .load → x.loader.released = true → us ≤ 50000 →
      exec (.svcFallingEdge us) ⟨x, q⟩ =
        .next ⟨{ x with loader := { x.loader with svcCount := min 255 (x.loader.svcCount + 1) } }, q⟩)
    ∧ (50000 < us → exec (.svcFallingEdge us) ⟨x, q⟩ = .next ⟨x, q⟩)
    ∧ (x.member.state ≠ .load → exec (.svcFallingEdge us) ⟨x, q⟩ = .next ⟨x, q⟩)

/-- O6. The end of the read drives CS high and forms the verdict and the digest (R185, R188, R189). CRC and digest are the
register of R48 over bytes in ascending order, each its most significant bit first: all ones at first, and for each bit a
shift toward stage 15, then stages 0, 2 and 15 inverted when the bit and stage 15 before it differ; the digest takes the
shared section from its offset through its length, the CRC bytes 0 to L - 3 (R48, R189). An image is good exactly
when it passes the six checks of Table 12-2: the format code, a length in range, a CRC that holds, the latched number, a role
of 1 to 6, and check 6, every parameter of Tables 12-3 and 12-4 in its range at its place of Tables 14-4 to 14-8, with the
structural tests: the shared section of 448 bytes between the station section and the CRC, no quantity on two channels, the
differential flag on STEER_TORQUE and ACT_CURRENT alone, low limits no greater than high ones, first steps no greater than
last ones, a curve that ascends strictly, V_WALK below V_GUIDED, and the header's role in the roster (R188 to R191). The
parameters are then what stands at those places. The limits of a channel mapped to NONE have no range: log 26. -/
def Obligations.ReadEndFormsTheVerdict : Prop :=
  let register : List Byte → BitVec 16 := fun bytes =>
    (bytes.flatMap fun v => (List.range 8).map fun i => v.getLsbD (7 - i)).foldl
      (fun r bit => if bit != r.getLsbD 15 then (r <<< 1) ^^^ 0b1000000000000101#16 else r <<< 1) 0xFFFF#16
  let byteIn : List Byte → Nat → Nat := fun b i => (b.getD i 0).toNat
  let wordIn : List Byte → Nat → Nat := fun b i => byteIn b i * 256 + byteIn b (i + 1)
  (∀ (x : Station) (q : List Instr), x.member.state = .load → x.loader.reading = true →
    exec .imageReadDone ⟨x, q⟩ =
      .next ⟨{ x with
        loader :=
          { x.loader with
            reading := false, csHigh := true
            verdict := some (checkImage x.loader.buffer x.loader.straps).isSome
            digest :=
              if 16 ≤ wordIn x.loader.buffer 1 ∧ wordIn x.loader.buffer 1 ≤ 1024 then
                register ((x.loader.buffer.drop (wordIn x.loader.buffer 4)).take (wordIn x.loader.buffer 6))
              else x.loader.digest } }, q⟩)
  ∧ ∀ (b : List Byte) (k : StationNo),
    let byte := byteIn b
    let word := wordIn b
    let signed : Nat → Int := fun i => if word i < 32768 then word i else (word i : Int) - 65536
    let signedByte : Nat → Int := fun i => if byte i < 128 then byte i else (byte i : Int) - 256
    let o := word 4
    let within : Nat → Nat → Nat → Prop := fun lo hi n => lo ≤ n ∧ n ≤ hi
    let signedWithin : Int → Int → Int → Prop := fun lo hi n => lo ≤ n ∧ n ≤ hi
    let header : Prop :=
      byte 0 = 0x4A ∧ within 16 1024 (word 1)
        ∧ (register (b.take (word 1 - 2))).toNat = word (word 1 - 2)
        ∧ byte 3 / 16 = k.val ∧ within 1 6 (byte 3 % 16)
    let placed : Prop := word 6 = 448 ∧ 124 ≤ o ∧ o + 448 ≤ word 1 - 2
    let quantity : StationNo → Nat := fun c => byte (8 + 11 * c.val) % 16
    let limit : Nat → Int → Prop := fun code n =>
      (code = 1 ∨ code = 2 ∨ code = 8 → signedWithin (-360) 360 n)
        ∧ (code = 3 ∨ code = 4 ∨ code = 5 ∨ code = 7 → signedWithin (-2047) 2047 n)
        ∧ (code = 6 → signedWithin 0 2047 n) ∧ (code = 9 → signedWithin 0 1000 n)
    let channel : StationNo → Prop := fun c =>
      let r := 8 + 11 * c.val
      byte r / 16 % 8 = 0 ∧ quantity c ≤ 9 ∧ (128 ≤ byte r → quantity c = 4 ∨ quantity c = 5)
        ∧ within 0 4095 (word (r + 1)) ∧ signedWithin (-8192) 8192 (signed (r + 3))
        ∧ signedWithin (-127) 127 (signedByte (r + 5))
        ∧ limit (quantity c) (signed (r + 6)) ∧ limit (quantity c) (signed (r + 8)) ∧ signed (r + 6) ≤ signed (r + 8)
        ∧ byte (r + 10) / 4 % 4 = 0
    let pulse : Nat → Prop := fun r =>
      byte r ≤ 1 ∧ within 1 4095 (word (r + 1)) ∧ within 1 16 (byte (r + 3)) ∧ within 1 255 (byte (r + 4))
    let stationSection : Prop :=
      (∀ c : StationNo, channel c) ∧ (∀ c d : StationNo, c ≠ d → quantity c ≠ 0 → quantity c ≠ quantity d)
        ∧ pulse 96 ∧ pulse 101
        ∧ within 0 4095 (word 106) ∧ within 0 4095 (word 108) ∧ within 0 4095 (word 110) ∧ within 0 4095 (word 112)
        ∧ within 1 1000 (word 114) ∧ within 1 1000 (word 116) ∧ byte 118 ≤ 1 ∧ within 2160 2480 (word 119)
        ∧ within 1 360 (word 121) ∧ within 1 15 (byte 123)
    let mode : Nat → Prop := fun r =>
      byte r ≤ byte (r + 1) ∧ byte (r + 1) ≤ 31 ∧ byte (r + 2) ≤ 1 ∧ within 0 360 (word (r + 3))
    let stepRecord : Nat → Prop := fun r =>
      byte r ≤ 4 ∧ byte (r + 1) ≤ 3 ∧ signedWithin (-360) 360 (signed (r + 2)) ∧ within 1 80 (byte (r + 4))
        ∧ (byte r = 0 ∨ byte r = 3 → 1 ≤ word (r + 5)) ∧ within 1 80 (byte (r + 7)) ∧ byte (r + 8) ≤ 15
        ∧ signedWithin (-360) 360 (signed (r + 9))
    let sharedSection : Prop :=
      byte o ≤ 1 ∧ (∀ j : StationNo, byte (o + 1 + j.val) ≤ 6) ∧ byte (o + 9) ≤ 7 ∧ byte (o + 10) ≤ 7
        ∧ (∀ m : Fin 5, mode (o + 11 + 5 * m.val)) ∧ (∀ s : Fin 32, stepRecord (o + 36 + 11 * s.val))
        ∧ within 2 4093 (word (o + 388)) ∧ within 3 4094 (word (o + 390)) ∧ word (o + 388) < word (o + 390)
        ∧ within 0 1000 (word (o + 392))
        ∧ (∀ p : Fin 8, within 0 4094 (word (o + 394 + 4 * p.val)) ∧ within 0 360 (word (o + 396 + 4 * p.val)))
        ∧ (∀ p : Fin 7, word (o + 394 + 4 * p.val) < word (o + 398 + 4 * p.val))
        ∧ within 0 360 (word (o + 426)) ∧ within 0 360 (word (o + 428)) ∧ within 0 360 (word (o + 430))
        ∧ within 1 360 (word (o + 432)) ∧ within 0 4094 (word (o + 434)) ∧ within 1 2047 (word (o + 436))
        ∧ within 1 15 (byte (o + 438)) ∧ within 1 15 (byte (o + 439)) ∧ within 1 15 (byte (o + 440))
        ∧ within 1 4 (byte (o + 441)) ∧ within 0 3 (byte (o + 442)) ∧ within 8 127 (byte (o + 443))
        ∧ within 1 16 (byte (o + 444)) ∧ within 1 255 (byte (o + 445)) ∧ within 1 255 (byte (o + 446))
        ∧ within 1 255 (byte (o + 447))
    ((checkImage b k).isSome = true ↔
      header ∧ placed ∧ stationSection ∧ sharedSection ∧ byte (o + 1 + k.val) = byte 3 % 16)
    ∧ ∀ p : Params, checkImage b k = some p →
      let pulseAt : Nat → PulseConfig := fun r =>
        { mapped := decide (byte r = 1), scale := word (r + 1), window := byte (r + 3), zeroRounds := byte (r + 4) }
      let modeAtByte : Nat → ModeEntry := fun r =>
        { first := byte r, last := byte (r + 1), loop := decide (byte (r + 2) = 1), maxLean := word (r + 3) }
      let stepAtByte : Nat → StepDef := fun r =>
        { kind := (stepKindOfCode (byte r)).getD .hold, syncEnd := decide (byte (r + 1) % 2 = 1)
          keepAuthority := decide (2 ≤ byte (r + 1)), target := signed (r + 2), rate := byte (r + 4), duration := word (r + 5)
          band := byte (r + 7), repeats := byte (r + 8), increment := signed (r + 9) }
      roleCode p.role = byte 3 % 16
        ∧ (∀ c : StationNo,
            let r := 8 + 11 * c.val
            let cfg := p.own.channels.get c
            quantityOfCode (quantity c) = some cfg.quantity ∧ cfg.differential = decide (128 ≤ byte r)
              ∧ cfg.zero = word (r + 1) ∧ cfg.gain = signed (r + 3) ∧ cfg.offset = signedByte (r + 5)
              ∧ cfg.low = signed (r + 6) ∧ cfg.high = signed (r + 8) ∧ cfg.filter = byte (r + 10) / 16
              ∧ cfg.level = byte (r + 10) % 4)
        ∧ p.own =
            { channels := p.own.channels, ps0 := pulseAt 96, ps1 := pulseAt 101
              kp := word 106, kd := word 108, ka := word 110, kl := word 112, effortMax := word 114
              effortSlew := word 116, dirInverted := decide (byte 118 = 1), applyAt := word 119, pairBand := word 121
              pairFilter := byte 123 }
        ∧ (∀ j : StationNo, roleCode (p.shared.roster.get j) = byte (o + 1 + j.val))
        ∧ p.shared =
            { slowBitRate := decide (byte o = 1), roster := p.shared.roster
              demandPrimary := Fin.ofNat 8 (byte (o + 9)), demandSecondary := Fin.ofNat 8 (byte (o + 10))
              modes := (List.range 5).map fun m => modeAtByte (o + 11 + 5 * m)
              library := (List.range 32).map fun s => stepAtByte (o + 36 + 11 * s)
              vWalk := word (o + 388), vGuided := word (o + 390), vh := word (o + 392)
              curve := (List.range 8).map fun p => { speed := word (o + 394 + 4 * p), limit := word (o + 396 + 4 * p) }
              cautionLimit := word (o + 426), walkLimit := word (o + 428), soleLimit := word (o + 430)
              leanBand := word (o + 432), speedBand := word (o + 434), steerBand := word (o + 436)
              leanFilter := byte (o + 438), speedFilter := byte (o + 439), steerFilter := byte (o + 440)
              voteMin := byte (o + 441), rejoinMax := byte (o + 442), rampRounds := byte (o + 443)
              calSamples := byte (o + 444), demandHold := byte (o + 445), lockRamp := byte (o + 446)
              releaseHold := byte (o + 447) }

/-- O7. The end of LOAD with a good image: the parameters in force, the seeded state of Table 12-5, every other part at reset
but the levels of the input pins, which are outside the part (log 7), the station in QUIET for an SVC count of 3 and in
LISTEN otherwise, the tables empty but for SVC_COUNT with a count that selects no option (R61, R187, R192). The Measurement
Unit whole: both lists, active and shadow, hold the mapped channels in ascending number at normal polarity, and the run list
is selected (R101); the sets hold nothing but the speed 0 of mapped pulse inputs (Table 7-2; the working set: log 6); the
offsets are the image's; the rings hold W zeros (R110); everything else is at reset, the waiting count, the scan count and
the sums of a pass at 0 (log 6). -/
def Obligations.GoodImageTakesEffect : Prop :=
  ∀ (x : Station) (q : List Instr) (p : Params),
    x.member.state = .load → x.loader.verdict.isSome = true → checkImage x.loader.buffer x.loader.straps = some p →
    let list : List ScanEntry :=
      (allStations.filter fun c => decide ((p.own.channels.get c).quantity ≠ .none)).map fun c =>
        { channel := c, swapped := false }
    let speed : PulseConfig → Option Nat := fun cfg => if cfg.mapped then some 0 else none
    let set : MeasSet :=
      { channels := Eight.fill none, ownLean := none, leanSource := .none, leanRate := 0
        speed0 := speed p.own.ps0, speed1 := speed p.own.ps1
        ownSpeed := if p.own.ps0.mapped || p.own.ps1.mapped then some 0 else none }
    let ring : PulseConfig → PulseCounter := fun cfg =>
      { count := 0, ring := List.replicate cfg.window 0, fill := 0, quiet := 255 }
    ∃ y : Station, exec .loadEnd ⟨x, q⟩ = .next ⟨y, q⟩
      ∧ y.params = p ∧ y.pins = x.pins
      ∧ y.loader = { x.loader with quietOption := decide (x.loader.svcCount = 3) }
      ∧ y.member = { MembershipUnit.reset with state := if x.loader.svcCount = 3 then .quiet else .listen }
      ∧ y.bus = BusUnit.reset ∧ y.engine = Engine.reset ∧ y.auth = Authority.atRest ∧ y.drive = Drive.reset
      ∧ (∀ k : StationNo, y.peers.get k =
          if k = x.loader.straps then { PeerRecord.reset p.role with state := .self }
          else PeerRecord.reset (p.shared.roster.get k))
      ∧ y.meas =
          { lists := { runActive := list, runShadow := list, calActive := list, calShadow := list, selected := .run }
            scan := none, working := set, latest := set, snapshot := set, stale := true, endedSinceSync := false
            offsets := Eight.ofFn fun c => (p.own.channels.get c).offset
            monitors := Eight.fill { state := .normal, run := 0, previous := none }
            apart := false, pairRun := 0, prevLean := none, ps0 := ring p.own.ps0, ps1 := ring p.own.ps1
            cal :=
              { status := .none, waiting := 0, scans := 0, pSums := Eight.fill 0, nSums := Eight.fill 0, done := false
                heard := none } }
      ∧ y.cond =
          if x.loader.svcCount = 0 ∨ x.loader.svcCount = 3 then ConditionUnit.reset
          else raiseEvent ConditionUnit.reset { code := .svcCount, source := min 15 x.loader.svcCount } 0

/-- O8. The end of LOAD with an image that fails: CONFIG_FAULT with nothing in effect and no condition, the start option
selected by the SVC count all the same, FLT asserted, TXD high, DRV_EN and LREL deasserted and no magnitude on PWM (R61, R186
to R188). That the pins stand is the model's choice, log 7, and so are the values of the whole next state that the spec does
not give, log 6 (the own record ABSENT in CONFIG_FAULT, the kept proposals, the demand and the readiness among them). -/
def Obligations.FailedImageIsConfigFault : Prop :=
  ∀ (x : Station) (q : List Instr),
    x.member.state = .load → x.loader.verdict.isSome = true → checkImage x.loader.buffer x.loader.straps = none →
    ∃ y : Station, exec .loadEnd ⟨x, q⟩ = .next ⟨y, q⟩
      ∧ y = { Station.reset with
          pins := x.pins, loader := { x.loader with quietOption := decide (x.loader.svcCount = 3) }
          member := { MembershipUnit.reset with state := .configFault } }
      ∧ y.fltOut = true ∧ y.drvEn = false ∧ y.lrelOut = false ∧ y.drive.pwm = 0
      ∧ ∀ read : BitVec 70, y.txdDominant read = false

/-- O9. FLT: deasserted in LOAD, asserted in CONFIG_FAULT, and in every other state asserted while the agreed FAULT is 1 or
higher; out at an entry to LISTEN, and held through SILENT (R184). -/
def Obligations.FltFollowsTheAgreedFault : Prop :=
  ∀ x : Station,
    (x.member.state = .load → x.fltOut = false)
      ∧ (x.member.state = .configFault → x.fltOut = true)
      ∧ (x.member.state ≠ .load → x.member.state ≠ .configFault → (x.fltOut = true ↔ 1 ≤ x.bus.held.fault))
      ∧ x.enterListen.fltOut = false
      ∧ (x.enterSilent.fltOut = true ↔ 1 ≤ x.bus.held.fault)

/-! ## The round timer -/

/-- O10. A mark is confirmed at the fourth bit time from its edge, which the command carries (R5, R6; log 2): position 4, one
round number on, SYNCHRONISED, the candidate gone, the signature cleared, a new round, in-window for the own mark and for an
edge in the window of a station that is SYNCHRONISED still, acquired for a SEARCHING one. A following station that those bit
times carry past position 2520 has lost its marks by then: an acquired round, no pending record, and a good-round count of 0
(R9, R60, R63; log 11). The events age (R175). The sync event latches the snapshot with its stale flag, places the pulse
counts, and starts a scan with the list as posted, or raises SCAN_OVERRUN where one runs (R101 to R104, R110, R111; log 14);
the calibration step of JOIN is in O51. At another station's mark a driving station counts its loss period by the round that
ended, at its own it did so at the drive start (O12; R22, R74; log 10); the fourth loses the bus, after that work (log 47):
BUS_LOSS, one loss more, LISTEN, TXD released. In LISTEN an in-window mark counts, an acquired one sets the count to 0, and
the eighth enters JOIN with the values of R65 while the rejoin allowance is left (R63 to R65, R141, R143). What an abandoned
round was not told by its end is told first (closeAbandoned: O13; log 58). With no candidate and no own mark within its
fourth bit time nothing is confirmed (log 51). -/
def Obligations.MarkOpensTheRound : Prop :=
  (∀ (x : Station) (q : List Instr) (left : Nat) (opening : Opening),
    timerRuns x.member.state = true →
    let t := x.reach (x.bus.position + left)
    let ended := t.closeAbandoned
    ((∃ m, x.bus.mark = some m ∧ m.confirmed = false ∧ m.age + left = 4 ∧ opening = .inWindow)
      ∨ (x.bus.markPending = false
          ∧ ∃ c, x.bus.candidate = some c ∧ c.age + left = 4
              ∧ opening = if c.inWindow = true ∧ t.bus.sync = .synchronised then .inWindow else .acquired)) →
    let periods : Nat :=
      if x.bus.markPending then x.member.lossPeriods
      else if x.bus.round.wellFormed then 0
      else if x.bus.round.opening = .noRound then x.member.lossPeriods
      else min 4 (x.member.lossPeriods + 1)
    let lost : Prop := isDriving x.member.state = true ∧ 4 ≤ periods
    let good : Nat := if opening = .inWindow then min 8 (t.member.goodRounds + 1) else 0
    let enters : Bool :=
      decide (x.member.state = .listen) && decide (good = 8)
        && decide (x.member.silencings + x.member.losses ≤ x.params.shared.rejoinMax)
    let place : PulseConfig → PulseCounter → PulseCounter := fun cfg p =>
      if cfg.mapped then
        { count := 0, ring := (p.ring ++ [p.count]).drop (p.ring.length + 1 - cfg.window), fill := min 16 (p.fill + 1)
          quiet := if p.count = 0 then min 255 (p.quiet + 1) else 0 }
      else p
    let speed0 := pulseSpeed x.params.own.ps0 (place x.params.own.ps0 x.meas.ps0)
    let speed1 := pulseSpeed x.params.own.ps1 (place x.params.own.ps1 x.meas.ps1)
    let aged := expireConds (ageConds t.cond)
    let told := if x.meas.scan.isSome then raiseEvent aged { code := .scanOverrun, source := 0 } 1 else aged
    let list := if x.meas.lists.selected = .run then x.meas.lists.runShadow else x.meas.lists.calShadow
    (¬lost →
      ∃ y : Station, exec .syncMark ⟨x, q⟩ = .next ⟨y, q⟩
        ∧ y.bus = { ended.bus with
            position := 4, sync := .synchronised, roundNumber := x.bus.roundNumber + 1, candidate := none
            mark := y.bus.mark, cutBit := false, round := RoundState.fresh opening, signature := 0, stuckCount := 0
            stuckNext := 0, nextSeq := if enters then false else ended.bus.nextSeq }
        ∧ (∀ m, x.bus.mark = some m → m.confirmed = false → y.bus.mark = some { m with age := 4, confirmed := true })
        ∧ (x.bus.markPending = false → y.bus.mark = none)
        ∧ (isFollowing x.member.state = true → x.bus.sync = .synchronised → x.bus.markPending = false →
            2520 < x.bus.position + left →
            y.bus.round.opening = .acquired ∧ y.bus.pendingRecord = none ∧ y.member.goodRounds = 0)
        ∧ (isDriving x.member.state = true → y.member = { ended.member with lossPeriods := periods })
        ∧ (x.member.state = .quiet → y.member = ended.member)
        ∧ (x.member.state = .listen → enters = false → y.member = { t.member with goodRounds := good })
        ∧ (enters = true →
            y.member = { t.member with
                goodRounds := 8, state := .join, joinRounds := 0, matchCount := 0, verdict := .none, lossPeriods := 0
                keptOwnMatch := false, dropPending := false, viewRefused := false, quietCompares := false }
              ∧ y.engine = { x.engine with run := RunState.idle, readinessCount := 0 } ∧ y.auth = Authority.atRest
              ∧ y.meas.cal.status =
                (if allStations.any fun c => (x.params.own.channels.get c).differential then .waiting else .done))
        ∧ (enters = false → y.engine = x.engine ∧ y.auth = x.auth)
        ∧ y.meas.snapshot = x.meas.latest ∧ y.meas.stale = !x.meas.endedSinceSync
        ∧ y.meas.ps0 = place x.params.own.ps0 x.meas.ps0 ∧ y.meas.ps1 = place x.params.own.ps1 x.meas.ps1
        ∧ (∀ r, x.meas.scan = some r →
            y.meas.scan = some r ∧ y.meas.working = x.meas.working ∧ y.meas.latest = x.meas.latest
              ∧ y.meas.endedSinceSync = false)
        ∧ (x.meas.scan = none → x.member.state ≠ .join → list ≠ [] →
            y.meas.scan = some { list := x.meas.lists.selected, left := list, written := [], elapsed := 0 }
              ∧ y.meas.working = { x.meas.latest with
                  speed0 := speed0, speed1 := speed1, ownSpeed := ownSpeedOf speed0 speed1 }
              ∧ y.meas.latest = x.meas.latest ∧ y.meas.endedSinceSync = false)
        ∧ (x.meas.scan = none → y.meas.scan.isSome = true ∨ y.meas.endedSinceSync = true)
        ∧ (x.member.state ≠ .join → x.meas.scan.isSome = true ∨ list ≠ [] →
            (enters = false → y.cond = told) ∧ (enters = true → y.cond.queue = told.queue))
        ∧ y.pins = x.pins ∧ y.loader = x.loader ∧ y.params = x.params ∧ y.peers = x.peers ∧ y.drive = t.drive)
    ∧ (lost →
      ∃ y : Station, exec .syncMark ⟨x, q⟩ = .next ⟨y, q⟩
        ∧ y.member.state = .listen ∧ y.member.losses = min 4 (x.member.losses + 1)
        ∧ y.bus.position = 0 ∧ y.bus.sync = .searching ∧ y.bus.mark = none ∧ y.bus.round = RoundState.none
        ∧ y.bus.held = HeldSet.reset ∧ y.bus.pendingRecord = none ∧ y.drive.output = .off
        ∧ y.meas.snapshot = x.meas.latest
        ∧ (x.bus.markPending = false → ∀ read : BitVec 70, y.txdDominant read = false)
        ∧ ((∃ r ∈ y.cond.queue, r.key = { code := .busLoss, source := 0 }) ∨ y.cond.overflow = true)))
  ∧ ∀ (x : Station) (q : List Instr),
    (∀ c, x.bus.candidate = some c → 4 < c.age) → (∀ m, x.bus.mark = some m → m.confirmed = false → 4 < m.age) →
    exec .syncMark ⟨x, q⟩ = .next ⟨x, q⟩

/-- O11. Eight in-window marks in LISTEN lead to JOIN while the rejoin allowance is not spent, with the values of R65; with
the allowance spent the station stays in LISTEN (R63 to R65). As a command of its own: log 3. -/
def Obligations.EighthGoodMarkEntersJoin : Prop :=
  ∀ (x : Station) (q : List Instr), x.member.state = .listen → 8 ≤ x.member.goodRounds →
    (x.params.shared.rejoinMax < x.member.silencings + x.member.losses → exec .joinEntry ⟨x, q⟩ = .next ⟨x, q⟩)
    ∧ (x.member.silencings + x.member.losses ≤ x.params.shared.rejoinMax →
        ∃ y : Station, exec .joinEntry ⟨x, q⟩ = .next ⟨y, q⟩
          ∧ y.bus = { x.bus with nextSeq := false }
          ∧ y.member.state = .join ∧ y.member.joinRounds = 0 ∧ y.member.matchCount = 0 ∧ y.member.verdict = .none
          ∧ y.member.lossPeriods = 0 ∧ y.member.keptOwnMatch = false
          ∧ y.member.silencings = x.member.silencings ∧ y.member.losses = x.member.losses
          ∧ y.meas.cal.status =
                (if allStations.any fun c => (x.params.own.channels.get c).differential then .waiting else .done)
          ∧ y.engine.run = RunState.idle ∧ y.auth = Authority.atRest
          ∧ y.pins = x.pins ∧ y.loader = x.loader ∧ y.params = x.params ∧ y.peers = x.peers ∧ y.drive = x.drive)

/-- O12. A driving station that owes a mark drives it from position 2500: TXD is dominant for 8 bit times from then, and no
longer, the round that ended is counted as a loss period, and nothing else changes (R7, R22, R74; at the drive start: log
10). The fourth period without a well-formed round loses the bus at this drive start: BUS_LOSS, one loss more, LISTEN, no
sync event, and the mark cut to a single bit time: TXD is dominant in it and released from the next one (R3, R64, R74). While
a candidate is open at position 2500 the station drives nothing (R7). Taken at 2500 while it has not passed, the pins read
until then: log 2; a candidate past its fourth bit time is open no more: log 51. -/
def Obligations.OwnMarkIsDriven : Prop :=
  ∀ (x : Station) (q : List Instr),
    isDriving x.member.state = true → x.bus.markPending = false → x.bus.position ≤ 2500 →
    let t := x.reach 2500
    let periods : Nat :=
      if x.bus.round.wellFormed then 0
      else if x.bus.round.opening = .noRound then x.member.lossPeriods
      else min 4 (x.member.lossPeriods + 1)
    ((∀ c, x.bus.candidate = some c → 4 < c.age + (2500 - x.bus.position)) →
      (periods < 4 →
        ∃ y : Station, exec .ownSyncMarkDrive ⟨x, q⟩ = .next ⟨y, q⟩
          ∧ y = { t with
              bus :=
                { t.bus with
                  position := 2500, candidate := none, mark := some { age := 0, confirmed := false, faulted := false } }
              member := { t.member with lossPeriods := periods } }
          ∧ ∀ (n : Nat) (read : BitVec 70), (y.reach (2500 + n)).txdDominant read = decide (n < 8))
      ∧ (4 ≤ periods →
        ∃ y : Station, exec .ownSyncMarkDrive ⟨x, q⟩ = .next ⟨y, q⟩
          ∧ y.member.state = .listen ∧ y.member.losses = min 4 (x.member.losses + 1)
          ∧ y.member.silencings = x.member.silencings
          ∧ y.bus.position = 0 ∧ y.bus.sync = .searching ∧ y.bus.mark = none ∧ y.bus.round = RoundState.none
          ∧ y.bus.held = HeldSet.reset ∧ y.bus.pendingRecord = none ∧ y.drive.output = .off
          ∧ y.meas.snapshot = x.meas.snapshot ∧ y.meas.stale = x.meas.stale ∧ y.meas.scan = x.meas.scan
          ∧ y.cond.queue = (offerQueue t.cond { code := .busLoss, source := 0 }).queue
          ∧ (∀ read : BitVec 70, y.txdDominant read = true)
          ∧ (∀ (n : Nat) (read : BitVec 70), 0 < n → (y.reach n).txdDominant read = false)
          ∧ y.pins = x.pins ∧ y.loader = x.loader ∧ y.params = x.params))
    ∧ ((∃ c, x.bus.candidate = some c ∧ c.age + (2500 - x.bus.position) ≤ 4) →
        exec .ownSyncMarkDrive ⟨x, q⟩ = .next ⟨x, q⟩)

/-- O13. An own mark that reads recessive before its confirmation opens a markless round at that sample point: position
counted from the drive start, the round number kept, TXD released, the round abandoned, BUS_FAULT source 0 after the round
start's decrement (R8, R21, R175). The held outcome set, the own signature, the pending record and the match count stand until
the consumers of the markless round are told, at positions 79 (O19) and 2147 (O35). The loss period count stands: the round
before was counted at the drive start (log 10). A mark confirmed before raises BUS_FAULT at its first sample point that reads
recessive, and not again at a later one. Taken at the sample point, the pins read until then, and a sample point that has
passed, or no mark, leaves the station as it is: log 2; the markless start at that sample point, and one BUS_FAULT for a
mark: log 11; the release of TXD: log 44. What the consumers of an abandoned round were not told by its end is told as the
next round starts, here and at a confirmed mark (O10), which is the model's choice: log 58; the own claim result stands: log
46. -/
def Obligations.UnreadMarkIsMarkless : Prop :=
  (∀ (x : Station) (q : List Instr) (sample : Fin 8), x.bus.mark = none →
    exec (.markNotReadBack sample) ⟨x, q⟩ = .next ⟨x, q⟩)
  ∧ ∀ (x : Station) (q : List Instr) (sample : Fin 8) (m : MarkDrive), x.bus.mark = some m →
    (m.confirmed = false → sample.val < m.age → exec (.markNotReadBack sample) ⟨x, q⟩ = .next ⟨x, q⟩)
    ∧ (m.confirmed = true → sample.val < x.bus.position → exec (.markNotReadBack sample) ⟨x, q⟩ = .next ⟨x, q⟩)
    ∧ (let t := x.reach (x.bus.position + (sample.val - m.age))
     let ended := t.closeAbandoned
     m.confirmed = false → m.age ≤ sample.val → isDriving x.member.state = true →
      ∃ y : Station, exec (.markNotReadBack sample) ⟨x, q⟩ = .next ⟨y, q⟩
        ∧ y.bus = { ended.bus with
            position := sample.val, roundNumber := x.bus.roundNumber, candidate := none, mark := none, stuckCount := 0
            stuckNext := 0, round := { RoundState.fresh .markless with abandoned := true, cutAt := sample.val } }
        ∧ y.cond = raiseEvent (expireConds (ageConds t.cond)) { code := .busFault, source := 0 } 3
        ∧ (∀ read : BitVec 70, y.txdDominant read = false)
        ∧ y.member = ended.member
        ∧ y.pins = x.pins ∧ y.loader = x.loader ∧ y.params = x.params ∧ y.peers = x.peers ∧ y.meas = x.meas
        ∧ y.engine = x.engine ∧ y.auth = x.auth ∧ y.drive = t.drive)
    ∧ (let t := x.reach sample.val
      m.confirmed = true → x.bus.position ≤ sample.val →
      (m.faulted = false →
        exec (.markNotReadBack sample) ⟨x, q⟩ =
          .next ⟨{ t with
            bus :=
              { t.bus with
                mark :=
                  some { age := min 65535 (m.age + (sample.val - x.bus.position)), confirmed := true, faulted := true } }
            cond := raiseEvent t.cond { code := .busFault, source := 0 } 3 }, q⟩)
      ∧ (m.faulted = true → exec (.markNotReadBack sample) ⟨x, q⟩ = .next ⟨t, q⟩))
  ∧ ∀ x : Station,
    let round := x.bus.round
    let begun : Bool :=
      match round.ownSlot with
      | .sending _ _ _ => true
      | .notBegun | .ended => false
    let early : Bool := !round.handed && (decide (round.opening = .markless) || decide (round.cutAt ≤ 79))
    (round.abandoned = false → x.closeAbandoned = x)
    ∧ (round.abandoned = true →
      x.closeAbandoned =
        { x with
          bus :=
            { x.bus with
              held := if early then { x.bus.held with claim := none, roundClass := .abandoned } else x.bus.held
              ownSig := if early || !round.sectionDone then none else x.bus.ownSig
              pendingRecord := if early then none else x.bus.pendingRecord
              nextSeq := if begun then !x.bus.nextSeq else x.bus.nextSeq
              round := { round with ownSlot := if begun then .ended else round.ownSlot } }
          member :=
            { x.member with
              matchCount :=
                if (x.member.state = .join ∨ x.member.state = .quiet) ∧ round.sectionDone = false then 0
                else x.member.matchCount } })

/-- O14. A SYNCHRONISED following station past position 2520 without a mark becomes SEARCHING: no round, no pending record,
and the good-round count 0, its position counting on (R9, R60, R63); so does a bit time that finds it there, and any bit
times that a command carries past 2520. A candidate still open stays: log 11. Taken at 2521 or later, the pins read until
then: log 2. -/
def Obligations.ExpiredWindowSearches : Prop :=
  ∀ (x : Station) (q : List Instr),
    isFollowing x.member.state = true → x.bus.sync = .synchronised →
    let s := x.sampleUntil 2521
    (∃ y : Station, exec .syncWindowExpiry ⟨x, q⟩ = .next ⟨y, q⟩
      ∧ y = { s with
          bus :=
            { x.bus with
              position := min 65535 (max x.bus.position 2521), sync := .searching, pendingRecord := none
              round := RoundState.none, candidate := y.bus.candidate, mark := y.bus.mark
              cutBit := x.bus.cutBit && decide (2521 ≤ x.bus.position) }
          member := { s.member with goodRounds := 0 } }
      ∧ (∀ c, x.bus.candidate = some c →
          y.bus.candidate =
            if c.age + (2521 - x.bus.position) ≤ 4 then some { c with age := c.age + (2521 - x.bus.position) } else none)
      ∧ (x.bus.candidate = none → y.bus.candidate = none))
    ∧ (2520 ≤ x.bus.position →
        ∃ y : Station, step ⟨x, []⟩ = .next ⟨y, []⟩
          ∧ y.bus.sync = .searching ∧ y.bus.round = RoundState.none ∧ y.bus.pendingRecord = none)
    ∧ ∀ p : Nat, 2520 < p →
        (x.reach p).bus.sync = .searching ∧ (x.reach p).bus.round = RoundState.none
          ∧ (x.reach p).bus.pendingRecord = none ∧ (x.reach p).member.goodRounds = 0
          ∧ (x.reach p).bus.position = min 65535 (max x.bus.position p)

/-- O15. The cold-start timeout at position 7500 + 40 N enters JOIN and at once drives a mark; with the allowance spent, or a
candidate open at the threshold, it does nothing (R10, R64). Taken at the threshold, the pins read until then: log 2; a
candidate past its fourth bit time is open no more: log 51. -/
def Obligations.ColdStartEntersJoin : Prop :=
  ∀ (x : Station) (q : List Instr), x.member.state = .listen →
    let threshold := 7500 + 40 * x.number.val
    let t := x.reach threshold
    (x.member.silencings + x.member.losses ≤ x.params.shared.rejoinMax →
      (∀ c, x.bus.candidate = some c → 4 < c.age + (threshold - x.bus.position)) → x.bus.position ≤ threshold →
      ∃ y : Station, exec .coldStartTimeout ⟨x, q⟩ = .next ⟨y, q⟩
        ∧ y.bus = { t.bus with
            nextSeq := false, mark := some { age := 0, confirmed := false, faulted := false } }
        ∧ y.bus.position = threshold ∧ y.bus.candidate = none
        ∧ y.member.state = .join ∧ y.member.joinRounds = 0
        ∧ y.member.lossPeriods = 0 ∧ y.engine.run = RunState.idle ∧ y.auth = Authority.atRest
        ∧ y.params = x.params ∧ y.peers = x.peers ∧ y.drive = t.drive
        ∧ ∀ read : BitVec 70, y.txdDominant read = true)
    ∧ ((x.params.shared.rejoinMax < x.member.silencings + x.member.losses
          ∨ ∃ c, x.bus.candidate = some c ∧ c.age + (threshold - x.bus.position) ≤ 4) →
      exec .coldStartTimeout ⟨x, q⟩ = .next ⟨x, q⟩)

/-- O16. An edge opens a candidate at a SEARCHING station, and at a SYNCHRONISED one inside the window alone; it opens
nothing while a candidate is open or an own mark is not confirmed yet (log 11). In a slot's first 16 positions it is activity
(R5, R19). A candidate that reads recessive up to its fourth bit time is dropped, and what it held back begins at the next
bit time: an own mark of a driving station, with the work of its drive start (O12: the loss period count, and the fourth
loses the bus; R22, R74, log 10), or the cold start of a station in LISTEN with its allowance left (R5, R7, R10). No
candidate, none dropped (log 51). Taken at the position the command carries, at which the bit times until then have passed:
log 2. -/
def Obligations.EdgesOpenCandidates : Prop :=
  ∀ (x : Station) (q : List Instr) (p : Nat),
    timerRuns x.member.state = true → x.bus.position ≤ p → p < 65535 →
    let t := x.reach p
    let dropped : Station := { t with bus := { t.bus with candidate := none } }
    let mark : MarkDrive := { age := 0, confirmed := false, faulted := false }
    let begun := dropped.reach (p + 1)
    let periods : Nat :=
      if x.bus.round.wellFormed then 0
      else if x.bus.round.opening = .noRound then x.member.lossPeriods
      else min 4 (x.member.lossPeriods + 1)
    (∃ y : Station, exec (.recessiveToDominantEdge p) ⟨x, q⟩ = .next ⟨y, q⟩
      ∧ y = { t with
          bus :=
            { t.bus with
              candidate :=
                if t.bus.candidate = none ∧ t.bus.markPending = false
                    ∧ (t.bus.sync = .searching ∨ (2480 ≤ p ∧ p ≤ 2520)) then
                  some { age := 0, inWindow := decide (t.bus.sync = .synchronised) }
                else t.bus.candidate
              round := { t.bus.round with activity := y.bus.round.activity } } }
      ∧ ∀ k : StationNo, y.bus.round.activity.get k =
          (t.bus.round.activity.get k || (takesPart x.member.state && t.bus.round.recognised
            && decide (100 + 256 * k.val ≤ p) && decide (p ≤ 100 + 256 * k.val + 15))))
    ∧ (∀ c, x.bus.candidate = some c → c.age + (p - x.bus.position) ≤ 4 →
        ((isDriving x.member.state = true → p < 2500) →
          (x.member.state = .listen →
            p < 7500 + 40 * x.number.val ∨ x.params.shared.rejoinMax < x.member.silencings + x.member.losses) →
          exec (.candidateMarkDropped p) ⟨x, q⟩ = .next ⟨dropped, q⟩)
        ∧ (isDriving x.member.state = true → x.bus.markPending = false → 2500 ≤ p → periods < 4 →
          exec (.candidateMarkDropped p) ⟨x, q⟩ =
            .next ⟨{ begun with
              bus := { begun.bus with position := p + 1, candidate := none, mark := some mark }
              member := { begun.member with lossPeriods := periods } }, q⟩)
        ∧ (isDriving x.member.state = true → x.bus.markPending = false → 2500 ≤ p → 4 ≤ periods →
          ∃ y : Station, exec (.candidateMarkDropped p) ⟨x, q⟩ = .next ⟨y, q⟩
            ∧ y.member.state = .listen ∧ y.member.losses = min 4 (x.member.losses + 1) ∧ y.bus.position = 0
            ∧ y.bus.mark = none ∧ (∀ read : BitVec 70, y.txdDominant read = true)
            ∧ ∀ (n : Nat) (read : BitVec 70), 0 < n → (y.reach n).txdDominant read = false)
        ∧ (x.member.state = .listen → 7500 + 40 * x.number.val ≤ p →
          x.member.silencings + x.member.losses ≤ x.params.shared.rejoinMax →
          ∃ y : Station, exec (.candidateMarkDropped p) ⟨x, q⟩ = .next ⟨y, q⟩
            ∧ y.member.state = .join ∧ y.bus.position = p + 1 ∧ y.bus.candidate = none ∧ y.bus.mark = some mark))
    ∧ ((∀ c, x.bus.candidate = some c → 4 < c.age + (p - x.bus.position)) →
        exec (.candidateMarkDropped p) ⟨x, q⟩ = .next ⟨x, q⟩)

/-- O17. The stuck-bus monitor (R20, R21). A span of dominant sample points is counted at its positions outside the first 8
of a recognised mark, the signature fields and the frames, the positions of the span before it counted in when it goes on
without a gap. At every 33rd counted position STUCK_BUS is raised with the source of its part of the round (0 up to 79, 1 in
the report section, 2 after it) and the count starts again; the first detection abandons the round at its position, where it
was not abandoned before, and an abandonment after the end of the report section discards the record built in the round (R57,
Table 2-6). Nothing else changes with it: what an abandoned round drives is in O18 and O32, and what each consumer is told
where it would have taken the round's results (R21; log 58) in O19, O33, O35 and O36. The span and its continuation are the
model's: log 24; its bit times pass with it, and the pins are read in them: log 2; the source past 2499: log 53; the
positions of a mark not confirmed yet: log 45. -/
def Obligations.StuckSpanAbandons : Prop :=
  ∀ (x : Station) (q : List Instr) (first last : Nat),
    let round := x.bus.round
    let recognised : Prop := round.opening = .inWindow ∨ round.opening = .acquired
    let excluded : Nat → Prop := fun p =>
      (recognised ∧ p < 8) ∨ (48 ≤ p ∧ p ≤ 79) ∨ ∃ k : Fin 8, 100 + 256 * k.val ≤ p ∧ p < 347 + 256 * k.val
    let positions : List Nat :=
      ((List.range (last + 1 - first)).map (first + ·)).filter fun p => decide ¬excluded p
    let before := if first = x.bus.stuckNext then x.bus.stuckCount else 0
    let count := before + positions.length
    let detections : List Nat :=
      (positions.zipIdx.filter fun p => decide ((before + p.2 + 1) % 33 = 0)).map (·.1)
    let source : Nat → Nat := fun p => if p ≤ 79 then 0 else if p ≤ 2147 then 1 else 2
    let t := x.reach last
    let cond : ConditionUnit :=
      detections.foldl (fun c p => raiseEvent c { code := .stuckBus, source := source p } 3) t.cond
    (isDriving x.member.state = true ∨ (x.member.state = .quiet ∧ round.opening = .inWindow ∧ last ≤ 2520)) →
    x.bus.position ≤ last → first ≤ last → x.bus.stuckCount < 33 →
    (detections = [] ∨ round.abandoned = true →
      exec (.stuckBus first last) ⟨x, q⟩ =
        .next ⟨{ t with bus := { t.bus with stuckCount := count % 33, stuckNext := last + 1 }, cond := cond }, q⟩)
    ∧ ∀ (p : Nat) (later : List Nat), detections = p :: later → round.abandoned = false →
      exec (.stuckBus first last) ⟨x, q⟩ =
        .next ⟨{ t with
          bus :=
            { t.bus with
              stuckCount := count % 33, stuckNext := last + 1
              pendingRecord := if round.sectionDone then none else x.bus.pendingRecord
              round := { round with abandoned := true, cutAt := p } }
          cond := cond }, q⟩

/-! ## The tally -/

/-- O18. The tally image at position 10 by the station state (Table 3-1): JOIN drives MEMBERS and JOINING alone, MEMBER
everything its proposal record and its signature give, HALTED the same without CLAIM, and without a proposal record the
signature alone. The values are kept, an abstained field as 7, 511 or 0 (R23, R24). Taken at 10, the pins read until then, so
that the state is the one of position 10: log 2. From the image follows the level of TXD at every position of the tally
section (R12 to R14): dominant for the own bit of a bitmap field that the station asserts, for ADVANCE when not ready, and
for a dominant bit of the wire value of a min or a max field (the complement there) while the station contends, that is while
no bit of the field that it drove recessive has read dominant; recessive for a field in which it abstains, in an abandoned
round (R21), and before and after the section up to slot 0 but for a mark (R3, R11). -/
def Obligations.ImageFollowsTheState : Prop :=
  (∀ (x : Station) (q : List Instr),
    isDriving x.member.state = true → x.bus.round.recognised = true → x.bus.round.abandoned = false →
    x.bus.round.image = none → x.bus.round.handed = false → x.bus.position ≤ 10 →
    let t := x.reach 10
    ∃ image : TallyImage,
      exec .tallyImage ⟨x, q⟩ =
        .next ⟨{ t with
          bus :=
            { t.bus with
              keptMode := image.mode.getD 7, keptLimit := image.limit.getD 511
              keptFault := image.fault.getD 0, round := { x.bus.round with image := some image } } }, q⟩
      ∧ (x.member.state = .join →
          image = { joining := true, mode := none, limit := none, fault := none, advance := none, claim := none,
                    sig := none })
      ∧ (∀ p, t.member.state = .member → x.cond.proposal = some p →
          image = { joining := false, mode := some (modeCode p.mode), limit := some p.limit, fault := some p.fault,
                    advance := some p.ready, claim := some p.claim, sig := x.bus.ownSig })
      ∧ (∀ p, t.member.state = .halted → x.cond.proposal = some p →
          image = { joining := false, mode := some (modeCode p.mode), limit := some p.limit, fault := some p.fault,
                    advance := some p.ready, claim := none, sig := x.bus.ownSig })
      ∧ (x.member.state ≠ .join → x.cond.proposal = none →
          image = { joining := false, mode := none, limit := none, fault := none, advance := none, claim := none,
                    sig := x.bus.ownSig }))
  ∧ ∀ (x : Station) (read : BitVec 70),
    isDriving x.member.state = true → (∀ m, x.bus.mark = some m → 8 ≤ m.age) → x.bus.position < 100 →
    let p := x.bus.position
    let n := x.number.val
    let contends : Nat → Nat → (Nat → Bool) → Prop := fun first width bit =>
      first ≤ p ∧ p < first + width ∧ bit (first + width - 1 - p) = false
        ∧ ∀ i, first ≤ i → i < p → bit (first + width - 1 - i) = true → read.getMsbD (i - 10) = true
    let least : Nat → Nat → Option Nat → Prop := fun first width value =>
      ∃ v, value = some v ∧ contends first width fun i => v.testBit i
    let most : Nat → Nat → Option Nat → Prop := fun first width value =>
      ∃ v, value = some v ∧ contends first width fun i => !v.testBit i
    (x.bus.round.abandoned = true ∨ x.bus.round.image = none ∨ p < 10 ∨ 79 < p → x.txdDominant read = false)
    ∧ ∀ image, x.bus.round.image = some image → x.bus.round.abandoned = false →
      (x.txdDominant read = true ↔
        p = 17 - n ∨ (image.joining = true ∧ p = 25 - n) ∨ (image.advance = some false ∧ p = 40)
          ∨ least 26 3 image.mode ∨ least 29 9 image.limit ∨ most 38 2 image.fault ∨ least 41 7 image.claim
          ∨ least 48 16 (image.sig.map (·.toNat)) ∨ most 64 16 (image.sig.map (·.toNat)))

/-- O19. The handover replaces the held outcome set by what the wire reads, discards the own signature, and leaves no pending
record; the own match of an agreed round is kept, and the own claim result follows the claim (R16, R25, R35, R36, R38, R59).
BUS_FAULT source 1 is raised for each bit driven dominant that reads recessive (R15). The split count follows the class, and
SPLIT_VIEW is held at a count of 3 and leaves with the first agreed round (R136). The handover marks the round as handed on
(R120: O36). Every record of the peer table but the own one takes its bits, is lost at three rounds absent, and is EXCLUDED
when the applied record names it (R82 to R84; log 17; the absent rounds count of an ABSENT record that this handover makes
refused is the model's choice: log 62). The engine and the authority table take an adopted entry (O22), and a
live authority table works each group from what this round's outcomes and the applied record say (R145, R148, R156, R157);
its group conditions stand as R158 says (O28; log 33). A station in JOIN then counts the round and becomes MEMBER exactly
when the join conditions hold, its table live (R67, R70, R143); another station stays as it was, unless its own number is
excluded (O23). In a round abandoned before 79, a markless one among them, nothing is handed on and its consumers are told at
79: the held claim is none and the held class abandoned, the rest of the held set stands, the own signature and the pending
record are discarded, and BUS_FAULT source 1 is raised for each bit that was driven dominant up to the abandonment and reads
recessive (R15, R16, R21, R25, Table 4-4; with this command: logs 25 and 58; the own signature without a comparison: log 54;
the own claim result: log 46). Taken at 79: log 2; the order of the work: log 19. -/
def Obligations.HandoverTakesTheOutcomes : Prop :=
  ∀ (x : Station) (q : List Instr) (wire : BitVec 70), x.bus.position ≤ 79 →
    let t := x.reach 79
    let h := resolveTally (isDriving x.member.state) x.number wire
    let applied : Option DecisionRecord :=
      x.bus.pendingRecord.filter fun r =>
        decide (r.tag + 1 = x.bus.roundNumber) && (h.roundClass = .agreed || (h.roundClass = .memberless && h.alone))
    let named : StationNo → Prop := fun k => ∃ r, applied = some r ∧ inSet r.exclusions k = true
    let told : ConditionUnit → CondCode → Nat → Prop := fun c code source =>
      (∃ r ∈ c.queue, r.key = { code := code, source := source }) ∨ c.overflow = true
    (x.handoverDue = true →
      let w := t.takeTally wire
      let silenced : Prop := isDriving x.member.state = true ∧ named x.number
      let kept : Bool :=
        if h.roundClass = .agreed then x.bus.ownSig.isSome && decide (x.bus.ownSig = h.agreedSig)
        else x.member.keptOwnMatch
      let faults : Nat :=
        match x.bus.round.image with
        | some image => ((tallyLevels x.number image wire).filter fun level => !level.1 && level.2).length
        | none => 0
      let claims : Bool := x.bus.round.image.any fun image => image.claim.any fun code => decide (code ≠ 127)
      let split : Nat :=
        if h.roundClass = .split then min 3 (x.engine.splitCount + 1)
        else if h.roundClass = .agreed then 0
        else x.engine.splitCount
      let seen : Station := { t with bus := { t.bus with held := h }, peers := w.peers }
      let took := seen.adopt (applied.bind (·.adoption))
      let joins : Prop :=
        16 ≤ x.member.joinRounds + 1 ∧ (x.meas.cal.status = .done ∨ x.meas.cal.status = .skipped)
          ∧ faultLevel w.cond ≤ 2
          ∧ (memberSet h = 0 ∨
              (x.member.verdict = .met ∧ w.engine.run.adopted = true ∧ x.member.matchCount = 4 ∧ kept = true))
      ∃ y : Station, exec (.tallyHandover wire) ⟨x, q⟩ = .next ⟨y, q⟩
        ∧ y.bus.held = h ∧ y.bus.wireRead = wire
        ∧ y.bus.position = 79 ∧ y.bus.ownSig = none ∧ y.bus.pendingRecord = none
        ∧ y.bus.roundNumber = x.bus.roundNumber ∧ y.bus.signature = x.bus.signature
        ∧ y.bus.claimResult =
            (if h.claim.map (·.station) = some x.number then .named else if claims then .lost else .none)
        ∧ y.pins = x.pins ∧ y.loader = x.loader ∧ y.params = x.params
        ∧ y.peers = w.peers ∧ y.engine = w.engine
        -- the bits not read back (R15)
        ∧ (0 < faults → (∀ r ∈ t.cond.queue, r.key ≠ { code := .busFault, source := 1 }) → t.cond.queue.length < 8 →
            ∃ r ∈ y.cond.queue, r.key = { code := .busFault, source := 1 } ∧ r.count = min 15 faults)
        -- the split count (R136)
        ∧ y.engine.splitCount = split ∧ (applied.bind (·.adoption) = none → y.engine = { x.engine with splitCount := split })
        ∧ (x.cond.tableSound → isHeld y.cond { code := .splitView, source := 0 } = decide (3 ≤ split))
        -- the round is handed on (R120)
        ∧ (silenced → y.bus.round = RoundState.none)
        ∧ (¬silenced → y.bus.round = { x.bus.round with handed := true })
        -- the peer table (R82 to R84)
        ∧ y.peers.get x.number = x.peers.get x.number
        ∧ (∀ k : StationNo, k ≠ x.number →
            let r := x.peers.get k
            let refused := decide (x.params.shared.rejoinMax < r.exclusions)
            let bit := inSet h.members k && !refused
            let state := if r.state = .absent ∧ inSet h.joining k = true ∧ refused = false then .joining else r.state
            let rounds := if bit = true ∨ (refused = true ∧ r.state = .absent) then 0 else min 3 (r.absentRounds + 1)
            let taken : Prop := r.state = .joining ∨ r.state = .present ∨ r.state = .suspect
            let counted : Nat := min 15 (r.exclusions + 1)
            let excluded : PeerRecord :=
              { r with
                state := .excluded, missed := 0, stale := 0, leanDisagree := 0, speedDisagree := 0, steerDisagree := 0
                recover := 0, absentRounds := rounds, exclusions := counted }
            let gone : Nat → PeerRecord := fun n => { PeerRecord.reset r.rosterRole with exclusions := n }
            (r.state = .absent → ¬named k → y.peers.get k = { r with absentRounds := rounds, state := state })
            ∧ (r.state = .absent → named k → bit = true → y.peers.get k = excluded)
            ∧ (r.state = .absent → named k → bit = false →
                y.peers.get k = { r with absentRounds := rounds, exclusions := counted })
            ∧ (taken → rounds < 3 → ¬named k → y.peers.get k = { r with absentRounds := rounds })
            ∧ (taken → rounds < 3 → named k → y.peers.get k = excluded)
            ∧ (taken → rounds = 3 → ¬named k → y.peers.get k = gone r.exclusions)
            ∧ (taken → rounds = 3 → named k → y.peers.get k = gone counted)
            ∧ (r.state = .excluded → rounds < 3 → y.peers.get k = { r with absentRounds := rounds })
            ∧ (r.state = .excluded → rounds = 3 → y.peers.get k = gone r.exclusions)
            ∧ (taken → rounds = 3 → told y.cond .peerLost k.val)
            ∧ (named k → r.state ≠ .excluded → told y.cond .peerExcluded k.val))
        -- the authority table (R143 to R145, R148, R156, R157)
        ∧ (took.auth.live = false → y.auth = { took.auth with live := y.auth.live })
        ∧ (took.auth.live = true → y.auth.live = true ∧ ∀ g : Group,
            let work := groupHandover (seen.groupInputs g applied) (took.auth.group g)
            y.auth.group g = (took.commitGroup g work).auth.group g
              ∧ y.auth.retry g = (took.commitGroup g work).auth.retry g)
        -- the station state (R67, R70, R75)
        ∧ (silenced → y.member.state = .silent)
        ∧ (¬silenced → y.member.keptOwnMatch = kept)
        ∧ (¬silenced → x.member.state ≠ .join → y.member.state = t.member.state ∧ y.auth = w.auth)
        ∧ (¬silenced → x.member.state = .join →
            y.member.joinRounds = min 255 (x.member.joinRounds + 1)
              ∧ (y.member.state = .join ∨ y.member.state = .member)
              ∧ (y.member.state = .member ↔ joins) ∧ (joins → y.auth.live = true)
              ∧ (¬joins → y.auth = w.auth ∧ y.cond = w.cond))
        -- the group conditions (R158)
        ∧ (y.auth.live = true → x.cond.tableSound → y.groupCondsStand))
    ∧ (takesPart x.member.state = true → x.bus.round.abandoned = true → x.bus.round.handed = false →
      x.bus.round.opening = .markless ∨ x.bus.round.cutAt ≤ 79 →
      let unread : Nat :=
        match x.bus.round.image with
        | some image =>
          (((tallyLevels x.number image wire).take (x.bus.round.cutAt - 9)).filter
            fun level => !level.1 && level.2).length
        | none => 0
      exec (.tallyHandover wire) ⟨x, q⟩ =
        .next ⟨{ t with
          bus :=
            { t.bus with
              held := { x.bus.held with claim := none, roundClass := .abandoned }, ownSig := none, pendingRecord := none
              round := { x.bus.round with image := none } }
          cond := (t.raiseTimes .busFault 1 unread).cond }, q⟩)

/-- O20. What the wire reads (Table 14-1): a station is in MEMBERS when its bit reads dominant, station 7's bit first, and in
JOINING when both its bits do; the member set has those of MEMBERS that are not in JOINING; alone is MEMBERS of the own
number only, at a driving station; a MODE of 5 to 7 is PARK, a LIMIT above 360 is 360, FAULT is the complement; ADVANCE is
all ready when it reads recessive; an improper claim is none (R26, R27, R29, R31 to R33, R35). -/
def Obligations.WireGivesTheOutcomes : Prop :=
  ∀ (driving : Bool) (own : StationNo) (wire : BitVec 70),
    let h := resolveTally driving own wire
    (∀ k : StationNo, inSet h.members k = !wire.getMsbD (7 - k.val))
      ∧ (∀ k : StationNo, inSet h.joining k = (!wire.getMsbD (15 - k.val) && !wire.getMsbD (7 - k.val)))
      ∧ (∀ k : StationNo, inSet (memberSet h) k = (inSet h.members k && !inSet h.joining k))
      ∧ (h.alone = true ↔ driving = true ∧ ∀ k : StationNo, inSet h.members k = decide (k = own))
      ∧ (tallyField wire 26 3 ≤ 4 → modeCode h.mode = tallyField wire 26 3)
      ∧ (4 < tallyField wire 26 3 → h.mode = .park)
      ∧ (tallyField wire 29 9 ≤ 360 → h.limit = tallyField wire 29 9)
      ∧ (360 < tallyField wire 29 9 → h.limit = 360)
      ∧ h.fault + tallyField wire 38 2 = 3
      ∧ h.advance = wire.getMsbD 30
      ∧ (∀ c, h.claim = some c → c.urgency ≤ 2 ∧
          tallyField wire 41 7 = 32 * groupCode c.group + 8 * c.urgency + c.station.val)
      ∧ (h.claim = none → ∀ g u (k : StationNo), u ≤ 2 → tallyField wire 41 7 ≠ 32 * groupCode g + 8 * u + k.val)

/-- O21. The class of a round: agreed when SIG_MIN equals SIG_MAX, with that value as the agreed signature; memberless for
FFFFh and 0; a split in every other case (R37). -/
def Obligations.SignaturesClassTheRound : Prop :=
  ∀ (driving : Bool) (own : StationNo) (wire : BitVec 70),
    let h := resolveTally driving own wire
    let sigMin := tallyField wire 48 16
    let sigMax := 0xFFFF - tallyField wire 64 16
    (sigMin = sigMax → h.roundClass = .agreed ∧ h.agreedSig = some (BitVec.ofNat 16 sigMin))
      ∧ (sigMin = 0xFFFF ∧ sigMax = 0 → h.roundClass = .memberless ∧ h.agreedSig = none)
      ∧ (sigMin ≠ sigMax → ¬(sigMin = 0xFFFF ∧ sigMax = 0) → h.roundClass = .split ∧ h.agreedSig = none)

/-- O22. A pending record that a split round, a memberless round without the alone flag, or a round that does not follow its
own discards has no effect on any block (R59, Table 4-4). An applied one with an adoption entry gives an IDLE engine without
an adopted state, in JOIN, MEMBER and QUIET, the entry's fields as its run state when they are proper, brought forward once
with the recorded inputs; otherwise the engine leaves it unused (R139, R140). With the entry the authority table takes its
view: live, with shares of 1000 or 500, the entry's epochs, loss age 64 and no transaction; a view with a holder that is not
usable, the own number or not admitted is refused and leaves the table as it was (R144). Taken at 79: log 2; elapsed as the
entry gives it, also for a TRACK of duration 0 and a FREEZE: log 50. -/
def Obligations.RecordIsAppliedOrDiscarded : Prop :=
  let proper : SharedSection → TrajFields → Prop := fun sh t =>
    (∃ m, modeOfCode t.mode = some m ∧ (modeAt sh m).first ≤ t.step ∧ t.step ≤ (modeAt sh m).last
      ∧ t.repeatLeft ≤ (stepAt sh t.step).repeats ∧ -360 ≤ t.setpoint ∧ t.setpoint ≤ 360
      ∧ (t.pending = 7 ∨ (t.pending ≤ 4 ∧ t.mode < t.pending))
      ∧ (t.elapsed = 65535 → t.step = (modeAt sh m).last ∧ (modeAt sh m).loop = false ∧ t.pending = 7))
    ∨ t = { mode := 7, step := 0, repeatLeft := 0, elapsed := 0, setpoint := 0, pending := 7 }
  let takes : Station → AdoptionEntry → Prop := fun x a =>
    (x.member.state = .join ∨ x.member.state = .member ∨ x.member.state = .quiet)
      ∧ x.engine.run.engine = .idle ∧ x.engine.run.adopted = false ∧ proper x.params.shared a.traj
  (∀ (x : Station) (q : List Instr) (wire : BitVec 70) (r : DecisionRecord),
    x.handoverDue = true → x.bus.position ≤ 79 → x.bus.pendingRecord = some r →
    let t := x.reach 79
    let h := resolveTally (isDriving x.member.state) x.number wire
    let count := if h.roundClass = .agreed then 0 else x.engine.splitCount
    (h.roundClass = .split ∨ (h.roundClass = .memberless ∧ h.alone = false) ∨ r.tag + 1 ≠ x.bus.roundNumber →
      exec (.tallyHandover wire) ⟨x, q⟩ =
        exec (.tallyHandover wire) ⟨{ x with bus := { x.bus with pendingRecord := none } }, q⟩)
    ∧ ∀ a, (h.roundClass = .agreed ∨ (h.roundClass = .memberless ∧ h.alone = true)) → r.tag + 1 = x.bus.roundNumber →
        r.adoption = some a →
      let st := stepAt x.params.shared a.traj.step
      let adopted : Engine :=
        { x.engine with
          splitCount := count, readinessCount := 0
          run :=
            { engine :=
                if a.traj.mode = 7 then .idle
                else if a.traj.elapsed = 65535 then .complete
                else if st.kind = .freeze then .frozen
                else .running
              mode := modeOfCode a.traj.mode, step := a.traj.step, repeatLeft := a.traj.repeatLeft
              accInc :=
                if a.traj.mode = 7 then 0
                else saturate (-720) 720 (((st.repeats : Int) - a.traj.repeatLeft) * st.increment)
              elapsed := a.traj.elapsed, setpoint := a.traj.setpoint, pending := modeOfCode a.traj.pending
              adopted := true } }
      let inputs : EngineInputs :=
        { roundClass := a.roundClass, mode := a.mode, limit := a.limit, advance := a.advance, demand := a.demand }
      ∃ y : Station, exec (.tallyHandover wire) ⟨x, q⟩ = .next ⟨y, q⟩
        ∧ (takes t a →
            y.engine =
              ((if a.roundClass = .agreed then
                  (adopted.runToCount x.params.shared true inputs).checkEnd x.params.shared inputs
                else adopted.suspend).clamp a.limit))
        ∧ (¬takes t a → y.engine = { x.engine with splitCount := count }))
  ∧ ∀ (x : Station) (a : AdoptionEntry),
    let fits : Group → StationSet → Prop := fun g S =>
      ∀ k : StationNo, inSet S k = true →
        let r := x.peers.get k
        k ≠ x.number ∧ (r.state = .present ∨ r.state = .suspect)
          ∧ (g = .tilt → r.rosterRole = .tiltL ∨ r.rosterRole = .tiltR)
          ∧ (g = .steer → r.rosterRole = .steer ∨ r.rosterRole = .steerB)
    let view : StationSet → BitVec 8 → GroupRecord := fun S epoch =>
      { holders :=
          (allStations.filter (inSet S)).map fun k =>
            { station := k, share := if (allStations.filter (inSet S)).length = 1 then 1000 else 500 }
        epoch := epoch, transaction := none, lossAge := 64 }
    (takes x a → fits .tilt a.tiltHolders → fits .steer a.steerHolders →
      (x.adopt (some a)).auth =
        { x.auth with live := true, tilt := view a.tiltHolders a.tiltEpoch, steer := view a.steerHolders a.steerEpoch })
    ∧ (takes x a → ¬(fits .tilt a.tiltHolders ∧ fits .steer a.steerHolders) →
      (x.adopt (some a)).auth = x.auth ∧ (x.adopt (some a)).member = { x.member with viewRefused := true })
    ∧ (¬takes x a → x.adopt (some a) = x)

/-- O23. An applied exclusion of the own number, in an agreed round or a memberless one with the alone flag, moves a driving
station to SILENT at the handover: one silencing, the drive OFF, no pending record (R59, R75, R83). TXD keeps its level to the
end of bit time 79, that of the last bit of SIG_MAX by the values read before it (O18), and is released at the next bit time
(R3, R75). Taken at 79, the pins read until then: log 2. -/
def Obligations.OwnExclusionSilences : Prop :=
  ∀ (x : Station) (q : List Instr) (wire : BitVec 70) (r : DecisionRecord),
    x.handoverDue = true → x.bus.position ≤ 79 → isDriving x.member.state = true →
    x.bus.pendingRecord = some r → r.tag + 1 = x.bus.roundNumber → inSet r.exclusions x.number = true →
    let h := resolveTally true x.number wire
    let t := x.reach 79
    (h.roundClass = .agreed ∨ (h.roundClass = .memberless ∧ h.alone = true)) →
    ∃ y : Station, exec (.tallyHandover wire) ⟨x, q⟩ = .next ⟨y, q⟩
      ∧ y.member.state = .silent ∧ y.member.silencings = min 4 (x.member.silencings + 1) ∧ y.member.silentHold = 0
      ∧ y.bus.pendingRecord = none ∧ y.bus.round = RoundState.none
      ∧ y.drive = { t.drive with
          output := .off, lockRamp := 0, release := 0, effort := 0, applied := 0, pwm := 0, lrel := false }
      ∧ y.drvEn = false ∧ y.lrelOut = false
      ∧ (∀ read : BitVec 70, y.txdDominant read = t.txdDominant wire)
      ∧ ∃ z : Station, step ⟨y, []⟩ = .next ⟨z, []⟩ ∧ ∀ read : BitVec 70, z.txdDominant read = false

/-- O24. A handover that takes an agreed MODE of LOCK, in every class of round: ACTIVE enters RAMP_DOWN with the count
LOCK_RAMP, RAMP_UP enters it with its count, the other output states stay; the release count is 0 and LREL goes. A MODE of
1..4 changes nothing of the drive (R167). Taken at 79, the pins read until then: log 2. -/
def Obligations.LockEntersAtTheHandover : Prop :=
  ∀ (x : Station) (q : List Instr) (wire : BitVec 70),
    x.handoverDue = true → x.bus.position ≤ 79 → isDriveRole x.params.role = true →
    (∀ r ∈ x.bus.pendingRecord, inSet r.exclusions x.number = false) →
    let t := x.reach 79
    ∃ y : Station, exec (.tallyHandover wire) ⟨x, q⟩ = .next ⟨y, q⟩
      ∧ ((resolveTally (isDriving x.member.state) x.number wire).mode ≠ .lock → y.drive = t.drive)
      ∧ ((resolveTally (isDriving x.member.state) x.number wire).mode = .lock →
          y.drive =
            match t.drive.output with
            | .active =>
              { t.drive with
                output := .rampDown, lockRamp := x.params.shared.lockRamp, release := 0, lrel := false }
            | .rampUp => { t.drive with output := .rampDown, release := 0, lrel := false }
            | .off | .locked | .rampDown => { t.drive with release := 0, lrel := false })

/-- O25. The join conditions (Table 5-3): at a handover in JOIN the round is counted, and the station enters MEMBER exactly
when all of them hold; a founder's table becomes live with it (R67, R70, R143). -/
def Obligations.JoinConditionsAdmit : Prop :=
  ∀ x : Station, x.member.state = .join →
    x.joinHandover.member.joinRounds = min 255 (x.member.joinRounds + 1)
      ∧ (x.joinHandover.member.state = .join ∨ x.joinHandover.member.state = .member)
      ∧ (x.joinHandover.member.state = .member → x.joinHandover.auth.live = true)
      ∧ (x.joinHandover.member.state = .member ↔
          16 ≤ x.member.joinRounds + 1
            ∧ (x.meas.cal.status = .done ∨ x.meas.cal.status = .skipped)
            ∧ faultLevel x.cond ≤ 2
            ∧ (memberSet x.bus.held = 0 ∨
                (x.member.verdict = .met ∧ x.engine.run.adopted = true ∧ x.member.matchCount = 4
                  ∧ x.member.keptOwnMatch = true)))

/-! ## Authority -/

/-- O26. A claim that is not void opens a transaction, in ANSWER when the group has a holder and in PREPARE otherwise; a void
one changes nothing (R147). GIVE moves ANSWER to PREPARE, KEEP closes it as REFUSED; READY moves PREPARE to RAMP with the
saved copy and a share of 0, and completes at once with the whole for a VACANT TILT group (R150, R151); a stopped group with
no holder but the claimant goes on so too (R155). What a group's handover reads, and its other ends: O28. That the stage age is
0 at the entry to RAMP is the model's: log 21. -/
def Obligations.ClaimsAndResponsesMoveTheStage : Prop :=
  (∀ (inp : GroupInputs) (start : GroupRecord) (c : StationNo),
    start.transaction = none → (∀ h ∈ start.holders, inp.lost h.station = false) → inp.claimant = some c →
    (((∀ h ∈ start.holders, h.station ≠ c) ∧ start.holders.length < (if inp.group = .tilt then 2 else 1)
        ∧ (inp.stopped = false ∨ start.holders = [])) →
      groupHandover inp start =
        { record :=
            { start with
              transaction :=
                some { claimant := c, stage := if start.holders.isEmpty then .prepare else .answer, age := 0,
                       rampCount := 0, saved := none } }
          closed := none })
    ∧ (((∃ h ∈ start.holders, h.station = c) ∨ (if inp.group = .tilt then 2 else 1) ≤ start.holders.length
        ∨ (inp.stopped = true ∧ start.holders ≠ [])) →
      groupHandover inp start = { record := start, closed := none }))
  ∧ ∀ (inp : GroupInputs) (start : GroupRecord) (t : Transaction),
    start.transaction = some t → inp.lost t.claimant = false → (∀ h ∈ start.holders, inp.lost h.station = false) →
    (inp.stopped = false ∨ ∀ h ∈ start.holders, h.station = t.claimant) →
    let holderSays : Response → Prop := fun response => ∃ h ∈ start.holders, inp.responses.get h.station = response
    (t.stage = .answer → ¬holderSays .keep → holderSays .give →
      groupHandover inp start =
        { record := { start with transaction := some { t with stage := .prepare, age := 0 } }, closed := none })
    ∧ (t.stage = .answer → holderSays .keep →
      groupHandover inp start =
        { record := { start with transaction := none }, closed := some (t.claimant, .refused) })
    ∧ (∀ h, t.stage = .prepare → inp.responses.get t.claimant = .ready → inp.group = .tilt → start.holders = [h] →
      groupHandover inp start =
        { record :=
            { start with
              holders := [h, { station := t.claimant, share := 0 }]
              transaction := some { t with stage := .ramp, age := 0, rampCount := 0, saved := some [h] } }
          closed := none })
    ∧ (t.stage = .prepare → inp.responses.get t.claimant = .ready → inp.group = .tilt → start.holders = [] →
      groupHandover inp start =
        { record := { start with holders := [{ station := t.claimant, share := 1000 }], transaction := none }
          closed := some (t.claimant, .complete) })
    ∧ (t.stage = .prepare → inp.responses.get t.claimant = .ready → inp.group = .steer → start.holders = [] →
      groupHandover inp start =
        { record :=
            { start with
              holders := [{ station := t.claimant, share := 0 }]
              transaction := some { t with stage := .ramp, age := 0, rampCount := 0, saved := some [] } }
          closed := none })

/-- O27. A share ramp (R152): one step gives the claimant count / RAMP_ROUNDS of its part, truncated, and a TILT giver the
rest of 1000; the step that reaches RAMP_ROUNDS completes with 500 and 500 or with 1000; a round that is not agreed makes no
step. An epoch counts one for a group record that differs in its holders, its shares or its transaction without the stage age
(R145). With the record goes what its close does to the retry state of the own claimant (R156, R157): COMPLETE sets the
failure count to 0; every other close counts a failure up to 3, sets the backoff to 16 and raises AUTH_FAIL with source 8 by
group plus the code (REFUSED 1, NO_ANSWER 2, NOT_READY 3, WITHDRAWN 4, ABORTED 5), and the third failure gives the group up,
with AUTH_GIVEUP held; the close of another station's claim, and no close, leave it. -/
def Obligations.RampsShareAndEpochsCount : Prop :=
  ((∀ (rounds a b : Nat) (giver c : StationNo) (start : GroupRecord) (t : Transaction), giver ≠ c →
    start.transaction = some t → t.stage = .ramp → t.claimant = c →
    start.holders = [{ station := giver, share := a }, { station := c, share := b }] →
    groupRamp .tilt rounds start =
      if rounds ≤ t.rampCount + 1 then
        { record :=
            { start with
              holders := [{ station := giver, share := 500 }, { station := c, share := 500 }], transaction := none }
          closed := some (c, .complete) }
      else
        { record :=
            { start with
              holders :=
                [{ station := giver, share := 1000 - 500 * (t.rampCount + 1) / rounds },
                  { station := c, share := 500 * (t.rampCount + 1) / rounds }]
              transaction := some { t with rampCount := t.rampCount + 1 } }
          closed := none })
  ∧ (∀ (rounds b : Nat) (c : StationNo) (start : GroupRecord) (t : Transaction),
    start.transaction = some t → t.stage = .ramp → t.claimant = c → start.holders = [{ station := c, share := b }] →
    groupRamp .steer rounds start =
      if rounds ≤ t.rampCount + 1 then
        { record := { start with holders := [{ station := c, share := 1000 }], transaction := none }
          closed := some (c, .complete) }
      else
        { record :=
            { start with
              holders := [{ station := c, share := 1000 * (t.rampCount + 1) / rounds }]
              transaction := some { t with rampCount := t.rampCount + 1 } }
          closed := none })
  ∧ ∀ x : Station, x.applyClass ≠ .agreed → x.rampStep = x)
  ∧ ∀ (x : Station) (g : Group) (w : GroupWork),
    let y := x.commitGroup g w
    let old := x.auth.retry g
    let failures := min 3 (old.failures + 1)
    let givenUp : Bool := old.givenUp || decide (3 ≤ failures)
    let kept : Prop := y.auth.retry g = old ∧ y.cond = x.cond
    ((w.record.holders = (x.auth.group g).holders
        ∧ w.record.transaction.map Transaction.visible = (x.auth.group g).transaction.map Transaction.visible) →
      ((x.commitGroup g w).auth.group g).epoch = (x.auth.group g).epoch)
    ∧ (¬(w.record.holders = (x.auth.group g).holders
        ∧ w.record.transaction.map Transaction.visible = (x.auth.group g).transaction.map Transaction.visible) →
      ((x.commitGroup g w).auth.group g).epoch = (x.auth.group g).epoch + 1)
    ∧ y = { x with auth := y.auth, cond := y.cond } ∧ y.auth.live = x.auth.live
    ∧ y.auth.group g = { w.record with epoch := (y.auth.group g).epoch }
    ∧ y.auth.group g.other = x.auth.group g.other ∧ y.auth.retry g.other = x.auth.retry g.other
    ∧ (w.closed = none → kept)
    ∧ ∀ (c : StationNo) (code : CloseCode), w.closed = some (c, code) →
      (c ≠ x.number → kept)
      ∧ (c = x.number → code = .complete → y.auth.retry g = { old with failures := 0 } ∧ y.cond = x.cond)
      ∧ ∀ n, c = x.number →
        ((code = .refused ∧ n = 1) ∨ (code = .noAnswer ∧ n = 2) ∨ (code = .notReady ∧ n = 3) ∨ (code = .withdrawn ∧ n = 4)
          ∨ (code = .aborted ∧ n = 5)) →
        let told := raiseEvent x.cond { code := .authFail, source := 8 * groupCode g + n } 1
        y.auth.retry g = { failures := failures, backoff := 16, givenUp := givenUp }
          ∧ y.cond = (if givenUp = true then holdCond told { code := .authGiveup, source := groupCode g } 2 else told)
          ∧ (x.cond.tableSound → givenUp = true → isHeld y.cond { code := .authGiveup, source := groupCode g } = true)

/-- O28. How a transaction closes or goes on. At the limit of its stage it closes at ANSWER_TIMEOUT (stage age 4, NO_ANSWER)
or PREPARE_TIMEOUT (stage age 16, NOT_READY): the holders stay, the epoch counts one, and at the claimant's own station the
failure, the backoff and AUTH_FAIL follow, and with the third failure the given-up flag and AUTH_GIVEUP (R150, R151, R145,
R157); each group for itself. A handover tests a claim against the holders left by its removals (R147, R148). At a handover
the stage age goes up by one to 16 at most; without a loss, an abort or a response that moves it, the transaction waits, and
closes so at an age of 4 in ANSWER or 16 in PREPARE, a response of that handover taken before (R148, R150, R151; O26). A
handover reads the claim of an agreed round, or of a memberless one with the alone flag, and takes no claimant that is not
usable, is the own number outside MEMBER, or has a role not admitted (R147); it reads the responses of an applied record
alone, and disregards those of a sender that is not usable, or the own number outside MEMBER and HALTED (R148; the roles: log
16). A station is lost at a handover when it is no party any more or releases: a lost claimant closes as WITHDRAWN and a
stopped group with another holder as ABORTED, with the saved copy restored in RAMP; a lost holder is removed, the loss age is
0, the last one left has the whole, ANSWER moves to PREPARE, PREPARE goes on as a fill, and a TILT ramp completes with the
claimant alone (R153 to R155, Table 9-3). The group conditions of a live table stand as R158 says after the two limits and
wherever groupConds is done: TILT_SOLE with one TILT holder, TILT_VACANT with none while a tilt-role station is a member,
STEER_VACANT with no STEER holder; a table not live holds and ends none there (when they follow their cause: log 33). The two
limits as commands of their own: log 3. -/
def Obligations.TransactionsClose : Prop :=
  (∀ (x : Station) (q : List Instr) (c : Instr) (stage : Stage) (limit code : Nat),
    ((c = .answerTimeout ∧ stage = .answer ∧ limit = 4 ∧ code = 2)
      ∨ (c = .prepareTimeout ∧ stage = .prepare ∧ limit = 16 ∧ code = 3)) →
    let due : Group → Transaction → Prop := fun g t =>
      (x.auth.group g).transaction = some t ∧ t.stage = stage ∧ limit ≤ t.age
    (x.auth.live = false ∨ takesPart x.member.state = false → exec c ⟨x, q⟩ = .next ⟨x, q⟩)
    ∧ (x.auth.live = true → takesPart x.member.state = true →
      ∃ y : Station, exec c ⟨x, q⟩ = .next ⟨y, q⟩
        ∧ y = { x with auth := y.auth, cond := y.cond } ∧ y.auth.live = true
        ∧ (x.cond.tableSound → y.groupCondsStand)
        ∧ ∀ g : Group,
          ((∀ t, ¬due g t) → y.auth.group g = x.auth.group g ∧ y.auth.retry g = x.auth.retry g)
          ∧ ∀ t, due g t →
            y.auth.group g = { x.auth.group g with transaction := none, epoch := (x.auth.group g).epoch + 1 }
            ∧ (t.claimant ≠ x.number → y.auth.retry g = x.auth.retry g)
            ∧ (t.claimant = x.number →
                (y.auth.retry g).failures = min 3 ((x.auth.retry g).failures + 1) ∧ (y.auth.retry g).backoff = 16
                  ∧ (y.auth.retry g).givenUp = ((x.auth.retry g).givenUp || decide (2 ≤ (x.auth.retry g).failures))
                  ∧ (x.cond.tableSound → (y.auth.retry g).givenUp = true →
                      isHeld y.cond { code := .authGiveup, source := groupCode g } = true)
                  ∧ ((∃ r ∈ y.cond.queue, r.key = { code := .authFail, source := 8 * groupCode g + code })
                      ∨ y.cond.overflow = true))))
  ∧ (∀ x : Station,
    (x.auth.live = false → x.groupConds = x)
    ∧ (x.auth.live = true →
        x.groupConds = { x with cond := x.groupConds.cond } ∧ (x.cond.tableSound → x.groupConds.groupCondsStand)))
  ∧ (∀ (x : Station) (g : Group) (applied : Option DecisionRecord) (k : StationNo),
    let inp := x.groupInputs g applied
    let held := x.bus.held
    let usable : Prop := (x.peers.get k).state = .present ∨ (x.peers.get k).state = .suspect
    let role : Role := if k = x.number then x.params.role else (x.peers.get k).rosterRole
    let admitted : Prop :=
      (g = .tilt ∧ (role = .tiltL ∨ role = .tiltR)) ∨ (g = .steer ∧ (role = .steer ∨ role = .steerB))
    let sender : Prop :=
      (k ≠ x.number ∧ usable) ∨ (k = x.number ∧ (x.member.state = .member ∨ x.member.state = .halted))
    inp.group = g
    ∧ (inp.lost k = true ↔ (¬usable ∧ k ≠ x.number) ∨ inp.responses.get k = .release)
    ∧ (inp.stopped = true ↔ held.mode = .lock ∨ held.fault = 3)
    -- the claim (R147)
    ∧ (inp.claimant = some k ↔
        (∃ c, held.claim = some c ∧ c.group = g ∧ c.station = k)
          ∧ (held.roundClass = .agreed ∨ (held.roundClass = .memberless ∧ held.alone = true))
          ∧ (k ≠ x.number → usable) ∧ (k = x.number → x.member.state = .member) ∧ admitted)
    -- the responses (R148)
    ∧ (applied = none → inp.responses.get k = .none)
    ∧ ∀ r, applied = some r →
      (¬sender → inp.responses.get k = .none)
        ∧ (r.responses.get k = none → inp.responses.get k = .none)
        ∧ ∀ tilt steer, sender → r.responses.get k = some (tilt, steer) →
          inp.responses.get k = if g = .tilt then tilt else steer)
  ∧ ∀ (inp : GroupInputs) (start : GroupRecord),
    let left : List Holder → GroupRecord := fun holders =>
      { start with
        transaction := none
        holders :=
          if ∀ h ∈ holders, inp.lost h.station = false then holders
          else
            match holders.filter fun h => !inp.lost h.station with
            | [h] => [{ h with share := 1000 }]
            | others => others
        lossAge := if ∀ h ∈ holders, inp.lost h.station = false then start.lossAge else 0 }
    (start.transaction = none → inp.claimant = none →
      groupHandover inp start = { record := left start.holders, closed := none })
    -- the claim is tested once the removals are made (R147, R148)
    ∧ (∀ c, start.transaction = none → inp.claimant = some c →
      let r := left start.holders
      let void : Prop :=
        (∃ h ∈ r.holders, h.station = c) ∨ (if inp.group = .tilt then 2 else 1) ≤ r.holders.length
          ∨ (inp.stopped = true ∧ r.holders ≠ [])
      (void → groupHandover inp start = { record := r, closed := none })
        ∧ (¬void →
          groupHandover inp start =
            { record :=
                { r with
                  transaction :=
                    some { claimant := c, stage := if r.holders = [] then .prepare else .answer, age := 0,
                           rampCount := 0, saved := none } }
              closed := none }))
    ∧ ∀ t : Transaction, start.transaction = some t →
      let restored : List Holder := if t.stage = .ramp then t.saved.getD start.holders else start.holders
      let age := min 16 (t.age + 1)
      let waits : GroupWork := { record := { start with transaction := some { t with age := age } }, closed := none }
      let fails : CloseCode → GroupWork := fun code =>
        { record := { start with transaction := none }, closed := some (t.claimant, code) }
      -- no loss and no abort: the stage waits, up to its limit (R148, R150, R151)
      (inp.lost t.claimant = false → (∀ h ∈ start.holders, inp.lost h.station = false) →
          (inp.stopped = false ∨ ∀ h ∈ start.holders, h.station = t.claimant) →
        (t.stage = .answer →
          (∀ h ∈ start.holders, inp.responses.get h.station ≠ .keep ∧ inp.responses.get h.station ≠ .give) →
          (age < 4 → groupHandover inp start = waits) ∧ (4 ≤ age → groupHandover inp start = fails .noAnswer))
        ∧ (t.stage = .prepare → inp.responses.get t.claimant ≠ .ready →
          (age < 16 → groupHandover inp start = waits) ∧ (16 ≤ age → groupHandover inp start = fails .notReady))
        ∧ (t.stage = .ramp → groupHandover inp start = waits))
      ∧ (inp.lost t.claimant = true →
        groupHandover inp start = { record := left restored, closed := some (t.claimant, .withdrawn) })
      ∧ (inp.lost t.claimant = false → (∀ h ∈ start.holders, inp.lost h.station = false) → inp.stopped = true →
          (∃ h ∈ start.holders, h.station ≠ t.claimant) →
        groupHandover inp start =
          { record := { start with holders := restored, transaction := none }, closed := some (t.claimant, .aborted) })
      ∧ ∀ h : Holder, inp.lost t.claimant = false → inp.lost h.station = true →
        (t.stage = .answer → start.holders = [h] →
          groupHandover inp start =
            { record :=
                { start with holders := [], lossAge := 0, transaction := some { t with stage := .prepare, age := 0 } }
              closed := none })
        ∧ (t.stage = .prepare → start.holders = [h] → inp.responses.get t.claimant = .ready → inp.group = .tilt →
          groupHandover inp start =
            { record :=
                { start with
                  holders := [{ station := t.claimant, share := 1000 }], lossAge := 0, transaction := none }
              closed := some (t.claimant, .complete) })
        ∧ (t.stage = .prepare → start.holders = [h] → inp.responses.get t.claimant ≠ .ready → t.age < 15 →
          groupHandover inp start =
            { record := { start with holders := [], lossAge := 0, transaction := some { t with age := t.age + 1 } }
              closed := none })
        ∧ (t.stage = .prepare → start.holders = [h] → inp.responses.get t.claimant ≠ .ready → 15 ≤ t.age →
          groupHandover inp start =
            { record := { start with holders := [], lossAge := 0, transaction := none }
              closed := some (t.claimant, .notReady) })
        ∧ ∀ share, t.stage = .ramp → start.holders = [h, { station := t.claimant, share := share }] →
          groupHandover inp start =
            { record :=
                { start with
                  holders := [{ station := t.claimant, share := 1000 }], lossAge := 0, transaction := none }
              closed := some (t.claimant, .complete) }

/-- O29. SPLIT_VIEW is held while the split count is 3; the count goes up with a split round, to 0 with an agreed one, and
stands otherwise (R136). As a command of its own: log 3. -/
def Obligations.SplitViewFollowsTheSplitCount : Prop :=
  (∀ (x : Station) (q : List Instr), x.cond.tableSound →
    ∃ y : Station, exec .splitView ⟨x, q⟩ = .next ⟨y, q⟩
      ∧ y = { x with cond := y.cond }
      ∧ isHeld y.cond { code := .splitView, source := 0 } = decide (3 ≤ x.engine.splitCount))
  ∧ ∀ x : Station,
      (x.bus.held.roundClass = .split → x.countSplit.engine.splitCount = min 3 (x.engine.splitCount + 1))
        ∧ (x.bus.held.roundClass = .agreed → x.countSplit.engine.splitCount = 0)
        ∧ (x.bus.held.roundClass ≠ .split → x.bus.held.roundClass ≠ .agreed →
            x.countSplit.engine.splitCount = x.engine.splitCount)

/-! ## The peer table -/

/-- O30. A record whose absent rounds count has reached 3 becomes ABSENT with its values, keeping its roster role and
exclusions, and its conditions end; PEER_LOST is raised, unless it was EXCLUDED (R82). A SUSPECT record becomes PRESENT when
its recover count reaches 32; a clean round counts, any other sets the count to 0 (R97); a PRESENT record with a cause
becomes SUSPECT, and PEER_SUSPECT is raised (R96). As commands of their own: log 3. -/
def Obligations.PeerRecordsMoveAtTheirCounts : Prop :=
  (∀ (x : Station) (q : List Instr) (k : StationNo),
    let r := x.peers.get k
    let gone := x.peers.set k { PeerRecord.reset r.rosterRole with exclusions := r.exclusions }
    let ended := removeCond (removeCond x.cond { code := .roleMismatch, source := k.val })
      { code := .configDiffers, source := k.val }
    (k ≠ x.number → 3 ≤ r.absentRounds → r.state = .joining ∨ r.state = .present ∨ r.state = .suspect →
      exec (.peerLost k) ⟨x, q⟩ =
        .next ⟨{ x with peers := gone, cond := raiseEvent ended { code := .peerLost, source := k.val } 1 }, q⟩)
    ∧ (k ≠ x.number → 3 ≤ r.absentRounds → r.state = .excluded →
      exec (.peerLost k) ⟨x, q⟩ = .next ⟨{ x with peers := gone, cond := ended }, q⟩)
    ∧ (k = x.number ∨ r.absentRounds < 3 → exec (.peerLost k) ⟨x, q⟩ = .next ⟨x, q⟩))
  ∧ ∀ (x : Station) (q : List Instr) (k : StationNo),
    let r := x.peers.get k
    (r.state = .suspect → 32 ≤ r.recover →
      exec (.suspectRecovery k) ⟨x, q⟩ =
        .next ⟨{ x with peers := x.peers.set k { r with state := .present, recover := 0 } }, q⟩)
    ∧ (r.state ≠ .suspect ∨ r.recover < 32 → exec (.suspectRecovery k) ⟨x, q⟩ = .next ⟨x, q⟩)
    ∧ (r.state = .suspect → r.recover < 31 → x.wasReceived k = true → x.suspectCause k = false →
      x.judgeRecord k = { x with peers := x.peers.set k { r with recover := r.recover + 1 } })
    ∧ (r.state = .suspect → x.wasReceived k = false ∨ x.suspectCause k = true →
      x.judgeRecord k = { x with peers := x.peers.set k { r with recover := 0 } })
    ∧ (r.state = .present → x.suspectCause k = true →
      x.judgeRecord k =
        { x with
          peers := x.peers.set k { r with state := .suspect, recover := 0 }
          cond := raiseEvent x.cond { code := .peerSuspect, source := k.val } 1 })

/-- O31. The vote (R98): a number is among the exclusions exactly when its record is not EXCLUDED, its votes are at least
VOTE_MIN and twice its votes exceed its eligible voters: the other stations whose frames were RECEIVED, PRESENT or SUSPECT,
or the own number in the member set. -/
def Obligations.VoteNamesTheExclusions : Prop :=
  ∀ (x : Station) (p : StationNo),
    let received : StationNo → Option Report := fun v =>
      match x.bus.round.slots.get v with
      | some (.received f) => some f
      | some .silent | some .garbled | none => none
    let voters := allStations.filter fun v =>
      decide (v ≠ p) && (received v).isSome &&
        (if v = x.number then inSet (memberSet x.bus.held) v
         else (x.peers.get v).state = .present || (x.peers.get v).state = .suspect)
    let votes := voters.filter fun v => (received v).any fun f => inSet f.suspects p
    inSet x.exclusions p = true ↔
      (x.peers.get p).state ≠ .excluded ∧ x.params.shared.voteMin ≤ votes.length ∧ voters.length < 2 * votes.length

/-! ## Reports -/

/-- O32. The own frame is fixed at the own slot start from what the sources hold (R40), the pins read until then (log 2):
number, seq, digest, state and role (R41); the own lean and its rate on lean roles, the secondary value of the role where its
channel is mapped and normal (log 15), the own wheel speed (R42); the demand of the steer roles and the effort of the drive
roles (R43); the run state (R44); the kept proposals and the suspects (R45); the two views (R46); the responses by the first
case of R149 that applies (KEEP: log 42, and under the keep-authority flag of the step of a RUNNING, SUSPENDED or FROZEN
engine, R138; DRV_FLT as sampled: log 35); the flags, and the head of the queue, 0 with an empty one (R47). It is compared
bit by bit: with every bit read as driven nothing is raised; at the first that differs TX_CLASH follows, source 0 for a
recessive bit read dominant and 1 for the other way (R17, R18). Taken at the slot start: log 2; raised with the sending: log
25. TXD follows the frame bit by bit, dominant for a 0, at the 247 positions of the own slot, and is released after the first
mismatch, in an abandoned round, and at every other position from 80 on but for a mark (R3, R17, R18, R21). -/
def Obligations.OwnFrameIsCompared : Prop :=
  (∀ (x : Station) (q : List Instr) (readBack : BitVec 247),
    isDriving x.member.state = true → x.bus.round.recognised = true → x.bus.round.abandoned = false →
    x.bus.round.ownSlot = .notBegun → x.bus.position ≤ 100 + 256 * x.number.val →
    let t := x.reach (100 + 256 * x.number.val)
    let report := t.buildReport
    let frame := encodeReport report
    let sent : Option Nat → Station := fun mismatch =>
      { t with
        bus := { t.bus with round := { x.bus.round with ownSlot := .sending frame report mismatch } }
        cond := { t.cond with dropped := false } }
    let role := x.params.role
    let snap := x.meas.snapshot
    let fit : Quantity → Option Int := fun quantity =>
      match allStations.find? fun c => decide ((x.params.own.channels.get c).quantity = quantity) with
      | some c => if (x.meas.monitors.get c).state = .normal then snap.channels.get c else none
      | none => none
    let secondary : Option Int :=
      if isSteerRole role then fit .steerAngle
      else if role = .frame then fit .frameRoll
      else if role = .speed then fit .brake
      else if isTiltRole role then fit .supply
      else none
    let shows : View → GroupRecord → Prop := fun view r =>
      (∀ k : StationNo, inSet view.holders k = true ↔ ∃ h ∈ r.holders, h.station = k) ∧ view.epoch = r.epoch
        ∧ (r.transaction = none → view.stage = 0 ∧ view.rampCount = 0)
        ∧ (∀ a, r.transaction = some a → a.stage = .answer → view.stage = 1 ∧ view.rampCount = 0)
        ∧ (∀ a, r.transaction = some a → a.stage = .prepare → view.stage = 2 ∧ view.rampCount = 0)
        ∧ (∀ a, r.transaction = some a → a.stage = .ramp → view.stage = 3 ∧ view.rampCount = a.rampCount)
    let level : Nat :=
      ((t.cond.table.filter fun e =>
        !(e.key.code = .tiltSole || e.key.code = .tiltVacant || e.key.code = .steerVacant)).map (·.level)).foldl max 0
    let answers : Nat → Group → Prop := fun code g =>
      let r := x.auth.group g
      let holds : Prop := ∃ h ∈ r.holders, h.station = x.number
      let claims : Prop := ∃ a, r.transaction = some a ∧ a.claimant = x.number
      let stage : Stage → Prop := fun w => ∃ a, r.transaction = some a ∧ a.stage = w
      let releases : Prop :=
        (holds ∨ claims) ∧ (t.drive.fltSeen = true ∨ t.member.state = .halted ∨ level = 3)
      let keepsAuthority : Prop :=
        (x.engine.run.engine = .running ∨ x.engine.run.engine = .suspended ∨ x.engine.run.engine = .frozen)
          ∧ (stepAt x.params.shared x.engine.run.step).keepAuthority = true
      let keeps : Prop := keepsAuthority ∨ 2 ≤ level ∨ x.bus.held.mode = .lock
      let measures : Prop :=
        (g = .tilt → x.meas.latest.leanSource = .leanA ∨ x.meas.latest.leanSource = .leanB)
          ∧ (g = .steer → ∃ c,
              (allStations.find? fun c => decide ((x.params.own.channels.get c).quantity = .steerTorque)) = some c
                ∧ (x.meas.monitors.get c).state = .normal)
      (x.auth.live = false → code = 0)
        ∧ (x.auth.live = true → releases → code = 4)
        ∧ (x.auth.live = true → ¬releases → stage .answer → holds → keeps → code = 3)
        ∧ (x.auth.live = true → ¬releases → stage .answer → holds → ¬keeps → code = 2)
        ∧ (x.auth.live = true → ¬releases → stage .prepare → claims → t.drive.fltSeen = false → level ≤ 1 → measures →
            code = 1)
        ∧ (x.auth.live = true → ¬releases → ¬(stage .answer ∧ holds) →
            ¬(stage .prepare ∧ claims ∧ t.drive.fltSeen = false ∧ level ≤ 1 ∧ measures) → code = 0)
    report.station = x.number.val ∧ report.seq = x.bus.nextSeq ∧ report.digest = x.loader.digest
      ∧ report.state = (if t.member.state = .join then 1 else if t.member.state = .member then 2 else 3)
      ∧ report.role = roleCode role
      ∧ report.lean = (if isLeanRole role then snap.ownLean.getD (-512) else -512)
      ∧ report.leanRate = (if isLeanRole role then saturate (-2047) 2047 snap.leanRate else 0)
      ∧ report.secondary = (match secondary with | some v => saturate (-2047) 2047 v | none => -2048)
      ∧ report.speed = snap.ownSpeed.getD 4095
      ∧ report.demand =
          (if isSteerRole role then (match secondary with | some v => saturate (-360) 360 v | none => -512) else 0)
      ∧ report.effort = (if isDriveRole role then t.drive.applied else 0)
      ∧ report.traj.pending = modeCode7 x.engine.run.pending
      ∧ (x.engine.run.engine = .idle →
          report.traj.mode = 7 ∧ report.traj.step = 0 ∧ report.traj.repeatLeft = 0 ∧ report.traj.elapsed = 0
            ∧ report.traj.setpoint = 0)
      ∧ (x.engine.run.engine ≠ .idle →
          report.traj.mode = modeCode7 x.engine.run.mode ∧ report.traj.step = x.engine.run.step
            ∧ report.traj.repeatLeft = x.engine.run.repeatLeft ∧ report.traj.elapsed = x.engine.run.elapsed
            ∧ report.traj.setpoint = x.engine.run.setpoint)
      ∧ report.propMode = x.bus.keptMode ∧ report.propLimit = x.bus.keptLimit ∧ report.propFault = x.bus.keptFault
      ∧ (∀ k : StationNo, inSet report.suspects k = decide ((x.peers.get k).state = .suspect))
      ∧ shows report.tiltView x.auth.tilt ∧ shows report.steerView x.auth.steer
      ∧ answers report.tiltResponse .tilt ∧ answers report.steerResponse .steer
      ∧ report.staleScan = x.meas.stale ∧ report.calDone = x.meas.cal.done ∧ report.overflow = t.cond.overflow
      ∧ (t.cond.queue = [] → report.condCode = 0 ∧ report.condSource = 0 ∧ report.condCount = 0)
      ∧ (∀ r rest, t.cond.queue = r :: rest →
          report.condCode = condNumber r.key.code ∧ report.condSource = r.key.source ∧ report.condCount = r.count)
      ∧ (readBack = frame → exec (.ownReportSend readBack) ⟨x, q⟩ = .next ⟨sent none, q⟩)
      ∧ (∀ i, i < 247 → frame.getMsbD i ≠ readBack.getMsbD i →
          (∀ j, j < i → frame.getMsbD j = readBack.getMsbD j) →
          exec (.ownReportSend readBack) ⟨x, q⟩ =
            .next ⟨{ sent (some i) with
              cond := raiseEvent { t.cond with dropped := false }
                { code := .txClash, source := if frame.getMsbD i then 0 else 1 } 1 }, q⟩))
  ∧ ∀ (x : Station) (read : BitVec 70),
    isDriving x.member.state = true → (∀ m, x.bus.mark = some m → 8 ≤ m.age) → 80 ≤ x.bus.position →
    ((x.bus.round.abandoned = true ∨ x.bus.round.ownSlot = .notBegun ∨ x.bus.round.ownSlot = .ended) →
      x.txdDominant read = false)
    ∧ ∀ (frame : BitVec 247) (report : Report) (mismatch : Option Nat),
      x.bus.round.ownSlot = .sending frame report mismatch → x.bus.round.abandoned = false →
      (x.txdDominant read = true ↔
        ∃ i, i < 247 ∧ x.bus.position = 100 + 256 * x.number.val + i ∧ frame.getMsbD i = false
          ∧ ∀ j, mismatch = some j → i ≤ j)

/-- O33. The end of the own slot (R47, R49 to R51, R55, R178): next seq is inverted; a clean frame is RECEIVED, absorbed
(R54: O34), told to the Condition Unit, whose queue's head loses the count sent and leaves at 0 and whose overflow flag is
cleared when it was sent set and no raise was dropped since, and sets the clash count to 0; a clashed one is GARBLED and
counts; a frame cut by an abandonment is neither, leaves the clash count as it stands and tells no one (R18, R21). A count of 3
moves a driving station to SILENT (R50, R75): one silencing, the hold begun, whatever was driven and the
pending record gone, the drive OFF, a pass ended; the held outcome set, the peer and authority tables and the engine stay
(R142, R184). TXD keeps its level to the end of the bit time and is released at the next one (R3); at the end of the slot
nothing is driven but for a mark. The scan count of the ended pass: log 57. That a scan in progress ends without a result is
the model's: log 13. Taken at the slot end, the pins read until then: log 2. CLASH_SILENCE as a command of its own: log 3. -/
def Obligations.OwnSlotEndCountsClashes : Prop :=
  (∀ (x : Station) (q : List Instr) (frame : BitVec 247) (report : Report) (mismatch : Option Nat),
    let last := 100 + 256 * x.number.val + 255
    let t := x.reach last
    let told : ConditionUnit :=
      { t.cond with
        queue :=
          match t.cond.queue with
          | [] => []
          | r :: rest =>
            if report.condCount = 0 then r :: rest
            else if r.count ≤ report.condCount then rest
            else { r with count := r.count - report.condCount } :: rest
        overflow := t.cond.overflow && !(report.overflow && !t.cond.dropped) }
    x.bus.round.ownSlot = .sending frame report mismatch → x.bus.position ≤ last →
    (x.bus.round.abandoned = true →
      exec .ownSlotEnd ⟨x, q⟩ =
        .next ⟨{ t with
          bus := { t.bus with nextSeq := !x.bus.nextSeq, round := { x.bus.round with ownSlot := .ended } } }, q⟩)
    ∧ (mismatch = none → x.bus.round.abandoned = false →
      exec .ownSlotEnd ⟨x, q⟩ =
        .next ⟨{ t with
          bus :=
            { t.bus with
              clashCount := 0, nextSeq := !x.bus.nextSeq
              signature := absorb x.bus.signature (true :: true :: bitsOf 247 frame.toNat)
              round :=
                { x.bus.round with
                  ownSlot := .ended, slots := x.bus.round.slots.set x.number (some (.received report)) } }
          cond := told }, q⟩)
    ∧ (mismatch.isSome = true → x.bus.round.abandoned = false → x.bus.clashCount < 2 →
      exec .ownSlotEnd ⟨x, q⟩ =
        .next ⟨{ t with
          bus :=
            { t.bus with
              clashCount := x.bus.clashCount + 1, nextSeq := !x.bus.nextSeq
              signature := absorb x.bus.signature [true, false]
              round :=
                { x.bus.round with
                  ownSlot := .ended, slots := x.bus.round.slots.set x.number (some .garbled) } } }, q⟩)
    ∧ (mismatch.isSome = true → x.bus.round.abandoned = false → 2 ≤ x.bus.clashCount → isDriving x.member.state = true →
      ∃ y : Station, exec .ownSlotEnd ⟨x, q⟩ = .next ⟨y, q⟩ ∧ y.member.state = .silent
        ∧ y.member.silencings = min 4 (x.member.silencings + 1) ∧ y.drive.output = .off
        ∧ ((∀ m, t.bus.mark = some m → 8 ≤ m.age) → ∀ read : BitVec 70, y.txdDominant read = false)))
  ∧ ∀ (x : Station) (q : List Instr), isDriving x.member.state = true → 3 ≤ x.bus.clashCount →
    ∃ y : Station, exec .clashSilence ⟨x, q⟩ = .next ⟨y, q⟩
      ∧ y.member = { x.member with
          state := .silent, silencings := min 4 (x.member.silencings + 1), silentHold := 0 }
      ∧ y.bus = { x.bus with
          candidate := none, mark := none, cutBit := y.bus.cutBit, round := RoundState.none, pendingRecord := none }
      ∧ (80 ≤ x.bus.position → ∀ read : BitVec 70, y.txdDominant read = x.txdDominant read)
      ∧ (∃ z : Station, step ⟨y, []⟩ = .next ⟨z, []⟩ ∧ ∀ read : BitVec 70, z.txdDominant read = false)
      ∧ y.drive = { x.drive with
          output := .off, lockRamp := 0, release := 0, effort := 0, applied := 0, pwm := 0, lrel := false }
      ∧ y.meas = { x.meas with
          scan := none, cal := { x.meas.cal with scans := 0, pSums := Eight.fill 0, nSums := Eight.fill 0 } }
      ∧ y.cond = removeCond x.cond { code := .configDiffers, source := 8 }
      ∧ y.pins = x.pins ∧ y.loader = x.loader ∧ y.params = x.params ∧ y.peers = x.peers ∧ y.engine = x.engine
      ∧ y.auth = x.auth

/-- O34. The class of another station's slot (R51, R55): SILENT without activity, RECEIVED with its fields when the check and
the station field fit, GARBLED otherwise; marker and, for RECEIVED, the frame are absorbed. Taken at the slot end, the pins
read until then: log 2. The frame of a report (R39, R48): its fields stand at the bits of Table 14-2, most significant bit
first and signed ones in two's complement, and bits 231 to 246 are the check over bits 0 to 230, stage 15 first; a receiver
finds that check equal, and reads from the frame the report itself, when its fields are in range. The check register begins
with ones and inverts stages 0, 2 and 15 on a feedback of 1 (R48), the signature register stages 0, 11, 13 and 14 (R54). The
readings of the fields that have a value for not available (Table 4-2). -/
def Obligations.SlotIsClassed : Prop :=
  (∀ (x : Station) (q : List Instr) (k : StationNo) (sampled : BitVec 247),
    takesPart x.member.state = true → x.bus.round.recognised = true → x.bus.round.abandoned = false →
    x.bus.round.slots.get k = none → k ≠ x.number ∨ x.member.state = .quiet →
    x.bus.position ≤ 100 + 256 * k.val + 255 →
    let t := x.reach (100 + 256 * k.val + 255)
    let classed : SlotClass → List Bool → Station := fun c bits =>
      { t with
        bus :=
          { t.bus with
            signature := absorb x.bus.signature bits
            round := { x.bus.round with slots := x.bus.round.slots.set k (some c) } } }
    (k = x.number ∨ x.bus.round.activity.get k = false →
      exec (.slotEnd k sampled) ⟨x, q⟩ = .next ⟨classed .silent [false, false], q⟩)
    ∧ (k ≠ x.number → x.bus.round.activity.get k = true →
        checkHolds sampled = true → fieldOf 247 sampled.toNat 0 3 = k.val →
      exec (.slotEnd k sampled) ⟨x, q⟩ =
        .next ⟨classed (.received (decodeReport sampled)) (true :: true :: bitsOf 247 sampled.toNat), q⟩)
    ∧ (k ≠ x.number → x.bus.round.activity.get k = true →
        (checkHolds sampled = false ∨ fieldOf 247 sampled.toNat 0 3 ≠ k.val) →
      exec (.slotEnd k sampled) ⟨x, q⟩ = .next ⟨classed .garbled [true, false], q⟩))
  ∧ (∀ r : Report,
    let frame := encodeReport r
    let holds : Nat → Nat → Nat → Prop := fun first width n =>
      ∀ i, i < width → frame.getMsbD (first + i) = n.testBit (width - 1 - i)
    let signed : Nat → Nat → Int → Prop := fun first width n =>
      ∀ i, i < width → frame.getMsbD (first + i) = (BitVec.ofInt width n).getMsbD i
    let view : Nat → View → Prop := fun first v =>
      holds first 8 v.holders.toNat ∧ holds (first + 8) 3 v.stage ∧ holds (first + 11) 7 v.rampCount
        ∧ holds (first + 18) 8 v.epoch.toNat
    let below : Nat → Nat → Prop := fun width n => n < 2 ^ width
    let fits : Nat → Int → Prop := fun half n => -(half : Int) ≤ n ∧ n < half
    let inRange : Prop :=
      below 3 r.station ∧ below 3 r.state ∧ below 3 r.role ∧ fits 512 r.lean ∧ fits 2048 r.leanRate ∧ fits 2048 r.secondary
        ∧ below 12 r.speed ∧ fits 512 r.demand ∧ fits 1024 r.effort ∧ below 3 r.traj.mode ∧ below 5 r.traj.step
        ∧ below 4 r.traj.repeatLeft ∧ below 16 r.traj.elapsed ∧ fits 512 r.traj.setpoint ∧ below 3 r.traj.pending
        ∧ below 3 r.propMode ∧ below 9 r.propLimit ∧ below 2 r.propFault ∧ below 3 r.tiltView.stage
        ∧ below 7 r.tiltView.rampCount ∧ below 3 r.steerView.stage ∧ below 7 r.steerView.rampCount
        ∧ below 3 r.tiltResponse ∧ below 3 r.steerResponse ∧ below 6 r.condCode ∧ below 4 r.condSource
        ∧ below 4 r.condCount
    holds 0 3 r.station ∧ holds 3 1 r.seq.toNat ∧ holds 4 3 r.state ∧ holds 7 3 r.role ∧ holds 10 16 r.digest.toNat
      ∧ signed 26 10 r.lean ∧ signed 36 12 r.leanRate ∧ signed 48 12 r.secondary ∧ holds 60 12 r.speed
      ∧ signed 72 10 r.demand ∧ signed 82 11 r.effort
      ∧ holds 93 3 r.traj.mode ∧ holds 96 5 r.traj.step ∧ holds 101 4 r.traj.repeatLeft ∧ holds 105 16 r.traj.elapsed
      ∧ signed 121 10 r.traj.setpoint ∧ holds 131 3 r.traj.pending
      ∧ holds 134 3 r.propMode ∧ holds 137 9 r.propLimit ∧ holds 146 2 r.propFault ∧ holds 148 8 r.suspects.toNat
      ∧ view 156 r.tiltView ∧ view 182 r.steerView ∧ holds 208 3 r.tiltResponse ∧ holds 211 3 r.steerResponse
      ∧ holds 214 1 r.staleScan.toNat ∧ holds 215 1 r.calDone.toNat ∧ holds 216 6 r.condCode ∧ holds 222 4 r.condSource
      ∧ holds 226 4 r.condCount ∧ holds 230 1 r.overflow.toNat
      ∧ holds 231 16 (checkOf ((List.range 231).map fun i => frame.getMsbD i)).toNat
      ∧ checkHolds frame = true ∧ (inRange → decodeReport frame = r))
  ∧ (∀ (frame : BitVec 247),
    checkHolds frame = true ↔
      ∀ i, i < 16 →
        frame.getMsbD (231 + i) = (checkOf ((List.range 231).map fun j => frame.getMsbD j)).getLsbD (15 - i))
  ∧ (∀ (bits : List Bool) (b : Bool) (start : Word16) (i : Nat), i < 16 →
    let stepped : Word16 → List Nat → Bool := fun r inverted =>
      ((0 < i && r.getLsbD (i - 1)) != ((b != r.getLsbD 15) && decide (i ∈ inverted)))
    checkOf [] = 0xFFFF#16 ∧ absorb start [] = start
      ∧ (checkOf (bits ++ [b])).getLsbD i = stepped (checkOf bits) [0, 2, 15]
      ∧ (absorb start (bits ++ [b])).getLsbD i = stepped (absorb start bits) [0, 11, 13, 14])
  ∧ (∀ width n : Nat, bitsOf width n = (List.range width).map fun i => n.testBit (width - 1 - i))
  ∧ ∀ f : Report,
    readLean f = (if -360 ≤ f.lean ∧ f.lean ≤ 360 then some f.lean else none)
      ∧ readDemand f = (if -360 ≤ f.demand ∧ f.demand ≤ 360 then some f.demand else none)
      ∧ readSpeed f = (if f.speed = 4095 then none else some f.speed)
      ∧ readSecondary f = (if f.secondary = -2048 then none else some f.secondary)

/-- O35. A recognised round that is not abandoned hands on its results at position 2147: the signature completed and held, a
record with the round's tag, the vote's exclusions over this round's reports, the responses that the RECEIVED reports carry
and "not heard" for the other slots (R52, R53, R56, R57). In JOIN and QUIET without an adopted state the record has an
adoption entry from the lowest-numbered station of the member set that was RECEIVED, when its view shows no open transaction
and is proper (R58, R79); its demand is written in at the apply point (R120). Every record of the peer table but the own one
(log 48; a refused one is left out: log 17) takes the report, the missed and stale counts (log 18), the presence, the checks
of role, digest and trajectory, the three cross-checks against the own value or the reference, and the suspicion, as R85 to
R97 state; the reference is the median of three or more values (R95; the roles of the peers: log 16; a speed from a station
of role TILT_L, TILT_R or SPEED, whatever the own role: log 52). The digest absorbed at the end is that of R56: both epochs,
the excluded set, the running mode and the step index (absorb and bitsOf: O34). A station in JOIN takes the digest verdict
(R68) and keeps the speeds heard (R112; log 32); in JOIN and QUIET the match count follows the comparison with the member
reports (R69, R79; log 36; a refusal that stands in MEMBER is not taken: log 61). A section with a slot not classed hands
nothing on (log 29), and no more does one of an abandoned round, a markless one among them: in JOIN and QUIET the match count
is 0 then (R21, R53, R69). Taken at 2147, the pins read until then: log 2. -/
def Obligations.SectionHandsOn : Prop :=
  (∀ (x : Station) (q : List Instr),
    takesPart x.member.state = true → x.bus.round.recognised = true → x.bus.round.abandoned = false →
    x.bus.round.sectionDone = false → x.bus.position ≤ 2147 →
    let t := x.reach 2147
    let sh := x.params.shared
    let read : Nat → Response := fun code =>
      if code = 1 then .ready else if code = 2 then .give else if code = 3 then .keep else if code = 4 then .release
      else .none
    let seeks : Prop := (x.member.state = .join ∨ x.member.state = .quiet) ∧ x.engine.run.adopted = false
    let received : StationNo → Report → Prop := fun k f => x.bus.round.slots.get k = some (.received f)
    let member : StationNo → Prop := fun k => inSet (memberSet x.bus.held) k = true
    let candidate : StationNo → Prop := fun k => member k ∧ ∃ f, received k f
    let settled : Report → Prop := fun f =>
      f.tiltView.stage = 0 ∧ f.steerView.stage = 0 ∧ setSize f.tiltView.holders ≤ 2 ∧ setSize f.steerView.holders ≤ 1
    let told : ConditionUnit → CondCode → Nat → Prop := fun c code source =>
      (∃ r ∈ c.queue, r.key = { code := code, source := source }) ∨ c.overflow = true
    ∃ y : Station, exec .reportSectionEnd ⟨x, q⟩ = .next ⟨y, q⟩
      ∧ y.bus.position = 2147 ∧ y.bus.round = { x.bus.round with sectionDone := true }
      ∧ y.bus.held = x.bus.held ∧ y.bus.nextSeq = x.bus.nextSeq ∧ y.member.state = t.member.state
      ∧ y.pins = x.pins ∧ y.loader = x.loader ∧ y.params = x.params ∧ y.engine = x.engine ∧ y.auth = x.auth
      ∧ y.drive = t.drive
      ∧ ((∀ k : StationNo, (x.bus.round.slots.get k).isSome = true) →
          (∃ r, y.bus.pendingRecord = some r ∧ r.tag = x.bus.roundNumber ∧ r.exclusions = y.exclusions
            ∧ (∀ k f, received k f → r.responses.get k = some (read f.tiltResponse, read f.steerResponse))
            ∧ (∀ k, (∀ f, ¬received k f) → r.responses.get k = none)
            ∧ (∀ k f, seeks → candidate k → (∀ j, j < k → ¬candidate j) → received k f →
                (settled f →
                  ∃ demand : Int, r.adoption =
                    some { source := k, traj := f.traj, tiltHolders := f.tiltView.holders
                           tiltEpoch := f.tiltView.epoch, steerHolders := f.steerView.holders
                           steerEpoch := f.steerView.epoch, roundClass := x.bus.held.roundClass
                           mode := x.bus.held.mode, limit := x.bus.held.limit, advance := x.bus.held.advance
                           demand := demand })
                ∧ (¬settled f → r.adoption = none))
            ∧ (¬seeks ∨ (∀ k, ¬candidate k) → r.adoption = none))
          ∧ y.bus.ownSig = some y.bus.signature ∧ y.bus.lastSection = some x.bus.roundNumber
          ∧ (∀ excluded : StationSet,
              (∀ k : StationNo, inSet excluded k = decide ((x.peers.get k).state = .excluded)) →
              let idle := x.engine.run.engine = .idle
              y.bus.signature =
                absorb x.bus.signature
                  (bitsOf 8 x.auth.tilt.epoch.toNat ++ bitsOf 8 x.auth.steer.epoch.toNat ++ bitsOf 8 excluded.toNat
                    ++ bitsOf 3 (if idle then 7 else modeCode7 x.engine.run.mode)
                    ++ bitsOf 5 (if idle then 0 else x.engine.run.step)))
          -- the peer table (R85 to R97)
          ∧ (∀ k : StationNo, k ≠ x.number →
              let r := x.peers.get k
              let z := y.peers.get k
              let refused : Prop := sh.rejoinMax < r.exclusions
              let unheard : Prop := ∀ f, ¬received k f
              let bit : Prop := inSet x.bus.held.members k = true
              let judged : Prop := r.state = .present ∨ r.state = .suspect
              let appears : Prop :=
                (r.state = .joining ∨ (r.state = .absent ∧ ¬refused)) ∧ member k ∧ ¬unheard
              let roleDiffers : Prop := ∃ f, received k f ∧ (f.role = 0 ∨ f.role ≠ roleCode r.rosterRole)
              let digestDiffers : Prop := ∃ f, received k f ∧ f.digest ≠ x.loader.digest
              let compares : Prop :=
                t.member.state = .member ∨ t.member.state = .halted ∨ (t.member.state = .quiet ∧ x.member.quietCompares = true)
              let trajDiffers : Prop := ∃ f, received k f ∧ compares ∧ member k ∧ f.traj ≠ x.engine.run.fields
              let cause : Prop :=
                2 ≤ z.missed ∨ 2 ≤ z.stale ∨ sh.leanFilter ≤ z.leanDisagree ∨ sh.speedFilter ≤ z.speedDisagree
                  ∨ sh.steerFilter ≤ z.steerDisagree ∨ roleDiffers ∨ digestDiffers ∨ trajDiffers
              let counts : Nat → Nat → Option Int → Option Int → (Int → Int → Prop) → Prop :=
                fun before after base value disagrees =>
                  ((base = none ∨ value = none ∨ ¬(judged ∨ appears)) → after = before)
                    ∧ ∀ a b, base = some a → value = some b → judged ∨ appears →
                      (disagrees a b → after = min 15 (before + 1)) ∧ (¬disagrees a b → after = 0)
              -- the report (R81, R85)
              (∀ f, received k f → ¬refused → z.lastReport = some f ∧ z.lastHeard = some x.bus.roundNumber)
              ∧ (∀ f, received k f → refused → z.lastReport = r.lastReport ∧ z.lastHeard = r.lastHeard)
              ∧ (unheard → judged → z.missed = 15 → z.lastReport = none ∧ z.lastHeard = none)
              ∧ (unheard → ¬judged ∨ z.missed ≠ 15 → z.lastReport = r.lastReport ∧ z.lastHeard = r.lastHeard)
              -- missed and seq (R86, R87)
              ∧ (judged → ¬unheard → z.missed = 0)
              ∧ (judged → unheard → bit → z.missed = min 15 (r.missed + 1))
              ∧ (¬judged ∨ (unheard ∧ ¬bit) → z.missed = r.missed)
              ∧ (r.state = .excluded → z.expectedSeq = r.expectedSeq ∧ z.stale = r.stale)
              ∧ (r.state ≠ .excluded →
                (∀ f, received k f → z.expectedSeq = some (!f.seq))
                ∧ (unheard → bit → z.expectedSeq = r.expectedSeq.map not)
                ∧ (unheard → ¬bit → z.expectedSeq = r.expectedSeq)
                ∧ (unheard → z.stale = r.stale)
                ∧ (∀ f, received k f → r.expectedSeq = none → z.stale = r.stale)
                ∧ (∀ f e, received k f → r.expectedSeq = some e →
                    (judged → f.seq = e → z.stale = 0) ∧ (judged → f.seq ≠ e → z.stale = min 15 (r.stale + 1))
                      ∧ (¬judged → z.stale = 0)))
              -- the cross-checks (R91 to R95)
              ∧ counts r.leanDisagree z.leanDisagree y.leanBase (y.leanOf k) (fun a b => sh.leanBand < (a - b).natAbs)
              ∧ counts r.speedDisagree z.speedDisagree y.speedBase (y.speedOf k)
                  (fun a b => sh.speedBand + (max a b).toNat / 8 < (a - b).natAbs)
              ∧ counts r.steerDisagree z.steerDisagree y.steerBase (y.steerOf k)
                  (fun a b => sh.steerBand < (a - b).natAbs)
              -- presence and suspicion (R88, R96, R97)
              ∧ (¬judged → ¬appears → z.state = r.state ∧ z.recover = r.recover)
              ∧ (r.state = .present ∨ appears → cause → z.state = .suspect ∧ z.recover = 0 ∧ told y.cond .peerSuspect k.val)
              ∧ (r.state = .present ∨ appears → ¬cause → z.state = .present ∧ z.recover = r.recover)
              ∧ (r.state = .suspect → unheard ∨ cause → z.state = .suspect ∧ z.recover = 0)
              ∧ (r.state = .suspect → ¬unheard → ¬cause → 31 ≤ r.recover → z.state = .present ∧ z.recover = 0)
              ∧ (r.state = .suspect → ¬unheard → ¬cause → r.recover < 31 →
                  z.state = .suspect ∧ z.recover = r.recover + 1)
              ∧ z.rosterRole = r.rosterRole ∧ z.absentRounds = r.absentRounds ∧ z.exclusions = r.exclusions
              -- the conditions (R89, R90)
              ∧ (x.cond.tableSound → judged ∨ appears → ¬unheard →
                  (isHeld y.cond { code := .roleMismatch, source := k.val } = true ↔ roleDiffers)
                    ∧ (isHeld y.cond { code := .configDiffers, source := k.val } = true ↔ digestDiffers))
              ∧ (judged ∨ appears → trajDiffers → told y.cond .trajMismatch k.val))
          ∧ ((∀ f, ¬received x.number f) → y.peers.get x.number = x.peers.get x.number)
          ∧ (∀ f, received x.number f → x.params.shared.rejoinMax < (x.peers.get x.number).exclusions ∨
              y.peers.get x.number =
                { x.peers.get x.number with lastReport := some f, lastHeard := some x.bus.roundNumber })
          -- the digest verdict, the match count and the evidence (R68, R69, R79, R112)
          ∧ (let reports := allStations.filterMap fun k =>
               if inSet (memberSet x.bus.held) k then
                 match x.bus.round.slots.get k with
                 | some (.received f) => some f
                 | some .silent | some .garbled | none => none
               else none
             let same := reports.filter fun f => decide (f.digest = x.loader.digest)
             let differ : Prop := x.member.viewRefused = true ∨ ∃ f ∈ reports, f.traj ≠ x.engine.run.fields
             let count : Nat → Prop := fun n => y.member.matchCount = n
             (x.member.state = .join →
               (memberSet x.bus.held = 0 → y.member.verdict = .noMembers)
                 ∧ (memberSet x.bus.held ≠ 0 →
                     (reports.length < 2 * same.length → y.member.verdict = .met)
                       ∧ (2 * same.length ≤ reports.length → y.member.verdict = .failed))
                 ∧ (x.cond.tableSound →
                     isHeld y.cond { code := .configDiffers, source := 8 } = decide (y.member.verdict = .failed))
                 ∧ y.meas = { x.meas with
                     cal := { x.meas.cal with
                       heard := some (allStations.filterMap fun k =>
                         if k ≠ x.number ∧ inSet x.bus.held.members k = true then
                           match x.bus.round.slots.get k with
                           | some (.received f) => readSpeed f
                           | some .silent | some .garbled | none => none
                         else none) } })
             ∧ (x.member.state ≠ .join → y.member.verdict = x.member.verdict ∧ y.meas = x.meas)
             ∧ (x.member.state = .join ∨ x.member.state = .quiet →
               y.member.viewRefused = false
                 ∧ (x.engine.run.adopted = false → count 0 ∧ y.member.dropPending = x.member.dropPending)
                 ∧ (x.engine.run.adopted = true → differ → count 0 ∧ y.member.dropPending = true)
                 ∧ (x.engine.run.adopted = true → ¬differ → reports = [] →
                     count 0 ∧ y.member.dropPending = x.member.dropPending)
                 ∧ (x.engine.run.adopted = true → ¬differ → reports ≠ [] →
                     count (min 4 (x.member.matchCount + 1)) ∧ y.member.dropPending = x.member.dropPending))
             ∧ (x.member.state = .quiet →
               (x.engine.run.adopted = false ∨ differ → y.member.quietCompares = false)
                 ∧ (x.engine.run.adopted = true → ¬differ → reports = [] →
                     y.member.quietCompares = x.member.quietCompares)
                 ∧ (x.engine.run.adopted = true → ¬differ → reports ≠ [] →
                     y.member.quietCompares = (x.member.quietCompares || decide (y.member.matchCount = 4))))
             ∧ (x.member.state ≠ .join → x.member.state ≠ .quiet → y.member = t.member)))
      ∧ ((∃ k : StationNo, x.bus.round.slots.get k = none) →
          y.bus.ownSig = none ∧ y.bus.pendingRecord = x.bus.pendingRecord ∧ y.peers = x.peers ∧ y.cond = t.cond
            ∧ y.meas = x.meas
            ∧ y.member =
                { t.member with
                  matchCount :=
                    if x.member.state = .join ∨ x.member.state = .quiet then 0 else x.member.matchCount }))
  ∧ (∀ (x : Station) (q : List Instr),
    takesPart x.member.state = true → x.bus.round.abandoned = true → x.bus.round.sectionDone = false →
    x.bus.position ≤ 2147 →
    let t := x.reach 2147
    exec .reportSectionEnd ⟨x, q⟩ =
      .next ⟨{ t with
        bus := { t.bus with ownSig := none, round := { x.bus.round with sectionDone := true } }
        member :=
          { t.member with
            matchCount := if x.member.state = .join ∨ x.member.state = .quiet then 0 else x.member.matchCount } }, q⟩)
  ∧ (∀ x : Station,
      ((isLeanRole x.params.role = true ∧ (x.meas.snapshot.leanSource = .leanA ∨ x.meas.snapshot.leanSource = .leanB) →
          x.leanBase = x.meas.snapshot.ownLean)
        ∧ (¬(isLeanRole x.params.role = true ∧
              (x.meas.snapshot.leanSource = .leanA ∨ x.meas.snapshot.leanSource = .leanB)) →
            x.leanBase = reference (allStations.filterMap x.leanOf)))
      ∧ (∀ v, x.meas.snapshot.ownSpeed = some v → x.speedBase = some (v : Int))
      ∧ (x.meas.snapshot.ownSpeed = none → x.speedBase = reference (allStations.filterMap x.speedOf))
      ∧ x.steerBase =
          (match allStations.find? fun c => decide ((x.params.own.channels.get c).quantity = .steerAngle) with
            | some c => if (x.meas.monitors.get c).state = .normal then x.meas.snapshot.channels.get c else none
            | none => none)
      ∧ ∀ k : StationNo,
        let compared : Report → Prop := fun f =>
          k ≠ x.number ∧ ((x.peers.get k).state = .present ∨ (x.peers.get k).state = .suspect) ∧ x.meas.stale = false
            ∧ x.bus.round.slots.get k = some (.received f) ∧ f.staleScan = false
        let role := (x.peers.get k).rosterRole
        let pair : Prop := (x.params.role = .steer ∧ role = .steerB) ∨ (x.params.role = .steerB ∧ role = .steer)
        let leanRole : Prop := role = .tiltL ∨ role = .tiltR ∨ role = .frame
        let speedRole : Prop := role = .tiltL ∨ role = .tiltR ∨ role = .speed
        (∀ f, compared f →
          (leanRole → x.leanOf k = readLean f)
            ∧ (speedRole → x.speedOf k = (readSpeed f).map (fun v => (v : Int))) ∧ (pair → x.steerOf k = readSecondary f))
        ∧ ((∀ f, ¬compared f) → x.leanOf k = none ∧ x.speedOf k = none ∧ x.steerOf k = none)
        ∧ (¬leanRole → x.leanOf k = none) ∧ (¬speedRole → x.speedOf k = none) ∧ (¬pair → x.steerOf k = none))
  ∧ ∀ l : List Int,
      (l.length < 3 → reference l = none)
        ∧ ∀ m : List Int, m.Perm l → m.Pairwise (· ≤ ·) →
          (∀ n, l.length = 2 * n + 1 → 1 ≤ n → reference l = m[n]?)
            ∧ ∀ n a b, l.length = 2 * n + 2 → 1 ≤ n → m[n]? = some a → m[n + 1]? = some b →
              reference l = some ((a + b).tdiv 2)

/-! ## The apply point -/

/-- O36. At every apply point the work of each block is done once, in the order of the spec (R120, R163, R183). The demand is
the one of the source report of DEMAND_PRIMARY when it is usable or the own number, and else of DEMAND_SECONDARY under the
same test, or is held and then lost (R133, R134): DEMAND_LOST is held under the chosen source, or 8, and under no other,
while the hold count is above DEMAND_HOLD, and leaves with a source report (R134). The class of the round is the held one, or
abandoned where no handover was made or the round was abandoned (R120). The demand is written into the adoption entry of the
pending record, where there is one (R120). A drop of the adopted state clears the run state and the readiness count, and puts
the authority table at rest (R69, R141, R143). The setpoint is within the agreed LIMIT (R122). A live table makes one ramp
step of each group in an agreed round, forms the claim code, and then counts loss ages up and backoffs down (R146, R152); its
group conditions stand as R158 says (O28). A drive role in OFF leaves it in MEMBER with both inputs released, and not
otherwise; then lock stepping (O43), the law of the role (O44), slew and the effort limit of Table 10-1 (O45), the outputs,
and LREL where the release hold has run (R163 to R166, R168 to R170). The proposal record has the own fault level, the mode
as the least of mode cap, speed term, park term and halt term, the limit as the least of curve term, limit cap, max lean and
SOLE_LIMIT, the readiness of this apply point and the claim code (R146, R179 to R183); the limit curve runs straight between
its points (R182). APPLY_AT is at most 2480 in every good image (R190). Taken at APPLY_AT, the pins read until then: log 2;
the level of PARK_REQ: log 22; leaving OFF by the levels that stand and were seen: log 35; which peers count: log 16. -/
def Obligations.ApplyPointClampsAndProposes : Prop :=
  (∀ (x : Station) (q : List Instr) (parkReq : Bool),
    takesPart x.member.state = true → x.bus.round.opening ≠ .noRound → x.bus.round.applied = false →
    x.bus.position ≤ x.params.own.applyAt → x.params.own.applyAt ≤ 2480 →
    let t := x.reach x.params.own.applyAt
    let own := x.params.own
    let sh := x.params.shared
    let held := x.bus.held
    let usable : StationNo → Bool := fun k => (x.peers.get k).state = .present || (x.peers.get k).state = .suspect
    let chosen : Option StationNo :=
      if usable sh.demandPrimary = true ∨ sh.demandPrimary = x.number then some sh.demandPrimary
      else if usable sh.demandSecondary = true ∨ sh.demandSecondary = x.number then some sh.demandSecondary
      else none
    let heardNow : StationNo → Option Report := fun k =>
      if (x.peers.get k).lastHeard = some x.bus.roundNumber then (x.peers.get k).lastReport else none
    let ramped : Authority := if t.member.dropPending then Authority.atRest else t.rampStep.auth
    ∃ (y : Station) (p : Proposal), exec (.applyPoint parkReq) ⟨x, q⟩ = .next ⟨y, q⟩
      ∧ y.bus = { x.bus with
          position := own.applyAt, candidate := t.bus.candidate, mark := t.bus.mark, cutBit := t.bus.cutBit
          round := { x.bus.round with applied := true }, pendingRecord := y.bus.pendingRecord }
      -- the demand of stage 1 in the pending adoption entry (R120)
      ∧ (x.bus.pendingRecord = none → y.bus.pendingRecord = none)
      ∧ (∀ r, x.bus.pendingRecord = some r →
          (r.adoption = none → y.bus.pendingRecord = some r)
            ∧ ∀ a, r.adoption = some a →
              y.bus.pendingRecord = some { r with adoption := some { a with demand := y.engine.demand } })
      ∧ y.member = { t.member with dropPending := false }
      ∧ y.pins = { x.pins with parkReq := parkReq }
      ∧ y.loader = x.loader ∧ y.params = x.params ∧ y.peers = x.peers ∧ y.meas = x.meas
      -- the engine (R122, R133, R134, R141)
      ∧ y.engine.run.setpoint.natAbs ≤ held.limit
      ∧ (∀ d, (chosen.bind heardNow).bind readDemand = some d →
          y.engine.demand = d ∧ y.engine.lastDemand = d ∧ y.engine.holdCount = 0)
      ∧ ((chosen.bind heardNow).bind readDemand = none →
          let count := min (sh.demandHold + 1) (x.engine.holdCount + 1)
          y.engine.holdCount = count ∧ y.engine.lastDemand = x.engine.lastDemand
            ∧ y.engine.demand = if sh.demandHold < count then 0 else x.engine.lastDemand)
      ∧ (x.cond.tableSound → ∀ n : Nat, n ≤ 8 →
          let lost := isHeld y.cond { code := .demandLost, source := n }
          let above : Prop := sh.demandHold < min (sh.demandHold + 1) (x.engine.holdCount + 1)
          (((chosen.bind heardNow).bind readDemand).isSome = true → lost = false)
            ∧ ((chosen.bind heardNow).bind readDemand = none → above →
                lost = decide (n = match chosen with | some k => k.val | none => 8))
            ∧ ((chosen.bind heardNow).bind readDemand = none → ¬above →
                lost = isHeld x.cond { code := .demandLost, source := n }))
      ∧ (x.member.dropPending = true →
          y.engine.run = RunState.idle ∧ y.engine.readinessCount = 0 ∧ y.engine.ready = true
            ∧ y.auth = Authority.atRest)
      -- the authority table (R146, R152)
      ∧ (x.member.dropPending = false → x.auth.live = true → x.applyClass = .agreed → ∀ g : Group,
          ramped.group g = (t.commitGroup g (groupRamp g sh.rampRounds (x.auth.group g))).auth.group g
            ∧ ramped.retry g = (t.commitGroup g (groupRamp g sh.rampRounds (x.auth.group g))).auth.retry g)
      ∧ (x.member.dropPending = false → x.auth.live = false ∨ x.applyClass ≠ .agreed → ramped = x.auth)
      ∧ (ramped.live = false → y.auth = ramped)
      ∧ (ramped.live = true → y.auth.live = true ∧ ∀ g : Group,
          y.auth.group g = { ramped.group g with lossAge := min 64 ((ramped.group g).lossAge + 1) }
            ∧ y.auth.retry g = { ramped.retry g with backoff := (ramped.retry g).backoff - 1 })
      ∧ (y.auth.live = true → x.cond.tableSound → y.groupCondsStand)
      -- the drive (R163 to R166, R168 to R170)
      ∧ (let released : Prop :=
           t.member.state = .member ∧ x.pins.disable = false ∧ x.pins.drvFlt = false ∧ t.member.disableSeen = false
             ∧ t.drive.fltSeen = false
         let start : Drive := if t.drive.output = .off then { t.drive with output := .locked, lockRamp := 0 } else t.drive
         let stepped := start.stepLock sh (decide (x.applyClass = .agreed)) held.mode
         let limit : Nat :=
           match stepped.output with
           | .off | .locked => 0
           | .rampUp | .rampDown => own.effortMax * stepped.lockRamp / sh.lockRamp
           | .active => own.effortMax
         let target := ({ t with engine := y.engine, auth := y.auth } : Station).driveTarget
         let out := stepped.putOut own.dirInverted (slewAndLimit own.effortSlew limit target t.drive.effort)
         let hold : Bool :=
           decide (stepped.output = .active) && decide (sh.releaseHold ≤ stepped.release) && isTiltRole x.params.role
             && decide (t.member.state = .member) && decide (held.mode ≠ .lock)
         (isDriveRole x.params.role = false → y.drive = t.drive)
           ∧ (isDriveRole x.params.role = true → t.drive.output = .off → ¬released → y.drive = t.drive)
           ∧ (isDriveRole x.params.role = true → t.drive.output ≠ .off ∨ released →
               y.drive = { out with lrel := stepped.lrel || hold }))
      -- the proposal record (R146, R179 to R183)
      ∧ y.cond.proposal = some p ∧ p.fault = faultLevel y.cond ∧ p.ready = y.engine.ready
      ∧ (let level := max (faultLevel y.cond) held.fault
         let modeCap : Nat := if level = 0 then 4 else if level = 1 then 3 else if level = 2 then 2 else 0
         let limitCap : Nat :=
           if level = 0 then 360 else if level = 1 then sh.cautionLimit else if level = 2 then sh.walkLimit else 0
         let above : Nat → Nat → Nat := fun margin v =>
           if sh.vGuided + margin ≤ v then 4 else if sh.vWalk + margin ≤ v then 3 else if 1 + margin ≤ v then 2 else 1
         let before := modeCode t.cond.speedMode
         let speed := x.meas.latest.ownSpeed
         let source : Option Nat :=
           (chosen.bind heardNow).bind fun f => if (readDemand f).isSome then readSpeed f else none
         let peers : List Nat :=
           allStations.filterMap fun k =>
             if k ≠ x.number ∧ usable k = true then (heardNow k).bind readSpeed else none
         let parkSpeed : Option Nat :=
           match speed, source with
           | some v, _ => some v
           | none, some v => some v
           | none, none => peers.max?
         let parks : Prop := isSteerRole x.params.role = true ∧ parkReq = true ∧ ∃ v, parkSpeed = some v ∧ v < sh.vWalk
         let least : Nat → Nat → Nat → Nat → Nat := fun a b c d => min (min a b) (min c d)
         let speedTerm : Nat := if speed.isSome then modeCode y.cond.speedMode else 7
         let haltTerm : Nat := if t.member.state = .halted then 0 else 7
         let curveTerm : Nat :=
           match speed with
           | some v => curveFrom v sh.curve
           | none => 511
         let soleTerm : Nat := if isHeld y.cond { code := .tiltSole, source := 0 } then sh.soleLimit else 511
         (∀ v, speed = some v →
           modeCode y.cond.speedMode =
             if above 0 v < before then above 0 v else if before < above sh.vh v then above sh.vh v else before)
         ∧ (speed = none → y.cond.speedMode = t.cond.speedMode)
         ∧ (parks → modeCode p.mode = least modeCap speedTerm 1 haltTerm)
         ∧ (¬parks → modeCode p.mode = least modeCap speedTerm 7 haltTerm)
         ∧ p.limit = least curveTerm limitCap (modeAt sh held.mode).maxLean soleTerm)
      ∧ (∀ g : Group, (g = .tilt ∧ isTiltRole x.params.role = true) ∨ (g = .steer ∧ isSteerRole x.params.role = true) →
          let r := ramped.group g
          let retry := ramped.retry g
          let may : Prop :=
            ramped.live = true ∧ t.member.state = .member ∧ (∀ h ∈ r.holders, h.station ≠ x.number)
              ∧ r.holders.length < (if g = .tilt then 2 else 1) ∧ r.transaction = none ∧ retry.backoff = 0
              ∧ retry.givenUp = false ∧ t.drive.fltSeen = false
              ∧ (r.holders = [] ∨ (held.mode ≠ .lock ∧ held.fault < 3))
          let urgency : Nat := if r.lossAge < 64 then 0 else if 0 < retry.failures then 2 else 1
          (may → p.claim = 32 * groupCode g + 8 * urgency + x.number.val) ∧ (¬may → p.claim = 127))
      ∧ (isDriveRole x.params.role = false → p.claim = 127))
  ∧ (∀ x : Station,
    x.applyClass =
      if x.bus.round.abandoned = true ∨ x.bus.round.handed = false then .abandoned else x.bus.held.roundClass)
  ∧ ∀ (v : Nat) (curve : List CurvePoint), (curve.map (·.speed)).Pairwise (· < ·) →
    (∀ a, curve.head? = some a → v ≤ a.speed → curveFrom v curve = a.limit)
      ∧ (∀ a, curve.getLast? = some a → a.speed ≤ v → curveFrom v curve = a.limit)
      ∧ ∀ i a b, curve[i]? = some a → curve[i + 1]? = some b → a.speed ≤ v → v < b.speed →
        (curveFrom v curve : Int) =
          a.limit + (((b.limit : Int) - a.limit) * ((v : Int) - a.speed)).tdiv ((b.speed : Int) - a.speed)

/-- O37. An apply point of a round that is not agreed suspends a RUNNING engine and moves nothing but the clamp: mode, step,
repeats, elapsed and pending mode stand (R122, R135). APPLY_AT is at most 2480 in every good image (R190). Taken at APPLY_AT:
log 2. -/
def Obligations.UnagreedRoundSuspends : Prop :=
  ∀ (x : Station) (q : List Instr) (parkReq : Bool),
    takesPart x.member.state = true → x.bus.round.opening ≠ .noRound → x.bus.round.applied = false →
    x.bus.position ≤ x.params.own.applyAt → x.params.own.applyAt ≤ 2480 → x.applyClass ≠ .agreed →
    x.member.dropPending = false →
    ∃ y : Station, exec (.applyPoint parkReq) ⟨x, q⟩ = .next ⟨y, q⟩
      ∧ y.engine.run = { x.engine.run with
          engine := if x.engine.run.engine = .running then .suspended else x.engine.run.engine
          setpoint :=
            if (x.bus.held.limit : Int) < x.engine.run.setpoint then (x.bus.held.limit : Int)
            else if x.engine.run.setpoint < -(x.bus.held.limit : Int) then -(x.bus.held.limit : Int)
            else x.engine.run.setpoint }

/-- O38. The apply point of an agreed round, for every engine state, every mode and both ends of a step (Table 8-3). The
agreed MODE is taken in first (R121, R130 to R132): an armed IDLE engine (R119) starts its mode from setpoint 0, and one that
is not armed stays; a COMPLETE or FROZEN engine starts any other mode; a RUNNING or SUSPENDED one starts a lower mode, drops
its pending mode for the running one, and holds a higher one pending. A RUNNING engine then moves: HOLD and RAMP move the
setpoint toward the effective target by the step's rate and TRACK toward the demand, SETTLE sets it to the effective target
(R123 to R128); and every kind but a FREEZE and a TRACK of duration 0 counts elapsed (an elapsed that such a step took with
an adopted state stands: log 50). HOLD and TRACK end at their duration, RAMP at its target, under sync-end only with ADVANCE
all ready; SETTLE ends with ADVANCE all ready or at its duration, and another sync-end step at 65535 whatever ADVANCE is,
with SETTLE_TIMEOUT where it ends so (R124 to R127). A step that ends is followed by the first of the five cases that applies
(R129). The clamp follows (R122), and readiness by O40 from a count that a mode start or a pass end has put to 0 (R137).
"Elapsed equals duration" is read as reached: log 20; repeats of a FREEZE or a TRACK: log 40. APPLY_AT is at most 2480 in
every good image (R190). Taken at APPLY_AT, the pins read until then: log 2. -/
def Obligations.RunningStepsMove : Prop :=
  ∀ (x : Station) (q : List Instr) (parkReq : Bool),
    takesPart x.member.state = true → x.bus.round.opening ≠ .noRound → x.bus.round.applied = false →
    x.bus.position ≤ x.params.own.applyAt → x.params.own.applyAt ≤ 2480 → x.applyClass = .agreed →
    x.member.dropPending = false →
    let sh := x.params.shared
    let held := x.bus.held
    let run := x.engine.run
    let t := x.reach x.params.own.applyAt
    let armed : Prop :=
      t.member.state = .member ∨ t.member.state = .halted
        ∨ ((t.member.state = .join ∨ t.member.state = .quiet) ∧ run.adopted = true)
    let bound : Int → Int := fun v => saturate (-(held.limit : Int)) held.limit v
    let enter : RunState → Nat → RunState := fun r n =>
      { r with
        engine := if (stepAt sh n).kind = .freeze then .frozen else .running
        step := n, repeatLeft := (stepAt sh n).repeats, accInc := 0, elapsed := 0 }
    let start : RunState → Mode → RunState := fun r m =>
      { enter r (modeAt sh m).first with mode := some m, pending := none }
    ∃ (y : Station) (taken moved : RunState) (count : Nat), exec (.applyPoint parkReq) ⟨x, q⟩ = .next ⟨y, q⟩
      -- the intake (R121, R130 to R132)
      ∧ (let starts : RunState → Prop := fun r => taken = start r held.mode ∧ count = 0
         let keeps : RunState → Prop := fun r => taken = r ∧ count = x.engine.readinessCount
         (run.engine = .idle → armed → starts { run with setpoint := 0 })
         ∧ (run.engine = .idle → ¬armed → keeps run)
         ∧ (run.engine = .complete ∨ run.engine = .frozen → run.mode = some held.mode → keeps run)
         ∧ (run.engine = .complete ∨ run.engine = .frozen → run.mode ≠ some held.mode → starts run)
         ∧ (run.engine = .running ∨ run.engine = .suspended →
             (modeCode held.mode < modeCode7 run.mode → starts run)
             ∧ (run.mode = some held.mode → keeps { run with engine := .running, pending := none })
             ∧ (modeCode7 run.mode < modeCode held.mode →
                 keeps { run with engine := .running, pending := some held.mode })))
      -- the move, the count, the end and the clamp (R122 to R129, R137)
      ∧ (let becomes : RunState → Nat → Prop := fun r n =>
           let e : Engine :=
             { x.engine with run := { r with setpoint := bound r.setpoint }, readinessCount := n, demand := y.engine.demand
                             lastDemand := y.engine.lastDemand, holdCount := y.engine.holdCount }
           y.engine = e.formReadiness sh x.meas.latest
         let st := stepAt sh taken.step
         let target := bound (saturate (-360) 360 (st.target + taken.accInc))
         let toward : Int → Int := fun v =>
           if (v - taken.setpoint).natAbs ≤ st.rate then v
           else if taken.setpoint < v then taken.setpoint + st.rate
           else taken.setpoint - st.rate
         let counts : Prop := st.kind ≠ .freeze ∧ ¬(st.kind = .track ∧ st.duration = 0)
         let told : Nat → Prop := fun source =>
           (∃ r ∈ y.cond.queue, r.key = { code := .settleTimeout, source := source }) ∨ y.cond.overflow = true
         (taken.engine ≠ .running → becomes taken count)
         ∧ (taken.engine = .running →
           moved = { taken with setpoint := moved.setpoint, elapsed := moved.elapsed }
           ∧ (st.kind = .hold ∨ st.kind = .ramp → moved.setpoint = toward target)
           ∧ (st.kind = .track → moved.setpoint = toward y.engine.demand)
           ∧ (st.kind = .settle → moved.setpoint = target)
           ∧ (st.kind = .freeze → moved.setpoint = taken.setpoint)
           ∧ (counts → moved.elapsed = min 65535 (taken.elapsed + 1))
           ∧ (¬counts → moved.elapsed = taken.elapsed)
           ∧ (let ready : Prop := st.syncEnd = false ∨ held.advance = true
              let unready : Prop := st.kind = .settle ∧ held.advance = false ∧ st.duration ≤ moved.elapsed
              let overdue : Prop :=
                st.syncEnd = true ∧ 65535 ≤ moved.elapsed
                  ∧ (st.kind = .hold ∨ st.kind = .ramp ∨ (st.kind = .track ∧ st.duration ≠ 0))
              let ends : Prop :=
                (st.kind = .hold ∧ st.duration ≤ moved.elapsed ∧ ready)
                  ∨ (st.kind = .ramp ∧ (moved.setpoint = target ∨ 65535 ≤ moved.elapsed) ∧ ready)
                  ∨ (st.kind = .track ∧ st.duration ≠ 0 ∧ st.duration ≤ moved.elapsed ∧ ready)
                  ∨ (st.kind = .settle ∧ held.advance = true) ∨ unready ∨ overdue
              (¬ends → becomes moved count)
              ∧ (unready → told 0) ∧ (overdue → told 1)
              ∧ (∀ m, ends → moved.pending = some m → becomes (start moved m) 0)
              ∧ (ends → moved.pending = none → 0 < moved.repeatLeft →
                  becomes
                    { moved with
                      repeatLeft := moved.repeatLeft - 1, elapsed := 0
                      accInc := saturate (-720) 720 (moved.accInc + st.increment) } 0)
              ∧ ∀ m, ends → moved.pending = none → moved.repeatLeft = 0 → moved.mode = some m →
                (moved.step < (modeAt sh m).last → becomes (enter moved (moved.step + 1)) 0)
                ∧ ((modeAt sh m).last ≤ moved.step → (modeAt sh m).loop = true →
                    becomes (enter moved (modeAt sh m).first) 0)
                ∧ ((modeAt sh m).last ≤ moved.step → (modeAt sh m).loop = false →
                    becomes { moved with engine := .complete, repeatLeft := 0, elapsed := 65535 } 0))))

/-- O39. The end of a pass, by the first of the five cases that applies: a pending mode, a repeat pass, the next step of the
profile, its first step again, or COMPLETE; the setpoint does not change, and a FREEZE step is FROZEN at once (R129). The
intake of an agreed MODE (Table 8-4): below the running mode it starts at once, equal to it the pending mode goes, above it
it becomes the pending mode; a SUSPENDED engine runs again first; a COMPLETE or FROZEN engine starts any other mode at once,
an armed IDLE one from setpoint 0, and an IDLE one that is not armed stays (R121, R130 to R132). Repeat left is loaded for a
FREEZE too, and a repeat pass adds the increment of a step of every kind: log 40. -/
def Obligations.PassEndsAndModesStartSteps : Prop :=
  ∀ sh : SharedSection,
    let enter : RunState → Nat → RunState := fun r n =>
      { r with
        engine := if (stepAt sh n).kind = .freeze then .frozen else .running
        step := n, repeatLeft := (stepAt sh n).repeats, accInc := 0, elapsed := 0 }
    let start : RunState → Mode → RunState := fun r m =>
      { enter r (modeAt sh m).first with mode := some m, pending := none }
    (∀ r : RunState,
      (∀ m, r.pending = some m → r.passEnd sh = start r m)
      ∧ (r.pending = none → 0 < r.repeatLeft →
        r.passEnd sh =
          { r with
            repeatLeft := r.repeatLeft - 1, elapsed := 0
            accInc := saturate (-720) 720 (r.accInc + (stepAt sh r.step).increment) })
      ∧ (∀ m, r.pending = none → r.repeatLeft = 0 → r.mode = some m → r.step < (modeAt sh m).last →
        r.passEnd sh = enter r (r.step + 1))
      ∧ (∀ m, r.pending = none → r.repeatLeft = 0 → r.mode = some m → (modeAt sh m).last ≤ r.step →
        (modeAt sh m).loop = true → r.passEnd sh = enter r (modeAt sh m).first)
      ∧ (∀ m, r.pending = none → r.repeatLeft = 0 → r.mode = some m → (modeAt sh m).last ≤ r.step →
        (modeAt sh m).loop = false →
        r.passEnd sh = { r with engine := .complete, repeatLeft := 0, elapsed := 65535 }))
    ∧ ∀ (armed : Bool) (m : Mode) (e : Engine),
      (∀ running, e.run.engine = .running ∨ e.run.engine = .suspended → e.run.mode = some running →
        (modeCode m < modeCode running →
          e.intake sh armed m = { e with run := start e.run m, readinessCount := 0 })
        ∧ (m = running → e.intake sh armed m = { e with run := { e.run with engine := .running, pending := none } })
        ∧ (modeCode running < modeCode m →
          e.intake sh armed m = { e with run := { e.run with engine := .running, pending := some m } }))
      ∧ (e.run.engine = .complete ∨ e.run.engine = .frozen →
        (e.run.mode = some m → e.intake sh armed m = e)
        ∧ (e.run.mode ≠ some m → e.intake sh armed m = { e with run := start e.run m, readinessCount := 0 }))
      ∧ (e.run.engine = .idle →
        (armed = true →
          e.intake sh armed m =
            { e with run := start { e.run with setpoint := 0 } m, readinessCount := 0 })
        ∧ (armed = false → e.intake sh armed m = e))

/-- O40. A SETTLE step at its duration with ADVANCE not ready, and another sync-end step at 65535 whatever ADVANCE is, end
their pass, and SETTLE_TIMEOUT is raised with source 0 or 1 (R126, R127, R129). The readiness of an apply point (R137): in a
sync-end step of a station whose own lean comes from its own sensor the count goes up by one within the band while RUNNING,
to 0 outside it, and stands while SUSPENDED, and the station is ready at 4; in every other case it is ready and the count
stands. "Elapsed equals duration" is read as reached: log 20; as a command of its own: log 3. -/
def Obligations.SyncEndStepsTimeOutAndAskReadiness : Prop :=
  (∀ (x : Station) (q : List Instr) (st : StepDef) (source : Nat),
    takesPart x.member.state = true → x.applyClass = .agreed → x.engine.run.engine = .running →
    st = stepAt x.params.shared x.engine.run.step →
    ((st.kind = .settle ∧ x.bus.held.advance = false ∧ st.duration ≤ x.engine.run.elapsed ∧ source = 0)
      ∨ ((st.kind = .hold ∨ st.kind = .ramp) ∧ st.syncEnd = true ∧ 65535 ≤ x.engine.run.elapsed ∧ source = 1)
      ∨ (st.kind = .track ∧ st.duration ≠ 0 ∧ st.syncEnd = true ∧ 65535 ≤ x.engine.run.elapsed ∧ source = 1)) →
    exec .settleTimeout ⟨x, q⟩ =
      .next ⟨{ x with
        engine := { x.engine with run := x.engine.run.passEnd x.params.shared, readinessCount := 0 }
        cond := raiseEvent x.cond { code := .settleTimeout, source := source } 1 }, q⟩)
  ∧ ∀ (sh : SharedSection) (latest : MeasSet) (e : Engine),
    let st := stepAt sh e.run.step
    let syncEnd : Prop :=
      st.kind = .settle ∨ ((st.kind = .hold ∨ st.kind = .ramp) ∧ st.syncEnd = true)
        ∨ (st.kind = .track ∧ st.duration ≠ 0 ∧ st.syncEnd = true)
    let measured : Prop := latest.leanSource = .leanA ∨ latest.leanSource = .leanB
    let inBand : Prop := ∃ a, latest.ownLean = some a ∧ (a - e.run.setpoint).natAbs ≤ st.band
    (syncEnd → measured →
      (e.run.engine = .running → inBand →
        e.formReadiness sh latest =
          { e with readinessCount := min 4 (e.readinessCount + 1), ready := decide (3 ≤ e.readinessCount) })
      ∧ (e.run.engine = .running → ¬inBand → e.formReadiness sh latest = { e with readinessCount := 0, ready := false })
      ∧ (e.run.engine = .suspended → e.formReadiness sh latest = { e with ready := decide (4 ≤ e.readinessCount) }))
    ∧ (¬syncEnd ∨ ¬measured ∨ (e.run.engine ≠ .running ∧ e.run.engine ≠ .suspended) →
      e.formReadiness sh latest = { e with ready := true })

/-- O41. Above DEMAND_HOLD the demand is 0 and DEMAND_LOST is held for the chosen source, or for 8 without one, and for no
other (R134); the source is DEMAND_PRIMARY when it is usable or the own number, and else DEMAND_SECONDARY under the same test
(R133). As a command of its own: log 3. -/
def Obligations.DemandIsLost : Prop :=
  ∀ (x : Station) (q : List Instr),
    takesPart x.member.state = true → x.params.shared.demandHold < x.engine.holdCount → x.cond.tableSound →
    let sh := x.params.shared
    let may : StationNo → Prop := fun k =>
      (x.peers.get k).state = .present ∨ (x.peers.get k).state = .suspect ∨ k = x.number
    ∃ y : Station, exec .demandLost ⟨x, q⟩ = .next ⟨y, q⟩
      ∧ y = { x with engine := { x.engine with demand := 0 }, cond := y.cond }
      ∧ ∀ n, n ≤ 8 →
        let held := isHeld y.cond { code := .demandLost, source := n }
        (may sh.demandPrimary → held = decide (n = sh.demandPrimary.val))
        ∧ (¬may sh.demandPrimary → may sh.demandSecondary → held = decide (n = sh.demandSecondary.val))
        ∧ (¬may sh.demandPrimary → ¬may sh.demandSecondary → held = decide (n = 8))

/-! ## The drive -/

/-- O42. The end of a lock ramp (R168) and of the release hold (R169): RAMP_DOWN at 0 becomes LOCKED, RAMP_UP at LOCK_RAMP
becomes ACTIVE with release count 0; a tilt role in ACTIVE, in MEMBER, under a MODE of at least 1, with its hold run, asserts
LREL, which the pin levels gate. As commands of their own: log 3. -/
def Obligations.LockRampAndReleaseEnd : Prop :=
  ∀ (x : Station) (q : List Instr),
    (x.drive.output = .rampDown → x.drive.lockRamp = 0 →
      exec .lockRampEnd ⟨x, q⟩ = .next ⟨{ x with drive := { x.drive with output := .locked } }, q⟩)
    ∧ (x.drive.output = .rampUp → x.params.shared.lockRamp ≤ x.drive.lockRamp →
      exec .lockRampEnd ⟨x, q⟩ = .next ⟨{ x with drive := { x.drive with output := .active, release := 0 } }, q⟩)
    ∧ (x.drive.output = .active → x.params.shared.releaseHold ≤ x.drive.release →
        isTiltRole x.params.role = true → x.member.state = .member → x.bus.held.mode ≠ .lock →
      exec .releaseHoldEnd ⟨x, q⟩ = .next ⟨{ x with drive := { x.drive with lrel := true } }, q⟩)
    ∧ (isTiltRole x.params.role = false ∨ x.drive.output ≠ .active ∨ x.drive.release < x.params.shared.releaseHold →
      exec .releaseHoldEnd ⟨x, q⟩ = .next ⟨x, q⟩)
    ∧ (x.lrelOut = true ↔ x.drive.lrel = true ∧ x.pins.disable = false ∧ x.pins.drvFlt = false)

/-- O43. The lock stepping of an apply point (R168, R169): RAMP_DOWN steps down in every class and is LOCKED at 0; LOCKED and
RAMP_DOWN turn to RAMP_UP in an agreed round of MODE 1..4; RAMP_UP steps in agreed rounds alone and is ACTIVE at LOCK_RAMP;
ACTIVE counts its release in agreed rounds; OFF stands. -/
def Obligations.LockSteps : Prop :=
  ∀ (sh : SharedSection) (agreed : Bool) (mode : Mode) (d : Drive),
    let up : Drive :=
      if sh.lockRamp ≤ d.lockRamp + 1 then { d with output := .active, lockRamp := sh.lockRamp, release := 0 }
      else { d with output := .rampUp, lockRamp := d.lockRamp + 1 }
    (d.output = .off → d.stepLock sh agreed mode = d)
      ∧ (d.output = .locked ∨ d.output = .rampDown → agreed = true → mode ≠ .lock → d.stepLock sh agreed mode = up)
      ∧ (d.output = .locked → agreed = false ∨ mode = .lock → d.stepLock sh agreed mode = d)
      ∧ (d.output = .rampDown → agreed = false ∨ mode = .lock →
          d.stepLock sh agreed mode =
            { d with
              lockRamp := d.lockRamp - 1, output := if d.lockRamp ≤ 1 then .locked else .rampDown })
      ∧ (d.output = .rampUp → agreed = true → d.stepLock sh agreed mode = up)
      ∧ (d.output = .rampUp ∨ d.output = .active → agreed = false → d.stepLock sh agreed mode = d)
      ∧ (d.output = .active → agreed = true →
          d.stepLock sh agreed mode = { d with release := min sh.releaseHold (d.release + 1) })

/-- O44. The tilt law and the steer law (10.2): proportional minus rate term from the own lean and its rate, or torque term
plus lean term, each truncated, saturated to EFFORT_MAX, times the own share by 1000, truncated; a missing input takes its
term (R159, R164, R165). The steer torque is that of its channel while it is mapped and normal, the lean the mean of the lean
fields of the usable peers of role TILT_L, TILT_R or FRAME whose report is of this round (R81, R99), the share 0 for a
station that holds none (R159). When the steer torque counts as not available is the model's reading, log 15; which peers
count for the lean term is its reading too, log 16. -/
def Obligations.LawsGiveTheTarget : Prop :=
  ∀ x : Station,
    let own := x.params.own
    let part : Int → Nat → Int := fun raw share =>
      (saturate (-(own.effortMax : Int)) own.effortMax raw * share).tdiv 1000
    let steerTorque : Option Int :=
      match allStations.find? fun c => decide ((own.channels.get c).quantity = .steerTorque) with
      | some c => if (x.meas.monitors.get c).state = .normal then x.meas.latest.channels.get c else none
      | none => none
    let leans : List Int :=
      allStations.filterMap fun k =>
        let r := x.peers.get k
        if k ≠ x.number ∧ (r.state = .present ∨ r.state = .suspect)
            ∧ (r.rosterRole = .tiltL ∨ r.rosterRole = .tiltR ∨ r.rosterRole = .frame)
            ∧ r.lastHeard = some x.bus.roundNumber then
          r.lastReport.bind readLean
        else none
    let torque : Int :=
      match steerTorque with
      | some t => (own.ka * t).tdiv 64
      | none => 0
    let lean : Int :=
      if leans = [] then 0 else (own.kl * (x.engine.run.setpoint - leans.sum.tdiv leans.length)).tdiv 64
    let share : GroupRecord → Nat := fun r =>
      ((r.holders.find? fun h => decide (h.station = x.number)).map (·.share)).getD 0
    (∀ a, isTiltRole x.params.role = true → x.meas.latest.ownLean = some a →
      x.driveTarget =
        part ((own.kp * (x.engine.run.setpoint - a)).tdiv 64 - (own.kd * x.meas.latest.leanRate).tdiv 64)
          (share x.auth.tilt))
    ∧ (isTiltRole x.params.role = true → x.meas.latest.ownLean = none → x.driveTarget = 0)
    ∧ (isTiltRole x.params.role = false →
      x.driveTarget = part (torque + lean) (share x.auth.steer))

/-- O45. Slew, then limit, then the outputs (R166): the effort becomes a target within EFFORT_SLEW and moves by EFFORT_SLEW
toward another; above the limit it is the limit with its sign; PWM is its magnitude; DIR follows its sign by the polarity and
stays at 0. -/
def Obligations.EffortSlewsThenIsLimited : Prop :=
  (∀ (slew limit : Nat) (target effort : Int),
    let moved : Int :=
      if (target - effort).natAbs ≤ slew then target else if effort < target then effort + slew else effort - slew
    (moved.natAbs ≤ limit → slewAndLimit slew limit target effort = moved)
      ∧ ((limit : Int) < moved → slewAndLimit slew limit target effort = limit)
      ∧ (moved < -(limit : Int) → slewAndLimit slew limit target effort = -(limit : Int)))
  ∧ ∀ (inverted : Bool) (effort : Int) (d : Drive),
      (d.putOut inverted effort).effort = effort ∧ (d.putOut inverted effort).applied = effort
        ∧ (d.putOut inverted effort).pwm = effort.natAbs
        ∧ (0 < effort → (d.putOut inverted effort).dirHigh = !inverted)
        ∧ (effort < 0 → (d.putOut inverted effort).dirHigh = inverted)
        ∧ (effort = 0 → (d.putOut inverted effort).dirHigh = d.dirHigh)

/-- O46. DISABLE that a sample point sees asserted holds HALT_INPUT, moves MEMBER to HALTED and takes the drive to OFF with
DIR kept; seen released it ends HALT_INPUT and moves HALTED to MEMBER; neither touches the tally image. A level no sample
point sees changes the pin alone, and an asserted pin drops DRV_EN and LREL at once (R72, R161, R162, R169). DRV_EN is
asserted exactly in RAMP_UP, ACTIVE and RAMP_DOWN, in MEMBER, with both pins released (R162, Table 10-1). Every bit time
has a sample point, those that a command carries too: the level that stands is seen in them (log 2). Seen or not is the
command's operand: log 23. -/
def Obligations.DisableHalts : Prop :=
  ∀ (x : Station) (q : List Instr),
    let pin : Bool → Station := fun level => { x with pins := { x.pins with disable := level } }
    exec (.disableAsserted false) ⟨x, q⟩ = .next ⟨pin true, q⟩
      ∧ exec (.disableReleased false) ⟨x, q⟩ = .next ⟨pin false, q⟩
      ∧ (pin true).drvEn = false ∧ (pin true).lrelOut = false
      ∧ (x.drvEn = true ↔
          (x.drive.output = .rampUp ∨ x.drive.output = .active ∨ x.drive.output = .rampDown)
            ∧ x.member.state = .member ∧ x.pins.disable = false ∧ x.pins.drvFlt = false)
      ∧ (x.member.state ≠ .load → x.member.state ≠ .configFault →
          exec (.disableAsserted true) ⟨x, q⟩ =
            .next ⟨{ pin true with
              member :=
                { x.member with
                  disableSeen := true
                  state := if x.member.state = .member then .halted else x.member.state }
              drive :=
                { x.drive with
                  output := .off, lockRamp := 0, release := 0, effort := 0, applied := 0, pwm := 0, lrel := false }
              cond := holdCond x.cond { code := .haltInput, source := 0 } 3 }, q⟩
          ∧ exec (.disableReleased true) ⟨x, q⟩ =
            .next ⟨{ pin false with
              member :=
                { x.member with
                  disableSeen := false
                  state := if x.member.state = .halted then .member else x.member.state }
              cond := removeCond x.cond { code := .haltInput, source := 0 } }, q⟩
          ∧ ∀ p : Nat, x.bus.position < p →
            (x.reach p).member.disableSeen = x.pins.disable
              ∧ (x.pins.disable = true →
                  (x.reach p).member.state = (if x.member.state = .member then .halted else x.member.state)
                    ∧ (x.reach p).drive.output = .off ∧ (x.reach p).drive.effort = 0
                    ∧ (x.reach p).drive.dirHigh = x.drive.dirHigh)
              ∧ (x.pins.disable = false →
                  (x.reach p).member.state = (if x.member.state = .halted then .member else x.member.state))
              ∧ (x.cond.tableSound → isHeld (x.reach p).cond { code := .haltInput, source := 0 } = x.pins.disable))

/-- O47. DRV_FLT that a sample point sees asserted on a drive role holds DRIVE_FAULT and takes the drive to OFF; seen
released it ends DRIVE_FAULT and the unit stays OFF until an apply point. Another role, and a level no sample point sees,
change the pin alone, and an asserted pin drops DRV_EN and LREL at once (R161, R162, R169). Every bit time has a sample
point, those that a command carries too: the level that stands is seen in them (log 2). Seen or not is the command's operand:
log 23. -/
def Obligations.DriveFaultCutsTheDrive : Prop :=
  ∀ (x : Station) (q : List Instr),
    let pin : Bool → Station := fun level => { x with pins := { x.pins with drvFlt := level } }
    let off : Drive → Drive := fun d =>
      { d with output := .off, lockRamp := 0, release := 0, effort := 0, applied := 0, pwm := 0, lrel := false }
    exec (.drvFltAsserted false) ⟨x, q⟩ = .next ⟨pin true, q⟩
      ∧ exec (.drvFltReleased false) ⟨x, q⟩ = .next ⟨pin false, q⟩
      ∧ (pin true).drvEn = false ∧ (pin true).lrelOut = false
      ∧ (isDriveRole x.params.role = false → exec (.drvFltAsserted true) ⟨x, q⟩ = .next ⟨pin true, q⟩)
      ∧ (x.member.state ≠ .load → x.member.state ≠ .configFault → isDriveRole x.params.role = true →
          exec (.drvFltAsserted true) ⟨x, q⟩ =
            .next ⟨{ pin true with
              drive := { off x.drive with fltSeen := true }
              cond := holdCond x.cond { code := .driveFault, source := 0 } 2 }, q⟩
          ∧ exec (.drvFltReleased true) ⟨x, q⟩ =
            .next ⟨{ pin false with
              drive := { x.drive with fltSeen := false }
              cond := removeCond x.cond { code := .driveFault, source := 0 } }, q⟩
          ∧ ∀ p : Nat, x.bus.position < p →
            (x.reach p).drive =
                { (if x.pins.disable || x.pins.drvFlt then off x.drive else x.drive) with fltSeen := x.pins.drvFlt }
              ∧ (x.cond.tableSound → isHeld (x.reach p).cond { code := .driveFault, source := 0 } = x.pins.drvFlt))

/-! ## Measurement -/

/-- O48. A conversion writes its channel's scaled value and takes the entry off; its raw value loses offset and zero, is
multiplied by the gain, divided by 1024 truncating and saturated to the range of its quantity. A swapped entry writes
nothing. A running pass adds the raw value to the P or N sum of a differential channel. The conversion of the last entry ends
the scan with it, as SCAN_END ends one (O49). Outside the states that scan, and with no conversion in progress, it has no
effect (R102, R103, R105, R114). The command is itself the end of the 250 bit times: log 2. -/
def Obligations.ConversionWritesItsChannel : Prop :=
  (∀ (x : Station) (q : List Instr) (raw : BitVec 12) (list : ScanList) (e : ScanEntry)
    (rest : List ScanEntry) (written : List StationNo) (elapsed : Nat),
    x.meas.scan = some { list := list, left := e :: rest, written := written, elapsed := elapsed } →
    let cfg := x.params.own.channels.get e.channel
    let summed : Calibration :=
      if x.meas.cal.status = .running ∧ list = .calibration ∧ (x.params.own.channels.get e.channel).differential = true then
        if e.swapped = true then
          { x.meas.cal with nSums := x.meas.cal.nSums.set e.channel (x.meas.cal.nSums.get e.channel + raw.toNat) }
        else
          { x.meas.cal with pSums := x.meas.cal.pSums.set e.channel (x.meas.cal.pSums.get e.channel + raw.toNat) }
      else x.meas.cal
    let value : Int :=
      saturateTo cfg.quantity ((((raw.toNat : Int) - x.meas.offsets.get e.channel - cfg.zero) * cfg.gain).tdiv 1024)
    let converted : Station :=
      { x with
        meas :=
          { x.meas with
            cal := summed
            working :=
              if e.swapped = true then x.meas.working
              else { x.meas.working with channels := x.meas.working.channels.set e.channel (some value) }
            scan :=
              some { list := list, left := rest, elapsed := 0
                     written := if e.swapped = true then written else written ++ [e.channel] } } }
    (timerRuns x.member.state = true → rest ≠ [] → exec (.conversionEnd raw) ⟨x, q⟩ = .next ⟨converted, q⟩)
    ∧ (timerRuns x.member.state = true → rest = [] →
        exec (.conversionEnd raw) ⟨x, q⟩ = exec .scanEnd ⟨converted, q⟩
          ∧ ∃ y : Station, exec (.conversionEnd raw) ⟨x, q⟩ = .next ⟨y, q⟩
              ∧ y.meas.scan = none ∧ y.meas.endedSinceSync = true
              ∧ y.meas.latest.channels = converted.meas.working.channels)
    ∧ (timerRuns x.member.state = false → exec (.conversionEnd raw) ⟨x, q⟩ = .next ⟨x, q⟩))
  ∧ ∀ (x : Station) (q : List Instr) (raw : BitVec 12),
    x.meas.scan = none → exec (.conversionEnd raw) ⟨x, q⟩ = .next ⟨x, q⟩

/-- O49. A scan with no entry left ends (R102): the monitors of the channels it wrote, each of them once in a list (R101),
act by Table 7-3 (R107), the pair check compares the two lean channels (R108), the own lean is selected in the order of R109,
and the working set, with own lean and its rate from the lean of the scan before (R106), becomes the latest set; the end
counts for the next sync event. The conditions of a monitor and of the pair check follow their states (R107, R108). A running
pass counts the scans of the calibration list: at CAL_SAMPLES of them it turns to swapped polarity (R114), at twice that it
completes, with each differential channel's offset the truncated half difference of its sums saturated to 127 either way,
CAL_RANGE where that changed it, the status DONE, and the run list selected (R115; normal polarity in the shadow: log 49; that
the scan count and the sums are 0 after the pass is the model's choice: log 57). The peer lean is the mean of the lean fields
of the usable peers of role TILT_L, TILT_R or FRAME whose last report was taken in at the latest end of a report section
(R109). As a command of its own: log 3; the report section that the peer lean reads: log 43; the roles of the peers: log 16.
-/
def Obligations.ScanEndMakesTheLatestSet : Prop :=
  (∀ (x : Station) (q : List Instr) (scan : RunningScan),
    timerRuns x.member.state = true → x.meas.scan = some scan → scan.left = [] → scan.written.Nodup →
    let channelOf : Quantity → Option StationNo := fun quantity =>
      allStations.find? fun c => decide ((x.params.own.channels.get c).quantity = quantity)
    ∃ y : Station, exec .scanEnd ⟨x, q⟩ = .next ⟨y, q⟩
      ∧ y = { x with meas := y.meas, cond := y.cond }
      ∧ y.meas.scan = none ∧ y.meas.endedSinceSync = true ∧ y.meas.latest = y.meas.working
      ∧ y.meas.latest.channels = x.meas.working.channels
      ∧ y.meas.latest.speed0 = x.meas.working.speed0 ∧ y.meas.latest.speed1 = x.meas.working.speed1
      ∧ y.meas.prevLean = y.meas.latest.ownLean
      ∧ (∀ a b, y.meas.latest.ownLean = some a → x.meas.prevLean = some b →
          y.meas.latest.leanRate = saturate (-2047) 2047 (a - b))
      ∧ (y.meas.latest.ownLean = none ∨ x.meas.prevLean = none → y.meas.latest.leanRate = 0)
      ∧ y.meas.snapshot = x.meas.snapshot
      ∧ (let cal := x.meas.cal
         let lists := x.meas.lists
         let samples := x.params.shared.calSamples
         let passes : Prop := cal.status = .running ∧ scan.list = .calibration
         let polarity : Bool → List ScanEntry := fun swapped =>
           lists.calShadow.map fun e =>
             if (x.params.own.channels.get e.channel).differential then { e with swapped := swapped } else e
         let half : StationNo → Int := fun c => ((cal.nSums.get c : Int) - cal.pSums.get c).tdiv (2 * samples)
         (¬passes → y.meas.cal = cal ∧ y.meas.lists = lists ∧ y.meas.offsets = x.meas.offsets)
         ∧ (passes → cal.scans + 1 < 2 * samples →
             y.meas.cal = { cal with scans := cal.scans + 1 } ∧ y.meas.offsets = x.meas.offsets
               ∧ (cal.scans + 1 = samples →
                   y.meas.lists = { lists with calShadow := polarity true, selected := .calibration })
               ∧ (cal.scans + 1 ≠ samples → y.meas.lists = lists))
         ∧ (passes → 2 * samples ≤ cal.scans + 1 →
             y.meas.cal =
                 { cal with status := .done, done := true, scans := 0, pSums := Eight.fill 0, nSums := Eight.fill 0 }
               ∧ y.meas.lists = { lists with calShadow := polarity false, selected := .run }
               ∧ ∀ c : StationNo,
                 let differential := (x.params.own.channels.get c).differential
                 (differential = false → y.meas.offsets.get c = x.meas.offsets.get c)
                   ∧ (differential = true → y.meas.offsets.get c = saturate (-127) 127 (half c))
                   ∧ (differential = true → half c < -127 ∨ 127 < half c →
                       (∃ r ∈ y.cond.queue, r.key = { code := .calRange, source := c.val }) ∨ y.cond.overflow = true)))
      ∧ (∀ (c : StationNo) (v : Int), c ∈ scan.written → x.meas.working.channels.get c = some v →
          let cfg := x.params.own.channels.get c
          let m := x.meas.monitors.get c
          let cls : MonitorClass := if v < cfg.low then .below else if cfg.high < v then .above else .within
          let toward : MonitorState := if v < cfg.low then .low else if cfg.high < v then .high else .normal
          let run := if m.previous = some cls then min 15 (m.run + 1) else 1
          cfg.quantity ≠ .none → 0 < cfg.filter →
          (toward = m.state → y.meas.monitors.get c = { m with run := 0, previous := some cls })
          ∧ (toward ≠ m.state →
              y.meas.monitors.get c =
                { state := if cfg.filter ≤ run then toward else m.state, run := run, previous := some cls }))
      ∧ (∀ c : StationNo,
          (c ∉ scan.written ∨ (x.params.own.channels.get c).quantity = .none
              ∨ (x.params.own.channels.get c).filter = 0) →
          y.meas.monitors.get c = x.meas.monitors.get c)
      ∧ (∀ (a b : StationNo) (u v : Int),
          isTiltRole x.params.role = true → channelOf .leanA = some a → channelOf .leanB = some b →
          x.meas.working.channels.get a = some u → x.meas.working.channels.get b = some v →
          1 ≤ x.params.own.pairFilter → x.params.own.pairFilter ≤ 15 →
          let split : Bool := decide (x.params.own.pairBand < (u - v).natAbs)
          (split = x.meas.apart → y.meas.apart = x.meas.apart ∧ y.meas.pairRun = 0)
          ∧ (split ≠ x.meas.apart → x.meas.pairRun + 1 < x.params.own.pairFilter →
              y.meas.apart = x.meas.apart ∧ y.meas.pairRun = x.meas.pairRun + 1)
          ∧ (split ≠ x.meas.apart → x.params.own.pairFilter ≤ x.meas.pairRun + 1 →
              y.meas.apart = split ∧ y.meas.pairRun = 0))
      ∧ (isTiltRole x.params.role = false ∨ channelOf .leanA = none ∨ channelOf .leanB = none →
          y.meas.apart = x.meas.apart ∧ y.meas.pairRun = x.meas.pairRun)
      -- the conditions of the monitors and of the pair check (R107, R108)
      ∧ (x.cond.tableSound →
          (∀ c : StationNo,
            let low : CondKey := { code := .channelLow, source := c.val }
            let high : CondKey := { code := .channelHigh, source := c.val }
            let state := (y.meas.monitors.get c).state
            (state ≠ (x.meas.monitors.get c).state →
                isHeld y.cond low = decide (state = .low) ∧ isHeld y.cond high = decide (state = .high))
              ∧ (state = (x.meas.monitors.get c).state →
                isHeld y.cond low = isHeld x.cond low ∧ isHeld y.cond high = isHeld x.cond high))
          ∧ (let pair : CondKey := { code := .sensorPair, source := 0 }
             (y.meas.apart ≠ x.meas.apart → isHeld y.cond pair = y.meas.apart)
               ∧ (y.meas.apart = x.meas.apart → 1 ≤ x.params.own.pairFilter → isHeld y.cond pair = isHeld x.cond pair)))
      ∧ (let fits : Quantity → Int → Prop := fun quantity v =>
           ∃ c, channelOf quantity = some c ∧ (y.meas.monitors.get c).state = .normal
             ∧ x.meas.working.channels.get c = some v
             ∧ (y.meas.apart = true →
                 (x.params.own.channels.get c).low ≤ v ∧ v ≤ (x.params.own.channels.get c).high)
         let leans : List Int :=
           allStations.filterMap fun k =>
             let r := x.peers.get k
             if k ≠ x.number ∧ (r.state = .present ∨ r.state = .suspect)
                 ∧ (r.rosterRole = .tiltL ∨ r.rosterRole = .tiltR ∨ r.rosterRole = .frame)
                 ∧ x.bus.lastSection ≠ none ∧ r.lastHeard = x.bus.lastSection then
               r.lastReport.bind readLean
             else none
         let selected : Option Int → LeanSource → Prop := fun lean source =>
           y.meas.latest.ownLean = lean ∧ y.meas.latest.leanSource = source
         let fromPeers : Prop :=
           (leans = [] → selected none .none)
             ∧ (leans ≠ [] → selected (some (leans.sum.tdiv leans.length)) .peers)
         (∀ v, isTiltRole x.params.role = true → fits .leanA v → selected (some v) .leanA)
         ∧ (∀ v, isTiltRole x.params.role = true → (∀ u, ¬fits .leanA u) → fits .leanB v → selected (some v) .leanB)
         ∧ (isTiltRole x.params.role = true → (∀ u, ¬fits .leanA u) → (∀ u, ¬fits .leanB u) → fromPeers)
         ∧ (∀ v, x.params.role = .frame → fits .frameRoll v → selected (some v) .leanA)
         ∧ (x.params.role = .frame → (∀ u, ¬fits .frameRoll u) → fromPeers)
         ∧ (isTiltRole x.params.role = false → x.params.role ≠ .frame → selected none .none)))
  ∧ ∀ x : Station, x.cond.tableSound →
    (∀ (c : StationNo) (state : MonitorState),
      isHeld (x.monitorConds c state).cond { code := .channelLow, source := c.val } = decide (state = .low)
        ∧ isHeld (x.monitorConds c state).cond { code := .channelHigh, source := c.val } = decide (state = .high))
    ∧ (x.pairCheck.meas.apart ≠ x.meas.apart →
        isHeld x.pairCheck.cond { code := .sensorPair, source := 0 } = x.pairCheck.meas.apart)

/-- O50. A rising edge counts on its mapped pulse input, up to 255, in the states that count (R110); the speed of a mapped
input is 0 after ZERO_ROUNDS quiet placements and otherwise the ring's sum by PULSE_SCALE over W, up to 4094, and the own
wheel speed the mean of two inputs, or the one (R111). -/
def Obligations.PulsesAreCounted : Prop :=
  (∀ (x : Station) (q : List Instr) (ps1 : Bool),
    (timerRuns x.member.state = true → ps1 = false → x.params.own.ps0.mapped = true →
      exec (.pulseEdge ps1) ⟨x, q⟩ =
        .next ⟨{ x with
          meas := { x.meas with ps0 := { x.meas.ps0 with count := min 255 (x.meas.ps0.count + 1) } } }, q⟩)
    ∧ (timerRuns x.member.state = true → ps1 = true → x.params.own.ps1.mapped = true →
      exec (.pulseEdge ps1) ⟨x, q⟩ =
        .next ⟨{ x with
          meas := { x.meas with ps1 := { x.meas.ps1 with count := min 255 (x.meas.ps1.count + 1) } } }, q⟩)
    ∧ (timerRuns x.member.state = false → exec (.pulseEdge ps1) ⟨x, q⟩ = .next ⟨x, q⟩))
  ∧ (∀ (cfg : PulseConfig) (p : PulseCounter),
    (cfg.mapped = false → pulseSpeed cfg p = none)
      ∧ (cfg.mapped = true → cfg.zeroRounds ≤ p.quiet → pulseSpeed cfg p = some 0)
      ∧ (cfg.mapped = true → p.quiet < cfg.zeroRounds →
          pulseSpeed cfg p = some (min 4094 (p.ring.sum * cfg.scale / cfg.window))))
  ∧ ∀ a b : Nat, ownSpeedOf (some a) (some b) = some ((a + b) / 2) ∧ ownSpeedOf (some a) none = some a
      ∧ ownSpeedOf none (some b) = some b ∧ ownSpeedOf none none = none

/-- O51. The calibration of a JOIN episode at a sync event whose mark loses no bus, and its wait (R103 step 3, R112, R113,
R116). Evidence is what the mapped pulse inputs placed, or with none mapped the speeds heard in the latest section that
handed on (log 32): motion by a count that is not 0 (while waiting, by any entry of a ring, or any speed); standstill by full
rings of zeros, or by speeds that are all 0; neither otherwise. While waiting, motion skips with CAL_SKIPPED source 0,
standstill begins the pass with the calibration list at normal polarity posted, and the 32nd event without either skips with
source 2; while running, motion skips with source 1 and posts the run list again; in any other status nothing happens. That
the waiting count stands, and the scan count is 0, once the status has left WAITING or the pass has ended, is the model's
choice: log 57. SCAN_OVERRUN follows where a scan runs (R104; log 14). As a command of its own the wait of 32 alone is taken:
log 3. The mark is confirmed at its fourth bit time, to which the command carries the station, the pins read until then: log
2; the loss period of an own mark was counted at its drive start: log 10. -/
def Obligations.CalibrationFollowsItsEvidence : Prop :=
  (∀ (x : Station) (q : List Instr),
    (x.meas.cal.status = .waiting → 32 ≤ x.meas.cal.waiting →
      exec .calWaitTimeout ⟨x, q⟩ =
        .next ⟨{ x with
          meas :=
            { x.meas with
              cal :=
                { x.meas.cal with
                  status := .skipped, scans := 0, pSums := Eight.fill 0, nSums := Eight.fill 0 } }
          cond := raiseEvent x.cond { code := .calSkipped, source := 2 } 1 }, q⟩)
    ∧ (x.meas.cal.status ≠ .waiting ∨ x.meas.cal.waiting < 32 → exec .calWaitTimeout ⟨x, q⟩ = .next ⟨x, q⟩))
  ∧ ∀ (x : Station) (q : List Instr) (left : Nat), x.member.state = .join →
    let periods : Nat :=
      if x.bus.markPending then x.member.lossPeriods
      else if x.bus.round.wellFormed then 0
      else if x.bus.round.opening = .noRound then x.member.lossPeriods
      else min 4 (x.member.lossPeriods + 1)
    periods < 4 →
    ((∃ m, x.bus.mark = some m ∧ m.confirmed = false ∧ m.age + left = 4)
      ∨ (x.bus.markPending = false ∧ ∃ c, x.bus.candidate = some c ∧ c.age + left = 4)) →
    x.meas.scan.isSome = true ∨ (x.meas.lists.runShadow ≠ [] ∧ x.meas.lists.calShadow ≠ []) →
    let cal := x.meas.cal
    let lists := x.meas.lists
    let inputs : List (PulseConfig × PulseCounter) :=
      [(x.params.own.ps0, x.meas.ps0), (x.params.own.ps1, x.meas.ps1)].filter (·.1.mapped)
    let ring : PulseConfig × PulseCounter → List Nat := fun i =>
      (i.2.ring ++ [i.2.count]).drop (i.2.ring.length + 1 - i.1.window)
    let motion : Prop :=
      (inputs ≠ [] ∧ ∃ i ∈ inputs, (∃ n, (ring i).getLast? = some n ∧ n ≠ 0)
          ∨ (cal.status = .waiting ∧ ∃ n ∈ ring i, n ≠ 0))
        ∨ (inputs = [] ∧ ∃ speeds, cal.heard = some speeds ∧ ∃ v ∈ speeds, v ≠ 0)
    let standstill : Prop :=
      ¬motion
        ∧ ((inputs ≠ [] ∧ ∀ i ∈ inputs, i.1.window ≤ min 16 (i.2.fill + 1) ∧ ∀ n ∈ ring i, n = 0)
          ∨ (inputs = [] ∧ ∃ speeds, cal.heard = some speeds ∧ speeds ≠ []))
    let waited := min 32 (cal.waiting + 1)
    let cleared : CalStatus → Nat → Calibration := fun status waiting =>
      { cal with status := status, waiting := waiting, scans := 0, pSums := Eight.fill 0, nSums := Eight.fill 0 }
    let normal : List ScanEntry :=
      lists.calShadow.map fun e =>
        if (x.params.own.channels.get e.channel).differential then { e with swapped := false } else e
    let aged := expireConds (ageConds (x.reach (x.bus.position + left)).cond)
    let skipped : Nat → ConditionUnit := fun source => raiseEvent aged { code := .calSkipped, source := source } 1
    let then_ : ConditionUnit → ConditionUnit := fun c =>
      if x.meas.scan.isSome then raiseEvent c { code := .scanOverrun, source := 0 } 1 else c
    ∃ y : Station, exec .syncMark ⟨x, q⟩ = .next ⟨y, q⟩
      ∧ (let becomes : Calibration → ScanList → List ScanEntry → ConditionUnit → Prop := fun c list shadow cond =>
           y.meas.cal = c ∧ y.meas.lists.selected = list ∧ y.meas.lists.runShadow = lists.runShadow
             ∧ y.meas.lists.calShadow = shadow ∧ y.cond = then_ cond
         (cal.status = .waiting →
           (motion → becomes (cleared .skipped waited) lists.selected lists.calShadow (skipped 0))
             ∧ (standstill → becomes (cleared .running waited) .calibration normal aged)
             ∧ (¬motion → ¬standstill → waited = 32 →
                 becomes (cleared .skipped waited) lists.selected lists.calShadow (skipped 2))
             ∧ (¬motion → ¬standstill → waited < 32 →
                 becomes { cal with waiting := waited } lists.selected lists.calShadow aged))
         ∧ (cal.status = .running →
           (motion → becomes (cleared .skipped cal.waiting) .run normal (skipped 1))
             ∧ (¬motion → becomes cal lists.selected lists.calShadow aged))
         ∧ (cal.status ≠ .waiting → cal.status ≠ .running → becomes cal lists.selected lists.calShadow aged))
      ∧ (x.meas.scan = none →
          y.meas.scan =
            some { list := y.meas.lists.selected, written := [], elapsed := 0
                   left :=
                     if y.meas.lists.selected = .run then y.meas.lists.runShadow else y.meas.lists.calShadow })

/-! ## Returns to LISTEN, and conditions -/

/-- O52. Bus loss at a loss period count of 4, and the end of the SILENT hold, enter LISTEN with the state of Table 5-5: the
timer, the held set, records, engine, authority and drive cleared, the pulse rings too, the calibration status NONE, and the
run list selected with the differential entries at normal polarity (R101, R110); the counts of returns (one loss more after
bus loss), the queue's own records, the latest set, the offsets, the monitors and the parameters kept (R64, R74, R76, R77).
The state conditions that what is cleared held leave, and every other one stays: DEMAND_LOST, SPLIT_VIEW, the group
conditions and AUTH_GIVEUP, ROLE_MISMATCH and CONFIG_DIFFERS (R68, R89, R134, R136, R143, R157, R158, R171). A mark being
driven is cut at the end of the present bit time (R3, R74). The own claim result is NONE: log 46; the counts and the sums of
the calibration are 0: log 57; the run count of the pair check stands: log 60; DIR is low, though R161 keeps it at an OFF
entry: log 59. As a command of its own: log 3. What is left of the hold passes with its end, and the pins are read in it: log
2. -/
def Obligations.ReturnsEnterListen : Prop :=
  ∀ (x : Station) (q : List Instr) (c : Instr),
    ((c = .busLoss ∧ isDriving x.member.state = true ∧ 4 ≤ x.member.lossPeriods)
      ∨ (c = .silentHoldEnd ∧ x.member.state = .silent)) →
    let s : Station := if c = .silentHoldEnd ∧ x.member.silentHold < 160000 then x.samplePins else x
    let ring : PulseConfig → PulseCounter := fun cfg =>
      { count := 0, ring := List.replicate cfg.window 0, fill := 0, quiet := 255 }
    -- the state conditions that leave with what held them (R134, R136, R143, R157, R158, R68, R89, R171)
    let leaves : CondKey → Prop := fun key =>
      (key.code = .demandLost ∧ key.source ≤ 8) ∨ (key.code = .splitView ∧ key.source = 0)
        ∨ ((key.code = .tiltSole ∨ key.code = .tiltVacant ∨ key.code = .steerVacant) ∧ key.source = 0)
        ∨ (key.code = .authGiveup ∧ key.source ≤ 1) ∨ (key.code = .roleMismatch ∧ key.source ≤ 7)
        ∨ (key.code = .configDiffers ∧ key.source ≤ 8)
    ∃ y : Station, exec c ⟨x, q⟩ = .next ⟨y, q⟩
      ∧ y.member = { MembershipUnit.reset with
          state := .listen, silencings := x.member.silencings, disableSeen := s.member.disableSeen
          losses := if c = .busLoss then min 4 (x.member.losses + 1) else x.member.losses }
      ∧ y.bus.position = 0 ∧ y.bus.sync = .searching ∧ y.bus.roundNumber = 0 ∧ y.bus.candidate = none
      ∧ y.bus.held = HeldSet.reset ∧ y.bus.clashCount = 0 ∧ y.bus.signature = 0 ∧ y.bus.pendingRecord = none
      ∧ y.bus.ownSig = none ∧ y.bus.nextSeq = x.bus.nextSeq ∧ y.bus.claimResult = .none
      ∧ (∀ k : StationNo, k ≠ x.number → y.peers.get k = PeerRecord.reset (x.peers.get k).rosterRole)
      ∧ (y.peers.get x.number).state = (x.peers.get x.number).state ∧ (y.peers.get x.number).lastReport = none
      ∧ y.engine = Engine.reset ∧ y.auth = Authority.atRest ∧ y.drive = { Drive.reset with fltSeen := s.drive.fltSeen }
      ∧ y.meas = { x.meas with
          lists :=
            { x.meas.lists with
              selected := .run
              calShadow := x.meas.lists.calShadow.map fun e =>
                if (x.params.own.channels.get e.channel).differential then { e with swapped := false } else e }
          ps0 := ring x.params.own.ps0, ps1 := ring x.params.own.ps1
          cal := { Calibration.reset with done := x.meas.cal.done } }
      ∧ (x.cond.tableSound → ∀ key : CondKey, condIsEvent key.code = false →
          (isHeld y.cond key = true ↔ isHeld s.cond key = true ∧ ¬leaves key))
      ∧ y.cond.proposal = none ∧ y.cond.speedMode = .park
      ∧ y.cond.queue =
          (if c = .busLoss then (offerQueue x.cond { code := .busLoss, source := 0 }).queue else s.cond.queue)
      ∧ (∀ read : BitVec 70,
          y.txdDominant read = (decide (c = .busLoss) && x.bus.mark.any fun m => decide (m.age < 8)))
      ∧ (∀ (n : Nat) (read : BitVec 70), 0 < n → (y.reach n).txdDominant read = false)
      ∧ y.pins = x.pins ∧ y.loader = x.loader ∧ y.params = x.params

/-- O53. An event whose expiry count is 0 leaves the table, and nothing else does when no condition is displaced (R175). A
raise of an event (R172 to R174, R177): a key with an entry has its expiry set to 250 again; a new one joins a table with
room as its last entry, takes the place of the weakest entry of a full one of higher level, the entry of lowest level and
among those the earliest, and else is turned away. A state condition is held once: a hold of a key held already changes
nothing, and a new one is entered so, without an expiry count; a state condition that misses or loses its place is displaced,
and held still (R171 to R174). In every case the queue counts the raise: in the key's record up to 15, as a new newest
record, or as the overflow flag. A removal ends the hold of its key, leaves every other state condition held and the queue
untouched, and where none is displaced takes its entry alone out of the table (R171, R174, R175, R177). The own fault level
is the highest level in the table, 0 for an empty one (R176). As a command of its own: log 3. -/
def Obligations.EventsAreToldAndExpire : Prop :=
  let has : List CondEntry → CondKey → Prop := fun l k => ∃ e ∈ l, e.key = k
  let held : ConditionUnit → CondKey → Prop := fun c k => has c.table k ∨ has c.displaced k
  let without : List CondEntry → CondKey → List CondEntry := fun l k => l.filter fun e => !decide (e.key = k)
  let weakestOf : List CondEntry → CondEntry → Prop := fun l w =>
    ∃ before after, l = before ++ w :: after ∧ (∀ e ∈ before, w.level < e.level) ∧ (∀ e ∈ after, w.level ≤ e.level)
  -- a new entry joins a table (R172, R174)
  let enters : ConditionUnit → CondEntry → ConditionUnit → Prop := fun c entry y =>
    let displaced : CondEntry → List CondEntry := fun e =>
      if condIsEvent e.key.code then c.displaced else c.displaced ++ [e]
    (c.table.length < 16 → y.table = c.table ++ [entry] ∧ y.displaced = c.displaced)
      ∧ (∀ w, 16 ≤ c.table.length → weakestOf c.table w →
          (w.level < entry.level → y.table = without c.table w.key ++ [entry] ∧ y.displaced = displaced w)
            ∧ (entry.level ≤ w.level → y.table = c.table ∧ y.displaced = displaced entry))
  -- a raise is offered to the queue (R177)
  let told : ConditionUnit → CondKey → ConditionUnit → Prop := fun c k y =>
    ((∃ r ∈ c.queue, r.key = k) →
        y.queue = c.queue.map (fun r => if r.key = k then { r with count := min 15 (r.count + 1) } else r)
          ∧ y.overflow = c.overflow)
      ∧ ((∀ r ∈ c.queue, r.key ≠ k) → c.queue.length < 8 →
          y.queue = c.queue ++ [{ key := k, count := 1 }] ∧ y.overflow = c.overflow)
      ∧ ((∀ r ∈ c.queue, r.key ≠ k) → 8 ≤ c.queue.length → y.queue = c.queue ∧ y.overflow = true)
  (∀ (x : Station) (q : List Instr), x.cond.displaced = [] →
    exec .conditionExpiry ⟨x, q⟩ =
      .next ⟨{ x with
        cond := { x.cond with table := x.cond.table.filter fun e => !decide (e.expiry = some 0) } }, q⟩)
  ∧ (∀ (c : ConditionUnit) (k : CondKey) (level : Nat), condIsEvent k.code = true →
    let y := raiseEvent c k level
    (has c.table k →
        y.table = c.table.map (fun e => if e.key = k then { e with expiry := some 250 } else e)
          ∧ y.displaced = c.displaced)
      ∧ (¬has c.table k → enters c { key := k, level := level, expiry := some 250, raised := c.nextRaise } y)
      ∧ told c k y)
  ∧ (∀ (c : ConditionUnit) (k : CondKey) (level : Nat), condIsEvent k.code = false →
    let y := holdCond c k level
    (held c k → y = c)
      ∧ (¬held c k →
          enters c { key := k, level := level, expiry := none, raised := c.nextRaise } y ∧ told c k y ∧ held y k))
  ∧ (∀ (c : ConditionUnit) (k : CondKey), c.tableSound →
    let y := removeCond c k
    ¬held y k ∧ y.queue = c.queue ∧ y.overflow = c.overflow
      ∧ (∀ key : CondKey, key ≠ k → condIsEvent key.code = false → (held y key ↔ held c key))
      ∧ (c.displaced = [] → y = { c with table := without c.table k }))
  ∧ ∀ c : ConditionUnit,
    (c.table = [] → faultLevel c = 0) ∧ (∀ e ∈ c.table, e.level ≤ faultLevel c)
      ∧ (c.table ≠ [] → ∃ e ∈ c.table, e.level = faultLevel c)

/-! ## Invariants -/

/-- O54. Every predicate of Safety.lean holds of the state after reset. -/
def Obligations.ResetIsSound : Prop := Station.reset.sound

/-- O55. Every step keeps the Condition Unit sound: at most 16 entries and 8 records, no key twice, counts and expiries in
range, and no displaced condition of a higher level than an entry, so that the table never hides a cause (R172, R174, R177).
-/
def Obligations.ConditionsStaySound : Prop :=
  ∀ s t : State, s.station.cond.sound → step s = .next t → t.station.cond.sound

/-- O56. Every step keeps the authority table sound: the TILT shares sum to 1000 whenever there is a holder, never more than
two TILT holders and one STEER holder, and a STEER holder outside a transaction with 1000 (R142). -/
def Obligations.AuthorityStaysSound : Prop :=
  ∀ s t : State, s.station.authoritySound → step s = .next t → t.station.authoritySound

/-- O57. Every step keeps the drive sound: the effort within EFFORT_MAX, driven nowhere but in MEMBER, LREL asked for only in
ACTIVE on a tilt role under a MODE of at least 1 (R161, R162, R169). -/
def Obligations.DriveStaysSound : Prop :=
  ∀ s t : State, s.station.driveSound → step s = .next t → t.station.driveSound

/-- O58. Every step keeps the counts of the Bus Unit and the Membership Unit in their ranges and no candidate open past its
fourth bit time, leaves no silencing, bus loss or entry to JOIN due and untaken, and leaves nothing to drive at a station
that does not drive the bus, but for the bit time in which it fell silent or lost the bus (R3 to R5, R20, R50, R63, R64, R74,
R75). That a candidate nothing has taken by then is dropped is the model's: log 51. -/
def Obligations.CountsStaySound : Prop :=
  ∀ s t : State, s.station.countsSound → step s = .next t → t.station.countsSound

/-- O59. Every step keeps the peer table sound: counters in range, and the own record, and no other, SELF (R80). -/
def Obligations.PeersStaySound : Prop :=
  ∀ s t : State, s.station.peersSound → step s = .next t → t.station.peersSound

/-- O60. Every step keeps the engine sound: setpoint and demands within 360 either way, and an IDLE engine at setpoint 0
(R119, R122, R133). -/
def Obligations.EngineStaysSound : Prop :=
  ∀ s t : State, s.station.engineSound → step s = .next t → t.station.engineSound
end

