-- ==== Sys2Proof/Laws/State.lean ====
section
/-! SUPPORT. What the shared updates of the station leave alone, one lemma for each update and part, and the laws of the container
of eight. Each holds by computation and is a simp lemma, so that no proof unfolds an update. -/

namespace Sys2Proof

/-- Every number is one of the eight. -/
theorem fin8_cases {p : Fin 8 → Prop} (h0 : p 0) (h1 : p 1) (h2 : p 2) (h3 : p 3) (h4 : p 4) (h5 : p 5) (h6 : p 6)
    (h7 : p 7) : ∀ k, p k
  | ⟨0, _⟩ => h0
  | ⟨1, _⟩ => h1
  | ⟨2, _⟩ => h2
  | ⟨3, _⟩ => h3
  | ⟨4, _⟩ => h4
  | ⟨5, _⟩ => h5
  | ⟨6, _⟩ => h6
  | ⟨7, _⟩ => h7

@[simp] theorem Eight.get_set_self {α : Type} (v : Eight α) (k : Fin 8) (a : α) : (v.set k a).get k = a :=
  fin8_cases (p := fun k => (v.set k a).get k = a) rfl rfl rfl rfl rfl rfl rfl rfl k

theorem Eight.get_set_other {α : Type} (v : Eight α) (k j : Fin 8) (a : α) (h : j ≠ k) : (v.set k a).get j = v.get j := by
  revert h
  revert j
  refine fin8_cases (p := fun k => ∀ j, j ≠ k → (v.set k a).get j = v.get j) ?_ ?_ ?_ ?_ ?_ ?_ ?_ ?_ k <;>
    refine fin8_cases ?_ ?_ ?_ ?_ ?_ ?_ ?_ ?_ <;> first | exact fun h => absurd rfl h | exact fun _ => rfl

@[simp] theorem Eight.get_fill {α : Type} (a : α) (k : Fin 8) : (Eight.fill a).get k = a :=
  fin8_cases (p := fun k => (Eight.fill a).get k = a) rfl rfl rfl rfl rfl rfl rfl rfl k

@[simp] theorem Eight.get_ofFn {α : Type} (f : Fin 8 → α) (k : Fin 8) : (Eight.ofFn f).get k = f k :=
  fin8_cases (p := fun k => (Eight.ofFn f).get k = f k) rfl rfl rfl rfl rfl rfl rfl rfl k

end Sys2Proof

namespace Sys2Proof.Machine

/-- Work that keeps a part of the station keeps it through a loop. -/
theorem Station.foldl_keeps {α β : Type} (part : Station → α) (f : Station → β → Station)
    (h : ∀ s b, part (f s b) = part s) (l : List β) (s : Station) : part (l.foldl f s) = part s := by
  induction l generalizing s with
  | nil => rfl
  | cons b rest ih => rw [List.foldl_cons, ih, h]

/-! ### raise -/

@[simp] theorem Station.raise_pins (s : Station) (code : CondCode) (source : Nat) : (s.raise code source).pins = s.pins := rfl
@[simp] theorem Station.raise_loader (s : Station) (code : CondCode) (source : Nat) : (s.raise code source).loader = s.loader := rfl
@[simp] theorem Station.raise_params (s : Station) (code : CondCode) (source : Nat) : (s.raise code source).params = s.params := rfl
@[simp] theorem Station.raise_bus (s : Station) (code : CondCode) (source : Nat) : (s.raise code source).bus = s.bus := rfl
@[simp] theorem Station.raise_member (s : Station) (code : CondCode) (source : Nat) : (s.raise code source).member = s.member := rfl
@[simp] theorem Station.raise_peers (s : Station) (code : CondCode) (source : Nat) : (s.raise code source).peers = s.peers := rfl
@[simp] theorem Station.raise_meas (s : Station) (code : CondCode) (source : Nat) : (s.raise code source).meas = s.meas := rfl
@[simp] theorem Station.raise_engine (s : Station) (code : CondCode) (source : Nat) : (s.raise code source).engine = s.engine := rfl
@[simp] theorem Station.raise_auth (s : Station) (code : CondCode) (source : Nat) : (s.raise code source).auth = s.auth := rfl
@[simp] theorem Station.raise_drive (s : Station) (code : CondCode) (source : Nat) : (s.raise code source).drive = s.drive := rfl

/-! ### setHeld -/

@[simp] theorem Station.setHeld_pins (s : Station) (cause : Bool) (code : CondCode) (source : Nat) : (s.setHeld cause code source).pins = s.pins := rfl
@[simp] theorem Station.setHeld_loader (s : Station) (cause : Bool) (code : CondCode) (source : Nat) : (s.setHeld cause code source).loader = s.loader := rfl
@[simp] theorem Station.setHeld_params (s : Station) (cause : Bool) (code : CondCode) (source : Nat) : (s.setHeld cause code source).params = s.params := rfl
@[simp] theorem Station.setHeld_bus (s : Station) (cause : Bool) (code : CondCode) (source : Nat) : (s.setHeld cause code source).bus = s.bus := rfl
@[simp] theorem Station.setHeld_member (s : Station) (cause : Bool) (code : CondCode) (source : Nat) : (s.setHeld cause code source).member = s.member := rfl
@[simp] theorem Station.setHeld_peers (s : Station) (cause : Bool) (code : CondCode) (source : Nat) : (s.setHeld cause code source).peers = s.peers := rfl
@[simp] theorem Station.setHeld_meas (s : Station) (cause : Bool) (code : CondCode) (source : Nat) : (s.setHeld cause code source).meas = s.meas := rfl
@[simp] theorem Station.setHeld_engine (s : Station) (cause : Bool) (code : CondCode) (source : Nat) : (s.setHeld cause code source).engine = s.engine := rfl
@[simp] theorem Station.setHeld_auth (s : Station) (cause : Bool) (code : CondCode) (source : Nat) : (s.setHeld cause code source).auth = s.auth := rfl
@[simp] theorem Station.setHeld_drive (s : Station) (cause : Bool) (code : CondCode) (source : Nat) : (s.setHeld cause code source).drive = s.drive := rfl

/-! ### setHeldAt -/

@[simp] theorem Station.setHeldAt_pins (s : Station) (cause : Bool) (code : CondCode) (source level : Nat) : (s.setHeldAt cause code source level).pins = s.pins := rfl
@[simp] theorem Station.setHeldAt_loader (s : Station) (cause : Bool) (code : CondCode) (source level : Nat) : (s.setHeldAt cause code source level).loader = s.loader := rfl
@[simp] theorem Station.setHeldAt_params (s : Station) (cause : Bool) (code : CondCode) (source level : Nat) : (s.setHeldAt cause code source level).params = s.params := rfl
@[simp] theorem Station.setHeldAt_bus (s : Station) (cause : Bool) (code : CondCode) (source level : Nat) : (s.setHeldAt cause code source level).bus = s.bus := rfl
@[simp] theorem Station.setHeldAt_member (s : Station) (cause : Bool) (code : CondCode) (source level : Nat) : (s.setHeldAt cause code source level).member = s.member := rfl
@[simp] theorem Station.setHeldAt_peers (s : Station) (cause : Bool) (code : CondCode) (source level : Nat) : (s.setHeldAt cause code source level).peers = s.peers := rfl
@[simp] theorem Station.setHeldAt_meas (s : Station) (cause : Bool) (code : CondCode) (source level : Nat) : (s.setHeldAt cause code source level).meas = s.meas := rfl
@[simp] theorem Station.setHeldAt_engine (s : Station) (cause : Bool) (code : CondCode) (source level : Nat) : (s.setHeldAt cause code source level).engine = s.engine := rfl
@[simp] theorem Station.setHeldAt_auth (s : Station) (cause : Bool) (code : CondCode) (source level : Nat) : (s.setHeldAt cause code source level).auth = s.auth := rfl
@[simp] theorem Station.setHeldAt_drive (s : Station) (cause : Bool) (code : CondCode) (source level : Nat) : (s.setHeldAt cause code source level).drive = s.drive := rfl

/-! ### removeDemandLost -/

@[simp] theorem Station.removeDemandLost_pins (s : Station) : (s.removeDemandLost).pins = s.pins := by
  unfold Station.removeDemandLost
  exact Station.foldl_keeps (fun x => x.pins) (fun s src => s.setHeld false .demandLost src) (fun _ _ => rfl) (List.range 9) s
@[simp] theorem Station.removeDemandLost_loader (s : Station) : (s.removeDemandLost).loader = s.loader := by
  unfold Station.removeDemandLost
  exact Station.foldl_keeps (fun x => x.loader) (fun s src => s.setHeld false .demandLost src) (fun _ _ => rfl) (List.range 9) s
@[simp] theorem Station.removeDemandLost_params (s : Station) : (s.removeDemandLost).params = s.params := by
  unfold Station.removeDemandLost
  exact Station.foldl_keeps (fun x => x.params) (fun s src => s.setHeld false .demandLost src) (fun _ _ => rfl) (List.range 9) s
@[simp] theorem Station.removeDemandLost_bus (s : Station) : (s.removeDemandLost).bus = s.bus := by
  unfold Station.removeDemandLost
  exact Station.foldl_keeps (fun x => x.bus) (fun s src => s.setHeld false .demandLost src) (fun _ _ => rfl) (List.range 9) s
@[simp] theorem Station.removeDemandLost_member (s : Station) : (s.removeDemandLost).member = s.member := by
  unfold Station.removeDemandLost
  exact Station.foldl_keeps (fun x => x.member) (fun s src => s.setHeld false .demandLost src) (fun _ _ => rfl) (List.range 9) s
@[simp] theorem Station.removeDemandLost_peers (s : Station) : (s.removeDemandLost).peers = s.peers := by
  unfold Station.removeDemandLost
  exact Station.foldl_keeps (fun x => x.peers) (fun s src => s.setHeld false .demandLost src) (fun _ _ => rfl) (List.range 9) s
@[simp] theorem Station.removeDemandLost_meas (s : Station) : (s.removeDemandLost).meas = s.meas := by
  unfold Station.removeDemandLost
  exact Station.foldl_keeps (fun x => x.meas) (fun s src => s.setHeld false .demandLost src) (fun _ _ => rfl) (List.range 9) s
@[simp] theorem Station.removeDemandLost_engine (s : Station) : (s.removeDemandLost).engine = s.engine := by
  unfold Station.removeDemandLost
  exact Station.foldl_keeps (fun x => x.engine) (fun s src => s.setHeld false .demandLost src) (fun _ _ => rfl) (List.range 9) s
@[simp] theorem Station.removeDemandLost_auth (s : Station) : (s.removeDemandLost).auth = s.auth := by
  unfold Station.removeDemandLost
  exact Station.foldl_keeps (fun x => x.auth) (fun s src => s.setHeld false .demandLost src) (fun _ _ => rfl) (List.range 9) s
@[simp] theorem Station.removeDemandLost_drive (s : Station) : (s.removeDemandLost).drive = s.drive := by
  unfold Station.removeDemandLost
  exact Station.foldl_keeps (fun x => x.drive) (fun s src => s.setHeld false .demandLost src) (fun _ _ => rfl) (List.range 9) s

/-! ### removeRecordConds -/

@[simp] theorem Station.removeRecordConds_pins (s : Station) (k : StationNo) : (s.removeRecordConds k).pins = s.pins := rfl
@[simp] theorem Station.removeRecordConds_loader (s : Station) (k : StationNo) : (s.removeRecordConds k).loader = s.loader := rfl
@[simp] theorem Station.removeRecordConds_params (s : Station) (k : StationNo) : (s.removeRecordConds k).params = s.params := rfl
@[simp] theorem Station.removeRecordConds_bus (s : Station) (k : StationNo) : (s.removeRecordConds k).bus = s.bus := rfl
@[simp] theorem Station.removeRecordConds_member (s : Station) (k : StationNo) : (s.removeRecordConds k).member = s.member := rfl
@[simp] theorem Station.removeRecordConds_peers (s : Station) (k : StationNo) : (s.removeRecordConds k).peers = s.peers := rfl
@[simp] theorem Station.removeRecordConds_meas (s : Station) (k : StationNo) : (s.removeRecordConds k).meas = s.meas := rfl
@[simp] theorem Station.removeRecordConds_engine (s : Station) (k : StationNo) : (s.removeRecordConds k).engine = s.engine := rfl
@[simp] theorem Station.removeRecordConds_auth (s : Station) (k : StationNo) : (s.removeRecordConds k).auth = s.auth := rfl
@[simp] theorem Station.removeRecordConds_drive (s : Station) (k : StationNo) : (s.removeRecordConds k).drive = s.drive := rfl

/-! ### driveOff -/

@[simp] theorem Station.driveOff_pins (s : Station) : (s.driveOff).pins = s.pins := rfl
@[simp] theorem Station.driveOff_loader (s : Station) : (s.driveOff).loader = s.loader := rfl
@[simp] theorem Station.driveOff_params (s : Station) : (s.driveOff).params = s.params := rfl
@[simp] theorem Station.driveOff_bus (s : Station) : (s.driveOff).bus = s.bus := rfl
@[simp] theorem Station.driveOff_member (s : Station) : (s.driveOff).member = s.member := rfl
@[simp] theorem Station.driveOff_peers (s : Station) : (s.driveOff).peers = s.peers := rfl
@[simp] theorem Station.driveOff_meas (s : Station) : (s.driveOff).meas = s.meas := rfl
@[simp] theorem Station.driveOff_engine (s : Station) : (s.driveOff).engine = s.engine := rfl
@[simp] theorem Station.driveOff_auth (s : Station) : (s.driveOff).auth = s.auth := rfl
@[simp] theorem Station.driveOff_cond (s : Station) : (s.driveOff).cond = s.cond := rfl

/-! ### The sample points of the pins -/

@[simp] theorem Station.seeDisable_frame (s : Station) (b : Bool) :
    (s.seeDisable b).pins = s.pins ∧ (s.seeDisable b).loader = s.loader
      ∧ (s.seeDisable b).params = s.params
      ∧ (s.seeDisable b).bus = s.bus ∧ (s.seeDisable b).peers = s.peers
      ∧ (s.seeDisable b).meas = s.meas
      ∧ (s.seeDisable b).engine = s.engine ∧ (s.seeDisable b).auth = s.auth := by
  unfold Station.seeDisable
  dsimp only
  (repeat' split) <;> simp

@[simp] theorem Station.seeDrvFlt_frame (s : Station) (b : Bool) :
    (s.seeDrvFlt b).pins = s.pins ∧ (s.seeDrvFlt b).loader = s.loader
      ∧ (s.seeDrvFlt b).params = s.params
      ∧ (s.seeDrvFlt b).bus = s.bus ∧ (s.seeDrvFlt b).member = s.member
      ∧ (s.seeDrvFlt b).peers = s.peers
      ∧ (s.seeDrvFlt b).meas = s.meas ∧ (s.seeDrvFlt b).engine = s.engine
      ∧ (s.seeDrvFlt b).auth = s.auth := by
  unfold Station.seeDrvFlt; (repeat' split) <;> simp

@[simp] theorem Station.samplePins_frame (s : Station) :
    s.samplePins.pins = s.pins ∧ s.samplePins.loader = s.loader
      ∧ s.samplePins.params = s.params
      ∧ s.samplePins.bus = s.bus ∧ s.samplePins.peers = s.peers ∧ s.samplePins.meas = s.meas
      ∧ s.samplePins.engine = s.engine ∧ s.samplePins.auth = s.auth := by
  unfold Station.samplePins
  split <;> simp

@[simp] theorem Station.sampleUntil_pins (s : Station) (p : Nat) : (s.sampleUntil p).pins = s.pins := by
  unfold Station.sampleUntil; split <;> simp
@[simp] theorem Station.sampleUntil_loader (s : Station) (p : Nat) : (s.sampleUntil p).loader = s.loader := by
  unfold Station.sampleUntil; split <;> simp
@[simp] theorem Station.sampleUntil_params (s : Station) (p : Nat) : (s.sampleUntil p).params = s.params := by
  unfold Station.sampleUntil; split <;> simp
@[simp] theorem Station.sampleUntil_bus (s : Station) (p : Nat) : (s.sampleUntil p).bus = s.bus := by
  unfold Station.sampleUntil; split <;> simp
@[simp] theorem Station.sampleUntil_peers (s : Station) (p : Nat) : (s.sampleUntil p).peers = s.peers := by
  unfold Station.sampleUntil; split <;> simp
@[simp] theorem Station.sampleUntil_meas (s : Station) (p : Nat) : (s.sampleUntil p).meas = s.meas := by
  unfold Station.sampleUntil; split <;> simp
@[simp] theorem Station.sampleUntil_engine (s : Station) (p : Nat) : (s.sampleUntil p).engine = s.engine := by
  unfold Station.sampleUntil; split <;> simp
@[simp] theorem Station.sampleUntil_auth (s : Station) (p : Nat) : (s.sampleUntil p).auth = s.auth := by
  unfold Station.sampleUntil; split <;> simp

/-- What a sample point makes of the station state (R72): MEMBER and HALTED follow DISABLE, and no other state moves. -/
theorem Station.samplePins_state (s : Station) :
    s.samplePins.member.state =
      if s.pins.disable ∧ s.member.state = .member then .halted
      else if ¬s.pins.disable ∧ s.member.state = .halted then .member
      else s.member.state := by
  unfold Station.samplePins
  split
  · simp only [Station.seeDrvFlt_frame, Station.seeDisable]
    cases hd : s.pins.disable <;> cases hs : s.member.state <;> simp
  · next h =>
    cases hs : s.member.state <;> simp_all [readsPins]

/-- A test that does not tell MEMBER from HALTED stands over the sample points. -/
theorem Station.sampleUntil_test (test : StationState → Bool) (h : test .member = test .halted) (s : Station) (p : Nat) :
    test (s.sampleUntil p).member.state = test s.member.state := by
  unfold Station.sampleUntil
  split
  · rw [Station.samplePins_state]
    split
    · next hh => rw [hh.2, h]
    · split
      · next hh => rw [hh.2, h]
      · rfl
  · rfl

@[simp] theorem Station.sampleUntil_isDriving (s : Station) (p : Nat) :
    isDriving (s.sampleUntil p).member.state = isDriving s.member.state := Station.sampleUntil_test isDriving rfl s p
@[simp] theorem Station.sampleUntil_isFollowing (s : Station) (p : Nat) :
    isFollowing (s.sampleUntil p).member.state = isFollowing s.member.state := Station.sampleUntil_test isFollowing rfl s p
@[simp] theorem Station.sampleUntil_takesPart (s : Station) (p : Nat) :
    takesPart (s.sampleUntil p).member.state = takesPart s.member.state := Station.sampleUntil_test takesPart rfl s p
@[simp] theorem Station.sampleUntil_timerRuns (s : Station) (p : Nat) :
    timerRuns (s.sampleUntil p).member.state = timerRuns s.member.state := Station.sampleUntil_test timerRuns rfl s p

/-- A state other than MEMBER and HALTED is the same after the sample points as before them. -/
theorem Station.sampleUntil_state_eq {x : StationState} (hm : x ≠ .member) (hh : x ≠ .halted) (s : Station) (p : Nat) :
    (s.sampleUntil p).member.state = x ↔ s.member.state = x := by
  have h := Station.sampleUntil_test (fun y => decide (y = x))
    (by rw [decide_eq_false (Ne.symm hm), decide_eq_false (Ne.symm hh)]) s p
  exact ⟨fun e => of_decide_eq_true (h ▸ decide_eq_true e), fun e => of_decide_eq_true (h.trans (decide_eq_true e))⟩

/-! ### later and advance -/

@[simp] theorem BusUnit.later_position (b : BusUnit) (p : Nat) :
    (b.later p).position = min Config.positionMax (max b.position p) := rfl
@[simp] theorem BusUnit.later_sync (b : BusUnit) (p : Nat) : (b.later p).sync = b.sync := rfl
@[simp] theorem BusUnit.later_roundNumber (b : BusUnit) (p : Nat) : (b.later p).roundNumber = b.roundNumber := rfl
@[simp] theorem BusUnit.later_round (b : BusUnit) (p : Nat) : (b.later p).round = b.round := rfl
@[simp] theorem BusUnit.later_stuckCount (b : BusUnit) (p : Nat) : (b.later p).stuckCount = b.stuckCount := rfl
@[simp] theorem BusUnit.later_stuckNext (b : BusUnit) (p : Nat) : (b.later p).stuckNext = b.stuckNext := rfl
@[simp] theorem BusUnit.later_keptMode (b : BusUnit) (p : Nat) : (b.later p).keptMode = b.keptMode := rfl
@[simp] theorem BusUnit.later_keptLimit (b : BusUnit) (p : Nat) : (b.later p).keptLimit = b.keptLimit := rfl
@[simp] theorem BusUnit.later_keptFault (b : BusUnit) (p : Nat) : (b.later p).keptFault = b.keptFault := rfl
@[simp] theorem BusUnit.later_wireRead (b : BusUnit) (p : Nat) : (b.later p).wireRead = b.wireRead := rfl
@[simp] theorem BusUnit.later_held (b : BusUnit) (p : Nat) : (b.later p).held = b.held := rfl
@[simp] theorem BusUnit.later_claimResult (b : BusUnit) (p : Nat) : (b.later p).claimResult = b.claimResult := rfl
@[simp] theorem BusUnit.later_nextSeq (b : BusUnit) (p : Nat) : (b.later p).nextSeq = b.nextSeq := rfl
@[simp] theorem BusUnit.later_clashCount (b : BusUnit) (p : Nat) : (b.later p).clashCount = b.clashCount := rfl
@[simp] theorem BusUnit.later_signature (b : BusUnit) (p : Nat) : (b.later p).signature = b.signature := rfl
@[simp] theorem BusUnit.later_ownSig (b : BusUnit) (p : Nat) : (b.later p).ownSig = b.ownSig := rfl
@[simp] theorem BusUnit.later_pendingRecord (b : BusUnit) (p : Nat) : (b.later p).pendingRecord = b.pendingRecord := rfl
@[simp] theorem BusUnit.later_lastSection (b : BusUnit) (p : Nat) : (b.later p).lastSection = b.lastSection := rfl

@[simp] theorem BusUnit.later_no_candidate {b : BusUnit} {p : Nat} (h : b.candidate = none) : (b.later p).candidate = none := by
  simp [BusUnit.later, h]

@[simp] theorem BusUnit.later_cutBit (b : BusUnit) (p : Nat) :
    (b.later p).cutBit = (b.cutBit && decide (p ≤ b.position)) := rfl

@[simp] theorem BusUnit.later_no_mark {b : BusUnit} {p : Nat} (h : b.mark = none) : (b.later p).mark = none := by
  simp [BusUnit.later, h]

/-- With no candidate, no mark and none just cut, time moves the position alone. -/
theorem BusUnit.later_bare {b : BusUnit} {p : Nat} (hc : b.candidate = none) (hm : b.mark = none) (hk : b.cutBit = false) :
    b.later p = { b with position := min Config.positionMax (max b.position p) } := by
  cases b
  simp_all [BusUnit.later]

/-- All that the passing of time does to the timer: it goes on, and a window may be lost. -/
theorem Station.advance_cases (s : Station) (p : Nat) :
    s.advance p = { s with bus := s.bus.later p }
      ∨ s.advance p = ({ s with bus := s.bus.later p } : Station).loseMarks := by
  unfold Station.advance
  dsimp only
  split
  · exact .inr rfl
  · exact .inl rfl

/-- What the timer's steps and the loss of the marks both keep, the passing of time keeps. -/
theorem Station.advance_keeps {α : Type} (part : Station → α) (s : Station) (p : Nat)
    (hlater : part { s with bus := s.bus.later p } = part s)
    (hlose : part ({ s with bus := s.bus.later p } : Station).loseMarks = part s) : part (s.advance p) = part s :=
  (s.advance_cases p).elim (fun h => (congrArg part h).trans hlater) fun h => (congrArg part h).trans hlose

@[simp] theorem Station.advance_pins (s : Station) (p : Nat) : (s.advance p).pins = s.pins :=
  Station.advance_keeps (fun x => x.pins) s p rfl rfl
@[simp] theorem Station.advance_loader (s : Station) (p : Nat) : (s.advance p).loader = s.loader :=
  Station.advance_keeps (fun x => x.loader) s p rfl rfl
@[simp] theorem Station.advance_params (s : Station) (p : Nat) : (s.advance p).params = s.params :=
  Station.advance_keeps (fun x => x.params) s p rfl rfl
@[simp] theorem Station.advance_peers (s : Station) (p : Nat) : (s.advance p).peers = s.peers :=
  Station.advance_keeps (fun x => x.peers) s p rfl rfl
@[simp] theorem Station.advance_meas (s : Station) (p : Nat) : (s.advance p).meas = s.meas :=
  Station.advance_keeps (fun x => x.meas) s p rfl rfl
@[simp] theorem Station.advance_engine (s : Station) (p : Nat) : (s.advance p).engine = s.engine :=
  Station.advance_keeps (fun x => x.engine) s p rfl rfl
@[simp] theorem Station.advance_auth (s : Station) (p : Nat) : (s.advance p).auth = s.auth :=
  Station.advance_keeps (fun x => x.auth) s p rfl rfl
@[simp] theorem Station.advance_drive (s : Station) (p : Nat) : (s.advance p).drive = s.drive :=
  Station.advance_keeps (fun x => x.drive) s p rfl rfl
@[simp] theorem Station.advance_cond (s : Station) (p : Nat) : (s.advance p).cond = s.cond :=
  Station.advance_keeps (fun x => x.cond) s p rfl rfl
@[simp] theorem Station.advance_state (s : Station) (p : Nat) : (s.advance p).member.state = s.member.state :=
  Station.advance_keeps (fun x => x.member.state) s p rfl rfl
@[simp] theorem Station.advance_position (s : Station) (p : Nat) :
    (s.advance p).bus.position = min Config.positionMax (max s.bus.position p) := by
  rcases s.advance_cases p with h | h <;> (rw [h]; rfl)
@[simp] theorem Station.advance_bus_roundNumber (s : Station) (p : Nat) : (s.advance p).bus.roundNumber = s.bus.roundNumber :=
  Station.advance_keeps (fun x => x.bus.roundNumber) s p rfl rfl
@[simp] theorem Station.advance_bus_cutBit (s : Station) (p : Nat) :
    (s.advance p).bus.cutBit = (s.bus.cutBit && decide (p ≤ s.bus.position)) := by
  rcases s.advance_cases p with h | h <;> (rw [h]; rfl)
@[simp] theorem Station.advance_bus_stuckCount (s : Station) (p : Nat) : (s.advance p).bus.stuckCount = s.bus.stuckCount :=
  Station.advance_keeps (fun x => x.bus.stuckCount) s p rfl rfl
@[simp] theorem Station.advance_bus_stuckNext (s : Station) (p : Nat) : (s.advance p).bus.stuckNext = s.bus.stuckNext :=
  Station.advance_keeps (fun x => x.bus.stuckNext) s p rfl rfl
@[simp] theorem Station.advance_bus_keptMode (s : Station) (p : Nat) : (s.advance p).bus.keptMode = s.bus.keptMode :=
  Station.advance_keeps (fun x => x.bus.keptMode) s p rfl rfl
@[simp] theorem Station.advance_bus_keptLimit (s : Station) (p : Nat) : (s.advance p).bus.keptLimit = s.bus.keptLimit :=
  Station.advance_keeps (fun x => x.bus.keptLimit) s p rfl rfl
@[simp] theorem Station.advance_bus_keptFault (s : Station) (p : Nat) : (s.advance p).bus.keptFault = s.bus.keptFault :=
  Station.advance_keeps (fun x => x.bus.keptFault) s p rfl rfl
@[simp] theorem Station.advance_bus_wireRead (s : Station) (p : Nat) : (s.advance p).bus.wireRead = s.bus.wireRead :=
  Station.advance_keeps (fun x => x.bus.wireRead) s p rfl rfl
@[simp] theorem Station.advance_bus_held (s : Station) (p : Nat) : (s.advance p).bus.held = s.bus.held :=
  Station.advance_keeps (fun x => x.bus.held) s p rfl rfl
@[simp] theorem Station.advance_bus_claimResult (s : Station) (p : Nat) : (s.advance p).bus.claimResult = s.bus.claimResult :=
  Station.advance_keeps (fun x => x.bus.claimResult) s p rfl rfl
@[simp] theorem Station.advance_bus_nextSeq (s : Station) (p : Nat) : (s.advance p).bus.nextSeq = s.bus.nextSeq :=
  Station.advance_keeps (fun x => x.bus.nextSeq) s p rfl rfl
@[simp] theorem Station.advance_bus_clashCount (s : Station) (p : Nat) : (s.advance p).bus.clashCount = s.bus.clashCount :=
  Station.advance_keeps (fun x => x.bus.clashCount) s p rfl rfl
@[simp] theorem Station.advance_bus_signature (s : Station) (p : Nat) : (s.advance p).bus.signature = s.bus.signature :=
  Station.advance_keeps (fun x => x.bus.signature) s p rfl rfl
@[simp] theorem Station.advance_bus_ownSig (s : Station) (p : Nat) : (s.advance p).bus.ownSig = s.bus.ownSig :=
  Station.advance_keeps (fun x => x.bus.ownSig) s p rfl rfl
@[simp] theorem Station.advance_bus_lastSection (s : Station) (p : Nat) : (s.advance p).bus.lastSection = s.bus.lastSection :=
  Station.advance_keeps (fun x => x.bus.lastSection) s p rfl rfl

/-- Up to the end of the window, time moves the timer and nothing else. -/
theorem Station.advance_inside {s : Station} {p : Nat} (h : s.bus.position ≤ Config.windowLast) (hp : p ≤ Config.windowLast) :
    s.advance p = { s with bus := s.bus.later p } := by
  unfold Station.advance
  refine if_neg ?_
  have : ¬(Config.windowLast < min Config.positionMax (max s.bus.position p)) := by omega
  simp only [Station.windowPassed, BusUnit.later_position, this, decide_false, Bool.and_false, Bool.false_eq_true,
    not_false_eq_true]

/-- A driving station's time moves the timer and nothing else (R9). -/
theorem Station.advance_driving {s : Station} (p : Nat) (h : isDriving s.member.state = true) :
    s.advance p = { s with bus := s.bus.later p } := by
  unfold Station.advance
  refine if_neg ?_
  have : isFollowing s.member.state = false := by
    revert h; cases s.member.state <;> decide
  simp [Station.windowPassed, this]

/-- What the passing of time does to the counts of the Membership Unit: the good-round count goes with the marks (R63). -/
theorem Station.advance_member (s : Station) (p : Nat) :
    (s.advance p).member = s.member ∨ (s.advance p).member = { s.member with goodRounds := 0 } := by
  rcases s.advance_cases p with h | h <;> rw [h]
  · exact .inl rfl
  · exact .inr rfl

/-! ### reach -/

@[simp] theorem Station.reach_pins (s : Station) (p : Nat) : (s.reach p).pins = s.pins := by simp [Station.reach]
@[simp] theorem Station.reach_loader (s : Station) (p : Nat) : (s.reach p).loader = s.loader := by simp [Station.reach]
@[simp] theorem Station.reach_params (s : Station) (p : Nat) : (s.reach p).params = s.params := by simp [Station.reach]
@[simp] theorem Station.reach_peers (s : Station) (p : Nat) : (s.reach p).peers = s.peers := by simp [Station.reach]
@[simp] theorem Station.reach_meas (s : Station) (p : Nat) : (s.reach p).meas = s.meas := by simp [Station.reach]
@[simp] theorem Station.reach_engine (s : Station) (p : Nat) : (s.reach p).engine = s.engine := by simp [Station.reach]
@[simp] theorem Station.reach_auth (s : Station) (p : Nat) : (s.reach p).auth = s.auth := by simp [Station.reach]
@[simp] theorem Station.reach_drive (s : Station) (p : Nat) : (s.reach p).drive = (s.sampleUntil p).drive := by
  simp [Station.reach]
@[simp] theorem Station.reach_cond (s : Station) (p : Nat) : (s.reach p).cond = (s.sampleUntil p).cond := by
  simp [Station.reach]
@[simp] theorem Station.reach_state (s : Station) (p : Nat) :
    (s.reach p).member.state = (s.sampleUntil p).member.state := by simp [Station.reach]
@[simp] theorem Station.reach_position (s : Station) (p : Nat) :
    (s.reach p).bus.position = min Config.positionMax (max s.bus.position p) := by simp [Station.reach]
@[simp] theorem Station.reach_bus_roundNumber (s : Station) (p : Nat) : (s.reach p).bus.roundNumber = s.bus.roundNumber := by
  simp [Station.reach]
@[simp] theorem Station.reach_bus_stuckCount (s : Station) (p : Nat) : (s.reach p).bus.stuckCount = s.bus.stuckCount := by
  simp [Station.reach]
@[simp] theorem Station.reach_bus_stuckNext (s : Station) (p : Nat) : (s.reach p).bus.stuckNext = s.bus.stuckNext := by
  simp [Station.reach]
@[simp] theorem Station.reach_bus_cutBit (s : Station) (p : Nat) :
    (s.reach p).bus.cutBit = (s.bus.cutBit && decide (p ≤ s.bus.position)) := by
  simp [Station.reach]
@[simp] theorem Station.reach_bus_keptMode (s : Station) (p : Nat) : (s.reach p).bus.keptMode = s.bus.keptMode := by
  simp [Station.reach]
@[simp] theorem Station.reach_bus_keptLimit (s : Station) (p : Nat) : (s.reach p).bus.keptLimit = s.bus.keptLimit := by
  simp [Station.reach]
@[simp] theorem Station.reach_bus_keptFault (s : Station) (p : Nat) : (s.reach p).bus.keptFault = s.bus.keptFault := by
  simp [Station.reach]
@[simp] theorem Station.reach_bus_wireRead (s : Station) (p : Nat) : (s.reach p).bus.wireRead = s.bus.wireRead := by
  simp [Station.reach]
@[simp] theorem Station.reach_bus_held (s : Station) (p : Nat) : (s.reach p).bus.held = s.bus.held := by simp [Station.reach]
@[simp] theorem Station.reach_bus_claimResult (s : Station) (p : Nat) : (s.reach p).bus.claimResult = s.bus.claimResult := by
  simp [Station.reach]
@[simp] theorem Station.reach_bus_nextSeq (s : Station) (p : Nat) : (s.reach p).bus.nextSeq = s.bus.nextSeq := by
  simp [Station.reach]
@[simp] theorem Station.reach_bus_clashCount (s : Station) (p : Nat) : (s.reach p).bus.clashCount = s.bus.clashCount := by
  simp [Station.reach]
@[simp] theorem Station.reach_bus_signature (s : Station) (p : Nat) : (s.reach p).bus.signature = s.bus.signature := by
  simp [Station.reach]
@[simp] theorem Station.reach_bus_ownSig (s : Station) (p : Nat) : (s.reach p).bus.ownSig = s.bus.ownSig := by
  simp [Station.reach]
@[simp] theorem Station.reach_bus_lastSection (s : Station) (p : Nat) : (s.reach p).bus.lastSection = s.bus.lastSection := by
  simp [Station.reach]

/-- A moment that is not to come moves no time: only the timer's saturation and a lost window are left of it. -/
theorem Station.reach_passed {s : Station} {p : Nat} (h : p ≤ s.bus.position) : s.reach p = s.advance p := by
  simp [Station.reach, Station.sampleUntil, Nat.not_lt.mpr h]

/-- Up to the end of the window, the passing of time moves the timer and reads the pins, and nothing else. -/
theorem Station.reach_inside {s : Station} {p : Nat} (h : s.bus.position ≤ Config.windowLast) (hp : p ≤ Config.windowLast) :
    s.reach p = { s.sampleUntil p with bus := s.bus.later p } := by
  rw [Station.reach, Station.advance_inside (by simpa using h) hp, Station.sampleUntil_bus]

/-- A driving station's time moves the timer and reads the pins, and nothing else (R9). -/
theorem Station.reach_driving {s : Station} (p : Nat) (h : isDriving s.member.state = true) :
    s.reach p = { s.sampleUntil p with bus := s.bus.later p } := by
  rw [Station.reach, Station.advance_driving p (by simpa using h), Station.sampleUntil_bus]

/-- The passing of time moves a driving station between MEMBER and HALTED at most, so that it drives as before (R72). -/
theorem Station.reach_isDriving (s : Station) (p : Nat) : isDriving (s.reach p).member.state = isDriving s.member.state := by
  simp

/-- The station takes part in the round after the passing of time as before it. -/
theorem Station.reach_takesPart (s : Station) (p : Nat) : takesPart (s.reach p).member.state = takesPart s.member.state := by
  simp

/-! ### restAuthority -/

@[simp] theorem Station.restAuthority_pins (s : Station) : (s.restAuthority).pins = s.pins := by
  simp only [Station.restAuthority, Station.setHeld_pins]
@[simp] theorem Station.restAuthority_loader (s : Station) : (s.restAuthority).loader = s.loader := by
  simp only [Station.restAuthority, Station.setHeld_loader]
@[simp] theorem Station.restAuthority_params (s : Station) : (s.restAuthority).params = s.params := by
  simp only [Station.restAuthority, Station.setHeld_params]
@[simp] theorem Station.restAuthority_bus (s : Station) : (s.restAuthority).bus = s.bus := by
  simp only [Station.restAuthority, Station.setHeld_bus]
@[simp] theorem Station.restAuthority_member (s : Station) : (s.restAuthority).member = s.member := by
  simp only [Station.restAuthority, Station.setHeld_member]
@[simp] theorem Station.restAuthority_peers (s : Station) : (s.restAuthority).peers = s.peers := by
  simp only [Station.restAuthority, Station.setHeld_peers]
@[simp] theorem Station.restAuthority_meas (s : Station) : (s.restAuthority).meas = s.meas := by
  simp only [Station.restAuthority, Station.setHeld_meas]
@[simp] theorem Station.restAuthority_engine (s : Station) : (s.restAuthority).engine = s.engine := by
  simp only [Station.restAuthority, Station.setHeld_engine]
@[simp] theorem Station.restAuthority_drive (s : Station) : (s.restAuthority).drive = s.drive := by
  simp only [Station.restAuthority, Station.setHeld_drive]

/-! ### clearEngine -/

@[simp] theorem Station.clearEngine_pins (s : Station) : (s.clearEngine).pins = s.pins := by
  simp only [Station.clearEngine, Station.setHeld_pins, Station.removeDemandLost_pins]
@[simp] theorem Station.clearEngine_loader (s : Station) : (s.clearEngine).loader = s.loader := by
  simp only [Station.clearEngine, Station.setHeld_loader, Station.removeDemandLost_loader]
@[simp] theorem Station.clearEngine_params (s : Station) : (s.clearEngine).params = s.params := by
  simp only [Station.clearEngine, Station.setHeld_params, Station.removeDemandLost_params]
@[simp] theorem Station.clearEngine_bus (s : Station) : (s.clearEngine).bus = s.bus := by
  simp only [Station.clearEngine, Station.setHeld_bus, Station.removeDemandLost_bus]
@[simp] theorem Station.clearEngine_member (s : Station) : (s.clearEngine).member = s.member := by
  simp only [Station.clearEngine, Station.setHeld_member, Station.removeDemandLost_member]
@[simp] theorem Station.clearEngine_peers (s : Station) : (s.clearEngine).peers = s.peers := by
  simp only [Station.clearEngine, Station.setHeld_peers, Station.removeDemandLost_peers]
@[simp] theorem Station.clearEngine_meas (s : Station) : (s.clearEngine).meas = s.meas := by
  simp only [Station.clearEngine, Station.setHeld_meas, Station.removeDemandLost_meas]
@[simp] theorem Station.clearEngine_auth (s : Station) : (s.clearEngine).auth = s.auth := by
  simp only [Station.clearEngine, Station.setHeld_auth, Station.removeDemandLost_auth]
@[simp] theorem Station.clearEngine_drive (s : Station) : (s.clearEngine).drive = s.drive := by
  simp only [Station.clearEngine, Station.setHeld_drive, Station.removeDemandLost_drive]

/-! ### clearPeers -/

@[simp] theorem Station.clearPeers_pins (s : Station) : (s.clearPeers).pins = s.pins := by
  unfold Station.clearPeers
  exact Station.foldl_keeps (fun x => x.pins) Station.removeRecordConds (fun _ _ => rfl) allStations
    { s with peers := clearedPeers s.number s.peers }
@[simp] theorem Station.clearPeers_loader (s : Station) : (s.clearPeers).loader = s.loader := by
  unfold Station.clearPeers
  exact Station.foldl_keeps (fun x => x.loader) Station.removeRecordConds (fun _ _ => rfl) allStations
    { s with peers := clearedPeers s.number s.peers }
@[simp] theorem Station.clearPeers_params (s : Station) : (s.clearPeers).params = s.params := by
  unfold Station.clearPeers
  exact Station.foldl_keeps (fun x => x.params) Station.removeRecordConds (fun _ _ => rfl) allStations
    { s with peers := clearedPeers s.number s.peers }
@[simp] theorem Station.clearPeers_bus (s : Station) : (s.clearPeers).bus = s.bus := by
  unfold Station.clearPeers
  exact Station.foldl_keeps (fun x => x.bus) Station.removeRecordConds (fun _ _ => rfl) allStations
    { s with peers := clearedPeers s.number s.peers }
@[simp] theorem Station.clearPeers_member (s : Station) : (s.clearPeers).member = s.member := by
  unfold Station.clearPeers
  exact Station.foldl_keeps (fun x => x.member) Station.removeRecordConds (fun _ _ => rfl) allStations
    { s with peers := clearedPeers s.number s.peers }
@[simp] theorem Station.clearPeers_meas (s : Station) : (s.clearPeers).meas = s.meas := by
  unfold Station.clearPeers
  exact Station.foldl_keeps (fun x => x.meas) Station.removeRecordConds (fun _ _ => rfl) allStations
    { s with peers := clearedPeers s.number s.peers }
@[simp] theorem Station.clearPeers_engine (s : Station) : (s.clearPeers).engine = s.engine := by
  unfold Station.clearPeers
  exact Station.foldl_keeps (fun x => x.engine) Station.removeRecordConds (fun _ _ => rfl) allStations
    { s with peers := clearedPeers s.number s.peers }
@[simp] theorem Station.clearPeers_auth (s : Station) : (s.clearPeers).auth = s.auth := by
  unfold Station.clearPeers
  exact Station.foldl_keeps (fun x => x.auth) Station.removeRecordConds (fun _ _ => rfl) allStations
    { s with peers := clearedPeers s.number s.peers }
@[simp] theorem Station.clearPeers_drive (s : Station) : (s.clearPeers).drive = s.drive := by
  unfold Station.clearPeers
  exact Station.foldl_keeps (fun x => x.drive) Station.removeRecordConds (fun _ _ => rfl) allStations
    { s with peers := clearedPeers s.number s.peers }

/-! ### postList -/

@[simp] theorem Station.postList_pins (s : Station) (list : ScanList) (swapped : Bool) : (s.postList list swapped).pins = s.pins := rfl
@[simp] theorem Station.postList_loader (s : Station) (list : ScanList) (swapped : Bool) : (s.postList list swapped).loader = s.loader := rfl
@[simp] theorem Station.postList_params (s : Station) (list : ScanList) (swapped : Bool) : (s.postList list swapped).params = s.params := rfl
@[simp] theorem Station.postList_bus (s : Station) (list : ScanList) (swapped : Bool) : (s.postList list swapped).bus = s.bus := rfl
@[simp] theorem Station.postList_member (s : Station) (list : ScanList) (swapped : Bool) : (s.postList list swapped).member = s.member := rfl
@[simp] theorem Station.postList_peers (s : Station) (list : ScanList) (swapped : Bool) : (s.postList list swapped).peers = s.peers := rfl
@[simp] theorem Station.postList_engine (s : Station) (list : ScanList) (swapped : Bool) : (s.postList list swapped).engine = s.engine := rfl
@[simp] theorem Station.postList_auth (s : Station) (list : ScanList) (swapped : Bool) : (s.postList list swapped).auth = s.auth := rfl
@[simp] theorem Station.postList_drive (s : Station) (list : ScanList) (swapped : Bool) : (s.postList list swapped).drive = s.drive := rfl
@[simp] theorem Station.postList_cond (s : Station) (list : ScanList) (swapped : Bool) : (s.postList list swapped).cond = s.cond := rfl

/-! ### clearMeasurement -/

@[simp] theorem Station.clearMeasurement_pins (s : Station) : (s.clearMeasurement).pins = s.pins := rfl
@[simp] theorem Station.clearMeasurement_loader (s : Station) : (s.clearMeasurement).loader = s.loader := rfl
@[simp] theorem Station.clearMeasurement_params (s : Station) : (s.clearMeasurement).params = s.params := rfl
@[simp] theorem Station.clearMeasurement_bus (s : Station) : (s.clearMeasurement).bus = s.bus := rfl
@[simp] theorem Station.clearMeasurement_member (s : Station) : (s.clearMeasurement).member = s.member := rfl
@[simp] theorem Station.clearMeasurement_peers (s : Station) : (s.clearMeasurement).peers = s.peers := rfl
@[simp] theorem Station.clearMeasurement_engine (s : Station) : (s.clearMeasurement).engine = s.engine := rfl
@[simp] theorem Station.clearMeasurement_auth (s : Station) : (s.clearMeasurement).auth = s.auth := rfl
@[simp] theorem Station.clearMeasurement_drive (s : Station) : (s.clearMeasurement).drive = s.drive := rfl
@[simp] theorem Station.clearMeasurement_cond (s : Station) : (s.clearMeasurement).cond = s.cond := rfl

/-! ### enterListen -/

@[simp] theorem Station.enterListen_pins (s : Station) : (s.enterListen).pins = s.pins := by
  simp only [Station.enterListen, Station.setHeld_pins, Station.restAuthority_pins, Station.clearEngine_pins, Station.clearMeasurement_pins, Station.clearPeers_pins]
@[simp] theorem Station.enterListen_loader (s : Station) : (s.enterListen).loader = s.loader := by
  simp only [Station.enterListen, Station.setHeld_loader, Station.restAuthority_loader, Station.clearEngine_loader, Station.clearMeasurement_loader, Station.clearPeers_loader]
@[simp] theorem Station.enterListen_params (s : Station) : (s.enterListen).params = s.params := by
  simp only [Station.enterListen, Station.setHeld_params, Station.restAuthority_params, Station.clearEngine_params, Station.clearMeasurement_params, Station.clearPeers_params]
@[simp] theorem Station.enterListen_bus (s : Station) : (s.enterListen).bus = s.bus.atListen := by
  simp only [Station.enterListen, Station.setHeld_bus, Station.restAuthority_bus, Station.clearEngine_bus, Station.clearMeasurement_bus, Station.clearPeers_bus]
@[simp] theorem Station.enterListen_member (s : Station) : (s.enterListen).member = s.member.atListen := by
  simp only [Station.enterListen, Station.setHeld_member, Station.restAuthority_member, Station.clearEngine_member, Station.clearMeasurement_member, Station.clearPeers_member]
@[simp] theorem Station.enterListen_drive (s : Station) : (s.enterListen).drive = s.drive.atListen := by
  simp only [Station.enterListen, Station.setHeld_drive, Station.restAuthority_drive, Station.clearEngine_drive, Station.clearMeasurement_drive, Station.clearPeers_drive]

/-! ### returnAfterLoss -/

@[simp] theorem Station.returnAfterLoss_pins (s : Station) : (s.returnAfterLoss).pins = s.pins := by
  simp [Station.returnAfterLoss]
@[simp] theorem Station.returnAfterLoss_loader (s : Station) : (s.returnAfterLoss).loader = s.loader := by
  simp [Station.returnAfterLoss]
@[simp] theorem Station.returnAfterLoss_params (s : Station) : (s.returnAfterLoss).params = s.params := by
  simp [Station.returnAfterLoss]
@[simp] theorem Station.returnAfterLoss_bus (s : Station) :
    (s.returnAfterLoss).bus =
      { s.bus.atListen with cutBit := isDriving s.member.state && s.bus.markDominant } := by
  simp [Station.returnAfterLoss]
@[simp] theorem Station.returnAfterLoss_member (s : Station) :
    (s.returnAfterLoss).member = { s.member with losses := succSat 4 s.member.losses }.atListen := by
  simp [Station.returnAfterLoss]
@[simp] theorem Station.returnAfterLoss_drive (s : Station) : (s.returnAfterLoss).drive = s.drive.atListen := by
  simp [Station.returnAfterLoss]

/-! ### enterSilent -/

@[simp] theorem Station.enterSilent_pins (s : Station) : (s.enterSilent).pins = s.pins := by
  simp only [Station.enterSilent, Station.setHeld_pins, Station.driveOff_pins]
@[simp] theorem Station.enterSilent_loader (s : Station) : (s.enterSilent).loader = s.loader := by
  simp only [Station.enterSilent, Station.setHeld_loader, Station.driveOff_loader]
@[simp] theorem Station.enterSilent_params (s : Station) : (s.enterSilent).params = s.params := by
  simp only [Station.enterSilent, Station.setHeld_params, Station.driveOff_params]
@[simp] theorem Station.enterSilent_bus (s : Station) :
    (s.enterSilent).bus = s.bus.atSilent (s.drivesDominant s.bus.wireRead) := by
  simp only [Station.enterSilent, Station.setHeld_bus, Station.driveOff_bus]
@[simp] theorem Station.enterSilent_member (s : Station) :
    (s.enterSilent).member =
      { s.member with state := .silent, silencings := succSat 4 s.member.silencings, silentHold := 0 } := by
  simp only [Station.enterSilent, Station.setHeld_member, Station.driveOff_member]
@[simp] theorem Station.enterSilent_peers (s : Station) : (s.enterSilent).peers = s.peers := by
  simp only [Station.enterSilent, Station.setHeld_peers, Station.driveOff_peers]
@[simp] theorem Station.enterSilent_engine (s : Station) : (s.enterSilent).engine = s.engine := by
  simp only [Station.enterSilent, Station.setHeld_engine, Station.driveOff_engine]
@[simp] theorem Station.enterSilent_auth (s : Station) : (s.enterSilent).auth = s.auth := by
  simp only [Station.enterSilent, Station.setHeld_auth, Station.driveOff_auth]

/-! ### startCalibration -/

@[simp] theorem Station.startCalibration_pins (s : Station) : (s.startCalibration).pins = s.pins := rfl
@[simp] theorem Station.startCalibration_loader (s : Station) : (s.startCalibration).loader = s.loader := rfl
@[simp] theorem Station.startCalibration_params (s : Station) : (s.startCalibration).params = s.params := rfl
@[simp] theorem Station.startCalibration_bus (s : Station) : (s.startCalibration).bus = s.bus := rfl
@[simp] theorem Station.startCalibration_member (s : Station) : (s.startCalibration).member = s.member := rfl
@[simp] theorem Station.startCalibration_peers (s : Station) : (s.startCalibration).peers = s.peers := rfl
@[simp] theorem Station.startCalibration_engine (s : Station) : (s.startCalibration).engine = s.engine := rfl
@[simp] theorem Station.startCalibration_auth (s : Station) : (s.startCalibration).auth = s.auth := rfl
@[simp] theorem Station.startCalibration_drive (s : Station) : (s.startCalibration).drive = s.drive := rfl
@[simp] theorem Station.startCalibration_cond (s : Station) : (s.startCalibration).cond = s.cond := rfl

/-! ### enterJoin -/

@[simp] theorem Station.enterJoin_pins (s : Station) : (s.enterJoin).pins = s.pins := by
  simp only [Station.enterJoin, Station.restAuthority_pins, Station.startCalibration_pins]
@[simp] theorem Station.enterJoin_loader (s : Station) : (s.enterJoin).loader = s.loader := by
  simp only [Station.enterJoin, Station.restAuthority_loader, Station.startCalibration_loader]
@[simp] theorem Station.enterJoin_params (s : Station) : (s.enterJoin).params = s.params := by
  simp only [Station.enterJoin, Station.restAuthority_params, Station.startCalibration_params]
@[simp] theorem Station.enterJoin_peers (s : Station) : (s.enterJoin).peers = s.peers := by
  simp only [Station.enterJoin, Station.restAuthority_peers, Station.startCalibration_peers]
@[simp] theorem Station.enterJoin_drive (s : Station) : (s.enterJoin).drive = s.drive := by
  simp only [Station.enterJoin, Station.restAuthority_drive, Station.startCalibration_drive]

/-! ### abandonRound -/

@[simp] theorem Station.abandonRound_pins (s : Station) (p : Nat) : (s.abandonRound p).pins = s.pins := rfl
@[simp] theorem Station.abandonRound_loader (s : Station) (p : Nat) : (s.abandonRound p).loader = s.loader := rfl
@[simp] theorem Station.abandonRound_params (s : Station) (p : Nat) : (s.abandonRound p).params = s.params := rfl
@[simp] theorem Station.abandonRound_member (s : Station) (p : Nat) : (s.abandonRound p).member = s.member := rfl
@[simp] theorem Station.abandonRound_peers (s : Station) (p : Nat) : (s.abandonRound p).peers = s.peers := rfl
@[simp] theorem Station.abandonRound_meas (s : Station) (p : Nat) : (s.abandonRound p).meas = s.meas := rfl
@[simp] theorem Station.abandonRound_engine (s : Station) (p : Nat) : (s.abandonRound p).engine = s.engine := rfl
@[simp] theorem Station.abandonRound_auth (s : Station) (p : Nat) : (s.abandonRound p).auth = s.auth := rfl
@[simp] theorem Station.abandonRound_drive (s : Station) (p : Nat) : (s.abandonRound p).drive = s.drive := rfl
@[simp] theorem Station.abandonRound_cond (s : Station) (p : Nat) : (s.abandonRound p).cond = s.cond := rfl

/-! ### setPeer -/

@[simp] theorem Station.setPeer_pins (s : Station) (k : StationNo) (r : PeerRecord) : (s.setPeer k r).pins = s.pins := rfl
@[simp] theorem Station.setPeer_loader (s : Station) (k : StationNo) (r : PeerRecord) : (s.setPeer k r).loader = s.loader := rfl
@[simp] theorem Station.setPeer_params (s : Station) (k : StationNo) (r : PeerRecord) : (s.setPeer k r).params = s.params := rfl
@[simp] theorem Station.setPeer_bus (s : Station) (k : StationNo) (r : PeerRecord) : (s.setPeer k r).bus = s.bus := rfl
@[simp] theorem Station.setPeer_member (s : Station) (k : StationNo) (r : PeerRecord) : (s.setPeer k r).member = s.member := rfl
@[simp] theorem Station.setPeer_meas (s : Station) (k : StationNo) (r : PeerRecord) : (s.setPeer k r).meas = s.meas := rfl
@[simp] theorem Station.setPeer_engine (s : Station) (k : StationNo) (r : PeerRecord) : (s.setPeer k r).engine = s.engine := rfl
@[simp] theorem Station.setPeer_auth (s : Station) (k : StationNo) (r : PeerRecord) : (s.setPeer k r).auth = s.auth := rfl
@[simp] theorem Station.setPeer_drive (s : Station) (k : StationNo) (r : PeerRecord) : (s.setPeer k r).drive = s.drive := rfl
@[simp] theorem Station.setPeer_cond (s : Station) (k : StationNo) (r : PeerRecord) : (s.setPeer k r).cond = s.cond := rfl

/-! ### ageConditions -/

@[simp] theorem Station.ageConditions_pins (s : Station) : (s.ageConditions).pins = s.pins := rfl
@[simp] theorem Station.ageConditions_loader (s : Station) : (s.ageConditions).loader = s.loader := rfl
@[simp] theorem Station.ageConditions_params (s : Station) : (s.ageConditions).params = s.params := rfl
@[simp] theorem Station.ageConditions_bus (s : Station) : (s.ageConditions).bus = s.bus := rfl
@[simp] theorem Station.ageConditions_member (s : Station) : (s.ageConditions).member = s.member := rfl
@[simp] theorem Station.ageConditions_peers (s : Station) : (s.ageConditions).peers = s.peers := rfl
@[simp] theorem Station.ageConditions_meas (s : Station) : (s.ageConditions).meas = s.meas := rfl
@[simp] theorem Station.ageConditions_engine (s : Station) : (s.ageConditions).engine = s.engine := rfl
@[simp] theorem Station.ageConditions_auth (s : Station) : (s.ageConditions).auth = s.auth := rfl
@[simp] theorem Station.ageConditions_drive (s : Station) : (s.ageConditions).drive = s.drive := rfl

/-! ### Updates that a loop makes -/

/-- A raise repeated changes the Condition Unit alone. -/
theorem Station.raiseTimes_frame (code : CondCode) (source n : Nat) :
    ∀ s : Station, s.raiseTimes code source n = { s with cond := (s.raiseTimes code source n).cond } := by
  induction n with
  | zero => intro s; rfl
  | succ n ih => intro s; exact ih (s.raise code source)

/-- Work that keeps a part of the station on every record keeps it through the whole table. -/
theorem Station.forPeers_keeps {α : Type} (part : Station → α) (f : Station → StationNo → Station)
    (h : ∀ s k, part (f s k) = part s) (s : Station) : part (s.forPeers f) = part s := by
  unfold Station.forPeers
  refine Station.foldl_keeps part _ (fun x k => ?_) allStations s
  by_cases hk : k = x.number
  · simp only [hk, if_true]
  · simp only [hk, if_false, h]

/-! ### The machine -/

@[simp] theorem State.after_eq (s : State) (f : Station → Station) :
    s.after f = .next { s with station := f s.station } := rfl

/-- A fixed moment that has not passed. -/
theorem Station.atMoment_due {s : Station} {p : Nat} (f : Station → Station) (h : s.bus.position ≤ p) :
    s.atMoment p f = f (s.reach p) := if_pos h

/-- A fixed moment that has passed. -/
theorem Station.atMoment_passed {s : Station} {p : Nat} (f : Station → Station) (h : ¬s.bus.position ≤ p) :
    s.atMoment p f = s := if_neg h

end Sys2Proof.Machine
end

