-- ==== Sys2Proof/Laws/Frames.lean ====
section
/-! SUPPORT. What each block's operations leave alone, one lemma for each operation. -/

namespace Sys2Proof.Machine

@[simp] theorem Station.monitorConds_frame (s : Station) (c : StationNo) (x : MonitorState) :
    (s.monitorConds c x).pins = s.pins ∧ (s.monitorConds c x).loader = s.loader
      ∧ (s.monitorConds c x).params = s.params ∧ (s.monitorConds c x).bus = s.bus
      ∧ (s.monitorConds c x).member = s.member ∧ (s.monitorConds c x).peers = s.peers
      ∧ (s.monitorConds c x).meas = s.meas ∧ (s.monitorConds c x).engine = s.engine
      ∧ (s.monitorConds c x).auth = s.auth ∧ (s.monitorConds c x).drive = s.drive := by
  unfold Station.monitorConds
  split <;> simp

@[simp] theorem Station.monitorChannel_frame (s : Station) (c : StationNo) :
    (s.monitorChannel c).pins = s.pins ∧ (s.monitorChannel c).loader = s.loader
      ∧ (s.monitorChannel c).params = s.params ∧ (s.monitorChannel c).bus = s.bus
      ∧ (s.monitorChannel c).member = s.member ∧ (s.monitorChannel c).peers = s.peers
      ∧ (s.monitorChannel c).engine = s.engine ∧ (s.monitorChannel c).auth = s.auth
      ∧ (s.monitorChannel c).drive = s.drive := by
  unfold Station.monitorChannel
  dsimp only
  (repeat' split) <;> simp

@[simp] theorem Station.pairCheck_frame (s : Station) :
    s.pairCheck.pins = s.pins ∧ s.pairCheck.loader = s.loader ∧ s.pairCheck.params = s.params
      ∧ s.pairCheck.bus = s.bus ∧ s.pairCheck.member = s.member ∧ s.pairCheck.peers = s.peers
      ∧ s.pairCheck.engine = s.engine ∧ s.pairCheck.auth = s.auth
      ∧ s.pairCheck.drive = s.drive := by
  unfold Station.pairCheck
  dsimp only
  (repeat' split) <;> simp

@[simp] theorem Station.completeLean_frame (s : Station) :
    s.completeLean.pins = s.pins ∧ s.completeLean.loader = s.loader
      ∧ s.completeLean.params = s.params
      ∧ s.completeLean.bus = s.bus ∧ s.completeLean.member = s.member
      ∧ s.completeLean.peers = s.peers
      ∧ s.completeLean.engine = s.engine ∧ s.completeLean.auth = s.auth
      ∧ s.completeLean.drive = s.drive
      ∧ s.completeLean.cond = s.cond :=
  ⟨rfl, rfl, rfl, rfl, rfl, rfl, rfl, rfl, rfl, rfl⟩

@[simp] theorem Station.raiseCalRange_frame (s : Station) (c : StationNo) :
    (s.raiseCalRange c).pins = s.pins ∧ (s.raiseCalRange c).loader = s.loader
      ∧ (s.raiseCalRange c).params = s.params
      ∧ (s.raiseCalRange c).bus = s.bus ∧ (s.raiseCalRange c).member = s.member
      ∧ (s.raiseCalRange c).peers = s.peers
      ∧ (s.raiseCalRange c).meas = s.meas ∧ (s.raiseCalRange c).engine = s.engine
      ∧ (s.raiseCalRange c).auth = s.auth
      ∧ (s.raiseCalRange c).drive = s.drive := by
  unfold Station.raiseCalRange
  split <;> simp

@[simp] theorem Station.completePass_frame (s : Station) :
    s.completePass.pins = s.pins ∧ s.completePass.loader = s.loader
      ∧ s.completePass.params = s.params
      ∧ s.completePass.bus = s.bus ∧ s.completePass.member = s.member
      ∧ s.completePass.peers = s.peers
      ∧ s.completePass.engine = s.engine ∧ s.completePass.auth = s.auth
      ∧ s.completePass.drive = s.drive :=
  ⟨(by
    have h := Station.foldl_keeps (fun s => s.pins) Station.raiseCalRange (fun s c => by simp) allStations s
    simpa [Station.completePass] using h), (by
    have h := Station.foldl_keeps (fun s => s.loader) Station.raiseCalRange (fun s c => by simp) allStations s
    simpa [Station.completePass] using h), (by
    have h := Station.foldl_keeps (fun s => s.params) Station.raiseCalRange (fun s c => by simp) allStations s
    simpa [Station.completePass] using h), (by
    have h := Station.foldl_keeps (fun s => s.bus) Station.raiseCalRange (fun s c => by simp) allStations s
    simpa [Station.completePass] using h), (by
    have h := Station.foldl_keeps (fun s => s.member) Station.raiseCalRange (fun s c => by simp) allStations s
    simpa [Station.completePass] using h), (by
    have h := Station.foldl_keeps (fun s => s.peers) Station.raiseCalRange (fun s c => by simp) allStations s
    simpa [Station.completePass] using h), (by
    have h := Station.foldl_keeps (fun s => s.engine) Station.raiseCalRange (fun s c => by simp) allStations s
    simpa [Station.completePass] using h), (by
    have h := Station.foldl_keeps (fun s => s.auth) Station.raiseCalRange (fun s c => by simp) allStations s
    simpa [Station.completePass] using h), (by
    have h := Station.foldl_keeps (fun s => s.drive) Station.raiseCalRange (fun s c => by simp) allStations s
    simpa [Station.completePass] using h)⟩

@[simp] theorem Station.countPass_frame (s : Station) (l : ScanList) :
    (s.countPass l).pins = s.pins ∧ (s.countPass l).loader = s.loader
      ∧ (s.countPass l).params = s.params
      ∧ (s.countPass l).bus = s.bus ∧ (s.countPass l).member = s.member
      ∧ (s.countPass l).peers = s.peers
      ∧ (s.countPass l).engine = s.engine ∧ (s.countPass l).auth = s.auth
      ∧ (s.countPass l).drive = s.drive := by
  unfold Station.countPass
  dsimp only
  (repeat' split) <;> simp

@[simp] theorem Station.endScan_frame (s : Station) (r : RunningScan) :
    (s.endScan r).pins = s.pins ∧ (s.endScan r).loader = s.loader ∧ (s.endScan r).params = s.params
      ∧ (s.endScan r).bus = s.bus ∧ (s.endScan r).member = s.member ∧ (s.endScan r).peers = s.peers
      ∧ (s.endScan r).engine = s.engine ∧ (s.endScan r).auth = s.auth
      ∧ (s.endScan r).drive = s.drive :=
  ⟨(by
    have h := Station.foldl_keeps (fun s => s.pins) Station.monitorChannel (fun s c => by simp) r.written s
    simpa [Station.endScan] using h), (by
    have h := Station.foldl_keeps (fun s => s.loader) Station.monitorChannel (fun s c => by simp) r.written s
    simpa [Station.endScan] using h), (by
    have h := Station.foldl_keeps (fun s => s.params) Station.monitorChannel (fun s c => by simp) r.written s
    simpa [Station.endScan] using h), (by
    have h := Station.foldl_keeps (fun s => s.bus) Station.monitorChannel (fun s c => by simp) r.written s
    simpa [Station.endScan] using h), (by
    have h := Station.foldl_keeps (fun s => s.member) Station.monitorChannel (fun s c => by simp) r.written s
    simpa [Station.endScan] using h), (by
    have h := Station.foldl_keeps (fun s => s.peers) Station.monitorChannel (fun s c => by simp) r.written s
    simpa [Station.endScan] using h), (by
    have h := Station.foldl_keeps (fun s => s.engine) Station.monitorChannel (fun s c => by simp) r.written s
    simpa [Station.endScan] using h), (by
    have h := Station.foldl_keeps (fun s => s.auth) Station.monitorChannel (fun s c => by simp) r.written s
    simpa [Station.endScan] using h), (by
    have h := Station.foldl_keeps (fun s => s.drive) Station.monitorChannel (fun s c => by simp) r.written s
    simpa [Station.endScan] using h)⟩

@[simp] theorem Station.scanEnd_frame (s : Station) :
    s.scanEnd.pins = s.pins ∧ s.scanEnd.loader = s.loader ∧ s.scanEnd.params = s.params
      ∧ s.scanEnd.bus = s.bus ∧ s.scanEnd.member = s.member ∧ s.scanEnd.peers = s.peers
      ∧ s.scanEnd.engine = s.engine ∧ s.scanEnd.auth = s.auth ∧ s.scanEnd.drive = s.drive := by
  unfold Station.scanEnd; (repeat' split) <;> simp

@[simp] theorem Station.convert_frame (s : Station) (r : RunningScan) (e : ScanEntry) (l : List ScanEntry) (n : Nat) :
    (s.convert r e l n).pins = s.pins ∧ (s.convert r e l n).loader = s.loader
      ∧ (s.convert r e l n).params = s.params
      ∧ (s.convert r e l n).bus = s.bus ∧ (s.convert r e l n).member = s.member
      ∧ (s.convert r e l n).peers = s.peers
      ∧ (s.convert r e l n).engine = s.engine ∧ (s.convert r e l n).auth = s.auth
      ∧ (s.convert r e l n).drive = s.drive ∧ (s.convert r e l n).cond = s.cond :=
  ⟨rfl, rfl, rfl, rfl, rfl, rfl, rfl, rfl, rfl, rfl⟩

@[simp] theorem Station.conversionEnd_frame (s : Station) (n : Nat) :
    (s.conversionEnd n).pins = s.pins ∧ (s.conversionEnd n).loader = s.loader
      ∧ (s.conversionEnd n).params = s.params
      ∧ (s.conversionEnd n).bus = s.bus ∧ (s.conversionEnd n).member = s.member
      ∧ (s.conversionEnd n).peers = s.peers
      ∧ (s.conversionEnd n).engine = s.engine ∧ (s.conversionEnd n).auth = s.auth
      ∧ (s.conversionEnd n).drive = s.drive := by
  unfold Station.conversionEnd; (repeat' split) <;> simp

@[simp] theorem Station.startScan_frame (s : Station) (w : MeasSet) :
    (s.startScan w).pins = s.pins ∧ (s.startScan w).loader = s.loader
      ∧ (s.startScan w).params = s.params
      ∧ (s.startScan w).bus = s.bus ∧ (s.startScan w).member = s.member
      ∧ (s.startScan w).peers = s.peers
      ∧ (s.startScan w).engine = s.engine ∧ (s.startScan w).auth = s.auth
      ∧ (s.startScan w).drive = s.drive :=
  by simp [Station.startScan]

@[simp] theorem Station.pulseEdge_frame (s : Station) (b : Bool) :
    (s.pulseEdge b).pins = s.pins ∧ (s.pulseEdge b).loader = s.loader
      ∧ (s.pulseEdge b).params = s.params
      ∧ (s.pulseEdge b).bus = s.bus ∧ (s.pulseEdge b).member = s.member
      ∧ (s.pulseEdge b).peers = s.peers
      ∧ (s.pulseEdge b).engine = s.engine ∧ (s.pulseEdge b).auth = s.auth
      ∧ (s.pulseEdge b).drive = s.drive
      ∧ (s.pulseEdge b).cond = s.cond := by
  unfold Station.pulseEdge; (repeat' split) <;> simp

@[simp] theorem Station.skipCalibration_frame (s : Station) (n : Nat) :
    (s.skipCalibration n).pins = s.pins ∧ (s.skipCalibration n).loader = s.loader
      ∧ (s.skipCalibration n).params = s.params ∧ (s.skipCalibration n).bus = s.bus
      ∧ (s.skipCalibration n).member = s.member ∧ (s.skipCalibration n).peers = s.peers
      ∧ (s.skipCalibration n).engine = s.engine ∧ (s.skipCalibration n).auth = s.auth
      ∧ (s.skipCalibration n).drive = s.drive :=
  ⟨rfl, rfl, rfl, rfl, rfl, rfl, rfl, rfl, rfl⟩

@[simp] theorem Station.beginPass_frame (s : Station) :
    s.beginPass.pins = s.pins ∧ s.beginPass.loader = s.loader ∧ s.beginPass.params = s.params
      ∧ s.beginPass.bus = s.bus ∧ s.beginPass.member = s.member ∧ s.beginPass.peers = s.peers
      ∧ s.beginPass.engine = s.engine ∧ s.beginPass.auth = s.auth
      ∧ s.beginPass.drive = s.drive
      ∧ s.beginPass.cond = s.cond :=
  ⟨rfl, rfl, rfl, rfl, rfl, rfl, rfl, rfl, rfl, rfl⟩

@[simp] theorem Station.countWait_frame (s : Station) :
    s.countWait.pins = s.pins ∧ s.countWait.loader = s.loader ∧ s.countWait.params = s.params
      ∧ s.countWait.bus = s.bus ∧ s.countWait.member = s.member ∧ s.countWait.peers = s.peers
      ∧ s.countWait.engine = s.engine ∧ s.countWait.auth = s.auth
      ∧ s.countWait.drive = s.drive
      ∧ s.countWait.cond = s.cond :=
  ⟨rfl, rfl, rfl, rfl, rfl, rfl, rfl, rfl, rfl, rfl⟩

@[simp] theorem Station.calWaitTimeout_frame (s : Station) :
    s.calWaitTimeout.pins = s.pins ∧ s.calWaitTimeout.loader = s.loader
      ∧ s.calWaitTimeout.params = s.params
      ∧ s.calWaitTimeout.bus = s.bus ∧ s.calWaitTimeout.member = s.member
      ∧ s.calWaitTimeout.peers = s.peers
      ∧ s.calWaitTimeout.engine = s.engine ∧ s.calWaitTimeout.auth = s.auth
      ∧ s.calWaitTimeout.drive = s.drive := by
  unfold Station.calWaitTimeout
  split <;> simp

@[simp] theorem Station.calibrationStep_frame (s : Station) :
    s.calibrationStep.pins = s.pins ∧ s.calibrationStep.loader = s.loader
      ∧ s.calibrationStep.params = s.params
      ∧ s.calibrationStep.bus = s.bus ∧ s.calibrationStep.member = s.member
      ∧ s.calibrationStep.peers = s.peers
      ∧ s.calibrationStep.engine = s.engine ∧ s.calibrationStep.auth = s.auth
      ∧ s.calibrationStep.drive = s.drive := by
  unfold Station.calibrationStep
  dsimp only
  (repeat' split) <;> simp

@[simp] theorem Station.latchSnapshot_frame (s : Station) :
    s.latchSnapshot.pins = s.pins ∧ s.latchSnapshot.loader = s.loader
      ∧ s.latchSnapshot.params = s.params
      ∧ s.latchSnapshot.bus = s.bus ∧ s.latchSnapshot.member = s.member
      ∧ s.latchSnapshot.peers = s.peers
      ∧ s.latchSnapshot.engine = s.engine ∧ s.latchSnapshot.auth = s.auth
      ∧ s.latchSnapshot.drive = s.drive
      ∧ s.latchSnapshot.cond = s.cond :=
  ⟨rfl, rfl, rfl, rfl, rfl, rfl, rfl, rfl, rfl, rfl⟩

@[simp] theorem Station.placePulses_frame (s : Station) :
    s.placePulses.pins = s.pins ∧ s.placePulses.loader = s.loader
      ∧ s.placePulses.params = s.params
      ∧ s.placePulses.bus = s.bus ∧ s.placePulses.member = s.member
      ∧ s.placePulses.peers = s.peers
      ∧ s.placePulses.engine = s.engine ∧ s.placePulses.auth = s.auth
      ∧ s.placePulses.drive = s.drive
      ∧ s.placePulses.cond = s.cond :=
  ⟨rfl, rfl, rfl, rfl, rfl, rfl, rfl, rfl, rfl, rfl⟩

@[simp] theorem Station.triggerScan_frame (s : Station) :
    s.triggerScan.pins = s.pins ∧ s.triggerScan.loader = s.loader
      ∧ s.triggerScan.params = s.params
      ∧ s.triggerScan.bus = s.bus ∧ s.triggerScan.member = s.member
      ∧ s.triggerScan.peers = s.peers
      ∧ s.triggerScan.engine = s.engine ∧ s.triggerScan.auth = s.auth
      ∧ s.triggerScan.drive = s.drive := by
  unfold Station.triggerScan
  split <;> simp

@[simp] theorem Station.syncEvent_frame (s : Station) :
    s.syncEvent.pins = s.pins ∧ s.syncEvent.loader = s.loader ∧ s.syncEvent.params = s.params
      ∧ s.syncEvent.bus = s.bus ∧ s.syncEvent.member = s.member ∧ s.syncEvent.peers = s.peers
      ∧ s.syncEvent.engine = s.engine ∧ s.syncEvent.auth = s.auth
      ∧ s.syncEvent.drive = s.drive :=
  by simp [Station.syncEvent]

@[simp] theorem Station.makeAbsent_frame (s : Station) (k : StationNo) :
    (s.makeAbsent k).pins = s.pins ∧ (s.makeAbsent k).loader = s.loader
      ∧ (s.makeAbsent k).params = s.params
      ∧ (s.makeAbsent k).bus = s.bus ∧ (s.makeAbsent k).member = s.member
      ∧ (s.makeAbsent k).meas = s.meas
      ∧ (s.makeAbsent k).engine = s.engine ∧ (s.makeAbsent k).auth = s.auth
      ∧ (s.makeAbsent k).drive = s.drive :=
  ⟨rfl, rfl, rfl, rfl, rfl, rfl, rfl, rfl, rfl⟩

@[simp] theorem Station.peerLost_frame (s : Station) (k : StationNo) :
    (s.peerLost k).pins = s.pins ∧ (s.peerLost k).loader = s.loader
      ∧ (s.peerLost k).params = s.params
      ∧ (s.peerLost k).bus = s.bus ∧ (s.peerLost k).member = s.member ∧ (s.peerLost k).meas = s.meas
      ∧ (s.peerLost k).engine = s.engine ∧ (s.peerLost k).auth = s.auth
      ∧ (s.peerLost k).drive = s.drive := by
  unfold Station.peerLost; (repeat' split) <;> simp

@[simp] theorem Station.excludePeer_frame (s : Station) (b : PeerState) (c : Bool) (k : StationNo) :
    (s.excludePeer b c k).pins = s.pins ∧ (s.excludePeer b c k).loader = s.loader
      ∧ (s.excludePeer b c k).params = s.params ∧ (s.excludePeer b c k).bus = s.bus
      ∧ (s.excludePeer b c k).member = s.member ∧ (s.excludePeer b c k).meas = s.meas
      ∧ (s.excludePeer b c k).engine = s.engine ∧ (s.excludePeer b c k).auth = s.auth
      ∧ (s.excludePeer b c k).drive = s.drive := by
  unfold Station.excludePeer; (repeat' split) <;> simp

@[simp] theorem Station.peerHandover_frame (s : Station) (n : StationSet) (k : StationNo) :
    (Station.peerHandover n s k).pins = s.pins ∧ (Station.peerHandover n s k).loader = s.loader
      ∧ (Station.peerHandover n s k).params = s.params
      ∧ (Station.peerHandover n s k).bus = s.bus ∧ (Station.peerHandover n s k).member = s.member
      ∧ (Station.peerHandover n s k).meas = s.meas
      ∧ (Station.peerHandover n s k).engine = s.engine ∧ (Station.peerHandover n s k).auth = s.auth
      ∧ (Station.peerHandover n s k).drive = s.drive := by
  unfold Station.peerHandover
  split <;> simp

@[simp] theorem Station.peersHandover_frame (s : Station) (n : StationSet) :
    (s.peersHandover n).pins = s.pins ∧ (s.peersHandover n).loader = s.loader
      ∧ (s.peersHandover n).params = s.params
      ∧ (s.peersHandover n).bus = s.bus ∧ (s.peersHandover n).member = s.member
      ∧ (s.peersHandover n).meas = s.meas
      ∧ (s.peersHandover n).engine = s.engine ∧ (s.peersHandover n).auth = s.auth
      ∧ (s.peersHandover n).drive = s.drive :=
  ⟨Station.forPeers_keeps (fun s => s.pins) _ (fun s k => by simp) s, Station.forPeers_keeps (fun s => s.loader) _ (fun s k => by simp) s, Station.forPeers_keeps (fun s => s.params) _ (fun s k => by simp) s, Station.forPeers_keeps (fun s => s.bus) _ (fun s k => by simp) s, Station.forPeers_keeps (fun s => s.member) _ (fun s k => by simp) s, Station.forPeers_keeps (fun s => s.meas) _ (fun s k => by simp) s, Station.forPeers_keeps (fun s => s.engine) _ (fun s k => by simp) s, Station.forPeers_keeps (fun s => s.auth) _ (fun s k => by simp) s, Station.forPeers_keeps (fun s => s.drive) _ (fun s k => by simp) s⟩

@[simp] theorem Station.takeReport_frame (s : Station) (k : StationNo) :
    (s.takeReport k).pins = s.pins ∧ (s.takeReport k).loader = s.loader
      ∧ (s.takeReport k).params = s.params
      ∧ (s.takeReport k).bus = s.bus ∧ (s.takeReport k).member = s.member
      ∧ (s.takeReport k).meas = s.meas
      ∧ (s.takeReport k).engine = s.engine ∧ (s.takeReport k).auth = s.auth
      ∧ (s.takeReport k).drive = s.drive
      ∧ (s.takeReport k).cond = s.cond := by
  unfold Station.takeReport; (repeat' split) <;> simp

@[simp] theorem Station.countRecord_frame (s : Station) (k : StationNo) :
    (s.countRecord k).pins = s.pins ∧ (s.countRecord k).loader = s.loader
      ∧ (s.countRecord k).params = s.params
      ∧ (s.countRecord k).bus = s.bus ∧ (s.countRecord k).member = s.member
      ∧ (s.countRecord k).meas = s.meas
      ∧ (s.countRecord k).engine = s.engine ∧ (s.countRecord k).auth = s.auth
      ∧ (s.countRecord k).drive = s.drive
      ∧ (s.countRecord k).cond = s.cond :=
  ⟨rfl, rfl, rfl, rfl, rfl, rfl, rfl, rfl, rfl, rfl⟩

@[simp] theorem Station.takePresence_frame (s : Station) (k : StationNo) :
    (s.takePresence k).pins = s.pins ∧ (s.takePresence k).loader = s.loader
      ∧ (s.takePresence k).params = s.params
      ∧ (s.takePresence k).bus = s.bus ∧ (s.takePresence k).member = s.member
      ∧ (s.takePresence k).meas = s.meas
      ∧ (s.takePresence k).engine = s.engine ∧ (s.takePresence k).auth = s.auth
      ∧ (s.takePresence k).drive = s.drive
      ∧ (s.takePresence k).cond = s.cond := by
  unfold Station.takePresence
  split <;> simp

@[simp] theorem Station.identityConds_frame (s : Station) (k : StationNo) :
    (s.identityConds k).pins = s.pins ∧ (s.identityConds k).loader = s.loader
      ∧ (s.identityConds k).params = s.params
      ∧ (s.identityConds k).bus = s.bus ∧ (s.identityConds k).member = s.member
      ∧ (s.identityConds k).peers = s.peers
      ∧ (s.identityConds k).meas = s.meas ∧ (s.identityConds k).engine = s.engine
      ∧ (s.identityConds k).auth = s.auth
      ∧ (s.identityConds k).drive = s.drive := by
  unfold Station.identityConds
  split <;> simp

@[simp] theorem Station.checkRecord_frame (s : Station) (k : StationNo) :
    (s.checkRecord k).pins = s.pins ∧ (s.checkRecord k).loader = s.loader
      ∧ (s.checkRecord k).params = s.params
      ∧ (s.checkRecord k).bus = s.bus ∧ (s.checkRecord k).member = s.member
      ∧ (s.checkRecord k).meas = s.meas
      ∧ (s.checkRecord k).engine = s.engine ∧ (s.checkRecord k).auth = s.auth
      ∧ (s.checkRecord k).drive = s.drive := by
  unfold Station.checkRecord
  dsimp only
  (repeat' split) <;> simp

@[simp] theorem Station.suspectRecovery_frame (s : Station) (k : StationNo) :
    (s.suspectRecovery k).pins = s.pins ∧ (s.suspectRecovery k).loader = s.loader
      ∧ (s.suspectRecovery k).params = s.params ∧ (s.suspectRecovery k).bus = s.bus
      ∧ (s.suspectRecovery k).member = s.member ∧ (s.suspectRecovery k).meas = s.meas
      ∧ (s.suspectRecovery k).engine = s.engine ∧ (s.suspectRecovery k).auth = s.auth
      ∧ (s.suspectRecovery k).drive = s.drive ∧ (s.suspectRecovery k).cond = s.cond := by
  unfold Station.suspectRecovery
  split <;> simp

@[simp] theorem Station.judgeRecord_frame (s : Station) (k : StationNo) :
    (s.judgeRecord k).pins = s.pins ∧ (s.judgeRecord k).loader = s.loader
      ∧ (s.judgeRecord k).params = s.params
      ∧ (s.judgeRecord k).bus = s.bus ∧ (s.judgeRecord k).member = s.member
      ∧ (s.judgeRecord k).meas = s.meas
      ∧ (s.judgeRecord k).engine = s.engine ∧ (s.judgeRecord k).auth = s.auth
      ∧ (s.judgeRecord k).drive = s.drive := by
  unfold Station.judgeRecord
  dsimp only
  (repeat' split) <;> simp

@[simp] theorem Station.peersSection_frame (s : Station) :
    s.peersSection.pins = s.pins ∧ s.peersSection.loader = s.loader
      ∧ s.peersSection.params = s.params
      ∧ s.peersSection.bus = s.bus ∧ s.peersSection.member = s.member
      ∧ s.peersSection.meas = s.meas
      ∧ s.peersSection.engine = s.engine ∧ s.peersSection.auth = s.auth
      ∧ s.peersSection.drive = s.drive := by
  have h := fun {α : Type} (part : Station → α) (h1 : ∀ s k, part (Station.takeReport s k) = part s)
      (h2 : ∀ s k, part (Station.countRecord s k) = part s) (h3 : ∀ s k, part (Station.takePresence s k) = part s)
      (h4 : ∀ s k, part (Station.checkRecord s k) = part s) (h5 : ∀ s k, part (Station.judgeRecord s k) = part s) =>
    (Station.forPeers_keeps part _ h5 _).trans ((Station.forPeers_keeps part _ h4 _).trans ((Station.forPeers_keeps part _ h3 _).trans
      ((Station.forPeers_keeps part _ h2 _).trans (Station.foldl_keeps part _ h1 allStations s))))
  exact ⟨h (fun s => s.pins) (by simp) (by simp) (by simp) (by simp) (by simp), h (fun s => s.loader) (by simp) (by simp) (by simp) (by simp) (by simp), h (fun s => s.params) (by simp) (by simp) (by simp) (by simp) (by simp), h (fun s => s.bus) (by simp) (by simp) (by simp) (by simp) (by simp), h (fun s => s.member) (by simp) (by simp) (by simp) (by simp) (by simp), h (fun s => s.meas) (by simp) (by simp) (by simp) (by simp) (by simp), h (fun s => s.engine) (by simp) (by simp) (by simp) (by simp) (by simp), h (fun s => s.auth) (by simp) (by simp) (by simp) (by simp) (by simp), h (fun s => s.drive) (by simp) (by simp) (by simp) (by simp) (by simp)⟩

@[simp] theorem Station.judgeDigest_frame (s : Station) :
    s.judgeDigest.pins = s.pins ∧ s.judgeDigest.loader = s.loader
      ∧ s.judgeDigest.params = s.params
      ∧ s.judgeDigest.bus = s.bus ∧ s.judgeDigest.peers = s.peers
      ∧ s.judgeDigest.meas = s.meas
      ∧ s.judgeDigest.engine = s.engine ∧ s.judgeDigest.auth = s.auth
      ∧ s.judgeDigest.drive = s.drive := by
  unfold Station.judgeDigest
  split <;> simp

@[simp] theorem Station.judgeMatch_frame (s : Station) :
    s.judgeMatch.pins = s.pins ∧ s.judgeMatch.loader = s.loader
      ∧ s.judgeMatch.params = s.params
      ∧ s.judgeMatch.bus = s.bus ∧ s.judgeMatch.peers = s.peers ∧ s.judgeMatch.meas = s.meas
      ∧ s.judgeMatch.engine = s.engine ∧ s.judgeMatch.auth = s.auth
      ∧ s.judgeMatch.drive = s.drive
      ∧ s.judgeMatch.cond = s.cond := by
  unfold Station.judgeMatch
  split <;> simp

@[simp] theorem Station.keepEvidence_frame (s : Station) :
    s.keepEvidence.pins = s.pins ∧ s.keepEvidence.loader = s.loader
      ∧ s.keepEvidence.params = s.params
      ∧ s.keepEvidence.bus = s.bus ∧ s.keepEvidence.member = s.member
      ∧ s.keepEvidence.peers = s.peers
      ∧ s.keepEvidence.engine = s.engine ∧ s.keepEvidence.auth = s.auth
      ∧ s.keepEvidence.drive = s.drive
      ∧ s.keepEvidence.cond = s.cond := by
  unfold Station.keepEvidence
  split <;> simp

@[simp] theorem Station.holdDemandLost_frame (s : Station) (n : Nat) :
    (s.holdDemandLost n).pins = s.pins ∧ (s.holdDemandLost n).loader = s.loader
      ∧ (s.holdDemandLost n).params = s.params ∧ (s.holdDemandLost n).bus = s.bus
      ∧ (s.holdDemandLost n).member = s.member ∧ (s.holdDemandLost n).peers = s.peers
      ∧ (s.holdDemandLost n).meas = s.meas ∧ (s.holdDemandLost n).engine = s.engine
      ∧ (s.holdDemandLost n).auth = s.auth ∧ (s.holdDemandLost n).drive = s.drive := by
  have h := fun {α : Type} (part : Station → α) (hp : ∀ s m, part (if m = n then s else s.setHeld false .demandLost m) = part s) =>
    Station.foldl_keeps part (fun s m => if m = n then s else s.setHeld false .demandLost m) hp (List.range 9) s
  refine ⟨h (fun s => s.pins) (fun s m => by by_cases hm : m = n <;> simp [hm]), h (fun s => s.loader) (fun s m => by by_cases hm : m = n <;> simp [hm]), h (fun s => s.params) (fun s m => by by_cases hm : m = n <;> simp [hm]), h (fun s => s.bus) (fun s m => by by_cases hm : m = n <;> simp [hm]), h (fun s => s.member) (fun s m => by by_cases hm : m = n <;> simp [hm]), h (fun s => s.peers) (fun s m => by by_cases hm : m = n <;> simp [hm]), h (fun s => s.meas) (fun s m => by by_cases hm : m = n <;> simp [hm]), h (fun s => s.engine) (fun s m => by by_cases hm : m = n <;> simp [hm]), h (fun s => s.auth) (fun s m => by by_cases hm : m = n <;> simp [hm]), h (fun s => s.drive) (fun s m => by by_cases hm : m = n <;> simp [hm])⟩

@[simp] theorem Station.demandLost_frame (s : Station) :
    s.demandLost.pins = s.pins ∧ s.demandLost.loader = s.loader
      ∧ s.demandLost.params = s.params
      ∧ s.demandLost.bus = s.bus ∧ s.demandLost.member = s.member
      ∧ s.demandLost.peers = s.peers
      ∧ s.demandLost.meas = s.meas ∧ s.demandLost.auth = s.auth
      ∧ s.demandLost.drive = s.drive := by
  unfold Station.demandLost
  split <;> simp

@[simp] theorem Station.formDemand_frame (s : Station) :
    s.formDemand.pins = s.pins ∧ s.formDemand.loader = s.loader
      ∧ s.formDemand.params = s.params
      ∧ s.formDemand.bus = s.bus ∧ s.formDemand.member = s.member
      ∧ s.formDemand.peers = s.peers
      ∧ s.formDemand.meas = s.meas ∧ s.formDemand.auth = s.auth
      ∧ s.formDemand.drive = s.drive := by
  unfold Station.formDemand
  split <;> simp

@[simp] theorem Station.settleTimeout_frame (s : Station) :
    s.settleTimeout.pins = s.pins ∧ s.settleTimeout.loader = s.loader
      ∧ s.settleTimeout.params = s.params
      ∧ s.settleTimeout.bus = s.bus ∧ s.settleTimeout.member = s.member
      ∧ s.settleTimeout.peers = s.peers
      ∧ s.settleTimeout.meas = s.meas ∧ s.settleTimeout.auth = s.auth
      ∧ s.settleTimeout.drive = s.drive := by
  unfold Station.settleTimeout
  split <;> simp

@[simp] theorem Station.runAgreed_frame (s : Station) :
    s.runAgreed.pins = s.pins ∧ s.runAgreed.loader = s.loader ∧ s.runAgreed.params = s.params
      ∧ s.runAgreed.bus = s.bus ∧ s.runAgreed.member = s.member ∧ s.runAgreed.peers = s.peers
      ∧ s.runAgreed.meas = s.meas ∧ s.runAgreed.auth = s.auth ∧ s.runAgreed.drive = s.drive := by
  unfold Station.runAgreed
  dsimp only
  (repeat' split) <;> simp

@[simp] theorem Station.dropAdopted_frame (s : Station) :
    s.dropAdopted.pins = s.pins ∧ s.dropAdopted.loader = s.loader
      ∧ s.dropAdopted.params = s.params
      ∧ s.dropAdopted.bus = s.bus ∧ s.dropAdopted.peers = s.peers
      ∧ s.dropAdopted.meas = s.meas
      ∧ s.dropAdopted.drive = s.drive :=
  ⟨rfl, rfl, rfl, rfl, rfl, rfl, rfl⟩

@[simp] theorem Station.runOrSuspend_frame (s : Station) :
    s.runOrSuspend.pins = s.pins ∧ s.runOrSuspend.loader = s.loader
      ∧ s.runOrSuspend.params = s.params
      ∧ s.runOrSuspend.bus = s.bus ∧ s.runOrSuspend.peers = s.peers
      ∧ s.runOrSuspend.meas = s.meas
      ∧ s.runOrSuspend.drive = s.drive := by
  unfold Station.runOrSuspend; (repeat' split) <;> simp

@[simp] theorem Station.engineApply_frame (s : Station) :
    s.engineApply.pins = s.pins ∧ s.engineApply.loader = s.loader
      ∧ s.engineApply.params = s.params
      ∧ s.engineApply.peers = s.peers ∧ s.engineApply.meas = s.meas
      ∧ s.engineApply.drive = s.drive :=
  by simp [Station.engineApply]

@[simp] theorem Station.splitView_frame (s : Station) :
    s.splitView.pins = s.pins ∧ s.splitView.loader = s.loader ∧ s.splitView.params = s.params
      ∧ s.splitView.bus = s.bus ∧ s.splitView.member = s.member ∧ s.splitView.peers = s.peers
      ∧ s.splitView.meas = s.meas ∧ s.splitView.engine = s.engine ∧ s.splitView.auth = s.auth
      ∧ s.splitView.drive = s.drive :=
  ⟨rfl, rfl, rfl, rfl, rfl, rfl, rfl, rfl, rfl, rfl⟩

@[simp] theorem Station.countSplit_frame (s : Station) :
    s.countSplit.pins = s.pins ∧ s.countSplit.loader = s.loader
      ∧ s.countSplit.params = s.params
      ∧ s.countSplit.bus = s.bus ∧ s.countSplit.member = s.member
      ∧ s.countSplit.peers = s.peers
      ∧ s.countSplit.meas = s.meas ∧ s.countSplit.auth = s.auth
      ∧ s.countSplit.drive = s.drive :=
  ⟨rfl, rfl, rfl, rfl, rfl, rfl, rfl, rfl, rfl⟩

@[simp] theorem Station.engineAdopt_frame (s : Station) (a : AdoptionEntry) :
    (s.engineAdopt a).pins = s.pins ∧ (s.engineAdopt a).loader = s.loader
      ∧ (s.engineAdopt a).params = s.params
      ∧ (s.engineAdopt a).bus = s.bus ∧ (s.engineAdopt a).member = s.member
      ∧ (s.engineAdopt a).peers = s.peers
      ∧ (s.engineAdopt a).meas = s.meas ∧ (s.engineAdopt a).auth = s.auth
      ∧ (s.engineAdopt a).drive = s.drive
      ∧ (s.engineAdopt a).cond = s.cond := by
  unfold Station.engineAdopt
  split <;> simp

@[simp] theorem Station.failClaim_frame (s : Station) (g : Group) (c : CloseCode) :
    (s.failClaim g c).pins = s.pins ∧ (s.failClaim g c).loader = s.loader
      ∧ (s.failClaim g c).params = s.params
      ∧ (s.failClaim g c).bus = s.bus ∧ (s.failClaim g c).member = s.member
      ∧ (s.failClaim g c).peers = s.peers
      ∧ (s.failClaim g c).meas = s.meas ∧ (s.failClaim g c).engine = s.engine
      ∧ (s.failClaim g c).drive = s.drive := by
  unfold Station.failClaim
  dsimp only
  (repeat' split) <;> simp

@[simp] theorem Station.takeClose_frame (s : Station) (g : Group) (c : Option (StationNo × CloseCode)) :
    (s.takeClose g c).pins = s.pins ∧ (s.takeClose g c).loader = s.loader
      ∧ (s.takeClose g c).params = s.params
      ∧ (s.takeClose g c).bus = s.bus ∧ (s.takeClose g c).member = s.member
      ∧ (s.takeClose g c).peers = s.peers
      ∧ (s.takeClose g c).meas = s.meas ∧ (s.takeClose g c).engine = s.engine
      ∧ (s.takeClose g c).drive = s.drive := by
  unfold Station.takeClose; (repeat' split) <;> simp

@[simp] theorem Station.commitGroup_frame (s : Station) (g : Group) (w : GroupWork) :
    (s.commitGroup g w).pins = s.pins ∧ (s.commitGroup g w).loader = s.loader
      ∧ (s.commitGroup g w).params = s.params
      ∧ (s.commitGroup g w).bus = s.bus ∧ (s.commitGroup g w).member = s.member
      ∧ (s.commitGroup g w).peers = s.peers
      ∧ (s.commitGroup g w).meas = s.meas ∧ (s.commitGroup g w).engine = s.engine
      ∧ (s.commitGroup g w).drive = s.drive :=
  by simp [Station.commitGroup]

@[simp] theorem Station.groupConds_frame (s : Station) :
    s.groupConds.pins = s.pins ∧ s.groupConds.loader = s.loader
      ∧ s.groupConds.params = s.params
      ∧ s.groupConds.bus = s.bus ∧ s.groupConds.member = s.member
      ∧ s.groupConds.peers = s.peers
      ∧ s.groupConds.meas = s.meas ∧ s.groupConds.engine = s.engine
      ∧ s.groupConds.auth = s.auth
      ∧ s.groupConds.drive = s.drive := by
  unfold Station.groupConds
  split <;> simp

@[simp] theorem Station.makeLive_frame (s : Station) :
    s.makeLive.pins = s.pins ∧ s.makeLive.loader = s.loader ∧ s.makeLive.params = s.params
      ∧ s.makeLive.bus = s.bus ∧ s.makeLive.member = s.member ∧ s.makeLive.peers = s.peers
      ∧ s.makeLive.meas = s.meas ∧ s.makeLive.engine = s.engine
      ∧ s.makeLive.drive = s.drive :=
  ⟨rfl, rfl, rfl, rfl, rfl, rfl, rfl, rfl, rfl⟩

@[simp] theorem Station.groupWork_frame (s : Station) (r : Option DecisionRecord) (g : Group) :
    (s.groupWork r g).pins = s.pins ∧ (s.groupWork r g).loader = s.loader
      ∧ (s.groupWork r g).params = s.params
      ∧ (s.groupWork r g).bus = s.bus ∧ (s.groupWork r g).member = s.member
      ∧ (s.groupWork r g).peers = s.peers
      ∧ (s.groupWork r g).meas = s.meas ∧ (s.groupWork r g).engine = s.engine
      ∧ (s.groupWork r g).drive = s.drive :=
  by simp [Station.groupWork]

@[simp] theorem Station.authorityHandover_frame (s : Station) (r : Option DecisionRecord) :
    (s.authorityHandover r).pins = s.pins ∧ (s.authorityHandover r).loader = s.loader
      ∧ (s.authorityHandover r).params = s.params ∧ (s.authorityHandover r).bus = s.bus
      ∧ (s.authorityHandover r).member = s.member ∧ (s.authorityHandover r).peers = s.peers
      ∧ (s.authorityHandover r).meas = s.meas ∧ (s.authorityHandover r).engine = s.engine
      ∧ (s.authorityHandover r).drive = s.drive := by
  unfold Station.authorityHandover
  split <;> simp

@[simp] theorem Station.takeView_frame (s : Station) (a : AdoptionEntry) :
    (s.takeView a).pins = s.pins ∧ (s.takeView a).loader = s.loader
      ∧ (s.takeView a).params = s.params
      ∧ (s.takeView a).bus = s.bus ∧ (s.takeView a).peers = s.peers ∧ (s.takeView a).meas = s.meas
      ∧ (s.takeView a).engine = s.engine ∧ (s.takeView a).drive = s.drive
      ∧ (s.takeView a).cond = s.cond := by
  unfold Station.takeView
  split <;> simp

@[simp] theorem Station.adopt_frame (s : Station) (a : Option AdoptionEntry) :
    (s.adopt a).pins = s.pins ∧ (s.adopt a).loader = s.loader ∧ (s.adopt a).params = s.params
      ∧ (s.adopt a).bus = s.bus ∧ (s.adopt a).peers = s.peers ∧ (s.adopt a).meas = s.meas
      ∧ (s.adopt a).drive = s.drive ∧ (s.adopt a).cond = s.cond := by
  unfold Station.adopt; (repeat' split) <;> simp

@[simp] theorem Station.rampGroup_frame (s : Station) (g : Group) :
    (s.rampGroup g).pins = s.pins ∧ (s.rampGroup g).loader = s.loader
      ∧ (s.rampGroup g).params = s.params
      ∧ (s.rampGroup g).bus = s.bus ∧ (s.rampGroup g).member = s.member
      ∧ (s.rampGroup g).peers = s.peers
      ∧ (s.rampGroup g).meas = s.meas ∧ (s.rampGroup g).engine = s.engine
      ∧ (s.rampGroup g).drive = s.drive :=
  by simp [Station.rampGroup]

@[simp] theorem Station.rampStep_frame (s : Station) :
    s.rampStep.pins = s.pins ∧ s.rampStep.loader = s.loader ∧ s.rampStep.params = s.params
      ∧ s.rampStep.bus = s.bus ∧ s.rampStep.member = s.member ∧ s.rampStep.peers = s.peers
      ∧ s.rampStep.meas = s.meas ∧ s.rampStep.engine = s.engine
      ∧ s.rampStep.drive = s.drive := by
  unfold Station.rampStep
  split <;> simp

@[simp] theorem Station.countAuthority_frame (s : Station) :
    s.countAuthority.pins = s.pins ∧ s.countAuthority.loader = s.loader
      ∧ s.countAuthority.params = s.params
      ∧ s.countAuthority.bus = s.bus ∧ s.countAuthority.member = s.member
      ∧ s.countAuthority.peers = s.peers
      ∧ s.countAuthority.meas = s.meas ∧ s.countAuthority.engine = s.engine
      ∧ s.countAuthority.drive = s.drive
      ∧ s.countAuthority.cond = s.cond := by
  unfold Station.countAuthority
  split <;> simp

@[simp] theorem Station.limitGroup_frame (s : Station) (f : GroupWork → GroupWork) (g : Group) :
    (Station.limitGroup f s g).pins = s.pins ∧ (Station.limitGroup f s g).loader = s.loader
      ∧ (Station.limitGroup f s g).params = s.params ∧ (Station.limitGroup f s g).bus = s.bus
      ∧ (Station.limitGroup f s g).member = s.member ∧ (Station.limitGroup f s g).peers = s.peers
      ∧ (Station.limitGroup f s g).meas = s.meas ∧ (Station.limitGroup f s g).engine = s.engine
      ∧ (Station.limitGroup f s g).drive = s.drive :=
  by simp [Station.limitGroup]

@[simp] theorem Station.limitStage_frame (s : Station) (f : GroupWork → GroupWork) :
    (s.limitStage f).pins = s.pins ∧ (s.limitStage f).loader = s.loader
      ∧ (s.limitStage f).params = s.params
      ∧ (s.limitStage f).bus = s.bus ∧ (s.limitStage f).member = s.member
      ∧ (s.limitStage f).peers = s.peers
      ∧ (s.limitStage f).meas = s.meas ∧ (s.limitStage f).engine = s.engine
      ∧ (s.limitStage f).drive = s.drive := by
  unfold Station.limitStage
  split <;> simp

@[simp] theorem Station.lockEntry_frame (s : Station) :
    s.lockEntry.pins = s.pins ∧ s.lockEntry.loader = s.loader ∧ s.lockEntry.params = s.params
      ∧ s.lockEntry.bus = s.bus ∧ s.lockEntry.member = s.member ∧ s.lockEntry.peers = s.peers
      ∧ s.lockEntry.meas = s.meas ∧ s.lockEntry.engine = s.engine ∧ s.lockEntry.auth = s.auth
      ∧ s.lockEntry.cond = s.cond := by
  unfold Station.lockEntry
  split <;> simp

@[simp] theorem Station.leaveOff_frame (s : Station) :
    s.leaveOff.pins = s.pins ∧ s.leaveOff.loader = s.loader ∧ s.leaveOff.params = s.params
      ∧ s.leaveOff.bus = s.bus ∧ s.leaveOff.member = s.member ∧ s.leaveOff.peers = s.peers
      ∧ s.leaveOff.meas = s.meas ∧ s.leaveOff.engine = s.engine ∧ s.leaveOff.auth = s.auth
      ∧ s.leaveOff.cond = s.cond := by
  unfold Station.leaveOff
  split <;> simp

@[simp] theorem Station.lockRampEnd_frame (s : Station) :
    s.lockRampEnd.pins = s.pins ∧ s.lockRampEnd.loader = s.loader
      ∧ s.lockRampEnd.params = s.params
      ∧ s.lockRampEnd.bus = s.bus ∧ s.lockRampEnd.member = s.member
      ∧ s.lockRampEnd.peers = s.peers
      ∧ s.lockRampEnd.meas = s.meas ∧ s.lockRampEnd.engine = s.engine
      ∧ s.lockRampEnd.auth = s.auth
      ∧ s.lockRampEnd.cond = s.cond :=
  ⟨rfl, rfl, rfl, rfl, rfl, rfl, rfl, rfl, rfl, rfl⟩

@[simp] theorem Station.releaseHoldEnd_frame (s : Station) :
    s.releaseHoldEnd.pins = s.pins ∧ s.releaseHoldEnd.loader = s.loader
      ∧ s.releaseHoldEnd.params = s.params
      ∧ s.releaseHoldEnd.bus = s.bus ∧ s.releaseHoldEnd.member = s.member
      ∧ s.releaseHoldEnd.peers = s.peers
      ∧ s.releaseHoldEnd.meas = s.meas ∧ s.releaseHoldEnd.engine = s.engine
      ∧ s.releaseHoldEnd.auth = s.auth
      ∧ s.releaseHoldEnd.cond = s.cond := by
  unfold Station.releaseHoldEnd
  split <;> simp

@[simp] theorem Station.driveUpdate_frame (s : Station) :
    s.driveUpdate.pins = s.pins ∧ s.driveUpdate.loader = s.loader
      ∧ s.driveUpdate.params = s.params
      ∧ s.driveUpdate.bus = s.bus ∧ s.driveUpdate.member = s.member
      ∧ s.driveUpdate.peers = s.peers
      ∧ s.driveUpdate.meas = s.meas ∧ s.driveUpdate.engine = s.engine
      ∧ s.driveUpdate.auth = s.auth
      ∧ s.driveUpdate.cond = s.cond :=
  by simp [Station.driveUpdate]

@[simp] theorem Station.driveApply_frame (s : Station) :
    s.driveApply.pins = s.pins ∧ s.driveApply.loader = s.loader
      ∧ s.driveApply.params = s.params
      ∧ s.driveApply.bus = s.bus ∧ s.driveApply.member = s.member
      ∧ s.driveApply.peers = s.peers
      ∧ s.driveApply.meas = s.meas ∧ s.driveApply.engine = s.engine
      ∧ s.driveApply.auth = s.auth
      ∧ s.driveApply.cond = s.cond := by
  unfold Station.driveApply
  dsimp only
  (repeat' split) <;> simp

@[simp] theorem Station.moveSpeedMode_frame (s : Station) :
    s.moveSpeedMode.pins = s.pins ∧ s.moveSpeedMode.loader = s.loader
      ∧ s.moveSpeedMode.params = s.params
      ∧ s.moveSpeedMode.bus = s.bus ∧ s.moveSpeedMode.member = s.member
      ∧ s.moveSpeedMode.peers = s.peers
      ∧ s.moveSpeedMode.meas = s.meas ∧ s.moveSpeedMode.engine = s.engine
      ∧ s.moveSpeedMode.auth = s.auth
      ∧ s.moveSpeedMode.drive = s.drive := by
  unfold Station.moveSpeedMode
  split <;> simp

@[simp] theorem Station.propose_frame (s : Station) (n : Nat) :
    (s.propose n).pins = s.pins ∧ (s.propose n).loader = s.loader ∧ (s.propose n).params = s.params
      ∧ (s.propose n).bus = s.bus ∧ (s.propose n).member = s.member ∧ (s.propose n).peers = s.peers
      ∧ (s.propose n).meas = s.meas ∧ (s.propose n).engine = s.engine ∧ (s.propose n).auth = s.auth
      ∧ (s.propose n).drive = s.drive :=
  by simp [Station.propose]

@[simp] theorem Station.applyWork_frame (s : Station) :
    s.applyWork.loader = s.loader ∧ s.applyWork.params = s.params
      ∧ s.applyWork.peers = s.peers
      ∧ s.applyWork.meas = s.meas :=
  by simp [Station.applyWork]

@[simp] theorem Station.readBackTally_frame (s : Station) (w : BitVec 70) :
    (s.readBackTally w).pins = s.pins ∧ (s.readBackTally w).loader = s.loader
      ∧ (s.readBackTally w).params = s.params
      ∧ (s.readBackTally w).bus = s.bus ∧ (s.readBackTally w).member = s.member
      ∧ (s.readBackTally w).peers = s.peers
      ∧ (s.readBackTally w).meas = s.meas ∧ (s.readBackTally w).engine = s.engine
      ∧ (s.readBackTally w).auth = s.auth
      ∧ (s.readBackTally w).drive = s.drive := by
  unfold Station.readBackTally; split; (rw [Station.raiseTimes_frame]; simp); simp

@[simp] theorem Station.readBackCut_frame (s : Station) (w : BitVec 70) :
    (s.readBackCut w).pins = s.pins ∧ (s.readBackCut w).loader = s.loader
      ∧ (s.readBackCut w).params = s.params ∧ (s.readBackCut w).member = s.member
      ∧ (s.readBackCut w).peers = s.peers
      ∧ (s.readBackCut w).meas = s.meas ∧ (s.readBackCut w).engine = s.engine
      ∧ (s.readBackCut w).auth = s.auth
      ∧ (s.readBackCut w).drive = s.drive := by
  unfold Station.readBackCut; split; (rw [Station.raiseTimes_frame]; simp); simp

@[simp] theorem Station.cutTally_frame (s : Station) (w : BitVec 70) :
    (s.cutTally w).pins = s.pins ∧ (s.cutTally w).loader = s.loader
      ∧ (s.cutTally w).params = s.params ∧ (s.cutTally w).member = s.member
      ∧ (s.cutTally w).peers = s.peers
      ∧ (s.cutTally w).meas = s.meas ∧ (s.cutTally w).engine = s.engine
      ∧ (s.cutTally w).auth = s.auth
      ∧ (s.cutTally w).drive = s.drive := by
  simp [Station.cutTally]

@[simp] theorem Station.takeOutcomes_frame (s : Station) (w : BitVec 70) :
    (s.takeOutcomes w).pins = s.pins ∧ (s.takeOutcomes w).loader = s.loader
      ∧ (s.takeOutcomes w).params = s.params
      ∧ (s.takeOutcomes w).member = s.member ∧ (s.takeOutcomes w).peers = s.peers
      ∧ (s.takeOutcomes w).meas = s.meas
      ∧ (s.takeOutcomes w).engine = s.engine ∧ (s.takeOutcomes w).auth = s.auth
      ∧ (s.takeOutcomes w).drive = s.drive
      ∧ (s.takeOutcomes w).cond = s.cond :=
  ⟨rfl, rfl, rfl, rfl, rfl, rfl, rfl, rfl, rfl, rfl⟩

@[simp] theorem Station.takeOwnMatch_frame (s : Station) :
    s.takeOwnMatch.pins = s.pins ∧ s.takeOwnMatch.loader = s.loader
      ∧ s.takeOwnMatch.params = s.params
      ∧ s.takeOwnMatch.peers = s.peers ∧ s.takeOwnMatch.meas = s.meas
      ∧ s.takeOwnMatch.engine = s.engine
      ∧ s.takeOwnMatch.auth = s.auth ∧ s.takeOwnMatch.drive = s.drive
      ∧ s.takeOwnMatch.cond = s.cond :=
  ⟨rfl, rfl, rfl, rfl, rfl, rfl, rfl, rfl, rfl⟩

@[simp] theorem Station.consumeOutcomes_frame (s : Station) :
    s.consumeOutcomes.pins = s.pins ∧ s.consumeOutcomes.loader = s.loader
      ∧ s.consumeOutcomes.params = s.params
      ∧ s.consumeOutcomes.bus = { s.bus with pendingRecord := none }
      ∧ s.consumeOutcomes.meas = s.meas ∧ s.consumeOutcomes.drive = s.drive := by
  simp [Station.consumeOutcomes]

@[simp] theorem Station.takeTally_frame (s : Station) (w : BitVec 70) :
    (s.takeTally w).pins = s.pins ∧ (s.takeTally w).loader = s.loader
      ∧ (s.takeTally w).params = s.params
      ∧ (s.takeTally w).meas = s.meas ∧ (s.takeTally w).drive = s.drive := by
  simp [Station.takeTally]

/-- The handover leaves no record pending and no own signature, whatever the record was. -/
theorem Station.takeTally_bus (s : Station) (w : BitVec 70) :
    (s.takeTally w).bus = { ((s.readBackTally w).takeOutcomes w).bus with ownSig := none, pendingRecord := none } := by
  simp [Station.takeTally, Station.takeOwnMatch]

@[simp] theorem Station.enterMember_frame (s : Station) :
    s.enterMember.pins = s.pins ∧ s.enterMember.loader = s.loader
      ∧ s.enterMember.params = s.params
      ∧ s.enterMember.bus = s.bus ∧ s.enterMember.peers = s.peers
      ∧ s.enterMember.meas = s.meas
      ∧ s.enterMember.engine = s.engine ∧ s.enterMember.drive = s.drive := by
  simp [Station.enterMember]

@[simp] theorem Station.joinHandover_frame (s : Station) :
    s.joinHandover.pins = s.pins ∧ s.joinHandover.loader = s.loader
      ∧ s.joinHandover.params = s.params
      ∧ s.joinHandover.bus = s.bus ∧ s.joinHandover.peers = s.peers
      ∧ s.joinHandover.meas = s.meas
      ∧ s.joinHandover.engine = s.engine ∧ s.joinHandover.drive = s.drive := by
  unfold Station.joinHandover
  dsimp only
  (repeat' split) <;> simp

@[simp] theorem Station.sendReport_frame (s : Station) (b : BitVec 247) :
    (s.sendReport b).pins = s.pins ∧ (s.sendReport b).loader = s.loader
      ∧ (s.sendReport b).params = s.params
      ∧ (s.sendReport b).member = s.member ∧ (s.sendReport b).peers = s.peers
      ∧ (s.sendReport b).meas = s.meas
      ∧ (s.sendReport b).engine = s.engine ∧ (s.sendReport b).auth = s.auth
      ∧ (s.sendReport b).drive = s.drive := by
  unfold Station.sendReport
  dsimp only
  generalize firstMismatch _ _ = m
  cases m <;> exact ⟨rfl, rfl, rfl, rfl, rfl, rfl, rfl, rfl, rfl⟩

@[simp] theorem Station.closeSection_frame (s : Station) :
    s.closeSection.pins = s.pins ∧ s.closeSection.loader = s.loader
      ∧ s.closeSection.params = s.params
      ∧ s.closeSection.member = s.member ∧ s.closeSection.peers = s.peers
      ∧ s.closeSection.meas = s.meas
      ∧ s.closeSection.engine = s.engine ∧ s.closeSection.auth = s.auth
      ∧ s.closeSection.drive = s.drive
      ∧ s.closeSection.cond = s.cond :=
  ⟨rfl, rfl, rfl, rfl, rfl, rfl, rfl, rfl, rfl, rfl⟩

@[simp] theorem Station.handOn_frame (s : Station) :
    s.handOn.pins = s.pins ∧ s.handOn.loader = s.loader ∧ s.handOn.params = s.params
      ∧ s.handOn.engine = s.engine ∧ s.handOn.auth = s.auth ∧ s.handOn.drive = s.drive :=
  by simp [Station.handOn]

@[simp] theorem Station.handNothing_frame (s : Station) :
    s.handNothing.pins = s.pins ∧ s.handNothing.loader = s.loader
      ∧ s.handNothing.params = s.params
      ∧ s.handNothing.peers = s.peers ∧ s.handNothing.meas = s.meas
      ∧ s.handNothing.engine = s.engine
      ∧ s.handNothing.auth = s.auth ∧ s.handNothing.drive = s.drive
      ∧ s.handNothing.cond = s.cond :=
  ⟨rfl, rfl, rfl, rfl, rfl, rfl, rfl, rfl, rfl⟩

@[simp] theorem Station.endSection_frame (s : Station) :
    s.endSection.pins = s.pins ∧ s.endSection.loader = s.loader
      ∧ s.endSection.params = s.params
      ∧ s.endSection.engine = s.engine ∧ s.endSection.auth = s.auth
      ∧ s.endSection.drive = s.drive := by
  unfold Station.endSection
  split <;> simp

@[simp] theorem Station.notifyRound_frame (s : Station) :
    s.notifyRound.pins = s.pins ∧ s.notifyRound.loader = s.loader
      ∧ s.notifyRound.params = s.params
      ∧ s.notifyRound.bus = s.bus ∧ s.notifyRound.peers = s.peers
      ∧ s.notifyRound.meas = s.meas
      ∧ s.notifyRound.engine = s.engine ∧ s.notifyRound.auth = s.auth
      ∧ s.notifyRound.drive = s.drive
      ∧ s.notifyRound.cond = s.cond := by
  unfold Station.notifyRound
  split <;> simp

/-- Where the loss of the bus is not due, the drive start changes nothing more. -/
theorem Station.loseBusAtDrive_stays {s : Station} (h : s.busLossDue = false) : s.loseBusAtDrive = s :=
  if_neg (by simp [h])

/-- Where it is due, the events age and the station returns to LISTEN (R74, R175). -/
theorem Station.loseBusAtDrive_loses {s : Station} (h : s.busLossDue = true) :
    s.loseBusAtDrive = s.ageConditions.returnAfterLoss :=
  (if_pos h).trans (if_pos h)

/-- A drive start that loses no bus tells the ended round and begins the mark (R7, R22). -/
theorem Station.startMark_stays {s : Station} (h : s.notifyRound.busLossDue = false) :
    s.startMark = { s.notifyRound with bus := s.notifyRound.bus.driveMark } :=
  Station.loseBusAtDrive_stays h

/-- A drive start that loses the bus returns to LISTEN with the mark begun (R74). -/
theorem Station.startMark_loses {s : Station} (h : s.notifyRound.busLossDue = true) :
    s.startMark =
      ({ s.notifyRound with bus := s.notifyRound.bus.driveMark } : Station).ageConditions.returnAfterLoss :=
  Station.loseBusAtDrive_loses h

@[simp] theorem Station.startMark_frame (s : Station) :
    s.startMark.pins = s.pins ∧ s.startMark.loader = s.loader ∧ s.startMark.params = s.params := by
  cases h : s.notifyRound.busLossDue
  · rw [Station.startMark_stays h]; simp
  · rw [Station.startMark_loses h]; simp

/-- A round that was not abandoned leaves nothing to be told at its end. -/
theorem Station.closeAbandoned_none {s : Station} (h : s.bus.round.abandoned = false) : s.closeAbandoned = s :=
  if_neg (by simp [h])

/-- A frame that was begun is cut: next seq is inverted, and the slot is over (R49). -/
theorem BusUnit.cutFrame_begun {b : BusUnit} {frame : BitVec 247} {report : Report} {mismatch : Option Nat}
    (h : b.round.ownSlot = .sending frame report mismatch) :
    b.cutFrame = { b with nextSeq := !b.nextSeq, round := { b.round with ownSlot := .ended } } := by
  simp [BusUnit.cutFrame, h]

/-- Without a frame begun there is nothing to cut, and next seq stands (R49). -/
theorem BusUnit.cutFrame_none {b : BusUnit} (h : b.round.ownSlot = .notBegun ∨ b.round.ownSlot = .ended) :
    b.cutFrame = b := by
  rcases h with h | h <;> simp [BusUnit.cutFrame, h]

@[simp] theorem Station.closeAbandoned_frame (s : Station) :
    s.closeAbandoned.pins = s.pins ∧ s.closeAbandoned.loader = s.loader
      ∧ s.closeAbandoned.params = s.params
      ∧ s.closeAbandoned.peers = s.peers ∧ s.closeAbandoned.meas = s.meas
      ∧ s.closeAbandoned.engine = s.engine
      ∧ s.closeAbandoned.auth = s.auth ∧ s.closeAbandoned.drive = s.drive
      ∧ s.closeAbandoned.cond = s.cond := by
  unfold Station.closeAbandoned
  dsimp only
  (repeat' split) <;> simp

@[simp] theorem Station.startMarkless_frame (s : Station) (n : Nat) :
    (s.startMarkless n).pins = s.pins ∧ (s.startMarkless n).loader = s.loader
      ∧ (s.startMarkless n).params = s.params
      ∧ (s.startMarkless n).peers = s.peers ∧ (s.startMarkless n).meas = s.meas
      ∧ (s.startMarkless n).engine = s.engine
      ∧ (s.startMarkless n).auth = s.auth ∧ (s.startMarkless n).drive = s.drive := by
  simp [Station.startMarkless]

@[simp] theorem Station.countGoodRound_frame (s : Station) :
    s.countGoodRound.pins = s.pins ∧ s.countGoodRound.loader = s.loader
      ∧ s.countGoodRound.params = s.params
      ∧ s.countGoodRound.bus = s.bus ∧ s.countGoodRound.peers = s.peers
      ∧ s.countGoodRound.meas = s.meas
      ∧ s.countGoodRound.engine = s.engine ∧ s.countGoodRound.auth = s.auth
      ∧ s.countGoodRound.drive = s.drive
      ∧ s.countGoodRound.cond = s.cond := by
  unfold Station.countGoodRound
  split <;> simp

@[simp] theorem Station.detectStuck_frame (s : Station) (n : Nat) :
    (s.detectStuck n).pins = s.pins ∧ (s.detectStuck n).loader = s.loader
      ∧ (s.detectStuck n).params = s.params
      ∧ (s.detectStuck n).peers = s.peers ∧ (s.detectStuck n).meas = s.meas
      ∧ (s.detectStuck n).engine = s.engine
      ∧ (s.detectStuck n).auth = s.auth ∧ (s.detectStuck n).drive = s.drive := by
  unfold Station.detectStuck
  dsimp only
  (repeat' split) <;> simp

@[simp] theorem Station.countStuck_frame (s : Station) (n : Nat) :
    (s.countStuck n).pins = s.pins ∧ (s.countStuck n).loader = s.loader
      ∧ (s.countStuck n).params = s.params
      ∧ (s.countStuck n).peers = s.peers ∧ (s.countStuck n).meas = s.meas
      ∧ (s.countStuck n).engine = s.engine
      ∧ (s.countStuck n).auth = s.auth ∧ (s.countStuck n).drive = s.drive := by
  unfold Station.countStuck
  dsimp only
  (repeat' split) <;> simp

@[simp] theorem Station.faultMark_frame (s : Station) :
    s.faultMark.pins = s.pins ∧ s.faultMark.loader = s.loader
      ∧ s.faultMark.params = s.params
      ∧ s.faultMark.member = s.member ∧ s.faultMark.peers = s.peers
      ∧ s.faultMark.meas = s.meas
      ∧ s.faultMark.engine = s.engine ∧ s.faultMark.auth = s.auth
      ∧ s.faultMark.drive = s.drive := by
  unfold Station.faultMark
  (repeat' split) <;> simp

@[simp] theorem Station.joinEntry_frame (s : Station) :
    s.joinEntry.pins = s.pins ∧ s.joinEntry.loader = s.loader ∧ s.joinEntry.params = s.params
      ∧ s.joinEntry.peers = s.peers ∧ s.joinEntry.drive = s.drive := by
  unfold Station.joinEntry
  split <;> simp

@[simp] theorem Station.tickPosition_frame (s : Station) :
    s.tickPosition.pins = s.pins ∧ s.tickPosition.loader = s.loader
      ∧ s.tickPosition.params = s.params
      ∧ s.tickPosition.member.state = s.member.state ∧ s.tickPosition.peers = s.peers
      ∧ s.tickPosition.meas = s.meas
      ∧ s.tickPosition.engine = s.engine ∧ s.tickPosition.auth = s.auth
      ∧ s.tickPosition.drive = s.drive
      ∧ s.tickPosition.cond = s.cond := by
  unfold Station.tickPosition
  split <;> simp

@[simp] theorem Station.tickHold_frame (s : Station) :
    s.tickHold.pins = s.pins ∧ s.tickHold.loader = s.loader ∧ s.tickHold.params = s.params
      ∧ s.tickHold.bus = s.bus ∧ s.tickHold.peers = s.peers ∧ s.tickHold.meas = s.meas
      ∧ s.tickHold.engine = s.engine ∧ s.tickHold.auth = s.auth ∧ s.tickHold.drive = s.drive
      ∧ s.tickHold.cond = s.cond := by
  unfold Station.tickHold
  split <;> simp

@[simp] theorem Station.tickScan_frame (s : Station) :
    s.tickScan.pins = s.pins ∧ s.tickScan.loader = s.loader ∧ s.tickScan.params = s.params
      ∧ s.tickScan.bus = s.bus ∧ s.tickScan.member = s.member ∧ s.tickScan.peers = s.peers
      ∧ s.tickScan.engine = s.engine ∧ s.tickScan.auth = s.auth ∧ s.tickScan.drive = s.drive
      ∧ s.tickScan.cond = s.cond :=
  ⟨rfl, rfl, rfl, rfl, rfl, rfl, rfl, rfl, rfl, rfl⟩

end Sys2Proof.Machine
end

