-- ==== Sys2Proof/Laws/Authority.lean ====
section
/-! SUPPORT. What an adoption and a group's losses read and do, said once: the sets of stations, the tests of R139 and R144, and the
removal of R153. -/

namespace Sys2Proof

/-- A set given by a test holds the stations that pass it. -/
theorem inSet_setOf (p : StationNo → Bool) (k : StationNo) : inSet (Sys2Proof.setOf p) k = p k := by
  have h : ∀ (b0 b1 b2 b3 b4 b5 b6 b7 : Bool) (k : Fin 8),
      inSet (Sys2Proof.setOf (Eight.mk b0 b1 b2 b3 b4 b5 b6 b7).get) k = (Eight.mk b0 b1 b2 b3 b4 b5 b6 b7).get k := by
    decide +kernel
  have hp : ∀ k, p k = (Eight.ofFn p).get k := by
    intro k
    fin_cases k <;> rfl
  rw [show p = (Eight.ofFn p).get from funext hp]
  exact h _ _ _ _ _ _ _ _ k

namespace Machine

/-- The engine may take an entry (R139). -/
theorem Station.mayAdopt_iff (s : Station) :
    s.mayAdopt = true ↔
      (s.member.state = .join ∨ s.member.state = .member ∨ s.member.state = .quiet)
        ∧ s.engine.run.engine = .idle ∧ s.engine.run.adopted = false := by
  simp only [Station.mayAdopt, Bool.and_eq_true, Bool.or_eq_true, decide_eq_true_eq, Bool.not_eq_true', and_assoc, or_assoc]

/-- The fields are proper (R139): those of a mode, or those of an IDLE engine. -/
theorem trajProper_iff (sh : SharedSection) (t : TrajFields) :
    trajProper sh t = true ↔
      (∃ m, modeOfCode t.mode = some m ∧ (modeAt sh m).first ≤ t.step ∧ t.step ≤ (modeAt sh m).last
        ∧ t.repeatLeft ≤ (stepAt sh t.step).repeats ∧ -360 ≤ t.setpoint ∧ t.setpoint ≤ 360
        ∧ (t.pending = 7 ∨ (t.pending ≤ 4 ∧ t.mode < t.pending))
        ∧ (t.elapsed = 65535 → t.step = (modeAt sh m).last ∧ (modeAt sh m).loop = false ∧ t.pending = 7))
      ∨ t = { mode := 7, step := 0, repeatLeft := 0, elapsed := 0, setpoint := 0, pending := 7 } := by
  unfold trajProper
  split
  · rename_i m h
    simp only [h, pendingProper, elapsedProper, Bool.and_eq_true, Bool.or_eq_true, decide_eq_true_eq, Bool.not_eq_true']
    constructor
    · intro hh
      refine Or.inl ⟨m, rfl, ?_⟩
      tauto
    · rintro (⟨m', e, hh⟩ | rfl)
      · injection e with e
        subst e
        tauto
      · exact absurd h (by simp [modeOfCode])
  · rename_i h
    simp [h]

/-- A view fits its group (R144). -/
theorem Station.viewFits_iff (s : Station) (g : Group) (S : StationSet) :
    s.viewFits g S = true ↔
      ∀ k : StationNo, inSet S k = true → s.usable k = true ∧ k ≠ s.number ∧ admits g (s.roleOf k) = true := by
  have mem : ∀ k : StationNo, k ∈ allStations := by decide
  simp only [Station.viewFits, stationsOf, List.all_eq_true, List.mem_filter, mem, true_and, Bool.and_eq_true,
    decide_eq_true_eq, and_assoc]

/-- A station is lost to a group: no party any more, or it releases (R153, R154). -/
theorem Station.groupInputs_lost (s : Station) (g : Group) (applied : Option DecisionRecord) (k : StationNo) :
    (s.groupInputs g applied).lost k = true ↔
      (s.usable k = false ∧ k ≠ s.number) ∨ (s.groupInputs g applied).responses.get k = .release := by
  have party : (!inSet (s.groupInputs g applied).parties k) = true ↔ s.usable k = false ∧ k ≠ s.number := by
    simp only [Station.groupInputs, inSet_setOf, Station.isParty, Bool.not_eq_true', Bool.or_eq_false_iff,
      decide_eq_false_iff_not, ne_eq]
  rw [GroupInputs.lost, Bool.or_eq_true, decide_eq_true_iff, party]

/-- A claim is taken as far as its claimant goes (R147): the claim of the held set for the group, in a round that takes claims,
from a usable peer, or from the own station in MEMBER, of a role that the group admits. -/
theorem Station.claimantFor_iff (s : Station) (g : Group) (k : StationNo) :
    s.claimantFor g = some k ↔
      (∃ c, s.bus.held.claim = some c ∧ c.group = g ∧ c.station = k) ∧ s.takesClaims = true
        ∧ (k ≠ s.number → s.usable k = true) ∧ (k = s.number → s.member.state = .member)
        ∧ admits g (s.roleOf k) = true := by
  unfold Station.claimantFor
  cases s.bus.held.claim with
  | none => simp only [reduceCtorEq, false_and, exists_false]
  | some c =>
    have fit : (if c.station = s.number then decide (s.member.state = .member) else s.usable c.station) = true ↔
        (c.station ≠ s.number → s.usable c.station = true) ∧ (c.station = s.number → s.member.state = .member) := by
      by_cases h : c.station = s.number
      · simp only [h, if_true, decide_eq_true_eq, ne_eq, not_true_eq_false, false_implies, true_and, forall_const]
      · simp only [h, if_false, ne_eq, not_false_eq_true, forall_const, false_implies, and_true]
    simp only [Option.ite_none_right_eq_some, Option.some.injEq, Bool.and_eq_true, decide_eq_true_eq, fit]
    constructor
    · rintro ⟨⟨⟨⟨h1, hg⟩, h2, h3⟩, h4⟩, rfl⟩
      exact ⟨⟨c, rfl, hg, rfl⟩, h1, h2, h3, h4⟩
    · rintro ⟨⟨d, rfl, hg, rfl⟩, h1, h2, h3, h4⟩
      exact ⟨⟨⟨⟨h1, hg⟩, h2, h3⟩, h4⟩, rfl⟩

/-- A response that a handover reads (R148): that of the applied record, from a sender that is not disregarded. -/
theorem Station.responsesFor_get (s : Station) (g : Group) (applied : Option DecisionRecord) (k : StationNo) :
    (s.responsesFor g applied).get k =
      match applied with
      | some r => if s.isSender k then ((r.responses.get k).map (pairResponse g)).getD .none else .none
      | none => .none := by
  unfold Station.responsesFor
  refine (Eight.get_ofFn _ k).trans ?_
  cases applied <;> rfl

/-- The losses of a transaction that loses no party leave it (R153, R154). -/
theorem GroupWork.dealLosses_none {w : GroupWork} {inp : GroupInputs} {t : Transaction}
    (ht : w.record.transaction = some t) (hc : inp.lost t.claimant = false)
    (hh : ∀ h ∈ w.record.holders, inp.lost h.station = false) : w.dealLosses inp = w := by
  have none : w.removeLost inp w.record.holders = w := by
    have e : w.record.holders.filter (fun x => !inp.lost x.station) = w.record.holders :=
      List.filter_eq_self.mpr fun a ha => by simp [hh a ha]
    unfold GroupWork.removeLost
    simp only [e, if_true]
  have any : (w.record.holders.any fun h => inp.lost h.station) = false :=
    List.any_eq_false.mpr fun h hmem => by simp [hh h hmem]
  unfold GroupWork.dealLosses
  rw [ht]
  simp only [hc, any, none, Bool.false_eq_true, if_false]
  cases t.stage <;> rfl

/-- The removal of holders that are all in place changes nothing but the holders given (R153). -/
theorem GroupWork.removeLost_none (w : GroupWork) (inp : GroupInputs) (holders : List Holder)
    (h : ∀ x ∈ holders, inp.lost x.station = false) :
    w.removeLost inp holders = { w with record := { w.record with holders := holders } } := by
  have e : holders.filter (fun x => !inp.lost x.station) = holders :=
    List.filter_eq_self.mpr fun a ha => by simp [h a ha]
  unfold GroupWork.removeLost
  simp only [e, if_true]

/-- The removal with a lost holder: the last one left takes the whole, and the loss age is 0 (R153). -/
theorem GroupWork.removeLost_some (w : GroupWork) (inp : GroupInputs) (holders : List Holder)
    (h : ∃ x ∈ holders, inp.lost x.station = true) :
    w.removeLost inp holders =
      { w with
        record :=
          { w.record with holders := soleShare (holders.filter fun x => !inp.lost x.station), lossAge := 0 } } := by
  have e : ¬(holders.filter fun x => !inp.lost x.station).length = holders.length := by
    rw [List.length_filter_eq_length_iff]
    intro hall
    obtain ⟨x, hx, hl⟩ := h
    simpa [hl] using hall x hx
  unfold GroupWork.removeLost
  simp only [e, if_false]

end Machine

end Sys2Proof
end

