-- ==== Sys2Proof/Laws/Conditions.lean ====
section
/-! SUPPORT. What the operations of the Condition Unit do and leave alone (R172 to R178): one lemma for each operation, which
proofs cite in place of unfolding it. -/

namespace Sys2Proof.Machine

/-! ## The parts that entering and removing leave alone -/

/-- Displacing changes the displaced conditions alone. -/
theorem displace_frame (c : ConditionUnit) (e : CondEntry) :
    displace c e = { c with displaced := (displace c e).displaced } := by
  unfold displace; split <;> rfl

/-- Entering a key changes the table and the displaced conditions alone. -/
theorem enterCond_frame (c : ConditionUnit) (e : CondEntry) :
    enterCond c e = { c with table := (enterCond c e).table, displaced := (enterCond c e).displaced } := by
  unfold enterCond displace
  repeat' split
  all_goals rfl

/-- The queue is untouched by a key that is entered. -/
@[simp] theorem enterCond_queue (c : ConditionUnit) (e : CondEntry) : (enterCond c e).queue = c.queue := by
  rw [enterCond_frame]

/-- Entering many keys leaves what entering one leaves. -/
theorem foldl_enterCond_frame (l : List CondEntry) (c : ConditionUnit) :
    l.foldl enterCond c =
      { c with table := (l.foldl enterCond c).table, displaced := (l.foldl enterCond c).displaced } := by
  induction l generalizing c with
  | nil => rfl
  | cons e rest ih => rw [List.foldl_cons, ih, enterCond_frame]

/-- Offering the displaced conditions changes the table and the displaced conditions alone (R174). -/
theorem reofferDisplaced_frame (c : ConditionUnit) :
    reofferDisplaced c =
      { c with table := (reofferDisplaced c).table, displaced := (reofferDisplaced c).displaced } := by
  unfold reofferDisplaced
  rw [foldl_enterCond_frame]

/-- A removal changes the table and the displaced conditions alone: the queue is not touched (R177). -/
theorem removeCond_frame (c : ConditionUnit) (k : CondKey) :
    removeCond c k = { c with table := (removeCond c k).table, displaced := (removeCond c k).displaced } := by
  unfold removeCond
  split
  · rw [reofferDisplaced_frame]
  · rfl

/-- Expiry changes the table and the displaced conditions alone (R177). -/
theorem expireConds_frame (c : ConditionUnit) :
    expireConds c = { c with table := (expireConds c).table, displaced := (expireConds c).displaced } := by
  unfold expireConds
  split
  · rw [reofferDisplaced_frame]
  · rfl

/-! ## The queue (R177, R178) -/

/-- A raise offered to the queue leaves the table and the displaced conditions. -/
theorem offerQueue_frame (c : ConditionUnit) (k : CondKey) :
    offerQueue c k =
      { c with queue := (offerQueue c k).queue, overflow := (offerQueue c k).overflow,
               dropped := (offerQueue c k).dropped } := by
  unfold offerQueue
  repeat' split
  all_goals rfl

/-- What the queue becomes depends on the queue alone. -/
theorem offerQueue_queue_congr {c d : ConditionUnit} (h : c.queue = d.queue) (k : CondKey) :
    (offerQueue c k).queue = (offerQueue d k).queue := by
  unfold offerQueue
  rw [h]
  split
  · rfl
  · split <;> rfl

/-- Every raise of an event is offered to the queue once, entered or not (R172 to R174, R177). -/
theorem raiseEvent_queue (c : ConditionUnit) (k : CondKey) (level : Nat) :
    (raiseEvent c k level).queue = (offerQueue c k).queue := by
  unfold raiseEvent
  refine offerQueue_queue_congr ?_ k
  split
  · rfl
  · exact enterCond_queue c _

/-- An offered raise keeps the queue sound. -/
theorem offerQueue_queueSound {c : ConditionUnit} (h : c.queueSound) (k : CondKey) : (offerQueue c k).queueSound := by
  obtain ⟨hlen, hkeys, hcount⟩ := h
  unfold offerQueue ConditionUnit.queueSound
  split
  · refine ⟨?_, ?_, ?_⟩
    · simpa only [List.length_map] using hlen
    · have : (c.queue.map fun r => if r.key = k then { r with count := succSat Config.queueCountMax r.count } else r).map
          (·.key) = c.queue.map (·.key) := by
        rw [List.map_map]
        refine List.map_congr_left fun r _ => ?_
        simp only [Function.comp_apply]
        split <;> rfl
      rw [this]; exact hkeys
    · intro r hr
      obtain ⟨r', hr', rfl⟩ := List.mem_map.mp hr
      have hc := hcount r' hr'
      split
      · simp only [succSat, Config.queueCountMax]
        omega
      · exact hc
  · split
    · next hnot hroom =>
      refine ⟨?_, ?_, ?_⟩
      · simp only [List.length_append, List.length_singleton]; omega
      · rw [List.map_append]
        refine List.nodup_append.mpr ⟨hkeys, by simp, ?_⟩
        intro a ha b hb hab
        simp only [List.map_cons, List.map_nil, List.mem_singleton] at hb
        subst hb
        subst hab
        obtain ⟨r, hr, hrk⟩ := List.mem_map.mp ha
        exact hnot (List.any_eq_true.mpr ⟨r, hr, decide_eq_true hrk⟩)
      · intro r hr
        rcases List.mem_append.mp hr with hr | hr
        · exact hcount r hr
        · rw [List.mem_singleton] at hr; subst hr; simp [Config.queueCountMax]
    · exact ⟨hlen, hkeys, hcount⟩

/-- What a clean frame told keeps the queue sound (R178). -/
theorem reportTold_queueSound {c : ConditionUnit} (h : c.queueSound) (sent : Nat) (overflowSent : Bool) :
    (reportTold c sent overflowSent).queueSound := by
  obtain ⟨hlen, hkeys, hcount⟩ := h
  unfold reportTold ConditionUnit.queueSound
  simp only
  split
  · exact ⟨hlen, hkeys, hcount⟩
  · unfold tellHead
    revert hlen hkeys hcount
    cases c.queue with
    | nil => intro hlen hkeys hcount; exact ⟨hlen, hkeys, hcount⟩
    | cons r rest =>
      intro hlen hkeys hcount
      simp only
      split
      · refine ⟨?_, ?_, fun x hx => hcount x (List.mem_cons_of_mem _ hx)⟩
        · simp only [List.length_cons] at hlen; omega
        · rw [List.map_cons] at hkeys; exact (List.nodup_cons.mp hkeys).2
      · next hgt =>
        refine ⟨by simpa only [List.length_cons] using hlen, by simpa only [List.map_cons] using hkeys, ?_⟩
        intro x hx
        rcases List.mem_cons.mp hx with rfl | hx
        · have := hcount r (List.mem_cons_self)
          simp only
          omega
        · exact hcount x (List.mem_cons_of_mem _ hx)

/-! ## What is held (R171, R174, R175) -/

/-- A key has an entry exactly where some entry has it. -/
theorem hasKey_iff {l : List CondEntry} {k : CondKey} : hasKey l k = true ↔ ∃ e ∈ l, e.key = k := by
  simp only [hasKey, List.any_eq_true, decide_eq_true_eq]

/-- Dropping one key keeps the entries of the others. -/
theorem hasKey_dropKey {l : List CondEntry} {k key : CondKey} :
    hasKey (dropKey l k) key = true ↔ hasKey l key = true ∧ key ≠ k := by
  simp only [hasKey_iff, dropKey, List.mem_filter, Bool.not_eq_true', decide_eq_false_iff_not]
  constructor
  · rintro ⟨e, ⟨hm, hk⟩, rfl⟩; exact ⟨⟨e, hm, rfl⟩, hk⟩
  · rintro ⟨⟨e, hm, rfl⟩, hk⟩; exact ⟨e, ⟨hm, hk⟩, rfl⟩

/-- Keys of entries joined. -/
theorem hasKey_append {l m : List CondEntry} {k : CondKey} :
    hasKey (l ++ m) k = true ↔ hasKey l k = true ∨ hasKey m k = true := by
  simp only [hasKey, List.any_append, Bool.or_eq_true]

/-- A held key is in the table or displaced. -/
theorem isHeld_iff {c : ConditionUnit} {k : CondKey} :
    isHeld c k = true ↔ hasKey c.table k = true ∨ hasKey c.displaced k = true := by
  simp only [isHeld, Bool.or_eq_true]

/-- The weakest entry is one of them. -/
theorem weakest_mem {l : List CondEntry} {w : CondEntry} (h : weakest l = some w) : w ∈ l := by
  induction l generalizing w with
  | nil => simp [weakest] at h
  | cons e rest ih =>
    unfold weakest at h
    split at h
    · cases h; exact List.mem_cons_self
    · next v hv =>
      split at h
      · cases h; exact List.mem_cons_of_mem _ (ih hv)
      · cases h; exact List.mem_cons_self

/-- Entering a key loses no state condition, and adds none but its own (R174). -/
theorem isHeld_enterCond (c : ConditionUnit) (e : CondEntry) {k : CondKey} (hk : condIsEvent k.code = false) :
    isHeld (enterCond c e) k = true ↔ isHeld c k = true ∨ e.key = k := by
  have single : ∀ f : CondEntry, hasKey [f] k = true ↔ f.key = k := fun f => by simp [hasKey]
  have displaced : ∀ (d : ConditionUnit) (f : CondEntry),
      isHeld (displace d f) k = true ↔ isHeld d k = true ∨ f.key = k := by
    intro d f
    unfold displace
    split
    · next hf =>
      refine ⟨Or.inl, fun h => h.elim id fun hkey => ?_⟩
      subst hkey; rw [hk] at hf; cases hf
    · simp only [isHeld_iff, hasKey_append, single, or_assoc]
  unfold enterCond
  split
  · simp only [isHeld_iff, hasKey_append, single]; exact or_right_comm
  · split
    · exact displaced c e
    · next w hw =>
      split
      · rw [displaced]
        have mem : w.key = k → hasKey c.table k = true := fun h => hasKey_iff.mpr ⟨w, weakest_mem hw, h⟩
        simp only [isHeld_iff, hasKey_append, single, hasKey_dropKey]
        constructor
        · rintro (((⟨h, -⟩ | h) | h) | h)
          · exact .inl (.inl h)
          · exact .inr h
          · exact .inl (.inr h)
          · exact .inl (.inl (mem h))
        · rintro ((h | h) | h)
          · by_cases hne : k = w.key
            · exact .inr hne.symm
            · exact .inl (.inl (.inl ⟨h, hne⟩))
          · exact .inl (.inr h)
          · exact .inl (.inl (.inr h))
      · exact displaced c e

/-- Entering many keys holds those that were held and those entered. -/
theorem isHeld_foldl_enterCond (l : List CondEntry) {k : CondKey} (hk : condIsEvent k.code = false) :
    ∀ c : ConditionUnit, isHeld (l.foldl enterCond c) k = true ↔ isHeld c k = true ∨ hasKey l k = true := by
  induction l with
  | nil => intro c; simp [hasKey]
  | cons e rest ih =>
    intro c
    rw [List.foldl_cons, ih, isHeld_enterCond c e hk, or_assoc]
    simp only [hasKey, List.any_cons, Bool.or_eq_true, decide_eq_true_eq]

/-- The order of offering holds the same entries. -/
theorem offerOrder_perm (l : List CondEntry) : (offerOrder l).Perm l := by
  have insert : ∀ (e : CondEntry) (m : List CondEntry), (insertOffered e m).Perm (e :: m) := by
    intro e m
    induction m with
    | nil => exact .refl _
    | cons f rest ih =>
      unfold insertOffered
      split
      · exact .refl _
      · exact (List.Perm.cons f ih).trans (.swap e f rest)
  induction l with
  | nil => exact .refl _
  | cons e rest ih => exact (insert e _).trans (ih.cons e)

/-- Offering the displaced conditions ends no hold and begins none (R174). -/
theorem isHeld_reofferDisplaced (c : ConditionUnit) {k : CondKey} (hk : condIsEvent k.code = false) :
    isHeld (reofferDisplaced c) k = isHeld c k := by
  rw [Bool.eq_iff_iff]
  unfold reofferDisplaced
  rw [isHeld_foldl_enterCond _ hk, isHeld_iff, isHeld_iff]
  have : hasKey (offerOrder c.displaced) k = true ↔ hasKey c.displaced k = true := by
    simp only [hasKey_iff, (offerOrder_perm c.displaced).mem_iff]
  rw [this, show hasKey ([] : List CondEntry) k = false from rfl]
  simp only [Bool.false_eq_true, or_false]

/-- A removal ends the hold of its key alone, where no key is both entered and displaced (R171, R175). -/
theorem isHeld_removeCond {c : ConditionUnit} {k key : CondKey} (hk : condIsEvent key.code = false)
    (once : hasKey c.table k = true → hasKey c.displaced k = false) :
    isHeld (removeCond c k) key = true ↔ isHeld c key = true ∧ key ≠ k := by
  unfold removeCond
  split
  · next h =>
    rw [isHeld_reofferDisplaced _ hk, isHeld_iff, isHeld_iff, hasKey_dropKey]
    constructor
    · rintro (⟨h1, h2⟩ | h1)
      · exact ⟨.inl h1, h2⟩
      · refine ⟨.inr h1, ?_⟩
        rintro rfl
        rw [once h] at h1; cases h1
    · rintro ⟨h1 | h1, h2⟩
      · exact .inl ⟨h1, h2⟩
      · exact .inr h1
  · next h =>
    rw [isHeld_iff, isHeld_iff, hasKey_dropKey]
    constructor
    · rintro (h1 | ⟨h1, h2⟩)
      · exact ⟨.inl h1, fun e => h (e ▸ h1)⟩
      · exact ⟨.inr h1, h2⟩
    · rintro ⟨h1 | h1, h2⟩
      · exact .inl h1
      · exact .inr ⟨h1, h2⟩

/-- A hold begins the hold of its key alone (R171, R173). -/
theorem isHeld_holdCond (c : ConditionUnit) (k : CondKey) (level : Nat) {key : CondKey}
    (hk : condIsEvent key.code = false) :
    isHeld (holdCond c k level) key = true ↔ isHeld c key = true ∨ k = key := by
  unfold holdCond
  split
  · next h => exact ⟨Or.inl, fun g => g.elim id fun e => e ▸ h⟩
  · rw [offerQueue_frame]
    exact isHeld_enterCond c _ hk

/-- A raise of an event ends no hold and begins none (R172 to R174). -/
theorem isHeld_raiseEvent (c : ConditionUnit) {k : CondKey} (hevent : condIsEvent k.code = true) (level : Nat)
    {key : CondKey} (hk : condIsEvent key.code = false) : isHeld (raiseEvent c k level) key = isHeld c key := by
  rw [Bool.eq_iff_iff]
  unfold raiseEvent
  rw [offerQueue_frame]
  simp only
  split
  · rw [isHeld_iff, isHeld_iff]
    have : hasKey (c.table.map fun e => if e.key = k then { e with expiry := some Config.expiryRounds } else e) key
        = hasKey c.table key := by
      unfold hasKey
      rw [List.any_map]
      congr 1
      funext e
      simp only [Function.comp_apply]
      split <;> rfl
    simp only [this]
  · have := isHeld_enterCond c (newEntry c k level) hk
    refine Iff.trans this ⟨fun h => h.elim id fun e => ?_, Or.inl⟩
    have e : k = key := e
    subst e; rw [hevent] at hk; cases hk

/-! ## No key in two places (R172, R174) -/

/-- No key stands twice in the table and the displaced conditions, and none of them among some more entries. -/
def keysOnce (c : ConditionUnit) (more : List CondEntry) : Prop :=
  ((c.table ++ c.displaced ++ more).map (·.key)).Nodup

/-- Keys stay single in a part of a list. -/
theorem keys_nodup_of_subperm {l m : List CondEntry} (h : List.Subperm l m) (hm : (m.map (·.key)).Nodup) :
    (l.map (·.key)).Nodup := by
  obtain ⟨l', hp, hs⟩ := h
  exact (hp.map _).nodup_iff.mp (hm.sublist (hs.map _))

/-- An entry with the entries of other keys is part of the list. -/
theorem dropKey_subperm {l : List CondEntry} {w : CondEntry} (h : w ∈ l) : List.Subperm (dropKey l w.key ++ [w]) l := by
  refine List.Subperm.trans ?_ (List.filter_append_perm (fun e => !decide (e.key = w.key)) l).subperm
  refine List.Sublist.subperm (List.Sublist.append (.refl _) (List.singleton_sublist.mpr ?_))
  simp [List.mem_filter, h]

/-- A key that is entered stands once, as every other does. -/
theorem keysOnce_enterCond {c : ConditionUnit} {e : CondEntry} {more : List CondEntry} (h : keysOnce c (e :: more)) :
    keysOnce (enterCond c e) more := by
  have lost : List.Subperm (c.table ++ c.displaced ++ more) (c.table ++ c.displaced ++ e :: more) :=
    ((List.sublist_cons_self e more).append_left _).subperm
  have moved : ∀ l m : List CondEntry, (l ++ [e] ++ m ++ more).Perm (l ++ m ++ e :: more) := by
    intro l m
    simp only [List.append_assoc, List.singleton_append]
    exact List.Perm.append_left _ List.perm_middle.symm
  have turned : keysOnce (displace c e) more := by
    unfold displace
    split
    · exact keys_nodup_of_subperm lost h
    · refine keys_nodup_of_subperm (List.Perm.subperm ?_) h
      simp only [List.append_assoc, List.singleton_append]
      exact .refl _
  unfold enterCond
  split
  · exact keys_nodup_of_subperm (moved _ _).subperm h
  · split
    · exact turned
    · next w hw =>
      split
      · unfold displace
        have part := dropKey_subperm (weakest_mem hw)
        split
        · refine keys_nodup_of_subperm ((moved _ _).subperm.trans ?_) h
          refine (List.subperm_append_right _).mpr ((List.subperm_append_right _).mpr ?_)
          exact ((List.sublist_append_left _ _).subperm).trans part
        · refine keys_nodup_of_subperm (List.Subperm.trans (List.Perm.subperm (l₂ :=
            (dropKey c.table w.key ++ [w]) ++ c.displaced ++ e :: more) ?_) ?_) h
          · refine (moved _ _).trans (List.Perm.append_right _ ?_)
            simp only [List.append_assoc, List.singleton_append]
            refine List.Perm.append_left _ ?_
            exact List.perm_append_singleton w c.displaced
          · exact (List.subperm_append_right _).mpr ((List.subperm_append_right _).mpr part)
      · exact turned

/-- Offering the displaced conditions keeps every key in one place. -/
theorem keysOnce_reofferDisplaced {c : ConditionUnit} (h : keysOnce c []) : keysOnce (reofferDisplaced c) [] := by
  have fold : ∀ (l : List CondEntry) (d : ConditionUnit), keysOnce d l → keysOnce (l.foldl enterCond d) [] := by
    intro l
    induction l with
    | nil => exact fun _ hd => hd
    | cons e rest ih => exact fun d hd => ih _ (keysOnce_enterCond hd)
  refine fold _ _ ?_
  refine ((List.Perm.map _ ?_).nodup_iff).mp h
  simp only [List.append_nil]
  exact List.Perm.append_left _ (offerOrder_perm c.displaced).symm

/-- A removal keeps every key in one place. -/
theorem keysOnce_removeCond {c : ConditionUnit} (h : keysOnce c []) (k : CondKey) : keysOnce (removeCond c k) [] := by
  have part : ∀ l : List CondEntry, (dropKey l k).Sublist l := fun l => List.filter_sublist
  unfold removeCond
  split
  · refine keysOnce_reofferDisplaced (keys_nodup_of_subperm (List.Sublist.subperm ?_) h)
    exact ((part _).append (.refl _)).append (.refl _)
  · exact keys_nodup_of_subperm (((List.Sublist.refl _).append (part _)).append (.refl _)).subperm h

/-- No key is both entered and displaced. -/
theorem keysOnce_apart {c : ConditionUnit} (h : keysOnce c []) (k : CondKey) :
    hasKey c.table k = true → hasKey c.displaced k = false := by
  intro entered
  rw [Bool.eq_false_iff]
  intro displaced
  rw [hasKey_iff] at entered displaced
  obtain ⟨e, he, rfl⟩ := entered
  obtain ⟨d, hd, hkey⟩ := displaced
  unfold keysOnce at h
  rw [List.append_nil, List.map_append, List.nodup_append] at h
  exact h.2.2 _ (List.mem_map_of_mem he) _ (List.mem_map_of_mem hd) hkey.symm

/-- Removals end the holds of their keys alone (R171, R175). -/
theorem isHeld_foldl_removeCond (keys : List CondKey) {key : CondKey} (hk : condIsEvent key.code = false) :
    ∀ c : ConditionUnit, keysOnce c [] →
      (isHeld (keys.foldl removeCond c) key = true ↔ isHeld c key = true ∧ key ∉ keys) := by
  induction keys with
  | nil => intro c _; simp only [List.foldl_nil, List.not_mem_nil, not_false_eq_true, and_true]
  | cons k rest ih =>
    intro c h
    rw [List.foldl_cons, ih _ (keysOnce_removeCond h k), isHeld_removeCond hk (keysOnce_apart h k)]
    simp only [List.mem_cons, not_or, and_assoc]

/-- A hold keeps every key in one place. -/
theorem keysOnce_holdCond {c : ConditionUnit} (h : keysOnce c []) (k : CondKey) (level : Nat) :
    keysOnce (holdCond c k level) [] := by
  unfold holdCond
  split
  · exact h
  · next hnot =>
    rw [offerQueue_frame]
    refine keysOnce_enterCond (c := c) (e := newEntry c k level) (more := []) ?_
    unfold keysOnce at h ⊢
    rw [List.append_nil] at h
    rw [List.map_append, List.nodup_append]
    refine ⟨h, by simp, ?_⟩
    intro a ha b hb hab
    simp only [List.map_cons, List.map_nil, List.mem_singleton] at hb
    subst hb; subst hab
    obtain ⟨d, hd, hdk⟩ := List.mem_map.mp ha
    refine hnot (isHeld_iff.mpr ?_)
    rcases List.mem_append.mp hd with hd | hd
    · exact .inl (hasKey_iff.mpr ⟨d, hd, hdk⟩)
    · exact .inr (hasKey_iff.mpr ⟨d, hd, hdk⟩)

/-- A state condition that follows its cause is held as the cause stands, every other state condition as before (R171). -/
theorem isHeld_setCond {c : ConditionUnit} (h : keysOnce c []) (cause : Bool) {k key : CondKey} (level : Nat)
    (hk : condIsEvent key.code = false) :
    isHeld (setCond c cause k level) key = if key = k then cause else isHeld c key := by
  rw [Bool.eq_iff_iff]
  unfold setCond
  cases cause with
  | true =>
    rw [if_pos rfl, isHeld_holdCond c k level hk]
    by_cases e : key = k
    · subst e; simp only [or_true, if_true]
    · simp only [e, Ne.symm e, or_false, if_false]
  | false =>
    rw [if_neg (by decide), isHeld_removeCond hk (keysOnce_apart h k)]
    by_cases e : key = k
    · simp only [e, not_true_eq_false, ne_eq, and_false, if_true, Bool.false_eq_true]
    · simp only [e, ne_eq, not_false_eq_true, and_true, if_false]

/-- Following a cause keeps every key in one place. -/
theorem keysOnce_setCond {c : ConditionUnit} (h : keysOnce c []) (cause : Bool) (k : CondKey) (level : Nat) :
    keysOnce (setCond c cause k level) [] := by
  unfold setCond
  cases cause with
  | true => exact keysOnce_holdCond h k level
  | false => exact keysOnce_removeCond h k

/-- A raise of an event keeps every key in one place, the displaced ones being state conditions. -/
theorem keysOnce_raiseEvent {c : ConditionUnit} (h : keysOnce c []) {k : CondKey} (hk : condIsEvent k.code = true)
    (states : ∀ d ∈ c.displaced, condIsEvent d.key.code = false) (level : Nat) :
    keysOnce (raiseEvent c k level) [] := by
  unfold raiseEvent
  rw [offerQueue_frame]
  simp only
  split
  · have same : (c.table.map fun e => if e.key = k then { e with expiry := some Config.expiryRounds } else e).map (·.key)
        = c.table.map (·.key) := by
      rw [List.map_map]
      refine List.map_congr_left fun e _ => ?_
      simp only [Function.comp_apply]
      split <;> rfl
    unfold keysOnce at h ⊢
    simpa only [List.map_append, same] using h
  · next hnot =>
    refine keysOnce_enterCond (c := c) (e := newEntry c k level) (more := []) ?_
    unfold keysOnce at h ⊢
    rw [List.append_nil] at h
    rw [List.map_append, List.nodup_append]
    refine ⟨h, by simp, ?_⟩
    intro a ha b hb hab
    simp only [List.map_cons, List.map_nil, List.mem_singleton] at hb
    subst hb; subst hab
    obtain ⟨d, hd, hdk⟩ := List.mem_map.mp ha
    rcases List.mem_append.mp hd with hd | hd
    · exact hnot (hasKey_iff.mpr ⟨d, hd, hdk⟩)
    · have := states d hd
      rw [hdk] at this
      exact Bool.noConfusion (hk.symm.trans this)

/-! ## At the station -/

/-- A raise repeated keeps what one raise keeps. -/
theorem Station.raiseTimes_keeps (p : ConditionUnit → Prop) (code : CondCode) (source : Nat)
    (h : ∀ s : Station, p s.cond → p (s.raise code source).cond) (n : Nat) :
    ∀ s : Station, p s.cond → p (s.raiseTimes code source n).cond := by
  induction n with
  | zero => exact fun s hs => hs
  | succ n ih => exact fun s hs => ih _ (h s hs)

/-! ## The conditions that an entry to LISTEN removes (R68, R89, R134, R136, R143, R157, R158, R171) -/

/-- The state conditions of a peer's record. -/
def recordKeys (k : StationNo) : List CondKey := [⟨.roleMismatch, k.val⟩, ⟨.configDiffers, k.val⟩]

/-- The state conditions that an authority table at rest does not hold. -/
def authorityKeys : List CondKey :=
  [⟨.tiltSole, 0⟩, ⟨.tiltVacant, 0⟩, ⟨.steerVacant, 0⟩, ⟨.authGiveup, 0⟩, ⟨.authGiveup, 1⟩]

/-- The state conditions of the engine. -/
def engineKeys : List CondKey := (List.range 9).map (⟨.demandLost, ·⟩) ++ [⟨.splitView, 0⟩]

/-- A state condition whose cause has ended is removed. -/
theorem Station.setHeld_false_cond (s : Station) (code : CondCode) (source : Nat) :
    (s.setHeld false code source).cond = removeCond s.cond ⟨code, source⟩ := rfl

/-- Operations that each remove some keys remove them in turn. -/
theorem foldl_cond {α : Type} (f : Station → α → Station) (keys : α → List CondKey)
    (h : ∀ s a, (f s a).cond = (keys a).foldl removeCond s.cond) (l : List α) :
    ∀ s : Station, (l.foldl f s).cond = (l.flatMap keys).foldl removeCond s.cond := by
  induction l with
  | nil => exact fun _ => rfl
  | cons a rest ih =>
    intro s
    rw [List.foldl_cons, ih, h, List.flatMap_cons, List.foldl_append]

/-- The authority table at rest removes its conditions. -/
theorem Station.restAuthority_cond (s : Station) : s.restAuthority.cond = authorityKeys.foldl removeCond s.cond := by
  unfold Station.restAuthority authorityKeys
  simp only [Station.setHeld_false_cond, List.foldl_cons, List.foldl_nil]

/-- The cleared engine removes its conditions. -/
theorem Station.clearEngine_cond (s : Station) : s.clearEngine.cond = engineKeys.foldl removeCond s.cond := by
  unfold Station.clearEngine Station.removeDemandLost engineKeys
  simp only [Station.setHeld_false_cond, List.foldl_append, List.foldl_cons, List.foldl_nil]
  rw [foldl_cond (fun s source => s.setHeld false .demandLost source) (fun source => [⟨.demandLost, source⟩])
    (fun _ _ => rfl), ← List.map_eq_flatMap]

/-- The cleared peer table removes the conditions of every record. -/
theorem Station.clearPeers_cond (s : Station) :
    s.clearPeers.cond = (allStations.flatMap recordKeys).foldl removeCond s.cond := by
  unfold Station.clearPeers
  rw [foldl_cond Station.removeRecordConds recordKeys (fun _ _ => rfl)]

/-- What an entry to LISTEN removes. -/
def listenKeys : List CondKey :=
  allStations.flatMap recordKeys ++ engineKeys ++ authorityKeys ++ [⟨.configDiffers, 8⟩]

/-- An entry to LISTEN removes the conditions of what it clears, one by one. -/
theorem Station.enterListen_cond (s : Station) :
    s.enterListen.cond =
      { listenKeys.foldl removeCond s.cond with proposal := none, speedMode := .park } := by
  unfold Station.enterListen listenKeys
  simp only [Station.setHeld_false_cond, Station.restAuthority_cond, Station.clearEngine_cond,
    Station.clearMeasurement_cond, Station.clearPeers_cond, List.foldl_append, List.foldl_cons, List.foldl_nil]

/-- After an entry to LISTEN the state conditions held are those held before, without what the entry removes. -/
theorem Station.isHeld_enterListen {s : Station} (h : keysOnce s.cond []) {key : CondKey}
    (hk : condIsEvent key.code = false) :
    isHeld s.enterListen.cond key = true ↔ isHeld s.cond key = true ∧ key ∉ listenKeys := by
  have held := isHeld_foldl_removeCond listenKeys hk s.cond h
  rw [Station.enterListen_cond]
  generalize listenKeys.foldl removeCond s.cond = c at held ⊢
  exact held

end Sys2Proof.Machine
end

