-- ==== Sys2Proof/Laws/Formats.lean ====
section
/-! SUPPORT. Fields laid end to end (Table 14-2): what a field of a packed string reads, bit by bit and as a number, and the report
frame as one packed string. One step of the two registers (R48, R54), stage by stage. -/

namespace Sys2Proof.Machine

/-! ## Packed fields -/

/-- The bits that some fields take together. -/
def widthOf (fields : List (Nat × Nat)) : Nat := (fields.map (·.1)).sum

/-- The widths of two lists add up. -/
theorem widthOf_append (a b : List (Nat × Nat)) : widthOf (a ++ b) = widthOf a + widthOf b := by
  simp only [widthOf, List.map_append, List.sum_append]

/-- Fields after other fields. -/
theorem packFields_append (a b : List (Nat × Nat)) :
    packFields (a ++ b) = packFields a * 2 ^ widthOf b + packFields b := by
  have h : ∀ (b : List (Nat × Nat)) (n : Nat),
      b.foldl (fun acc f => acc * 2 ^ f.1 + f.2 % 2 ^ f.1) n = n * 2 ^ widthOf b + packFields b := by
    intro b
    induction b with
    | nil => intro n; simp [packFields, widthOf]
    | cons f rest ih =>
      intro n
      have hw : widthOf (f :: rest) = f.1 + widthOf rest := by simp [widthOf]
      have hp : packFields (f :: rest) = f.2 % 2 ^ f.1 * 2 ^ widthOf rest + packFields rest := by
        rw [← ih]
        simp [packFields]
      rw [List.foldl_cons, ih, hp, hw]
      ring
  have ha : packFields (a ++ b) = b.foldl (fun acc f => acc * 2 ^ f.1 + f.2 % 2 ^ f.1) (packFields a) := by
    simp only [packFields, List.foldl_append]
  rw [ha, h]

/-- Packed fields fit their widths. -/
theorem packFields_lt (l : List (Nat × Nat)) : packFields l < 2 ^ widthOf l := by
  induction l using List.reverseRecOn with
  | nil => simp [packFields, widthOf]
  | append_singleton l f ih =>
    have hw : widthOf (l ++ [f]) = widthOf l + f.1 := by simp [widthOf]
    have h1 : packFields [f] = f.2 % 2 ^ f.1 := by simp [packFields]
    have hl : f.2 % 2 ^ f.1 < 2 ^ f.1 := Nat.mod_lt _ (by positivity)
    have hf : widthOf [f] = f.1 := by simp [widthOf]
    rw [packFields_append, h1, hw, hf, pow_add]
    calc packFields l * 2 ^ f.1 + f.2 % 2 ^ f.1 < packFields l * 2 ^ f.1 + 2 ^ f.1 := by omega
      _ = (packFields l + 1) * 2 ^ f.1 := by ring
      _ ≤ 2 ^ widthOf l * 2 ^ f.1 := Nat.mul_le_mul_right _ ih

/-- A field of a packed string reads the value put into it, cut to its width. -/
theorem fieldOf_packFields (before after : List (Nat × Nat)) (w v : Nat) :
    fieldOf (widthOf (before ++ (w, v) :: after)) (packFields (before ++ (w, v) :: after)) (widthOf before) w = v % 2 ^ w := by
  have hw : widthOf (before ++ (w, v) :: after) = widthOf before + w + widthOf after := by
    simp [widthOf, Nat.add_assoc]
  have hp : packFields (before ++ (w, v) :: after) =
      (packFields before * 2 ^ w + v % 2 ^ w) * 2 ^ widthOf after + packFields after := by
    rw [show before ++ (w, v) :: after = (before ++ [(w, v)]) ++ after by simp, packFields_append, packFields_append]
    simp [widthOf, packFields]
  rw [fieldOf, hw, hp, Nat.shiftRight_eq_div_pow,
    show widthOf before + w + widthOf after - widthOf before - w = widthOf after by omega]
  rw [Nat.add_comm, Nat.add_mul_div_right _ _ (by positivity), Nat.div_eq_of_lt (packFields_lt after), Nat.zero_add]
  rw [Nat.add_comm, Nat.add_mul_mod_self_right, Nat.mod_mod]

/-- A bit of a field is a bit of the string. -/
theorem testBit_fieldOf (n : Nat) (x : BitVec n) (first w i : Nat) (hi : i < w) (hn : first + w ≤ n) :
    (fieldOf n x.toNat first w).testBit (w - 1 - i) = x.getMsbD (first + i) := by
  have h1 : w - 1 - i < w := by omega
  have h2 : first + i < n := by omega
  have h3 : n - first - w + (w - 1 - i) = n - 1 - (first + i) := by omega
  rw [fieldOf, Nat.testBit_mod_two_pow, Nat.testBit_shiftRight, h3, BitVec.getMsbD, BitVec.getLsbD]
  simp [h1, h2]

/-! ## The report frame (Table 14-2) -/

/-- The fields of a report and its check, laid end to end. -/
def frameFields (r : Report) : List (Nat × Nat) :=
  reportFields r ++ [(16, (frameCheck (packFields (reportFields r))).toNat)]

/-- The fields of a report fill bits 0 to 230. -/
theorem widthOf_reportFields (r : Report) : widthOf (reportFields r) = 231 := by
  simp [widthOf, reportFields]

/-- The fields and the check fill the frame. -/
theorem widthOf_frameFields (r : Report) : widthOf (frameFields r) = 247 := by
  rw [frameFields, widthOf_append, widthOf_reportFields]
  rfl

/-- The frame is its fields and its check, laid end to end. -/
theorem encodeReport_toNat (r : Report) : (encodeReport r).toNat = packFields (frameFields r) := by
  have hw := widthOf_frameFields r
  have hp : packFields (frameFields r) =
      packFields (reportFields r) * 2 ^ 16 + (frameCheck (packFields (reportFields r))).toNat := by
    rw [frameFields]
    generalize frameCheck (packFields (reportFields r)) = c
    have hc : c.toNat % 2 ^ 16 = c.toNat := Nat.mod_eq_of_lt c.isLt
    have h1 : packFields [(16, c.toNat)] = c.toNat := by
      rw [packFields, List.foldl_cons, List.foldl_nil, hc, Nat.zero_mul, Nat.zero_add]
    rw [packFields_append, h1]
    rfl
  have hl := packFields_lt (frameFields r)
  rw [hw] at hl
  rw [encodeReport]
  simp only [BitVec.toNat_ofNat]
  rw [← hp, Nat.mod_eq_of_lt hl]

/-- A field of the frame reads its value, cut to its width. The two parts of the list of fields are found by reflexivity. -/
theorem fieldOf_encodeReport (r : Report) (before after : List (Nat × Nat)) (first w v : Nat)
    (h : frameFields r = before ++ (w, v) :: after) (hf : widthOf before = first) :
    fieldOf 247 (encodeReport r).toNat first w = v % 2 ^ w := by
  rw [encodeReport_toNat, ← widthOf_frameFields r, h, ← hf, fieldOf_packFields before after w v]

/-- Bits 0 to 230 of the frame. -/
theorem encodeReport_body (r : Report) : (encodeReport r).toNat >>> 16 = packFields (reportFields r) := by
  rw [encodeReport_toNat, frameFields, packFields_append, Nat.shiftRight_eq_div_pow]
  have h : widthOf [(16, (frameCheck (packFields (reportFields r))).toNat)] = 16 := rfl
  have hl := packFields_lt [(16, (frameCheck (packFields (reportFields r))).toNat)]
  rw [h] at hl
  rw [h, Nat.add_comm, Nat.add_mul_div_right _ _ (by positivity), Nat.div_eq_of_lt hl, Nat.zero_add]

/-- The check of a frame that was built holds (R48). -/
theorem checkHolds_encodeReport (r : Report) : checkHolds (encodeReport r) = true := by
  have h := fieldOf_encodeReport r (reportFields r) [] 231 16 _ rfl (widthOf_reportFields r)
  have hx : fieldOf 247 (encodeReport r).toNat 231 16 = (encodeReport r).toNat % 2 ^ 16 := by simp [fieldOf]
  have hc : (frameCheck (packFields (reportFields r))).toNat < 2 ^ 16 := BitVec.isLt _
  rw [hx, Nat.mod_eq_of_lt hc] at h
  rw [checkHolds, encodeReport_body, h, decide_eq_true_eq, BitVec.ofNat_toNat, BitVec.setWidth_eq]

/-! ## The registers (R48, R54) -/

/-- One bit more into the check register. -/
theorem checkOf_concat (bits : List Bool) (b : Bool) : checkOf (bits ++ [b]) = checkStep (checkOf bits) b := by
  simp [checkOf, List.foldl_append]

/-- One bit more into the signature register. -/
theorem absorb_concat (r : Word16) (bits : List Bool) (b : Bool) : absorb r (bits ++ [b]) = signatureStep (absorb r bits) b := by
  simp [absorb, List.foldl_append]

/-- The stages after one bit into the check register: a shift, with stages 0, 2 and 15 inverted on a feedback of 1 (R48). -/
theorem checkStep_stage (r : Word16) (b : Bool) (i : Nat) (hi : i < 16) :
    (checkStep r b).getLsbD i =
      ((decide (0 < i) && r.getLsbD (i - 1)) != ((b != r.getLsbD 15) && decide (i ∈ [0, 2, 15]))) := by
  unfold checkStep
  rcases b with _ | _ <;> rcases h : r.getLsbD 15 with _ | _ <;> interval_cases i <;> simp

/-- The stages after one bit into the signature register: a shift, with stages 0, 11, 13 and 14 inverted on a feedback of 1
(R54). -/
theorem signatureStep_stage (r : Word16) (b : Bool) (i : Nat) (hi : i < 16) :
    (signatureStep r b).getLsbD i =
      ((decide (0 < i) && r.getLsbD (i - 1)) != ((b != r.getLsbD 15) && decide (i ∈ [0, 11, 13, 14]))) := by
  unfold signatureStep
  rcases b with _ | _ <;> rcases h : r.getLsbD 15 with _ | _ <;> interval_cases i <;> simp

/-- The check over bytes is the check over their bits, the most significant of each byte first (R48, R189). -/
theorem checkBytes_eq_checkOf (bytes : List Byte) :
    checkBytes bytes = checkOf (bytes.flatMap fun v => (List.range 8).map fun i => v.getLsbD (7 - i)) := by
  unfold checkBytes checkOf
  rw [List.foldl_flatMap]
  rfl

end Sys2Proof.Machine
end

