-- ==== Sys2Proof/Laws/Image.lean ====
section
/-! SUPPORT. What the image parser's success says, one lemma for each parser function. -/

namespace Sys2Proof.Machine

theorem require_eq_some (test : Bool) (u : Unit) : require test = some u ↔ test = true := by
  cases test <;> simp [require]

theorem natIn_eq_some (lo hi n m : Nat) : natIn lo hi n = some m ↔ (lo ≤ n ∧ n ≤ hi) ∧ n = m := by
  simp [natIn]

theorem intIn_eq_some (lo hi x y : Int) : intIn lo hi x = some y ↔ (lo ≤ x ∧ x ≤ hi) ∧ x = y := by
  simp [intIn]

/-- A parser that goes on has read its first part. -/
theorem then_eq_some {α β : Type} {x : Option α} {f : α → Option β} {b : β} (h : (x >>= f) = some b) :
    ∃ a, x = some a ∧ f a = some b := Option.bind_eq_some_iff.mp h

theorem roleOfCode_eq_some (n : Nat) (r : Role) (h : roleOfCode n = some r) : roleCode r = n := by
  unfold roleOfCode at h
  split at h <;> simp_all [roleCode] <;> grind

theorem parseStation_ranges (b : List Byte) (own : StationSection) (h : parseStation b = some own) :
    2160 ≤ own.applyAt ∧ own.applyAt ≤ 2480 ∧ 1 ≤ own.effortMax ∧ own.effortMax ≤ 1000 ∧ 1 ≤ own.effortSlew := by
  iterate 8 obtain ⟨_, -, h⟩ := then_eq_some h
  obtain ⟨_, e1, h⟩ := then_eq_some h
  obtain ⟨_, e2, h⟩ := then_eq_some h
  obtain ⟨_, -, h⟩ := then_eq_some h
  obtain ⟨_, e3, h⟩ := then_eq_some h
  iterate 2 obtain ⟨_, -, h⟩ := then_eq_some h
  rw [natIn_eq_some] at e1 e2 e3
  cases h
  grind

theorem parseShared_ranges (b : List Byte) (o : Nat) (sh : SharedSection) (h : parseShared b o = some sh) :
    sh.vWalk < sh.vGuided ∧ 8 ≤ sh.rampRounds ∧ sh.rampRounds ≤ 127 ∧ 1 ≤ sh.lockRamp ∧ 1 ≤ sh.releaseHold := by
  iterate 8 obtain ⟨_, -, h⟩ := then_eq_some h
  obtain ⟨_, e1, h⟩ := then_eq_some h
  iterate 14 obtain ⟨_, -, h⟩ := then_eq_some h
  obtain ⟨_, e2, h⟩ := then_eq_some h
  iterate 2 obtain ⟨_, -, h⟩ := then_eq_some h
  obtain ⟨_, e3, h⟩ := then_eq_some h
  obtain ⟨_, e4, h⟩ := then_eq_some h
  rw [natIn_eq_some] at e2 e3 e4
  rw [require_eq_some] at e1
  cases h
  grind

theorem parseParams_parts (b : List Byte) (k : StationNo) (p : Params) (h : parseParams b k = some p) :
    roleOfCode (byteAt b 3 % 16) = some p.role ∧ sharedPlaced b = true ∧ parseStation b = some p.own
      ∧ parseShared b (wordAt b 4) = some p.shared ∧ p.shared.roster.get k = p.role := by
  obtain ⟨role, hrole, h⟩ := then_eq_some h
  obtain ⟨_, hplaced, h⟩ := then_eq_some h
  obtain ⟨own, hown, h⟩ := then_eq_some h
  obtain ⟨sh, hsh, h⟩ := then_eq_some h
  obtain ⟨_, hroster, h⟩ := then_eq_some h
  cases h
  rw [require_eq_some] at hplaced hroster
  exact ⟨hrole, hplaced, hown, hsh, of_decide_eq_true hroster⟩

end Sys2Proof.Machine
end

