-- ==== Sys2Proof/WellFormed.lean ====
section
/-! DEFINITION. Which commands are well-formed: the checks on operands that a type does not already make.
The machine is total on every command; an ill-formed one is read as its docstring in Machine/ says (positions saturate, R4). -/

namespace Sys2Proof

/-- The serial memory gives at most the 1024 bytes of the largest image (R185). -/
def memoryFits (memory : List (BitVec 8)) : Bool := decide (memory.length ≤ 1024)

/-- A position is a value of the round timer's counter (R4). -/
def positionFits (p : Nat) : Bool := decide (p ≤ Config.positionMax)

/-- A dominant span begins no later than it ends, within the counter (R20). -/
def spanFits (first last : Nat) : Bool := decide (first ≤ last) && positionFits last

/-- The command is well-formed. -/
def Instr.wellFormed : Instr → Bool
  | .resetRelease _ memory _ => memoryFits memory
  | .stuckBus first last => spanFits first last
  | .recessiveToDominantEdge position => positionFits position
  | .candidateMarkDropped position => positionFits position
  | .reset | .svcFallingEdge _ | .imageReadDone | .loadEnd | .syncMark | .ownSyncMarkDrive | .markNotReadBack _
  | .syncWindowExpiry | .coldStartTimeout | .joinEntry | .tallyImage | .tallyHandover _ | .answerTimeout
  | .prepareTimeout | .splitView | .peerLost _ | .ownReportSend _ | .ownSlotEnd | .clashSilence | .slotEnd _ _
  | .reportSectionEnd | .suspectRecovery _ | .applyPoint _ | .settleTimeout | .demandLost | .lockRampEnd
  | .releaseHoldEnd | .conversionEnd _ | .scanEnd | .calWaitTimeout | .pulseEdge _ | .disableAsserted _
  | .disableReleased _ | .drvFltAsserted _ | .drvFltReleased _ | .busLoss | .silentHoldEnd | .conditionExpiry => true

end Sys2Proof
end

