-- ==== Sys2Proof/Tests/Slice0.lean ====
section
/-! SUPPORT. Small tests: ill-formed commands, the spec's own examples, and for every statement with hypotheses a state and
operands that meet them (witness_<statement>). -/

set_option Elab.async false

namespace Sys2Proof.Tests

open Sys2Proof Sys2Proof.Machine

/-! ## Well-formed commands: one ill-formed term for each check -/

theorem test_memoryFits_refuses : (Instr.resetRelease 0 (List.replicate 1025 0) true).wellFormed = false := by decide +kernel
theorem test_memoryFits_takes : (Instr.resetRelease 0 (List.replicate 1024 0) true).wellFormed = true := by decide +kernel
theorem test_spanFits_refuses_order : (Instr.stuckBus 41 40).wellFormed = false := by decide
theorem test_spanFits_refuses_range : (Instr.stuckBus 8 65536).wellFormed = false := by decide
theorem test_positionFits_refuses_edge : (Instr.recessiveToDominantEdge 65536).wellFormed = false := by decide
theorem test_positionFits_refuses_drop : (Instr.candidateMarkDropped 65536).wellFormed = false := by decide
theorem test_positionFits_takes : (Instr.candidateMarkDropped 65535).wellFormed = true := by decide

/-! ## A small image and small states -/

/-- Two bytes of a number. -/
def two (n : Nat) : List Byte := [BitVec.ofNat 8 (n / 256), BitVec.ofNat 8 n]

/-- A step record of 14.3: kind, flags, target, rate, duration, band, repeats, increment. -/
def stepBytes (kind flags : Nat) (target : Int) (rate duration band repeats : Nat) (increment : Int) : List Byte :=
  BitVec.ofNat 8 kind :: BitVec.ofNat 8 flags :: (two (signedField 16 target)
    ++ BitVec.ofNat 8 rate :: (two duration
    ++ BitVec.ofNat 8 band :: BitVec.ofNat 8 repeats :: two (signedField 16 increment)))

/-- The station section of a TILT_L station: AN0 is LEAN_A, AN1 is ACT_CURRENT and differential, PS0 is mapped. -/
def stationBytes : List (List Byte) :=
  [[0x01#8], two 2048, two 1440, [0x00#8], two (signedField 16 (-360)), two 360, [0x31#8],
    [0x85#8], two 2048, two 1024, [0x00#8], two (signedField 16 (-2047)), two 2047, [0x31#8],
    List.replicate 66 0x00#8,
    [0x01#8], two 250, [0x04#8, 0x03#8, 0x00#8], two 1, [0x01#8, 0x01#8],
    two 320, two 128, two 64, two 64, two 600, two 50, [0x00#8], two 2200, two 40, [0x03#8]]

/-- The shared section: stations 0 STEER, 1 TILT_R, 2 TILT_L, 5 SPEED, 6 FRAME. -/
def sharedBytes : List (List Byte) :=
  [[0x00#8, 0x03#8, 0x02#8, 0x01#8, 0x00#8, 0x00#8, 0x05#8, 0x06#8, 0x00#8, 0x00#8, 0x05#8],
    [0x00#8, 0x00#8, 0x00#8], two 0, [0x01#8, 0x02#8, 0x00#8], two 360, [0x01#8, 0x04#8, 0x01#8], two 360,
    [0x03#8, 0x03#8, 0x01#8], two 360, [0x04#8, 0x04#8, 0x01#8], two 320,
    stepBytes 4 0 0 1 0 1 0 0, stepBytes 1 0 100 5 10 4 2 10, stepBytes 3 0 50 5 80 8 0 0, stepBytes 0 1 20 6 10 4 0 0,
    stepBytes 2 1 0 10 10 4 0 0]
  ++ List.replicate 27 (stepBytes 4 0 0 1 0 1 0 0)
  ++ [two 150, two 600, two 30,
    two 0, two 360, two 100, two 350, two 200, two 320, two 400, two 280, two 800, two 200, two 1000, two 150,
    two 1200, two 100, two 1400, two 80,
    two 200, two 120, two 160, two 40, two 50, two 100,
    [0x03#8, 0x03#8, 0x03#8, 0x02#8, 0x02#8, 0x0A#8, 0x04#8, 0x19#8, 0x0A#8, 0x0A#8]]

/-- The image without its CRC: format 4Ah, length 574, station 2 as TILT_L, the shared section at byte 124. -/
def imageBody : List Byte :=
  ([[0x4A#8], two 574, [0x21#8], two 124, two 448] ++ stationBytes ++ sharedBytes).flatten

/-- The whole image, with its CRC. -/
def demoImage : List Byte := imageBody ++ two 57832

/-- The parameters of the image. -/
def demoParams : Params :=
  { role := .tiltL
    own :=
      { channels :=
          ((Eight.fill ChannelConfig.blank).set 0
            { quantity := .leanA, differential := false, zero := 2048, gain := 1440, offset := 0, low := -360,
              high := 360, filter := 3, level := 1 }).set 1
            { quantity := .actCurrent, differential := true, zero := 2048, gain := 1024, offset := 0, low := -2047,
              high := 2047, filter := 3, level := 1 }
        ps0 := { mapped := true, scale := 250, window := 4, zeroRounds := 3 }
        ps1 := { mapped := false, scale := 1, window := 1, zeroRounds := 1 }
        kp := 320, kd := 128, ka := 64, kl := 64, effortMax := 600, effortSlew := 50, dirInverted := false, applyAt := 2200,
        pairBand := 40, pairFilter := 3 }
    shared :=
      { slowBitRate := false, roster := ⟨.steer, .tiltR, .tiltL, .none, .none, .speed, .frame, .none⟩, demandPrimary := 0,
        demandSecondary := 5
        modes :=
          [{ first := 0, last := 0, loop := false, maxLean := 0 }, { first := 1, last := 2, loop := false, maxLean := 360 },
            { first := 1, last := 4, loop := true, maxLean := 360 }, { first := 3, last := 3, loop := true, maxLean := 360 },
            { first := 4, last := 4, loop := true, maxLean := 320 }]
        library :=
          [{ StepDef.blank with rate := 1, band := 1 }
          , { kind := .ramp, syncEnd := false, keepAuthority := false, target := 100, rate := 5, duration := 10, band := 4,
              repeats := 2, increment := 10 }
          , { kind := .settle, syncEnd := false, keepAuthority := false, target := 50, rate := 5, duration := 80, band := 8,
              repeats := 0, increment := 0 }
          , { kind := .hold, syncEnd := true, keepAuthority := false, target := 20, rate := 6, duration := 10, band := 4,
              repeats := 0, increment := 0 }
          , { kind := .track, syncEnd := true, keepAuthority := false, target := 0, rate := 10, duration := 10, band := 4,
              repeats := 0, increment := 0 }]
          ++ List.replicate 27 { StepDef.blank with rate := 1, band := 1 }
        vWalk := 150, vGuided := 600, vh := 30
        curve :=
          [⟨0, 360⟩, ⟨100, 350⟩, ⟨200, 320⟩, ⟨400, 280⟩, ⟨800, 200⟩, ⟨1000, 150⟩, ⟨1200, 100⟩, ⟨1400, 80⟩]
        cautionLimit := 200, walkLimit := 120, soleLimit := 160, leanBand := 40, speedBand := 50, steerBand := 100,
        leanFilter := 3, speedFilter := 3, steerFilter := 3, voteMin := 2, rejoinMax := 2, rampRounds := 10,
        calSamples := 4, demandHold := 25, lockRamp := 10, releaseHold := 10 } }

/-- Station 2 in a state, in a round opened in the window, at position 4. -/
def demo (state : StationState) : Station :=
  { Station.reset with
    loader := { Loader.reset with released := true, straps := 2 }
    params := demoParams
    bus := { BusUnit.reset with position := 4, sync := .synchronised, roundNumber := 7, round := RoundState.fresh .inWindow }
    member := { MembershipUnit.reset with state := state }
    peers := peersOf 2 demoParams
    meas := measurementOf demoParams.own }

/-- A state in LOAD with an image read. -/
def demoLoad (buffer : List Byte) : Station :=
  { Station.reset with
    loader := { Loader.reset with released := true, straps := 2, reading := true, buffer := buffer, verdict := some true } }

/-- The tally bits of outcomes: the two sets, the five numeric fields as read, the signature fields. -/
def demoWire (members joining mode limit faultWire advance claim sigMin sigMaxWire : Nat) : BitVec 70 :=
  BitVec.ofNat 70
    (packFields
      [(8, 255 - members), (8, 255 - joining), (3, mode), (9, limit), (2, faultWire), (1, advance), (7, claim),
        (16, sigMin), (16, sigMaxWire)])

/-- An agreed round of stations 0, 1, 2 in PARK. -/
def agreedWire : BitVec 70 := demoWire 0x07 0 1 300 3 1 127 0x5A3C 0xA5C3
/-- An agreed round in LOCK. -/
def lockWire : BitVec 70 := demoWire 0x07 0 0 300 3 1 127 0x5A3C 0xA5C3
/-- A split round. -/
def splitWire : BitVec 70 := demoWire 0x07 0 1 300 3 1 127 0x5A3C 0xA5C2

/-- A record of a round. -/
def demoRecord (tag : Word16) (exclusions : StationSet) : DecisionRecord :=
  { tag := tag, exclusions := exclusions, responses := Eight.fill none, adoption := none }

/-- A report of a station, as a station in MEMBER with nothing to tell sends it. -/
def demoReport (station : Nat) : Report :=
  { station := station, seq := false, state := 2, role := 3, digest := 0, lean := -512, leanRate := 0, secondary := -2048,
    speed := 4095, demand := -512, effort := 0,
    traj := { mode := 7, step := 0, repeatLeft := 0, elapsed := 0, setpoint := 0, pending := 7 },
    propMode := 7, propLimit := 511, propFault := 0, suspects := 0,
    tiltView := { holders := 0, stage := 0, rampCount := 0, epoch := 0 },
    steerView := { holders := 0, stage := 0, rampCount := 0, epoch := 0 }, tiltResponse := 0, steerResponse := 0,
    staleScan := false, calDone := false, condCode := 0, condSource := 0, condCount := 0, overflow := false }

/-- A run state in a step of a mode. -/
def demoRun (engine : EngineState) (mode : Mode) (step elapsed : Nat) : RunState :=
  { RunState.idle with engine := engine, mode := some mode, step := step, elapsed := elapsed }

/-- Station 2 in MEMBER at the apply point of a round of a class, with a mode held and a run state. -/
def demoApply (roundClass : RoundClass) (mode : Mode) (run : RunState) : Station :=
  let x := demo .member
  { x with
    bus :=
      { x.bus with
        position := 2147, round := { x.bus.round with handed := true, sectionDone := true }
        held := { HeldSet.reset with members := 0x07, mode := mode, limit := 300, roundClass := roundClass } }
    engine := { x.engine with run := run } }

/-! ## The spec's own examples -/

/-- R105: raw 2160, zero 2048, gain 1440, offset 0. -/
theorem test_scaling : scaleRaw (demoParams.own.channels.get 0) 0 2160 = 157 := by decide +kernel

/-- R111: a ring of 3, 4, 3, 4 by 250 over 4. -/
theorem test_wheelSpeed :
    pulseSpeed demoParams.own.ps0 { count := 0, ring := [3, 4, 3, 4], fill := 4, quiet := 0 } = some 875 := by decide +kernel

/-- R164: share 500, setpoint 120, lean 96, rate −4. -/
theorem test_tiltLaw : targetEffort 600 500 (tiltLaw demoParams.own 120 (-4) (some 96)) = 64 := by decide +kernel

/-- R182: speed 650 between (400, 280) and (800, 200). -/
theorem test_limitCurve : curveFrom 650 demoParams.shared.curve = 230 := by decide +kernel

/-- R180: WALK stays at 170, becomes GUIDED at 180, and returns below 150. -/
theorem test_speedMode :
    nextSpeedMode demoParams.shared .walk 170 = .walk ∧ nextSpeedMode demoParams.shared .walk 180 = .guided
      ∧ nextSpeedMode demoParams.shared .guided 150 = .guided ∧ nextSpeedMode demoParams.shared .guided 149 = .walk := by
  decide +kernel

/-- Table 2-4: claim code 9 is TILT, urgency 1, station 1. -/
theorem test_claim : claimOutcome 9 = some { group := .tilt, urgency := 1, station := 1 } := by decide

/-- Table 2-4: station 2 drives 10 and stops contending at the last bit but one. -/
theorem test_contention :
    (contend true (minBits 7 (some 10)) (bitsOf 7 9)).map (·.1) = [false, false, false, true, false, true, true] := by
  decide

/-- Table 3-4: the held outcome set of the round with five stations. -/
theorem test_outcomes :
    resolveTally true 2 (demoWire 0x67 0x40 3 200 2 1 127 0x5A3C 0xA5C3) =
      { members := 0x67, joining := 0x40, alone := false, mode := .guided, limit := 200, fault := 1, advance := true,
        claim := none, roundClass := .agreed, agreedSig := some 0x5A3C } := by decide +kernel

/-- Table 7-5: the offset of AN3. -/
theorem test_offset : passOffset 4 8202 8234 = (4, false) := by decide +kernel

/-- Table 14-2: a report read back from its own frame, whose check holds. -/
theorem test_frame :
    decodeReport (encodeReport (demoReport 0)) = demoReport 0 ∧ checkHolds (encodeReport (demoReport 0)) = true := by
  decide +kernel

/-- Table 14-2: the frame begins with station 5 (101), seq 1, state 2 (010), role 5 (101), written out. -/
theorem test_frameBits :
    bitsOf 10 (fieldOf 247 (encodeReport { demoReport 5 with seq := true, role := 5 }).toNat 0 10) =
      [true, false, true, true, false, true, false, true, false, true] := by decide +kernel

/-- Twenty bytes of the image. -/
def piece (i : Nat) : List Byte := (imageBody.drop (20 * i)).take 20

/-- The check register over bytes, from any value. -/
def checkFrom (r : Word16) (bytes : List Byte) : Word16 := bytes.foldl (fun r b => (bitsOf 8 b.toNat).foldl checkStep r) r

/-- The check register after each twenty bytes. -/
def crcAt (i : Nat) : Word16 :=
  BitVec.ofNat 16
    (([65535, 35573, 13678, 23276, 30177, 15915, 14166, 537, 57947, 64689, 45666, 18978, 31685, 47594, 54979]
      ++ [61028, 24065, 39511, 23258, 37241, 9686, 19022, 52776, 44440, 12897, 637, 42012, 22710, 35255, 57832]).getD i 0)

theorem test_crcPieces : ∀ i ∈ List.range 29, checkFrom (crcAt i) (piece i) = crcAt (i + 1) := by decide +kernel

theorem crc_upTo (n : Nat) (h : n ≤ 29) : checkFrom 65535 (imageBody.take (20 * n)) = crcAt n := by
  induction n with
  | zero => decide
  | succ n ih =>
    rw [show 20 * (n + 1) = 20 * n + 20 by omega, List.take_add, checkFrom, List.foldl_append]
    exact (congrArg (fun r => checkFrom r (piece n)) (ih (by omega))).trans
      (test_crcPieces n (List.mem_range.mpr (by omega)))

/-- R189: the CRC of the small image. -/
theorem test_crc : checkBytes imageBody = 57832 := by
  have h : imageBody.take (20 * 29) = imageBody := by decide +kernel
  rw [← h]
  exact crc_upTo 29 (by omega)

theorem test_imageCrc : imageCrcHolds demoImage = true := by
  have h : demoImage.take (imageLength demoImage - 2) = imageBody := by decide +kernel
  have w : wordAt demoImage (imageLength demoImage - 2) = 57832 := by decide +kernel
  rw [imageCrcHolds, h, w, test_crc]
  decide

/-- R190, R191: the parameters of the small image. -/
theorem test_params : parseParams demoImage 2 = some demoParams := by decide +kernel

/-- R188: the small image is good. -/
theorem test_image : checkImage demoImage 2 = some demoParams := by
  rw [checkImage, if_neg (by decide +kernel), if_neg (by decide +kernel), test_imageCrc, if_neg (by decide +kernel),
    if_neg (by decide +kernel), if_neg (by decide +kernel), test_params]

/-- R188: another format code or a short length fails. -/
theorem test_imageFails :
    checkImage (demoImage.set 0 0x4B#8) 2 = none ∧ checkImage [0x4A#8, 0x00#8, 0x0F#8] 2 = none := by decide +kernel

/-- R20: positions of marks, signature fields and frames are not counted. -/
theorem test_counted :
    isCounted true 7 = false ∧ isCounted true 8 = true ∧ isCounted false 7 = true ∧ isCounted true 48 = false
      ∧ isCounted true 80 = true ∧ isCounted true 100 = false ∧ isCounted true 347 = true ∧ isCounted true 2148 = true := by
  decide

/-- Table 14-1: no table word spells a command (log 5). -/
theorem test_noWord : decodeTableWord 0 0 = none := by decide

/-- The queue: the oldest command runs, and the rest waits. -/
theorem test_step : step ⟨demo .member, [.tallyImage, .reset]⟩ = .next ⟨(demo .member).takeImage, [.reset]⟩ := rfl

/-- One bit time on an empty queue. -/
theorem test_tick : (demo .member).tick.bus.position = 5 := by decide +kernel

/-! ## Witnesses: states and operands that meet the hypotheses of each statement -/

/-- Station 2 with its position. -/
def demoAt (state : StationState) (position : Nat) : Station :=
  { demo state with bus := { (demo state).bus with position := position } }

/-- A candidate open, some bit times after its edge. -/
def withCandidate (x : Station) (age : Nat) (inWindow : Bool) : Station :=
  { x with bus := { x.bus with candidate := some { age := age, inWindow := inWindow } } }

/-- An own mark driven, some bit times after its drive start. -/
def withMark (x : Station) (age : Nat) (confirmed faulted : Bool) : Station :=
  { x with bus := { x.bus with mark := some { age := age, confirmed := confirmed, faulted := faulted } } }

/-- The round abandoned at a position. -/
def abandonedAt (x : Station) (cutAt : Nat) : Station :=
  { x with bus := { x.bus with round := { x.bus.round with abandoned := true, cutAt := cutAt } } }

/-- A pending record. -/
def withRecord (x : Station) (r : DecisionRecord) : Station := { x with bus := { x.bus with pendingRecord := some r } }

/-- A scan under way. -/
def scanning (state : StationState) (list : ScanList) (left : List ScanEntry) : Station :=
  let x := demo state
  { x with meas := { x.meas with scan := some { list := list, left := left, written := [], elapsed := 250 } } }

/-- Some bit times on an empty queue. -/
def ticks : Nat → Station → Station
  | 0, x => x
  | n + 1, x => ticks n x.tick

/-! ## Marks, windows and spans -/

/-- R7: an own mark is dominant for 8 bit times. -/
theorem test_markEnds :
    (withMark (demoAt .member 4) 7 true false).txdDominant 0 = true
      ∧ (withMark (demoAt .member 4) 8 true false).txdDominant 0 = false := by decide +kernel

/-- R5: a candidate that nothing confirms is gone after its fourth bit time. -/
theorem test_candidateEnds :
    (ticks 4 (withCandidate (demoAt .member 2490) 0 true)).bus.candidate.isSome = true
      ∧ (ticks 5 (withCandidate (demoAt .member 2490) 0 true)).bus.candidate = none := by decide +kernel

/-- R8: an own mark that nothing confirms opens a markless round after its fourth bit time. -/
theorem test_markOverdue :
    (withMark (demoAt .member 2504) 4 false false).tick.bus.round.opening = .markless
      ∧ (withMark (demoAt .member 2504) 4 false false).tick.bus.position = 5 := by decide +kernel

/-- R9: an edge past the window finds the marks lost. -/
theorem test_windowCarriedPast :
    (demoAt .listen 2400).edge 2600 = withCandidate ((demoAt .listen 2400).reach 2600) 0 false
      ∧ ((demoAt .listen 2400).reach 2600).bus.sync = .searching := by decide +kernel

/-- R9: a mark confirmed past position 2520 finds the marks lost before it, and opens an acquired round. -/
theorem test_markCarriedPast :
    let good : Station := { withCandidate (demoAt .listen 2518) 0 true with
      member := { MembershipUnit.reset with state := .listen, goodRounds := 5 } }
    good.syncMark.member.goodRounds = 0 ∧ good.syncMark.bus.round.opening = .acquired
      ∧ (ticks 3 good).member.goodRounds = 0 ∧ (ticks 3 good).syncMark.bus.round.opening = .acquired
      ∧ ({ good with bus := { good.bus with position := 2510 } } : Station).syncMark.member.goodRounds = 6 := by decide +kernel

/-- R72, R161: a level that stands unseen is seen in the bit times that a command carries. -/
theorem test_pinsInCarriedBitTimes :
    let x : Station := { demo .member with pins := { (demo .member).pins with disable := true, drvFlt := true } }
    (x.reach 4).member.state = .member ∧ (x.reach 5).member.state = .halted ∧ (x.reach 5).drive.output = .off
      ∧ (x.reach 5).holds .haltInput 0 = true ∧ (x.reach 5).holds .driveFault 0 = true
      ∧ x.takeImage.member.state = .halted ∧ (x.tallyHandover agreedWire).drive.fltSeen = true := by decide +kernel

/-- A round abandoned while its tally was driven, with what was held of the round before it. -/
def cutTallyAt (cutAt : Nat) : Station :=
  let x := withRecord (abandonedAt (demoAt .member 60) cutAt) (demoRecord 6 0)
  { x with
    bus :=
      { x.bus with
        ownSig := some 5, held := { HeldSet.reset with mode := .walk, roundClass := .agreed }
        round := { x.bus.round with image := some (memberImage true none none) } } }

/-- R15, R16, R21: a tally bit driven before a stuck bus and not read back raises BUS_FAULT source 1, and one driven after it does
not; the consumers are told at position 79, and no later. -/
theorem test_cutTally :
    let told := fun x : Station => (x.tallyHandover (BitVec.allOnes 70))
    let shows := fun x : Station => (x.bus.held.roundClass, x.bus.held.mode, x.bus.ownSig, x.bus.pendingRecord.isSome)
    (told (cutTallyAt 40)).cond = raiseEvent ConditionUnit.reset { code := .busFault, source := 1 } 3
      ∧ (told (cutTallyAt 11)).cond = ConditionUnit.reset
      ∧ shows (cutTallyAt 40) = (.agreed, .walk, some 5, true)
      ∧ shows (told (cutTallyAt 40)) = (.abandoned, .walk, none, false)
      ∧ shows (told ((cutTallyAt 40).advance 80)) = (.agreed, .walk, some 5, true) := by decide +kernel

/-- R21, R36, R60: what an abandoned round was not told by its end is told before the next round, by a mark confirmed or not. -/
theorem test_closeAbandoned :
    let shows := fun x : Station => (x.bus.held.roundClass, x.bus.ownSig, x.bus.pendingRecord.isSome)
    shows (withCandidate (cutTallyAt 40) 4 true).syncMark = (.abandoned, none, false)
      ∧ shows ((withMark (cutTallyAt 40) 2 false false).markNotReadBack 3) = (.abandoned, none, false)
      ∧ shows ((withMark (withRecord (demoAt .member 2502) (demoRecord 6 0)) 2 false false).markNotReadBack 3)
          = (.none, none, true) := by decide +kernel

/-- R187: the count selects the start option whatever the verdict. -/
theorem test_quietOptionOfFailedImage :
    let x : Station := { demoLoad [] with loader := { (demoLoad []).loader with svcCount := 3 } }
    x.endLoad.loader.quietOption = true ∧ x.endLoad.member.state = .configFault := by decide +kernel

/-- R127: an elapsed of 65535 times out whatever ADVANCE is; a SETTLE only while it is not ready. -/
theorem test_timeoutSources :
    let inp : EngineInputs := { roundClass := .agreed, mode := .walk, limit := 300, advance := true, demand := 0 }
    (demoRun .running .walk 3 65535).timeout demoParams.shared inp = some 1
      ∧ (demoRun .running .walk 2 80).timeout demoParams.shared inp = none
      ∧ (demoRun .running .walk 2 80).timeout demoParams.shared { inp with advance := false } = some 0 := by
  decide +kernel

/-- R87: a received frame sets the expected seq of any record that is not EXCLUDED. -/
theorem test_expectedSeq :
    (countSeq (PeerRecord.reset .steer) (some (demoReport 0)) true).expectedSeq = some true
      ∧ (countSeq { PeerRecord.reset .steer with state := .excluded } (some (demoReport 0)) true).expectedSeq = none := by
  decide +kernel

/-- R158: a tilt station that becomes a member of an adopted table without TILT holders holds TILT_VACANT at once. -/
theorem test_vacantAtEntry :
    let x : Station := { demo .join with auth := { Authority.atRest with live := true } }
    x.enterMember.holds .tiltVacant 0 = true := by decide +kernel

theorem witness_EmptyQueueStepIsOneBitTime :
    timerRuns (demo .silent).member.state = false ∧ (demo .silent).member.silentHold + 1 < 160000
      ∧ (let x : Station := { demo .quiet with bus := BusUnit.reset }
         x.member.state = .quiet ∧ x.bus.sync = .searching) := by decide +kernel

theorem witness_LoadReadsTheImage :
    Station.reset.member.state = .load ∧ Station.reset.loader.released = false ∧ 8 ≤ demoImage.length
      ∧ 574 = (if 16 ≤ imageLength demoImage ∧ imageLength demoImage ≤ 1024 then imageLength demoImage else 8)
      ∧ 574 ≤ demoImage.length
      ∧ (let short := List.replicate 8 0xFF#8
         8 = (if 16 ≤ imageLength short ∧ imageLength short ≤ 1024 then imageLength short else 8) ∧ 8 ≤ short.length)
      ∧ (demoLoad []).member.state = .load ∧ (demoLoad []).loader.released = true
      ∧ (demo .listen).member.state ≠ .load := by decide +kernel

theorem witness_ReadEndFormsTheVerdict :
    (demoLoad demoImage).member.state = .load ∧ (demoLoad demoImage).loader.reading = true
      ∧ checkImage demoImage 2 = some demoParams ∧ checkImage (demoImage.set 0 0x4B#8) 2 = none :=
  ⟨rfl, rfl, test_image, test_imageFails.1⟩

theorem witness_GoodImageTakesEffect :
    (demoLoad demoImage).member.state = .load ∧ (demoLoad demoImage).loader.verdict.isSome = true
      ∧ checkImage (demoLoad demoImage).loader.buffer (demoLoad demoImage).loader.straps = some demoParams :=
  ⟨rfl, rfl, test_image⟩

theorem witness_FailedImageIsConfigFault :
    (demoLoad []).member.state = .load ∧ (demoLoad []).loader.verdict.isSome = true
      ∧ checkImage (demoLoad []).loader.buffer (demoLoad []).loader.straps = none := by decide +kernel

theorem witness_FltFollowsTheAgreedFault :
    Station.reset.member.state = .load ∧ (demo .configFault).member.state = .configFault
      ∧ (demo .silent).member.state ≠ .load ∧ (demo .silent).member.state ≠ .configFault := by decide

theorem witness_MarkOpensTheRound :
    (let x := withCandidate (demo .member) 4 true
     timerRuns x.member.state = true ∧ x.bus.candidate = some { age := 4, inWindow := true }
       ∧ x.bus.round.wellFormed = true ∧ x.bus.markPending = false ∧ x.meas.scan = none)
      ∧ (let x := withMark (demo .halted) 4 false false
         timerRuns x.member.state = true ∧ x.bus.markPending = true ∧ x.bus.round.wellFormed = true)
      ∧ timerRuns (withCandidate (demo .listen) 0 false).member.state = true
      ∧ (withCandidate (demo .member) 5 true).bus.candidate = some { age := 5, inWindow := true }
      ∧ (withMark (demo .halted) 5 false false).bus.mark = some { age := 5, confirmed := false, faulted := false } := by
  decide +kernel

/-- A driving station at a position of a round cut off, and a count of loss periods. -/
def losing (position lossPeriods : Nat) : Station :=
  { abandonedAt (demoAt .member position) 30 with
    member := { MembershipUnit.reset with state := .member, lossPeriods := lossPeriods } }

/-- R22, R74: a drive start counts the round that ended, and the fourth period loses the bus with one bit time of the mark. -/
theorem test_ownMarkLosesBus :
    (losing 2500 2).ownMark.member.lossPeriods = 3 ∧ (losing 2500 2).ownMark.bus.markPending = true
      ∧ (withMark (losing 2500 3) 4 false false).syncMark.member.lossPeriods = 3
      ∧ (let y := (losing 2499 3).tick
         y.member.state = .listen ∧ y.member.losses = 1 ∧ y.bus.position = 0 ∧ y.meas.scan = none ∧ y.txdDominant 0 = true
           ∧ y.tick.txdDominant 0 = false ∧ y.cond.table.map (·.key) = [{ code := .busLoss, source := 0 }]) := by
  decide +kernel

/-- A station in LISTEN with its counts. -/
def listening (goodRounds silencings losses : Nat) : Station :=
  { demo .listen with
    member :=
      { MembershipUnit.reset with
        state := .listen, goodRounds := goodRounds, silencings := silencings, losses := losses } }

theorem witness_EighthGoodMarkEntersJoin :
    (listening 8 1 1).member.state = .listen ∧ 8 ≤ (listening 8 1 1).member.goodRounds
      ∧ 1 + 1 ≤ (listening 8 1 1).params.shared.rejoinMax ∧ (listening 8 2 1).params.shared.rejoinMax < 2 + 1 := by
  decide +kernel

theorem witness_MarkWork :
    (let own := withMark (losing 2500 2) 2 false false
     own.syncMark.member.lossPeriods = 2
       ∧ (withCandidate (losing 2499 2) 4 true).syncMark.member.lossPeriods = 3
       ∧ (let lost := (withCandidate (losing 2499 3) 4 true).syncMark
          lost.member.state = .listen ∧ lost.member.losses = 1 ∧ lost.txdDominant 0 = false))
      ∧ ((withCandidate (listening 7 0 0) 4 true).syncMark.member.state = .join
         ∧ (withCandidate (listening 7 2 1) 4 true).syncMark.member.state = .listen
         ∧ (withCandidate (listening 7 0 0) 4 false).syncMark.member.goodRounds = 0)
      ∧ (let x := withRecord (withCandidate (demoAt .quiet 2517) 0 true) (demoRecord 6 0)
         isFollowing x.member.state = true ∧ x.bus.sync = .synchronised ∧ 2520 < x.bus.position + 4
           ∧ x.bus.markPending = false ∧ (x.reach (x.bus.position + 4)).bus.sync = .searching
           ∧ x.syncMark.bus.round.opening = .acquired ∧ x.syncMark.bus.pendingRecord = none)
      ∧ (let x := withCandidate (demo .member) 4 true
         x.meas.scan = none ∧ x.member.state ≠ .join ∧ x.meas.lists.selected = .run ∧ x.meas.lists.runShadow ≠ []
           ∧ x.params.own.ps0.mapped = true ∧ x.syncMark.meas.scan.isSome = true)
      ∧ (let x := withCandidate (scanning .member .run [⟨0, false⟩]) 4 true
         x.meas.scan.isSome = true ∧ x.syncMark.cond.queue.map (·.key) = [{ code := .scanOverrun, source := 0 }]) := by
  decide +kernel

theorem witness_OwnMarkIsDriven :
    isDriving (demoAt .join 2500).member.state = true ∧ (demoAt .join 2500).bus.candidate = none
      ∧ (demoAt .join 2500).bus.markPending = false ∧ (demoAt .join 2500).bus.position ≤ 2500
      ∧ (let stale := withCandidate (demoAt .member 2499) 4 true
         stale.bus.candidate = some { age := 4, inWindow := true } ∧ 4 < 4 + (2500 - stale.bus.position)
           ∧ stale.bus.markPending = false)
      ∧ (let held := withCandidate (demoAt .member 2499) 3 true
         held.bus.candidate = some { age := 3, inWindow := true } ∧ 3 + (2500 - held.bus.position) ≤ 4)
      ∧ (let x := losing 2480 3
         isDriving x.member.state = true ∧ x.bus.markPending = false ∧ x.bus.position ≤ 2500 ∧ x.bus.candidate = none
           ∧ x.bus.round.wellFormed = false ∧ x.bus.round.opening ≠ .noRound ∧ 4 ≤ min 4 (x.member.lossPeriods + 1)
           ∧ min 4 ((losing 2480 2).member.lossPeriods + 1) < 4) := by decide +kernel

theorem witness_UnreadMarkIsMarkless :
    (let x := withMark (demo .member) 2 false false
     x.bus.mark = some { age := 2, confirmed := false, faulted := false } ∧ isDriving x.member.state = true)
      ∧ (let x := withMark (demo .member) 4 true false
         x.bus.mark = some { age := 4, confirmed := true, faulted := false } ∧ x.bus.position ≤ (4 : Fin 8).val)
      ∧ (let x := withMark (demo .member) 4 true true
         x.bus.mark = some { age := 4, confirmed := true, faulted := true } ∧ x.bus.position ≤ (7 : Fin 8).val
           ∧ (3 : Fin 8).val < x.bus.position)
      ∧ (demo .member).bus.mark = none ∧ (demo .member).bus.round.abandoned = false
      ∧ (abandonedAt (demo .member) 30).bus.round.abandoned = true
      ∧ (let x := withMark (demoAt .member 2503) 3 false false
         ¬(3 < (3 : Fin 8).val) ∧ (x.markNotReadBack 3).bus.position = 3 ∧ (x.markNotReadBack 7).bus.position = 7
           ∧ (2 : Fin 8).val < 3 ∧ (x.markNotReadBack 2).bus.position = 2503) := by decide +kernel

theorem witness_ExpiredWindowSearches :
    isFollowing (demoAt .quiet 2521).member.state = true ∧ (demoAt .quiet 2521).bus.sync = .synchronised
      ∧ (demoAt .quiet 2520).bus.position + 1 = 2521 ∧ isFollowing (demoAt .listen 2600).member.state = true
      ∧ ((demoAt .quiet 2400).reach 2521).bus.sync = .searching ∧ ((demoAt .quiet 2400).reach 2520).bus.sync = .synchronised
      ∧ (withCandidate (demoAt .quiet 2520) 3 true).bus.candidate = some { age := 3, inWindow := true }
      ∧ 3 + (2521 - 2520) ≤ 4 ∧ ¬(4 + (2521 - 2520) ≤ 4) := by decide +kernel

theorem witness_ColdStartEntersJoin :
    (let x := { listening 0 2 0 with bus := { BusUnit.reset with position := 7580 } }
     x.member.state = .listen ∧ x.member.silencings + x.member.losses ≤ x.params.shared.rejoinMax
       ∧ x.bus.candidate = none ∧ x.bus.position ≤ 7500 + 40 * x.number.val)
      ∧ (listening 0 2 1).params.shared.rejoinMax < 2 + 1
      ∧ (let at_ := fun age : Nat =>
           withCandidate { listening 0 0 0 with bus := { BusUnit.reset with position := 7579 } } age false
         (at_ 3).bus.candidate = some { age := 3, inWindow := false } ∧ 3 + (7580 - (at_ 3).bus.position) ≤ 4
           ∧ (at_ 4).bus.candidate = some { age := 4, inWindow := false } ∧ 4 < 4 + (7580 - (at_ 4).bus.position)) := by
  decide +kernel

theorem witness_EdgesOpenCandidates :
    timerRuns (demoAt .member 2480).member.state = true ∧ (demoAt .member 2480).bus.position ≤ 2480
      ∧ (let x := withCandidate (demoAt .member 2497) 0 true
         x.bus.candidate = some { age := 0, inWindow := true } ∧ isDriving x.member.state = true
           ∧ x.bus.position ≤ 2499 ∧ 0 + (2499 - x.bus.position) ≤ 4 ∧ x.bus.markPending = false
           ∧ 0 + (2500 - x.bus.position) ≤ 4 ∧ 4 < 0 + (2502 - x.bus.position) ∧ x.bus.round.wellFormed = true)
      ∧ (let x := withCandidate (losing 2497 3) 0 true
         x.bus.candidate = some { age := 0, inWindow := true } ∧ isDriving x.member.state = true
           ∧ x.bus.markPending = false ∧ 0 + (2500 - x.bus.position) ≤ 4 ∧ x.bus.round.wellFormed = false
           ∧ x.bus.round.opening ≠ .noRound ∧ 4 ≤ min 4 (x.member.lossPeriods + 1))
      ∧ (let x := withCandidate (demoAt .listen 7579) 1 false
         x.bus.candidate = some { age := 1, inWindow := false } ∧ x.bus.position ≤ 7579
           ∧ 7579 < 7500 + 40 * x.number.val ∧ 7500 + 40 * x.number.val ≤ 7580 ∧ 1 + (7580 - x.bus.position) ≤ 4
           ∧ x.member.silencings + x.member.losses ≤ x.params.shared.rejoinMax)
      ∧ (listening 0 2 1).params.shared.rejoinMax < 2 + 1 := by decide +kernel

/-- Station 2 with its frame begun, in a round not abandoned, at the end of a span that was counted. -/
def stuckAfter (state : StationState) (position count : Nat) : Station :=
  let x := withRecord (demoAt state position) (demoRecord 6 0)
  { x with
    bus :=
      { x.bus with
        stuckCount := count, stuckNext := position, ownSig := some 5
        round := { x.bus.round with ownSlot := .sending 0 (demoReport 2) none } }
    member := { x.member with matchCount := 3 } }

/-- O17: spans beside and across the excluded positions, with the own frame cut, the match count of JOIN, and two detections of one span. -/
theorem witness_StuckSpanAbandons :
    isDriving (stuckAfter .member 8 0).member.state = true ∧ (stuckAfter .member 8 0).bus.stuckCount < 33
      ∧ (stuckAfter .member 8 0).bus.round.abandoned = false
      ∧ (stuckAfter .quiet 8 0).bus.round.opening = .inWindow
      ∧ (let cut := fun (state : StationState) (first last count : Nat) =>
           let y := (stuckAfter state first count).stuckSpan first last
           (y.bus.round.cutAt, y.bus.stuckCount, y.cond.queue.map (·.key.source))
         cut .member 8 39 0 = (0, 32, []) ∧ cut .member 8 40 0 = (40, 0, [0]) ∧ cut .member 70 99 13 = (99, 0, [1])
           ∧ cut .member 340 355 24 = (355, 0, [1]) ∧ cut .quiet 2148 2213 0 = (2180, 0, [2])
           ∧ cut .join 80 99 13 = (99, 0, [1]))
      ∧ (let y := (stuckAfter .join 80 13).stuckSpan 80 99
         y.bus.nextSeq = false ∧ y.member.matchCount = 3 ∧ y.ownSlotEnd.bus.nextSeq = true
           ∧ y.ownSlotEnd.bus.round.ownSlot = .ended ∧ y.ownSlotEnd.bus.clashCount = 0
           ∧ y.reportSectionEnd.member.matchCount = 0 ∧ (y.advance 2148).reportSectionEnd.member.matchCount = 3)
      ∧ ((stuckAfter .member 80 13).stuckSpan 80 99).reportSectionEnd.member.matchCount = 3
      ∧ (abandonedAt (demo .member) 30).bus.round.abandoned = true := by decide +kernel

/-- A proposal. -/
def demoProposal : Proposal := { mode := .walk, limit := 250, fault := 0, ready := true, claim := 127 }

theorem witness_ImageFollowsTheState :
    let x := demo .halted
    isDriving x.member.state = true ∧ x.bus.round.recognised = true ∧ x.bus.round.abandoned = false
      ∧ x.bus.round.image = none ∧ x.bus.round.handed = false ∧ x.bus.position ≤ 10 ∧ x.cond.proposal = none
      ∧ ({ demo .member with cond := { ConditionUnit.reset with proposal := some demoProposal } } : Station).cond.proposal
          = some demoProposal
      ∧ isDriving (demo .join).member.state = true := by decide +kernel

/-- Station 2 in MEMBER at a position of the tally, with what it drives. -/
def tallying (image : TallyImage) (position : Nat) : Station :=
  let x := demoAt .member position
  { x with bus := { x.bus with round := { x.bus.round with image := some image } } }

theorem witness_TallyLevels :
    let image := { memberImage true (some { demoProposal with mode := .park, fault := 3, ready := false }) (some 0x8001) with
      joining := true }
    let level := fun position => (tallying image position).txdDominant (BitVec.allOnes 70)
    let lost := fun position => (tallying image position).txdDominant (BitVec.allOnes 70 ^^^ (1#70 <<< 31))
    (demo .member).bus.mark = none
      ∧ [9, 10, 14, 15, 16, 17].map level = [false, false, false, true, false, false]
      ∧ [22, 23, 24].map level = [false, true, false] ∧ [26, 27, 28].map level = [true, true, false]
      ∧ [38, 39, 40].map level = [true, true, true] ∧ [41, 47].map level = [false, false]
      ∧ [48, 49, 62, 63].map level = [false, true, true, false] ∧ [64, 65, 78, 79, 80].map level = [true, false, false, true, false]
      ∧ [49, 62, 64].map lost = [false, false, true]
      ∧ (tallying image 28).txdDominant (BitVec.allOnes 70) = false
      ∧ (tallying { image with mode := some 5 } 27).txdDominant 0 = false
      ∧ (abandonedAt (tallying image 15) 12).txdDominant (BitVec.allOnes 70) = false
      ∧ (demoAt .member 15).bus.round.image = none := by decide +kernel

theorem witness_HandoverTakesTheOutcomes :
    (demoAt .quiet 79).handoverDue = true ∧ (demoAt .quiet 79).bus.position ≤ 79
      ∧ (let x := abandonedAt (demoAt .member 79) 40
         let cut := { x with bus := { x.bus with round := { x.bus.round with image := some (memberImage true none none) } } }
         takesPart cut.member.state = true ∧ cut.bus.round.cutAt ≤ 79 ∧ cut.bus.round.abandoned = true ∧ cut.bus.round.handed = false
           ∧ cut.bus.round.image = some (memberImage true none none)) := by decide +kernel

/-- Station 2 at a handover with a peer's record and a decision record that names some numbers. -/
def handingOver (r : PeerRecord) (exclusions : StationSet) : Station :=
  withRecord { demo .member with peers := (demo .member).peers.set 0 r } (demoRecord 6 exclusions)

/-- A record in a state, with its absent rounds. -/
def absentFor (state : PeerState) (rounds : Nat) : PeerRecord :=
  { PeerRecord.reset .steer with state := state, absentRounds := rounds }

theorem witness_HandoverWork :
    (let x := handingOver (absentFor .present 2) 0
     let lone := demoWire 0x04 0 1 300 3 1 127 0x5A3C 0xA5C3
     x.handoverDue = true ∧ (resolveTally true 2 lone).roundClass = .agreed ∧ (demoRecord 6 0).tag + 1 = x.bus.roundNumber
       ∧ ((x.tallyHandover lone).peers.get 0).state = .absent
       ∧ ((x.tallyHandover agreedWire).peers.get 0).absentRounds = 0
       ∧ (((handingOver (absentFor .present 2) 0x01).tallyHandover lone).peers.get 0).exclusions = 1
       ∧ (((handingOver (absentFor .present 1) 0x01).tallyHandover lone).peers.get 0).state = .excluded
       ∧ (((handingOver (absentFor .absent 0) 0x01).tallyHandover agreedWire).peers.get 0).state = .excluded
       ∧ (((handingOver (absentFor .absent 0) 0x01).tallyHandover lone).peers.get 0).state = .absent
       ∧ (((handingOver (absentFor .excluded 2) 0).tallyHandover lone).peers.get 0).state = .absent
       ∧ (((handingOver (absentFor .excluded 0) 0).tallyHandover lone).peers.get 0).state = .excluded)
      ∧ (let round := { (demo .member).bus.round with image := some (memberImage true none none) }
         let x : Station := { demo .member with bus := { (demo .member).bus with round := round } }
         x.handoverDue = true ∧ x.cond.queue = []
           ∧ ((x.tallyHandover (BitVec.allOnes 70)).cond.queue.map (·.key)) = [{ code := .busFault, source := 1 }])
      ∧ (let x : Station := { demo .join with
           member := { MembershipUnit.reset with state := .join, joinRounds := 15 }
           meas := { (demo .join).meas with cal := { Calibration.reset with status := .skipped } } }
         (x.tallyHandover (demoWire 0 0 1 300 3 1 127 0xFFFF 0xFFFF)).member.state = .member
           ∧ (x.tallyHandover agreedWire).member.state = .join)
      ∧ (let t : Transaction := { claimant := 2, stage := .answer, age := 0, rampCount := 0, saved := none }
         let group : GroupRecord :=
           { holders := [{ station := 1, share := 1000 }], epoch := 3, transaction := some t, lossAge := 64 }
         let x : Station := { demo .member with auth := { Authority.atRest with live := true, tilt := group } }
         x.handoverDue = true ∧ (x.adopt none).auth.live = true
           ∧ (x.tallyHandover agreedWire).auth.tilt.transaction = some { t with stage := .prepare }) := by decide +kernel

theorem witness_WireGivesTheOutcomes :
    (resolveTally true 2 (demoWire 0x04 0 4 360 3 1 9 0 0)).alone = true
      ∧ tallyField (demoWire 0x04 0 4 360 3 1 9 0 0) 26 3 ≤ 4 ∧ 4 < tallyField (demoWire 0x04 0 5 361 3 1 9 0 0) 26 3
      ∧ tallyField (demoWire 0x04 0 4 360 3 1 9 0 0) 29 9 ≤ 360 ∧ 360 < tallyField (demoWire 0x04 0 5 361 3 1 9 0 0) 29 9
      ∧ (resolveTally true 2 (demoWire 4 0 4 360 3 1 55 0 0)).claim = some { group := .steer, urgency := 2, station := 7 }
      ∧ (resolveTally true 2 (demoWire 4 0 4 360 3 1 24 0 0)).claim = none := by decide +kernel

theorem witness_SignaturesClassTheRound :
    tallyField agreedWire 48 16 = 0xFFFF - tallyField agreedWire 64 16
      ∧ tallyField splitWire 48 16 ≠ 0xFFFF - tallyField splitWire 64 16
      ∧ tallyField (demoWire 4 0 4 360 3 1 127 0xFFFF 0xFFFF) 48 16 = 0xFFFF
      ∧ 0xFFFF - tallyField (demoWire 4 0 4 360 3 1 127 0xFFFF 0xFFFF) 64 16 = 0 := by decide +kernel

/-- An adoption entry of station 1, recorded in an agreed round of WALK. -/
def demoEntryOf (traj : TrajFields) (tiltHolders steerHolders : StationSet) : AdoptionEntry :=
  { source := 1, traj := traj, tiltHolders := tiltHolders, tiltEpoch := 9, steerHolders := steerHolders, steerEpoch := 4,
    roundClass := .agreed, mode := .walk, limit := 300, advance := true, demand := 0 }

/-- Trajectory fields at setpoint 0. -/
def demoTraj (mode step repeatLeft elapsed pending : Nat) : TrajFields :=
  { mode := mode, step := step, repeatLeft := repeatLeft, elapsed := elapsed, setpoint := 0, pending := pending }

/-- Station 2 in JOIN with station 1 PRESENT. -/
def joinerBeside : Station :=
  { demo .join with peers := (demo .join).peers.set 1 { PeerRecord.reset .tiltR with state := .present } }

theorem witness_AdoptionEntries :
    joinerBeside.engine.run.engine = .idle ∧ joinerBeside.engine.run.adopted = false
      ∧ (let sh := joinerBeside.params.shared
         modeOfCode 2 = some .walk ∧ (modeAt sh .walk).first ≤ 1 ∧ 1 ≤ (modeAt sh .walk).last
           ∧ 2 ≤ (stepAt sh 1).repeats ∧ 2 < (demoTraj 2 1 2 0 3).pending
           ∧ (demoTraj 1 2 0 65535 7).step = (modeAt sh .park).last ∧ (modeAt sh .park).loop = false)
      ∧ trajProper demoParams.shared (demoTraj 2 1 2 0 3) = true ∧ trajProper demoParams.shared (demoTraj 7 0 0 0 7) = true
      ∧ trajProper demoParams.shared (demoTraj 1 2 0 65535 7) = true
      ∧ trajProper demoParams.shared (demoTraj 2 5 0 0 7) = false
      ∧ joinerBeside.viewFits .tilt 0x02 = true ∧ joinerBeside.viewFits .steer 0x04 = false
      ∧ (let x := withRecord joinerBeside
           { demoRecord 6 0 with adoption := some (demoEntryOf (demoTraj 2 1 2 0 3) 0x02 0) }
         x.handoverDue = true ∧ (resolveTally true x.number agreedWire).roundClass = .agreed
           ∧ (6 : Word16) + 1 = x.bus.roundNumber ∧ (x.tallyHandover agreedWire).engine.run.adopted = true
           ∧ (x.tallyHandover agreedWire).auth.live = true
           ∧ (x.tallyHandover agreedWire).auth.tilt.holders = [{ station := 1, share := 1000 }])
      ∧ (let alone := demoWire 0x04 0 1 300 3 1 127 0xFFFF 0xFFFF
         (resolveTally true 2 alone).roundClass = .memberless ∧ (resolveTally true 2 alone).alone = true)
      ∧ (demo .halted).member.state ≠ .member := by decide +kernel

theorem witness_RecordIsAppliedOrDiscarded :
    let x := withRecord (demo .member) (demoRecord 6 0)
    x.handoverDue = true ∧ x.bus.position ≤ 79 ∧ x.bus.pendingRecord = some (demoRecord 6 0)
      ∧ (resolveTally true x.number splitWire).roundClass = .split ∧ (demoRecord 5 0).tag + 1 ≠ x.bus.roundNumber := by
  decide +kernel

theorem witness_OwnExclusionSilences :
    let x := withRecord (demo .member) (demoRecord 6 0x04)
    x.handoverDue = true ∧ x.bus.position ≤ 79 ∧ isDriving x.member.state = true
      ∧ x.bus.pendingRecord = some (demoRecord 6 0x04) ∧ (demoRecord 6 0x04).tag + 1 = x.bus.roundNumber
      ∧ inSet (demoRecord 6 0x04).exclusions x.number = true
      ∧ (resolveTally true x.number agreedWire).roundClass = .agreed
      ∧ (let h := resolveTally true x.number (demoWire 0x04 0 1 300 3 1 127 0xFFFF 0xFFFF)
         h.roundClass = .memberless ∧ h.alone = true)
      ∧ (let driving : Station :=
           { x with
             bus := { x.bus with round := { x.bus.round with image := some (memberImage true none (some 0x5A3D)) } } }
         let y := driving.tallyHandover agreedWire
         driving.handoverDue = true ∧ y.member.state = .silent ∧ y.txdDominant 0 = true ∧ y.tick.txdDominant 0 = false
           ∧ (x.tallyHandover agreedWire).txdDominant 0 = false) := by decide +kernel

theorem witness_LockEntersAtTheHandover :
    (demo .member).handoverDue = true ∧ (demo .member).bus.position ≤ 79
      ∧ isDriveRole (demo .member).params.role = true ∧ (demo .member).bus.pendingRecord = none
      ∧ (resolveTally true (demo .member).number lockWire).mode = .lock
      ∧ (resolveTally true (demo .member).number agreedWire).mode ≠ .lock := by decide +kernel

theorem witness_JoinConditionsAdmit :
    (let x := { demo .join with
       member := { MembershipUnit.reset with state := .join, joinRounds := 15 }
       meas := { (demo .join).meas with cal := { Calibration.reset with status := .skipped } } }
     x.member.state = .join ∧ 16 ≤ x.member.joinRounds + 1 ∧ memberSet x.bus.held = 0 ∧ faultLevel x.cond ≤ 2
       ∧ x.joinHandover.member.state = .member)
      ∧ (let x := { demo .join with
           bus := { (demo .join).bus with held := { HeldSet.reset with members := 0x03 } }
           member :=
             { MembershipUnit.reset with
               state := .join, joinRounds := 15, verdict := .met, matchCount := 4, keptOwnMatch := true }
           engine := { Engine.reset with run := { RunState.idle with adopted := true } }
           meas := { (demo .join).meas with cal := { Calibration.reset with status := .done } } }
         x.member.state = .join ∧ memberSet x.bus.held = 0x03 ∧ x.joinHandover.member.state = .member
           ∧ ({ x with member := { x.member with matchCount := 3 } } : Station).joinHandover.member.state = .join) := by
  decide +kernel

/-- What a group's handover reads: every station a party, no response, a claim of station 2. -/
def demoInputs (g : Group) (responses : Eight Response) (claimant : Option StationNo) : GroupInputs :=
  { group := g, parties := 0xFF, responses := responses, stopped := false, claimant := claimant }

/-- A transaction of station 2. -/
def demoTrans (stage : Stage) (age : Nat) : Transaction :=
  { claimant := 2, stage := stage, age := age, rampCount := 0, saved := none }

/-- Station 1 as sole holder. -/
def demoGroup (t : Option Transaction) : GroupRecord :=
  { holders := [{ station := 1, share := 1000 }], epoch := 3, transaction := t, lossAge := 64 }

theorem witness_ClaimsAndResponsesMoveTheStage :
    let holders := (demoGroup none).holders
    (let inp := demoInputs .tilt (Eight.fill .none) (some 2)
     (∀ h ∈ holders, inp.lost h.station = false) ∧ (∀ h ∈ holders, h.station ≠ 2) ∧ holders.length < 2 ∧ inp.stopped = false)
      ∧ (∃ h ∈ holders, h.station = 1) ∧ ¬holders.length < 1 ∧ (GroupRecord.vacant).holders = []
      ∧ (let give := demoInputs .tilt ((Eight.fill .none).set 1 .give) none
         give.lost 2 = false ∧ (¬∃ h ∈ holders, give.responses.get h.station = .keep)
           ∧ ∃ h ∈ holders, give.responses.get h.station = .give)
      ∧ (∃ h ∈ holders, (demoInputs .tilt ((Eight.fill .none).set 1 .keep) none).responses.get h.station = .keep)
      ∧ (let ready := demoInputs .tilt ((Eight.fill .none).set 2 .ready) none
         ready.lost 2 = false ∧ ready.responses.get 2 = .ready ∧ ∀ h ∈ holders, ready.lost h.station = false)
      ∧ (let stop : GroupInputs := { demoInputs .tilt ((Eight.fill .none).set 2 .ready) none with stopped := true }
         (groupHandover stop { GroupRecord.vacant with transaction := some (demoTrans .prepare 3) }).closed
           = some (2, .complete)) := by decide +kernel

theorem witness_RampsShareAndEpochsCount :
    (let t : Transaction := { demoTrans .ramp 0 with rampCount := 4, saved := some [{ station := 1, share := 1000 }] }
     t.stage = .ramp ∧ t.claimant = 2 ∧ (1 : StationNo) ≠ t.claimant ∧ t.rampCount + 1 < 10)
      ∧ (demoApply .split .park RunState.idle).applyClass ≠ .agreed
      ∧ (let w : GroupWork := { record := demoGroup none, closed := none }
         ¬(w.record.holders = ((demo .member).auth.group .tilt).holders))
      ∧ (let after := fun (failures : Nat) (c : StationNo) (code : CloseCode) =>
           let x : Station := { demo .member with
             auth := { Authority.atRest with live := true, tiltRetry := { Retry.cleared with failures := failures } } }
           let y := x.commitGroup .tilt { record := demoGroup none, closed := some (c, code) }
           ((y.auth.retry .tilt).failures, (y.auth.retry .tilt).givenUp, y.cond.queue.map (·.key.source))
         (demo .member).number = 2 ∧ after 2 1 .refused = (2, false, []) ∧ after 2 2 .complete = (0, false, [])
           ∧ after 1 2 .refused = (2, false, [1]) ∧ after 2 2 .aborted = (3, true, [5, 0])
           ∧ after 0 2 .noAnswer = (1, false, [2]) ∧ after 0 2 .notReady = (1, false, [3])
           ∧ after 0 2 .withdrawn = (1, false, [4])) := by decide +kernel

/-- A live table with a transaction in TILT. -/
def withTilt (x : Station) (t : Transaction) : Station :=
  { x with auth := { Authority.atRest with live := true, tilt := demoGroup (some t) } }

/-- What a group's handover reads when some stations are no parties. -/
def lossInputs (parties : StationSet) (stopped : Bool) (responses : Eight Response) : GroupInputs :=
  { group := .tilt, parties := parties, responses := responses, stopped := stopped, claimant := none }

theorem witness_GroupLosses :
    (let gone := lossInputs 0xFD false (Eight.fill .none)
     let back := lossInputs 0xFD false ((Eight.fill .none).set 2 .ready)
     gone.lost 1 = true ∧ gone.lost 2 = false ∧ gone.claimant = none ∧ gone.responses.get 2 ≠ .ready
       ∧ back.responses.get 2 = .ready ∧ back.lost 2 = false ∧ back.group = .tilt
       ∧ (demoGroup none).holders = [{ station := 1, share := 1000 }]
       ∧ (groupHandover gone (demoGroup none)).record.holders = []
       ∧ (demoTrans .prepare 14).age < 15 ∧ 15 ≤ (demoTrans .prepare 15).age)
      ∧ (lossInputs 0xFB false (Eight.fill .none)).lost 2 = true
      ∧ (lossInputs 0xFF false ((Eight.fill .none).set 2 .release)).lost 2 = true
      ∧ (let stop := lossInputs 0xFF true (Eight.fill .none)
         stop.lost 2 = false ∧ (∀ h ∈ (demoGroup none).holders, stop.lost h.station = false) ∧ stop.stopped = true
           ∧ ∃ h ∈ (demoGroup none).holders, h.station ≠ 2)
      ∧ (let ramp : GroupRecord :=
           { demoGroup (some { demoTrans .ramp 0 with saved := some [{ station := 1, share := 1000 }] }) with
             holders := [{ station := 1, share := 900 }, { station := 2, share := 100 }] }
         ramp.holders = [{ station := 1, share := 900 }, { station := (demoTrans .ramp 0).claimant, share := 100 }]
           ∧ (groupHandover (lossInputs 0xFD false (Eight.fill .none)) ramp).record.holders =
               [{ station := 2, share := 1000 }]
           ∧ (groupHandover (lossInputs 0xFB false (Eight.fill .none)) ramp).record.holders =
               [{ station := 1, share := 1000 }]) := by decide +kernel

/-- O28: without a loss, an abort or a response the stage waits, up to its limit. -/
theorem witness_StagesWait :
    let inp := demoInputs .tilt (Eight.fill .none) none
    let after := fun (stage : Stage) (age : Nat) =>
      let w := groupHandover inp (demoGroup (some (demoTrans stage age)))
      (w.record.transaction.map (·.age), w.closed)
    inp.lost 2 = false ∧ inp.stopped = false ∧ inp.responses.get 1 ≠ .keep ∧ inp.responses.get 1 ≠ .give
      ∧ inp.responses.get 2 ≠ .ready ∧ (∀ h ∈ (demoGroup none).holders, inp.lost h.station = false)
      ∧ after .answer 2 = (some 3, none) ∧ after .answer 3 = (none, some (2, .noAnswer))
      ∧ after .prepare 14 = (some 15, none) ∧ after .prepare 15 = (none, some (2, .notReady))
      ∧ after .ramp 16 = (some 16, none) := by decide +kernel

/-- O28: the claim and the responses that a handover of station 2 reads. -/
theorem witness_GroupInputs :
    let x := demo .member
    let claims := fun (roundClass : RoundClass) (alone : Bool) (state : StationState) (station : StationNo) =>
      let held := { x.bus.held with claim := some { group := .tilt, urgency := 0, station := station },
                                    roundClass := roundClass, alone := alone }
      (({ x with
        bus := { x.bus with held := held }, member := { x.member with state := state }
        peers := x.peers.set 1 { PeerRecord.reset .tiltR with state := .suspect } } : Station).groupInputs .tilt none).claimant
    let answers := fun (state : StationState) =>
      let inp := ({ x with
        member := { x.member with state := state }
        peers := x.peers.set 1 { PeerRecord.reset .tiltR with state := .present } } : Station).groupInputs .steer
          (some { demoRecord 6 0 with responses := Eight.fill (some (.give, .keep)) })
      (inp.responses.get 0, inp.responses.get 1, inp.responses.get 2)
    claims .agreed false .member 1 = some 1 ∧ claims .agreed false .member 2 = some 2
      ∧ claims .agreed false .halted 2 = none ∧ claims .agreed false .member 0 = none ∧ claims .split true .member 1 = none
      ∧ claims .memberless true .member 2 = some 2 ∧ claims .memberless false .member 2 = none
      ∧ answers .member = (.none, .keep, .keep) ∧ answers .halted = (.none, .keep, .keep) ∧ answers .join = (.none, .keep, .none)
      ∧ ((x.groupInputs .steer none).responses.get 1) = .none := by decide +kernel

/-- Station 2 with a transaction of its own in each group, each failed twice before. -/
def claimingBoth (stage : Stage) (age : Nat) : Station :=
  let group := demoGroup (some (demoTrans stage age))
  let retry : Retry := { Retry.cleared with failures := 2 }
  { demo .member with
    auth :=
      { Authority.atRest with
        live := true, tilt := group, steer := { group with holders := [] }, tiltRetry := retry, steerRetry := retry } }

theorem witness_TransactionsClose :
    let x := withTilt (demo .member) (demoTrans .answer 4)
    x.auth.live = true ∧ takesPart x.member.state = true ∧ (x.auth.group .tilt).transaction = some (demoTrans .answer 4)
      ∧ (x.auth.group Group.tilt.other).transaction = none ∧ 4 ≤ (demoTrans .answer 4).age
      ∧ (demoTrans .answer 4).claimant = x.number ∧ 16 ≤ (demoTrans .prepare 16).age
      ∧ (demo .member).auth.live = false ∧ takesPart (demo .silent).member.state = false
      ∧ (let y := (claimingBoth .prepare 16).limitStage GroupWork.prepareLimit
         y.auth.tilt.transaction = none ∧ y.auth.steer.transaction = none ∧ y.holds .authGiveup 0 = true
           ∧ y.holds .authGiveup 1 = true)
      ∧ ((claimingBoth .answer 3).limitStage GroupWork.answerLimit).auth = (claimingBoth .answer 3).auth := by
  decide +kernel

/-- O28: a claim of the handover that removes a lost holder is tested against what is left. -/
theorem witness_ClaimAfterLoss :
    let two : GroupRecord :=
      { demoGroup none with holders := [{ station := 1, share := 500 }, { station := 3, share := 500 }] }
    let claim := fun (parties : StationSet) =>
      { demoInputs .tilt (Eight.fill .none) (some 2) with parties := parties }
    let opened := fun (parties : StationSet) (r : GroupRecord) =>
      let w := groupHandover (claim parties) r
      (w.record.holders.map (·.share), w.record.lossAge, w.record.transaction.map (·.stage))
    (claim 0xFD).lost 1 = true ∧ opened 0xFD two = ([1000], 0, some .answer)
      ∧ opened 0xFD (demoGroup none) = ([], 0, some .prepare) ∧ opened 0xFF two = ([500, 500], 64, none) := by
  decide +kernel

theorem tableSound_reset : ConditionUnit.reset.tableSound := by
  refine ⟨by decide, by decide, ?_, ?_, ?_, ?_⟩ <;> simp [ConditionUnit.reset]

/-- Station 2 in MEMBER with a live table and some TILT holders. -/
def liveWith (holders : List Holder) : Station :=
  { demo .member with
    auth := { Authority.atRest with live := true, tilt := { GroupRecord.vacant with holders := holders } } }

theorem witness_GroupConditions :
    let x := liveWith []
    x.cond.tableSound ∧ x.auth.live = true ∧ x.handoverDue = true ∧ (x.tallyHandover agreedWire).auth.live = true
      ∧ (x.groupConds.holds .tiltVacant 0, x.groupConds.holds .tiltSole 0, x.groupConds.holds .steerVacant 0)
          = (true, false, true)
      ∧ (let y := (liveWith [{ station := 1, share := 1000 }]).groupConds
         (y.holds .tiltVacant 0, y.holds .tiltSole 0) = (false, true))
      ∧ (let y := (liveWith [{ station := 1, share := 500 }, { station := 2, share := 500 }]).groupConds
         (y.holds .tiltVacant 0, y.holds .tiltSole 0) = (false, false))
      ∧ (let y : Station := { x with params := { x.params with role := .steer } }
         y.groupConds.holds .tiltVacant 0 = false
           ∧ ({ y with peers := y.peers.set 1 { PeerRecord.reset .tiltR with state := .suspect } } : Station).groupConds.holds
               .tiltVacant 0 = true)
      ∧ (demo .member).auth.live = false :=
  ⟨tableSound_reset, by decide +kernel⟩

theorem witness_GivenUp :
    let own : Transaction := { demoTrans .answer 4 with claimant := 2 }
    let x : Station := { withTilt (demo .member) own with
      auth := { (withTilt (demo .member) own).auth with tiltRetry := { Retry.cleared with failures := 2 } } }
    x.cond.tableSound ∧ x.auth.live = true ∧ (x.limitStage GroupWork.answerLimit).auth.tiltRetry.givenUp = true
      ∧ (x.limitStage GroupWork.answerLimit).holds .authGiveup 0 = true :=
  ⟨tableSound_reset, by decide +kernel⟩

theorem witness_SplitViewFollowsTheSplitCount :
    (demo .member).cond.tableSound ∧ (demoApply .split .park RunState.idle).bus.held.roundClass = .split
      ∧ (demoApply .agreed .park RunState.idle).bus.held.roundClass = .agreed
      ∧ (let after := fun (count : Nat) (wire : BitVec 70) =>
           let x : Station := { demo .member with engine := { Engine.reset with splitCount := count } }
           let y := (x.splitView).tallyHandover wire
           (y.engine.splitCount, y.holds .splitView 0, y.bus.round.handed)
         after 2 splitWire = (3, true, true) ∧ after 1 splitWire = (2, false, true) ∧ after 3 agreedWire = (0, false, true)
           ∧ after 3 (demoWire 0 0 1 300 3 1 127 0xFFFF 0xFFFF) = (3, true, true)) :=
  ⟨tableSound_reset, rfl, rfl, by decide +kernel⟩

/-- Station 2 with a record of a peer in a state. -/
def withPeer (k : StationNo) (r : PeerRecord) : Station := { demo .member with peers := (demo .member).peers.set k r }

/-- A record in a state, with its absent rounds and recover counts. -/
def demoPeer (state : PeerState) (absentRounds recover : Nat) : PeerRecord :=
  { PeerRecord.reset .steer with state := state, absentRounds := absentRounds, recover := recover, lastHeard := some 7 }

theorem witness_PeerRecordsMoveAtTheirCounts :
    (let x := withPeer 0 (demoPeer .present 3 0)
     (0 : StationNo) ≠ x.number ∧ 3 ≤ (x.peers.get 0).absentRounds ∧ (x.peers.get 0).state = .present)
      ∧ ((withPeer 0 (demoPeer .excluded 3 0)).peers.get 0).state = .excluded
      ∧ ((withPeer 0 (demoPeer .present 2 0)).peers.get 0).absentRounds < 3
      ∧ 32 ≤ ((withPeer 0 (demoPeer .suspect 0 32)).peers.get 0).recover
      ∧ ((withPeer 0 (demoPeer .suspect 0 30)).peers.get 0).recover < 31
      ∧ (let heard : Station :=
           { withPeer 0 (demoPeer .suspect 0 30) with
             bus :=
               { (demo .member).bus with
                 round :=
                   { (demo .member).bus.round with
                     slots := (Eight.fill none).set 0 (some (.received (demoReport 0))) } } }
         heard.wasReceived 0 = true ∧ heard.suspectCause 0 = false)
      ∧ (withPeer 0 (demoPeer .suspect 0 30)).wasReceived 0 = false
      ∧ (withPeer 0 { demoPeer .present 0 0 with missed := 2 }).suspectCause 0 = true := by decide +kernel

theorem witness_OwnFrameIsCompared :
    let x := demo .member
    isDriving x.member.state = true ∧ x.bus.round.recognised = true ∧ x.bus.round.abandoned = false
      ∧ x.bus.round.ownSlot = .notBegun ∧ x.bus.position ≤ 100 + 256 * x.number.val ∧ x.cond.queue = []
      ∧ (let frame := encodeReport x.buildReport
         (246 : Nat) < 247 ∧ frame.getMsbD 246 ≠ (frame ^^^ 1#247).getMsbD 246
           ∧ ∀ j ∈ List.range 246, frame.getMsbD j = (frame ^^^ 1#247).getMsbD j) := by decide +kernel

theorem witness_OwnFrameFields :
    let answering := fun (t : Transaction) (r : List Holder) (mode : Mode) (flt : Bool) =>
      let x := demo .member
      let group : GroupRecord := { holders := r, epoch := 3, transaction := some t, lossAge := 64 }
      ({ x with
        auth := { Authority.atRest with live := true, tilt := group }
        drive := { x.drive with fltSeen := flt }, pins := { x.pins with drvFlt := flt }
        meas := { x.meas with latest := { MeasSet.reset with ownLean := some 3, leanSource := .leanA } }
        bus := { x.bus with held := { x.bus.held with mode := mode } } } : Station)
    let own : List Holder := [{ station := 2, share := 1000 }]
    let asked : Transaction := { demoTrans .answer 0 with claimant := 1 }
    (answering asked own .walk true).buildReport.tiltResponse = 4
      ∧ (answering asked own .lock false).buildReport.tiltResponse = 3
      ∧ (answering asked own .walk false).buildReport.tiltResponse = 2
      ∧ (answering (demoTrans .prepare 0) [] .walk false).buildReport.tiltResponse = 1
      ∧ (answering (demoTrans .answer 0) [] .walk false).buildReport.tiltResponse = 0
      ∧ (answering (demoTrans .ramp 0) [] .walk false).buildReport.tiltView.stage = 3
      ∧ (demo .member).auth.live = false
      ∧ (let told : ConditionUnit := raiseEvent ConditionUnit.reset { code := .busFault, source := 1 } 3
         let x : Station := { demo .member with cond := told, engine := { Engine.reset with run := demoRun .running .walk 1 7 } }
         (x.cond.queue.map (·.key)) = [{ code := .busFault, source := 1 }] ∧ x.buildReport.condSource = 1
           ∧ x.engine.run.engine ≠ .idle ∧ x.buildReport.traj.elapsed = 7)
      ∧ (let keeping : Params := { demoParams with
           shared := { demoParams.shared with
             library := demoParams.shared.library.set 1 { StepDef.blank with kind := .hold, keepAuthority := true } } }
         let x : Station := { answering asked own .walk false with
           params := keeping, engine := { Engine.reset with run := demoRun .running .walk 1 0 } }
         x.buildReport.tiltResponse = 3
           ∧ ({ x with engine := { Engine.reset with run := demoRun .complete .walk 1 0 } } : Station).buildReport.tiltResponse
               = 2) := by decide +kernel

/-- Station 2 with its frame sent. -/
def sending (clashes : Nat) (mismatch : Option Nat) : Station :=
  let x := demoAt .member 612
  { x with
    bus :=
      { x.bus with clashCount := clashes, round := { x.bus.round with ownSlot := .sending 0 (demoReport 2) mismatch } } }

/-- R17, R18: a frame of zeros is dominant up to its first mismatch, and at no position past its last bit. -/
theorem witness_FrameLevels :
    let level := fun (mismatch : Option Nat) (position : Nat) =>
      let x := sending 0 mismatch
      ({ x with bus := { x.bus with position := position } } : Station).txdDominant 0
    (sending 0 none).bus.mark = none ∧ [611, 612, 858, 859].map (level none) = [false, true, true, false]
      ∧ [612, 622, 623, 858].map (level (some 10)) = [true, true, false, false]
      ∧ (abandonedAt (sending 0 none) 612).txdDominant 0 = false ∧ (demoAt .member 612).bus.round.ownSlot = .notBegun := by
  decide +kernel

theorem witness_OwnSlotEndCountsClashes :
    (sending 2 (some 10)).bus.round.ownSlot = .sending 0 (demoReport 2) (some 10)
      ∧ (sending 2 (some 10)).bus.position ≤ 100 + 256 * (sending 2 (some 10)).number.val + 255
      ∧ (sending 1 (some 10)).bus.clashCount < 2 ∧ 2 ≤ (sending 2 (some 10)).bus.clashCount
      ∧ (let clashed := sending 3 none
         80 ≤ clashed.bus.position ∧ clashed.txdDominant 0 = true ∧ clashed.clashSilence.txdDominant 0 = true
           ∧ clashed.clashSilence.tick.txdDominant 0 = false)
      ∧ isDriving (sending 2 (some 10)).member.state = true ∧ (sending 2 (some 10)).bus.round.abandoned = false
      ∧ (abandonedAt (sending 2 (some 10)) 700).bus.round.abandoned = true
      ∧ (abandonedAt (sending 2 (some 10)) 700).ownSlotEnd.bus.clashCount = 2
      ∧ (sending 0 none).bus.round.ownSlot = .sending 0 (demoReport 2) none ∧ 3 ≤ (sending 3 none).bus.clashCount
      ∧ (let told := fun (held sent : Nat) (dropped : Bool) =>
           let c := reportTold { ConditionUnit.reset with
             queue := [{ key := { code := .busFault, source := 0 }, count := held }], overflow := true, dropped := dropped }
             sent true
           (c.queue.map (·.count), c.overflow)
         told 3 0 false = ([3], false) ∧ told 3 2 false = ([1], false) ∧ told 3 3 false = ([], false)
           ∧ told 3 3 true = ([], true)) := by decide +kernel

/-- Slot 0 with activity. -/
def active (x : Station) : Station :=
  { x with bus := { x.bus with round := { x.bus.round with activity := (Eight.fill false).set 0 true } } }

/-- Every field of a report at an end of its range. -/
def edgeReport (low : Bool) : Report :=
  let signed := fun half : Int => if low then -half else half - 1
  let plain := fun n : Nat => if low then 0 else n
  { station := plain 7, seq := !low, state := plain 7, role := plain 7, digest := BitVec.ofNat 16 (plain 65535)
    lean := signed 512, leanRate := signed 2048, secondary := signed 2048, speed := plain 4095, demand := signed 512
    effort := signed 1024
    traj :=
      { mode := plain 7, step := plain 31, repeatLeft := plain 15, elapsed := plain 65535, setpoint := signed 512
        pending := plain 7 }
    propMode := plain 7, propLimit := plain 511, propFault := plain 3, suspects := BitVec.ofNat 8 (plain 255)
    tiltView := { holders := BitVec.ofNat 8 (plain 255), stage := plain 7, rampCount := plain 127, epoch := 1 }
    steerView := { holders := 2, stage := plain 7, rampCount := plain 127, epoch := BitVec.ofNat 8 (plain 255) }
    tiltResponse := plain 7, steerResponse := plain 7, staleScan := !low, calDone := !low, condCode := plain 63
    condSource := plain 15, condCount := plain 15, overflow := !low }

/-- Table 14-2: a report with every field at an end of its range is read back, and its lean stands at bits 26 to 35. -/
theorem witness_FrameLayout :
    decodeReport (encodeReport (edgeReport true)) = edgeReport true
      ∧ decodeReport (encodeReport (edgeReport false)) = edgeReport false
      ∧ ((List.range 10).map fun i => (encodeReport (edgeReport true)).getMsbD (26 + i)) = true :: List.replicate 9 false
      ∧ readLean (edgeReport true) = none ∧ readSpeed (edgeReport false) = none ∧ readSecondary (edgeReport true) = none
      ∧ readDemand (demoReport 0) = none ∧ readDemand { demoReport 0 with demand := 360 } = some 360 := by decide +kernel

theorem witness_SlotIsClassed :
    let x := active (demo .member)
    takesPart x.member.state = true ∧ x.bus.round.recognised = true ∧ x.bus.round.abandoned = false
      ∧ x.bus.round.slots.get 0 = none ∧ (0 : StationNo) ≠ x.number ∧ x.bus.position ≤ 100 + 256 * 0 + 255
      ∧ x.bus.round.activity.get 0 = true ∧ x.bus.round.activity.get 1 = false
      ∧ checkHolds (encodeReport (demoReport 0)) = true
      ∧ fieldOf 247 (encodeReport (demoReport 0)).toNat 0 3 = 0 ∧ checkHolds 0 = false
      ∧ (demo .quiet).member.state = .quiet := by decide +kernel

theorem witness_SectionHandsOn :
    let x := demo .member
    takesPart x.member.state = true ∧ x.bus.round.recognised = true ∧ x.bus.round.abandoned = false
      ∧ x.bus.round.sectionDone = false ∧ x.bus.position ≤ 2147 ∧ x.bus.round.slots.get 0 = none
      ∧ (abandonedAt x 40).bus.round.abandoned = true ∧ (abandonedAt x 40).bus.round.sectionDone = false
      ∧ (let round := { x.bus.round with slots := Eight.fill (some SlotClass.silent) }
         let y : Station := { x with bus := { x.bus with round := round } }
         y.bus.round.recognised = true ∧ ∀ k ∈ allStations, (y.bus.round.slots.get k).isSome = true)
      ∧ (let y := demo .join
         let held := { HeldSet.reset with members := 0x03 }
         let heardOne := fun f : Report =>
           { y with
             bus :=
               { y.bus with
                 held := held
                 round :=
                   { y.bus.round with slots := (Eight.fill (some SlotClass.silent)).set 1 (some (.received f)) } } }
         let z := heardOne (demoReport 1)
         let open_ : Report := { demoReport 1 with tiltView := { (demoReport 1).tiltView with stage := 1 } }
         z.member.state = .join ∧ z.engine.run.adopted = false ∧ inSet (memberSet z.bus.held) 1 = true
           ∧ z.bus.round.slots.get 1 = some (.received (demoReport 1)) ∧ z.bus.round.slots.get 0 = some .silent
           ∧ setSize (demoReport 1).tiltView.holders ≤ 2 ∧ setSize (demoReport 1).steerView.holders ≤ 1
           ∧ (z.adoptionEntry.map (·.source)) = some 1 ∧ open_.tiltView.stage ≠ 0
           ∧ (heardOne open_).adoptionEntry = none
           ∧ ({ z with bus := { z.bus with held := HeldSet.reset } } : Station).adoptionEntry = none) := by decide +kernel

/-- Station 2 at the end of a section in which station 1 was heard, with its record of station 1. -/
def sectionOf (state : StationState) (adopted : Bool) (r : PeerRecord) (f : Option Report) : Station :=
  let x := demo state
  let heard : SlotClass := match f with | some f => .received f | none => .silent
  { x with
    bus :=
      { x.bus with
        held := { HeldSet.reset with members := 0x06 }
        round := { x.bus.round with slots := (Eight.fill (some SlotClass.silent)).set 1 (some heard) } }
    peers := x.peers.set 1 r
    engine := { x.engine with run := { x.engine.run with adopted := adopted } } }

theorem witness_SectionWork :
    let present := { PeerRecord.reset .tiltR with state := .present }
    let f := { demoReport 1 with role := 2 }
    let after := fun (r : PeerRecord) (f : Option Report) => (sectionOf .member false r f).reportSectionEnd
    ((after present (some f)).peers.get 1).lastReport = some f ∧ ((after present (some f)).peers.get 1).state = .present
      ∧ ((after present none).peers.get 1).missed = 1
      ∧ ((after { present with missed := 1 } none).peers.get 1).state = .suspect
      ∧ ((after { present with missed := 14, lastReport := some f } none).peers.get 1).lastReport = none
      ∧ ((after { PeerRecord.reset .tiltR with state := .joining } (some f)).peers.get 1).state = .present
      ∧ ((after { present with expectedSeq := some true, stale := 1 } (some f)).peers.get 1).stale = 2
      ∧ ((after { present with state := .suspect, recover := 31 } (some f)).peers.get 1).state = .present
      ∧ ((after { present with state := .suspect, recover := 30 } (some f)).peers.get 1).recover = 31
      ∧ (after present (some { f with role := 1 })).holds .roleMismatch 1 = true
      ∧ (after present (some { f with digest := 1 })).holds .configDiffers 1 = true
      ∧ (let joiner := fun (adopted : Bool) (f : Option Report) => (sectionOf .join adopted present f).reportSectionEnd
         (joiner true (some f)).member.verdict = .met ∧ (joiner true (some f)).member.matchCount = 1
           ∧ (joiner true (some { f with digest := 1 })).member.verdict = .failed
           ∧ (joiner true (some { f with traj := demoTraj 2 1 2 0 3 })).member.dropPending = true
           ∧ (joiner false (some f)).member.matchCount = 0
           ∧ (joiner true (some { f with speed := 90 })).meas.cal.heard = some [90])
      ∧ ((sectionOf .quiet true present (some f)).reportSectionEnd).member.matchCount = 1
      ∧ reference [3, 1] = none ∧ reference [3, 1, 2] = some 2 ∧ reference [7, 1, 2, 4] = some 3
      ∧ (let set := { MeasSet.reset with ownLean := some 9, leanSource := .leanA }
         let x := sectionOf .member false { present with leanDisagree := 2 } (some { f with lean := 60 })
         let y : Station := { x with meas := { x.meas with snapshot := set, stale := false } }
         y.leanBase = some 9 ∧ y.leanOf 1 = some 60 ∧ (y.reportSectionEnd.peers.get 1).leanDisagree = 3
           ∧ (y.reportSectionEnd.peers.get 1).state = .suspect)
      ∧ (let speedOf := fun role : Role =>
           let x := sectionOf .member false { PeerRecord.reset role with state := .present } (some { f with speed := 90 })
           ({ x with meas := { x.meas with stale := false } } : Station).speedOf 1
         [Role.tiltL, .tiltR, .speed, .steer, .steerB, .frame].map speedOf
           = [some 90, some 90, some 90, none, none, none]) := by decide +kernel

theorem witness_ApplyPointClampsAndProposes :
    let x := demoApply .agreed .walk (demoRun .running .walk 1 0)
    takesPart x.member.state = true ∧ x.bus.round.opening ≠ .noRound ∧ x.bus.round.applied = false
      ∧ x.bus.position ≤ x.params.own.applyAt ∧ x.params.own.applyAt ≤ 2480
      ∧ (demo .halted).member.state = .halted := by decide +kernel

theorem witness_ApplyPointWork :
    let x := demoApply .agreed .walk (demoRun .running .walk 1 0)
    let proposes := fun y : Station => (y.applyPoint true).cond.proposal
    (({ x with member := { x.member with dropPending := true } } : Station).applyPoint false).engine.run = RunState.idle
      ∧ x.drive.output = .off ∧ (x.applyPoint false).drive.output = .rampUp
      ∧ (({ x with pins := { x.pins with drvFlt := true } } : Station).applyPoint false).drive.output = .off
      ∧ (let live : Station := { x with auth := { Authority.atRest with live := true } }
         (proposes live).map (·.claim) = some 10
           ∧ (live.applyPoint false).auth.tilt.lossAge = 64
           ∧ (proposes { live with auth := { live.auth with tiltRetry := { live.auth.tiltRetry with backoff := 3 } } }).map
               (·.claim) = some 127)
      ∧ (let steer : Station := { x with params := { x.params with role := .steer } }
         let rolling := fun v : Nat =>
           ({ steer with meas := { steer.meas with latest := { MeasSet.reset with ownSpeed := some v } } } : Station)
         (proposes (rolling 100)).map (·.mode) = some .park ∧ (proposes (rolling 700)).map (·.mode) = some .free
           ∧ (proposes (rolling 700)).map (·.limit) = some 220)
      ∧ (let live : Station := { x with auth := { Authority.atRest with live := true } }
         (live.applyPoint false).auth.live = true ∧ (live.applyPoint false).holds .tiltVacant 0 = true)
      ∧ (let entry := demoEntryOf (demoTraj 2 1 0 0 7) 0 0
         let y := withRecord { x with engine := { x.engine with lastDemand := 5 } }
           { demoRecord 7 0 with adoption := some { entry with demand := 9 } }
         (y.applyPoint false).engine.demand = 5
           ∧ (y.applyPoint false).bus.pendingRecord = some { demoRecord 7 0 with adoption := some { entry with demand := 5 } })
      ∧ (let lost := fun (count : Nat) (heardIn : Word16) (held : Nat) =>
           let source : PeerRecord :=
             { PeerRecord.reset .steer with
               state := .present, lastReport := some { demoReport 0 with demand := 7 }, lastHeard := some heardIn }
           let y : Station :=
             { x with
               engine := { x.engine with holdCount := count }, peers := x.peers.set 0 source
               cond := holdCond x.cond { code := .demandLost, source := held } 1 }
           (List.range 9).filter fun n => (y.applyPoint false).holds .demandLost n
         lost 24 6 3 = [3] ∧ lost 25 6 8 = [0] ∧ lost 26 7 8 = [])
      ∧ x.applyClass = .agreed ∧ (demo .member).applyClass = .abandoned
      ∧ x.demandSource = none
      ∧ (let sources := fun (first second : PeerState) (primary : StationNo) =>
           ({ x with
             params := { x.params with shared := { x.params.shared with demandPrimary := primary } }
             peers := (x.peers.set 0 { PeerRecord.reset .steer with state := first }).set 5
               { PeerRecord.reset .speed with state := second } } : Station).demandSource
         sources .suspect .present 0 = some 0 ∧ sources .excluded .present 0 = some 5 ∧ sources .absent .joining 0 = none
           ∧ sources .present .present 2 = some 2) := by decide +kernel

theorem witness_UnagreedRoundSuspends :
    let x := demoApply .split .walk (demoRun .running .walk 1 0)
    takesPart x.member.state = true ∧ x.bus.round.opening ≠ .noRound ∧ x.bus.round.applied = false
      ∧ x.bus.position ≤ x.params.own.applyAt ∧ x.params.own.applyAt ≤ 2480 ∧ x.applyClass ≠ .agreed
      ∧ x.member.dropPending = false := by decide +kernel

/-- A library whose step 4 is a TRACK of duration 0. -/
def endlessTrack : Params :=
  { demoParams with
    shared :=
      { demoParams.shared with
        library := demoParams.shared.library.set 4 { StepDef.blank with kind := .track, rate := 10, band := 1 } } }

theorem witness_RunningStepsMove :
    (let x := fun (engine : EngineState) (step elapsed : Nat) =>
       demoApply .agreed .walk (demoRun engine .walk step elapsed)
     let st := stepAt demoParams.shared
     (x .running 1 0).applyClass = .agreed ∧ (x .running 1 0).member.dropPending = false
       ∧ (x .running 1 0).engine.run.mode = some (x .running 1 0).bus.held.mode
       ∧ (x .running 1 0).bus.position ≤ (x .running 1 0).params.own.applyAt
       ∧ (st 1).kind = .ramp ∧ (st 1).rate < ((100 : Int) - (x .suspended 1 0).engine.run.setpoint).natAbs
       ∧ (x .suspended 1 65533).engine.run.elapsed + 1 < 65535
       ∧ (st 2).kind = .settle ∧ (x .running 2 78).bus.held.advance = false ∧ 78 + 1 < (st 2).duration
       ∧ (st 3).kind = .hold ∧ 8 + 1 < (st 3).duration ∧ (st 3).syncEnd = true
       ∧ (st 4).kind = .track ∧ (st 4).duration ≠ 0 ∧ 8 + 1 < (st 4).duration ∧ (st 4).syncEnd = true)
      ∧ (let x := demoApply .agreed .lock (demoRun .frozen .lock 0 0)
         x.engine.run.engine = .frozen ∧ x.engine.run.mode = some x.bus.held.mode ∧ x.applyClass = .agreed)
      ∧ (stepAt endlessTrack.shared 4).kind = .track ∧ (stepAt endlessTrack.shared 4).duration = 0 := by decide +kernel

/-- The run state after an apply point of an agreed round. -/
def ranTo (mode : Mode) (advance : Bool) (run : RunState) : RunState :=
  let x := demoApply .agreed mode run
  (({ x with bus := { x.bus with held := { x.bus.held with advance := advance } } } : Station).applyPoint false).engine.run

/-- An engine state with its mode, step and elapsed. -/
def shows (r : RunState) : EngineState × Option Mode × Nat × Nat := (r.engine, r.mode, r.step, r.elapsed)

/-- The intake of an agreed MODE. -/
theorem witness_ModesAreTakenIn :
    shows (ranTo .walk false RunState.idle) = (.running, some .walk, 1, 1)
      ∧ shows (ranTo .walk false (demoRun .complete .park 2 65535)) = (.running, some .walk, 1, 1)
      ∧ shows (ranTo .park false (demoRun .complete .park 2 65535)) = (.complete, some .park, 2, 65535)
      ∧ shows (ranTo .park false (demoRun .suspended .walk 3 5)) = (.running, some .park, 1, 1)
      ∧ (ranTo .guided false (demoRun .running .walk 3 5)).pending = some .guided
      ∧ (ranTo .walk false { demoRun .running .walk 3 5 with pending := some .guided }).pending = none
      ∧ (({ demoApply .agreed .walk RunState.idle with member := { MembershipUnit.reset with state := .join } }
          : Station).applyPoint false).engine.run = RunState.idle := by decide +kernel

/-- The ends of steps, each at its first apply point, and the five ways on. -/
theorem witness_StepsEnd :
    let near := fun v : Int => { demoRun .running .walk 1 3 with setpoint := v }
    [ranTo .walk true (demoRun .running .walk 3 8), ranTo .walk true (demoRun .running .walk 3 9),
      ranTo .walk false (demoRun .running .walk 3 9), ranTo .walk false (demoRun .running .walk 3 65534),
      ranTo .walk false (near 94), ranTo .walk false (near 95), ranTo .walk false { near 95 with repeatLeft := 1 },
      ranTo .walk true (demoRun .running .walk 4 9), ranTo .park true (demoRun .running .park 2 0),
      ranTo .park false (demoRun .running .park 2 78), ranTo .park false (demoRun .running .park 2 79),
      ranTo .free true (demoRun .running .park 2 0)].map shows
    = [(.running, some .walk, 3, 9), (.running, some .walk, 4, 0),
      (.running, some .walk, 3, 10), (.running, some .walk, 4, 0),
      (.running, some .walk, 1, 4), (.running, some .walk, 2, 0), (.running, some .walk, 1, 0),
      (.running, some .walk, 1, 0), (.complete, some .park, 2, 65535),
      (.running, some .park, 2, 79), (.complete, some .park, 2, 65535),
      (.running, some .free, 4, 0)] := by decide +kernel

theorem witness_PassEndsAndModesStartSteps :
    ({ demoRun .running .walk 2 0 with pending := some .free } : RunState).pending = some .free
      ∧ 0 < ({ demoRun .running .walk 1 0 with repeatLeft := 2 } : RunState).repeatLeft
      ∧ (demoRun .running .walk 2 0).step < (modeAt demoParams.shared .walk).last
      ∧ (modeAt demoParams.shared .walk).last ≤ (demoRun .running .walk 4 0).step
      ∧ (modeAt demoParams.shared .walk).loop = true
      ∧ (modeAt demoParams.shared .park).last ≤ (demoRun .running .park 2 0).step
      ∧ (modeAt demoParams.shared .park).loop = false
      ∧ modeCode .park < modeCode .walk ∧ modeCode .walk < modeCode .guided
      ∧ (demoRun .suspended .walk 1 0).engine = .suspended ∧ (demoRun .running .walk 1 0).mode = some .walk
      ∧ (demoRun .complete .park 2 65535).engine = .complete ∧ (demoRun .frozen .lock 0 0).mode ≠ some .park
      ∧ RunState.idle.engine = .idle := by decide +kernel

theorem witness_SyncEndStepsTimeOutAndAskReadiness :
    (let x := fun step elapsed => demoApply .agreed .walk (demoRun .running .walk step elapsed)
     takesPart (x 2 80).member.state = true ∧ (x 2 80).applyClass = .agreed ∧ (x 2 80).engine.run.engine = .running
       ∧ (x 2 80).bus.held.advance = false ∧ (stepAt demoParams.shared 2).kind = .settle
       ∧ (stepAt demoParams.shared 2).duration ≤ (x 2 80).engine.run.elapsed
       ∧ (stepAt demoParams.shared 3).kind = .hold ∧ (stepAt demoParams.shared 3).syncEnd = true
       ∧ 65535 ≤ (x 3 65535).engine.run.elapsed ∧ (stepAt demoParams.shared 4).kind = .track
       ∧ (stepAt demoParams.shared 4).duration ≠ 0 ∧ (stepAt demoParams.shared 4).syncEnd = true)
      ∧ (let at_ := fun lean : Int => { MeasSet.reset with ownLean := some lean, leanSource := .leanA }
         let e := fun engine => { Engine.reset with run := demoRun engine .walk 2 0, readinessCount := 3 }
         ((8 : Int) - (e .running).run.setpoint).natAbs ≤ (stepAt demoParams.shared 2).band
           ∧ ¬(((9 : Int) - (e .running).run.setpoint).natAbs ≤ (stepAt demoParams.shared 2).band)
           ∧ (at_ 8).leanSource = .leanA ∧ (e .suspended).run.engine = .suspended
           ∧ ((e .running).formReadiness demoParams.shared (at_ 8)).ready = true
           ∧ ((e .running).formReadiness demoParams.shared (at_ 9)).readinessCount = 0
           ∧ ((e .suspended).formReadiness demoParams.shared (at_ 8)).ready = false
           ∧ MeasSet.reset.leanSource = .none ∧ (stepAt demoParams.shared 1).syncEnd = false) := by decide +kernel

/-- The demand lost for 26 apply points. -/
def demandless : Station := { demo .member with engine := { Engine.reset with holdCount := 26 } }

theorem witness_DemandIsLost :
    takesPart demandless.member.state = true ∧ demandless.params.shared.demandHold < demandless.engine.holdCount
      ∧ demandless.cond.tableSound
      ∧ (demandless.peers.get 0).state = .absent ∧ (demandless.peers.get 5).state = .absent
      ∧ (demandless.params.shared.demandPrimary, demandless.params.shared.demandSecondary) = (0, 5) ∧ demandless.number = 2
      ∧ (let lost := fun k : StationNo =>
           let x : Station := { demandless with peers := demandless.peers.set k { PeerRecord.reset .steer with state := .suspect } }
           (List.range 9).filter fun n => x.demandLost.holds .demandLost n
         lost 0 = [0] ∧ lost 5 = [5] ∧ lost 1 = [8]) :=
  ⟨by decide +kernel, by decide +kernel, tableSound_reset, by decide +kernel⟩

/-- A drive in a state. -/
def demoDrive (output : OutputState) (lockRamp release : Nat) : Drive :=
  { Drive.reset with output := output, lockRamp := lockRamp, release := release }

theorem witness_LockRampAndReleaseEnd :
    (demoDrive .rampDown 0 0).lockRamp = 0 ∧ demoParams.shared.lockRamp ≤ (demoDrive .rampUp 10 0).lockRamp
      ∧ (let x := { demoApply .agreed .park RunState.idle with drive := demoDrive .active 10 10 }
         x.drive.output = .active ∧ x.params.shared.releaseHold ≤ x.drive.release ∧ isTiltRole x.params.role = true
           ∧ x.member.state = .member ∧ x.bus.held.mode ≠ .lock)
      ∧ (demoDrive .active 10 9).release < demoParams.shared.releaseHold := by decide +kernel

theorem witness_LockSteps :
    (demoDrive .rampDown 1 0).output = .rampDown ∧ demoParams.shared.lockRamp ≤ (demoDrive .rampUp 9 0).lockRamp + 1
      ∧ ¬(demoParams.shared.lockRamp ≤ (demoDrive .rampUp 8 0).lockRamp + 1) := by decide +kernel

theorem witness_LawsGiveTheTarget :
    isTiltRole (demo .member).params.role = true ∧ (demo .member).meas.latest.ownLean = none
      ∧ (let set := { MeasSet.reset with ownLean := some 96, leanSource := .leanA }
         let x : Station := { demo .member with meas := { (demo .member).meas with latest := set } }
         isTiltRole x.params.role = true ∧ x.meas.latest.ownLean = some 96)
      ∧ isTiltRole ({ demo .member with params := { demoParams with role := .steer } } : Station).params.role = false
      ∧ (let own : StationSection :=
           { demoParams.own with
             channels := demoParams.own.channels.set 1 { demoParams.own.channels.get 1 with quantity := .steerTorque } }
         let heard : PeerRecord :=
           { PeerRecord.reset .tiltR with
             state := .suspect, lastReport := some { demoReport 1 with lean := -32 }, lastHeard := some 7 }
         let set := { MeasSet.reset with channels := (Eight.fill none).set 1 (some 100) }
         let x : Station :=
           { demo .member with
             params := { demoParams with role := .steer, own := own }, peers := (demo .member).peers.set 1 heard
             meas := { (demo .member).meas with latest := set }
             auth := { Authority.atRest with steer := { GroupRecord.vacant with holders := [{ station := 2, share := 500 }] } } }
         x.driveTarget = 66) := by
  decide +kernel

theorem witness_EffortSlewsThenIsLimited :
    slewAndLimit 50 600 64 0 = 50 ∧ slewAndLimit 50 600 50 0 = 50 ∧ slewAndLimit 50 30 64 0 = 30
      ∧ slewAndLimit 50 30 (-64) 0 = -30 := by decide +kernel

theorem witness_DisableHalts :
    (demo .member).member.state ≠ .load ∧ (demo .member).member.state ≠ .configFault
      ∧ (demo .halted).member.state ≠ .load ∧ (demo .member).bus.position < 5
      ∧ (let x := fun (state : StationState) (output : OutputState) =>
           ({ demo state with drive := { Drive.reset with output := output } } : Station).drvEn
         [OutputState.off, .locked, .rampUp, .active, .rampDown].map (x .member) = [false, false, true, true, true]
           ∧ x .halted .active = false)
      ∧ (demo .member).pins.disable = false ∧ (demo .member).cond = ConditionUnit.reset := by decide

theorem witness_DriveFaultCutsTheDrive :
    isDriveRole (demo .member).params.role = true ∧ (demo .member).member.state ≠ .load
      ∧ (demo .member).member.state ≠ .configFault ∧ (demo .member).bus.position < 5
      ∧ isDriveRole ({ demo .member with params := { demoParams with role := .speed } } : Station).params.role = false := by
  decide

theorem witness_ConversionWritesItsChannel :
    timerRuns (scanning .member .run [⟨0, false⟩, ⟨1, false⟩]).member.state = true
      ∧ (scanning .join .calibration [⟨1, true⟩, ⟨0, false⟩]).meas.scan =
          some { list := .calibration, left := [⟨1, true⟩, ⟨0, false⟩], written := [], elapsed := 250 }
      ∧ (scanning .join .calibration [⟨1, true⟩, ⟨0, false⟩]).isDifferential 1 = true
      ∧ timerRuns (scanning .silent .run [⟨0, false⟩, ⟨1, false⟩]).member.state = false
      ∧ (scanning .member .run [⟨0, false⟩]).meas.scan =
          some { list := .run, left := [⟨0, false⟩], written := [], elapsed := 250 }
      ∧ ((scanning .member .run [⟨0, false⟩]).conversionEnd 2160).meas.latest.channels.get 0 = some 157
      ∧ (demo .member).meas.scan = none := by decide +kernel

/-- Station 2 with both lean channels mapped, its scan of them done with two values, and the pair run count. -/
def pairScanned (u v : Int) (pairRun : Nat) : Station :=
  let lean : ChannelConfig := demoParams.own.channels.get 0
  let own : StationSection :=
    { demoParams.own with channels := demoParams.own.channels.set 1 { lean with quantity := .leanB, filter := 1 } }
  let x := scanning .member .run []
  { x with
    params := { demoParams with own := own }
    meas :=
      { x.meas with
        scan := some { list := .run, left := [], written := [0, 1], elapsed := 250 }
        working := { MeasSet.reset with channels := ((Eight.fill none).set 0 (some u)).set 1 (some v) }
        pairRun := pairRun } }

theorem witness_ScanEndMakesTheLatestSet :
    timerRuns (scanning .member .run []).member.state = true
      ∧ (scanning .member .run []).meas.scan = some { list := .run, left := [], written := [], elapsed := 250 }
      ∧ (let x := pairScanned 10 51 2
         isTiltRole x.params.role = true ∧ x.channelOf .leanA = some 0 ∧ x.channelOf .leanB = some 1
           ∧ x.meas.working.channels.get 0 = some 10 ∧ x.params.own.pairBand < ((10 : Int) - 51).natAbs
           ∧ x.params.own.pairFilter ≤ x.meas.pairRun + 1 ∧ 1 ≤ x.params.own.pairFilter ∧ x.params.own.pairFilter ≤ 15
           ∧ x.scanEnd.meas.apart = true ∧ x.scanEnd.holds .sensorPair 0 = true ∧ x.scanEnd.meas.latest.ownLean = some 10
           ∧ x.scanEnd.meas.latest.leanSource = .leanA)
      ∧ (pairScanned 10 50 2).params.own.pairBand = ((10 : Int) - 50).natAbs
      ∧ (pairScanned 10 51 1).meas.pairRun + 1 < (pairScanned 10 51 1).params.own.pairFilter
      ∧ (let x := pairScanned 0 361 2
         ((x.scanEnd.meas.monitors.get 1).state = .high) ∧ x.scanEnd.holds .channelHigh 1 = true
           ∧ (x.scanEnd.meas.monitors.get 0).state = .normal)
      ∧ (let x := pairScanned 10 51 2
         let frame : Station := { x with params := { x.params with role := .frame } }
         frame.params.role = .frame ∧ frame.channelOf .frameRoll = none
           ∧ frame.scanEnd.meas.latest.leanSource = .none) := by decide +kernel

theorem witness_PeerLean :
    let x := pairScanned 10 51 2
    let heard : PeerRecord :=
      { PeerRecord.reset .tiltR with
        state := .present, lastReport := some { demoReport 1 with lean := 33 }, lastHeard := some 6 }
    let frame : Station :=
      { x with
        params := { x.params with role := .frame }, peers := x.peers.set 1 heard
        bus := { x.bus with lastSection := some 6 } }
    frame.peerLeans frame.latestSectionReport = [33] ∧ frame.scanEnd.meas.latest.ownLean = some 33
      ∧ frame.scanEnd.meas.latest.leanSource = .peers := by decide +kernel

/-- Station 2 at the end of a calibration scan, after some scans of its pass. -/
def passing (scans : Nat) : Station :=
  let x := scanning .join .calibration []
  { x with
    meas :=
      { x.meas with
        cal :=
          { Calibration.reset with
            status := .running, scans := scans, pSums := (Eight.fill 0).set 1 8202, nSums := (Eight.fill 0).set 1 10000 } } }

theorem witness_CalibrationPass :
    (passing 0).params.shared.calSamples = 4 ∧ (passing 0).isDifferential 1 = true
      ∧ (passing 0).scanEnd.meas.cal.scans = 1 ∧ (passing 3).scanEnd.meas.lists.calShadow.contains ⟨1, true⟩ = true
      ∧ (passing 7).scanEnd.meas.cal.status = .done ∧ (passing 7).scanEnd.meas.lists.selected = .run
      ∧ (passing 7).scanEnd.meas.offsets.get 1 = 127
      ∧ (passing 7).scanEnd.cond.queue.map (·.key) = [{ code := .calRange, source := 1 }] := by decide +kernel

theorem witness_PulsesAreCounted :
    timerRuns (demo .listen).member.state = true ∧ (demo .listen).params.own.ps0.mapped = true
      ∧ (let own := { demoParams.own with ps1 := { demoParams.own.ps1 with mapped := true } }
         let x : Station := { demo .quiet with params := { demoParams with own := own } }
         timerRuns x.member.state = true ∧ x.params.own.ps1.mapped = true)
      ∧ timerRuns (demo .silent).member.state = false ∧ demoParams.own.ps1.mapped = false
      ∧ demoParams.own.ps0.zeroRounds ≤ (PulseCounter.cleared 4).quiet := by decide +kernel

theorem witness_CalibrationFollowsItsEvidence :
    let cal : Calibration := { Calibration.reset with status := .waiting, waiting := 32 }
    let x : Station := { demo .join with meas := { (demo .join).meas with cal := cal } }
    x.meas.cal.status = .waiting ∧ 32 ≤ x.meas.cal.waiting ∧ (demo .join).meas.cal.status ≠ .waiting := by decide +kernel

/-- Station 2 in JOIN with an own mark at its fourth bit time, its calibration in a status. -/
def calibrating (status : CalStatus) (waiting : Nat) (ps0 : PulseCounter) : Station :=
  let x := withMark (demo .join) 4 false false
  { x with meas := { x.meas with cal := { Calibration.reset with status := status, waiting := waiting }, ps0 := ps0 } }

/-- A pulse input with its ring. -/
def pulses (count : Nat) (ring : List Nat) : PulseCounter := { count := count, ring := ring, fill := ring.length, quiet := 0 }

theorem witness_CalibrationAtTheSyncEvent :
    let still := pulses 0 [0, 0, 0, 0]
    let x := calibrating .waiting 0 still
    x.member.state = .join ∧ x.bus.markPending = true ∧ x.member.lossPeriods < 4 ∧ x.meas.scan = none ∧ x.meas.lists.calShadow ≠ []
      ∧ x.meas.lists.runShadow ≠ [] ∧ x.params.own.ps0.mapped = true ∧ x.params.own.ps0.window = 4
      ∧ x.syncMark.meas.cal.status = .running ∧ x.syncMark.meas.lists.selected = .calibration
      ∧ (calibrating .waiting 0 (pulses 2 [0, 0, 0, 0])).syncMark.meas.cal.status = .skipped
      ∧ (calibrating .waiting 0 (pulses 0 [0, 0, 3, 0])).syncMark.meas.cal.status = .skipped
      ∧ (calibrating .waiting 0 (pulses 0 [0])).syncMark.meas.cal = { Calibration.reset with status := .waiting, waiting := 1 }
      ∧ (calibrating .waiting 31 (pulses 0 [0])).syncMark.meas.cal.status = .skipped
      ∧ (calibrating .running 1 (pulses 2 [0, 0, 0, 0])).syncMark.cond.queue.map (·.key) =
          [{ code := .calSkipped, source := 1 }]
      ∧ (calibrating .running 1 still).syncMark.meas.cal.status = .running
      ∧ (calibrating .done 1 (pulses 2 [])).syncMark.meas.cal.status = .done
      ∧ (let own := { demoParams.own with ps0 := { demoParams.own.ps0 with mapped := false } }
         let heard := fun speeds : Option (List Nat) =>
           let y := calibrating .waiting 0 still
           ({ y with
             params := { demoParams with own := own }
             meas := { y.meas with cal := { y.meas.cal with heard := speeds } } } : Station)
         (heard (some [0, 0])).syncMark.meas.cal.status = .running ∧ (heard (some [0, 4])).syncMark.meas.cal.status = .skipped
           ∧ (heard none).syncMark.meas.cal.status = .waiting) := by decide +kernel

theorem witness_ReturnsEnterListen :
    (let m : MembershipUnit := { MembershipUnit.reset with state := .halted, lossPeriods := 4 }
     let x : Station := { withMark (demo .halted) 2 false false with member := m }
     isDriving x.member.state = true ∧ 4 ≤ x.member.lossPeriods ∧ x.busLoss.txdDominant 0 = true)
      ∧ (demo .silent).member.state = .silent ∧ (demo .silent).member.silentHold < 160000
      ∧ (let x : Station := { demo .silent with pins := { (demo .silent).pins with disable := true } }
         x.silentHoldEnd.member.state = .listen ∧ x.silentHoldEnd.member.disableSeen = true
           ∧ x.silentHoldEnd.cond.queue.map (·.key) = [{ code := .haltInput, source := 0 }])
      ∧ (let hold := fun (c : ConditionUnit) (k : CondKey) => holdCond c k 1
         let keys : List CondKey :=
           [⟨.demandLost, 8⟩, ⟨.channelLow, 0⟩, ⟨.tiltVacant, 0⟩, ⟨.authGiveup, 1⟩, ⟨.roleMismatch, 5⟩, ⟨.configDiffers, 8⟩,
             ⟨.splitView, 0⟩]
         let x : Station := { passing 5 with
           cond := keys.foldl hold ConditionUnit.reset
           meas := { (passing 5).meas with lists := (passing 5).meas.lists.select .calibration true (passing 5).isDifferential } }
         let y : Station := { x with member := { x.member with state := .silent } }
         y.silentHoldEnd.cond.table.map (·.key) = [⟨.channelLow, 0⟩] ∧ y.silentHoldEnd.meas.lists.selected = .run
           ∧ y.silentHoldEnd.meas.lists.calShadow.contains ⟨1, true⟩ = false ∧ y.silentHoldEnd.meas.cal.scans = 0) := by
  decide +kernel

/-- An entry of an event. -/
def demoEntry (source level : Nat) : CondEntry :=
  { key := { code := .channelLow, source := source }, level := level, expiry := none, raised := source }

/-- A full table and a full queue. -/
def demoFull : ConditionUnit :=
  { ConditionUnit.reset with
    table := (List.range 16).map fun n => demoEntry n 1
    queue := (List.range 8).map fun n => { key := { code := .channelLow, source := n }, count := 1 } }

theorem witness_EventsAreToldAndExpire :
    (demo .member).cond.displaced = [] ∧ condIsEvent .busFault = true ∧ condIsEvent .sensorPair = false
      ∧ demoFull.table = [] ++ demoEntry 0 1 :: demoFull.table.tail ∧ (∀ e ∈ demoFull.table.tail, (demoEntry 0 1).level ≤ e.level)
      ∧ (let k : CondKey := { code := .sensorPair, source := 0 }
         let strong := holdCond demoFull k 2
         let weak := holdCond demoFull k 1
         isHeld demoFull k = false ∧ strong.displaced = [demoEntry 0 1] ∧ isHeld strong k = true ∧ faultLevel strong = 2
           ∧ weak.displaced.map (·.key) = [k] ∧ weak.table = demoFull.table
           ∧ (removeCond strong k).displaced = [] ∧ isHeld (removeCond strong k) (demoEntry 0 1).key = true
           ∧ isHeld (removeCond strong k) k = false)
      ∧ hasKey demoFull.table { code := .busFault, source := 0 } = false ∧ 16 ≤ demoFull.table.length
      ∧ weakest demoFull.table = some (demoEntry 0 1) ∧ (demoEntry 0 1).level < 3 ∧ (1 : Nat) ≤ (demoEntry 0 1).level
      ∧ (∀ r ∈ demoFull.queue, r.key ≠ { code := .busFault, source := 0 }) ∧ 8 ≤ demoFull.queue.length
      ∧ hasKey ConditionUnit.reset.table { code := .busFault, source := 0 } = false
      ∧ ConditionUnit.reset.table.length < 16 ∧ (∀ r ∈ ConditionUnit.reset.queue, r.key ≠ { code := .busFault, source := 0 })
      ∧ ConditionUnit.reset.queue.length < 8
      ∧ (let once := raiseEvent ConditionUnit.reset { code := .busFault, source := 0 } 3
         hasKey once.table { code := .busFault, source := 0 } = true
           ∧ ∃ r ∈ once.queue, r.key = { code := .busFault, source := 0 }) := by decide +kernel

/-- A bit time goes on from the state after reset. -/
def afterReset : State := { station := Station.reset.tick, pending := [] }

theorem step_reset : step State.reset = .next afterReset := rfl

theorem witness_ConditionsStaySound : State.reset.station.cond.sound ∧ step State.reset = .next afterReset :=
  ⟨⟨tableSound_reset, by decide, by decide, by simp [State.reset, Station.reset, ConditionUnit.reset]⟩, rfl⟩

theorem witness_AuthorityStaysSound : State.reset.station.authoritySound ∧ step State.reset = .next afterReset := by
  refine ⟨⟨⟨by decide, by decide, ?_, ?_⟩, ⟨by decide, ?_, ?_⟩, fun _ => rfl, ?_⟩, rfl⟩ <;>
    simp [State.reset, Station.reset, Authority.atRest, GroupRecord.vacant, BusUnit.reset]

theorem witness_DriveStaysSound : State.reset.station.driveSound ∧ step State.reset = .next afterReset := by
  refine ⟨?_, rfl⟩
  unfold Station.driveSound
  decide

theorem witness_CountsStaySound : State.reset.station.countsSound ∧ step State.reset = .next afterReset := by
  refine ⟨?_, rfl⟩
  unfold Station.countsSound BusUnit.countsSound MembershipUnit.countsSound
  decide

theorem witness_PeersStaySound : State.reset.station.peersSound ∧ step State.reset = .next afterReset := by
  refine ⟨?_, rfl⟩
  unfold Station.peersSound PeerRecord.countsSound
  decide

theorem witness_EngineStaysSound : State.reset.station.engineSound ∧ step State.reset = .next afterReset := by
  refine ⟨⟨?_, ?_, ?_, fun _ => rfl, by decide, by decide, by decide, ?_⟩, rfl⟩
  · exact ⟨by decide, by decide⟩
  · exact ⟨by decide, by decide⟩
  · exact ⟨by decide, by decide⟩
  · simp [State.reset, Station.reset, BusUnit.reset]

end Sys2Proof.Tests
end

