-- ==== Sys2Proof/Proofs/RoundClass.lean ====
section
/-! The class of a round by its two signature outcomes (R37), and the agreed signature that goes with it. -/

namespace Sys2Proof.Machine

/-! ### classOutcome: one equation for each class -/

@[simp] theorem classOutcome_self (v : Nat) : classOutcome v v = .agreed := if_pos rfl

@[simp] theorem classOutcome_memberless : classOutcome 0xFFFF 0 = .memberless := rfl

theorem classOutcome_split {sigMin sigMax : Nat} (differ : sigMin ≠ sigMax) (driven : ¬(sigMin = 0xFFFF ∧ sigMax = 0)) :
    classOutcome sigMin sigMax = .split := by
  rw [classOutcome, if_neg differ, if_neg driven]

/-! ### The class and the agreed signature of a tally as read -/

theorem resolveTally_roundClass (driving : Bool) (own : StationNo) (wire : BitVec 70) :
    (resolveTally driving own wire).roundClass =
      classOutcome (tallyField wire 48 16) (0xFFFF - tallyField wire 64 16) := rfl

theorem resolveTally_agreedSig_of_agreed {driving : Bool} {own : StationNo} {wire : BitVec 70}
    (agreed : (resolveTally driving own wire).roundClass = .agreed) :
    (resolveTally driving own wire).agreedSig = some (BitVec.ofNat 16 (tallyField wire 48 16)) := if_pos agreed

theorem resolveTally_agreedSig_of_not_agreed {driving : Bool} {own : StationNo} {wire : BitVec 70}
    (other : (resolveTally driving own wire).roundClass ≠ .agreed) :
    (resolveTally driving own wire).agreedSig = none := if_neg other

/-- Settles O21: the class by the equations of `classOutcome`, and then the agreed signature by the class. -/
theorem signaturesClassTheRound : Obligations.SignaturesClassTheRound := by
  intro driving own wire h sigMin sigMax
  have class_eq : h.roundClass = classOutcome sigMin sigMax := resolveTally_roundClass driving own wire
  refine ⟨fun same => ?agreed, fun ⟨minOnes, maxZero⟩ => ?memberless, fun differ driven => ?split⟩
  case agreed =>
    have agreed : h.roundClass = .agreed := by rw [class_eq, same, classOutcome_self]
    exact ⟨agreed, resolveTally_agreedSig_of_agreed agreed⟩
  case memberless =>
    have memberless : h.roundClass = .memberless := by rw [class_eq, minOnes, maxZero, classOutcome_memberless]
    exact ⟨memberless, resolveTally_agreedSig_of_not_agreed (by simp [h, memberless])⟩
  case split =>
    have split : h.roundClass = .split := by rw [class_eq, classOutcome_split differ driven]
    exact ⟨split, resolveTally_agreedSig_of_not_agreed (by simp [h, split])⟩

end Sys2Proof.Machine
end

