-- ==== Sys2Proof/Proofs/FltLamp.lean ====
section
/-! The FLT lamp by the station state and the agreed FAULT (R184), and what the entries to LISTEN and SILENT do to both. -/

namespace Sys2Proof.Machine

/-! ### fltOut: one equation for each case of R184 -/

theorem Station.fltOut_of_load {s : Station} (load : s.member.state = .load) : s.fltOut = false := by
  rw [Station.fltOut, load]

theorem Station.fltOut_of_configFault {s : Station} (failed : s.member.state = .configFault) : s.fltOut = true := by
  rw [Station.fltOut, failed]

/-- In every other state the lamp is the comparison of the agreed FAULT with 1. -/
theorem Station.fltOut_iff_fault {s : Station} (notLoad : s.member.state ≠ .load)
    (notFailed : s.member.state ≠ .configFault) : s.fltOut = true ↔ 1 ≤ s.bus.held.fault := by
  unfold Station.fltOut
  cases state : s.member.state with
  | load => exact absurd state notLoad
  | configFault => exact absurd state notFailed
  | listen | join | member | halted | silent | quiet => exact decide_eq_true_iff

/-! ### The state and the held FAULT after an entry to LISTEN or SILENT -/

@[simp] theorem BusUnit.atListen_held (b : BusUnit) : b.atListen.held = HeldSet.reset := rfl

@[simp] theorem BusUnit.atSilent_held (b : BusUnit) (cut : Bool) : (b.atSilent cut).held = b.held := rfl

@[simp] theorem HeldSet.reset_fault : HeldSet.reset.fault = 0 := rfl

@[simp] theorem MembershipUnit.atListen_state (m : MembershipUnit) : m.atListen.state = .listen := rfl

/-- The held outcome set is reset at an entry to LISTEN (R25), so that the lamp goes out. -/
theorem Station.enterListen_fltOut (s : Station) : s.enterListen.fltOut = false := by
  have lamp : s.enterListen.fltOut = true ↔ 1 ≤ s.enterListen.bus.held.fault :=
    Station.fltOut_iff_fault (by simp) (by simp)
  have noFault : s.enterListen.bus.held.fault = 0 := by simp
  simpa [noFault] using lamp

/-- The held outcome set stays as it was left at an entry to SILENT, so that the lamp shows the last agreed FAULT. -/
theorem Station.enterSilent_fltOut (s : Station) : s.enterSilent.fltOut = true ↔ 1 ≤ s.bus.held.fault := by
  have lamp : s.enterSilent.fltOut = true ↔ 1 ≤ s.enterSilent.bus.held.fault :=
    Station.fltOut_iff_fault (by simp) (by simp)
  have kept : s.enterSilent.bus.held = s.bus.held := by simp
  rwa [kept] at lamp

/-- Settles O9: the three cases of the station state, and the two entries by the state and the held FAULT they leave. -/
theorem fltFollowsTheAgreedFault : Obligations.FltFollowsTheAgreedFault := fun x =>
  ⟨Station.fltOut_of_load, Station.fltOut_of_configFault, Station.fltOut_iff_fault,
    x.enterListen_fltOut, x.enterSilent_fltOut⟩

end Sys2Proof.Machine
end

