-- ==== Sys2Proof/Proofs/Commands.lean ====
section
/-! What a step is on the station: every command has an effect on the station and leaves the queue (O1, O3), and what every effect and
the bit time keep, every step keeps. -/

namespace Sys2Proof

namespace Machine

/-- The effect of a command on the station, by the meaning of its row. -/
def effect (c : Instr) (x : Station) : Station :=
  match c with
  | .reset => { Station.reset with pins := x.pins }
  | .resetRelease straps memory idleHigh => x.release straps memory idleHigh
  | .svcFallingEdge us => x.svcEdge us
  | .imageReadDone => x.imageReadDone
  | .loadEnd => x.loadEnd
  | .syncMark => x.syncMark
  | .ownSyncMarkDrive => x.ownMark
  | .markNotReadBack sample => x.markNotReadBack sample.val
  | .syncWindowExpiry => x.windowExpiry
  | .coldStartTimeout => x.coldStart
  | .joinEntry => x.joinEntry
  | .tallyImage => x.takeImage
  | .tallyHandover wire => x.tallyHandover wire
  | .answerTimeout => x.limitStage GroupWork.answerLimit
  | .prepareTimeout => x.limitStage GroupWork.prepareLimit
  | .splitView => x.splitView
  | .peerLost k => x.peerLost k
  | .ownReportSend readBack => x.ownReport readBack
  | .ownSlotEnd => x.ownSlotEnd
  | .clashSilence => x.clashSilence
  | .slotEnd k sampled => x.slotEnd k sampled
  | .reportSectionEnd => x.reportSectionEnd
  | .suspectRecovery k => x.suspectRecovery k
  | .stuckBus first last => x.stuckSpan first last
  | .applyPoint parkReq => x.applyPoint parkReq
  | .settleTimeout => x.settleTimeout
  | .demandLost => x.demandLost
  | .lockRampEnd => x.lockRampEnd
  | .releaseHoldEnd => x.releaseHoldEnd
  | .conversionEnd raw => if timerRuns x.member.state then x.conversionEnd raw.toNat else x
  | .scanEnd => if timerRuns x.member.state then x.scanEnd else x
  | .calWaitTimeout => x.calWaitTimeout
  | .pulseEdge ps1 => x.pulseEdge ps1
  | .disableAsserted seen => x.changeDisable true seen
  | .disableReleased seen => x.changeDisable false seen
  | .drvFltAsserted seen => x.changeDrvFlt true seen
  | .drvFltReleased seen => x.changeDrvFlt false seen
  | .busLoss => x.busLoss
  | .silentHoldEnd => x.silentHoldEnd
  | .conditionExpiry => { x with cond := expireConds x.cond }
  | .recessiveToDominantEdge position => x.edge position
  | .candidateMarkDropped position => x.dropCandidate position

/-- A command ends in the state with its effect on the station and the queue as it was. -/
theorem exec_eq (c : Instr) (x : Station) (q : List Instr) : exec c ⟨x, q⟩ = .next ⟨effect c x, q⟩ := by
  cases c <;> rfl

/-- A command that has an effect ends in the state with it. -/
theorem exec_of_effect {c : Instr} {x y : Station} (h : effect c x = y) (q : List Instr) :
    exec c ⟨x, q⟩ = .next ⟨y, q⟩ := h ▸ exec_eq c x q

/-- What holds of a command's effect holds of its next state. -/
theorem exec_effect {c : Instr} {x : Station} {Q : Station → Prop} (h : Q (effect c x)) (q : List Instr) :
    ∃ y : Station, exec c ⟨x, q⟩ = .next ⟨y, q⟩ ∧ Q y := ⟨effect c x, exec_eq c x q, h⟩

/-- A step with a command waiting is the effect of the oldest. -/
theorem step_command (c : Instr) (x : Station) (q : List Instr) : step ⟨x, c :: q⟩ = .next ⟨effect c x, q⟩ :=
  exec_eq c x q

/-- A step with no command waiting is one bit time. -/
theorem step_empty (x : Station) : step ⟨x, []⟩ = .next ⟨x.tick, []⟩ := rfl

/-- What the bit time and every effect keep, every step keeps. -/
theorem step_keeps {P : Station → Prop} (tick : ∀ x, P x → P x.tick) (effects : ∀ c x, P x → P (effect c x))
    (s t : State) (h : P s.station) (hstep : step s = .next t) : P t.station := by
  obtain ⟨x, queue⟩ := s
  cases queue with
  | nil =>
    rw [← Host.Outcome.next.inj ((step_empty x).symm.trans hstep)]
    simpa only using tick x h
  | cons c q =>
    rw [← Host.Outcome.next.inj ((step_command c x q).symm.trans hstep)]
    simpa only using effects c x h

/-- Work that keeps a property of the station keeps it through a loop. -/
theorem Station.foldl_preserves {β : Type} (P : Station → Prop) (f : Station → β → Station)
    (h : ∀ s b, P s → P (f s b)) (l : List β) : ∀ s, P s → P (l.foldl f s) := by
  induction l with
  | nil => exact fun _ hs => hs
  | cons b rest ih => exact fun s hs => ih _ (h s b hs)

/-- Work that keeps a property on every record but the own one keeps it through the whole table. -/
theorem Station.forPeers_preserves (P : Station → Prop) (f : Station → StationNo → Station)
    (h : ∀ s k, k ≠ s.number → P s → P (f s k)) (s : Station) (hs : P s) : P (s.forPeers f) := by
  refine Station.foldl_preserves P _ (fun x k hx => ?_) allStations s hs
  by_cases own : k = x.number
  · rwa [if_pos own]
  · rw [if_neg own]
    exact h x k own hx

/-- What an operation and the passing of time keep, it keeps at a fixed moment. -/
theorem Station.atMoment_preserves (P : Station → Prop) {s : Station} {p : Nat} {f : Station → Station}
    (time : P s → P (s.reach p)) (work : P (s.reach p) → P (f (s.reach p))) (hs : P s) : P (s.atMoment p f) := by
  by_cases due : s.bus.position ≤ p
  · rw [Station.atMoment_due f due]
    exact work (time hs)
  · rwa [Station.atMoment_passed f due]

/-- What holds after an overdue mark, and each other piece of work that falls due keeps, all of it together keeps. -/
theorem Station.takeDue_preserves (P : Station → Prop) (image : ∀ x, P x → P x.takeImage)
    (apply : ∀ x parkReq, P x → P (x.applyPoint parkReq)) (mark : ∀ x, P x → P x.ownMark)
    (cold : ∀ x, P x → P x.coldStart) (hold : ∀ x, P x → P x.silentHoldEnd) (s : Station) (h : P s.overdueMark) : P s.takeDue := by
  have branch : ∀ (test : Prop) [Decidable test] (f : Station → Station) (x : Station), (P x → P (f x)) → P x →
      P (if test then f x else x) := fun test _ f x keeps hx => by
    by_cases due : test
    · rw [if_pos due]; exact keeps hx
    · rwa [if_neg due]
  unfold Station.takeDue
  exact branch _ _ _ (hold _) (branch _ _ _ (cold _) (branch _ _ _ (mark _)
    (branch _ (fun x => x.applyPoint x.pins.parkReq) _ (apply _ _) (branch _ _ _ (image _) h))))

/-- Settles O1: by the definition of `step`. -/
theorem stepRunsTheFrontCommand : Obligations.StepRunsTheFrontCommand := fun _ _ _ => rfl

/-- Settles O3: the next station is the command's effect. -/
theorem everyCommandCompletes : Obligations.EveryCommandCompletes := fun c x q => ⟨effect c x, exec_eq c x q⟩

/-- Settles O4: RESET's effect, and the reset values one by one. -/
theorem resetEntersLoad : Obligations.ResetEntersLoad := fun x q =>
  ⟨exec_eq .reset x q, rfl, rfl, rfl, rfl, rfl, rfl, rfl, rfl, rfl, rfl, rfl, rfl⟩

end Machine

end Sys2Proof
end

