-- ==== Sys2Proof/Proofs/ConditionTable.lean ====
section
/-! The operations of the Condition Unit keep it sound (R172 to R178). -/

namespace Sys2Proof.Machine

/-! ### The table (R172, R174) -/

theorem keysOnce_iff_nodup (c : ConditionUnit) : keysOnce c [] ↔ (keysOf (c.table ++ c.displaced)).Nodup := by
  simp only [keysOnce, keysOf, List.append_nil]

theorem ConditionUnit.tableSound.keysOnce {c : ConditionUnit} (h : c.tableSound) : keysOnce c [] :=
  (keysOnce_iff_nodup c).mpr h.2.1

/-- A key that is not held may be entered: it stands beside the others once. -/
theorem keysOnce_of_not_held {c : ConditionUnit} (h : keysOnce c []) {e : CondEntry} (new : isHeld c e.key = false) :
    keysOnce c [e] := by
  unfold Machine.keysOnce at h ⊢
  rw [List.append_nil] at h
  rw [List.map_append, List.nodup_append]
  refine ⟨h, by simp, fun a ha b hb same => ?_⟩
  simp only [List.map_cons, List.map_nil, List.mem_singleton] at hb
  obtain ⟨d, hd, key⟩ := List.mem_map.mp ha
  have held : isHeld c e.key = true := by
    rw [isHeld_iff]
    rcases List.mem_append.mp hd with hd | hd
    · exact .inl (hasKey_iff.mpr ⟨d, hd, key.trans (same.trans hb)⟩)
    · exact .inr (hasKey_iff.mpr ⟨d, hd, key.trans (same.trans hb)⟩)
  exact absurd held (by simp [new])

theorem weakest_isSome {l : List CondEntry} (h : l ≠ []) : ∃ w, weakest l = some w := by
  cases l with
  | nil => exact absurd rfl h
  | cons e rest => unfold weakest; split <;> [exact ⟨_, rfl⟩; (split <;> exact ⟨_, rfl⟩)]

/-- No entry is weaker than the weakest. -/
theorem weakest_level_le {l : List CondEntry} {w : CondEntry} (h : weakest l = some w) : ∀ e ∈ l, w.level ≤ e.level := by
  induction l generalizing w with
  | nil => exact fun e he => absurd he List.not_mem_nil
  | cons f rest ih =>
    intro e he
    unfold weakest at h
    split at h
    · next none =>
      have empty : rest = [] := by
        by_contra some
        obtain ⟨w, hw⟩ := weakest_isSome some
        cases none.symm.trans hw
      subst empty
      cases h
      rw [List.mem_singleton.mp he]
    · next v hv =>
      have below := ih hv
      split at h <;> cases h <;> rcases List.mem_cons.mp he with rfl | he
      · omega
      · exact below e he
      · exact le_refl _
      · have := below e he
        omega

/-- A full table in which the weakest entry gives its place is full again. -/
theorem length_dropKey_of_mem {l : List CondEntry} {w : CondEntry} (once : (keysOf l).Nodup) (h : w ∈ l) :
    (dropKey l w.key).length + 1 = l.length := by
  induction l with
  | nil => exact absurd h List.not_mem_nil
  | cons e rest ih =>
    obtain ⟨fresh, once⟩ := List.nodup_cons.mp once
    by_cases same : e.key = w.key
    · have others : dropKey rest w.key = rest := List.filter_eq_self.mpr fun f hf => by
        have : f.key ≠ w.key := fun eq => fresh (List.mem_map.mpr ⟨f, hf, eq.trans same.symm⟩)
        simp [this]
      have first : dropKey (e :: rest) w.key = dropKey rest w.key := List.filter_cons_of_neg (by simp [same])
      rw [first, others, List.length_cons]
    · have inRest : w ∈ rest := (List.mem_cons.mp h).resolve_left fun eq => same (by rw [eq])
      have first : dropKey (e :: rest) w.key = e :: dropKey rest w.key := List.filter_cons_of_pos (by simp [same])
      rw [first, List.length_cons, List.length_cons, ih once inRest]

/-- A condition displaced from a sound table whose levels are at or above its own keeps the table sound. -/
theorem displace_tableSound {c : ConditionUnit} {e : CondEntry} (h : c.tableSound)
    (once : (keysOf ((displace c e).table ++ (displace c e).displaced)).Nodup) (fits : expiryFits e)
    (full : c.table.length = Config.tableSize) (below : ∀ f ∈ c.table, e.level ≤ f.level) :
    (displace c e).tableSound := by
  obtain ⟨hlen, -, hfits, hstates, -, hlevels⟩ := h
  unfold displace at once ⊢
  split at once
  · next event => rw [if_pos event]; exact ⟨hlen, once, hfits, hstates, fun _ => full, hlevels⟩
  · next state =>
    rw [if_neg state]
    refine ⟨hlen, once, fun f hf => ?_, fun d hd => ?_, fun _ => full, fun d hd => ?_⟩
    · rw [← List.append_assoc] at hf
      exact (List.mem_append.mp hf).elim (hfits f) fun hf => by rwa [List.mem_singleton.mp hf]
    · exact (List.mem_append.mp hd).elim (hstates d) fun hd => by rw [List.mem_singleton.mp hd]; simpa using state
    · exact (List.mem_append.mp hd).elim (hlevels d) fun hd => by rw [List.mem_singleton.mp hd]; exact below

/-- A new key entered keeps the table sound (R172, R174). -/
theorem enterCond_tableSound {c : ConditionUnit} {e : CondEntry} (h : c.tableSound) (new : keysOnce c [e])
    (fits : expiryFits e) : (enterCond c e).tableSound := by
  have once := (keysOnce_iff_nodup _).mp (keysOnce_enterCond (more := []) new)
  have whole := h
  obtain ⟨hlen, hkeys, hfits, hstates, hfull, hlevels⟩ := h
  unfold enterCond at once ⊢
  split at once
  · next room =>
    rw [if_pos room]
    have none : c.displaced = [] := by
      by_contra some
      have := hfull some
      omega
    refine ⟨?_, once, fun f hf => ?_, hstates, fun some => absurd none some, fun d hd => absurd hd (by simp [none])⟩
    · rw [List.length_append, List.length_singleton]; omega
    · rw [none, List.append_nil] at hf
      exact (List.mem_append.mp hf).elim (fun hf => hfits f (List.mem_append_left _ hf)) fun hf => by
        rwa [List.mem_singleton.mp hf]
  · next noRoom =>
    rw [if_neg noRoom]
    have full : c.table.length = Config.tableSize := by omega
    obtain ⟨w, hw⟩ := weakest_isSome (l := c.table) (by rintro empty; rw [empty] at full; cases full)
    have least := weakest_level_le hw
    have inTable := weakest_mem hw
    simp only [hw] at once ⊢
    split at once
    · next above =>
      rw [if_pos above]
      have size : (dropKey c.table w.key ++ [e]).length = Config.tableSize := by
        have := length_dropKey_of_mem (hkeys.sublist ((List.sublist_append_left _ _).map _)) inTable
        rw [List.length_append, List.length_singleton]
        omega
      have members : ∀ f ∈ dropKey c.table w.key ++ [e], f ∈ c.table ∨ f = e := fun f hf =>
        (List.mem_append.mp hf).imp (fun hf => List.mem_of_mem_filter hf) List.mem_singleton.mp
      refine displace_tableSound ⟨size.le, ?_, fun f hf => ?_, hstates, fun _ => size, fun d hd f hf => ?_⟩ once
        (hfits w (List.mem_append_left _ inTable)) size fun f hf => ?_
      · refine once.sublist (List.Sublist.map _ (List.Sublist.append ?_ ?_)) <;> unfold displace <;> split
        · exact .refl _
        · exact .refl _
        · exact .refl _
        · exact List.sublist_append_left _ _
      · rcases List.mem_append.mp hf with hf | hf
        · exact (members f hf).elim (fun hf => hfits f (List.mem_append_left _ hf)) fun eq => eq ▸ fits
        · exact hfits f (List.mem_append_right _ hf)
      · exact (members f hf).elim (hlevels d hd f) fun eq => by
          have := hlevels d hd w inTable
          rw [eq]; omega
      · exact (members f hf).elim (least f) fun eq => by rw [eq]; omega
    · next notAbove =>
      rw [if_neg notAbove]
      exact displace_tableSound whole once fits full fun f hf => by have := least f hf; omega

/-- The displaced conditions offered keep the table sound, whatever was displaced before (R174). -/
theorem reofferDisplaced_tableSound {c : ConditionUnit} (hlen : c.table.length ≤ Config.tableSize) (once : keysOnce c [])
    (fits : ∀ e ∈ c.table ++ c.displaced, expiryFits e) : (reofferDisplaced c).tableSound := by
  have fold : ∀ (l : List CondEntry) (d : ConditionUnit), d.tableSound → keysOnce d l → (∀ e ∈ l, expiryFits e) →
      (l.foldl enterCond d).tableSound := by
    intro l
    induction l with
    | nil => exact fun _ hd _ _ => hd
    | cons e rest ih =>
      intro d hd new fitsAll
      refine ih _ (enterCond_tableSound hd ?_ (fitsAll e List.mem_cons_self)) (keysOnce_enterCond new) fun f hf =>
        fitsAll f (List.mem_cons_of_mem _ hf)
      refine keys_nodup_of_subperm (List.Sublist.subperm (List.Sublist.append_left ?_ _)) new
      exact List.singleton_sublist.mpr List.mem_cons_self
  have order := offerOrder_perm c.displaced
  refine fold _ _ ⟨hlen, ?_, ?_, ?_, fun some => absurd rfl some, ?_⟩ ?_ fun e he =>
    fits e (List.mem_append_right _ (order.mem_iff.mp he))
  · rw [List.append_nil]
    exact ((keysOnce_iff_nodup c).mp once).sublist ((List.sublist_append_left _ _).map _)
  · rw [List.append_nil]
    exact fun e he => fits e (List.mem_append_left _ he)
  · exact fun d hd => absurd hd List.not_mem_nil
  · exact fun d hd => absurd hd List.not_mem_nil
  · refine ((List.Perm.map _ ?_).nodup_iff).mp once
    simp only [List.append_nil]
    exact List.Perm.append_left _ order.symm

theorem removeCond_tableSound {c : ConditionUnit} (h : c.tableSound) (k : CondKey) : (removeCond c k).tableSound := by
  obtain ⟨hlen, hkeys, hfits, hstates, hfull, hlevels⟩ := h
  have part : ∀ l : List CondEntry, (dropKey l k).Sublist l := fun l => List.filter_sublist
  unfold removeCond
  split
  · refine reofferDisplaced_tableSound ((part c.table).length_le.trans hlen) ?_ fun e he => ?_
    · exact (keysOnce_iff_nodup _).mpr (hkeys.sublist (((part _).append (.refl _)).map _))
    · exact hfits e (((part _).append (.refl _)).subset he)
  · exact ⟨hlen, hkeys.sublist (((List.Sublist.refl _).append (part _)).map _),
      fun e he => hfits e (((List.Sublist.refl _).append (part _)).subset he), fun d hd => hstates d ((part _).subset hd),
      fun some => hfull fun none => some (by simp [none, dropKey]), fun d hd => hlevels d ((part _).subset hd)⟩

theorem newEntry_fits (c : ConditionUnit) (k : CondKey) (level : Nat) : expiryFits (newEntry c k level) := by
  unfold expiryFits newEntry
  cases condIsEvent k.code with
  | true => exact ⟨250, by decide, rfl⟩
  | false => rfl

/-- The order of raises and the parts of the queue are nothing to the table's soundness. -/
theorem tableSound_congr {c d : ConditionUnit} (table : c.table = d.table) (displaced : c.displaced = d.displaced)
    (h : d.tableSound) : c.tableSound := by
  unfold ConditionUnit.tableSound at h ⊢
  rwa [table, displaced]

theorem queueSound_congr {c d : ConditionUnit} (queue : c.queue = d.queue) (h : d.queueSound) : c.queueSound := by
  unfold ConditionUnit.queueSound at h ⊢
  rwa [queue]

/-- Soundness reads the table, the displaced conditions and the queue alone. -/
theorem sound_congr {c d : ConditionUnit} (table : c.table = d.table) (displaced : c.displaced = d.displaced)
    (queue : c.queue = d.queue) (h : d.sound) : c.sound :=
  ⟨tableSound_congr table displaced h.1, queueSound_congr queue h.2⟩

/-! ### The operations (R171 to R178) -/

theorem holdCond_tableSound {c : ConditionUnit} (h : c.tableSound) (k : CondKey) (level : Nat) :
    (holdCond c k level).tableSound := by
  unfold holdCond
  split
  · exact h
  · next new =>
    rw [offerQueue_frame]
    refine tableSound_congr (d := enterCond c (newEntry c k level)) rfl rfl ?_
    exact enterCond_tableSound h (keysOnce_of_not_held h.keysOnce (by simpa [newEntry] using new)) (newEntry_fits c k level)

theorem holdCond_sound {c : ConditionUnit} (h : c.sound) (k : CondKey) (level : Nat) : (holdCond c k level).sound := by
  refine ⟨holdCond_tableSound h.1 k level, ?_⟩
  unfold holdCond
  split
  · exact h.2
  · refine offerQueue_queueSound ?_ k
    exact queueSound_congr (d := c) (enterCond_queue c _) h.2

theorem removeCond_sound {c : ConditionUnit} (h : c.sound) (k : CondKey) : (removeCond c k).sound :=
  ⟨removeCond_tableSound h.1 k, queueSound_congr (by rw [removeCond_frame]) h.2⟩

theorem setCond_tableSound {c : ConditionUnit} (h : c.tableSound) (cause : Bool) (k : CondKey) (level : Nat) :
    (setCond c cause k level).tableSound := by
  unfold setCond
  split
  · exact holdCond_tableSound h k level
  · exact removeCond_tableSound h k

theorem setCond_sound {c : ConditionUnit} (h : c.sound) (cause : Bool) (k : CondKey) (level : Nat) :
    (setCond c cause k level).sound := by
  unfold setCond
  split
  · exact holdCond_sound h k level
  · exact removeCond_sound h k

/-- The refreshed entry of an event fits (R172). -/
theorem refreshed_tableSound {c : ConditionUnit} (h : c.tableSound) {k : CondKey} (event : condIsEvent k.code = true) :
    ConditionUnit.tableSound
      { c with table := c.table.map fun e => if e.key = k then { e with expiry := some Config.expiryRounds } else e } := by
  obtain ⟨hlen, hkeys, hfits, hstates, hfull, hlevels⟩ := h
  have key : ∀ e : CondEntry, (if e.key = k then { e with expiry := some Config.expiryRounds } else e).key = e.key := by
    intro e; split <;> rfl
  have level : ∀ e : CondEntry, (if e.key = k then { e with expiry := some Config.expiryRounds } else e).level = e.level := by
    intro e; split <;> rfl
  refine ⟨by simpa only [List.length_map] using hlen, ?_, fun e he => ?_, hstates, ?_, fun d hd e he => ?_⟩
  · unfold keysOf at hkeys ⊢
    rw [List.map_append, List.map_map, ← Function.comp_def] at *
    simpa only [Function.comp_def, key] using hkeys
  · rcases List.mem_append.mp he with he | he
    · obtain ⟨f, hf, rfl⟩ := List.mem_map.mp he
      split
      · next same =>
        unfold expiryFits
        simp only [same, event, if_true]
        exact ⟨250, by decide, rfl⟩
      · exact hfits f (List.mem_append_left _ hf)
    · exact hfits e (List.mem_append_right _ he)
  · simpa only [List.length_map] using hfull
  · obtain ⟨f, hf, rfl⟩ := List.mem_map.mp he
    rw [level]
    exact hlevels d hd f hf

theorem raiseEvent_tableSound {c : ConditionUnit} (h : c.tableSound) {k : CondKey} (event : condIsEvent k.code = true)
    (level : Nat) : (raiseEvent c k level).tableSound := by
  unfold raiseEvent
  rw [offerQueue_frame]
  split
  · exact tableSound_congr rfl rfl (refreshed_tableSound h event)
  · next new =>
    refine tableSound_congr (d := enterCond c (newEntry c k level)) rfl rfl ?_
    refine enterCond_tableSound h (keysOnce_of_not_held h.keysOnce ?_) (newEntry_fits c k level)
    have none : hasKey c.displaced k = false := by
      rw [Bool.eq_false_iff]
      intro some
      obtain ⟨d, hd, key⟩ := hasKey_iff.mp some
      have state := h.2.2.2.1 d hd
      rw [key, event] at state
      cases state
    simp only [isHeld, newEntry, none, Bool.or_false]
    simpa using new

theorem raiseEvent_sound {c : ConditionUnit} (h : c.sound) {k : CondKey} (event : condIsEvent k.code = true) (level : Nat) :
    (raiseEvent c k level).sound :=
  ⟨raiseEvent_tableSound h.1 event level, queueSound_congr (raiseEvent_queue c k level) (offerQueue_queueSound h.2 k)⟩

/-- The removal of what has expired makes a table sound that was so but for the counts at 0 (R174, R175). -/
theorem expireConds_tableSound {c : ConditionUnit} (hlen : c.table.length ≤ Config.tableSize)
    (hkeys : (keysOf (c.table ++ c.displaced)).Nodup)
    (hfits : ∀ e ∈ c.table ++ c.displaced, isExpired e = false → expiryFits e)
    (hstates : ∀ d ∈ c.displaced, condIsEvent d.key.code = false ∧ isExpired d = false)
    (hfull : c.displaced ≠ [] → c.table.length = Config.tableSize)
    (hlevels : ∀ d ∈ c.displaced, ∀ e ∈ c.table, d.level ≤ e.level) : (expireConds c).tableSound := by
  have part : (c.table.filter fun e => !isExpired e).Sublist c.table := List.filter_sublist
  unfold expireConds
  split
  · refine reofferDisplaced_tableSound (part.length_le.trans hlen) ?_ fun e he => ?_
    · exact (keysOnce_iff_nodup _).mpr (hkeys.sublist ((part.append (.refl _)).map _))
    · rcases List.mem_append.mp he with he | he
      · obtain ⟨inTable, unexpired⟩ := List.mem_filter.mp he
        exact hfits e (List.mem_append_left _ inTable) (by simpa using unexpired)
      · exact hfits e (List.mem_append_right _ he) (hstates e he).2
  · next noneExpired =>
    refine ⟨hlen, hkeys, fun e he => hfits e he ?_, fun d hd => (hstates d hd).1, hfull, hlevels⟩
    rcases List.mem_append.mp he with he | he
    · by_contra expired
      exact noneExpired (List.any_eq_true.mpr ⟨e, he, by simpa using expired⟩)
    · exact (hstates e he).2

theorem expiryFits_not_expired {e : CondEntry} (h : expiryFits e) : isExpired e = false := by
  unfold expiryFits at h
  unfold isExpired
  split at h
  · obtain ⟨n, hn, eq⟩ := h
    have := (List.mem_range'_1.mp hn).1
    simp only [eq, Option.some.injEq, decide_eq_false_iff_not]
    omega
  · simp [h]

theorem expireConds_sound {c : ConditionUnit} (h : c.sound) : (expireConds c).sound := by
  obtain ⟨⟨hlen, hkeys, hfits, hstates, hfull, hlevels⟩, hqueue⟩ := h
  refine ⟨?_, queueSound_congr (by rw [expireConds_frame]) hqueue⟩
  exact expireConds_tableSound hlen hkeys (fun e he _ => hfits e he)
    (fun d hd => ⟨hstates d hd, expiryFits_not_expired (hfits d (List.mem_append_right _ hd))⟩) hfull hlevels

/-- A count that a round start leaves above 0 is 1..250 still (R172, R175). -/
theorem aged_fits {e : CondEntry} (h : expiryFits e) (left : isExpired { e with expiry := e.expiry.map (· - 1) } = false) :
    expiryFits { e with expiry := e.expiry.map (· - 1) } := by
  unfold expiryFits at h ⊢
  split at h
  · next event =>
    obtain ⟨n, hn, eq⟩ := h
    rw [if_pos event]
    have range := List.mem_range'_1.mp hn
    simp only [isExpired, eq, Option.map_some, Option.some.injEq, decide_eq_false_iff_not] at left
    refine ⟨n - 1, List.mem_range'_1.mpr ?_, by simp [eq]⟩
    omega
  · next state => rw [if_neg state]; simp [h]

/-- A round start keeps the unit sound: what its decrement brings to 0 leaves with it (R175). -/
theorem ageConds_expireConds_tableSound {c : ConditionUnit} (h : c.tableSound) : (expireConds (ageConds c)).tableSound := by
  obtain ⟨hlen, hkeys, hfits, hstates, hfull, hlevels⟩ := h
  have members : ∀ e ∈ (ageConds c).table, ∃ f ∈ c.table, { f with expiry := f.expiry.map (· - 1) } = e :=
    fun e he => List.mem_map.mp he
  refine expireConds_tableSound (by simpa only [ageConds, List.length_map] using hlen) ?_ (fun e he left => ?_)
    (fun d hd => ⟨hstates d hd, expiryFits_not_expired (hfits d (List.mem_append_right _ hd))⟩)
    (by simpa only [ageConds, List.length_map] using hfull) fun d hd e he => ?_
  · have same : keysOf (ageConds c).table = keysOf c.table := by
      simp only [keysOf, ageConds, List.map_map]
      rfl
    unfold keysOf at hkeys same ⊢
    rw [List.map_append, same]
    rwa [List.map_append] at hkeys
  · rcases List.mem_append.mp he with he | he
    · obtain ⟨f, hf, rfl⟩ := members e he
      exact aged_fits (hfits f (List.mem_append_left _ hf)) left
    · exact hfits e (List.mem_append_right _ he)
  · obtain ⟨f, hf, rfl⟩ := members e he
    exact hlevels d hd f hf

theorem ageConds_expireConds_sound {c : ConditionUnit} (h : c.sound) : (expireConds (ageConds c)).sound :=
  ⟨ageConds_expireConds_tableSound h.1, queueSound_congr (by rw [expireConds_frame]; rfl) h.2⟩

theorem reofferDisplaced_sound {c : ConditionUnit} (h : c.sound) : (reofferDisplaced c).sound :=
  ⟨reofferDisplaced_tableSound h.1.1 h.1.keysOnce h.1.2.2.1, queueSound_congr (by rw [reofferDisplaced_frame]) h.2⟩

theorem reportTold_sound {c : ConditionUnit} (h : c.sound) (sent : Nat) (overflowSent : Bool) :
    (reportTold c sent overflowSent).sound :=
  ⟨tableSound_congr rfl rfl h.1, reportTold_queueSound h.2 sent overflowSent⟩

theorem ConditionUnit.reset_sound : ConditionUnit.reset.sound := by
  refine ⟨⟨by decide, List.nodup_nil, ?_, ?_, fun some => absurd rfl some, ?_⟩, by decide, List.nodup_nil, ?_⟩ <;>
    exact fun _ h => absurd h List.not_mem_nil

end Sys2Proof.Machine
end

