-- ==== Sys2Proof/Proofs/ConditionSteps.lean ====
section
/-! Every operation of the station, and so every step, keeps the Condition Unit sound (R172, R174, R177). The operations stand in the
order of the model; each is a chain of raises, holds and removals. -/

namespace Sys2Proof.Machine

/-! ### Raising and holding -/

@[simp] theorem Station.raise_condSound {s : Station} {code : CondCode} (h : s.cond.sound) (event : condIsEvent code = true)
    (source : Nat) : (s.raise code source).cond.sound := raiseEvent_sound h event _

@[simp] theorem Station.setHeld_condSound {s : Station} (h : s.cond.sound) (cause : Bool) (code : CondCode) (source : Nat) :
    (s.setHeld cause code source).cond.sound := setCond_sound h cause _ _

@[simp] theorem Station.setHeldAt_condSound {s : Station} (h : s.cond.sound) (cause : Bool) (code : CondCode)
    (source level : Nat) : (s.setHeldAt cause code source level).cond.sound := setCond_sound h cause _ _

@[simp] theorem Station.raiseTimes_condSound {s : Station} {code : CondCode} (h : s.cond.sound)
    (event : condIsEvent code = true) (source n : Nat) : (s.raiseTimes code source n).cond.sound :=
  Station.raiseTimes_keeps ConditionUnit.sound code source (fun _ hs => Station.raise_condSound hs event source) n s h

@[simp] theorem Station.ageConditions_condSound {s : Station} (h : s.cond.sound) : s.ageConditions.cond.sound :=
  ageConds_expireConds_sound h

/-! ### The pins and the passing of time (R72, R161) -/

@[simp] theorem Station.seeDisable_condSound {s : Station} (h : s.cond.sound) (level : Bool) :
    (s.seeDisable level).cond.sound := by
  unfold Station.seeDisable
  dsimp only
  (repeat' split) <;> simp [h]

@[simp] theorem Station.seeDrvFlt_condSound {s : Station} (h : s.cond.sound) (level : Bool) :
    (s.seeDrvFlt level).cond.sound := by
  unfold Station.seeDrvFlt
  dsimp only
  (repeat' split) <;> simp [h]

@[simp] theorem Station.samplePins_condSound {s : Station} (h : s.cond.sound) : s.samplePins.cond.sound := by
  unfold Station.samplePins
  split <;> simp [h]

@[simp] theorem Station.sampleUntil_condSound {s : Station} (h : s.cond.sound) (p : Nat) : (s.sampleUntil p).cond.sound := by
  unfold Station.sampleUntil
  split <;> simp [h]

theorem Station.reach_condSound {s : Station} (h : s.cond.sound) (p : Nat) : (s.reach p).cond.sound := by simp [h]

theorem Station.atMoment_condSound {s : Station} (h : s.cond.sound) {p : Nat} {f : Station → Station}
    (work : ∀ x : Station, x.cond.sound → (f x).cond.sound) : (s.atMoment p f).cond.sound :=
  Station.atMoment_preserves (fun x => x.cond.sound) (fun h => Station.reach_condSound h p) (work _) h

/-! ### Entries to LISTEN, SILENT and JOIN -/

theorem foldl_removeCond_sound (keys : List CondKey) : ∀ c : ConditionUnit, c.sound → (keys.foldl removeCond c).sound := by
  induction keys with
  | nil => exact fun _ h => h
  | cons k rest ih => exact fun c h => ih _ (removeCond_sound h k)

@[simp] theorem Station.restAuthority_condSound {s : Station} (h : s.cond.sound) : s.restAuthority.cond.sound := by
  rw [Station.restAuthority_cond]
  exact foldl_removeCond_sound _ _ h

@[simp] theorem Station.enterListen_condSound {s : Station} (h : s.cond.sound) : s.enterListen.cond.sound := by
  have removed := foldl_removeCond_sound listenKeys _ h
  rw [Station.enterListen_cond]
  generalize listenKeys.foldl removeCond s.cond = c at removed
  exact sound_congr rfl rfl rfl removed

@[simp] theorem Station.enterSilent_condSound {s : Station} (h : s.cond.sound) : s.enterSilent.cond.sound :=
  Station.setHeld_condSound (s := Station.driveOff _) h false .configDiffers 8

@[simp] theorem Station.clashSilence_condSound {s : Station} (h : s.cond.sound) : s.clashSilence.cond.sound := by
  unfold Station.clashSilence
  split <;> simp [h]

@[simp] theorem Station.returnAfterLoss_condSound {s : Station} (h : s.cond.sound) : s.returnAfterLoss.cond.sound := by
  have lost := Station.raise_condSound (code := .busLoss) h rfl 0
  simp [Station.returnAfterLoss, lost]

@[simp] theorem Station.busLoss_condSound {s : Station} (h : s.cond.sound) : s.busLoss.cond.sound := by
  unfold Station.busLoss
  split <;> simp [h]

@[simp] theorem Station.enterJoin_condSound {s : Station} (h : s.cond.sound) : s.enterJoin.cond.sound := by
  simp [Station.enterJoin, h]

@[simp] theorem Station.joinEntry_condSound {s : Station} (h : s.cond.sound) : s.joinEntry.cond.sound := by
  unfold Station.joinEntry
  split <;> simp [h]

/-! ### The Measurement Unit -/

@[simp] theorem Station.monitorConds_condSound {s : Station} (h : s.cond.sound) (c : StationNo) (state : MonitorState) :
    (s.monitorConds c state).cond.sound := by
  unfold Station.monitorConds
  cases state <;> simp [h]

@[simp] theorem Station.monitorChannel_condSound {s : Station} (h : s.cond.sound) (c : StationNo) :
    (s.monitorChannel c).cond.sound := by
  unfold Station.monitorChannel
  dsimp only
  (repeat' split) <;> simp [h]

@[simp] theorem Station.pairCheck_condSound {s : Station} (h : s.cond.sound) : s.pairCheck.cond.sound := by
  unfold Station.pairCheck
  dsimp only
  (repeat' split) <;> simp [h]

@[simp] theorem Station.raiseCalRange_condSound {s : Station} (h : s.cond.sound) (c : StationNo) :
    (s.raiseCalRange c).cond.sound := by
  unfold Station.raiseCalRange
  split
  · exact Station.raise_condSound h rfl _
  · exact h

@[simp] theorem Station.completePass_condSound {s : Station} (h : s.cond.sound) : s.completePass.cond.sound := by
  have raised := Station.foldl_preserves (fun x => x.cond.sound) Station.raiseCalRange
    (fun _ c hx => Station.raiseCalRange_condSound hx c) allStations s h
  simpa [Station.completePass] using raised

@[simp] theorem Station.countPass_condSound {s : Station} (h : s.cond.sound) (list : ScanList) :
    (s.countPass list).cond.sound := by
  unfold Station.countPass
  dsimp only
  (repeat' split) <;> simp [h]

@[simp] theorem Station.endScan_condSound {s : Station} (h : s.cond.sound) (scan : RunningScan) :
    (s.endScan scan).cond.sound := by
  have monitored := Station.foldl_preserves (fun x => x.cond.sound) Station.monitorChannel
    (fun _ c hx => Station.monitorChannel_condSound hx c) scan.written s h
  simp [Station.endScan, monitored]

@[simp] theorem Station.scanEnd_condSound {s : Station} (h : s.cond.sound) : s.scanEnd.cond.sound := by
  unfold Station.scanEnd
  (repeat' split) <;> simp [h]

@[simp] theorem Station.conversionEnd_condSound {s : Station} (h : s.cond.sound) (raw : Nat) :
    (s.conversionEnd raw).cond.sound := by
  unfold Station.conversionEnd
  (repeat' split) <;> simp [h]

@[simp] theorem Station.skipCalibration_condSound {s : Station} (h : s.cond.sound) (source : Nat) :
    (s.skipCalibration source).cond.sound := by
  refine Station.raise_condSound ?_ rfl source
  exact h

@[simp] theorem Station.calWaitTimeout_condSound {s : Station} (h : s.cond.sound) : s.calWaitTimeout.cond.sound := by
  unfold Station.calWaitTimeout
  split <;> simp [h]

@[simp] theorem Station.calibrationStep_condSound {s : Station} (h : s.cond.sound) : s.calibrationStep.cond.sound := by
  unfold Station.calibrationStep
  dsimp only
  (repeat' split) <;> simp [h]

@[simp] theorem Station.triggerScan_condSound {s : Station} (h : s.cond.sound) : s.triggerScan.cond.sound := by
  unfold Station.triggerScan Station.startScan
  split
  · exact Station.raise_condSound h rfl 0
  · simp [h]

@[simp] theorem Station.syncEvent_condSound {s : Station} (h : s.cond.sound) : s.syncEvent.cond.sound := by
  simp [Station.syncEvent, h]

/-! ### The peer table -/

@[simp] theorem Station.removeRecordConds_condSound {s : Station} (h : s.cond.sound) (k : StationNo) :
    (s.removeRecordConds k).cond.sound := by
  simp [Station.removeRecordConds, h]

theorem Station.makeAbsent_condSound {s : Station} (h : s.cond.sound) (k : StationNo) : (s.makeAbsent k).cond.sound :=
  Station.removeRecordConds_condSound (s := s.setPeer k _) h k

@[simp] theorem Station.peerLost_condSound {s : Station} (h : s.cond.sound) (k : StationNo) : (s.peerLost k).cond.sound := by
  have absent := Station.makeAbsent_condSound h k
  unfold Station.peerLost
  repeat' split
  · exact Station.raise_condSound absent rfl _
  · exact absent
  · exact h

@[simp] theorem Station.excludePeer_condSound {s : Station} (h : s.cond.sound) (before : PeerState) (bit : Bool)
    (k : StationNo) : (s.excludePeer before bit k).cond.sound := by
  unfold Station.excludePeer
  dsimp only
  repeat' split
  · exact h
  · exact Station.raise_condSound (Station.removeRecordConds_condSound (s := s.setPeer k _) h k) rfl _
  · exact Station.raise_condSound (s := s.setPeer k _) h rfl _

theorem Station.peerHandover_condSound {s : Station} (h : s.cond.sound) (named : StationSet) (k : StationNo) :
    (s.peerHandover named k).cond.sound := by
  have lost := fun r : PeerRecord => Station.peerLost_condSound (s := s.setPeer k r) h k
  unfold Station.peerHandover
  dsimp only
  split <;> simp [lost]

@[simp] theorem Station.peersHandover_condSound {s : Station} (h : s.cond.sound) (named : StationSet) :
    (s.peersHandover named).cond.sound :=
  Station.forPeers_preserves (fun x => x.cond.sound) _ (fun _ k _ hx => Station.peerHandover_condSound hx named k) s h

@[simp] theorem Station.identityConds_condSound {s : Station} (h : s.cond.sound) (k : StationNo) :
    (s.identityConds k).cond.sound := by
  unfold Station.identityConds
  split <;> simp [h]

theorem Station.checkRecord_condSound {s : Station} (h : s.cond.sound) (k : StationNo) : (s.checkRecord k).cond.sound := by
  have identity := Station.identityConds_condSound h k
  unfold Station.checkRecord
  dsimp only
  repeat' split
  · exact Station.raise_condSound (code := .trajMismatch) identity rfl _
  · exact identity
  · exact h

theorem Station.judgeRecord_condSound {s : Station} (h : s.cond.sound) (k : StationNo) : (s.judgeRecord k).cond.sound := by
  unfold Station.judgeRecord
  dsimp only
  repeat' split
  · exact Station.raise_condSound (s := s.setPeer k _) h rfl _
  all_goals simp [h]

@[simp] theorem Station.peersSection_condSound {s : Station} (h : s.cond.sound) : s.peersSection.cond.sound := by
  have loop := Station.forPeers_preserves fun x => x.cond.sound
  refine loop _ (fun _ k _ hx => Station.judgeRecord_condSound hx k) _ ?_
  refine loop _ (fun _ k _ hx => Station.checkRecord_condSound hx k) _ ?_
  refine loop _ (fun _ k _ hx => by simpa using hx) _ ?_
  refine loop _ (fun _ k _ hx => by simpa using hx) _ ?_
  exact Station.foldl_preserves (fun x => x.cond.sound) _ (fun _ k hx => by simpa using hx) allStations s h

@[simp] theorem Station.judgeDigest_condSound {s : Station} (h : s.cond.sound) : s.judgeDigest.cond.sound := by
  unfold Station.judgeDigest
  dsimp only
  split <;> simp [h]

/-! ### The Trajectory Engine -/

@[simp] theorem Station.removeDemandLost_condSound {s : Station} (h : s.cond.sound) : s.removeDemandLost.cond.sound :=
  Station.foldl_preserves (fun x => x.cond.sound) _ (fun _ source hx => Station.setHeld_condSound hx false _ source) _ s h

@[simp] theorem Station.holdDemandLost_condSound {s : Station} (h : s.cond.sound) (source : Nat) :
    (s.holdDemandLost source).cond.sound := by
  refine Station.setHeld_condSound (Station.foldl_preserves (fun x => x.cond.sound) _ (fun x n hx => ?_) _ s h) true _ source
  split <;> simp [hx]

@[simp] theorem Station.demandLost_condSound {s : Station} (h : s.cond.sound) : s.demandLost.cond.sound := by
  unfold Station.demandLost
  split <;> simp [h]

@[simp] theorem Station.formDemand_condSound {s : Station} (h : s.cond.sound) : s.formDemand.cond.sound := by
  unfold Station.formDemand
  split <;> simp [h]

@[simp] theorem Station.settleTimeout_condSound {s : Station} (h : s.cond.sound) : s.settleTimeout.cond.sound := by
  unfold Station.settleTimeout
  split
  · refine Station.raise_condSound ?_ rfl _
    exact h
  · exact h

@[simp] theorem Station.runOrSuspend_condSound {s : Station} (h : s.cond.sound) : s.runOrSuspend.cond.sound := by
  unfold Station.runOrSuspend Station.runAgreed Station.dropAdopted
  dsimp only
  (repeat' split) <;> simp [h]

@[simp] theorem Station.engineApply_condSound {s : Station} (h : s.cond.sound) : s.engineApply.cond.sound := by
  simp [Station.engineApply, h]

@[simp] theorem Station.splitView_condSound {s : Station} (h : s.cond.sound) : s.splitView.cond.sound := by
  simp [Station.splitView, h]

@[simp] theorem Station.countSplit_condSound {s : Station} (h : s.cond.sound) : s.countSplit.cond.sound := by
  simp [Station.countSplit, h]

/-! ### Actuator authority -/

@[simp] theorem Station.takeClose_condSound {s : Station} (h : s.cond.sound) (g : Group)
    (closed : Option (StationNo × CloseCode)) : (s.takeClose g closed).cond.sound := by
  have failed := fun (a : Authority) source =>
    Station.raise_condSound (code := .authFail) (s := { s with auth := a }) h rfl source
  unfold Station.takeClose Station.failClaim
  dsimp only
  (repeat' split) <;> simp [h, failed]

@[simp] theorem Station.commitGroup_condSound {s : Station} (h : s.cond.sound) (g : Group) (w : GroupWork) :
    (s.commitGroup g w).cond.sound := by
  simp [Station.commitGroup, h]

@[simp] theorem Station.groupConds_condSound {s : Station} (h : s.cond.sound) : s.groupConds.cond.sound := by
  have sole := Station.setHeld_condSound h (decide (s.auth.tilt.holders.length = 1)) .tiltSole 0
  unfold Station.groupConds
  dsimp only
  split <;> simp [h, sole]

@[simp] theorem Station.makeLive_condSound {s : Station} (h : s.cond.sound) : s.makeLive.cond.sound := by
  simp [Station.makeLive, h]

@[simp] theorem Station.authorityHandover_condSound {s : Station} (h : s.cond.sound) (applied : Option DecisionRecord) :
    (s.authorityHandover applied).cond.sound := by
  unfold Station.authorityHandover Station.groupWork
  split
  · exact Station.groupConds_condSound (Station.commitGroup_condSound (Station.commitGroup_condSound h _ _) _ _)
  · exact h

@[simp] theorem Station.rampStep_condSound {s : Station} (h : s.cond.sound) : s.rampStep.cond.sound := by
  unfold Station.rampStep Station.rampGroup
  split
  · exact Station.commitGroup_condSound (Station.commitGroup_condSound h _ _) _ _
  · exact h

@[simp] theorem Station.limitStage_condSound {s : Station} (h : s.cond.sound) (limit : GroupWork → GroupWork) :
    (s.limitStage limit).cond.sound := by
  unfold Station.limitStage Station.limitGroup
  split
  · exact Station.groupConds_condSound (Station.commitGroup_condSound (Station.commitGroup_condSound h _ _) _ _)
  · exact h

/-! ### The pins, the apply point and the tally -/

@[simp] theorem Station.changeDisable_condSound {s : Station} (h : s.cond.sound) (level seen : Bool) :
    (s.changeDisable level seen).cond.sound := by
  unfold Station.changeDisable
  dsimp only
  split <;> simp [h]

@[simp] theorem Station.changeDrvFlt_condSound {s : Station} (h : s.cond.sound) (level seen : Bool) :
    (s.changeDrvFlt level seen).cond.sound := by
  unfold Station.changeDrvFlt
  dsimp only
  split <;> simp [h]

/-- The speed mode and the proposal are no part of the table or the queue. -/
@[simp] theorem Station.propose_condSound {s : Station} (h : s.cond.sound) (claim : Nat) : (s.propose claim).cond.sound := by
  have offered := reofferDisplaced_sound h
  unfold Station.propose Station.moveSpeedMode
  dsimp only
  split <;> exact sound_congr rfl rfl rfl offered

@[simp] theorem Station.applyWork_condSound {s : Station} (h : s.cond.sound) : s.applyWork.cond.sound := by
  have ramped := Station.groupConds_condSound (Station.rampStep_condSound (Station.engineApply_condSound h))
  have proposed := Station.propose_condSound
    (s := s.engineApply.rampStep.groupConds.countAuthority.driveApply) (by simpa using ramped)
  simp [Station.applyWork, proposed]

@[simp] theorem Station.applyPoint_condSound {s : Station} (h : s.cond.sound) (parkReq : Bool) :
    (s.applyPoint parkReq).cond.sound := by
  unfold Station.applyPoint
  split
  · exact Station.atMoment_condSound h fun x hx => by simp [hx]
  · exact h

@[simp] theorem Station.takeImage_condSound {s : Station} (h : s.cond.sound) : s.takeImage.cond.sound := by
  unfold Station.takeImage
  split
  · exact Station.atMoment_condSound h fun x hx => by simpa using hx
  · exact h

@[simp] theorem Station.readBackTally_condSound {s : Station} (h : s.cond.sound) (wire : BitVec 70) :
    (s.readBackTally wire).cond.sound := by
  unfold Station.readBackTally
  split
  · exact Station.raiseTimes_condSound h rfl _ _
  · exact h

@[simp] theorem Station.consumeOutcomes_condSound {s : Station} (h : s.cond.sound) : s.consumeOutcomes.cond.sound := by
  simp [Station.consumeOutcomes, h]

@[simp] theorem Station.takeTally_condSound {s : Station} (h : s.cond.sound) (wire : BitVec 70) :
    (s.takeTally wire).cond.sound := by
  have counted := Station.countSplit_condSound (s := (s.readBackTally wire).takeOutcomes wire)
    (Station.readBackTally_condSound h wire)
  exact Station.consumeOutcomes_condSound (s := Station.takeOwnMatch _) counted

@[simp] theorem Station.joinHandover_condSound {s : Station} (h : s.cond.sound) : s.joinHandover.cond.sound := by
  have left := fun m : MembershipUnit => Station.setHeld_condSound (s := { s with member := m }) h false .configDiffers 8
  unfold Station.joinHandover Station.enterMember
  dsimp only
  (repeat' split) <;> simp [h, left]

@[simp] theorem Station.handover_condSound {s : Station} (h : s.cond.sound) (wire : BitVec 70) :
    (s.handover wire).cond.sound := by
  have taken := Station.takeTally_condSound h wire
  unfold Station.handover
  split
  · exact Station.groupConds_condSound (Station.enterSilent_condSound taken)
  · simp [taken]

@[simp] theorem Station.cutTally_condSound {s : Station} (h : s.cond.sound) (wire : BitVec 70) :
    (s.cutTally wire).cond.sound := by
  unfold Station.cutTally Station.readBackCut
  dsimp only
  split
  · refine Station.raiseTimes_condSound ?_ rfl _ _
    exact h
  · exact h

@[simp] theorem Station.tallyHandover_condSound {s : Station} (h : s.cond.sound) (wire : BitVec 70) :
    (s.tallyHandover wire).cond.sound := by
  unfold Station.tallyHandover
  repeat' split
  · exact Station.atMoment_condSound h fun x hx => Station.handover_condSound hx wire
  · exact Station.atMoment_condSound h fun x hx => Station.cutTally_condSound hx wire
  · exact h

/-! ### Reports -/

@[simp] theorem Station.sendReport_condSound {s : Station} (h : s.cond.sound) (readBack : BitVec 247) :
    (s.sendReport readBack).cond.sound := by
  have dropped : ConditionUnit.sound { s.cond with dropped := false } := sound_congr rfl rfl rfl h
  unfold Station.sendReport
  dsimp only
  split
  · refine Station.raise_condSound ?_ rfl _
    exact dropped
  · exact dropped

@[simp] theorem Station.ownReport_condSound {s : Station} (h : s.cond.sound) (readBack : BitVec 247) :
    (s.ownReport readBack).cond.sound := by
  unfold Station.ownReport
  split
  · exact Station.atMoment_condSound h fun x hx => Station.sendReport_condSound hx readBack
  · exact h

theorem Station.endFrame_condSound {s : Station} (h : s.cond.sound) (frame : BitVec 247) (report : Report)
    (mismatch : Option Nat) : (s.endFrame frame report mismatch).cond.sound := by
  unfold Station.endFrame
  dsimp only
  split <;> simp [h, reportTold_sound]

@[simp] theorem Station.ownSlotEnd_condSound {s : Station} (h : s.cond.sound) : s.ownSlotEnd.cond.sound := by
  unfold Station.ownSlotEnd
  split
  · refine Station.atMoment_condSound h fun x hx => ?_
    split
    · exact hx
    · exact Station.endFrame_condSound hx _ _ _
  · exact h
  · exact h

@[simp] theorem Station.slotEnd_condSound {s : Station} (h : s.cond.sound) (k : StationNo) (sampled : BitVec 247) :
    (s.slotEnd k sampled).cond.sound := by
  unfold Station.slotEnd
  split
  · exact Station.atMoment_condSound h fun x hx => hx
  · exact h

@[simp] theorem Station.endSection_condSound {s : Station} (h : s.cond.sound) : s.endSection.cond.sound := by
  have judged : s.peersSection.judgeDigest.judgeMatch.keepEvidence.closeSection.cond.sound := by simp [h]
  unfold Station.endSection Station.handOn
  dsimp only
  split
  · exact Station.groupConds_condSound judged
  · exact h

@[simp] theorem Station.reportSectionEnd_condSound {s : Station} (h : s.cond.sound) : s.reportSectionEnd.cond.sound := by
  unfold Station.reportSectionEnd
  split
  · exact Station.atMoment_condSound h fun x hx => Station.endSection_condSound hx
  · exact h

/-! ### The round timer -/

@[simp] theorem Station.confirmMark_condSound {s : Station} (h : s.cond.sound) : s.confirmMark.cond.sound := by
  have opened : ∀ x : Station, x.cond.sound →
      x.ageConditions.countGoodRound.syncEvent.busLoss.joinEntry.cond.sound := fun x hx => by
    have aged := Station.ageConditions_condSound hx
    have counted : x.ageConditions.countGoodRound.syncEvent.cond.sound := by simp [aged]
    simp [counted]
  unfold Station.confirmMark
  dsimp only
  split <;> exact opened _ (by simpa using h)

@[simp] theorem Station.syncMark_condSound {s : Station} (h : s.cond.sound) : s.syncMark.cond.sound := by
  unfold Station.syncMark
  split <;> simp [h]

@[simp] theorem Station.startMark_condSound {s : Station} (h : s.cond.sound) : s.startMark.cond.sound := by
  unfold Station.startMark Station.loseBusAtDrive
  dsimp only
  split <;> simp [h]

@[simp] theorem Station.ownMark_condSound {s : Station} (h : s.cond.sound) : s.ownMark.cond.sound := by
  unfold Station.ownMark
  dsimp only
  split <;> simp [h]

@[simp] theorem Station.startMarkless_condSound {s : Station} (h : s.cond.sound) (position : Nat) :
    (s.startMarkless position).cond.sound := by
  have closed : s.closeAbandoned.cond.sound := by simp [h]
  have aged := Station.ageConditions_condSound
    (s := ({ s.closeAbandoned with bus := s.closeAbandoned.bus.openMarkless position } : Station).abandonRound position) closed
  exact Station.raise_condSound aged rfl 0

theorem Station.faultMark_condSound {s : Station} (h : s.cond.sound) : s.faultMark.cond.sound := by
  unfold Station.faultMark
  repeat' split
  · exact h
  · refine Station.raise_condSound ?_ rfl 0
    exact h
  · exact h

@[simp] theorem Station.markNotReadBack_condSound {s : Station} (h : s.cond.sound) (sample : Nat) :
    (s.markNotReadBack sample).cond.sound := by
  unfold Station.markNotReadBack Station.markMissed
  repeat' split
  · exact Station.atMoment_condSound h fun x hx => Station.faultMark_condSound hx
  all_goals simp [h]

@[simp] theorem Station.overdueMark_condSound {s : Station} (h : s.cond.sound) : s.overdueMark.cond.sound := by
  unfold Station.overdueMark
  (repeat' split) <;> simp [h]

@[simp] theorem Station.coldStart_condSound {s : Station} (h : s.cond.sound) : s.coldStart.cond.sound := by
  unfold Station.coldStart
  dsimp only
  split <;> simp [h]

@[simp] theorem Station.windowExpiry_condSound {s : Station} (h : s.cond.sound) : s.windowExpiry.cond.sound := by
  unfold Station.windowExpiry
  split <;> simp [h]

@[simp] theorem Station.edge_condSound {s : Station} (h : s.cond.sound) (position : Nat) : (s.edge position).cond.sound := by
  unfold Station.edge
  split
  · exact Station.atMoment_condSound h fun x hx => hx
  · exact h

@[simp] theorem Station.releaseHeldBack_condSound {s : Station} (h : s.cond.sound) (position : Nat) :
    (s.releaseHeldBack position).cond.sound := by
  unfold Station.releaseHeldBack
  dsimp only
  (repeat' split) <;> simp [h]

@[simp] theorem Station.dropCandidate_condSound {s : Station} (h : s.cond.sound) (position : Nat) :
    (s.dropCandidate position).cond.sound := by
  unfold Station.dropCandidate
  split
  · exact Station.atMoment_condSound h fun x hx => by simp [hx]
  · exact h

@[simp] theorem Station.countStuck_condSound {s : Station} (h : s.cond.sound) (position : Nat) :
    (s.countStuck position).cond.sound := by
  have stuck := fun b : BusUnit =>
    Station.raise_condSound (code := .stuckBus) (s := { s with bus := b }) h rfl (stuckSource position)
  unfold Station.countStuck Station.detectStuck
  dsimp only
  (repeat' split) <;> simp [h, stuck]

@[simp] theorem Station.countSpan_condSound (n : Nat) :
    ∀ (s : Station) (position : Nat), s.cond.sound → (s.countSpan position n).cond.sound := by
  induction n with
  | zero => exact fun _ _ h => h
  | succ n ih => exact fun s position h => ih _ _ (Station.countStuck_condSound h position)

@[simp] theorem Station.stuckSpan_condSound {s : Station} (h : s.cond.sound) (first last : Nat) :
    (s.stuckSpan first last).cond.sound := by
  unfold Station.stuckSpan
  dsimp only
  split <;> simp [h]

@[simp] theorem Station.silentHoldEnd_condSound {s : Station} (h : s.cond.sound) : s.silentHoldEnd.cond.sound := by
  unfold Station.silentHoldEnd Station.passHold
  (repeat' split) <;> simp [h]

/-! ### LOAD and the bit time -/

@[simp] theorem Station.loadEnd_condSound {s : Station} (h : s.cond.sound) : s.loadEnd.cond.sound := by
  have fresh : Station.reset.cond.sound := ConditionUnit.reset_sound
  unfold Station.loadEnd Station.endLoad Station.tellSvc
  repeat' split
  · exact fresh
  · exact Station.raise_condSound fresh rfl _
  · exact fresh
  · exact h

theorem Station.tick_condSound {s : Station} (h : s.cond.sound) : s.tick.cond.sound :=
  Station.takeDue_preserves (fun x => x.cond.sound) (fun _ => Station.takeImage_condSound)
    (fun _ parkReq hx => Station.applyPoint_condSound hx parkReq)
    (fun _ => Station.ownMark_condSound) (fun _ => Station.coldStart_condSound)
    (fun _ => Station.silentHoldEnd_condSound) _ (Station.overdueMark_condSound (by simp [h]))

theorem effect_condSound (c : Instr) (x : Station) (h : x.cond.sound) : (effect c x).cond.sound := by
  cases c with
  | reset => exact ConditionUnit.reset_sound
  | resetRelease => unfold effect Station.release; dsimp only; split <;> exact h
  | svcFallingEdge => unfold effect Station.svcEdge; dsimp only; split <;> exact h
  | imageReadDone => unfold effect Station.imageReadDone; dsimp only; split <;> exact h
  | conversionEnd => unfold effect; dsimp only; split <;> simp [h]
  | scanEnd => unfold effect; dsimp only; split <;> simp [h]
  | conditionExpiry => exact expireConds_sound h
  | lockRampEnd => exact h
  | _ => simp [effect, h]

/-- Settles O55: each effect and the bit time keep the unit sound. -/
theorem conditionsStaySound : Obligations.ConditionsStaySound :=
  step_keeps (P := fun x => x.cond.sound) (fun _ h => Station.tick_condSound h) effect_condSound

end Sys2Proof.Machine
end

