-- ==== Sys2Proof/Proofs/StateKept.lean ====
section
/-! What the operations keep of the station state and of the held outcome set, beside the frames of Laws/Frames.lean. -/

namespace Sys2Proof.Machine

/-! ### The station state -/

@[simp] theorem Station.takeView_state (s : Station) (a : AdoptionEntry) : (s.takeView a).member.state = s.member.state := by
  unfold Station.takeView
  split <;> rfl

@[simp] theorem Station.adopt_state (s : Station) (entry : Option AdoptionEntry) :
    (s.adopt entry).member.state = s.member.state := by
  unfold Station.adopt
  (repeat' split) <;> simp

@[simp] theorem Station.consumeOutcomes_state (s : Station) : s.consumeOutcomes.member.state = s.member.state := by
  simp [Station.consumeOutcomes]

@[simp] theorem Station.takeOwnMatch_state (s : Station) : s.takeOwnMatch.member.state = s.member.state := rfl

@[simp] theorem Station.takeTally_state (s : Station) (wire : BitVec 70) :
    (s.takeTally wire).member.state = s.member.state := by
  simp [Station.takeTally]

@[simp] theorem Station.runOrSuspend_state (s : Station) : s.runOrSuspend.member.state = s.member.state := by
  unfold Station.runOrSuspend Station.dropAdopted
  (repeat' split) <;> simp

@[simp] theorem Station.engineApply_state (s : Station) : s.engineApply.member.state = s.member.state := by
  simp [Station.engineApply]

@[simp] theorem Station.applyWork_state (s : Station) : s.applyWork.member.state = s.member.state := by
  simp [Station.applyWork]

@[simp] theorem Station.judgeDigest_state (s : Station) : s.judgeDigest.member.state = s.member.state := by
  unfold Station.judgeDigest
  split <;> simp

@[simp] theorem MembershipUnit.takeMatch_state (m : MembershipUnit) (result : MatchResult) :
    (m.takeMatch result).state = m.state := by
  cases result <;> rfl

@[simp] theorem Station.judgeMatch_state (s : Station) : s.judgeMatch.member.state = s.member.state := by
  unfold Station.judgeMatch
  split <;> simp

@[simp] theorem Station.handOn_state (s : Station) : s.handOn.member.state = s.member.state := by simp [Station.handOn]

@[simp] theorem Station.handNothing_state (s : Station) : s.handNothing.member.state = s.member.state := rfl

@[simp] theorem Station.endSection_state (s : Station) : s.endSection.member.state = s.member.state := by
  unfold Station.endSection
  split <;> simp

@[simp] theorem Station.notifyRound_state (s : Station) : s.notifyRound.member.state = s.member.state := by
  unfold Station.notifyRound
  split <;> rfl

@[simp] theorem Station.closeAbandoned_state (s : Station) : s.closeAbandoned.member.state = s.member.state := by
  unfold Station.closeAbandoned
  dsimp only
  (repeat' split) <;> simp

@[simp] theorem Station.countGoodRound_state (s : Station) : s.countGoodRound.member.state = s.member.state := by
  unfold Station.countGoodRound
  split <;> rfl

@[simp] theorem Station.startMarkless_state (s : Station) (position : Nat) :
    (s.startMarkless position).member.state = s.member.state := by
  simp [Station.startMarkless]

@[simp] theorem Station.countStuck_member (s : Station) (position : Nat) : (s.countStuck position).member = s.member := by
  unfold Station.countStuck Station.detectStuck
  dsimp only
  (repeat' split) <;> simp

@[simp] theorem Station.tickHold_state (s : Station) : s.tickHold.member.state = s.member.state := by
  unfold Station.tickHold
  split <;> rfl

/-! ### The bus -/

@[simp] theorem Station.engineApply_bus (s : Station) :
    s.engineApply.bus =
      { s.bus with pendingRecord := s.bus.pendingRecord.map (DecisionRecord.withDemand s.engineApply.engine.demand) } := by
  simp [Station.engineApply]

@[simp] theorem Station.applyWork_held (s : Station) : s.applyWork.bus.held = s.bus.held := by simp [Station.applyWork]

@[simp] theorem Station.handOn_held (s : Station) : s.handOn.bus.held = s.bus.held := by
  simp [Station.handOn, Station.closeSection]

@[simp] theorem Station.endSection_held (s : Station) : s.endSection.bus.held = s.bus.held := by
  unfold Station.endSection
  split
  · simp
  · rfl

@[simp] theorem BusUnit.cutFrame_held (b : BusUnit) : b.cutFrame.held = b.held := by
  unfold BusUnit.cutFrame
  split <;> rfl

/-- The consumers of an abandoned round take a claim and a class from the held set, and no MODE (R25). -/
@[simp] theorem Station.closeAbandoned_mode (s : Station) : s.closeAbandoned.bus.held.mode = s.bus.held.mode := by
  unfold Station.closeAbandoned Station.handNothing
  dsimp only
  (repeat' split) <;> simp [BusUnit.tellTally, HeldSet.markAbandoned]

@[simp] theorem Station.cutTally_mode (s : Station) (wire : BitVec 70) : (s.cutTally wire).bus.held.mode = s.bus.held.mode := by
  unfold Station.cutTally Station.readBackCut
  split
  · rw [Station.raiseTimes_frame]; rfl
  · rfl

@[simp] theorem Station.startMarkless_mode (s : Station) (position : Nat) :
    (s.startMarkless position).bus.held.mode = s.bus.held.mode := by
  simp [Station.startMarkless, Station.abandonRound, BusUnit.openMarkless]

@[simp] theorem Station.sendReport_held (s : Station) (readBack : BitVec 247) :
    (s.sendReport readBack).bus.held = s.bus.held := by
  unfold Station.sendReport
  dsimp only
  split <;> rfl

@[simp] theorem Station.countStuck_held (s : Station) (position : Nat) : (s.countStuck position).bus.held = s.bus.held := by
  unfold Station.countStuck Station.detectStuck
  dsimp only
  (repeat' split) <;> simp [Station.abandonRound]

@[simp] theorem Station.faultMark_held (s : Station) : s.faultMark.bus.held = s.bus.held := by
  unfold Station.faultMark
  (repeat' split) <;> rfl

@[simp] theorem Station.tickPosition_held (s : Station) : s.tickPosition.bus.held = s.bus.held := by
  unfold Station.tickPosition
  split
  · simp
  · rfl

end Sys2Proof.Machine
end

