-- ==== Sys2Proof/Proofs/Invariants.lean ====
section
/-! How an invariant of the station is carried through every step. Most operations stand beside what the invariants of Safety.lean read
(the parameters, the peer table, the engine, the authority table, the drive, the station state, the held MODE and the pending record);
`Station.Beside` says so once for each of them. What is left, an invariant shows of each operation that touches it
(`KeptByWork`), and `KeptByWork.keeps` walks all the commands and the bit time. -/

namespace Sys2Proof.Machine

/-! ### Work beside the invariants -/

/-- `y` is `x` after work that leaves the blocks the invariants read; a record that was pending is pending still or dropped. -/
structure Station.Beside (x y : Station) : Prop where
  loader : y.loader = x.loader
  params : y.params = x.params
  peers : y.peers = x.peers
  engine : y.engine = x.engine
  auth : y.auth = x.auth
  drive : y.drive = x.drive
  state : y.member.state = x.member.state
  mode : y.bus.held.mode = x.bus.held.mode
  record : y.bus.pendingRecord = x.bus.pendingRecord ∨ y.bus.pendingRecord = none

namespace Station

theorem Beside.refl (x : Station) : x.Beside x := ⟨rfl, rfl, rfl, rfl, rfl, rfl, rfl, rfl, .inl rfl⟩

theorem Beside.trans {x y z : Station} (h : x.Beside y) (g : y.Beside z) : x.Beside z where
  loader := g.loader.trans h.loader
  params := g.params.trans h.params
  peers := g.peers.trans h.peers
  engine := g.engine.trans h.engine
  auth := g.auth.trans h.auth
  drive := g.drive.trans h.drive
  state := g.state.trans h.state
  mode := g.mode.trans h.mode
  record := g.record.elim (fun same => h.record.imp same.trans same.trans) .inr

/-- The Bus Unit changed in nothing but its own counts, marks and round. -/
theorem beside_bus (x : Station) {b : BusUnit} (mode : b.held.mode = x.bus.held.mode := by rfl)
    (record : b.pendingRecord = x.bus.pendingRecord ∨ b.pendingRecord = none := by exact .inl rfl) : x.Beside { x with bus := b } :=
  ⟨rfl, rfl, rfl, rfl, rfl, rfl, rfl, mode, record⟩

theorem beside_meas (x : Station) (m : MeasurementUnit) : x.Beside { x with meas := m } :=
  ⟨rfl, rfl, rfl, rfl, rfl, rfl, rfl, rfl, .inl rfl⟩

theorem beside_cond (x : Station) (c : ConditionUnit) : x.Beside { x with cond := c } :=
  ⟨rfl, rfl, rfl, rfl, rfl, rfl, rfl, rfl, .inl rfl⟩

theorem raise_beside (x : Station) (code : CondCode) (source : Nat) : x.Beside (x.raise code source) := x.beside_cond _

theorem abandonRound_beside (x : Station) (position : Nat) : x.Beside (x.abandonRound position) :=
  x.beside_bus rfl (by dsimp only; split <;> simp)

theorem beside_pins (x : Station) (p : Pins) : x.Beside { x with pins := p } :=
  ⟨rfl, rfl, rfl, rfl, rfl, rfl, rfl, rfl, .inl rfl⟩

theorem advance_record (s : Station) (p : Nat) :
    (s.advance p).bus.pendingRecord = s.bus.pendingRecord ∨ (s.advance p).bus.pendingRecord = none := by
  rcases s.advance_cases p with h | h <;> rw [h]
  · exact .inl rfl
  · exact .inr rfl

theorem advance_beside (x : Station) (p : Nat) : x.Beside (x.advance p) := by
  constructor <;> simp [advance_record]

theorem notifyRound_beside (x : Station) : x.Beside x.notifyRound := by constructor <;> simp

theorem closeAbandoned_record (x : Station) :
    x.closeAbandoned.bus.pendingRecord = x.bus.pendingRecord ∨ x.closeAbandoned.bus.pendingRecord = none := by
  have cut : ∀ b : BusUnit, b.cutFrame.pendingRecord = b.pendingRecord := fun b => by
    unfold BusUnit.cutFrame
    split <;> rfl
  unfold closeAbandoned
  dsimp only
  (repeat' split) <;> simp [cut, handNothing, BusUnit.tellTally]

theorem closeAbandoned_beside (x : Station) : x.Beside x.closeAbandoned := by
  constructor <;> simp [closeAbandoned_record]

theorem ageConditions_beside (x : Station) : x.Beside x.ageConditions := x.beside_cond _

theorem countGoodRound_beside (x : Station) : x.Beside x.countGoodRound := by constructor <;> simp

theorem syncEvent_beside (x : Station) : x.Beside x.syncEvent := by constructor <;> simp

theorem startMarkless_beside (x : Station) (position : Nat) : x.Beside (x.startMarkless position) := by
  have opened : x.Beside { x.closeAbandoned with bus := x.closeAbandoned.bus.openMarkless position } :=
    x.closeAbandoned_beside.trans (beside_bus _)
  exact ((opened.trans (abandonRound_beside _ _)).trans (ageConditions_beside _)).trans (raise_beside _ _ _)

theorem faultMark_beside (x : Station) : x.Beside x.faultMark := by
  unfold faultMark
  repeat' split
  · exact .refl x
  · exact x.beside_bus.trans (raise_beside _ _ _)
  · exact .refl x

theorem countStuck_beside (x : Station) (position : Nat) : x.Beside (x.countStuck position) := by
  unfold countStuck detectStuck
  dsimp only
  repeat' split
  · exact x.beside_bus.trans (raise_beside _ _ _)
  · exact (x.beside_bus.trans (raise_beside _ _ _)).trans (abandonRound_beside _ _)
  · exact x.beside_bus
  · exact .refl x

theorem countSpan_beside (n : Nat) : ∀ (x : Station) (position : Nat), x.Beside (x.countSpan position n) := by
  induction n with
  | zero => exact fun x _ => .refl x
  | succ n ih => exact fun x position => (x.countStuck_beside position).trans (ih _ _)

theorem sendReport_beside (x : Station) (readBack : BitVec 247) : x.Beside (x.sendReport readBack) := by
  have record : (x.sendReport readBack).bus.pendingRecord = x.bus.pendingRecord := by
    unfold sendReport
    dsimp only
    split <;> rfl
  constructor <;> simp [record]

theorem cutTally_record (s : Station) (wire : BitVec 70) : (s.cutTally wire).bus.pendingRecord = none := rfl

theorem cutTally_beside (x : Station) (wire : BitVec 70) : x.Beside (x.cutTally wire) := by
  constructor <;> simp [cutTally_record]

theorem cutFrame_beside (x : Station) : x.Beside { x with bus := x.bus.cutFrame } := by
  refine x.beside_bus (by simp) (.inl ?_)
  unfold BusUnit.cutFrame
  split <;> rfl

theorem tickWork_beside (x : Station) : x.Beside x.tickPosition.tickHold.tickScan := by
  have position : x.Beside x.tickPosition := by
    unfold tickPosition
    split
    · exact x.advance_beside _
    · exact x.beside_bus
  have hold : ∀ y : Station, y.Beside y.tickHold := fun y => by constructor <;> simp
  exact (position.trans (hold _)).trans (beside_meas _ _)

end Station

/-! ### What an invariant shows of the rest -/

theorem readsPins_of_isDriving {m : StationState} (driving : isDriving m = true) : readsPins m = true := by
  revert driving
  cases m <;> decide

/-- The work that touches what the invariants read, each in the states in which the commands do it. -/
structure KeptByWork (P : Station → Prop) : Prop where
  beside : ∀ {x y : Station}, x.Beside y → P x → P y
  reset : ∀ pins : Pins, P { Station.reset with pins := pins }
  loading : ∀ (x : Station) (l : Loader), x.member.state = .load → P x → P { x with loader := l }
  endLoad : ∀ x : Station, P x.endLoad
  seeDisable : ∀ (x : Station) (level : Bool), readsPins x.member.state = true → P x → P (x.seeDisable level)
  seeDrvFlt : ∀ (x : Station) (level : Bool), P x → P (x.seeDrvFlt level)
  enterListen : ∀ x : Station, readsPins x.member.state = true → P x → P x.enterListen
  enterSilent : ∀ x : Station, isDriving x.member.state = true → P x → P x.enterSilent
  enterJoin : ∀ x : Station, x.member.state = .listen → P x → P x.enterJoin
  handover : ∀ (x : Station) (wire : BitVec 70), P x → P (x.handover wire)
  applyWork : ∀ x : Station, P x → P x.applyWork
  handOn : ∀ x : Station, P x → P x.handOn
  limitStage : ∀ (x : Station) (limit : GroupWork → GroupWork),
    limit = GroupWork.answerLimit ∨ limit = GroupWork.prepareLimit → P x → P (x.limitStage limit)
  settleTimeout : ∀ x : Station, P x → P x.settleTimeout
  demandLost : ∀ x : Station, P x → P x.demandLost
  peerLost : ∀ (x : Station) (k : StationNo), P x → P (x.peerLost k)
  suspectRecovery : ∀ (x : Station) (k : StationNo), P x → P (x.suspectRecovery k)
  lockRampEnd : ∀ x : Station, P x → P x.lockRampEnd
  releaseHoldEnd : ∀ x : Station, P x → P x.releaseHoldEnd

namespace KeptByWork

variable {P : Station → Prop}

/-! ### The passing of time -/

theorem samplePins (K : KeptByWork P) {x : Station} (h : P x) : P x.samplePins := by
  unfold Station.samplePins
  split
  · next reads => exact K.seeDrvFlt _ _ (K.seeDisable x _ reads h)
  · exact h

theorem sampleUntil (K : KeptByWork P) {x : Station} (h : P x) (p : Nat) : P (x.sampleUntil p) := by
  unfold Station.sampleUntil
  split
  · exact K.samplePins h
  · exact h

theorem reach (K : KeptByWork P) {x : Station} (h : P x) (p : Nat) : P (x.reach p) :=
  K.beside (Station.advance_beside _ p) (K.sampleUntil h p)

theorem atMoment (K : KeptByWork P) {x : Station} (h : P x) {p : Nat} {f : Station → Station}
    (work : ∀ y : Station, P y → P (f y)) : P (x.atMoment p f) :=
  Station.atMoment_preserves P (fun h => K.reach h p) (work _) h

/-! ### Entries to LISTEN, SILENT and JOIN where they are due -/

theorem clashSilence (K : KeptByWork P) {x : Station} (h : P x) : P x.clashSilence := by
  unfold Station.clashSilence
  split
  · next due => exact K.enterSilent x (Bool.and_eq_true_iff.mp due).1 h
  · exact h

theorem busLoss (K : KeptByWork P) {x : Station} (h : P x) : P x.busLoss := by
  unfold Station.busLoss
  split
  · next due =>
    have driving : isDriving x.member.state = true := (Bool.and_eq_true_iff.mp due).1
    have counted : x.Beside
        { x.raise .busLoss 0 with member := { x.member with losses := succSat 4 x.member.losses } } :=
      ⟨rfl, rfl, rfl, rfl, rfl, rfl, rfl, rfl, .inl rfl⟩
    exact K.beside (Station.beside_bus _) (K.enterListen _ (readsPins_of_isDriving driving) (K.beside counted h))
  · exact h

theorem joinEntry (K : KeptByWork P) {x : Station} (h : P x) : P x.joinEntry := by
  unfold Station.joinEntry
  split
  · next due =>
    simp only [Station.joinEntryDue, Bool.and_eq_true, decide_eq_true_eq] at due
    exact K.enterJoin x due.1.1 h
  · exact h

theorem silentHoldEnd (K : KeptByWork P) {x : Station} (h : P x) : P x.silentHoldEnd := by
  unfold Station.silentHoldEnd Station.passHold
  split
  · next silent =>
    split
    · refine K.enterListen _ ?_ (K.samplePins h)
      rw [Station.samplePins_state]
      simp [silent, readsPins]
    · exact K.enterListen x (by simp [silent, readsPins]) h
  · exact h

/-! ### The round timer -/

theorem confirmMark (K : KeptByWork P) {x : Station} (h : P x) : P x.confirmMark := by
  have opened : ∀ y : Station, y.Beside
      ({ y.closeAbandoned with bus := y.closeAbandoned.bus.openRound } : Station).ageConditions.countGoodRound.syncEvent :=
    fun y => y.closeAbandoned_beside.trans ((Station.beside_bus _).trans
      ((Station.ageConditions_beside _).trans ((Station.countGoodRound_beside _).trans (Station.syncEvent_beside _))))
  unfold Station.confirmMark
  dsimp only
  split
  · exact K.joinEntry (K.busLoss (K.beside (opened x) h))
  · exact K.joinEntry (K.busLoss (K.beside (x.notifyRound_beside.trans (opened _)) h))

theorem syncMark (K : KeptByWork P) {x : Station} (h : P x) : P x.syncMark := by
  unfold Station.syncMark
  split
  · exact K.confirmMark (K.reach h _)
  · exact h

theorem startMark (K : KeptByWork P) {x : Station} (h : P x) : P x.startMark := by
  have driven : x.Beside { x.notifyRound with bus := x.notifyRound.bus.driveMark } :=
    x.notifyRound_beside.trans (Station.beside_bus _)
  unfold Station.startMark Station.loseBusAtDrive
  dsimp only
  split
  · exact K.busLoss (K.beside (driven.trans (Station.ageConditions_beside _)) h)
  · exact K.beside driven h

theorem ownMark (K : KeptByWork P) {x : Station} (h : P x) : P x.ownMark := by
  unfold Station.ownMark
  dsimp only
  split
  · exact K.startMark (K.reach h _)
  · exact h

theorem markNotReadBack (K : KeptByWork P) {x : Station} (h : P x) (sample : Nat) : P (x.markNotReadBack sample) := by
  unfold Station.markNotReadBack Station.markMissed
  repeat' split
  · exact K.atMoment h fun y hy => K.beside y.faultMark_beside hy
  · exact K.beside (Station.startMarkless_beside _ _) (K.reach h _)
  · exact h
  · exact h

theorem overdueMark (K : KeptByWork P) {x : Station} (h : P x) : P x.overdueMark := by
  unfold Station.overdueMark
  repeat' split
  · exact K.beside (Station.startMarkless_beside _ _) h
  · exact h
  · exact h

theorem coldStart (K : KeptByWork P) {x : Station} (h : P x) : P x.coldStart := by
  unfold Station.coldStart
  dsimp only
  split
  · next due =>
    have listen : (x.reach (coldStartAt x.number)).member.state = .listen := by
      simp only [Station.coldStartDue, Bool.and_eq_true, decide_eq_true_eq] at due
      exact due.1.1
    exact K.beside (Station.beside_bus _) (K.enterJoin _ listen (K.reach h _))
  · exact h

theorem windowExpiry (K : KeptByWork P) {x : Station} (h : P x) : P x.windowExpiry := by
  unfold Station.windowExpiry
  split
  · exact K.reach h _
  · exact h

theorem edge (K : KeptByWork P) {x : Station} (h : P x) (position : Nat) : P (x.edge position) := by
  unfold Station.edge
  split
  · exact K.atMoment h fun y hy => K.beside y.beside_bus hy
  · exact h

theorem releaseHeldBack (K : KeptByWork P) {x : Station} (h : P x) (position : Nat) : P (x.releaseHeldBack position) := by
  have later := K.reach h (position + 1)
  unfold Station.releaseHeldBack
  dsimp only
  repeat' split
  · exact K.ownMark later
  · exact K.coldStart later
  · exact h

theorem dropCandidate (K : KeptByWork P) {x : Station} (h : P x) (position : Nat) : P (x.dropCandidate position) := by
  unfold Station.dropCandidate
  split
  · exact K.atMoment h fun y hy => K.releaseHeldBack (K.beside y.beside_bus hy) position
  · exact h

theorem stuckSpan (K : KeptByWork P) {x : Station} (h : P x) (first last : Nat) : P (x.stuckSpan first last) := by
  have counted : ∀ (y : Station) (n next : Nat), y.Beside
      ({ ({ y with bus := y.bus.beginSpan first } : Station).countSpan first n with
        bus := { (({ y with bus := y.bus.beginSpan first } : Station).countSpan first n).bus with stuckNext := next } } :
          Station) := fun y n next =>
    (y.beside_bus.trans (Station.countSpan_beside n _ first)).trans (Station.beside_bus _)
  unfold Station.stuckSpan
  split
  · exact K.beside ((counted _ _ _).trans (Station.advance_beside _ last)) (K.sampleUntil h last)
  · exact h

/-! ### The tally, the reports and the apply point -/

theorem takeImage (K : KeptByWork P) {x : Station} (h : P x) : P x.takeImage := by
  unfold Station.takeImage
  split
  · exact K.atMoment h fun y hy => K.beside y.beside_bus hy
  · exact h

theorem tallyHandover (K : KeptByWork P) {x : Station} (h : P x) (wire : BitVec 70) : P (x.tallyHandover wire) := by
  unfold Station.tallyHandover
  repeat' split
  · exact K.atMoment h fun y hy => K.handover y wire hy
  · exact K.atMoment h fun y hy => K.beside (y.cutTally_beside wire) hy
  · exact h

theorem ownReport (K : KeptByWork P) {x : Station} (h : P x) (readBack : BitVec 247) : P (x.ownReport readBack) := by
  unfold Station.ownReport
  split
  · exact K.atMoment h fun y hy => K.beside (y.sendReport_beside readBack) hy
  · exact h

theorem endFrame (K : KeptByWork P) {x : Station} (h : P x) (frame : BitVec 247) (report : Report) (mismatch : Option Nat) :
    P (x.endFrame frame report mismatch) := by
  have ended : x.Beside { x with bus := x.bus.endOwnSlot x.number frame report mismatch } := x.beside_bus
  unfold Station.endFrame
  dsimp only
  split
  · exact K.clashSilence (K.beside (ended.trans (Station.beside_cond _ _)) h)
  · exact K.clashSilence (K.beside ended h)

theorem ownSlotEnd (K : KeptByWork P) {x : Station} (h : P x) : P x.ownSlotEnd := by
  unfold Station.ownSlotEnd
  split
  · refine K.atMoment h fun y hy => ?_
    split
    · exact K.beside y.cutFrame_beside hy
    · exact K.endFrame hy _ _ _
  · exact h
  · exact h

theorem slotEnd (K : KeptByWork P) {x : Station} (h : P x) (k : StationNo) (sampled : BitVec 247) :
    P (x.slotEnd k sampled) := by
  unfold Station.slotEnd
  split
  · exact K.atMoment h fun y hy => K.beside y.beside_bus hy
  · exact h

theorem endSection (K : KeptByWork P) {x : Station} (h : P x) : P x.endSection := by
  have nothing : x.Beside x.handNothing := ⟨rfl, rfl, rfl, rfl, rfl, rfl, rfl, rfl, .inl rfl⟩
  have ended : ∀ y : Station, y.Beside { y with bus := { y.bus with round := { y.bus.round with sectionDone := true } } } :=
    fun y => y.beside_bus
  unfold Station.endSection
  dsimp only
  split
  · exact K.beside (ended x.handOn) (K.handOn x h)
  · exact K.beside (nothing.trans (ended x.handNothing)) h

theorem reportSectionEnd (K : KeptByWork P) {x : Station} (h : P x) : P x.reportSectionEnd := by
  unfold Station.reportSectionEnd
  split
  · exact K.atMoment h fun _ hy => K.endSection hy
  · exact h

theorem applyPoint (K : KeptByWork P) {x : Station} (h : P x) (parkReq : Bool) : P (x.applyPoint parkReq) := by
  unfold Station.applyPoint
  split
  · exact K.atMoment h fun y hy => K.applyWork _ (K.beside (y.beside_pins _) hy)
  · exact h

/-! ### The pins and LOAD -/

theorem changeDisable (K : KeptByWork P) {x : Station} (h : P x) (level seen : Bool) : P (x.changeDisable level seen) := by
  have changed := K.beside (x.beside_pins { x.pins with disable := level }) h
  unfold Station.changeDisable
  dsimp only
  split
  · next reads => exact K.seeDisable _ level (Bool.and_eq_true_iff.mp reads).2 changed
  · exact changed

theorem changeDrvFlt (K : KeptByWork P) {x : Station} (h : P x) (level seen : Bool) : P (x.changeDrvFlt level seen) := by
  have changed := K.beside (x.beside_pins { x.pins with drvFlt := level }) h
  unfold Station.changeDrvFlt
  dsimp only
  split
  · exact K.seeDrvFlt _ level changed
  · exact changed

/-- The loader's work of LOAD. -/
theorem whileLoading (K : KeptByWork P) {x : Station} (h : P x) (test : Bool) (l : Loader) :
    P (if x.member.state = .load && test then { x with loader := l } else x) := by
  split
  · next due =>
    simp only [Bool.and_eq_true, decide_eq_true_eq] at due
    exact K.loading x l due.1 h
  · exact h

theorem loadEnd (K : KeptByWork P) {x : Station} (h : P x) : P x.loadEnd := by
  unfold Station.loadEnd
  split
  · exact K.endLoad x
  · exact h

/-! ### Every step -/

theorem tick (K : KeptByWork P) (x : Station) (h : P x) : P x.tick :=
  Station.takeDue_preserves P (fun _ => K.takeImage) (fun _ parkReq hx => K.applyPoint hx parkReq) (fun _ => K.ownMark)
    (fun _ => K.coldStart) (fun _ => K.silentHoldEnd) _
    (K.overdueMark (K.beside (Station.tickWork_beside _) (K.samplePins h)))

theorem effect (K : KeptByWork P) (c : Instr) (x : Station) (h : P x) : P (effect c x) := by
  cases c with
  | reset => exact K.reset x.pins
  | resetRelease straps memory idleHigh => exact K.whileLoading h _ _
  | svcFallingEdge us =>
    unfold Machine.effect Station.svcEdge
    dsimp only
    rw [Bool.and_assoc]
    exact K.whileLoading h _ _
  | imageReadDone => exact K.whileLoading h _ _
  | loadEnd => exact K.loadEnd h
  | syncMark => exact K.syncMark h
  | ownSyncMarkDrive => exact K.ownMark h
  | markNotReadBack sample => exact K.markNotReadBack h sample.val
  | syncWindowExpiry => exact K.windowExpiry h
  | coldStartTimeout => exact K.coldStart h
  | joinEntry => exact K.joinEntry h
  | tallyImage => exact K.takeImage h
  | tallyHandover wire => exact K.tallyHandover h wire
  | answerTimeout => exact K.limitStage x _ (.inl rfl) h
  | prepareTimeout => exact K.limitStage x _ (.inr rfl) h
  | splitView => exact K.beside (x.beside_cond _) h
  | peerLost k => exact K.peerLost x k h
  | ownReportSend readBack => exact K.ownReport h readBack
  | ownSlotEnd => exact K.ownSlotEnd h
  | clashSilence => exact K.clashSilence h
  | slotEnd k sampled => exact K.slotEnd h k sampled
  | reportSectionEnd => exact K.reportSectionEnd h
  | suspectRecovery k => exact K.suspectRecovery x k h
  | stuckBus first last => exact K.stuckSpan h first last
  | applyPoint parkReq => exact K.applyPoint h parkReq
  | settleTimeout => exact K.settleTimeout x h
  | demandLost => exact K.demandLost x h
  | lockRampEnd => exact K.lockRampEnd x h
  | releaseHoldEnd => exact K.releaseHoldEnd x h
  | conversionEnd raw =>
    have ended : x.Beside (x.conversionEnd raw.toNat) := by constructor <;> simp
    unfold Machine.effect
    dsimp only
    split <;> [exact K.beside ended h; exact h]
  | scanEnd =>
    have ended : x.Beside x.scanEnd := by constructor <;> simp
    unfold Machine.effect
    dsimp only
    split <;> [exact K.beside ended h; exact h]
  | calWaitTimeout =>
    have waited : x.Beside x.calWaitTimeout := by constructor <;> simp
    exact K.beside waited h
  | pulseEdge ps1 =>
    have counted : x.Beside (x.pulseEdge ps1) := by constructor <;> simp
    exact K.beside counted h
  | disableAsserted seen => exact K.changeDisable h true seen
  | disableReleased seen => exact K.changeDisable h false seen
  | drvFltAsserted seen => exact K.changeDrvFlt h true seen
  | drvFltReleased seen => exact K.changeDrvFlt h false seen
  | busLoss => exact K.busLoss h
  | silentHoldEnd => exact K.silentHoldEnd h
  | conditionExpiry => exact K.beside (x.beside_cond _) h
  | recessiveToDominantEdge position => exact K.edge h position
  | candidateMarkDropped position => exact K.dropCandidate h position

/-- Every step keeps an invariant that the work keeps. -/
theorem keeps (K : KeptByWork P) : ∀ s t : State, P s.station → step s = .next t → P t.station :=
  step_keeps K.tick K.effect

end KeptByWork

end Sys2Proof.Machine
end

