-- ==== Sys2Proof/Proofs/DriveSteps.lean ====
section
/-! Every step keeps the drive sound (R160 to R162, R166, R169): outside MEMBER the unit is at rest, and in MEMBER the apply point, the
lock entry and the pins move it within its bounds. -/

namespace Sys2Proof.Machine

/-! ### A unit at rest -/

/-- The unit is OFF with nothing driven and nothing asked for (R160, R161). -/
def Drive.atRest (d : Drive) : Prop :=
  d.output = .off ∧ d.effort = 0 ∧ d.applied = 0 ∧ d.pwm = 0 ∧ d.lockRamp = 0 ∧ d.release = 0 ∧ d.lrel = false

theorem Drive.enterOff_atRest (d : Drive) : d.enterOff.atRest := ⟨rfl, rfl, rfl, rfl, rfl, rfl, rfl⟩

theorem Drive.atListen_atRest (d : Drive) : d.atListen.atRest := ⟨rfl, rfl, rfl, rfl, rfl, rfl, rfl⟩

theorem Drive.reset_atRest : Drive.reset.atRest := ⟨rfl, rfl, rfl, rfl, rfl, rfl, rfl⟩

/-- A unit at rest is sound in every state, under every image. -/
theorem Station.driveSound_of_atRest {s : Station} (h : s.drive.atRest) : s.driveSound := by
  obtain ⟨off, effort, applied, pwm, lockRamp, release, lrel⟩ := h
  simp [Station.driveSound, off, effort, applied, pwm, lockRamp, release, lrel]

theorem Station.driveSound.atRest_of_off {s : Station} (h : s.driveSound) (off : s.drive.output = .off) :
    s.drive.atRest := by
  obtain ⟨-, applied, pwm, -, -, atOff, -, lrel⟩ := h
  obtain ⟨effort, lockRamp, release⟩ := atOff off
  refine ⟨off, effort, by rw [applied, effort], by rw [pwm, effort]; rfl, lockRamp, release, ?_⟩
  by_contra asked
  have := (lrel (by simpa using asked)).1
  rw [off] at this
  cases this

/-- Outside MEMBER a sound unit is at rest (R162). -/
theorem Station.driveSound.atRest {s : Station} (h : s.driveSound) (outside : s.member.state ≠ .member) : s.drive.atRest := by
  refine h.atRest_of_off ?_
  obtain ⟨-, -, -, -, -, -, driven, -⟩ := h
  by_contra notOff
  exact outside (driven notOff).1

/-- What leaves the drive, the image, the station state and the held MODE leaves the drive sound. -/
theorem Station.driveSound.congr {s t : Station} (h : s.driveSound) (drive : t.drive = s.drive) (params : t.params = s.params)
    (state : t.member.state = s.member.state) (mode : t.bus.held.mode = s.bus.held.mode) : t.driveSound := by
  unfold Station.driveSound at h ⊢
  rwa [drive, params, state, mode]

/-- A sound unit at a station that was not in MEMBER is sound wherever the station goes with it. -/
theorem Station.driveSound.moved {s t : Station} (h : s.driveSound) (outside : s.member.state ≠ .member)
    (drive : t.drive = s.drive) : t.driveSound :=
  Station.driveSound_of_atRest (drive ▸ h.atRest outside)

/-! ### The pins and the passing of time (R72, R161) -/

theorem Station.seeDisable_driveSound {s : Station} (h : s.driveSound) (level : Bool) : (s.seeDisable level).driveSound := by
  unfold Station.seeDisable
  cases level with
  | true => exact Station.driveSound_of_atRest (Drive.enterOff_atRest _)
  | false =>
    by_cases halted : s.member.state = .halted
    · rw [if_neg (by decide), if_pos (by simpa using halted)]
      exact h.moved (by simp [halted]) rfl
    · rw [if_neg (by decide), if_neg (by simpa using halted)]
      exact h.congr rfl rfl rfl rfl

theorem Station.seeDrvFlt_driveSound {s : Station} (h : s.driveSound) (level : Bool) : (s.seeDrvFlt level).driveSound := by
  unfold Station.seeDrvFlt
  split
  · cases level with
    | true => exact Station.driveSound_of_atRest (Drive.enterOff_atRest _)
    | false => exact h
  · exact h

/-! ### Entries to LISTEN, SILENT and JOIN -/

theorem Station.enterListen_driveSound (s : Station) : s.enterListen.driveSound :=
  Station.driveSound_of_atRest (by simpa using Drive.atListen_atRest s.drive)

theorem Station.enterSilent_driveSound (s : Station) : s.enterSilent.driveSound :=
  Station.driveSound_of_atRest (Drive.enterOff_atRest _)

/-! ### The handover (R167) -/

/-- The lock entry makes sound what a MODE of LOCK alone made unsound: it deasserts LREL (R167, R169). -/
theorem Station.lockEntry_driveSound {s : Station} {held : HeldSet}
    (h : ({ s with bus := { s.bus with held := held } } : Station).driveSound) : s.lockEntry.driveSound := by
  obtain ⟨effort, applied, pwm, lockRamp, release, atOff, driven, lrel⟩ := h
  unfold Station.lockEntry
  split
  · next lock =>
    unfold Drive.enterLock
    split <;> simp_all [Station.driveSound]
  · next notLock =>
    refine ⟨effort, applied, pwm, lockRamp, release, atOff, driven, fun asked => ?_⟩
    obtain ⟨active, tilt, -⟩ := lrel asked
    refine ⟨active, tilt, fun lock => notLock ?_⟩
    have role : isTiltRole s.params.role = true := tilt
    simp [lock, isDriveRole, role]

/-- An own match, a tally's outcomes and a handover to the blocks leave the drive, which the lock entry then follows up. -/
theorem Station.handover_driveSound {s : Station} (h : s.driveSound) (wire : BitVec 70) : (s.handover wire).driveSound := by
  unfold Station.handover
  split
  · exact (s.takeTally wire).enterSilent_driveSound.congr (by simp) (by simp) (by simp) (by simp)
  · by_cases member : s.member.state = .member
    · have stays : (s.takeTally wire).joinHandover = s.takeTally wire := if_neg (by simp [member])
      rw [stays]
      refine Station.lockEntry_driveSound (held := s.bus.held) (h.congr ?_ ?_ ?_ rfl) <;> simp
    · refine Station.lockEntry_driveSound (held := s.bus.held) (h.moved member ?_)
      simp

/-! ### The apply point (R163 to R169) -/

theorem saturate_natAbs_le (limit : Nat) (x : Int) : (saturate (-(limit : Int)) limit x).natAbs ≤ limit := by
  unfold saturate
  repeat' split
  all_goals omega

theorem effortLimit_le {effortMax lockRampMax : Nat} {d : Drive} (h : d.lockRamp ≤ lockRampMax) :
    effortLimit effortMax lockRampMax d ≤ effortMax := by
  unfold effortLimit
  cases d.output with
  | off | locked => exact Nat.zero_le _
  | rampUp | rampDown =>
    exact Nat.div_le_of_le_mul (by rw [Nat.mul_comm lockRampMax]; exact Nat.mul_le_mul_left _ h)
  | active => exact le_refl _

/-- What the lock ramps and the release count keep of a unit that is not OFF: its counts in their ranges, LREL in ACTIVE alone. -/
def Drive.lockSound (lockRampMax releaseMax : Nat) (d : Drive) : Prop :=
  d.output ≠ .off ∧ d.lockRamp ≤ lockRampMax ∧ d.release ≤ releaseMax ∧ (d.lrel = true → d.output = .active)

theorem Drive.endLockRamp_lockSound {lockRampMax releaseMax : Nat} {d : Drive} (h : d.lockSound lockRampMax releaseMax) :
    (d.endLockRamp lockRampMax).lockSound lockRampMax releaseMax := by
  obtain ⟨notOff, ramp, release, lrel⟩ := h
  unfold Drive.endLockRamp
  repeat' split
  all_goals simp_all [Drive.lockSound]

theorem Drive.stepUp_lockSound {lockRampMax releaseMax : Nat} {d : Drive} (h : d.lockSound lockRampMax releaseMax)
    (notActive : d.output ≠ .active) : (d.stepUp lockRampMax).lockSound lockRampMax releaseMax := by
  obtain ⟨notOff, ramp, release, lrel⟩ := h
  refine Drive.endLockRamp_lockSound ⟨by simp, by simp [succSat], release, fun asked => absurd (lrel asked) notActive⟩

theorem Drive.stepLock_lockSound {sh : SharedSection} {d : Drive} (h : d.lockSound sh.lockRamp sh.releaseHold) (agreed : Bool)
    (mode : Mode) : (d.stepLock sh agreed mode).lockSound sh.lockRamp sh.releaseHold := by
  have up := Drive.stepUp_lockSound h
  obtain ⟨notOff, ramp, release, lrel⟩ := h
  unfold Drive.stepLock
  split
  · next off => exact absurd off notOff
  · next locked => split <;> [exact up (by simp [locked]); exact ⟨notOff, ramp, release, lrel⟩]
  · next down =>
    split
    · exact up (by simp [down])
    · refine Drive.endLockRamp_lockSound ⟨by simp [down], ?_, release, lrel⟩
      exact (Nat.sub_le _ _).trans ramp
  · next rampUp => split <;> [exact up (by simp [rampUp]); exact ⟨notOff, ramp, release, lrel⟩]
  · next active =>
    split
    · exact ⟨by simp [active], ramp, by simp [succSat], fun _ => active⟩
    · exact ⟨notOff, ramp, release, lrel⟩

theorem Drive.endLockRamp_lrel (lockRampMax : Nat) (d : Drive) : (d.endLockRamp lockRampMax).lrel = d.lrel := by
  unfold Drive.endLockRamp
  (repeat' split) <;> rfl

theorem Drive.stepLock_lrel (sh : SharedSection) (agreed : Bool) (mode : Mode) (d : Drive) :
    (d.stepLock sh agreed mode).lrel = d.lrel := by
  unfold Drive.stepLock Drive.stepUp Drive.stepDown
  (repeat' split) <;> simp [Drive.endLockRamp_lrel]

theorem Station.releaseHoldEnd_driveSound {s : Station} (h : s.driveSound) : s.releaseHoldEnd.driveSound := by
  unfold Station.releaseHoldEnd
  split
  · next due =>
    obtain ⟨effort, applied, pwm, lockRamp, release, atOff, driven, -⟩ := h
    simp only [Station.releaseDue, Bool.and_eq_true, decide_eq_true_eq] at due
    exact ⟨effort, applied, pwm, lockRamp, release, atOff, driven, fun _ => ⟨due.1.1.1.1, due.1.1.2, due.2⟩⟩
  · exact h

theorem Station.lockRampEnd_driveSound {s : Station} (h : s.driveSound) : s.lockRampEnd.driveSound := by
  obtain ⟨effort, applied, pwm, lockRamp, release, atOff, driven, lrel⟩ := h
  unfold Station.lockRampEnd Drive.endLockRamp
  split
  · split <;> simp_all [Station.driveSound]
  · split <;> simp_all [Station.driveSound]
  · exact ⟨effort, applied, pwm, lockRamp, release, atOff, driven, lrel⟩
  · exact ⟨effort, applied, pwm, lockRamp, release, atOff, driven, lrel⟩
  · exact ⟨effort, applied, pwm, lockRamp, release, atOff, driven, lrel⟩

/-- The update of a unit that is not OFF, in MEMBER on a drive role: the limit holds the effort within EFFORT_MAX (R166). -/
theorem Station.driveUpdate_driveSound {s : Station} (h : s.driveSound) (notOff : s.drive.output ≠ .off) :
    s.driveUpdate.driveSound := by
  obtain ⟨-, -, -, lockRamp, release, -, driven, lrel⟩ := h
  have stepped := Drive.stepLock_lockSound (d := s.drive) (sh := s.params.shared)
    ⟨notOff, lockRamp, release, fun asked => (lrel asked).1⟩ (decide (s.applyClass = .agreed)) s.bus.held.mode
  have asked := Drive.stepLock_lrel s.params.shared (decide (s.applyClass = .agreed)) s.bus.held.mode s.drive
  unfold Station.driveUpdate
  dsimp only
  generalize s.drive.stepLock s.params.shared (decide (s.applyClass = .agreed)) s.bus.held.mode = d at stepped asked
  obtain ⟨stillOn, ramp, hold, active⟩ := stepped
  refine Station.releaseHoldEnd_driveSound ⟨?_, rfl, rfl, ramp, hold, fun off => absurd off stillOn, fun _ => driven notOff,
    fun up => ⟨active up, ?_, ?_⟩⟩
  · exact (saturate_natAbs_le _ _).trans (effortLimit_le ramp)
  · exact (lrel (asked ▸ up)).2.1
  · exact (lrel (asked ▸ up)).2.2

theorem Station.driveApply_driveSound {s : Station} (h : s.driveSound) : s.driveApply.driveSound := by
  unfold Station.driveApply
  split
  · next role =>
    have left : s.leaveOff.driveSound := by
      unfold Station.leaveOff
      split
      · next leaves =>
        simp only [Station.mayLeaveOff, Bool.and_eq_true, decide_eq_true_eq] at leaves
        obtain ⟨off, effort, applied, pwm, lockRamp, release, lrel⟩ := h.atRest_of_off leaves.1
        simp_all [Station.driveSound]
      · exact h
    dsimp only
    split
    · exact left
    · next notOff => exact Station.driveUpdate_driveSound left notOff
  · exact h

theorem Station.applyWork_driveSound {s : Station} (h : s.driveSound) : s.applyWork.driveSound := by
  have before : s.engineApply.rampStep.groupConds.countAuthority.driveSound := h.congr (by simp) (by simp) (by simp) (by simp)
  exact (Station.driveApply_driveSound before).congr (by simp [Station.applyWork]) (by simp) (by simp) (by simp)

/-! ### LOAD and the step -/

theorem Station.endLoad_driveSound (s : Station) : s.endLoad.driveSound := by
  have fresh : ∀ x : Station, x.drive = Drive.reset → x.driveSound := fun x hx =>
    Station.driveSound_of_atRest (hx ▸ Drive.reset_atRest)
  unfold Station.endLoad Station.tellSvc
  repeat' split
  · exact fresh _ rfl
  · exact fresh _ rfl
  · exact fresh _ rfl

theorem driveSound_keptByWork : KeptByWork Station.driveSound where
  beside b h := h.congr b.drive b.params b.state b.mode
  reset _ := Station.driveSound_of_atRest Drive.reset_atRest
  loading _ _ _ h := h
  endLoad := Station.endLoad_driveSound
  seeDisable _ level _ h := Station.seeDisable_driveSound h level
  seeDrvFlt _ level h := Station.seeDrvFlt_driveSound h level
  enterListen x _ _ := x.enterListen_driveSound
  enterSilent x _ _ := x.enterSilent_driveSound
  enterJoin x listen h := h.moved (by rw [listen]; decide) (by simp)
  handover _ wire h := Station.handover_driveSound h wire
  applyWork _ h := Station.applyWork_driveSound h
  handOn _ h := h.congr (by simp) (by simp) (by simp) (by simp)
  limitStage _ _ _ h := h.congr (by simp) (by simp) (by simp) (by simp)
  settleTimeout _ h := h.congr (by simp) (by simp) (by simp) (by simp)
  demandLost _ h := h.congr (by simp) (by simp) (by simp) (by simp)
  peerLost _ _ h := h.congr (by simp) (by simp) (by simp) (by simp)
  suspectRecovery _ _ h := h.congr (by simp) (by simp) (by simp) (by simp)
  lockRampEnd _ h := Station.lockRampEnd_driveSound h
  releaseHoldEnd _ h := Station.releaseHoldEnd_driveSound h

/-- Settles O57: each operation of the drive and each entry keep the unit sound, and everything else stands beside it. -/
theorem driveStaysSound : Obligations.DriveStaysSound := driveSound_keptByWork.keeps

end Sys2Proof.Machine
end

