-- ==== Sys2Proof/Proofs/EngineSteps.lean ====
section
/-! Every step keeps the engine sound (R119, R122, R133): the run state by its operations (R121 to R132, R139), the demands by what
forms them, and the demand of a pending adoption entry. -/

namespace Sys2Proof.Machine

/-! ### Values within ±360 -/

theorem leanFits_zero : leanFits 0 := ⟨by decide, by decide⟩

/-- A saturation between a limit either way brings a value no further out than it was. -/
theorem leanFits_saturate {x : Int} (h : leanFits x) (limit : Nat) : leanFits (saturate (-(limit : Int)) limit x) := by
  obtain ⟨lo, hi⟩ := h
  unfold leanFits saturate
  repeat' split
  all_goals omega

theorem leanFits_clampSetpoint {x : Int} (h : leanFits x) (limit : Nat) : leanFits (clampSetpoint limit x) :=
  leanFits_saturate h limit

theorem clampSetpoint_zero (limit : Nat) : clampSetpoint limit 0 = 0 := by
  unfold clampSetpoint saturate
  repeat' split
  all_goals omega

/-- A move ends between where it began and where it aims. -/
theorem leanFits_moveToward {value setpoint : Int} (hv : leanFits value) (hs : leanFits setpoint) (rate : Nat) :
    leanFits (moveToward rate value setpoint) := by
  obtain ⟨vlo, vhi⟩ := hv
  obtain ⟨slo, shi⟩ := hs
  unfold leanFits moveToward
  repeat' split
  all_goals omega

theorem leanFits_target (sh : SharedSection) (limit : Nat) (r : RunState) : leanFits (r.target sh limit) := by
  refine leanFits_saturate ?_ limit
  unfold leanFits saturate
  repeat' split
  all_goals omega

theorem leanFits_readDemand {r : Report} {d : Int} (h : readDemand r = some d) : leanFits d := by
  unfold readDemand at h
  split at h
  · next fits => cases h; exact fits
  · cases h

/-! ### The run state (R119 to R132) -/

/-- The setpoint within ±360, and 0 in IDLE. -/
def RunState.fits (r : RunState) : Prop := leanFits r.setpoint ∧ (r.engine = .idle → r.setpoint = 0)

theorem RunState.fits_of_running {r : RunState} (h : leanFits r.setpoint) (running : r.engine ≠ .idle) : r.fits :=
  ⟨h, fun idle => absurd idle running⟩

theorem RunState.idle_fits : RunState.idle.fits := ⟨leanFits_zero, fun _ => rfl⟩

theorem RunState.enterStep_fits {r : RunState} (h : leanFits r.setpoint) (sh : SharedSection) (n : Nat) :
    (r.enterStep sh n).fits := by
  refine RunState.fits_of_running h ?_
  unfold RunState.enterStep
  dsimp only
  split <;> simp

theorem RunState.startMode_fits {r : RunState} (h : leanFits r.setpoint) (sh : SharedSection) (m : Mode) :
    (r.startMode sh m).fits := RunState.enterStep_fits h sh _

theorem RunState.passEnd_fits {r : RunState} (h : r.fits) (sh : SharedSection) : (r.passEnd sh).fits := by
  unfold RunState.passEnd
  repeat' split
  · exact RunState.startMode_fits h.1 sh _
  · exact h
  · exact RunState.enterStep_fits h.1 sh _
  · exact RunState.enterStep_fits h.1 sh _
  · exact RunState.fits_of_running h.1 (by simp)

theorem RunState.movedSetpoint_fits {r : RunState} {inp : EngineInputs} (h : leanFits r.setpoint) (hd : leanFits inp.demand)
    (sh : SharedSection) : leanFits (r.movedSetpoint sh inp) := by
  have target := leanFits_target sh inp.limit r
  unfold RunState.movedSetpoint
  dsimp only
  split
  · exact leanFits_moveToward target h _
  · exact leanFits_moveToward target h _
  · exact leanFits_moveToward hd h _
  · exact target
  · exact h

theorem runOfFields_fits {sh : SharedSection} {t : TrajFields} (h : trajProper sh t = true) : (runOfFields sh t).fits := by
  rcases (trajProper_iff sh t).mp h with ⟨m, mode, -, -, -, lo, hi, -⟩ | rfl
  · refine RunState.fits_of_running ⟨lo, hi⟩ ?_
    have notNone : t.mode ≠ 7 := fun seven => by simp [seven, modeOfCode] at mode
    unfold runOfFields engineOfFields
    dsimp only
    (repeat' split) <;> simp_all
  · exact ⟨leanFits_zero, fun _ => rfl⟩

/-! ### The engine (R121, R133 to R137) -/

/-- Setpoint and demands within ±360, an IDLE engine at setpoint 0, counts within their ranges. -/
def Engine.fits (demandHold : Nat) (e : Engine) : Prop :=
  e.run.fits ∧ leanFits e.demand ∧ leanFits e.lastDemand ∧ e.holdCount ≤ demandHold + 1 ∧ e.readinessCount ≤ 4
    ∧ e.splitCount ≤ Config.splitLimit

/-- The engine with another run state, the readiness count kept or given up. -/
theorem Engine.fits.withRun {demandHold : Nat} {e : Engine} (h : e.fits demandHold) {r : RunState} (hr : r.fits) {n : Nat}
    (hn : n ≤ 4) : ({ e with run := r, readinessCount := n } : Engine).fits demandHold := by
  obtain ⟨-, demand, last, hold, -, split⟩ := h
  exact ⟨hr, demand, last, hold, hn, split⟩

theorem Engine.fits.setRun {demandHold : Nat} {e : Engine} (h : e.fits demandHold) {r : RunState} (hr : r.fits) :
    ({ e with run := r } : Engine).fits demandHold := h.withRun hr h.2.2.2.2.1

theorem Engine.reset_fits (demandHold : Nat) : Engine.reset.fits demandHold :=
  ⟨RunState.idle_fits, leanFits_zero, leanFits_zero, Nat.zero_le _, Nat.zero_le _, Nat.zero_le _⟩

theorem Engine.clearRun_fits {demandHold : Nat} {e : Engine} (h : e.fits demandHold) : e.clearRun.fits demandHold :=
  h.withRun RunState.idle_fits (Nat.zero_le _)

theorem Engine.startMode_fits {demandHold : Nat} {e : Engine} (h : e.fits demandHold) (sh : SharedSection) (m : Mode) :
    (e.startMode sh m).fits demandHold := h.withRun (RunState.startMode_fits h.1.1 sh m) (Nat.zero_le _)

theorem Engine.passEnd_fits {demandHold : Nat} {e : Engine} (h : e.fits demandHold) (sh : SharedSection) :
    (e.passEnd sh).fits demandHold := h.withRun (RunState.passEnd_fits h.1 sh) (Nat.zero_le _)

theorem Engine.intakeRunning_fits {demandHold : Nat} {e : Engine} (h : e.fits demandHold) (sh : SharedSection) (m : Mode) :
    (e.intakeRunning sh m).fits demandHold := by
  unfold Engine.intakeRunning
  repeat' split
  · exact Engine.startMode_fits h sh m
  · exact h.setRun h.1
  · exact h.setRun h.1

theorem Engine.intake_fits {demandHold : Nat} {e : Engine} (h : e.fits demandHold) (sh : SharedSection) (armed : Bool)
    (m : Mode) : (e.intake sh armed m).fits demandHold := by
  have resumed := h.setRun (r := { e.run with engine := .running }) (RunState.fits_of_running h.1.1 (by simp))
  unfold Engine.intake
  split
  · exact Engine.intakeRunning_fits h sh m
  · exact Engine.intakeRunning_fits resumed sh m
  · split
    · exact h
    · exact Engine.startMode_fits h sh m
  · split
    · exact h
    · exact Engine.startMode_fits h sh m
  · split
    · exact Engine.startMode_fits (h.setRun ⟨leanFits_zero, fun _ => rfl⟩) sh m
    · exact h

theorem Engine.move_fits {demandHold : Nat} {e : Engine} {inp : EngineInputs} (h : e.fits demandHold)
    (hd : leanFits inp.demand) (sh : SharedSection) : (e.move sh inp).fits demandHold := by
  unfold Engine.move
  split
  · next running =>
    exact h.setRun (RunState.fits_of_running (RunState.movedSetpoint_fits h.1.1 hd sh) (by simp [running]))
  · exact h

theorem Engine.runToCount_fits {demandHold : Nat} {e : Engine} {inp : EngineInputs} (h : e.fits demandHold)
    (hd : leanFits inp.demand) (sh : SharedSection) (armed : Bool) : (e.runToCount sh armed inp).fits demandHold := by
  have moved := Engine.move_fits (Engine.intake_fits h sh armed inp.mode) hd sh
  unfold Engine.runToCount Engine.countElapsed
  split
  · exact moved.setRun moved.1
  · exact moved

theorem Engine.checkEnd_fits {demandHold : Nat} {e : Engine} (h : e.fits demandHold) (sh : SharedSection)
    (inp : EngineInputs) : (e.checkEnd sh inp).fits demandHold := by
  unfold Engine.checkEnd
  split
  · exact Engine.passEnd_fits h sh
  · exact h

theorem Engine.suspend_fits {demandHold : Nat} {e : Engine} (h : e.fits demandHold) : e.suspend.fits demandHold := by
  unfold Engine.suspend
  split
  · exact h.setRun (RunState.fits_of_running h.1.1 (by simp))
  · exact h

theorem Engine.clamp_fits {demandHold : Nat} {e : Engine} (h : e.fits demandHold) (limit : Nat) :
    (e.clamp limit).fits demandHold := by
  refine h.setRun ⟨leanFits_clampSetpoint h.1.1 limit, fun idle => ?_⟩
  have zero : e.run.setpoint = 0 := h.1.2 idle
  simp only [zero, clampSetpoint_zero]

theorem Engine.formReadiness_fits {demandHold : Nat} {e : Engine} (h : e.fits demandHold) (sh : SharedSection)
    (latest : MeasSet) : (e.formReadiness sh latest).fits demandHold := by
  obtain ⟨run, demand, last, hold, readiness, split⟩ := h
  unfold Engine.formReadiness
  dsimp only
  split
  · refine ⟨run, demand, last, hold, ?_, split⟩
    dsimp only
    split
    · exact readiness
    · split
      · exact Nat.min_le_left _ _
      · exact Nat.zero_le _
  · exact ⟨run, demand, last, hold, readiness, split⟩

theorem Engine.bringForward_fits {demandHold : Nat} {e : Engine} {inp : EngineInputs} (h : e.fits demandHold)
    (hd : leanFits inp.demand) (sh : SharedSection) : (e.bringForward sh inp).fits demandHold := by
  unfold Engine.bringForward
  refine Engine.clamp_fits ?_ _
  split
  · exact Engine.checkEnd_fits (Engine.runToCount_fits h hd sh true) sh inp
  · exact Engine.suspend_fits h

/-! ### The station's engine and the pending record (R58, R120) -/

/-- The demand that a pending adoption entry recorded is within ±360. -/
def recordFits (pending : Option DecisionRecord) : Prop := ∀ r ∈ pending, ∀ a ∈ r.adoption, leanFits a.demand

theorem recordFits_none : recordFits none := fun _ h => by cases h

theorem BusUnit.atListen_recordFits (b : BusUnit) : recordFits b.atListen.pendingRecord := recordFits_none

theorem Station.engineSound_iff (s : Station) :
    s.engineSound ↔ s.engine.fits s.params.shared.demandHold ∧ recordFits s.bus.pendingRecord := by
  simp only [Station.engineSound, Engine.fits, RunState.fits, recordFits]
  tauto

/-- What leaves the engine and the image, and the pending record or drops it, leaves the engine sound. -/
theorem Station.engineSound.congr {s t : Station} (h : s.engineSound) (engine : t.engine = s.engine)
    (params : t.params = s.params) (record : t.bus.pendingRecord = s.bus.pendingRecord ∨ t.bus.pendingRecord = none) :
    t.engineSound := by
  rw [Station.engineSound_iff] at h ⊢
  rw [engine, params]
  exact ⟨h.1, record.elim (fun same => same ▸ h.2) fun dropped => dropped ▸ recordFits_none⟩

/-- An engine put in place of a sound one. -/
theorem Station.engineSound.setEngine {s : Station} (h : s.engineSound) {e : Engine}
    (fits : e.fits s.params.shared.demandHold) : ({ s with engine := e } : Station).engineSound := by
  rw [Station.engineSound_iff] at h ⊢
  exact ⟨fits, h.2⟩

theorem Station.engineSound.fits {s : Station} (h : s.engineSound) : s.engine.fits s.params.shared.demandHold :=
  ((Station.engineSound_iff s).mp h).1

/-! ### Entries to LISTEN, SILENT and JOIN -/

@[simp] theorem Station.restAuthority_pendingRecord (s : Station) : s.restAuthority.bus.pendingRecord = s.bus.pendingRecord := by
  simp

@[simp] theorem Station.enterListen_engine (s : Station) : s.enterListen.engine = Engine.reset := by
  simp [Station.enterListen, Station.clearEngine]

@[simp] theorem Station.returnAfterLoss_engine (s : Station) : s.returnAfterLoss.engine = Engine.reset := by
  simp [Station.returnAfterLoss]

@[simp] theorem Station.enterJoin_engine (s : Station) : s.enterJoin.engine = s.engine.clearRun := by
  simp [Station.enterJoin]

@[simp] theorem Station.enterJoin_bus (s : Station) : s.enterJoin.bus = { s.bus with nextSeq := false } := by
  simp [Station.enterJoin]

theorem Station.enterListen_engineSound (s : Station) : s.enterListen.engineSound := by
  rw [Station.engineSound_iff]
  exact ⟨by simpa using Engine.reset_fits _, by simpa using BusUnit.atListen_recordFits s.bus⟩

theorem Station.enterSilent_engineSound {s : Station} (h : s.engineSound) : s.enterSilent.engineSound :=
  h.congr (by simp) (by simp) (.inr (by simp [BusUnit.atSilent]))

theorem Station.enterJoin_engineSound {s : Station} (h : s.engineSound) : s.enterJoin.engineSound := by
  rw [Station.engineSound_iff] at h ⊢
  exact ⟨by simpa using Engine.clearRun_fits h.1, by simpa using h.2⟩

/-! ### The apply point (R120) -/

theorem Station.demandLost_engineSound {s : Station} (h : s.engineSound) : s.demandLost.engineSound := by
  obtain ⟨run, -, last, rest⟩ := h.fits
  unfold Station.demandLost
  split
  · have lost := h.setEngine (e := { s.engine with demand := 0 }) ⟨run, leanFits_zero, last, rest⟩
    exact lost.congr (by simp) (by simp) (.inl (by simp))
  · exact h

theorem Station.formDemand_engineSound {s : Station} (h : s.engineSound) : s.formDemand.engineSound := by
  obtain ⟨run, demand, last, hold, rest⟩ := h.fits
  unfold Station.formDemand
  split
  · next d hd =>
    have fits : leanFits d := by
      obtain ⟨k, -, hk⟩ := Option.bind_eq_some_iff.mp hd
      obtain ⟨r, -, hr⟩ := Option.bind_eq_some_iff.mp hk
      exact leanFits_readDemand hr
    have formed := h.setEngine (e := { s.engine with demand := d, lastDemand := d, holdCount := 0 })
      ⟨run, fits, fits, Nat.zero_le _, rest⟩
    exact formed.congr (by simp) (by simp) (.inl (by simp))
  · refine Station.demandLost_engineSound (h.setEngine ⟨run, last, last, ?_, rest⟩)
    exact Nat.min_le_left _ _

theorem Station.settleTimeout_engineSound {s : Station} (h : s.engineSound) : s.settleTimeout.engineSound := by
  unfold Station.settleTimeout
  split
  · exact (h.setEngine (Engine.passEnd_fits h.fits _)).congr rfl rfl (.inl rfl)
  · exact h

theorem Station.runOrSuspend_engineSound {s : Station} (h : s.engineSound) : s.runOrSuspend.engineSound := by
  have counted := h.setEngine
    (Engine.runToCount_fits (inp := s.engineInputs) h.fits h.fits.2.1 s.params.shared s.armed)
  unfold Station.runOrSuspend
  repeat' split
  · exact (h.setEngine (Engine.clearRun_fits h.fits)).congr
      (by simp [Station.dropAdopted]) (by simp) (.inl (by simp))
  · unfold Station.runAgreed
    dsimp only
    split
    · exact Station.settleTimeout_engineSound counted
    · exact counted.setEngine (Engine.checkEnd_fits counted.fits _ _)
  · exact h.setEngine (Engine.suspend_fits h.fits)

theorem Station.engineApply_engineSound {s : Station} (h : s.engineSound) : s.engineApply.engineSound := by
  have run := Station.runOrSuspend_engineSound (Station.formDemand_engineSound h)
  have formed := Engine.formReadiness_fits (Engine.clamp_fits run.fits s.formDemand.runOrSuspend.bus.held.limit)
    s.formDemand.runOrSuspend.params.shared s.formDemand.runOrSuspend.meas.latest
  rw [Station.engineSound_iff]
  refine ⟨formed, fun r hr a ha => ?_⟩
  obtain ⟨before, -, rfl⟩ := Option.mem_map.mp hr
  obtain ⟨entry, -, rfl⟩ := Option.mem_map.mp ha
  exact formed.2.1

theorem Station.applyWork_engineSound {s : Station} (h : s.engineSound) : s.applyWork.engineSound :=
  (Station.engineApply_engineSound h).congr (by simp [Station.applyWork]) (by simp) (.inl (by simp [Station.applyWork]))

/-! ### The handover (R136, R139) -/

theorem Station.countSplit_engineSound {s : Station} (h : s.engineSound) : s.countSplit.engineSound := by
  obtain ⟨run, demand, last, hold, readiness, split⟩ := h.fits
  refine (h.setEngine (e := s.countSplit.engine) ⟨run, demand, last, hold, readiness, ?_⟩).congr rfl rfl (.inl rfl)
  simp only [Station.countSplit, Station.splitView_frame]
  split
  · exact Nat.min_le_left _ _
  · exact Nat.zero_le _
  all_goals exact split

theorem Station.engineAdopt_engineSound {s : Station} {a : AdoptionEntry} (h : s.engineSound) (demand : leanFits a.demand) :
    (s.engineAdopt a).engineSound := by
  unfold Station.engineAdopt
  split
  · next takes =>
    simp only [Bool.and_eq_true] at takes
    exact h.setEngine (Engine.bringForward_fits (h.fits.withRun (runOfFields_fits takes.2) (Nat.zero_le _)) demand _)
  · exact h

theorem Station.adopt_engineSound {s : Station} {entry : Option AdoptionEntry} (h : s.engineSound)
    (demand : ∀ a ∈ entry, leanFits a.demand) : (s.adopt entry).engineSound := by
  unfold Station.adopt
  repeat' split
  · next a _ => exact (Station.engineAdopt_engineSound h (demand a rfl)).congr (by simp) (by simp) (.inl (by simp))
  · exact h
  · exact h

theorem Station.consumeOutcomes_engineSound {s : Station} (h : s.engineSound) : s.consumeOutcomes.engineSound := by
  have entry : ∀ a ∈ s.appliedRecord.bind (·.adoption), leanFits a.demand := by
    intro a ha
    obtain ⟨r, hr, adoption⟩ := Option.bind_eq_some_iff.mp ha
    exact ((Station.engineSound_iff s).mp h).2 r (Option.filter_eq_some_iff.mp hr).1 a adoption
  have handed : (({ s with bus := { s.bus with pendingRecord := none } } : Station).peersHandover
      (exclusionsOf s.appliedRecord)).engineSound := h.congr (by simp) (by simp) (.inr (by simp))
  exact (Station.adopt_engineSound handed entry).congr (by simp [Station.consumeOutcomes]) (by simp) (.inl (by simp))

theorem Station.handover_engineSound {s : Station} (h : s.engineSound) (wire : BitVec 70) : (s.handover wire).engineSound := by
  have outcomes : ((s.readBackTally wire).takeOutcomes wire).engineSound :=
    h.congr (by simp) (by simp) (.inl (by simp [Station.takeOutcomes]))
  have matched : ((s.readBackTally wire).takeOutcomes wire).countSplit.takeOwnMatch.engineSound :=
    (Station.countSplit_engineSound outcomes).congr rfl rfl (.inl rfl)
  have taken : (s.takeTally wire).engineSound := Station.consumeOutcomes_engineSound matched
  unfold Station.handover
  split
  · exact (Station.enterSilent_engineSound taken).congr (by simp) (by simp) (.inl (by simp))
  · exact taken.congr (by simp) (by simp) (.inl (by simp))

/-! ### Reports (R57, R58) -/

/-- The demand that an adoption entry records is the engine's own (R58). -/
theorem Station.adoptionEntry_demand {s : Station} {a : AdoptionEntry} (h : s.adoptionEntry = some a) :
    a.demand = s.engine.demand := by
  unfold Station.adoptionEntry at h
  repeat' (split at h)
  all_goals cases h
  rfl

theorem Station.closeSection_engineSound {s : Station} (h : s.engineSound) : s.closeSection.engineSound := by
  rw [Station.engineSound_iff]
  refine ⟨h.fits, fun r hr a ha => ?_⟩
  have built : s.buildRecord = r := Option.some_inj.mp hr
  have demand : a.demand = s.engine.demand := Station.adoptionEntry_demand (by rw [← built] at ha; exact ha)
  rw [demand]
  exact h.fits.2.1

theorem Station.handOn_engineSound {s : Station} (h : s.engineSound) : s.handOn.engineSound := by
  have judged : s.peersSection.judgeDigest.judgeMatch.keepEvidence.engineSound :=
    h.congr (by simp) (by simp) (.inl (by simp))
  exact (Station.closeSection_engineSound judged).congr (by simp [Station.handOn]) (by simp [Station.handOn])
    (.inl (by simp [Station.handOn]))

/-! ### LOAD and the step -/

theorem Station.engineSound_fresh {s : Station} (engine : s.engine = Engine.reset) (record : s.bus.pendingRecord = none) :
    s.engineSound := by
  rw [Station.engineSound_iff, engine, record]
  exact ⟨Engine.reset_fits _, recordFits_none⟩

theorem Station.endLoad_engineSound (s : Station) : s.endLoad.engineSound := by
  unfold Station.endLoad Station.tellSvc
  repeat' split
  · exact Station.engineSound_fresh rfl rfl
  · exact Station.engineSound_fresh rfl rfl
  · exact Station.engineSound_fresh rfl rfl

theorem engineSound_keptByWork : KeptByWork Station.engineSound where
  beside b h := h.congr b.engine b.params b.record
  reset _ := Station.engineSound_fresh rfl rfl
  loading _ _ _ h := h
  endLoad := Station.endLoad_engineSound
  seeDisable _ _ _ h := h.congr (by simp) (by simp) (.inl (by simp))
  seeDrvFlt _ _ h := h.congr (by simp) (by simp) (.inl (by simp))
  enterListen x _ _ := x.enterListen_engineSound
  enterSilent _ _ h := Station.enterSilent_engineSound h
  enterJoin _ _ h := Station.enterJoin_engineSound h
  handover _ wire h := Station.handover_engineSound h wire
  applyWork _ h := Station.applyWork_engineSound h
  handOn _ h := Station.handOn_engineSound h
  limitStage _ _ _ h := h.congr (by simp) (by simp) (.inl (by simp))
  settleTimeout _ h := Station.settleTimeout_engineSound h
  demandLost _ h := Station.demandLost_engineSound h
  peerLost _ _ h := h.congr (by simp) (by simp) (.inl (by simp))
  suspectRecovery _ _ h := h.congr (by simp) (by simp) (.inl (by simp))
  lockRampEnd _ h := h.congr (by simp) (by simp) (.inl (by simp))
  releaseHoldEnd _ h := h.congr (by simp) (by simp) (.inl (by simp))

/-- Settles O60: the run state's operations, what forms the demands and what records one in an entry keep the engine sound. -/
theorem engineStaysSound : Obligations.EngineStaysSound := engineSound_keptByWork.keeps

end Sys2Proof.Machine
end

