-- ==== Sys2Proof/Proofs/PeerSteps.lean ====
section
/-! Every step keeps the peer table sound (R80): each update of a record keeps its counters in range, none makes another record SELF,
and none but the entry to LISTEN and the end of LOAD reaches the own record's state. -/

namespace Sys2Proof.Machine

/-! ### One record -/

/-- Record `k` as R80 has it: the counters in range, and SELF just when it is the own one, once an image is in effect. -/
def Station.fitsPeer (s : Station) (k : StationNo) (r : PeerRecord) : Prop :=
  r.countsSound ∧ (readsPins s.member.state = true → (r.state = .self ↔ k = s.number))

theorem readsPins_iff (m : StationState) : readsPins m = true ↔ m ≠ .load ∧ m ≠ .configFault := by
  cases m <;> decide

theorem Station.peersSound_iff (s : Station) : s.peersSound ↔ ∀ k, s.fitsPeer k (s.peers.get k) := by
  simp only [Station.peersSound, Station.fitsPeer, forall_and, readsPins_iff]
  exact and_congr_right fun _ => ⟨fun h k known => h known.1 known.2 k, fun h live loaded k => h k ⟨live, loaded⟩⟩

namespace Station.fitsPeer

variable {s : Station} {k : StationNo} {r x : PeerRecord}

/-- New counters, the state kept. -/
theorem recount (h : s.fitsPeer k r) (counts : x.countsSound) (state : x.state = r.state) : s.fitsPeer k x :=
  ⟨counts, fun known => state ▸ h.2 known⟩

/-- A state that is not SELF, at a record that is not the own one. -/
theorem of_ne (other : k ≠ s.number) (counts : x.countsSound) (state : x.state ≠ .self) : s.fitsPeer k x :=
  ⟨counts, fun _ => ⟨fun self => absurd self state, fun own => absurd own other⟩⟩

/-- A state that is not SELF, at a record that has one already. -/
theorem of_state (h : s.fitsPeer k r) (counts : x.countsSound) (before : r.state ≠ .self) (after : x.state ≠ .self) :
    s.fitsPeer k x :=
  ⟨counts, fun known => ⟨fun self => absurd self after, fun own => absurd ((h.2 known).mpr own) before⟩⟩

end Station.fitsPeer

theorem Station.peersSound.fits {s : Station} (h : s.peersSound) (k : StationNo) : s.fitsPeer k (s.peers.get k) :=
  (Station.peersSound_iff s).mp h k

/-- What leaves the records, the own number and whether an image is in effect leaves the peer table sound. -/
theorem Station.peersSound.congr {s t : Station} (h : s.peersSound) (peers : t.peers = s.peers) (loader : t.loader = s.loader)
    (reads : readsPins t.member.state = readsPins s.member.state) : t.peersSound := by
  rw [Station.peersSound_iff] at h ⊢
  unfold Station.fitsPeer Station.number at h ⊢
  rwa [peers, loader, reads]

theorem Station.peersSound.setPeer {s : Station} (h : s.peersSound) {k : StationNo} {r : PeerRecord} (fits : s.fitsPeer k r) :
    (s.setPeer k r).peersSound := by
  rw [Station.peersSound_iff]
  intro j
  by_cases same : j = k
  · subst same
    rw [show (s.setPeer j r).peers.get j = r from Eight.get_set_self _ _ _]
    exact fits
  · rw [show (s.setPeer k r).peers.get j = s.peers.get j from Eight.get_set_other _ _ _ _ same]
    exact h.fits j

theorem PeerRecord.reset_countsSound (role : Role) : (PeerRecord.reset role).countsSound := by
  simp [PeerRecord.countsSound, PeerRecord.reset]

theorem succSat_le (cap n : Nat) : succSat cap n ≤ cap := Nat.min_le_left _ _

/-! ### The handover (R82 to R84) -/

theorem PeerRecord.toAbsent_countsSound {r : PeerRecord} (h : r.countsSound) : r.toAbsent.countsSound := by
  obtain ⟨-, -, -, -, -, -, -, exclusions⟩ := h
  simpa [PeerRecord.countsSound, PeerRecord.toAbsent, PeerRecord.reset] using exclusions

theorem countAbsent_countsSound {r : PeerRecord} (h : r.countsSound) (bit joining refused : Bool) :
    (countAbsent r bit joining refused).countsSound := by
  obtain ⟨missed, stale, lean, speed, steer, recover, -, exclusions⟩ := h
  refine ⟨missed, stale, lean, speed, steer, recover, ?_, exclusions⟩
  unfold countAbsent
  dsimp only
  split
  · exact Nat.zero_le _
  · exact succSat_le _ _

theorem PeerRecord.countExclusion_countsSound {r : PeerRecord} (h : r.countsSound) :
    ({ r with exclusions := succSat 15 r.exclusions } : PeerRecord).countsSound := by
  obtain ⟨missed, stale, lean, speed, steer, recover, absent, -⟩ := h
  exact ⟨missed, stale, lean, speed, steer, recover, absent, succSat_le _ _⟩

theorem PeerRecord.toExcluded_countsSound {r : PeerRecord} (h : r.countsSound) : r.toExcluded.countsSound := by
  obtain ⟨-, -, -, -, -, -, absent, exclusions⟩ := h
  exact ⟨Nat.zero_le _, Nat.zero_le _, Nat.zero_le _, Nat.zero_le _, Nat.zero_le _, Nat.zero_le _, absent, exclusions⟩

theorem Station.makeAbsent_peersSound {s : Station} (h : s.peersSound) {k : StationNo} (other : k ≠ s.number) :
    (s.makeAbsent k).peersSound := by
  refine (h.setPeer (.of_ne other (PeerRecord.toAbsent_countsSound (h.fits k).1) ?_)).congr (by simp [Station.makeAbsent])
    (by simp) (by simp)
  simp [PeerRecord.toAbsent, PeerRecord.reset]

theorem Station.peerLost_peersSound {s : Station} (h : s.peersSound) (k : StationNo) : (s.peerLost k).peersSound := by
  unfold Station.peerLost
  split
  · next due =>
    have other : k ≠ s.number := by
      simp only [Station.absentDue, Bool.and_eq_true, decide_eq_true_eq] at due
      exact due.1.1
    have absent := Station.makeAbsent_peersSound h other
    split
    · exact absent
    · exact absent
  · exact h

theorem Station.excludePeer_peersSound {s : Station} (h : s.peersSound) (before : PeerState) (bit : Bool) {k : StationNo}
    (other : k ≠ s.number) : (s.excludePeer before bit k).peersSound := by
  have counted := PeerRecord.countExclusion_countsSound (h.fits k).1
  unfold Station.excludePeer
  dsimp only
  repeat' split
  · exact h
  · have excluded := h.setPeer (.of_ne other (PeerRecord.toExcluded_countsSound counted) (by simp [PeerRecord.toExcluded]))
    exact excluded.congr (by simp) (by simp) (by simp)
  · exact h.setPeer ((h.fits k).recount counted rfl)

theorem Station.peerHandover_peersSound {s : Station} (h : s.peersSound) (named : StationSet) {k : StationNo}
    (other : k ≠ s.number) : (s.peerHandover named k).peersSound := by
  have notSelf : readsPins s.member.state = true → (s.peers.get k).state ≠ .self := fun known self =>
    other (((h.fits k).2 known).mp self)
  have counts := countAbsent_countsSound (h.fits k).1 (s.bitTaken k) (inSet s.bus.held.joining k) (s.refused k)
  have fits : s.fitsPeer k (countAbsent (s.peers.get k) (s.bitTaken k) (inSet s.bus.held.joining k) (s.refused k)) := by
    refine ⟨counts, fun known => ⟨fun self => absurd self ?_, fun own => absurd own other⟩⟩
    have := notSelf known
    unfold countAbsent
    dsimp only
    split <;> simp_all
  have lost := Station.peerLost_peersSound (h.setPeer fits) k
  unfold Station.peerHandover
  dsimp only
  split
  · exact Station.excludePeer_peersSound lost _ _ (by simpa [Station.number] using other)
  · exact lost

theorem Station.peersHandover_peersSound {s : Station} (h : s.peersSound) (named : StationSet) :
    (s.peersHandover named).peersSound :=
  Station.forPeers_preserves Station.peersSound _ (fun _ _ other hx => Station.peerHandover_peersSound hx named other) s h

/-! ### The end of the report section (R85 to R97) -/

theorem Station.takeReport_peersSound {s : Station} (h : s.peersSound) (k : StationNo) : (s.takeReport k).peersSound := by
  unfold Station.takeReport
  repeat' split
  · exact h
  · exact h.setPeer ((h.fits k).recount (h.fits k).1 rfl)
  · exact h

theorem countMissed_countsSound {r : PeerRecord} (h : r.countsSound) (received bit : Bool) :
    (countMissed r received bit).countsSound := by
  obtain ⟨missed, rest⟩ := h
  have counted : (if received then 0 else if bit then succSat 15 r.missed else r.missed) ≤ 15 := by
    repeat' split
    · exact Nat.zero_le _
    · exact succSat_le _ _
    · exact missed
  unfold countMissed
  dsimp only
  generalize (if received then 0 else if bit then succSat 15 r.missed else r.missed) = n at counted
  repeat' split
  · exact ⟨counted, rest⟩
  · exact ⟨counted, rest⟩
  · exact ⟨missed, rest⟩

theorem countMissed_state (r : PeerRecord) (received bit : Bool) : (countMissed r received bit).state = r.state := by
  unfold countMissed
  dsimp only
  (repeat' split) <;> rfl

theorem staleAfter_le {r : PeerRecord} (h : r.stale ≤ 15) (seq : Bool) : staleAfter r seq ≤ 15 := by
  unfold staleAfter
  repeat' split
  · exact h
  · exact Nat.zero_le _
  · exact succSat_le _ _
  · exact Nat.zero_le _

theorem countSeq_countsSound {r : PeerRecord} (h : r.countsSound) (frame : Option Report) (bit : Bool) :
    (countSeq r frame bit).countsSound := by
  obtain ⟨missed, stale, rest⟩ := h
  unfold countSeq
  repeat' split
  · exact ⟨missed, stale, rest⟩
  · exact ⟨missed, staleAfter_le stale _, rest⟩
  · exact ⟨missed, stale, rest⟩
  · exact ⟨missed, stale, rest⟩

theorem countSeq_state (r : PeerRecord) (frame : Option Report) (bit : Bool) : (countSeq r frame bit).state = r.state := by
  unfold countSeq
  (repeat' split) <;> rfl

theorem Station.countRecord_peersSound {s : Station} (h : s.peersSound) (k : StationNo) : (s.countRecord k).peersSound := by
  refine h.setPeer ((h.fits k).recount (countSeq_countsSound (countMissed_countsSound (h.fits k).1 _ _) _ _) ?_)
  rw [countSeq_state, countMissed_state]

theorem Station.takePresence_peersSound {s : Station} (h : s.peersSound) {k : StationNo} (other : k ≠ s.number) :
    (s.takePresence k).peersSound := by
  unfold Station.takePresence
  split
  · exact h.setPeer (.of_ne other (h.fits k).1 (by simp))
  · exact h

theorem countCheck_le (disagrees : Int → Int → Bool) (base value : Option Int) {n : Nat} (h : n ≤ 15) :
    countCheck disagrees base value n ≤ 15 := by
  unfold countCheck
  repeat' split
  · exact succSat_le _ _
  · exact Nat.zero_le _
  · exact h

theorem Station.crossCheck_countsSound {s : Station} {k : StationNo} (h : (s.peers.get k).countsSound) :
    (s.crossCheck k).countsSound := by
  obtain ⟨missed, stale, lean, speed, steer, rest⟩ := h
  exact ⟨missed, stale, countCheck_le _ _ _ lean, countCheck_le _ _ _ speed, countCheck_le _ _ _ steer, rest⟩

theorem Station.checkRecord_peersSound {s : Station} (h : s.peersSound) (k : StationNo) : (s.checkRecord k).peersSound := by
  have identity : (s.identityConds k).peersSound := h.congr (by simp) (by simp) (by simp)
  have checked : ∀ x : Station, x.peersSound → (x.setPeer k (x.crossCheck k)).peersSound := fun x hx =>
    hx.setPeer ((hx.fits k).recount (Station.crossCheck_countsSound (hx.fits k).1) rfl)
  unfold Station.checkRecord
  dsimp only
  repeat' split
  · exact checked _ (identity.congr (by simp) (by simp) (by simp))
  · exact checked _ identity
  · exact h

theorem PeerRecord.setRecover_countsSound {r : PeerRecord} (h : r.countsSound) {n : Nat} (hn : n ≤ Config.recoverLimit)
    (state : PeerState) : ({ r with state := state, recover := n } : PeerRecord).countsSound := by
  obtain ⟨missed, stale, lean, speed, steer, -, rest⟩ := h
  exact ⟨missed, stale, lean, speed, steer, hn, rest⟩

theorem Station.suspectRecovery_peersSound {s : Station} (h : s.peersSound) (k : StationNo) :
    (s.suspectRecovery k).peersSound := by
  unfold Station.suspectRecovery
  split
  · next due =>
    have suspect : (s.peers.get k).state = .suspect := by
      simp only [Station.recoveryDue, Bool.and_eq_true, decide_eq_true_eq] at due
      exact due.1
    refine h.setPeer ((h.fits k).of_state (PeerRecord.setRecover_countsSound (h.fits k).1 (Nat.zero_le _) _) ?_ ?_)
    · simp [suspect]
    · simp
  · exact h

theorem Station.judgeRecord_peersSound {s : Station} (h : s.peersSound) {k : StationNo} (other : k ≠ s.number) :
    (s.judgeRecord k).peersSound := by
  have recovered : ∀ clean : Bool, (if clean then succSat Config.recoverLimit (s.peers.get k).recover else 0) ≤ Config.recoverLimit :=
    fun clean => by split <;> [exact succSat_le _ _; exact Nat.zero_le _]
  unfold Station.judgeRecord
  dsimp only
  split
  · split
    · exact h.setPeer (.of_ne other (PeerRecord.setRecover_countsSound (h.fits k).1 (Nat.zero_le _) _) (by simp))
    · exact h
  · refine Station.suspectRecovery_peersSound (h.setPeer ((h.fits k).recount ?_ (by rfl))) k
    exact PeerRecord.setRecover_countsSound (h.fits k).1 (recovered _) _
  all_goals exact h

theorem Station.peersSection_peersSound {s : Station} (h : s.peersSound) : s.peersSection.peersSound := by
  have loop := Station.forPeers_preserves Station.peersSound
  have heard := Station.foldl_preserves Station.peersSound _ (fun _ k hx => Station.takeReport_peersSound hx k) allStations s h
  have counted := loop _ (fun _ k _ hx => Station.countRecord_peersSound hx k) _ heard
  have present := loop _ (fun _ _ other hx => Station.takePresence_peersSound hx other) _ counted
  have checked := loop _ (fun _ k _ hx => Station.checkRecord_peersSound hx k) _ present
  exact loop _ (fun _ _ other hx => Station.judgeRecord_peersSound hx other) _ checked

/-! ### LOAD and the entry to LISTEN (R80) -/

theorem Station.peersSound_loading {s : Station} (load : readsPins s.member.state = false)
    (counts : ∀ k, (s.peers.get k).countsSound) : s.peersSound := by
  rw [Station.peersSound_iff]
  exact fun k => ⟨counts k, fun known => by simp [load] at known⟩

theorem Station.peersSound_reset {s : Station} (load : readsPins s.member.state = false)
    (peers : s.peers = Station.reset.peers) : s.peersSound := by
  refine Station.peersSound_loading load fun k => ?_
  rw [peers, show Station.reset.peers.get k = PeerRecord.reset .none from Eight.get_fill _ k]
  exact PeerRecord.reset_countsSound _

theorem PeerRecord.forget_countsSound {r : PeerRecord} (h : r.countsSound) :
    ({ r with lastReport := none, lastHeard := none } : PeerRecord).countsSound := h

@[simp] theorem Station.clearPeers_peers (s : Station) : s.clearPeers.peers = clearedPeers s.number s.peers := by
  unfold Station.clearPeers
  exact Station.foldl_preserves (fun x => x.peers = clearedPeers s.number s.peers) _ (fun _ _ hx => by simpa using hx) _ _ rfl

theorem Station.enterListen_peersSound {s : Station} (h : s.peersSound) (reads : readsPins s.member.state = true) :
    s.enterListen.peersSound := by
  have peers : s.enterListen.peers = clearedPeers s.number s.peers := by simp [Station.enterListen, Station.number]
  rw [Station.peersSound_iff]
  intro k
  rw [peers]
  unfold clearedPeers Station.fitsPeer Station.number
  rw [Eight.get_ofFn, Station.enterListen_loader]
  split
  · next own => exact ⟨PeerRecord.forget_countsSound (h.fits k).1, fun _ => (h.fits k).2 reads⟩
  · next other =>
    exact ⟨PeerRecord.reset_countsSound _, fun _ => ⟨fun self => by simp [PeerRecord.reset] at self, fun own => absurd own other⟩⟩

theorem Station.endLoad_peersSound (s : Station) : s.endLoad.peersSound := by
  have told : ∀ x : Station, x.peersSound → x.tellSvc.peersSound := fun x hx => by
    unfold Station.tellSvc
    split
    · exact hx
    · exact hx.congr (by simp) (by simp) (by simp)
  unfold Station.endLoad
  split
  · next p _ =>
    refine told _ ((Station.peersSound_iff _).mpr fun k => ?_)
    have peer : (s.putIntoEffect p).peers = peersOf s.loader.straps p := rfl
    have number : (s.putIntoEffect p).number = s.loader.straps := rfl
    rw [peer]
    unfold peersOf Station.fitsPeer
    rw [Eight.get_ofFn, number]
    split
    · next own => exact ⟨PeerRecord.reset_countsSound p.role, fun _ => ⟨fun _ => own, fun _ => rfl⟩⟩
    · next other =>
      exact ⟨PeerRecord.reset_countsSound _,
        fun _ => ⟨fun self => by simp [PeerRecord.reset] at self, fun own => absurd own other⟩⟩
  · exact Station.peersSound_reset rfl rfl

/-! ### The step -/

theorem Station.seeDisable_reads (s : Station) (level : Bool) :
    readsPins (s.seeDisable level).member.state = readsPins s.member.state := by
  unfold Station.seeDisable
  dsimp only
  (repeat' split) <;> simp_all [readsPins]

theorem Station.joinHandover_reads (s : Station) :
    readsPins s.joinHandover.member.state = readsPins s.member.state := by
  unfold Station.joinHandover Station.enterMember Station.makeLive
  dsimp only
  (repeat' split) <;> simp_all [readsPins]

theorem Station.consumeOutcomes_peersSound {s : Station} (h : s.peersSound) : s.consumeOutcomes.peersSound := by
  have taken : ({ s with bus := { s.bus with pendingRecord := none } } : Station).peersSound := h
  refine (Station.peersHandover_peersSound taken (exclusionsOf s.appliedRecord)).congr ?_ ?_ ?_ <;>
    simp [Station.consumeOutcomes]

theorem Station.takeTally_peersSound {s : Station} (h : s.peersSound) (wire : BitVec 70) : (s.takeTally wire).peersSound :=
  Station.consumeOutcomes_peersSound
    (h.congr (by simp [Station.takeOwnMatch, Station.takeOutcomes]) (by simp [Station.takeOwnMatch, Station.takeOutcomes])
      (by simp [Station.takeOutcomes]))

theorem Station.handover_peersSound {s : Station} (h : s.peersSound) (wire : BitVec 70) : (s.handover wire).peersSound := by
  have taken := Station.takeTally_peersSound h wire
  unfold Station.handover
  split
  · next silenced =>
    have driving : isDriving s.member.state = true := (Bool.and_eq_true_iff.mp silenced).1
    refine taken.congr (by simp) (by simp) ?_
    rw [Station.takeTally_state, readsPins_of_isDriving driving]
    simp [readsPins]
  · exact taken.congr (by simp) (by simp) (by simpa using Station.joinHandover_reads (s.takeTally wire))

theorem peersSound_keptByWork : KeptByWork Station.peersSound where
  beside b h := h.congr b.peers b.loader (by rw [b.state])
  reset _ := Station.peersSound_reset rfl rfl
  loading x l load h := Station.peersSound_loading (by simp [load, readsPins]) fun k => (h.fits k).1
  endLoad := Station.endLoad_peersSound
  seeDisable x level _ h := h.congr (by simp) (by simp) (x.seeDisable_reads level)
  seeDrvFlt _ _ h := h.congr (by simp) (by simp) (by simp)
  enterListen _ reads h := Station.enterListen_peersSound h reads
  enterSilent _ driving h := h.congr (by simp) (by simp) (by rw [readsPins_of_isDriving driving]; simp [readsPins])
  enterJoin _ listen h := h.congr (by simp) (by simp) (by simp [Station.enterJoin, MembershipUnit.atJoin, listen, readsPins])
  handover _ wire h := Station.handover_peersSound h wire
  applyWork _ h := h.congr (by simp) (by simp) (by simp)
  handOn x h := (Station.peersSection_peersSound h).congr (by simp [Station.handOn]) (by simp) (by simp)
  limitStage _ _ _ h := h.congr (by simp) (by simp) (by simp)
  settleTimeout _ h := h.congr (by simp) (by simp) (by simp)
  demandLost _ h := h.congr (by simp) (by simp) (by simp)
  peerLost _ k h := Station.peerLost_peersSound h k
  suspectRecovery _ k h := Station.suspectRecovery_peersSound h k
  lockRampEnd _ h := h.congr (by simp) (by simp) (by simp)
  releaseHoldEnd _ h := h.congr (by simp) (by simp) (by simp)

/-- Settles O59: each update of a record keeps its counters in range and its being SELF or not. -/
theorem peersStaySound : Obligations.PeersStaySound := peersSound_keptByWork.keeps

end Sys2Proof.Machine
end

