-- ==== Sys2Proof/Proofs/GroupWork.lean ====
section
/-! The work on one group (R147 to R156) keeps its record fit, TILT and STEER alike: the holders at rest sum to the whole, a claimant
finds room before RAMP, and in RAMP it is the last of the holders beside those saved. -/

namespace Sys2Proof.Machine

/-! ### A group record that fits -/

/-- The holders of a group without a transaction: no more than the group takes, different, the whole among them (R142). -/
def restFits (g : Group) (holders : List Holder) : Prop :=
  holders.length ≤ mostHolders g ∧ (holderStations holders).Nodup ∧ (holders ≠ [] → shareSum holders = 1000)

/-- The group has room for the claimant. -/
def roomFor (g : Group) (holders : List Holder) (claimant : StationNo) : Prop :=
  restFits g holders ∧ holders.length < mostHolders g ∧ claimant ∉ holderStations holders

/-- The holders in RAMP: those saved and the claimant, who take the whole between them where there are two (R151, R152). -/
def rampFits (g : Group) (holders : List Holder) (t : Transaction) : Prop :=
  ∃ saved, t.saved = some saved ∧ roomFor g saved t.claimant
    ∧ holderStations holders = holderStations saved ++ [t.claimant]
    ∧ (g = .tilt → saved ≠ [] ∧ shareSum holders = 1000)

/-- The open transaction fits the holders. -/
def stageFits (g : Group) (holders : List Holder) (t : Transaction) : Prop :=
  match t.stage with
  | .answer | .prepare => roomFor g holders t.claimant
  | .ramp => rampFits g holders t

/-- The record of a group fits (R142). -/
def groupFits (g : Group) (r : GroupRecord) : Prop :=
  match r.transaction with
  | none => restFits g r.holders
  | some t => stageFits g r.holders t

theorem holderStations_length (holders : List Holder) : (holderStations holders).length = holders.length := by
  simp [holderStations]

@[simp] theorem shareSum_nil : shareSum [] = 0 := rfl

@[simp] theorem shareSum_cons (h : Holder) (l : List Holder) : shareSum (h :: l) = h.share + shareSum l := by
  simp [shareSum]

@[simp] theorem shareSum_append (l l' : List Holder) : shareSum (l ++ l') = shareSum l + shareSum l' := by
  simp [shareSum]

theorem restFits_nil (g : Group) : restFits g [] := ⟨Nat.zero_le _, List.nodup_nil, fun h => absurd rfl h⟩

theorem restFits_sole (g : Group) (k : StationNo) : restFits g [{ station := k, share := 1000 }] :=
  ⟨by cases g <;> simp [mostHolders], List.nodup_singleton _, fun _ => rfl⟩

theorem mostHolders_le (g : Group) : mostHolders g ≤ 2 := by cases g <;> decide

theorem groupFits.rest {g : Group} {r : GroupRecord} (h : groupFits g r) (closed : r.transaction = none) :
    restFits g r.holders := by
  rwa [groupFits, closed] at h

theorem groupFits.stage {g : Group} {r : GroupRecord} (h : groupFits g r) {t : Transaction} (ht : r.transaction = some t) :
    stageFits g r.holders t := by
  rwa [groupFits, ht] at h

theorem groupFits_of_rest {g : Group} {r : GroupRecord} (closed : r.transaction = none) (h : restFits g r.holders) :
    groupFits g r := by
  rwa [groupFits, closed]

theorem groupFits_of_stage {g : Group} {r : GroupRecord} {t : Transaction} (ht : r.transaction = some t)
    (h : stageFits g r.holders t) : groupFits g r := by
  rwa [groupFits, ht]

/-- The fit of a record is that of its holders and its transaction. -/
theorem groupFits.congr {g : Group} {r x : GroupRecord} (h : groupFits g r) (holders : x.holders = r.holders)
    (transaction : x.transaction = r.transaction) : groupFits g x := by
  rwa [groupFits, holders, transaction]

theorem stageFits.room {g : Group} {holders : List Holder} {t : Transaction} (h : stageFits g holders t)
    (before : t.stage ≠ .ramp) : roomFor g holders t.claimant := by
  unfold stageFits at h
  split at h
  · exact h
  · exact h
  · next ramp => exact absurd ramp before

theorem stageFits.ramp {g : Group} {holders : List Holder} {t : Transaction} (h : stageFits g holders t)
    (ramp : t.stage = .ramp) : rampFits g holders t := by
  rwa [stageFits, ramp] at h

theorem stageFits_of_room {g : Group} {holders : List Holder} {t : Transaction} (before : t.stage ≠ .ramp)
    (h : roomFor g holders t.claimant) : stageFits g holders t := by
  unfold stageFits
  split
  · exact h
  · exact h
  · next ramp => exact absurd ramp before

theorem stageFits_of_ramp {g : Group} {holders : List Holder} {t : Transaction} (ramp : t.stage = .ramp)
    (h : rampFits g holders t) : stageFits g holders t := by
  rwa [stageFits, ramp]

theorem rampFits.length {g : Group} {holders : List Holder} {t : Transaction} (h : rampFits g holders t) :
    holders.length ≤ mostHolders g := by
  obtain ⟨saved, -, ⟨-, room, -⟩, stations, -⟩ := h
  have := congrArg List.length stations
  simp only [holderStations_length, List.length_append, List.length_singleton] at this
  omega

theorem groupFits.length {g : Group} {r : GroupRecord} (h : groupFits g r) : r.holders.length ≤ mostHolders g := by
  cases ht : r.transaction with
  | none => exact (h.rest ht).1
  | some t =>
    by_cases ramp : t.stage = .ramp
    · exact ((h.stage ht).ramp ramp).length
    · exact ((h.stage ht).room ramp).1.1

/-- With room left, the holders are those of a group at rest: in RAMP the group is full. -/
theorem groupFits.rest_of_room {g : Group} {r : GroupRecord} (h : groupFits g r) (room : r.holders.length < mostHolders g) :
    restFits g r.holders := by
  cases ht : r.transaction with
  | none => exact h.rest ht
  | some t =>
    by_cases ramp : t.stage = .ramp
    · obtain ⟨saved, -, -, stations, tilt⟩ := (h.stage ht).ramp ramp
      have length := congrArg List.length stations
      simp only [holderStations_length, List.length_append, List.length_singleton] at length
      cases g with
      | steer => simp only [mostHolders] at room; omega
      | tilt =>
        have some := List.length_pos_iff.mpr (tilt rfl).1
        simp only [mostHolders] at room
        omega
    · exact ((h.stage ht).room ramp).1

/-! ### The predicates of Safety.lean -/

theorem tiltSound_iff (r : GroupRecord) : tiltSound r ↔ groupFits .tilt r := by
  constructor
  · rintro ⟨length, nodup, sum, stage⟩
    cases ht : r.transaction with
    | none => exact groupFits_of_rest ht ⟨length, nodup, sum⟩
    | some t =>
      have fits := stage t ht
      refine groupFits_of_stage ht ?_
      unfold tiltStageSound at fits
      split at fits
      · next answer =>
        exact stageFits_of_room (by simp [answer]) ⟨⟨length, nodup, sum⟩, Nat.lt_succ_of_le fits.1, fits.2⟩
      · next prepare =>
        exact stageFits_of_room (by simp [prepare]) ⟨⟨length, nodup, sum⟩, Nat.lt_succ_of_le fits.1, fits.2⟩
      · next ramp =>
        obtain ⟨giver, stations, saved⟩ := fits
        have differ : t.claimant ≠ giver := by
          rw [stations] at nodup
          simp only [List.nodup_cons, List.mem_singleton] at nodup
          exact fun same => nodup.1 same.symm
        refine stageFits_of_ramp ramp
          ⟨_, saved, ⟨restFits_sole .tilt giver, by simp [mostHolders], ?_⟩, stations, fun _ => ⟨by simp, sum ?_⟩⟩
        · simpa [holderStations] using differ
        · intro empty
          simp [empty, holderStations] at stations
  · intro h
    cases ht : r.transaction with
    | none =>
      obtain ⟨length, nodup, sum⟩ := h.rest ht
      exact ⟨length, nodup, sum, fun t ht' => by simp [ht] at ht'⟩
    | some t =>
      by_cases ramp : t.stage = .ramp
      · obtain ⟨saved, hsaved, ⟨rest, room, absent⟩, stations, tilt⟩ := (h.stage ht).ramp ramp
        obtain ⟨giver, rfl⟩ : ∃ giver : Holder, saved = [giver] := by
          refine List.length_eq_one_iff.mp (Nat.le_antisymm (Nat.le_of_lt_succ room) ?_)
          exact List.length_pos_iff.mpr (tilt rfl).1
        have whole : giver.share = 1000 := by simpa using rest.2.2 (by simp)
        refine ⟨h.length, ?_, fun _ => (tilt rfl).2, fun t' ht' => ?_⟩
        · rw [stations]
          simp only [holderStations, List.map_cons, List.map_nil, List.mem_singleton] at absent
          simpa [holderStations] using fun same => absent same.symm
        · obtain rfl : t = t' := by simpa [ht] using ht'
          rw [tiltStageSound, ramp]
          exact ⟨giver.station, stations, by rw [hsaved, ← whole]⟩
      · obtain ⟨⟨length, nodup, sum⟩, room, absent⟩ := (h.stage ht).room ramp
        refine ⟨length, nodup, sum, fun t' ht' => ?_⟩
        obtain rfl : t = t' := by simpa [ht] using ht'
        unfold tiltStageSound
        split
        · exact ⟨Nat.le_of_lt_succ room, absent⟩
        · exact ⟨Nat.le_of_lt_succ room, absent⟩
        · next at_ramp => exact absurd at_ramp ramp

/-- At most one holder is a holder at rest just when it has the whole. -/
theorem restFits_steer_iff (holders : List Holder) :
    restFits .steer holders ↔ holders.length ≤ 1 ∧ ∀ h ∈ holders, h.share = 1000 := by
  match holders with
  | [] => simp [restFits_nil]
  | [h] => simp [restFits, mostHolders, holderStations]
  | _ :: _ :: _ => simp [restFits, mostHolders]

theorem roomFor_steer_iff (holders : List Holder) (claimant : StationNo) : roomFor .steer holders claimant ↔ holders = [] := by
  constructor
  · rintro ⟨-, room, -⟩
    exact List.length_eq_zero_iff.mp (Nat.lt_one_iff.mp room)
  · rintro rfl
    exact ⟨restFits_nil _, by decide, by simp [holderStations]⟩

theorem steerStageSound_iff (holders : List Holder) (t : Transaction) :
    steerStageSound holders t ↔ stageFits .steer holders t := by
  unfold steerStageSound stageFits rampFits
  cases t.stage with
  | answer => simp [roomFor_steer_iff]
  | prepare => simp [roomFor_steer_iff]
  | ramp =>
    simp only [roomFor_steer_iff, reduceCtorEq, false_implies, and_true]
    constructor
    · rintro ⟨stations, saved⟩
      exact ⟨[], saved, rfl, stations⟩
    · rintro ⟨_, saved, rfl, stations⟩
      exact ⟨stations, saved⟩

theorem steerSound_iff (r : GroupRecord) : steerSound r ↔ groupFits .steer r := by
  constructor
  · rintro ⟨length, whole, stage⟩
    cases ht : r.transaction with
    | none => exact groupFits_of_rest ht ((restFits_steer_iff _).mpr ⟨length, whole ht⟩)
    | some t => exact groupFits_of_stage ht ((steerStageSound_iff _ _).mp (stage t ht))
  · intro h
    refine ⟨h.length, fun ht => ((restFits_steer_iff _).mp (h.rest ht)).2, fun t ht => ?_⟩
    exact (steerStageSound_iff _ _).mpr (h.stage ht)

/-! ### Losses (R153, R154) -/

@[simp] theorem GroupWork.removeLost_transaction (w : GroupWork) (inp : GroupInputs) (holders : List Holder) :
    (w.removeLost inp holders).record.transaction = w.record.transaction := by
  unfold GroupWork.removeLost
  dsimp only
  split <;> rfl

theorem soleShare_stations (holders : List Holder) : holderStations (soleShare holders) = holderStations holders := by
  unfold soleShare
  split <;> rfl

/-- The removal takes stations away and brings none. -/
theorem GroupWork.removeLost_stations (w : GroupWork) (inp : GroupInputs) (holders : List Holder) :
    (holderStations (w.removeLost inp holders).record.holders).Sublist (holderStations holders) := by
  unfold GroupWork.removeLost
  dsimp only
  split
  · exact .refl _
  · dsimp only
    rw [soleShare_stations]
    exact List.filter_sublist.map _

/-- Of at most two holders a loss leaves one with the whole, or none. -/
theorem restFits_soleShare (g : Group) {holders : List Holder} (h : holders.length ≤ 1) : restFits g (soleShare holders) := by
  match holders with
  | [] => exact restFits_nil g
  | [k] => exact restFits_sole g k.station
  | _ :: _ :: _ => simp at h

/-- Of at most two holders, with one of them lost, the rest are holders at rest. -/
theorem GroupWork.removeLost_rest_of_lost (g : Group) (w : GroupWork) {inp : GroupInputs} {holders : List Holder}
    (length : holders.length ≤ 2) (lost : ∃ h ∈ holders, inp.lost h.station = true) :
    restFits g (w.removeLost inp holders).record.holders := by
  rw [GroupWork.removeLost_some w inp holders lost]
  refine restFits_soleShare g (Nat.le_of_lt_succ (lt_of_lt_of_le ?_ length))
  obtain ⟨h, mem, gone⟩ := lost
  exact List.length_filter_lt_length_iff_exists.mpr ⟨h, mem, by simp [gone]⟩

theorem GroupWork.removeLost_rest {g : Group} (w : GroupWork) (inp : GroupInputs) {holders : List Holder}
    (h : restFits g holders) : restFits g (w.removeLost inp holders).record.holders := by
  by_cases lost : ∃ h ∈ holders, inp.lost h.station = true
  · exact w.removeLost_rest_of_lost g (h.1.trans (mostHolders_le g)) lost
  · rw [GroupWork.removeLost_none w inp holders fun x hx => by
      by_contra gone
      exact lost ⟨x, hx, by simpa using gone⟩]
    exact h

theorem GroupWork.removeLost_room {g : Group} (w : GroupWork) (inp : GroupInputs) {holders : List Holder}
    {claimant : StationNo} (h : roomFor g holders claimant) :
    roomFor g (w.removeLost inp holders).record.holders claimant := by
  obtain ⟨rest, room, absent⟩ := h
  have fewer := w.removeLost_stations inp holders
  refine ⟨w.removeLost_rest inp rest, lt_of_le_of_lt ?_ room, fun mem => absent (fewer.subset mem)⟩
  have := fewer.length_le
  rwa [holderStations_length, holderStations_length] at this

/-! ### Closes (R154 to R156) -/

theorem GroupWork.close_fits {g : Group} {w : GroupWork} (h : groupFits g w.record) {holders : List Holder} (code : CloseCode)
    (rest : restFits g holders) : groupFits g (w.close holders code).record := by
  unfold GroupWork.close
  split
  · exact groupFits_of_rest rfl rest
  · exact h

theorem GroupWork.close_transaction (w : GroupWork) (holders : List Holder) (code : CloseCode) :
    (w.close holders code).record.transaction = none := by
  unfold GroupWork.close
  split
  · rfl
  · next closed => exact closed

/-- What a transaction's end restores are holders at rest. -/
theorem groupFits.restored {g : Group} {r : GroupRecord} (h : groupFits g r) {t : Transaction} (ht : r.transaction = some t) :
    restFits g (r.restored t) := by
  unfold GroupRecord.restored
  split
  · next saved ramp hsaved =>
    obtain ⟨s, same, ⟨rest, -⟩, -⟩ := (h.stage ht).ramp ramp
    obtain rfl : saved = s := by simpa [hsaved] using same
    exact rest
  · next ramp hsaved =>
    obtain ⟨s, same, -⟩ := (h.stage ht).ramp ramp
    simp [hsaved] at same
  · next answer => exact ((h.stage ht).room (by simp [answer])).1
  · next prepare => exact ((h.stage ht).room (by simp [prepare])).1

/-! ### The six steps of a handover (R148) -/

theorem GroupWork.ageStage_fits {g : Group} {w : GroupWork} (h : groupFits g w.record) : groupFits g w.ageStage.record := by
  unfold GroupWork.ageStage
  split
  · next t ht =>
    have before : stageFits g w.record.holders t := h.stage ht
    have aged : stageFits g w.record.holders { t with age := succSat 16 t.age } := before
    exact groupFits_of_stage rfl aged
  · exact h

theorem GroupWork.dealLosses_fits {g : Group} {w : GroupWork} (h : groupFits g w.record) (inp : GroupInputs) :
    groupFits g (w.dealLosses inp).record := by
  unfold GroupWork.dealLosses
  split
  · next ht => exact groupFits_of_rest (by simpa using ht) (w.removeLost_rest inp (h.rest ht))
  · next t ht =>
    split
    · exact groupFits_of_rest (by simp [GroupWork.close_transaction]) (GroupWork.removeLost_rest _ inp (h.restored ht))
    · split
      · next answer =>
        split
        · exact groupFits_of_stage rfl
            (stageFits_of_room (by simp) (w.removeLost_room inp ((h.stage ht).room (by simp [answer]))))
        · exact h
      · next prepare =>
        exact groupFits_of_stage (by simpa using ht)
          (stageFits_of_room (by simp [prepare]) (w.removeLost_room inp ((h.stage ht).room (by simp [prepare]))))
      · next ramp =>
        split
        · next lost =>
          have full := ((h.stage ht).ramp ramp).length.trans (mostHolders_le g)
          have rest := w.removeLost_rest_of_lost g full (List.any_eq_true.mp lost)
          dsimp only
          unfold GroupWork.close
          split
          · exact groupFits_of_rest rfl rest
          · next closed => exact groupFits_of_rest closed rest
        · exact h

theorem GroupWork.abort_fits {g : Group} {w : GroupWork} (h : groupFits g w.record) (inp : GroupInputs) :
    groupFits g (w.abort inp).record := by
  unfold GroupWork.abort
  repeat' split
  · next t ht _ => exact GroupWork.close_fits h _ (h.restored ht)
  · exact h
  · exact h

theorem GroupWork.takeReady_fits {g : Group} {w : GroupWork} (h : groupFits g w.record) {t : Transaction}
    (ht : roomFor g w.record.holders t.claimant) : groupFits g (w.takeReady g t).record := by
  have stations : ∀ l : List Holder, holderStations (l ++ [{ station := t.claimant, share := 0 }]) =
      holderStations l ++ [t.claimant] := by simp [holderStations]
  unfold GroupWork.takeReady
  dsimp only
  split
  · split
    · exact GroupWork.close_fits h _ (restFits_sole _ _)
    · next some =>
      have nonempty : w.record.holders ≠ [] := by simpa using some
      refine groupFits_of_stage rfl ⟨_, rfl, ht, stations _, fun _ => ⟨nonempty, ?_⟩⟩
      simpa using ht.1.2.2 nonempty
  · exact groupFits_of_stage rfl ⟨_, rfl, ht, stations _, fun tilt => by cases tilt⟩

theorem GroupWork.respond_fits {w : GroupWork} {inp : GroupInputs} (h : groupFits inp.group w.record) (start : Option Stage) :
    groupFits inp.group (w.respond inp start).record := by
  unfold GroupWork.respond
  split
  · next t ht =>
    split
    · next answer =>
      have room := (h.stage ht).room (by simp [answer])
      repeat' split
      · exact GroupWork.close_fits h _ room.1
      · exact groupFits_of_stage rfl (stageFits_of_room (by simp) room)
      · exact h
    · next prepare =>
      split
      · exact GroupWork.takeReady_fits h ((h.stage ht).room (by simp [prepare]))
      · exact h
    · exact h
  · exact h

/-- A close in ANSWER or in PREPARE leaves the holders that stand. -/
theorem GroupWork.closeStage_fits {g : Group} {w : GroupWork} (h : groupFits g w.record) {t : Transaction}
    (ht : w.record.transaction = some t) (before : t.stage ≠ .ramp) (code : CloseCode) :
    groupFits g (w.close w.record.holders code).record :=
  GroupWork.close_fits h code ((h.stage ht).room before).1

theorem GroupWork.answerLimit_fits {g : Group} {w : GroupWork} (h : groupFits g w.record) :
    groupFits g w.answerLimit.record := by
  unfold GroupWork.answerLimit
  repeat' split
  · next t ht due =>
    have answer : t.stage = .answer := of_decide_eq_true (Bool.and_eq_true_iff.mp due).1
    exact GroupWork.closeStage_fits h ht (by simp [answer]) _
  · exact h
  · exact h

theorem GroupWork.prepareLimit_fits {g : Group} {w : GroupWork} (h : groupFits g w.record) :
    groupFits g w.prepareLimit.record := by
  unfold GroupWork.prepareLimit
  repeat' split
  · next t ht due =>
    have prepare : t.stage = .prepare := of_decide_eq_true (Bool.and_eq_true_iff.mp due).1
    exact GroupWork.closeStage_fits h ht (by simp [prepare]) _
  · exact h
  · exact h

theorem not_mem_stations_of_not_holder {holders : List Holder} {k : StationNo} (h : isHolder holders k = false) :
    k ∉ holderStations holders := by
  intro mem
  obtain ⟨x, hx, rfl⟩ := List.mem_map.mp mem
  have := List.any_eq_false.mp h x hx
  simp at this

theorem GroupWork.takeClaim_fits {w : GroupWork} {inp : GroupInputs} (h : groupFits inp.group w.record) (openAtStart : Bool) :
    groupFits inp.group (w.takeClaim inp openAtStart).record := by
  unfold GroupWork.takeClaim
  split
  · next c _ =>
    split
    · exact h
    · next valid =>
      simp only [GroupWork.claimVoid, Bool.or_eq_true, not_or, Bool.not_eq_true, decide_eq_true_eq, not_le] at valid
      obtain ⟨⟨⟨absent, room⟩, -⟩, -⟩ := valid
      have fits : roomFor inp.group w.record.holders c :=
        ⟨h.rest_of_room room, room, not_mem_stations_of_not_holder absent⟩
      refine groupFits_of_stage rfl (stageFits_of_room ?_ fits)
      dsimp only
      split <;> simp
  · exact h

/-- A handover keeps the record of its group fit (R148). -/
theorem groupHandover_fits (inp : GroupInputs) {start : GroupRecord} (h : groupFits inp.group start) :
    groupFits inp.group (groupHandover inp start).record := by
  have aged := GroupWork.ageStage_fits (w := { record := start, closed := none }) h
  have responded := GroupWork.respond_fits (GroupWork.abort_fits (GroupWork.dealLosses_fits aged inp) inp)
    (start.transaction.map (·.stage))
  exact GroupWork.takeClaim_fits (GroupWork.prepareLimit_fits (GroupWork.answerLimit_fits responded)) _

/-! ### The ramp (R152) -/

theorem rampDone_stations (g : Group) (holders : List Holder) :
    holderStations (rampDone g holders) = holderStations holders := by
  simp [holderStations, rampDone]

theorem rampShares_stations (g : Group) (rampRounds count : Nat) (claimant : StationNo) (holders : List Holder) :
    holderStations (rampShares g rampRounds count claimant holders) = holderStations holders := by
  simp only [holderStations, rampShares, List.map_map, List.map_inj_left, Function.comp]
  intro h _
  split <;> rfl

/-- The two holders of a TILT ramp: a giver and the claimant. -/
theorem rampFits.pair {holders : List Holder} {t : Transaction} (h : rampFits .tilt holders t) :
    ∃ a b : Holder, holders = [a, b] ∧ b.station = t.claimant ∧ a.station ≠ t.claimant := by
  obtain ⟨saved, -, ⟨-, room, absent⟩, stations, tilt⟩ := h
  obtain ⟨giver, rfl⟩ : ∃ giver : Holder, saved = [giver] :=
    List.length_eq_one_iff.mp (Nat.le_antisymm (Nat.le_of_lt_succ room) (List.length_pos_iff.mpr (tilt rfl).1))
  obtain ⟨a, b, rfl⟩ := List.length_eq_two.mp (by simpa [holderStations] using congrArg List.length stations)
  obtain ⟨ha, hb⟩ : a.station = giver.station ∧ b.station = t.claimant := by simpa [holderStations] using stations
  exact ⟨a, b, rfl, hb, fun same => absent (by simp [holderStations, ← ha, same])⟩

/-- The one holder of a STEER ramp. -/
theorem rampFits.single {holders : List Holder} {t : Transaction} (h : rampFits .steer holders t) :
    ∃ a : Holder, holders = [a] := by
  obtain ⟨saved, -, ⟨-, room, -⟩, stations, -⟩ := h
  obtain rfl : saved = [] := List.length_eq_zero_iff.mp (Nat.lt_one_iff.mp room)
  exact List.length_eq_one_iff.mp (by simpa [holderStations] using congrArg List.length stations)

theorem rampFits.done {g : Group} {holders : List Holder} {t : Transaction} (h : rampFits g holders t) :
    restFits g (rampDone g holders) := by
  cases g with
  | tilt =>
    obtain ⟨a, b, rfl, claimant, giver⟩ := h.pair
    refine ⟨by simp [rampDone, mostHolders], ?_, fun _ => by simp [rampDone]⟩
    rw [rampDone_stations]
    simpa [holderStations, claimant] using giver
  | steer =>
    obtain ⟨a, rfl⟩ := h.single
    exact restFits_sole .steer a.station

/-- A ramp step moves the shares of TILT from the giver to the claimant and keeps their sum. -/
theorem rampFits.step {g : Group} {holders : List Holder} {t : Transaction} (h : rampFits g holders t) {rampRounds count : Nat}
    (running : count < rampRounds) :
    rampFits g (rampShares g rampRounds count t.claimant holders) { t with rampCount := count } := by
  have pair := fun tilt : g = .tilt => rampFits.pair (tilt ▸ h)
  obtain ⟨saved, hsaved, room, stations, tilt⟩ := h
  refine ⟨saved, hsaved, room, by rw [rampShares_stations, stations], fun isTilt => ⟨(tilt isTilt).1, ?_⟩⟩
  obtain ⟨a, b, rfl, claimant, giver⟩ := pair isTilt
  have part : 500 * count / rampRounds ≤ 500 :=
    Nat.div_le_of_le_mul (by rw [Nat.mul_comm rampRounds]; exact Nat.mul_le_mul_left _ running.le)
  simp only [rampShares, isTilt, List.map_cons, List.map_nil, giver, claimant, if_true, if_false, shareSum_cons, shareSum_nil]
  omega

/-- A ramp step keeps the record of its group fit (R152). -/
theorem groupRamp_fits {g : Group} {start : GroupRecord} (h : groupFits g start) (rampRounds : Nat) :
    groupFits g (groupRamp g rampRounds start).record := by
  unfold groupRamp
  dsimp only
  split
  · next t ht =>
    split
    · next ramp =>
      have fits := (h.stage ht).ramp ramp
      split
      · exact GroupWork.close_fits (w := { record := start, closed := none }) h _ fits.done
      · next running =>
        refine groupFits_of_stage rfl ?_
        exact stageFits_of_ramp ramp (fits.step (Nat.lt_of_not_le running))
    · exact h
  · exact h

end Sys2Proof.Machine
end

