-- ==== Sys2Proof/Proofs/AuthoritySteps.lean ====
section
/-! Every step keeps the authority table sound (R142): the group work, the adopted views (R144) and the rest (R143) keep it fit, and an
adoption entry shows no more holders than its groups have (R58). -/

namespace Sys2Proof.Machine

/-! ### The table -/

/-- The records of both groups fit, and a table at rest is cleared (R143). -/
def Authority.fits (a : Authority) : Prop :=
  groupFits .tilt a.tilt ∧ groupFits .steer a.steer ∧ (a.live = false → a = Authority.atRest)

/-- A live table whose records fit. -/
def Authority.liveFits (a : Authority) : Prop := a.live = true ∧ ∀ g, groupFits g (a.group g)

/-- A pending adoption entry shows no more holders than its groups have (R58). -/
def entriesFit (pending : Option DecisionRecord) : Prop := ∀ r ∈ pending, ∀ a ∈ r.adoption, a.sound

theorem entriesFit_none : entriesFit none := fun _ h => by cases h

theorem Station.authoritySound_iff (s : Station) : s.authoritySound ↔ s.auth.fits ∧ entriesFit s.bus.pendingRecord := by
  simp only [Station.authoritySound, Authority.fits, entriesFit, tiltSound_iff, steerSound_iff, and_assoc]

theorem groupFits_vacant (g : Group) : groupFits g GroupRecord.vacant := restFits_nil g

theorem Authority.atRest_fits : Authority.atRest.fits := ⟨groupFits_vacant _, groupFits_vacant _, fun _ => rfl⟩

theorem Authority.liveFits.fits {a : Authority} (h : a.liveFits) : a.fits :=
  ⟨h.2 .tilt, h.2 .steer, fun rest => by simp [h.1] at rest⟩

theorem Authority.fits.live {a : Authority} (h : a.fits) (live : a.live = true) : a.liveFits :=
  ⟨live, fun g => by cases g <;> [exact h.1; exact h.2.1]⟩

/-- What leaves the table, and the pending record or drops it, leaves the table sound. -/
theorem Station.authoritySound.congr {s t : Station} (h : s.authoritySound) (auth : t.auth = s.auth)
    (record : t.bus.pendingRecord = s.bus.pendingRecord ∨ t.bus.pendingRecord = none) : t.authoritySound := by
  rw [Station.authoritySound_iff] at h ⊢
  rw [auth]
  exact ⟨h.1, record.elim (fun same => same ▸ h.2) fun dropped => dropped ▸ entriesFit_none⟩

/-- A table put in place of a sound one, the pending record kept. -/
theorem Station.authoritySound.of_fits {s t : Station} (h : s.authoritySound) (fits : t.auth.fits)
    (record : t.bus.pendingRecord = s.bus.pendingRecord) : t.authoritySound := by
  rw [Station.authoritySound_iff] at h ⊢
  rw [record]
  exact ⟨fits, h.2⟩

theorem Station.authoritySound.fits {s : Station} (h : s.authoritySound) : s.auth.fits := ((Station.authoritySound_iff s).mp h).1

/-! ### A group's work put into the table (R145, R156) -/

theorem Authority.setRetry_liveFits {a : Authority} (h : a.liveFits) (g : Group) (r : Retry) : (a.setRetry g r).liveFits := by
  obtain ⟨live, groups⟩ := h
  cases g <;> exact ⟨live, fun x => by have := groups x; cases x <;> exact this⟩

theorem Authority.setGroup_liveFits {a : Authority} (h : a.liveFits) {g : Group} {r : GroupRecord} (hr : groupFits g r) :
    (a.setGroup g r).liveFits := by
  obtain ⟨live, groups⟩ := h
  have tilt : groupFits .tilt a.tilt := groups .tilt
  have steer : groupFits .steer a.steer := groups .steer
  cases g with
  | tilt => exact ⟨live, fun x => by cases x <;> [exact hr; exact steer]⟩
  | steer => exact ⟨live, fun x => by cases x <;> [exact tilt; exact hr]⟩

theorem Station.takeClose_liveFits {s : Station} (h : s.auth.liveFits) (g : Group) (closed : Option (StationNo × CloseCode)) :
    (s.takeClose g closed).auth.liveFits := by
  have failed : ∀ code, (s.failClaim g code).auth.liveFits := fun code => by
    unfold Station.failClaim
    dsimp only
    split
    · simpa using Authority.setRetry_liveFits h g _
    · simpa using Authority.setRetry_liveFits h g _
  unfold Station.takeClose
  repeat' split
  · exact Authority.setRetry_liveFits h g _
  · exact failed _
  · exact h
  · exact h

theorem Station.commitGroup_liveFits {s : Station} (h : s.auth.liveFits) {g : Group} {w : GroupWork}
    (hw : groupFits g w.record) : (s.commitGroup g w).auth.liveFits := by
  refine Station.takeClose_liveFits ?_ g w.closed
  exact Authority.setGroup_liveFits h (hw.congr rfl rfl)

/-! ### The handover, the limits and the apply point -/

theorem Station.authorityHandover_fits {s : Station} (h : s.auth.fits) (applied : Option DecisionRecord) :
    (s.authorityHandover applied).auth.fits := by
  have work : ∀ (x : Station) (g : Group), x.auth.liveFits → (x.groupWork applied g).auth.liveFits := fun x g hx =>
    Station.commitGroup_liveFits hx (groupHandover_fits (x.groupInputs g applied) (hx.2 g))
  unfold Station.authorityHandover
  split
  · next live => simpa using (work _ .steer (work s .tilt (h.live live))).fits
  · exact h

theorem Station.limitStage_fits {s : Station} (h : s.auth.fits) {limit : GroupWork → GroupWork}
    (keeps : limit = GroupWork.answerLimit ∨ limit = GroupWork.prepareLimit) : (s.limitStage limit).auth.fits := by
  have limited : ∀ (g : Group) (w : GroupWork), groupFits g w.record → groupFits g (limit w).record := by
    rcases keeps with rfl | rfl
    · exact fun _ _ => GroupWork.answerLimit_fits
    · exact fun _ _ => GroupWork.prepareLimit_fits
  have work : ∀ (x : Station) (g : Group), x.auth.liveFits → (x.limitGroup limit g).auth.liveFits := fun x g hx =>
    Station.commitGroup_liveFits hx (limited g _ (hx.2 g))
  unfold Station.limitStage
  split
  · next due =>
    have live : s.auth.live = true := (Bool.and_eq_true_iff.mp due).1
    simpa using (work _ .steer (work s .tilt (h.live live))).fits
  · exact h

theorem Station.rampStep_fits {s : Station} (h : s.auth.fits) : s.rampStep.auth.fits := by
  have work : ∀ (x : Station) (g : Group), x.auth.liveFits → (x.rampGroup g).auth.liveFits := fun x g hx =>
    Station.commitGroup_liveFits hx (groupRamp_fits (hx.2 g) _)
  unfold Station.rampStep
  split
  · next due =>
    have live : s.auth.live = true := (Bool.and_eq_true_iff.mp due).1
    exact (work _ .steer (work s .tilt (h.live live))).fits
  · exact h

theorem Station.countAuthority_fits {s : Station} (h : s.auth.fits) : s.countAuthority.auth.fits := by
  unfold Station.countAuthority
  split
  · next live =>
    exact ⟨h.1.congr rfl rfl, h.2.1.congr rfl rfl, fun rest => by simp [Authority.countRounds, live] at rest⟩
  · exact h

theorem Station.restAuthority_auth (s : Station) : s.restAuthority.auth = Authority.atRest := by
  simp [Station.restAuthority]

/-- The engine's work leaves the table, or puts it to rest where the adopted state is dropped (R143). -/
theorem Station.engineApply_fits {s : Station} (h : s.auth.fits) : s.engineApply.auth.fits := by
  have dropped : s.engineApply.auth = s.auth ∨ s.engineApply.auth = Authority.atRest := by
    rw [show s.engineApply.auth = s.formDemand.runOrSuspend.auth by simp [Station.engineApply]]
    unfold Station.runOrSuspend Station.dropAdopted
    repeat' split
    · exact .inr (Station.restAuthority_auth _)
    · exact .inl (by simp)
    · exact .inl (by simp)
  rcases dropped with same | rest
  · rwa [same]
  · rw [rest]
    exact Authority.atRest_fits

theorem Station.applyWork_authoritySound {s : Station} (h : s.authoritySound) : s.applyWork.authoritySound := by
  have ramped : s.engineApply.rampStep.groupConds.countAuthority.auth.fits :=
    Station.countAuthority_fits (by simpa using Station.rampStep_fits (Station.engineApply_fits h.fits))
  rw [Station.authoritySound_iff] at h ⊢
  refine ⟨by simpa [Station.applyWork] using ramped, fun r hr a ha => ?_⟩
  have kept : s.applyWork.bus.pendingRecord =
      s.bus.pendingRecord.map (DecisionRecord.withDemand s.engineApply.engine.demand) := by simp [Station.applyWork]
  rw [kept] at hr
  obtain ⟨before, hbefore, rfl⟩ := Option.mem_map.mp hr
  obtain ⟨entry, hentry, rfl⟩ := Option.mem_map.mp ha
  exact h.2 before hbefore entry hentry

/-! ### Adopted views (R144) -/

theorem viewHolders_rest {g : Group} {S : StationSet} (h : setSize S ≤ mostHolders g) : restFits g (viewHolders S) := by
  have stations : holderStations (viewHolders S) = stationsOf S := by
    unfold viewHolders holderStations
    split
    · next one => rw [one]; rfl
    · simp [Function.comp_def]
  have size : (viewHolders S).length = setSize S := by
    rw [← holderStations_length, stations]
    rfl
  have distinct : (stationsOf S).Nodup := List.Nodup.filter _ (by decide : allStations.Nodup)
  refine ⟨size ▸ h, stations ▸ distinct, fun some => ?_⟩
  have few : (stationsOf S).length ≤ 2 := (show setSize S ≤ 2 from h.trans (mostHolders_le g))
  unfold viewHolders at some ⊢
  generalize stationsOf S = l at some few ⊢
  match l with
  | [] => simp at some
  | [_] => rfl
  | [_, _] => rfl
  | _ :: _ :: _ :: _ => simp at few

theorem Station.takeView_fits {s : Station} (h : s.auth.fits) {a : AdoptionEntry} (ha : a.sound) : (s.takeView a).auth.fits := by
  unfold Station.takeView
  split
  · exact ⟨groupFits_of_rest rfl (viewHolders_rest ha.1), groupFits_of_rest rfl (viewHolders_rest ha.2),
      fun rest => by simp at rest⟩
  · exact h

theorem Station.adopt_fits {s : Station} (h : s.auth.fits) {entry : Option AdoptionEntry} (ha : ∀ a ∈ entry, a.sound) :
    (s.adopt entry).auth.fits := by
  unfold Station.adopt
  repeat' split
  · next a _ => exact Station.takeView_fits (by simpa using h) (ha a rfl)
  · exact h
  · exact h

theorem Station.consumeOutcomes_authoritySound {s : Station} (h : s.authoritySound) : s.consumeOutcomes.authoritySound := by
  rw [Station.authoritySound_iff] at h
  obtain ⟨fits, entries⟩ := h
  have entry : ∀ a ∈ s.appliedRecord.bind (·.adoption), a.sound := fun a ha => by
    obtain ⟨r, hr, adoption⟩ := Option.bind_eq_some_iff.mp ha
    exact entries r (Option.filter_eq_some_iff.mp hr).1 a adoption
  rw [Station.authoritySound_iff]
  refine ⟨Station.authorityHandover_fits (Station.adopt_fits (by simpa using fits) entry) _, ?_⟩
  rw [show s.consumeOutcomes.bus.pendingRecord = none by simp [Station.consumeOutcomes]]
  exact entriesFit_none

theorem Station.takeTally_authoritySound {s : Station} (h : s.authoritySound) (wire : BitVec 70) :
    (s.takeTally wire).authoritySound :=
  Station.consumeOutcomes_authoritySound
    (h.congr (by simp [Station.takeOwnMatch, Station.takeOutcomes]) (.inl (by simp [Station.takeOwnMatch, Station.takeOutcomes])))

theorem Station.enterMember_fits {s : Station} (h : s.auth.fits) : s.enterMember.auth.fits := by
  have live : s.enterMember.auth = { s.auth with live := true } := by simp [Station.enterMember, Station.makeLive]
  rw [live]
  exact ⟨h.1, h.2.1, fun rest => by simp at rest⟩

theorem Station.joinHandover_fits {s : Station} (h : s.auth.fits) : s.joinHandover.auth.fits := by
  unfold Station.joinHandover
  dsimp only
  repeat' split
  · exact Station.enterMember_fits h
  · exact h
  · exact h

theorem Station.handover_authoritySound {s : Station} (h : s.authoritySound) (wire : BitVec 70) :
    (s.handover wire).authoritySound := by
  have taken := Station.takeTally_authoritySound h wire
  unfold Station.handover
  split
  · exact taken.congr (by simp) (.inr (by simp [BusUnit.atSilent]))
  · exact taken.of_fits (by simpa using Station.joinHandover_fits taken.fits) (by simp)

/-! ### The adoption entry (R57, R58) -/

/-- The views of an entry are proper (R58). -/
theorem Station.adoptionEntry_sound {s : Station} {a : AdoptionEntry} (h : s.adoptionEntry = some a) : a.sound := by
  unfold Station.adoptionEntry at h
  repeat' (split at h)
  case h_1.isTrue =>
    next settled =>
    simp only [viewsSettled, viewProper, Bool.and_eq_true, decide_eq_true_eq] at settled
    cases h
    exact ⟨settled.1.1.1.2, settled.1.1.2.2⟩
  all_goals cases h

theorem Station.closeSection_authoritySound {s : Station} (h : s.authoritySound) : s.closeSection.authoritySound := by
  rw [Station.authoritySound_iff]
  refine ⟨h.fits, fun r hr a ha => ?_⟩
  have built : s.buildRecord = r := Option.some_inj.mp hr
  exact Station.adoptionEntry_sound (by rw [← built] at ha; exact ha)

theorem Station.handOn_authoritySound {s : Station} (h : s.authoritySound) : s.handOn.authoritySound := by
  have judged : s.peersSection.judgeDigest.judgeMatch.keepEvidence.authoritySound := h.congr (by simp) (.inl (by simp))
  exact (Station.closeSection_authoritySound judged).congr (by simp [Station.handOn]) (.inl (by simp [Station.handOn]))

/-! ### LOAD and the step -/

theorem Station.authoritySound_atRest {s : Station} (auth : s.auth = Authority.atRest)
    (record : entriesFit s.bus.pendingRecord) : s.authoritySound := by
  rw [Station.authoritySound_iff, auth]
  exact ⟨Authority.atRest_fits, record⟩

theorem Station.endLoad_authoritySound (s : Station) : s.endLoad.authoritySound := by
  unfold Station.endLoad Station.tellSvc
  repeat' split
  · exact Station.authoritySound_atRest rfl entriesFit_none
  · exact Station.authoritySound_atRest rfl entriesFit_none
  · exact Station.authoritySound_atRest rfl entriesFit_none

theorem authoritySound_keptByWork : KeptByWork Station.authoritySound where
  beside b h := h.congr b.auth b.record
  reset _ := Station.authoritySound_atRest rfl entriesFit_none
  loading _ _ _ h := h
  endLoad := Station.endLoad_authoritySound
  seeDisable _ _ _ h := h.congr (by simp) (.inl (by simp))
  seeDrvFlt _ _ h := h.congr (by simp) (.inl (by simp))
  enterListen x _ _ := Station.authoritySound_atRest (by simp [Station.enterListen, Station.restAuthority_auth])
    (by rw [Station.enterListen_bus]; exact entriesFit_none)
  enterSilent _ _ h := h.congr (by simp) (.inr (by simp [BusUnit.atSilent]))
  enterJoin x _ h := Station.authoritySound_atRest (by simp [Station.enterJoin, Station.restAuthority_auth])
    (by simpa using ((Station.authoritySound_iff x).mp h).2)
  handover _ wire h := Station.handover_authoritySound h wire
  applyWork _ h := Station.applyWork_authoritySound h
  handOn _ h := Station.handOn_authoritySound h
  limitStage _ _ keeps h := h.of_fits (Station.limitStage_fits h.fits keeps) (by simp)
  settleTimeout _ h := h.congr (by simp) (.inl (by simp))
  demandLost _ h := h.congr (by simp) (.inl (by simp))
  peerLost _ _ h := h.congr (by simp) (.inl (by simp))
  suspectRecovery _ _ h := h.congr (by simp) (.inl (by simp))
  lockRampEnd _ h := h.congr (by simp) (.inl (by simp))
  releaseHoldEnd _ h := h.congr (by simp) (.inl (by simp))

/-- Settles O56: the work on a group keeps its record fit, and views and entries come within the groups' sizes. -/
theorem authorityStaysSound : Obligations.AuthorityStaysSound := authoritySound_keptByWork.keeps

end Sys2Proof.Machine
end

