-- ==== Sys2Proof/Proofs/CountSteps.lean ====
section
/-! Every step keeps the counts of the Bus Unit and the Membership Unit sound (R3 to R5, R20, R50, R63, R64, R74, R75). A piece of work
that makes a change of state due is followed by the work that takes it, so the invariant splits: the counts in their ranges, which every
piece of work keeps, and no bus loss or entry to JOIN due, which the round start restores. -/

namespace Sys2Proof.Machine

/-! ### The parts of the invariant -/

/-- The counts in their ranges, a cut bit only where a station just stopped driving, and nothing to drive where it does not. -/
structure Station.InRange (s : Station) : Prop where
  bus : s.bus.countsSound
  member : s.member.countsSound
  clash : isDriving s.member.state = true → s.bus.clashCount < Config.clashLimit
  listen : s.member.state = .listen → s.bus.clashCount = 0
  still : isDriving s.member.state = false →
    s.bus.mark = none ∧ s.bus.round.image = none ∧ s.bus.round.ownSlot = .notBegun
  cut : s.bus.cutBit = true →
    (s.member.state = .listen ∧ s.bus.position = 0) ∨ (s.member.state = .silent ∧ s.member.silentHold = 0)

theorem Station.countsSound_iff (s : Station) :
    s.countsSound ↔ s.InRange ∧ s.busLossDue = false ∧ s.joinEntryDue = false := by
  have loss : s.busLossDue = false ↔ (isDriving s.member.state = true → s.member.lossPeriods < Config.lossPeriods) := by
    simp [Station.busLossDue]
  have join : s.joinEntryDue = false ↔ (s.member.state = .listen → s.joinEntryDue = false) := by
    refine ⟨fun h _ => h, fun h => ?_⟩
    by_cases listen : s.member.state = .listen
    · exact h listen
    · simp [Station.joinEntryDue, listen]
  rw [loss, join]
  constructor
  · rintro ⟨bus, member, driving, listen, still, cut⟩
    exact ⟨⟨bus, member, fun d => (driving d).1, fun l => (listen l).1, still, cut⟩, fun d => (driving d).2,
      fun l => (listen l).2⟩
  · rintro ⟨⟨bus, member, clash, listen, still, cut⟩, periods, entry⟩
    exact ⟨bus, member, fun d => ⟨clash d, periods d⟩, fun l => ⟨listen l, entry l⟩, still, cut⟩

theorem Station.countsSound.inRange {s : Station} (h : s.countsSound) : s.InRange := ((Station.countsSound_iff s).mp h).1

/-- No bus loss and no entry to JOIN is due. -/
theorem Station.countsSound.notDue {s : Station} (h : s.countsSound) : s.busLossDue = false ∧ s.joinEntryDue = false :=
  ((Station.countsSound_iff s).mp h).2

theorem Station.InRange.sound {s : Station} (h : s.InRange) (loss : s.busLossDue = false) (join : s.joinEntryDue = false) :
    s.countsSound := (Station.countsSound_iff s).mpr ⟨h, loss, join⟩

/-- Outside LISTEN and the states that drive, no change of state is due. -/
theorem Station.InRange.sound_of_still {s : Station} (h : s.InRange) (still : isDriving s.member.state = false)
    (listen : s.member.state ≠ .listen) : s.countsSound :=
  h.sound (by simp [Station.busLossDue, still]) (by simp [Station.joinEntryDue, listen])

/-- In LISTEN with no good round counted, no change of state is due. -/
theorem Station.InRange.sound_of_listen {s : Station} (h : s.InRange) (listen : s.member.state = .listen)
    (rounds : s.member.goodRounds = 0) : s.countsSound :=
  h.sound (by simp [Station.busLossDue, listen, isDriving]) (by simp [Station.joinEntryDue, rounds, Config.goodRounds])

theorem Station.InRange.congr {s t : Station} (h : s.InRange) (bus : t.bus = s.bus) (member : t.member = s.member) :
    t.InRange := by
  obtain ⟨b, m, clash, listen, still, cut⟩ := h
  exact ⟨by rwa [bus], by rwa [member], by rwa [member, bus], by rwa [member, bus], by rwa [member, bus], by rwa [member, bus]⟩

/-- The Bus Unit changed, its clash count kept. -/
theorem Station.InRange.setBus {s : Station} {b : BusUnit} (h : s.InRange) (counts : b.countsSound)
    (clash : b.clashCount = s.bus.clashCount)
    (still : isDriving s.member.state = false → b.mark = none ∧ b.round.image = none ∧ b.round.ownSlot = .notBegun)
    (cut : b.cutBit = true → s.bus.cutBit = true ∧ b.position = s.bus.position) : ({ s with bus := b } : Station).InRange where
  bus := counts
  member := h.member
  clash driving := clash ▸ h.clash driving
  listen listen := clash.trans (h.listen listen)
  still := still
  cut held := by
    obtain ⟨before, position⟩ := cut held
    exact (h.cut before).imp (fun l => ⟨l.1, position.trans l.2⟩) id

theorem Station.countsSound.setBus {s : Station} {b : BusUnit} (h : s.countsSound) (counts : b.countsSound)
    (clash : b.clashCount = s.bus.clashCount)
    (still : isDriving s.member.state = false → b.mark = none ∧ b.round.image = none ∧ b.round.ownSlot = .notBegun)
    (cut : b.cutBit = true → s.bus.cutBit = true ∧ b.position = s.bus.position) : ({ s with bus := b } : Station).countsSound :=
  (h.inRange.setBus counts clash still cut).sound h.notDue.1 h.notDue.2

/-- `n` is `m` with nothing moved but what matches, verdicts, views and the pin DISABLE set. -/
structure MembershipUnit.SameCounts (m n : MembershipUnit) : Prop where
  state : n.state = m.state
  goodRounds : n.goodRounds = m.goodRounds
  silencings : n.silencings = m.silencings
  losses : n.losses = m.losses
  joinRounds : n.joinRounds = m.joinRounds
  lossPeriods : n.lossPeriods = m.lossPeriods
  silentHold : n.silentHold = m.silentHold
  matchCount : m.matchCount ≤ Config.matchRounds → n.matchCount ≤ Config.matchRounds

theorem MembershipUnit.SameCounts.sound {m n : MembershipUnit} (h : m.SameCounts n) (sound : m.countsSound) :
    n.countsSound := by
  obtain ⟨good, silencings, losses, join, matches_, periods, hold⟩ := sound
  unfold MembershipUnit.countsSound
  rw [h.goodRounds, h.silencings, h.losses, h.joinRounds, h.lossPeriods, h.silentHold]
  exact ⟨good, silencings, losses, join, h.matchCount matches_, periods, hold⟩

theorem MembershipUnit.SameCounts.refl (m : MembershipUnit) : m.SameCounts m := ⟨rfl, rfl, rfl, rfl, rfl, rfl, rfl, id⟩

/-- What leaves the counts of the Membership Unit keeps the counts in their ranges. -/
theorem Station.InRange.judged {s t : Station} (h : s.InRange) (member : s.member.SameCounts t.member)
    (bus : t.bus = s.bus) : t.InRange := by
  obtain ⟨b, m, clash, listen, still, cut⟩ := h
  refine ⟨bus ▸ b, member.sound m, ?_, ?_, ?_, ?_⟩
  · rw [member.state, bus]; exact clash
  · rw [member.state, bus]; exact listen
  · rw [member.state, bus]; exact still
  · rw [member.state, member.silentHold, bus]; exact cut

/-- What leaves the counts of the Membership Unit makes nothing due. -/
theorem MembershipUnit.SameCounts.due_eq {s t : Station} (member : s.member.SameCounts t.member)
    (params : t.params = s.params) : t.busLossDue = s.busLossDue ∧ t.joinEntryDue = s.joinEntryDue := by
  unfold Station.busLossDue Station.joinEntryDue Station.allowanceSpent
  rw [member.state, member.lossPeriods, member.goodRounds, member.silencings, member.losses, params]
  exact ⟨rfl, rfl⟩

/-- What leaves the counts of the Membership Unit leaves them sound. -/
theorem Station.countsSound.judged {s t : Station} (h : s.countsSound) (member : s.member.SameCounts t.member)
    (bus : t.bus = s.bus) (params : t.params = s.params) : t.countsSound := by
  obtain ⟨loss, join⟩ := member.due_eq params
  exact (h.inRange.judged member bus).sound (loss.trans h.notDue.1) (join.trans h.notDue.2)

/-- What leaves the Bus Unit, the Membership Unit and the image leaves the counts sound. -/
theorem Station.countsSound.congr {s t : Station} (h : s.countsSound) (bus : t.bus = s.bus) (member : t.member = s.member)
    (params : t.params = s.params) : t.countsSound := h.judged (member ▸ .refl _) bus params

/-- A station that drives holds no cut bit. -/
theorem Station.InRange.released {s : Station} (h : s.InRange) (driving : isDriving s.member.state = true) :
    s.bus.cutBit = false := by
  by_contra held
  rcases h.cut (by simpa using held) with ⟨state, -⟩ | ⟨state, -⟩ <;> simp [state, isDriving] at driving

/-! ### The pins (R72) -/

/-- A station that drives moves between MEMBER and HALTED. -/
theorem Station.countsSound.swap {s : Station} (h : s.countsSound) {x : StationState}
    (before : isDriving s.member.state = true) (after : isDriving x = true) :
    ({ s with member := { s.member with state := x } } : Station).countsSound := by
  obtain ⟨b, m, clash, listen, still, cut⟩ := h.inRange
  have notListen : x ≠ .listen := by rintro rfl; simp [isDriving] at after
  have released := h.inRange.released before
  have loss := h.notDue.1
  rw [Station.busLossDue, before] at loss
  refine Station.InRange.sound ⟨b, m, fun _ => clash before, fun l => absurd l notListen, fun quiet => ?_,
    fun held => by simp [released] at held⟩ ?_ ?_
  · simp [after] at quiet
  · rw [← loss, Station.busLossDue, after]
  · simp [Station.joinEntryDue, notListen]

theorem Station.seeDisable_countsSound {s : Station} (h : s.countsSound) (level : Bool) : (s.seeDisable level).countsSound := by
  have seen : ({ s with member := { s.member with disableSeen := level } } : Station).countsSound :=
    h.judged ⟨rfl, rfl, rfl, rfl, rfl, rfl, rfl, id⟩ rfl rfl
  have held := seen.congr (t := ({ s with member := { s.member with disableSeen := level } } : Station).setHeld level .haltInput 0)
    (by simp) (by simp) (by simp)
  unfold Station.seeDisable
  dsimp only
  repeat' split
  · next isMember =>
    have driving : isDriving s.member.state = true := by
      rw [show s.member.state = .member by simpa using isMember]
      rfl
    exact (held.swap (x := .halted) (by simpa using driving) rfl).congr (by simp) (by simp) (by simp)
  · exact held.congr (by simp) (by simp) (by simp)
  · next isHalted =>
    have driving : isDriving s.member.state = true := by
      rw [show s.member.state = .halted by simpa using isHalted]
      rfl
    exact held.swap (x := .member) (by simpa using driving) rfl
  · exact held

theorem Station.samplePins_countsSound {s : Station} (h : s.countsSound) : s.samplePins.countsSound := by
  unfold Station.samplePins
  split
  · have seen := Station.seeDisable_countsSound h s.pins.disable
    exact seen.congr (by simp) (by simp) (by simp)
  · exact h

theorem Station.changeDisable_countsSound {s : Station} (h : s.countsSound) (level seen : Bool) :
    (s.changeDisable level seen).countsSound := by
  have changed : ({ s with pins := { s.pins with disable := level } } : Station).countsSound := h.congr rfl rfl rfl
  unfold Station.changeDisable
  dsimp only
  split
  · exact Station.seeDisable_countsSound changed level
  · exact changed

theorem Station.changeDrvFlt_countsSound {s : Station} (h : s.countsSound) (level seen : Bool) :
    (s.changeDrvFlt level seen).countsSound := by
  have changed : ({ s with pins := { s.pins with drvFlt := level } } : Station).countsSound := h.congr rfl rfl rfl
  unfold Station.changeDrvFlt
  dsimp only
  split
  · exact changed.congr (by simp) (by simp) (by simp)
  · exact changed

/-! ### The passing of time (R3 to R5, R9) -/

theorem Candidate.later_age {n : Nat} {c d : Candidate} (h : Candidate.later n c = some d) : d.age ≤ Config.confirmTime := by
  unfold Candidate.later at h
  split at h
  · next fits => cases h; exact fits
  · cases h

theorem BusUnit.later_countsSound {b : BusUnit} (h : b.countsSound) (p : Nat) : (b.later p).countsSound := by
  obtain ⟨-, stuck, clash, limit, fault, joining, -⟩ := h
  refine ⟨Nat.min_le_left _ _, stuck, clash, limit, fault, joining, fun d hd => ?_⟩
  obtain ⟨c, -, later⟩ := Option.bind_eq_some_iff.mp hd
  exact Candidate.later_age later

theorem Station.advance_countsSound {s : Station} (h : s.countsSound) (p : Nat) : (s.advance p).countsSound := by
  have later : ({ s with bus := s.bus.later p } : Station).countsSound := by
    obtain ⟨b, m, clash, listen, still, cut⟩ := h.inRange
    refine Station.InRange.sound ⟨BusUnit.later_countsSound b p, m, clash, listen, fun quiet => ?_, fun held => ?_⟩
      h.notDue.1 h.notDue.2
    · obtain ⟨mark, image, slot⟩ := still quiet
      exact ⟨BusUnit.later_no_mark mark, image, slot⟩
    · simp only [BusUnit.later_cutBit, Bool.and_eq_true, decide_eq_true_eq] at held
      refine (cut held.1).imp (fun l => ⟨l.1, ?_⟩) id
      simp only [BusUnit.later_position, l.2] at held ⊢
      omega
  unfold Station.advance
  dsimp only
  split
  · next passed =>
    obtain ⟨b, m, clash, listen, still, cut⟩ := later.inRange
    have following : isFollowing s.member.state = true := by
      simp only [Station.windowPassed, Bool.and_eq_true] at passed
      exact passed.1.1
    have quiet : isDriving s.member.state = false := by
      revert following
      cases s.member.state <;> decide
    have lost : ({ s with bus := s.bus.later p } : Station).loseMarks.InRange :=
      ⟨b, ⟨Nat.zero_le _, m.2⟩, clash, listen, fun q => ⟨(still q).1, rfl, rfl⟩, cut⟩
    by_cases l : s.member.state = .listen
    · exact lost.sound_of_listen l rfl
    · exact lost.sound_of_still quiet l
  · exact later

theorem Station.sampleUntil_countsSound {s : Station} (h : s.countsSound) (p : Nat) : (s.sampleUntil p).countsSound := by
  unfold Station.sampleUntil
  split
  · exact Station.samplePins_countsSound h
  · exact h

theorem Station.reach_countsSound {s : Station} (h : s.countsSound) (p : Nat) : (s.reach p).countsSound :=
  Station.advance_countsSound (Station.sampleUntil_countsSound h p) p

theorem Station.atMoment_countsSound {s : Station} (h : s.countsSound) {p : Nat} {f : Station → Station}
    (work : ∀ x : Station, x.countsSound → (f x).countsSound) : (s.atMoment p f).countsSound :=
  Station.atMoment_preserves Station.countsSound (fun h => Station.reach_countsSound h p) (work _) h

/-- Work of a driving station at a moment finds it driving. -/
theorem Station.atMoment_driving {s : Station} (h : s.countsSound) (driving : isDriving s.member.state = true) {p : Nat}
    {f : Station → Station} (work : ∀ x : Station, isDriving x.member.state = true → x.countsSound → (f x).countsSound) :
    (s.atMoment p f).countsSound := by
  unfold Station.atMoment
  split
  · exact work _ (by simpa [Station.reach] using driving) (Station.reach_countsSound h p)
  · exact h

/-! ### Leaving the states that drive (R50, R74, R75) -/

theorem MembershipUnit.countsSound.fresh {m : MembershipUnit} (silencings : m.silencings ≤ 4) (losses : m.losses ≤ 4)
    (rest : m.goodRounds = 0 ∧ m.joinRounds = 0 ∧ m.matchCount = 0 ∧ m.lossPeriods = 0 ∧ m.silentHold = 0) : m.countsSound := by
  obtain ⟨good, join, matched, periods, hold⟩ := rest
  simp [MembershipUnit.countsSound, good, join, matched, periods, hold, silencings, losses]

theorem BusUnit.reset_countsSound : BusUnit.reset.countsSound := by
  simp [BusUnit.countsSound, BusUnit.reset, HeldSet.reset, Config.stuckLimit]

/-- An entry to LISTEN, with the bit time of a cut mark or none (R3, R62, R77). -/
theorem Station.enterListen_countsSound {s : Station} (silencings : s.member.silencings ≤ 4) (losses : s.member.losses ≤ 4)
    (cut : Bool) : ({ s.enterListen with bus := { s.enterListen.bus with cutBit := cut } } : Station).countsSound := by
  have member : s.enterListen.member = s.member.atListen := by simp
  have bus : s.enterListen.bus = s.bus.atListen := by simp
  refine Station.InRange.sound_of_listen ⟨?_, ?_, ?_, ?_, ?_, ?_⟩ (by rw [member]; rfl) (by rw [member]; rfl)
  · rw [bus]; exact BusUnit.reset_countsSound
  · rw [member]; exact MembershipUnit.countsSound.fresh silencings losses ⟨rfl, rfl, rfl, rfl, rfl⟩
  · rw [member]; exact fun driving => by cases driving
  · rw [bus]; exact fun _ => rfl
  · rw [bus]; exact fun _ => ⟨rfl, rfl, rfl⟩
  · rw [member, bus]; exact fun _ => .inl ⟨rfl, rfl⟩

/-- An entry to SILENT, from counts in their ranges (R64, R75). -/
theorem Station.enterSilent_countsSound {s : Station} (bus : s.bus.countsSound) (member : s.member.countsSound) :
    s.enterSilent.countsSound := by
  obtain ⟨position, stuck, clash, limit, fault, joining, -⟩ := bus
  obtain ⟨good, -, losses, join, matched, periods, -⟩ := member
  have state : s.enterSilent.member.state = .silent := by simp
  refine Station.InRange.sound_of_still ⟨?_, ?_, ?_, ?_, ?_, ?_⟩ (by rw [state]; rfl) (by rw [state]; decide)
  · rw [Station.enterSilent_bus]
    exact ⟨position, stuck, clash, limit, fault, joining, fun c hc => by cases hc⟩
  · rw [Station.enterSilent_member]
    exact ⟨good, succSat_le _ _, losses, join, matched, periods, Nat.zero_le _⟩
  · rw [state]; exact fun driving => by cases driving
  · rw [state]; exact fun listen => by cases listen
  · rw [Station.enterSilent_bus]; exact fun _ => ⟨rfl, rfl, rfl⟩
  · rw [Station.enterSilent_member]; exact fun _ => .inr ⟨rfl, rfl⟩

/-- The silence after a third clash restores the invariant (R50). -/
theorem Station.clashSilence_countsSound {s : Station}
    (h : s.clashSilenceDue = false → s.countsSound) (bus : s.bus.countsSound) (member : s.member.countsSound) :
    s.clashSilence.countsSound := by
  unfold Station.clashSilence
  split
  · exact Station.enterSilent_countsSound bus member
  · next notDue => exact h (by simpa using notDue)

theorem Station.returnAfterLoss_countsSound {s : Station} (member : s.member.countsSound) :
    s.returnAfterLoss.countsSound := by
  obtain ⟨x, cut, returned, silencings, losses⟩ : ∃ (x : Station) (cut : Bool),
      s.returnAfterLoss = { x.enterListen with bus := { x.enterListen.bus with cutBit := cut } }
        ∧ x.member.silencings = s.member.silencings ∧ x.member.losses ≤ 4 := ⟨_, _, rfl, rfl, succSat_le _ _⟩
  rw [returned]
  exact Station.enterListen_countsSound (silencings ▸ member.2.1) losses cut

/-- The bus loss leaves none due (R74). -/
theorem Station.busLoss_inRange {s : Station} (h : s.InRange) : s.busLoss.InRange ∧ s.busLoss.busLossDue = false := by
  unfold Station.busLoss
  split
  · have lost := Station.returnAfterLoss_countsSound h.member
    exact ⟨lost.inRange, lost.notDue.1⟩
  · next notDue => exact ⟨h, by simpa using notDue⟩

theorem Station.busLoss_countsSound {s : Station} (h : s.InRange) (join : s.joinEntryDue = false) : s.busLoss.countsSound := by
  unfold Station.busLoss
  split
  · exact Station.returnAfterLoss_countsSound h.member
  · next notDue => exact h.sound (by simpa using notDue) join

/-! ### Entering JOIN (R63, R65) -/

/-- An entry to JOIN from LISTEN, once no bit of a cut mark is held (R63, R65). -/
theorem Station.enterJoin_countsSound {s : Station} (h : s.InRange) (listen : s.member.state = .listen)
    (released : s.bus.cutBit = false) : s.enterJoin.countsSound := by
  have member : s.enterJoin.member = s.member.atJoin := by simp [Station.enterJoin]
  have state : s.enterJoin.member.state = .join := by rw [member]; rfl
  have bus : s.enterJoin.bus = { s.bus with nextSeq := false } := by simp
  obtain ⟨good, silencings, losses, -, -, -, hold⟩ := h.member
  refine Station.InRange.sound ⟨?_, ?_, ?_, ?_, ?_, ?_⟩ ?_ ?_
  · rw [bus]; exact h.bus
  · rw [member]; exact ⟨good, silencings, losses, Nat.zero_le _, Nat.zero_le _, Nat.zero_le _, hold⟩
  · rw [bus]; exact fun _ => by rw [h.listen listen]; decide
  · rw [state]; exact fun l => by cases l
  · rw [state]; exact fun quiet => by cases quiet
  · rw [bus]; exact fun held => by simp [released] at held
  · simp [Station.busLossDue, member, MembershipUnit.atJoin, Config.lossPeriods]
  · simp [Station.joinEntryDue, state]

theorem Station.joinEntry_countsSound {s : Station} (h : s.InRange) (loss : s.busLossDue = false)
    (released : s.joinEntryDue = true → s.bus.cutBit = false) : s.joinEntry.countsSound := by
  unfold Station.joinEntry
  split
  · next due =>
    have listen : s.member.state = .listen := by
      simp only [Station.joinEntryDue, Bool.and_eq_true, decide_eq_true_eq] at due
      exact due.1.1
    exact Station.enterJoin_countsSound h listen (released due)
  · next notDue => exact h.sound loss (by simpa using notDue)

/-! ### Round starts (R6, R8, R22) -/

theorem Station.notifyRound_inRange {s : Station} (h : s.InRange) : s.notifyRound.InRange := by
  obtain ⟨bus, ⟨good, silencings, losses, join, matched, periods, hold⟩, clash, listen, still, cut⟩ := h
  unfold Station.notifyRound
  dsimp only
  split
  · refine ⟨bus, ⟨good, silencings, losses, join, matched, ?_, hold⟩, clash, listen, still, cut⟩
    dsimp only
    split
    · exact Nat.zero_le _
    · exact succSat_le _ _
  · exact ⟨bus, ⟨good, silencings, losses, join, matched, periods, hold⟩, clash, listen, still, cut⟩

theorem Station.tellTally_inRange {s : Station} (h : s.InRange) : ({ s with bus := s.bus.tellTally } : Station).InRange :=
  h.setBus h.bus rfl h.still fun held => ⟨held, rfl⟩

theorem Station.cutFrame_inRange {s : Station} (h : s.InRange) : ({ s with bus := s.bus.cutFrame } : Station).InRange := by
  have fits : ∀ b : BusUnit, b = s.bus.cutFrame → ({ s with bus := b } : Station).InRange := by
    unfold BusUnit.cutFrame
    split
    · next slot =>
      rintro b rfl
      refine h.setBus h.bus rfl (fun quiet => ?_) fun held => ⟨held, rfl⟩
      have none := (h.still quiet).2.2
      simp [slot] at none
    · rintro b rfl; exact h
    · rintro b rfl; exact h
  exact fits _ rfl

theorem Station.handNothing_sameCounts (s : Station) : s.member.SameCounts s.handNothing.member := by
  refine ⟨rfl, rfl, rfl, rfl, rfl, rfl, rfl, fun h => ?_⟩
  unfold Station.handNothing
  dsimp only
  split
  · exact Nat.zero_le _
  · exact h

theorem Station.handNothing_inRange {s : Station} (h : s.InRange) : s.handNothing.InRange := by
  have bus : ({ s with bus := { s.bus with ownSig := none } } : Station).InRange :=
    h.setBus h.bus rfl h.still fun held => ⟨held, rfl⟩
  exact bus.judged (Station.handNothing_sameCounts s) rfl

theorem Station.closeAbandoned_inRange {s : Station} (h : s.InRange) : s.closeAbandoned.InRange := by
  have told := Station.tellTally_inRange h
  unfold Station.closeAbandoned
  dsimp only
  repeat' split
  · exact Station.cutFrame_inRange told
  · exact Station.cutFrame_inRange (Station.handNothing_inRange told)
  · exact Station.cutFrame_inRange h
  · exact Station.cutFrame_inRange (Station.handNothing_inRange h)
  · exact h

theorem Station.closeAbandoned_sameCounts (s : Station) : s.member.SameCounts s.closeAbandoned.member := by
  unfold Station.closeAbandoned
  dsimp only
  repeat' split
  · exact .refl _
  · exact Station.handNothing_sameCounts _
  · exact .refl _
  · exact Station.handNothing_sameCounts _
  · exact .refl _

theorem Station.closeAbandoned_countsSound {s : Station} (h : s.countsSound) : s.closeAbandoned.countsSound := by
  obtain ⟨loss, join⟩ := s.closeAbandoned_sameCounts.due_eq (by simp)
  exact (Station.closeAbandoned_inRange h.inRange).sound (loss.trans h.notDue.1) (join.trans h.notDue.2)

/-- The round opened at a confirmed mark (R6): the own mark goes on, and nothing else is driven. -/
theorem Station.openRound_inRange {s : Station} (h : s.InRange) : ({ s with bus := s.bus.openRound } : Station).InRange := by
  obtain ⟨-, -, clash, limit, fault, joining, -⟩ := h.bus
  have timer : Config.confirmTime ≤ Config.positionMax ∧ 0 < Config.stuckLimit := by decide
  refine h.setBus ⟨timer.1, timer.2, clash, limit, fault, joining, fun c hc => by cases hc⟩ rfl (fun quiet => ?_)
    fun held => by cases held
  refine ⟨?_, rfl, rfl⟩
  simp [BusUnit.openRound, (h.still quiet).1]

theorem Station.countGoodRound_inRange {s : Station} (h : s.InRange) : s.countGoodRound.InRange := by
  obtain ⟨bus, member, clash, listen, still, cut⟩ := h
  unfold Station.countGoodRound
  dsimp only
  split
  · refine ⟨bus, ⟨?_, member.2⟩, clash, listen, still, cut⟩
    dsimp only
    split
    · exact succSat_le _ _
    · exact Nat.zero_le _
  · exact ⟨bus, member, clash, listen, still, cut⟩

theorem Station.busLoss_released {s : Station} (h : s.InRange) (released : s.bus.cutBit = false)
    (due : s.busLoss.joinEntryDue = true) : s.busLoss.bus.cutBit = false := by
  unfold Station.busLoss at due ⊢
  split at due
  · simp [(Station.returnAfterLoss_countsSound h.member).notDue.2] at due
  · next notDue => rwa [if_neg notDue]

theorem Station.ageConditions_inRange {s : Station} (h : s.InRange) : s.ageConditions.InRange := h.congr rfl rfl

theorem Station.syncEvent_inRange {s : Station} (h : s.InRange) : s.syncEvent.InRange := h.congr (by simp) (by simp)

/-- The work of a confirmed mark takes the bus loss and the entry to JOIN that it makes due (R6, R63, R74). -/
theorem Station.confirmMark_countsSound {s : Station} (h : s.countsSound) : s.confirmMark.countsSound := by
  have opened : ∀ x : Station, x.InRange →
      ({ x.closeAbandoned with bus := x.closeAbandoned.bus.openRound } : Station).ageConditions.countGoodRound.syncEvent.busLoss.joinEntry.countsSound := by
    intro x hx
    have ranged := Station.countGoodRound_inRange
      (Station.ageConditions_inRange (Station.openRound_inRange (Station.closeAbandoned_inRange hx)))
    have synced := Station.syncEvent_inRange ranged
    obtain ⟨lost, loss⟩ := Station.busLoss_inRange synced
    exact Station.joinEntry_countsSound lost loss (Station.busLoss_released synced (by simp [BusUnit.openRound]))
  unfold Station.confirmMark
  dsimp only
  split
  · exact opened s h.inRange
  · exact opened _ (Station.notifyRound_inRange h.inRange)

theorem Station.syncMark_countsSound {s : Station} (h : s.countsSound) : s.syncMark.countsSound := by
  unfold Station.syncMark
  split
  · exact Station.confirmMark_countsSound (Station.reach_countsSound h _)
  · exact h

theorem Station.notifyRound_joinEntryDue (s : Station) : s.notifyRound.joinEntryDue = s.joinEntryDue := by
  unfold Station.notifyRound
  dsimp only
  split <;> rfl

/-- The drive start of a mark takes the bus loss that it makes due (R22, R74). -/
theorem Station.startMark_countsSound {s : Station} (h : s.countsSound) (driving : isDriving s.member.state = true) :
    s.startMark.countsSound := by
  have told := Station.notifyRound_inRange h.inRange
  have notEntry : s.notifyRound.joinEntryDue = false := s.notifyRound_joinEntryDue.trans h.notDue.2
  have driven : ({ s.notifyRound with bus := s.notifyRound.bus.driveMark } : Station).InRange :=
    told.setBus told.bus rfl (fun quiet => by simp [driving] at quiet) fun held => ⟨held, rfl⟩
  unfold Station.startMark Station.loseBusAtDrive
  dsimp only
  split
  · exact Station.busLoss_countsSound (driven.congr rfl rfl) notEntry
  · next notDue => exact driven.sound (by simpa using notDue) notEntry

theorem Station.ownMark_countsSound {s : Station} (h : s.countsSound) : s.ownMark.countsSound := by
  unfold Station.ownMark
  dsimp only
  split
  · next due =>
    simp only [Station.ownMarkDue, Bool.and_eq_true] at due
    exact Station.startMark_countsSound (Station.reach_countsSound h _) due.1.1
  · exact h

/-! ### The markless round, cold start and the edges (R5, R8, R10, R20) -/

theorem Station.abandonRound_countsSound {s : Station} (h : s.countsSound) (position : Nat) :
    (s.abandonRound position).countsSound :=
  h.setBus h.inRange.bus rfl h.inRange.still fun held => ⟨held, rfl⟩

theorem Station.startMarkless_countsSound {s : Station} (h : s.countsSound) (driving : isDriving s.member.state = true)
    {position : Nat} (fits : position ≤ Config.positionMax) : (s.startMarkless position).countsSound := by
  have closed := Station.closeAbandoned_countsSound h
  have driven : isDriving s.closeAbandoned.member.state = true := by simpa using driving
  obtain ⟨-, -, clash, limit, fault, joining, -⟩ := closed.inRange.bus
  have opened : ({ s.closeAbandoned with bus := s.closeAbandoned.bus.openMarkless position } : Station).countsSound :=
    closed.setBus ⟨fits, Nat.succ_pos 32, clash, limit, fault, joining, fun c hc => by cases hc⟩ rfl
      (fun quiet => by rw [driven] at quiet; cases quiet) fun held => by
        have released := closed.inRange.released driven
        simp [BusUnit.openMarkless, released] at held
  exact (Station.abandonRound_countsSound opened position).congr rfl rfl rfl

/-- A mark is being driven, so the station drives. -/
theorem Station.InRange.driving_of_mark {s : Station} (h : s.InRange) {m : MarkDrive} (mark : s.bus.mark = some m) :
    isDriving s.member.state = true := by
  by_contra quiet
  simp [(h.still (by simpa using quiet)).1] at mark

theorem Station.faultMark_countsSound {s : Station} (h : s.countsSound) : s.faultMark.countsSound := by
  unfold Station.faultMark
  repeat' split
  · exact h
  · next m mark _ =>
    have marked : ({ s with bus := { s.bus with mark := some { m with faulted := true } } } : Station).countsSound :=
      h.setBus h.inRange.bus rfl (fun quiet => by simp [(h.inRange.still quiet).1] at mark) fun held => ⟨held, rfl⟩
    exact marked.congr rfl rfl rfl
  · exact h

theorem Station.markNotReadBack_countsSound {s : Station} (h : s.countsSound) (sample : Fin 8) :
    (s.markNotReadBack sample.val).countsSound := by
  unfold Station.markNotReadBack Station.markMissed
  split
  · next m mark =>
    repeat' split
    · exact Station.atMoment_countsSound h fun _ hx => Station.faultMark_countsSound hx
    · refine Station.startMarkless_countsSound (Station.reach_countsSound h _) ?_ ?_
      · simpa [Station.reach] using h.inRange.driving_of_mark mark
      · have := sample.isLt
        unfold Config.positionMax
        omega
    · exact h
  · exact h

/-- An overdue mark was driven for no longer than the position counter counts (R4, R8). -/
theorem Station.overdueMark_countsSound {s : Station} (h : s.countsSound) (age : ∀ m ∈ s.bus.mark, m.age ≤ Config.positionMax) :
    s.overdueMark.countsSound := by
  unfold Station.overdueMark
  split
  · next m mark =>
    split
    · exact Station.startMarkless_countsSound h (h.inRange.driving_of_mark mark) (age m mark)
    · exact h
  · exact h

theorem Station.coldStart_countsSound {s : Station} (h : s.countsSound) : s.coldStart.countsSound := by
  have later := Station.reach_countsSound h (coldStartAt s.number)
  have past : 0 < (s.reach (coldStartAt s.number)).bus.position := by
    simp only [Station.reach, Station.advance_position, coldStartAt, Config.coldStartBase, Config.positionMax]
    omega
  unfold Station.coldStart
  dsimp only
  generalize s.reach (coldStartAt s.number) = x at later past
  split
  · next due =>
    have listen : x.member.state = .listen := by
      simp only [Station.coldStartDue, Bool.and_eq_true, decide_eq_true_eq] at due
      exact due.1.1
    have released : x.bus.cutBit = false := by
      by_contra held
      rcases later.inRange.cut (by simpa using held) with ⟨-, zero⟩ | ⟨silent, -⟩
      · omega
      · simp [listen] at silent
    have joined := Station.enterJoin_countsSound later.inRange listen released
    refine joined.setBus joined.inRange.bus rfl (fun quiet => ?_) fun held => ⟨held, rfl⟩
    simp [Station.enterJoin, MembershipUnit.atJoin, isDriving] at quiet
  · exact h

theorem Station.windowExpiry_countsSound {s : Station} (h : s.countsSound) : s.windowExpiry.countsSound := by
  unfold Station.windowExpiry
  split
  · exact Station.reach_countsSound h _
  · exact h

theorem Station.takeEdge_countsSound {s : Station} (h : s.countsSound) (position : Nat) : (s.takeEdge position).countsSound := by
  obtain ⟨pos, stuck, clash, limit, fault, joining, candidate⟩ := h.inRange.bus
  refine h.setBus ⟨pos, stuck, clash, limit, fault, joining, fun c hc => ?_⟩ rfl h.inRange.still fun held => ⟨held, rfl⟩
  dsimp only at hc
  split at hc
  · cases hc; exact Nat.zero_le _
  · exact candidate c hc

theorem Station.edge_countsSound {s : Station} (h : s.countsSound) (position : Nat) : (s.edge position).countsSound := by
  unfold Station.edge
  split
  · exact Station.atMoment_countsSound h fun _ hx => Station.takeEdge_countsSound hx position
  · exact h

theorem Station.releaseHeldBack_countsSound {s : Station} (h : s.countsSound) (position : Nat) :
    (s.releaseHeldBack position).countsSound := by
  have later := Station.reach_countsSound h (position + 1)
  unfold Station.releaseHeldBack
  dsimp only
  repeat' split
  · exact Station.ownMark_countsSound later
  · exact Station.coldStart_countsSound later
  · exact h

theorem Station.dropCandidate_countsSound {s : Station} (h : s.countsSound) (position : Nat) :
    (s.dropCandidate position).countsSound := by
  unfold Station.dropCandidate
  split
  · refine Station.atMoment_countsSound h fun x hx => Station.releaseHeldBack_countsSound ?_ position
    obtain ⟨pos, stuck, clash, limit, fault, joining, -⟩ := hx.inRange.bus
    exact hx.setBus ⟨pos, stuck, clash, limit, fault, joining, fun c hc => by cases hc⟩ rfl hx.inRange.still
      fun held => ⟨held, rfl⟩
  · exact h

/-- A stuck count that stays below its limit (R20). -/
theorem Station.countsSound.setStuck {s : Station} (h : s.countsSound) {n : Nat} (hn : n < Config.stuckLimit) :
    ({ s with bus := { s.bus with stuckCount := n } } : Station).countsSound := by
  obtain ⟨pos, -, rest⟩ := h.inRange.bus
  exact h.setBus ⟨pos, hn, rest⟩ rfl h.inRange.still fun held => ⟨held, rfl⟩

theorem Station.raise_countsSound {s : Station} (h : s.countsSound) (code : CondCode) (source : Nat) :
    (s.raise code source).countsSound := h.congr rfl rfl rfl

theorem Station.countStuck_countsSound {s : Station} (h : s.countsSound) (position : Nat) :
    (s.countStuck position).countsSound := by
  have cleared := h.setStuck (n := 0) (by decide)
  have raised := Station.raise_countsSound cleared .stuckBus (stuckSource position)
  unfold Station.countStuck Station.detectStuck
  dsimp only
  repeat' split
  · exact raised
  · exact Station.abandonRound_countsSound raised position
  · next below => exact h.setStuck (Nat.lt_of_not_le below)
  · exact h

theorem Station.countSpan_countsSound (n : Nat) :
    ∀ (s : Station) (position : Nat), s.countsSound → (s.countSpan position n).countsSound := by
  induction n with
  | zero => exact fun _ _ h => h
  | succ n ih => exact fun s position h => ih _ _ (Station.countStuck_countsSound h position)

theorem Station.stuckSpan_countsSound {s : Station} (h : s.countsSound) (first last : Nat) :
    (s.stuckSpan first last).countsSound := by
  have begun : ∀ x : Station, x.countsSound → ({ x with bus := x.bus.beginSpan first } : Station).countsSound := fun x hx => by
    refine hx.setStuck ?_
    split
    · exact hx.inRange.bus.2.1
    · decide
  have ended : ∀ x : Station, x.countsSound → ({ x with bus := { x.bus with stuckNext := last + 1 } } : Station).countsSound :=
    fun x hx => hx.setBus hx.inRange.bus rfl hx.inRange.still fun held => ⟨held, rfl⟩
  unfold Station.stuckSpan
  split
  · refine Station.advance_countsSound (ended _ ?_) last
    exact Station.countSpan_countsSound _ _ _ (begun _ (Station.sampleUntil_countsSound h last))
  · exact h

/-! ### The tally (R16, R23 to R27) -/

theorem Station.takeImage_countsSound {s : Station} (h : s.countsSound) : s.takeImage.countsSound := by
  unfold Station.takeImage
  split
  · next due =>
    simp only [Station.imageDue, Bool.and_eq_true] at due
    refine Station.atMoment_driving h due.1.1.1.1 fun x driving hx => ?_
    exact hx.setBus hx.inRange.bus rfl (fun quiet => by simp [driving] at quiet) fun held => ⟨held, rfl⟩
  · exact h

/-- The outcomes are in their ranges, whatever the wire read (R27, R30 to R32). -/
theorem Station.takeOutcomes_countsSound {s : Station} (h : s.countsSound) (wire : BitVec 70) :
    (s.takeOutcomes wire).countsSound := by
  have subset : ∀ a b : BitVec 8, (a &&& b) &&& ~~~b = 0 := fun a b => by
    rw [BitVec.and_assoc, BitVec.and_not_self]
    exact BitVec.and_zero
  obtain ⟨pos, stuck, clash, -, -, -, candidate⟩ := h.inRange.bus
  exact h.setBus ⟨pos, stuck, clash, Nat.min_le_right _ _, Nat.sub_le _ _, subset _ _, candidate⟩ rfl h.inRange.still
    fun held => ⟨held, rfl⟩

theorem Station.takeOwnMatch_countsSound {s : Station} (h : s.countsSound) : s.takeOwnMatch.countsSound := by
  have bus : ({ s with bus := { s.bus with ownSig := none } } : Station).countsSound :=
    h.setBus h.inRange.bus rfl h.inRange.still fun held => ⟨held, rfl⟩
  exact bus.judged ⟨rfl, rfl, rfl, rfl, rfl, rfl, rfl, id⟩ rfl rfl

theorem Station.adopt_countsSound {s : Station} (h : s.countsSound) (entry : Option AdoptionEntry) :
    (s.adopt entry).countsSound := by
  unfold Station.adopt Station.takeView
  repeat' split
  · exact h.congr (by simp) (by simp) (by simp)
  · exact (h.congr (t := s.engineAdopt _) (by simp) (by simp) (by simp)).judged ⟨rfl, rfl, rfl, rfl, rfl, rfl, rfl, id⟩ rfl rfl
  · exact h
  · exact h

theorem Station.peersHandover_countsSound {s : Station} (h : s.countsSound) (named : StationSet) :
    (s.peersHandover named).countsSound := h.congr (by simp) (by simp) (by simp)

theorem Station.consumeOutcomes_countsSound {s : Station} (h : s.countsSound) : s.consumeOutcomes.countsSound := by
  have taken : ({ s with bus := { s.bus with pendingRecord := none } } : Station).countsSound :=
    h.setBus h.inRange.bus rfl h.inRange.still fun held => ⟨held, rfl⟩
  have named := Station.peersHandover_countsSound taken (exclusionsOf s.appliedRecord)
  exact (Station.adopt_countsSound named (s.appliedRecord.bind (·.adoption))).congr (by simp [Station.consumeOutcomes])
    (by simp [Station.consumeOutcomes]) (by simp [Station.consumeOutcomes])

theorem Station.takeTally_countsSound {s : Station} (h : s.countsSound) (wire : BitVec 70) :
    (s.takeTally wire).countsSound := by
  have read : (s.readBackTally wire).countsSound := h.congr (by simp) (by simp) (by simp)
  have outcomes := Station.takeOutcomes_countsSound read wire
  have split : ((s.readBackTally wire).takeOutcomes wire).countSplit.countsSound := outcomes.congr (by simp) (by simp) (by simp)
  exact Station.consumeOutcomes_countsSound (Station.takeOwnMatch_countsSound split)

theorem Station.joinHandover_countsSound {s : Station} (h : s.countsSound) : s.joinHandover.countsSound := by
  unfold Station.joinHandover
  dsimp only
  split
  · next join =>
    obtain ⟨b, ⟨good, silencings, losses, -, rest⟩, clash, listen, still, cut⟩ := h.inRange
    have counted : ({ s with member := { s.member with joinRounds := succSat 255 s.member.joinRounds } } : Station).countsSound :=
      Station.InRange.sound ⟨b, ⟨good, silencings, losses, succSat_le _ _, rest⟩, clash, listen, still, cut⟩
        h.notDue.1 h.notDue.2
    split
    · have driving : isDriving s.member.state = true := by rw [join]; rfl
      exact (counted.swap (x := .member) driving rfl).congr (by simp [Station.enterMember]) (by simp [Station.enterMember])
        (by simp)
    · exact counted
  · exact h

theorem Station.handover_countsSound {s : Station} (h : s.countsSound) (wire : BitVec 70) :
    (s.handover wire).countsSound := by
  have taken := Station.takeTally_countsSound h wire
  unfold Station.handover
  split
  · exact (Station.enterSilent_countsSound taken.inRange.bus taken.inRange.member).congr (by simp) (by simp) (by simp)
  · exact (Station.joinHandover_countsSound taken).congr (by simp) (by simp) (by simp)

theorem Station.readBackCut_countsSound {s : Station} (h : s.countsSound) (wire : BitVec 70) :
    (s.readBackCut wire).countsSound := by
  unfold Station.readBackCut
  split
  · have cleared : ({ s with bus := { s.bus with round := { s.bus.round with image := none } } } : Station).countsSound := by
      refine h.setBus h.inRange.bus rfl (fun quiet => ?_) fun held => ⟨held, rfl⟩
      obtain ⟨mark, -, slot⟩ := h.inRange.still quiet
      exact ⟨mark, rfl, slot⟩
    exact cleared.congr (by rw [Station.raiseTimes_frame]) (by rw [Station.raiseTimes_frame]) (by rw [Station.raiseTimes_frame])
  · exact h

theorem Station.cutTally_countsSound {s : Station} (h : s.countsSound) (wire : BitVec 70) :
    (s.cutTally wire).countsSound := by
  have read := Station.readBackCut_countsSound h wire
  exact read.setBus read.inRange.bus rfl read.inRange.still fun held => ⟨held, rfl⟩

theorem Station.tallyHandover_countsSound {s : Station} (h : s.countsSound) (wire : BitVec 70) :
    (s.tallyHandover wire).countsSound := by
  unfold Station.tallyHandover
  repeat' split
  · exact Station.atMoment_countsSound h fun _ hx => Station.handover_countsSound hx wire
  · exact Station.atMoment_countsSound h fun _ hx => Station.cutTally_countsSound hx wire
  · exact h

/-! ### Reports (R17, R49 to R53) -/

theorem Station.sendReport_countsSound {s : Station} (h : s.countsSound) (driving : isDriving s.member.state = true)
    (readBack : BitVec 247) : (s.sendReport readBack).countsSound := by
  have sending : ∀ slot : OwnSlot,
      ({ s with bus := { s.bus with round := { s.bus.round with ownSlot := slot } } } : Station).countsSound := fun slot =>
    h.setBus h.inRange.bus rfl (fun quiet => by simp [driving] at quiet) fun held => ⟨held, rfl⟩
  unfold Station.sendReport
  dsimp only
  split
  · exact (sending _).congr rfl rfl rfl
  · exact (sending _).congr rfl rfl rfl

theorem Station.ownReport_countsSound {s : Station} (h : s.countsSound) (readBack : BitVec 247) :
    (s.ownReport readBack).countsSound := by
  unfold Station.ownReport
  split
  · next due =>
    simp only [Station.sendDue, Bool.and_eq_true] at due
    exact Station.atMoment_driving h due.1.1.1 fun _ driving hx => Station.sendReport_countsSound hx driving readBack
  · exact h

/-- The end of an own frame: a third clash silences at once (R50). -/
theorem Station.endFrame_countsSound {s : Station} (h : s.countsSound) (driving : isDriving s.member.state = true)
    (frame : BitVec 247) (report : Report) (mismatch : Option Nat) : (s.endFrame frame report mismatch).countsSound := by
  obtain ⟨pos, stuck, clash, rest⟩ := h.inRange.bus
  have counted : (s.bus.endOwnSlot s.number frame report mismatch).countsSound := by
    refine ⟨pos, stuck, ?_, rest⟩
    unfold BusUnit.endOwnSlot
    dsimp only
    split
    · exact Nat.zero_le _
    · exact succSat_le _ _
  have ended : ∀ c : ConditionUnit, ({ s with bus := s.bus.endOwnSlot s.number frame report mismatch, cond := c } :
      Station).clashSilence.countsSound := fun c => by
    refine Station.clashSilence_countsSound (fun notDue => ?_) counted h.inRange.member
    refine Station.InRange.sound ⟨counted, h.inRange.member, fun _ => ?_, fun listen => ?_, fun quiet => ?_, fun held => ?_⟩
      h.notDue.1 h.notDue.2
    · simpa [Station.clashSilenceDue, driving] using notDue
    · have listen : s.member.state = .listen := listen
      simp [listen, isDriving] at driving
    · have quiet : isDriving s.member.state = false := quiet
      simp [driving] at quiet
    · have held : s.bus.cutBit = true := held
      simp [h.inRange.released driving] at held
  unfold Station.endFrame
  dsimp only
  split
  · exact ended _
  · exact ended s.cond

/-- An own slot begun, so the station drives. -/
theorem Station.InRange.driving_of_sending {s : Station} (h : s.InRange) (begun : s.bus.round.ownSlot ≠ .notBegun) :
    isDriving s.member.state = true := by
  by_contra quiet
  exact begun (h.still (by simpa using quiet)).2.2

theorem Station.ownSlotEnd_countsSound {s : Station} (h : s.countsSound) : s.ownSlotEnd.countsSound := by
  unfold Station.ownSlotEnd
  split
  · next slot =>
    refine Station.atMoment_driving h (h.inRange.driving_of_sending (by simp [slot])) fun x driving hx => ?_
    split
    · exact (Station.cutFrame_inRange hx.inRange).sound hx.notDue.1 hx.notDue.2
    · exact Station.endFrame_countsSound hx driving _ _ _
  · exact h
  · exact h

theorem Station.slotEnd_countsSound {s : Station} (h : s.countsSound) (k : StationNo) (sampled : BitVec 247) :
    (s.slotEnd k sampled).countsSound := by
  unfold Station.slotEnd
  split
  · exact Station.atMoment_countsSound h fun x hx => hx.setBus hx.inRange.bus rfl hx.inRange.still fun held => ⟨held, rfl⟩
  · exact h

theorem MembershipUnit.takeMatch_sameCounts (m : MembershipUnit) (result : MatchResult) :
    m.SameCounts (m.takeMatch result) := by
  cases result with
  | noState => exact ⟨rfl, rfl, rfl, rfl, rfl, rfl, rfl, fun _ => Nat.zero_le _⟩
  | equal => exact ⟨rfl, rfl, rfl, rfl, rfl, rfl, rfl, fun _ => succSat_le _ _⟩
  | differ => exact ⟨rfl, rfl, rfl, rfl, rfl, rfl, rfl, fun _ => Nat.zero_le _⟩
  | noneHeard => exact ⟨rfl, rfl, rfl, rfl, rfl, rfl, rfl, fun _ => Nat.zero_le _⟩

theorem Station.judgeDigest_countsSound {s : Station} (h : s.countsSound) : s.judgeDigest.countsSound := by
  unfold Station.judgeDigest
  split
  · exact (h.judged (t := { s with member := { s.member with verdict := s.takeVerdict } })
      ⟨rfl, rfl, rfl, rfl, rfl, rfl, rfl, id⟩ rfl rfl).congr (by simp) (by simp) (by simp)
  · exact h

theorem Station.judgeMatch_countsSound {s : Station} (h : s.countsSound) : s.judgeMatch.countsSound := by
  unfold Station.judgeMatch
  split
  · exact h.judged (MembershipUnit.takeMatch_sameCounts _ _) rfl rfl
  · exact h

theorem Station.closeSection_countsSound {s : Station} (h : s.countsSound) : s.closeSection.countsSound :=
  h.setBus h.inRange.bus rfl h.inRange.still fun held => ⟨held, rfl⟩

theorem Station.handOn_countsSound {s : Station} (h : s.countsSound) : s.handOn.countsSound := by
  have table : s.peersSection.countsSound := h.congr (by simp) (by simp) (by simp)
  have judged := Station.judgeMatch_countsSound (Station.judgeDigest_countsSound table)
  have kept : s.peersSection.judgeDigest.judgeMatch.keepEvidence.countsSound := judged.congr (by simp) (by simp) (by simp)
  exact (Station.closeSection_countsSound kept).congr (by simp [Station.handOn]) (by simp [Station.handOn])
    (by simp [Station.handOn])

theorem Station.handNothing_countsSound {s : Station} (h : s.countsSound) : s.handNothing.countsSound := by
  obtain ⟨loss, join⟩ := (Station.handNothing_sameCounts s).due_eq rfl
  exact (Station.handNothing_inRange h.inRange).sound (loss.trans h.notDue.1) (join.trans h.notDue.2)

theorem Station.endSection_countsSound {s : Station} (h : s.countsSound) : s.endSection.countsSound := by
  have ended : ∀ x : Station, x.countsSound →
      ({ x with bus := { x.bus with round := { x.bus.round with sectionDone := true } } } : Station).countsSound := fun x hx =>
    hx.setBus hx.inRange.bus rfl hx.inRange.still fun held => ⟨held, rfl⟩
  unfold Station.endSection
  dsimp only
  split
  · exact ended _ (Station.handOn_countsSound h)
  · exact ended _ (Station.handNothing_countsSound h)

theorem Station.reportSectionEnd_countsSound {s : Station} (h : s.countsSound) : s.reportSectionEnd.countsSound := by
  unfold Station.reportSectionEnd
  split
  · exact Station.atMoment_countsSound h fun _ hx => Station.endSection_countsSound hx
  · exact h

/-! ### The apply point -/

theorem Station.engineApply_countsSound {s : Station} (h : s.countsSound) : s.engineApply.countsSound := by
  have member : s.member.SameCounts s.engineApply.member := by
    rw [show s.engineApply.member = s.formDemand.runOrSuspend.member by simp [Station.engineApply]]
    unfold Station.runOrSuspend Station.dropAdopted
    repeat' split
    · rw [Station.restAuthority_member]
      exact ⟨by simp, by simp, by simp, by simp, by simp, by simp, by simp, by simp⟩
    · simpa using MembershipUnit.SameCounts.refl _
    · simpa using MembershipUnit.SameCounts.refl _
  have bus : ({ s with bus := s.engineApply.bus } : Station).countsSound := by
    rw [Station.engineApply_bus]
    exact h.setBus h.inRange.bus rfl h.inRange.still fun held => ⟨held, rfl⟩
  exact bus.judged member rfl (by simp)

theorem Station.applyWork_countsSound {s : Station} (h : s.countsSound) : s.applyWork.countsSound := by
  have applied := Station.engineApply_countsSound h
  have done : ({ s.engineApply with
      bus := { s.engineApply.bus with round := { s.engineApply.bus.round with applied := true } } } : Station).countsSound :=
    applied.setBus applied.inRange.bus rfl applied.inRange.still fun held => ⟨held, rfl⟩
  exact done.congr (by simp [Station.applyWork]) (by simp [Station.applyWork]) (by simp [Station.applyWork])

theorem Station.applyPoint_countsSound {s : Station} (h : s.countsSound) (parkReq : Bool) :
    (s.applyPoint parkReq).countsSound := by
  unfold Station.applyPoint
  split
  · exact Station.atMoment_countsSound h fun _ hx => Station.applyWork_countsSound (hx.congr rfl rfl rfl)
  · exact h

/-! ### LOAD, the SILENT hold and the step (R61, R76) -/

theorem Station.enterListen_countsSound_uncut {s : Station} (member : s.member.countsSound) : s.enterListen.countsSound := by
  have listen := Station.enterListen_countsSound member.2.1 member.2.2.1 false
  have bus : s.enterListen.bus = { s.enterListen.bus with cutBit := false } := by rw [Station.enterListen_bus]; rfl
  generalize s.enterListen = x at listen bus
  exact listen.congr bus rfl rfl

theorem Station.silentHoldEnd_countsSound {s : Station} (h : s.countsSound) : s.silentHoldEnd.countsSound := by
  have passed : s.passHold.countsSound := by
    unfold Station.passHold
    split
    · exact Station.samplePins_countsSound h
    · exact h
  unfold Station.silentHoldEnd
  split
  · exact Station.enterListen_countsSound_uncut passed.inRange.member
  · exact h

/-- A station as its image is put into effect, or not: nothing counted and nothing due (R61). -/
theorem Station.countsSound_fresh {s : Station} (bus : s.bus = BusUnit.reset)
    (member : s.member = { MembershipUnit.reset with state := s.member.state })
    (still : isDriving s.member.state = false) : s.countsSound := by
  have ranged : s.InRange := by
    refine ⟨?_, ?_, fun driving => ?_, ?_, ?_, ?_⟩
    · rw [bus]; exact BusUnit.reset_countsSound
    · rw [member]; exact MembershipUnit.countsSound.fresh (Nat.zero_le _) (Nat.zero_le _) ⟨rfl, rfl, rfl, rfl, rfl⟩
    · simp [still] at driving
    · rw [bus]; exact fun _ => rfl
    · rw [bus]; exact fun _ => ⟨rfl, rfl, rfl⟩
    · rw [bus]; exact fun held => by cases held
  by_cases listen : s.member.state = .listen
  · exact ranged.sound_of_listen listen (by rw [member]; rfl)
  · exact ranged.sound_of_still still listen

theorem Station.endLoad_countsSound (s : Station) : s.endLoad.countsSound := by
  have told : ∀ x : Station, x.countsSound → x.tellSvc.countsSound := fun x hx => by
    unfold Station.tellSvc
    split
    · exact hx
    · exact hx.congr rfl rfl rfl
  unfold Station.endLoad
  split
  · refine told _ (Station.countsSound_fresh rfl rfl ?_)
    simp only [Station.putIntoEffect, stateAfterLoad]
    split <;> rfl
  · exact Station.countsSound_fresh rfl rfl rfl

/-- The loader's work of LOAD leaves the counts. -/
theorem Station.countsSound.loading {s : Station} (h : s.countsSound) (due : Bool) (l : Loader) :
    (if due then { s with loader := l } else s : Station).countsSound := by
  split
  · exact h.congr rfl rfl rfl
  · exact h

/-- One bit time of the timer releases a cut bit, and bounds the age of a mark (R3, R4). -/
theorem Station.tickPosition_countsSound {s : Station} (h : s.countsSound) :
    s.tickPosition.countsSound ∧ s.tickPosition.bus.cutBit = false
      ∧ ∀ m ∈ s.tickPosition.bus.mark, m.age ≤ Config.positionMax := by
  unfold Station.tickPosition
  split
  · refine ⟨Station.advance_countsSound h _, by simp, fun m hm => ?_⟩
    have later : ∃ before ∈ s.bus.mark, MarkDrive.later (s.bus.position + 1 - s.bus.position) before = m := by
      rcases s.advance_cases (s.bus.position + 1) with same | lost
      · exact Option.mem_map.mp (by rw [same] at hm; exact hm)
      · exact Option.mem_map.mp (by rw [lost] at hm; exact hm)
    obtain ⟨before, -, rfl⟩ := later
    exact Nat.min_le_left _ _
  · next stopped =>
    have quiet : isDriving s.member.state = false := by
      by_contra driving
      exact stopped (by simp [timerRuns, show isDriving s.member.state = true by simpa using driving])
    refine ⟨h.setBus h.inRange.bus rfl h.inRange.still (fun held => by cases held), rfl, fun m hm => ?_⟩
    have none := (h.inRange.still quiet).1
    simp [BusUnit.releaseBit, none] at hm

theorem Station.tickHold_countsSound {s : Station} (h : s.countsSound) (released : s.bus.cutBit = false) :
    s.tickHold.countsSound := by
  unfold Station.tickHold
  split
  · next silent =>
    obtain ⟨b, ⟨good, silencings, losses, join, matched, periods, -⟩, clash, listen, still, -⟩ := h.inRange
    exact Station.InRange.sound
      ⟨b, ⟨good, silencings, losses, join, matched, periods, succSat_le _ _⟩, clash, listen, still,
        fun held => by simp [released] at held⟩ h.notDue.1 h.notDue.2
  · exact h

theorem Station.tick_countsSound {s : Station} (h : s.countsSound) : s.tick.countsSound := by
  obtain ⟨ticked, released, age⟩ := Station.tickPosition_countsSound (Station.samplePins_countsSound h)
  have held := Station.tickHold_countsSound ticked released
  have scanned : s.samplePins.tickPosition.tickHold.tickScan.countsSound := held.congr rfl rfl rfl
  refine Station.takeDue_preserves Station.countsSound (fun _ => Station.takeImage_countsSound)
    (fun _ parkReq hx => Station.applyPoint_countsSound hx parkReq) (fun _ => Station.ownMark_countsSound)
    (fun _ => Station.coldStart_countsSound) (fun _ => Station.silentHoldEnd_countsSound) _
    (Station.overdueMark_countsSound scanned ?_)
  rw [show s.samplePins.tickPosition.tickHold.tickScan.bus = s.samplePins.tickPosition.bus by simp [Station.tickScan]]
  exact age

theorem effect_countsSound (c : Instr) (x : Station) (h : x.countsSound) : (effect c x).countsSound := by
  cases c with
  | reset => exact Station.countsSound_fresh rfl rfl rfl
  | resetRelease straps memory idleHigh => exact h.loading _ _
  | svcFallingEdge us => exact h.loading _ _
  | imageReadDone => exact h.loading _ _
  | loadEnd =>
    unfold effect Station.loadEnd
    dsimp only
    split
    · exact x.endLoad_countsSound
    · exact h
  | syncMark => exact Station.syncMark_countsSound h
  | ownSyncMarkDrive => exact Station.ownMark_countsSound h
  | markNotReadBack sample => exact Station.markNotReadBack_countsSound h sample
  | syncWindowExpiry => exact Station.windowExpiry_countsSound h
  | coldStartTimeout => exact Station.coldStart_countsSound h
  | joinEntry => exact Station.joinEntry_countsSound h.inRange h.notDue.1 fun due => by simp [h.notDue.2] at due
  | tallyImage => exact Station.takeImage_countsSound h
  | tallyHandover wire => exact Station.tallyHandover_countsSound h wire
  | ownReportSend readBack => exact Station.ownReport_countsSound h readBack
  | ownSlotEnd => exact Station.ownSlotEnd_countsSound h
  | clashSilence => exact Station.clashSilence_countsSound (fun _ => h) h.inRange.bus h.inRange.member
  | slotEnd k sampled => exact Station.slotEnd_countsSound h k sampled
  | reportSectionEnd => exact Station.reportSectionEnd_countsSound h
  | stuckBus first last => exact Station.stuckSpan_countsSound h first last
  | applyPoint parkReq => exact Station.applyPoint_countsSound h parkReq
  | disableAsserted seen => exact Station.changeDisable_countsSound h true seen
  | disableReleased seen => exact Station.changeDisable_countsSound h false seen
  | drvFltAsserted seen => exact Station.changeDrvFlt_countsSound h true seen
  | drvFltReleased seen => exact Station.changeDrvFlt_countsSound h false seen
  | busLoss => exact Station.busLoss_countsSound h.inRange h.notDue.2
  | silentHoldEnd => exact Station.silentHoldEnd_countsSound h
  | recessiveToDominantEdge position => exact Station.edge_countsSound h position
  | candidateMarkDropped position => exact Station.dropCandidate_countsSound h position
  | conversionEnd => unfold effect; dsimp only; split <;> exact h.congr (by simp) (by simp) (by simp)
  | scanEnd => unfold effect; dsimp only; split <;> exact h.congr (by simp) (by simp) (by simp)
  | answerTimeout | prepareTimeout | splitView | peerLost | suspectRecovery | settleTimeout | demandLost | lockRampEnd
  | releaseHoldEnd | calWaitTimeout | pulseEdge | conditionExpiry =>
    exact h.congr (by simp [effect]) (by simp [effect]) (by simp [effect])

/-- Settles O58: each effect and the bit time keep the counts in their ranges and take what they make due. -/
theorem countsStaySound : Obligations.CountsStaySound :=
  step_keeps (P := Station.countsSound) (fun _ h => Station.tick_countsSound h) effect_countsSound

/-- Settles O54: each predicate at its reset values. -/
theorem resetIsSound : Obligations.ResetIsSound := by
  refine ⟨?_, Station.authoritySound_atRest rfl entriesFit_none, Station.driveSound_of_atRest Drive.reset_atRest,
    Station.countsSound_fresh rfl rfl rfl, Station.peersSound_reset rfl rfl, Station.engineSound_fresh rfl rfl⟩
  exact ConditionUnit.reset_sound

end Sys2Proof.Machine
end

