-- ==== Sys2Proof/Proofs/LoadSteps.lean ====
section
/-! The commands of LOAD (R61, R185 to R187, R192): the read of the image, the SVC count, and the two ends of LOAD. -/

namespace Sys2Proof.Machine

/-! ### The read (R185) -/

/-- As far as the memory goes, the bytes read are the memory's. -/
theorem bytesRead_eq_take {memory : List Byte} {n : Nat} (h : n ≤ memory.length) (idleHigh : Bool) :
    bytesRead memory idleHigh n = memory.take n := List.take_append_of_le_length h

/-- The length field stands in the header. -/
theorem imageLength_take (memory : List Byte) : imageLength (memory.take 8) = imageLength memory := by
  simp [imageLength, byteAt, wordAt, List.getD_eq_getElem?_getD]

theorem lengthFits_iff (b : List Byte) : lengthFits b = true ↔ 16 ≤ imageLength b ∧ imageLength b ≤ 1024 := by
  simp [lengthFits]

/-- From a memory that holds them, the read takes the bytes of the image, or the header alone. -/
theorem imageRead_eq_take {memory : List Byte} {bytes : Nat} (header : 8 ≤ memory.length)
    (length : bytes = (if 16 ≤ imageLength memory ∧ imageLength memory ≤ 1024 then imageLength memory else 8))
    (held : bytes ≤ memory.length) (idleHigh : Bool) : imageRead memory idleHigh = memory.take bytes := by
  unfold imageRead
  dsimp only
  rw [bytesRead_eq_take header, imageLength_take]
  by_cases fits : 16 ≤ imageLength memory ∧ imageLength memory ≤ 1024
  · rw [if_pos fits] at length
    rw [if_pos ((lengthFits_iff _).mpr (by rwa [imageLength_take])), bytesRead_eq_take (length ▸ held), length]
  · rw [if_neg fits] at length
    rw [if_neg fun h => fits (by rw [← imageLength_take]; exact (lengthFits_iff _).mp h), length]

/-- Settles O5: the release by the bytes it reads, the SVC edge by its three guards. -/
theorem loadReadsTheImage : Obligations.LoadReadsTheImage := by
  refine ⟨fun x q straps memory idleHigh bytes load held header length fits => ?_, fun x q us => ⟨?_, ?_, ?_⟩⟩
  · rw [exec_eq]
    simp [effect, Station.release, load, held, Loader.release, imageRead_eq_take header length fits, readCommand, Loader.reset]
  · intro load released window
    rw [exec_eq]
    simp [effect, Station.svcEdge, load, released, window, Config.svcWindowUs, succSat]
  · intro late
    rw [exec_eq]
    simp [effect, Station.svcEdge, Nat.not_le.mpr late, Config.svcWindowUs]
  · intro later
    rw [exec_eq]
    simp [effect, Station.svcEdge, later]

/-! ### The end of LOAD (R61, R186, R187, R192) -/

theorem exec_loadEnd {x : Station} (q : List Instr) (load : x.member.state = .load) (judged : x.loader.verdict.isSome = true) :
    exec .loadEnd ⟨x, q⟩ = .next ⟨x.endLoad, q⟩ := by
  rw [exec_eq]
  simp [effect, Station.loadEnd, load, judged]

/-- SVC_COUNT is told to the Condition Unit alone. -/
theorem Station.tellSvc_eq (s : Station) :
    s.tellSvc = { s with
      cond := if s.loader.svcCount = 0 ∨ s.loader.svcCount = 3 then s.cond
        else raiseEvent s.cond { code := .svcCount, source := min 15 s.loader.svcCount } 0 } := by
  unfold Station.tellSvc
  split <;> rfl

/-- Settles O7: the image put into effect, and SVC_COUNT told or not. -/
theorem goodImageTakesEffect : Obligations.GoodImageTakesEffect := by
  intro x q p load judged good list speed set ring
  have ended : x.endLoad = (x.putIntoEffect p).tellSvc := by
    unfold Station.endLoad
    rw [good]
  refine ⟨x.endLoad, exec_loadEnd q load judged, ?_⟩
  rw [ended, Station.tellSvc_eq]
  refine ⟨rfl, rfl, rfl, ?_, rfl, rfl, rfl, rfl, fun k => Eight.get_ofFn _ k, ?_, rfl⟩
  · by_cases three : x.loader.svcCount = 3 <;>
      simp [Station.putIntoEffect, Loader.selectOption, stateAfterLoad, three]
  · have first : ∀ own : StationSection, ownSpeedOf (firstSpeed own.ps0) (firstSpeed own.ps1) =
        if own.ps0.mapped || own.ps1.mapped then some 0 else none := by
      intro own
      cases h0 : own.ps0.mapped <;> cases h1 : own.ps1.mapped <;> simp [firstSpeed, h0, h1, ownSpeedOf]
    simp only [Station.putIntoEffect, measurementOf, firstSet, first, MeasSet.reset]
    rfl

/-- Settles O8: a failed image leaves every part at reset, and a part at reset drives nothing. -/
theorem failedImageIsConfigFault : Obligations.FailedImageIsConfigFault := by
  intro x q load judged failed
  refine ⟨_, exec_loadEnd q load judged, ?_⟩
  have ended : x.endLoad = { Station.reset with
      pins := x.pins, loader := { x.loader with quietOption := decide (x.loader.svcCount = 3) }
      member := { MembershipUnit.reset with state := .configFault } } := by
    unfold Station.endLoad
    rw [failed]
    rfl
  rw [ended]
  exact ⟨rfl, rfl, rfl, rfl, rfl, fun _ => rfl⟩

end Sys2Proof.Machine
end

