-- ==== Sys2Proof/Proofs/BitTimes.lean ====
section
/-! The bit time, and the moments at which the round timer loses or takes a state (R4, R9, R10, R63). -/

namespace Sys2Proof.Machine

/-! ### Work that is not due -/

theorem Station.overdueMark_of_not_driving {s : Station} (h : isDriving s.member.state = false) : s.overdueMark = s := by
  unfold Station.overdueMark
  split
  · simp [h]
  · rfl

theorem Station.takeImage_of_not_driving {s : Station} (h : isDriving s.member.state = false) : s.takeImage = s := by
  simp [Station.takeImage, Station.imageDue, h]

theorem Station.ownMark_of_not_driving {s : Station} (h : isDriving s.member.state = false) : s.ownMark = s := by
  simp [Station.ownMark, Station.ownMarkDue, h]

/-- A station that is not in LISTEN is not there after the passing of time. -/
theorem Station.reach_listen_iff (s : Station) (p : Nat) : (s.reach p).member.state = .listen ↔ s.member.state = .listen := by
  rw [Station.reach_state]
  exact Station.sampleUntil_state_eq (by decide) (by decide) s p

theorem Station.coldStart_of_not_listen {s : Station} (h : s.member.state ≠ .listen) : s.coldStart = s := by
  unfold Station.coldStart
  dsimp only
  refine if_neg fun due => h ?_
  simp only [Station.coldStartDue, Bool.and_eq_true, decide_eq_true_eq] at due
  exact (Station.reach_listen_iff s _).mp due.1.1

theorem Station.silentHoldEnd_of_not_silent {s : Station} (h : s.member.state ≠ .silent) : s.silentHoldEnd = s := if_neg h

theorem Station.applyPoint_of_not_takesPart {s : Station} (h : takesPart s.member.state = false) (parkReq : Bool) :
    s.applyPoint parkReq = s := by
  simp [Station.applyPoint, Station.applyDue, h]

/-! ### The bit time of a station whose timer does not run, and of one in QUIET (R3, R4) -/

/-- Nothing falls due where the timer does not run and the SILENT hold goes on. -/
theorem Station.takeDue_of_stopped {s : Station} (stopped : timerRuns s.member.state = false)
    (hold : s.member.silentHold < Config.silentHoldTime) : s.takeDue = s := by
  have quiet : isDriving s.member.state = false := by
    simp only [timerRuns, Bool.or_eq_false_iff] at stopped
    exact stopped.1
  have apart : takesPart s.member.state = false := by
    revert stopped
    cases s.member.state <;> decide
  have notListen : s.member.state ≠ .listen := fun listen => by simp [listen, timerRuns, isFollowing] at stopped
  unfold Station.takeDue
  simp only [Station.overdueMark_of_not_driving quiet, Station.takeImage_of_not_driving quiet,
    Station.applyPoint_of_not_takesPart apart, Station.ownMark_of_not_driving quiet,
    Station.coldStart_of_not_listen notListen, ite_self, if_neg (Nat.not_le.mpr hold)]

@[simp] theorem Station.applyWork_position (s : Station) : s.applyWork.bus.position = s.bus.position := by
  simp [Station.applyWork]

/-- The work of the apply point stays at its position. -/
theorem Station.applyPoint_position {s : Station} (counted : s.bus.position ≤ Config.positionMax)
    (here : s.bus.position = s.params.own.applyAt) (parkReq : Bool) : (s.applyPoint parkReq).bus.position = s.bus.position := by
  unfold Station.applyPoint Station.atMoment
  dsimp only
  repeat' split
  · rw [Station.applyWork_position]
    change (s.reach s.params.own.applyAt).bus.position = _
    rw [Station.reach_position]
    omega
  · rfl
  · rfl

theorem Station.applyPoint_state (s : Station) (parkReq : Bool) (x : StationState) (hm : x ≠ .member) (hh : x ≠ .halted) :
    (s.applyPoint parkReq).member.state = x ↔ s.member.state = x := by
  unfold Station.applyPoint Station.atMoment
  dsimp only
  repeat' split
  · rw [Station.applyWork_state]
    change (s.reach s.params.own.applyAt).member.state = x ↔ _
    rw [Station.reach_state]
    exact Station.sampleUntil_state_eq hm hh s _
  · rfl
  · rfl

/-- What falls due in QUIET leaves the position. -/
theorem Station.takeDue_position_of_quiet {s : Station} (quiet : s.member.state = .quiet)
    (counted : s.bus.position ≤ Config.positionMax) : s.takeDue.bus.position = s.bus.position := by
  have still : ∀ x : Station, x.member.state = .quiet → x.overdueMark = x ∧ x.takeImage = x ∧ x.ownMark = x
      ∧ x.coldStart = x ∧ x.silentHoldEnd = x := fun x hx => by
    have driving : isDriving x.member.state = false := by rw [hx]; rfl
    exact ⟨Station.overdueMark_of_not_driving driving, Station.takeImage_of_not_driving driving,
      Station.ownMark_of_not_driving driving, Station.coldStart_of_not_listen (by simp [hx]),
      Station.silentHoldEnd_of_not_silent (by simp [hx])⟩
  obtain ⟨overdue, image, -⟩ := still s quiet
  unfold Station.takeDue
  simp only [overdue, image, ite_self]
  by_cases here : s.bus.position = s.params.own.applyAt
  · obtain ⟨-, -, mark, cold, hold⟩ := still _ ((s.applyPoint_state s.pins.parkReq .quiet (by decide) (by decide)).mpr quiet)
    simp only [if_pos here, mark, cold, hold, ite_self]
    exact Station.applyPoint_position counted here _
  · obtain ⟨-, -, mark, cold, hold⟩ := still s quiet
    simp only [if_neg here, mark, cold, hold, ite_self]

/-- A test that does not tell MEMBER from HALTED stands over a sample point. -/
theorem Station.samplePins_test (test : StationState → Bool) (h : test .member = test .halted) (s : Station) :
    test s.samplePins.member.state = test s.member.state := by
  have next := Station.sampleUntil_test test h s (s.bus.position + 1)
  rwa [Station.sampleUntil, if_pos (Nat.lt_succ_self _)] at next

@[simp] theorem Station.samplePins_silentHold (s : Station) : s.samplePins.member.silentHold = s.member.silentHold := by
  unfold Station.samplePins Station.seeDisable
  dsimp only
  (repeat' split) <;> simp

theorem Station.tickHold_silentHold_le (s : Station) : s.tickHold.member.silentHold ≤ s.member.silentHold + 1 := by
  unfold Station.tickHold
  split
  · exact Nat.min_le_right _ _
  · exact Nat.le_succ _

/-- Settles O2: what each part of the bit time leaves of the Bus Unit. -/
theorem emptyQueueStepIsOneBitTime : Obligations.EmptyQueueStepIsOneBitTime := by
  intro x
  refine ⟨rfl, fun stopped hold => ?_, fun quiet searching => ?_⟩
  · have sampled : timerRuns x.samplePins.member.state = false :=
      (Station.samplePins_test timerRuns rfl x).trans stopped
    have position : x.samplePins.tickPosition = { x.samplePins with bus := x.bus.releaseBit } := by
      rw [Station.tickPosition, sampled]
      simp
    have held : x.samplePins.tickPosition.tickHold.member.silentHold < Config.silentHoldTime := by
      refine lt_of_le_of_lt (Station.tickHold_silentHold_le _) ?_
      rw [position]
      simpa [Config.silentHoldTime] using hold
    have due : x.tick = x.samplePins.tickPosition.tickHold.tickScan :=
      Station.takeDue_of_stopped (by simpa using sampled) held
    rw [due]
    simp [Station.tickScan, position, BusUnit.releaseBit]
  · have sampled : x.samplePins.member.state = .quiet := of_decide_eq_true
      ((Station.samplePins_test (fun y => decide (y = .quiet)) rfl x).trans (decide_eq_true quiet))
    have position : x.samplePins.tickPosition.tickHold.tickScan.bus.position = min Config.positionMax (x.bus.position + 1) := by
      simp only [Station.tickScan, Station.tickHold_frame, Station.tickPosition, sampled]
      rw [if_pos (by decide), Station.advance_position]
      simp
    have counted : x.samplePins.tickPosition.tickHold.tickScan.bus.position ≤ Config.positionMax :=
      position ▸ Nat.min_le_left _ _
    unfold Station.tick
    rw [Station.takeDue_position_of_quiet (by simpa using sampled) counted, position]
    rfl

end Sys2Proof.Machine
end

