-- ==== Sys2Proof/Proofs/MarkSteps.lean ====
section
/-! The own mark, the cold start, the edges and the window (R5, R7, R9, R10, R22, R63, R74). -/

namespace Sys2Proof.Machine

/-! ### The passing of time -/

/-- A sample point moves the station state and the level of DISABLE, and nothing else of the Membership Unit (R72). -/
theorem Station.samplePins_member (s : Station) :
    s.samplePins.member =
      { s.member with state := s.samplePins.member.state, disableSeen := s.samplePins.member.disableSeen } := by
  unfold Station.samplePins Station.seeDisable
  dsimp only
  (repeat' split) <;> simp

theorem Station.sampleUntil_member (s : Station) (p : Nat) :
    (s.sampleUntil p).member =
      { s.member with
        state := (s.sampleUntil p).member.state, disableSeen := (s.sampleUntil p).member.disableSeen } := by
  unfold Station.sampleUntil
  split
  · exact s.samplePins_member
  · rfl

/-- The returns and the loss periods stand over the passing of time. -/
theorem Station.reach_counts (s : Station) (p : Nat) :
    (s.reach p).member.silencings = s.member.silencings ∧ (s.reach p).member.losses = s.member.losses
      ∧ (s.reach p).member.lossPeriods = s.member.lossPeriods := by
  have sampled := s.sampleUntil_member p
  have kept : (s.sampleUntil p).member.silencings = s.member.silencings ∧ (s.sampleUntil p).member.losses = s.member.losses
      ∧ (s.sampleUntil p).member.lossPeriods = s.member.lossPeriods := by rw [sampled]; exact ⟨rfl, rfl, rfl⟩
  unfold Station.reach
  rcases (s.sampleUntil p).advance_member p with same | lost
  · rw [same]; exact kept
  · rw [lost]; exact kept

@[simp] theorem BusUnit.later_markPending (b : BusUnit) (p : Nat) : (b.later p).markPending = b.markPending := by
  unfold BusUnit.markPending BusUnit.later
  cases b.mark <;> rfl

/-- A candidate past its fourth bit time is gone (R5; log 51). -/
theorem BusUnit.later_candidate_eq_none {b : BusUnit} {p : Nat}
    (late : ∀ c, b.candidate = some c → 4 < c.age + (p - b.position)) : (b.later p).candidate = none := by
  unfold BusUnit.later
  cases candidate : b.candidate with
  | none => rfl
  | some c => exact if_neg (Nat.not_le.mpr (late c candidate))

/-- A candidate within its fourth bit time is open still. -/
theorem BusUnit.later_candidate_eq_some {b : BusUnit} {p : Nat} {c : Candidate} (candidate : b.candidate = some c)
    (open_ : c.age + (p - b.position) ≤ 4) :
    (b.later p).candidate = some { c with age := c.age + (p - b.position) } := by
  unfold BusUnit.later
  rw [candidate]
  exact if_pos open_

/-- A following station that is SYNCHRONISED loses the marks past its window (R9). -/
theorem Station.advance_lost {s : Station} {p : Nat} (following : isFollowing s.member.state = true)
    (synchronised : s.bus.sync = .synchronised) (past : 2520 < max s.bus.position p) :
    s.advance p = ({ s with bus := s.bus.later p } : Station).loseMarks := by
  have late : Config.windowLast < min Config.positionMax (max s.bus.position p) := by
    unfold Config.windowLast Config.positionMax
    omega
  unfold Station.advance
  refine if_pos ?_
  simpa [Station.windowPassed, following, synchronised] using late

/-- The same with the pins read on the way (R63, R72). -/
theorem Station.reach_lost {s : Station} {p : Nat} (following : isFollowing s.member.state = true)
    (synchronised : s.bus.sync = .synchronised) (past : 2520 < p) :
    s.reach p =
      { s.sampleUntil p with
        bus := (s.bus.later p).loseMarks, member := { (s.sampleUntil p).member with goodRounds := 0 } } := by
  rw [Station.reach, Station.advance_lost (by simpa using following) (by simpa using synchronised) (by simp; omega)]
  simp [Station.loseMarks]

/-- At a SEARCHING station time moves the timer and reads the pins, and nothing else. -/
theorem Station.reach_searching {s : Station} (searching : s.bus.sync = .searching) (p : Nat) :
    s.reach p = { s.sampleUntil p with bus := s.bus.later p } := by
  unfold Station.reach Station.advance
  rw [if_neg]
  · simp
  · simp [Station.windowPassed, searching]

/-- What the passing of time leaves of the round: it stands, or the marks are lost. -/
theorem Station.reach_round_cases (s : Station) (p : Nat) :
    (s.reach p).bus = s.bus.later p ∨ (s.reach p).bus = (s.bus.later p).loseMarks := by
  unfold Station.reach
  rcases (s.sampleUntil p).advance_cases p with h | h <;> rw [h]
  · exact .inl (by simp)
  · exact .inr (by simp [Station.loseMarks])

/-! ### The window (R9) -/

theorem Station.coldStart_of_searching {s : Station} (searching : s.bus.sync = .searching) :
    s.coldStart.bus.sync = .searching ∧ s.coldStart.bus.round = s.bus.round
      ∧ s.coldStart.bus.pendingRecord = s.bus.pendingRecord := by
  unfold Station.coldStart
  dsimp only
  rw [Station.reach_searching searching]
  split
  · exact ⟨by simp [BusUnit.driveMark, searching], by simp [BusUnit.driveMark], by simp [BusUnit.driveMark]⟩
  · exact ⟨searching, rfl, rfl⟩

/-- What falls due at a following station that is SEARCHING without a round leaves it so. -/
theorem Station.takeDue_of_searching {s : Station} (following : isFollowing s.member.state = true)
    (searching : s.bus.sync = .searching) (round : s.bus.round = RoundState.none) :
    s.takeDue.bus.sync = .searching ∧ s.takeDue.bus.round = RoundState.none
      ∧ s.takeDue.bus.pendingRecord = s.bus.pendingRecord := by
  have quiet : isDriving s.member.state = false := by
    revert following
    cases s.member.state <;> decide
  have apply : ∀ parkReq, s.applyPoint parkReq = s := fun parkReq => by
    simp [Station.applyPoint, Station.applyDue, round, RoundState.none]
  have notSilent : s.member.state ≠ .silent := fun silent => by simp [silent, isFollowing] at following
  unfold Station.takeDue
  simp only [Station.overdueMark_of_not_driving quiet, Station.takeImage_of_not_driving quiet, apply,
    Station.ownMark_of_not_driving quiet, ite_self]
  have cold : s.coldStart.member.state ≠ .silent := by
    unfold Station.coldStart
    dsimp only
    split
    · simp [Station.enterJoin, MembershipUnit.atJoin]
    · exact notSilent
  by_cases past : coldStartAt s.number ≤ s.bus.position
  · simp only [if_pos past, Station.silentHoldEnd_of_not_silent cold, ite_self]
    obtain ⟨sync, same, record⟩ := Station.coldStart_of_searching searching
    exact ⟨sync, same.trans round, record⟩
  · simp only [if_neg past, Station.silentHoldEnd_of_not_silent notSilent, ite_self]
    exact ⟨searching, round, trivial⟩

/-- The bit time past the window loses the marks (R9). -/
theorem Station.tick_lost {s : Station} (following : isFollowing s.member.state = true)
    (synchronised : s.bus.sync = .synchronised) (late : 2520 ≤ s.bus.position) :
    s.tick.bus.sync = .searching ∧ s.tick.bus.round = RoundState.none ∧ s.tick.bus.pendingRecord = none := by
  have sampled : isFollowing s.samplePins.member.state = true := (Station.samplePins_test isFollowing rfl s).trans following
  have lost : s.samplePins.tickPosition.bus = (s.bus.later (s.bus.position + 1)).loseMarks := by
    rw [Station.tickPosition, if_pos (by simp [timerRuns, sampled]),
      Station.advance_lost sampled (by simpa using synchronised) (by simp; omega)]
    simp [Station.loseMarks]
  unfold Station.tick
  obtain ⟨sync, round, record⟩ := Station.takeDue_of_searching (s := s.samplePins.tickPosition.tickHold.tickScan)
    (by simpa using sampled) (by simp [lost, BusUnit.loseMarks]) (by simp [lost, BusUnit.loseMarks])
  exact ⟨sync, round, record.trans (by simp [lost, BusUnit.loseMarks])⟩

/-- Settles O14: the passing of time past the window, by command, by bit time and within another command. -/
theorem expiredWindowSearches : Obligations.ExpiredWindowSearches := by
  intro x q following synchronised s
  have expired : x.windowExpiry = x.reach 2521 := if_pos (by simp [following, synchronised])
  refine ⟨exec_effect (Q := fun y => _ ∧ _ ∧ _) ?_ q, fun late => ⟨x.tick, rfl, Station.tick_lost following synchronised late⟩,
    fun p past => ?_⟩
  · unfold effect
    dsimp only
    rw [expired, Station.reach_lost following synchronised (by decide)]
    refine ⟨rfl, fun c candidate => ?_, fun none => BusUnit.later_no_candidate none⟩
    change (x.bus.later 2521).candidate = _
    unfold BusUnit.later
    rw [candidate]
    rfl
  · rw [Station.reach_lost following synchronised past]
    exact ⟨rfl, rfl, rfl, rfl, rfl⟩

/-! ### The entry to JOIN (R10, R63 to R65) -/

theorem Station.allowanceSpent_iff (s : Station) :
    s.allowanceSpent = true ↔ s.params.shared.rejoinMax < s.member.silencings + s.member.losses := decide_eq_true_iff

theorem Station.allowanceSpent_eq_false (s : Station) :
    s.allowanceSpent = false ↔ s.member.silencings + s.member.losses ≤ s.params.shared.rejoinMax := by
  simp [Station.allowanceSpent]

theorem Station.reach_allowanceSpent (s : Station) (p : Nat) : (s.reach p).allowanceSpent = s.allowanceSpent := by
  obtain ⟨silencings, losses, -⟩ := s.reach_counts p
  simp only [Station.allowanceSpent, silencings, losses, Station.reach_params]

/-- What an entry to JOIN makes of the station (R65, R113, R141, R143). -/
theorem Station.enterJoin_values (s : Station) :
    s.enterJoin.bus = { s.bus with nextSeq := false } ∧ s.enterJoin.member = s.member.atJoin
      ∧ s.enterJoin.meas.cal.status =
          (if allStations.any fun c => (s.params.own.channels.get c).differential then .waiting else .done)
      ∧ s.enterJoin.engine = s.engine.clearRun ∧ s.enterJoin.auth = Authority.atRest := by
  refine ⟨by simp, by simp [Station.enterJoin], ?_, by simp, by simp [Station.enterJoin, Station.restAuthority_auth]⟩
  simp [Station.enterJoin, Station.startCalibration, Station.hasDifferential, Station.isDifferential]

/-- Settles O11: the entry due after eight good marks, or not with the allowance spent. -/
theorem eighthGoodMarkEntersJoin : Obligations.EighthGoodMarkEntersJoin := by
  intro x q listen good
  refine ⟨fun spent => exec_of_effect ?_ q, fun left => exec_effect (Q := fun y => _ ∧ _) ?_ q⟩
  · have notDue : x.joinEntryDue = false := by simp [Station.joinEntryDue, (Station.allowanceSpent_iff x).mpr spent]
    simp [effect, Station.joinEntry, notDue]
  · have due : x.joinEntryDue = true := by
      simp [Station.joinEntryDue, listen, Config.goodRounds, good, (Station.allowanceSpent_eq_false x).mpr left]
    have entered : effect .joinEntry x = x.enterJoin := by simp [effect, Station.joinEntry, due]
    obtain ⟨bus, member, cal, engine, auth⟩ := x.enterJoin_values
    rw [entered, bus, member, cal, engine, auth]
    exact ⟨rfl, rfl, rfl, rfl, rfl, rfl, rfl, rfl, rfl, rfl, rfl, rfl, by simp, by simp, by simp, by simp, by simp⟩

/-- A station whose own mark is in its first 8 bit times drives TXD dominant (R3, R7). -/
theorem Station.txdDominant_of_mark {s : Station} (driving : isDriving s.member.state = true)
    (mark : s.bus.markDominant = true) (read : BitVec 70) : s.txdDominant read = true := by
  simp [Station.txdDominant, Station.drivesDominant, driving, mark]

/-- The cold start that is due: JOIN, and the own mark at once (R10). -/
theorem Station.coldStart_due {s : Station} (listen : s.member.state = .listen) (left : s.allowanceSpent = false)
    (none : (s.reach (coldStartAt s.number)).bus.candidate = none) :
    s.coldStart =
      { (s.reach (coldStartAt s.number)).enterJoin with
        bus := (s.reach (coldStartAt s.number)).enterJoin.bus.driveMark } := by
  have due : (s.reach (coldStartAt s.number)).coldStartDue = true := by
    simp [Station.coldStartDue, (Station.reach_listen_iff s _).mpr listen, Station.reach_allowanceSpent, left, none,
      -Station.reach_state]
  unfold Station.coldStart
  dsimp only
  rw [if_pos due]

theorem Station.coldStart_not_due {s : Station}
    (notDue : (s.reach (coldStartAt s.number)).coldStartDue = false) : s.coldStart = s := by
  unfold Station.coldStart
  dsimp only
  rw [if_neg (by simp [notDue])]

/-- What the passing of time makes of a candidate is what the timer makes of it. -/
theorem Station.reach_candidate (s : Station) (p : Nat) : (s.reach p).bus.candidate = (s.bus.later p).candidate := by
  rcases s.reach_round_cases p with h | h <;> rw [h]
  rfl

/-- Settles O15: the threshold, at which the cold start is due or not. -/
theorem coldStartEntersJoin : Obligations.ColdStartEntersJoin := by
  intro x q listen threshold t
  have at_threshold : coldStartAt x.number = threshold := rfl
  refine ⟨fun left late before => exec_effect (Q := fun y => _ ∧ _) ?_ q, fun notDue => exec_of_effect ?_ q⟩
  · have none : t.bus.candidate = none := (x.reach_candidate threshold).trans (BusUnit.later_candidate_eq_none late)
    have started : effect .coldStartTimeout x = { t.enterJoin with bus := t.enterJoin.bus.driveMark } :=
      Station.coldStart_due listen ((Station.allowanceSpent_eq_false x).mpr left) none
    obtain ⟨bus, member, cal, engine, auth⟩ := t.enterJoin_values
    have position : t.bus.position = threshold := by
      have small := x.number.isLt
      rw [show t.bus.position = min Config.positionMax (max x.bus.position threshold) from x.reach_position threshold]
      have : threshold = 7500 + 40 * x.number.val := rfl
      unfold Config.positionMax
      omega
    have kept : t.params = x.params ∧ t.peers = x.peers := by simp [t]
    rw [started]
    clear_value t
    refine ⟨by rw [bus]; rfl, by rw [bus]; exact position, by rw [bus]; exact none, by rw [member]; rfl, by rw [member]; rfl,
      by rw [member]; rfl, by rw [engine]; rfl, auth, by simp [kept], by simp [kept], by simp, fun read => ?_⟩
    exact Station.txdDominant_of_mark (by rw [member]; rfl) rfl read
  · refine Station.coldStart_not_due ?_
    rcases notDue with spent | ⟨c, candidate, stays⟩
    · simp [Station.coldStartDue, Station.reach_allowanceSpent, (Station.allowanceSpent_iff x).mpr spent]
    · have kept : (x.reach (coldStartAt x.number)).bus.candidate = some _ :=
        (x.reach_candidate threshold).trans (BusUnit.later_candidate_eq_some candidate stays)
      simp [Station.coldStartDue, kept]

/-! ### The drive start of the own mark (R7, R22, R74) -/

/-- The loss period count once the round that ended is told (R22, R74). -/
def Station.periodsTold (s : Station) : Nat :=
  if s.bus.round.wellFormed then 0
  else if s.bus.round.opening = .noRound then s.member.lossPeriods
  else min 4 (s.member.lossPeriods + 1)

theorem Station.notifyRound_eq {s : Station} (driving : isDriving s.member.state = true) :
    s.notifyRound = { s with member := { s.member with lossPeriods := s.periodsTold } } := by
  unfold Station.notifyRound Station.periodsTold
  by_cases well : s.bus.round.wellFormed = true
  · have opened : s.bus.round.opening ≠ .noRound := fun no => by
      simp [RoundState.wellFormed, RoundState.recognised, no] at well
    simp [driving, well, opened]
  · by_cases opened : s.bus.round.opening = .noRound
    · simp [driving, well, opened]
    · simp [driving, well, opened, succSat, Config.lossPeriods]

/-- The counts that the drive start reads stand over the passing of time of a driving station. -/
theorem Station.reach_periodsTold {s : Station} (driving : isDriving s.member.state = true) (p : Nat) :
    (s.reach p).periodsTold = s.periodsTold := by
  obtain ⟨-, -, periods⟩ := s.reach_counts p
  unfold Station.periodsTold
  rw [periods, Station.reach_driving p driving]
  rfl

theorem Station.startMark_eq {s : Station} (driving : isDriving s.member.state = true) (few : s.periodsTold < 4) :
    s.startMark =
      { s with
        bus := { s.bus with mark := some { age := 0, confirmed := false, faulted := false } }
        member := { s.member with lossPeriods := s.periodsTold } } := by
  unfold Station.startMark Station.loseBusAtDrive
  dsimp only
  rw [Station.notifyRound_eq driving, if_neg]
  · rfl
  · simp only [Station.busLossDue, driving, Config.lossPeriods, Bool.true_and]
    exact fun lost => absurd (of_decide_eq_true lost) (Nat.not_le.mpr few)

theorem offerQueue_overflow_congr {c d : ConditionUnit} (queue : c.queue = d.queue) (overflow : c.overflow = d.overflow)
    (k : CondKey) : (offerQueue c k).overflow = (offerQueue d k).overflow := by
  unfold offerQueue
  rw [queue]
  (repeat' split) <;> simp [overflow]

theorem raiseEvent_overflow (c : ConditionUnit) (k : CondKey) (level : Nat) :
    (raiseEvent c k level).overflow = (offerQueue c k).overflow := by
  unfold raiseEvent
  refine offerQueue_overflow_congr ?_ ?_ k <;> dsimp only <;> split
  · rfl
  · exact enterCond_queue c _
  · rfl
  · rw [enterCond_frame]

theorem foldl_removeCond_queue (keys : List CondKey) :
    ∀ c : ConditionUnit, (keys.foldl removeCond c).queue = c.queue ∧ (keys.foldl removeCond c).overflow = c.overflow := by
  induction keys with
  | nil => exact fun _ => ⟨rfl, rfl⟩
  | cons k rest ih =>
    intro c
    obtain ⟨queue, overflow⟩ := ih (removeCond c k)
    have kept : (removeCond c k).queue = c.queue ∧ (removeCond c k).overflow = c.overflow := by
      rw [removeCond_frame]
      exact ⟨rfl, rfl⟩
    rw [List.foldl_cons]
    exact ⟨queue.trans kept.1, overflow.trans kept.2⟩

theorem Station.enterListen_queue (s : Station) :
    s.enterListen.cond.queue = s.cond.queue ∧ s.enterListen.cond.overflow = s.cond.overflow := by
  have kept := foldl_removeCond_queue listenKeys s.cond
  rw [Station.enterListen_cond]
  generalize listenKeys.foldl removeCond s.cond = c at kept ⊢
  exact kept

theorem Station.enterListen_meas (s : Station) :
    s.enterListen.meas.snapshot = s.meas.snapshot ∧ s.enterListen.meas.stale = s.meas.stale
      ∧ s.enterListen.meas.scan = s.meas.scan := by
  simp [Station.enterListen, Station.clearMeasurement, Station.postList]

/-- What a bus loss leaves of the station, with the bit time of a cut mark or none (R3, R64, R74, R77). -/
structure Station.LostBus (s : Station) (cut : Bool) (y : Station) : Prop where
  bus : y.bus = { s.bus.atListen with cutBit := cut }
  member : y.member = ({ s.member with losses := min 4 (s.member.losses + 1) } : MembershipUnit).atListen
  drive : y.drive = s.drive.atListen
  snapshot : y.meas.snapshot = s.meas.snapshot
  stale : y.meas.stale = s.meas.stale
  scan : y.meas.scan = s.meas.scan
  queue : y.cond.queue = (offerQueue s.cond { code := .busLoss, source := 0 }).queue
  overflow : y.cond.overflow = (offerQueue s.cond { code := .busLoss, source := 0 }).overflow
  pins : y.pins = s.pins
  loader : y.loader = s.loader
  params : y.params = s.params

theorem Station.returnAfterLoss_lostBus {s : Station} (driving : isDriving s.member.state = true) :
    s.LostBus s.bus.markDominant s.returnAfterLoss := by
  obtain ⟨x, returned, xbus, xmember, xdrive, xmeas, xcond, xpins, xloader, xparams⟩ : ∃ x : Station,
      s.returnAfterLoss = { x.enterListen with
        bus := { x.enterListen.bus with cutBit := isDriving s.member.state && s.bus.markDominant } }
      ∧ x.bus = s.bus ∧ x.member = { s.member with losses := min 4 (s.member.losses + 1) } ∧ x.drive = s.drive
      ∧ x.meas = s.meas ∧ x.cond = raiseEvent s.cond { code := .busLoss, source := 0 } 3
      ∧ x.pins = s.pins ∧ x.loader = s.loader ∧ x.params = s.params :=
    ⟨_, rfl, rfl, rfl, rfl, rfl, rfl, rfl, rfl, rfl⟩
  obtain ⟨snapshot, stale, scan⟩ := x.enterListen_meas
  rw [returned]
  constructor
  case bus => simp [xbus, driving]
  case member => simp [xmember]
  case drive => simp [xdrive]
  case snapshot => simp [snapshot, xmeas]
  case stale => simp [stale, xmeas]
  case scan => simp [scan, xmeas]
  case queue => simp [x.enterListen_queue, xcond, raiseEvent_queue]
  case overflow => simp [x.enterListen_queue, xcond, raiseEvent_overflow]
  case pins => simp [xpins]
  case loader => simp [xloader]
  case params => simp [xparams]

theorem ageExpire_queue (c : ConditionUnit) :
    (expireConds (ageConds c)).queue = c.queue ∧ (expireConds (ageConds c)).overflow = c.overflow := by
  rw [expireConds_frame]
  exact ⟨rfl, rfl⟩

/-- A raise that is told to the queue stands in it, or overflowed it (R177). -/
theorem offerQueue_told (c : ConditionUnit) (k : CondKey) :
    (∃ r ∈ (offerQueue c k).queue, r.key = k) ∨ (offerQueue c k).overflow = true := by
  unfold offerQueue
  repeat' split
  · next held =>
    obtain ⟨r, hr, key⟩ := List.any_eq_true.mp held
    refine .inl ⟨_, List.mem_map_of_mem hr, ?_⟩
    rw [if_pos (of_decide_eq_true key)]
    exact of_decide_eq_true key
  · exact .inl ⟨_, List.mem_append_right _ (List.mem_singleton_self _), rfl⟩
  · exact .inr rfl

theorem Station.LostBus.told {s y : Station} {cut : Bool} (h : s.LostBus cut y) :
    (∃ r ∈ y.cond.queue, r.key = { code := .busLoss, source := 0 }) ∨ y.cond.overflow = true := by
  rw [h.queue, h.overflow]
  exact offerQueue_told s.cond _

theorem Station.LostBus.listen {s y : Station} {cut : Bool} (h : s.LostBus cut y) : y.member.state = .listen := by
  rw [h.member]
  rfl

/-- After a bus loss TXD holds the bit time of a cut mark, and is released in the next one (R3, R74). -/
theorem Station.LostBus.txd {s y : Station} {cut : Bool} (h : s.LostBus cut y) :
    (∀ read : BitVec 70, y.txdDominant read = cut)
      ∧ ∀ (n : Nat) (read : BitVec 70), 0 < n → (y.reach n).txdDominant read = false := by
  have released : ∀ (x : Station) (read : BitVec 70), x.member.state = .listen → x.txdDominant read = x.bus.cutBit :=
    fun x read listen => by simp [Station.txdDominant, Station.drivesDominant, listen, isDriving]
  refine ⟨fun read => ?_, fun n read later => ?_⟩
  · rw [released y read h.listen, h.bus]
  · rw [released _ read ((Station.reach_listen_iff y n).mpr h.listen), Station.reach_bus_cutBit, h.bus]
    simp [BusUnit.atListen, BusUnit.reset]
    omega

/-- The drive start with which the fourth period is counted loses the bus, the mark cut after its first bit time (R74). -/
theorem Station.startMark_lost {s : Station} (driving : isDriving s.member.state = true) (many : 4 ≤ s.periodsTold) :
    ∃ y : Station, s.startMark = y.returnAfterLoss ∧ y.bus = s.bus.driveMark
      ∧ y.member = { s.member with lossPeriods := s.periodsTold } ∧ y.drive = s.drive ∧ y.meas = s.meas
      ∧ y.cond = expireConds (ageConds s.cond) ∧ y.pins = s.pins ∧ y.loader = s.loader ∧ y.params = s.params := by
  have due : ∀ c : ConditionUnit, ({ s with
      bus := s.bus.driveMark, member := { s.member with lossPeriods := s.periodsTold }, cond := c } :
        Station).busLossDue = true := fun c => by
    simp only [Station.busLossDue, driving, Config.lossPeriods, Bool.true_and]
    exact decide_eq_true many
  refine ⟨{ s with
    bus := s.bus.driveMark, member := { s.member with lossPeriods := s.periodsTold }, cond := expireConds (ageConds s.cond) },
    ?_, rfl, rfl, rfl, rfl, rfl, rfl, rfl, rfl⟩
  unfold Station.startMark Station.loseBusAtDrive
  dsimp only
  rw [Station.notifyRound_eq driving, if_pos (due s.cond)]
  exact if_pos (due _)

/-- The own mark of a driving station, where it is due at position 2500 or was held back (R7). -/
theorem Station.ownMark_due {s : Station} (driving : isDriving s.member.state = true) (pending : s.bus.markPending = false)
    (none : (s.bus.later 2500).candidate = none) : s.ownMark = (s.reach 2500).startMark := by
  unfold Station.ownMark
  refine if_pos ?_
  rw [Station.ownMarkDue, Station.reach_isDriving, driving, Config.roundLength, Station.reach_driving _ driving]
  simp [none, pending]

theorem Station.ownMark_not_due {s : Station} (held : (s.reach 2500).bus.candidate.isSome = true) : s.ownMark = s := by
  unfold Station.ownMark
  refine if_neg ?_
  obtain ⟨c, candidate⟩ := Option.isSome_iff_exists.mp held
  simp [Station.ownMarkDue, Config.roundLength, candidate]

/-- Past the report section a driving station drives its mark alone (R3, R11). -/
theorem Station.txdDominant_late {s : Station} (driving : isDriving s.member.state = true) (late : 2500 ≤ s.bus.position)
    (read : BitVec 70) : s.txdDominant read = s.bus.markDominant := by
  have slot : ¬s.bus.position < 100 + 256 * s.loader.straps.val + 247 := by
    have := s.loader.straps.isLt
    omega
  have apart : s.member.state ≠ .listen ∧ s.member.state ≠ .silent := by
    revert driving
    cases s.member.state <;> decide
  have tally : ¬s.bus.position ≤ 79 := by omega
  simp only [Station.txdDominant, Station.drivesDominant, driving, Bool.true_and, apart.1, apart.2, Config.tallyEnd,
    Config.slotBase, Config.slotLength, Config.frameLength, slot, tally, decide_false, Bool.and_false, Bool.false_and,
    Bool.or_false]
  cases s.bus.round.image <;> cases s.bus.round.ownSlot <;> simp

/-- A mark just driven holds TXD dominant for its 8 bit times, and no longer (R7). -/
theorem Station.txdDominant_after_mark {s : Station} (driving : isDriving s.member.state = true)
    (position : s.bus.position = 2500) (mark : s.bus.mark = some { age := 0, confirmed := false, faulted := false })
    (n : Nat) (read : BitVec 70) : (s.reach (2500 + n)).txdDominant read = decide (n < 8) := by
  have late : 2500 ≤ (s.reach (2500 + n)).bus.position := by
    rw [Station.reach_position, position, Config.positionMax]
    omega
  rw [Station.txdDominant_late ((s.reach_isDriving _).trans driving) late, Station.reach_driving _ driving]
  have age : min 65535 (0 + (2500 + n - 2500)) < 8 ↔ n < 8 := by omega
  simp [BusUnit.markDominant, BusUnit.later, mark, position, MarkDrive.later, Config.positionMax, Config.markLength]

/-- The loss of the bus at the drive start of a mark, on a station that time has carried there (R3, R64, R74). -/
theorem Station.startMark_lostBus {s : Station} (driving : isDriving s.member.state = true) (many : 4 ≤ s.periodsTold) :
    s.LostBus true s.startMark := by
  obtain ⟨y, lost, bus, member, drive, meas, cond, pins, loader, params⟩ := Station.startMark_lost driving many
  have drives : isDriving y.member.state = true := by rw [member]; exact driving
  have left := Station.returnAfterLoss_lostBus drives
  have dominant : y.bus.markDominant = true := by rw [bus]; rfl
  rw [dominant] at left
  rw [lost]
  refine ⟨?_, ?_, left.drive.trans (by rw [drive]), left.snapshot.trans (by rw [meas]), left.stale.trans (by rw [meas]),
    left.scan.trans (by rw [meas]), ?_, ?_, left.pins.trans pins, left.loader.trans loader, left.params.trans params⟩
  · rw [left.bus, bus]; rfl
  · rw [left.member, member]; rfl
  · rw [left.queue]
    exact offerQueue_queue_congr (by rw [cond, (ageExpire_queue _).1]) _
  · rw [left.overflow]
    exact offerQueue_overflow_congr (by rw [cond, (ageExpire_queue _).1]) (by rw [cond, (ageExpire_queue _).2]) _

/-- Settles O12: the drive start at position 2500, with the loss periods few or many, or with a candidate open. -/
theorem ownMarkIsDriven : Obligations.OwnMarkIsDriven := by
  intro x q driving pending before t periods
  have told : t.periodsTold = periods := Station.reach_periodsTold driving 2500
  have drives : isDriving t.member.state = true := (x.reach_isDriving 2500).trans driving
  refine ⟨fun late => ?_, fun ⟨c, candidate, stays⟩ => exec_of_effect ?_ q⟩
  · have none : (x.bus.later 2500).candidate = none := BusUnit.later_candidate_eq_none late
    have started : effect .ownSyncMarkDrive x = t.startMark := Station.ownMark_due driving pending none
    have position : t.bus.position = 2500 := by
      rw [show t.bus.position = min Config.positionMax (max x.bus.position 2500) from x.reach_position 2500, Config.positionMax]
      omega
    have candidate : t.bus.candidate = .none := (x.reach_candidate 2500).trans none
    have parts : t.pins = x.pins ∧ t.loader = x.loader ∧ t.params = x.params ∧ t.meas = x.meas := by simp [t]
    obtain ⟨silencings, losses, -⟩ : t.member.silencings = _ ∧ t.member.losses = _ ∧ _ := x.reach_counts 2500
    clear_value t
    refine ⟨fun few => exec_effect (Q := fun y => _ ∧ _) ?_ q, fun many => exec_effect (Q := fun y => _ ∧ _) ?_ q⟩
    · rw [started, Station.startMark_eq drives (told ▸ few), told]
      refine ⟨by simp only [position, candidate], fun n read => ?_⟩
      exact Station.txdDominant_after_mark (by exact drives) (by exact position) rfl n read
    · have lost := Station.startMark_lostBus drives (told ▸ many)
      rw [started]
      refine ⟨lost.listen, ?_, ?_, ?_, ?_, ?_, ?_, ?_, ?_, ?_, ?_, ?_, ?_, lost.queue, lost.txd.1, lost.txd.2, ?_, ?_, ?_⟩
      · rw [lost.member, ← losses]; rfl
      · rw [lost.member, ← silencings]; rfl
      · rw [lost.bus]; rfl
      · rw [lost.bus]; rfl
      · rw [lost.bus]; rfl
      · rw [lost.bus]; rfl
      · rw [lost.bus]; rfl
      · rw [lost.bus]; rfl
      · rw [lost.drive]; rfl
      · rw [lost.snapshot, parts.2.2.2]
      · rw [lost.stale, parts.2.2.2]
      · rw [lost.scan, parts.2.2.2]
      · rw [lost.pins, parts.1]
      · rw [lost.loader, parts.2.1]
      · rw [lost.params, parts.2.2.1]
  · refine Station.ownMark_not_due ?_
    rw [Station.reach_candidate, BusUnit.later_candidate_eq_some candidate stays]
    rfl

end Sys2Proof.Machine
end

