-- ==== Sys2Proof/Proofs/EdgeRules.lean ====
section

/-!
The edges that open candidates, and what a dropped candidate had held back (R5, R7, R10, R19).
-/

namespace Sys2Proof.Machine


theorem Station.edge_eq {s : Station} (runs : timerRuns s.member.state = true) {p : Nat} (coming : s.bus.position ≤ p) :
    s.edge p = (s.reach p).takeEdge p := by
  rw [Station.edge, if_pos runs, Station.atMoment_due _ coming]

theorem BusUnit.opensCandidate_iff (b : BusUnit) (p : Nat) :
    b.opensCandidate p = true ↔
      b.candidate = none ∧ b.markPending = false ∧ (b.sync = .searching ∨ (2480 ≤ p ∧ p ≤ 2520)) := by
  have open_ : b.opensCandidate p = true ↔ b.candidate.isNone = true ∧ b.markPending = false
      ∧ (b.sync = .searching ∨ (Config.windowFirst ≤ p ∧ p ≤ Config.windowLast)) := by
    simp [BusUnit.opensCandidate, and_assoc]
  rw [open_, Option.isNone_iff_eq_none]
  rfl

theorem inStartSpan_eq (p : Nat) (k : StationNo) :
    inStartSpan p k = (decide (100 + 256 * k.val ≤ p) && decide (p ≤ 100 + 256 * k.val + 15)) := by
  refine congrArg (decide (100 + 256 * k.val ≤ p) && ·) ?_
  exact decide_eq_decide.mpr Nat.lt_succ_iff

theorem Station.markActivity_get (s : Station) (p : Nat) (k : StationNo) :
    (s.markActivity p).get k =
      (s.bus.round.activity.get k || (takesPart s.member.state && s.bus.round.recognised && inStartSpan p k)) := by
  unfold Station.markActivity
  split
  · next taken => rw [Eight.get_ofFn, taken, Bool.true_and]
  · next not =>
    rw [show (takesPart s.member.state && s.bus.round.recognised) = false by simpa using not]
    simp

theorem Station.dropCandidate_eq {s : Station} (runs : timerRuns s.member.state = true) {p : Nat}
    (coming : s.bus.position ≤ p) (held : (s.reach p).bus.candidate.isSome = true) :
    s.dropCandidate p =
      ({ s.reach p with bus := { (s.reach p).bus with candidate := none } } : Station).releaseHeldBack p := by
  rw [Station.dropCandidate, if_pos (by simp [runs, held]), Station.atMoment_due _ coming]

theorem Station.releaseHeldBack_mark {s : Station} {p : Nat} (late : 2500 ≤ p)
    (due : (s.reach (p + 1)).ownMarkDue = true) : s.releaseHeldBack p = (s.reach (p + 1)).ownMark := by
  unfold Station.releaseHeldBack
  dsimp only
  rw [if_pos (by simp [Config.roundLength, late, due])]

theorem Station.releaseHeldBack_cold {s : Station} {p : Nat} (late : coldStartAt s.number ≤ p)
    (notMark : (s.reach (p + 1)).ownMarkDue = false) (due : (s.reach (p + 1)).coldStartDue = true) :
    s.releaseHeldBack p = (s.reach (p + 1)).coldStart := by
  unfold Station.releaseHeldBack
  dsimp only
  rw [if_neg (by simp [notMark]), if_pos (by simp [late, due])]

theorem Station.releaseHeldBack_none {s : Station} {p : Nat}
    (notMark : 2500 ≤ p → (s.reach (p + 1)).ownMarkDue = false)
    (notCold : coldStartAt s.number ≤ p → (s.reach (p + 1)).coldStartDue = false) : s.releaseHeldBack p = s := by
  unfold Station.releaseHeldBack
  dsimp only
  rw [if_neg, if_neg]
  · intro both
    obtain ⟨late, due⟩ := Bool.and_eq_true_iff.mp both
    exact Bool.false_ne_true ((notCold (of_decide_eq_true late)).symm.trans due)
  · intro both
    obtain ⟨late, due⟩ := Bool.and_eq_true_iff.mp both
    exact Bool.false_ne_true ((notMark (of_decide_eq_true late)).symm.trans due)

/-- The drive start of a held-back mark comes at the bit time after the drop (R7). -/
theorem Station.ownMark_held_back {s : Station} (driving : isDriving s.member.state = true)
    (pending : s.bus.markPending = false) (none : s.bus.candidate = none) (late : 2500 ≤ s.bus.position) :
    s.ownMark = ({ s with bus := s.bus.later 2500 } : Station).startMark := by
  rw [Station.ownMark_due driving pending (BusUnit.later_no_candidate none), Station.reach_passed late,
    Station.advance_driving 2500 driving]

theorem BusUnit.later_stays {b : BusUnit} {p : Nat} (none : b.candidate = none) (late : p ≤ b.position)
    (small : b.position ≤ 65535) : b.later p = { b with mark := (b.later p).mark } := by
  have position : min Config.positionMax (max b.position p) = b.position := by
    rw [Nat.max_eq_left late]
    exact Nat.min_eq_right small
  unfold BusUnit.later
  simp [none, late]
  exact small

theorem Station.reach_markPending (s : Station) (p : Nat) : (s.reach p).bus.markPending = s.bus.markPending := by
  rcases s.reach_round_cases p with h | h <;> rw [h]
  · exact BusUnit.later_markPending _ _
  · exact BusUnit.later_markPending _ _

/-- What the passing of time to the bit time after a drop leaves of the station (R5). -/
theorem Station.reach_after_drop (x : Station) {p : Nat} (coming : x.bus.position ≤ p) (small : p < 65535)
    {dropped : Station} (drop : dropped = { x.reach p with bus := { (x.reach p).bus with candidate := none } }) :
    (dropped.reach (p + 1)).bus.position = p + 1 ∧ (dropped.reach (p + 1)).bus.candidate = none
      ∧ (dropped.reach (p + 1)).bus.markPending = x.bus.markPending
      ∧ isDriving (dropped.reach (p + 1)).member.state = isDriving x.member.state
      ∧ ((dropped.reach (p + 1)).member.state = .listen ↔ x.member.state = .listen)
      ∧ (dropped.reach (p + 1)).number = x.number
      ∧ (dropped.reach (p + 1)).allowanceSpent = x.allowanceSpent
      ∧ (dropped.reach (p + 1)).member.losses = x.member.losses := by
  have dropped_candidate : dropped.bus.candidate = none := by rw [drop]
  have dropped_position : dropped.bus.position = min 65535 (max x.bus.position p) := by
    rw [drop]
    exact x.reach_position p
  have pending : dropped.bus.markPending = x.bus.markPending := by
    rw [drop]
    exact x.reach_markPending p
  have state : dropped.member = (x.reach p).member := by rw [drop]
  have number : dropped.number = x.number := by rw [drop]; simp [Station.number]
  have spent : dropped.allowanceSpent = x.allowanceSpent := by
    rw [drop]
    exact x.reach_allowanceSpent p
  refine ⟨?_, ?_, ?_, ?_, ?_, ?_, ?_, ?_⟩
  · rw [Station.reach_position, dropped_position, Config.positionMax]
    omega
  · exact (Station.reach_candidate _ _).trans (BusUnit.later_no_candidate dropped_candidate)
  · exact (dropped.reach_markPending _).trans pending
  · rw [dropped.reach_isDriving, state, x.reach_isDriving]
  · rw [dropped.reach_listen_iff, state, x.reach_listen_iff]
  · rw [← number]
    simp [Station.number]
  · exact (dropped.reach_allowanceSpent _).trans spent
  · rw [(dropped.reach_counts _).2.1, state, (x.reach_counts p).2.1]

/-- The mark a candidate had held back (R7, R22). -/
theorem Station.ownMark_held_back_started {s : Station} (driving : isDriving s.member.state = true)
    (pending : s.bus.markPending = false) (none : s.bus.candidate = none) (late : 2500 ≤ s.bus.position)
    (small : s.bus.position ≤ 65535) (few : s.periodsTold < 4) :
    s.ownMark =
      { s with
        bus :=
          { s.bus with
            position := s.bus.position, candidate := .none
            mark := some { age := 0, confirmed := false, faulted := false } }
        member := { s.member with lossPeriods := s.periodsTold } } := by
  rw [Station.ownMark_held_back driving pending none late,
    Station.startMark_eq (s := { s with bus := s.bus.later 2500 }) driving few, BusUnit.later_stays none late small]
  dsimp only
  rw [none]
  rfl

/-- The cold start a candidate had held back (R10). -/
theorem Station.coldStart_held_back {s : Station} (listen : s.member.state = .listen) (left : s.allowanceSpent = false)
    (none : s.bus.candidate = none) (late : coldStartAt s.number ≤ s.bus.position) (small : s.bus.position ≤ 65535) :
    s.coldStart.member.state = .join ∧ s.coldStart.bus.position = s.bus.position ∧ s.coldStart.bus.candidate = .none
      ∧ s.coldStart.bus.mark = some { age := 0, confirmed := false, faulted := false } := by
  have gone : (s.reach (coldStartAt s.number)).bus.candidate = .none :=
    (s.reach_candidate _).trans (BusUnit.later_no_candidate none)
  have position : (s.reach (coldStartAt s.number)).bus.position = s.bus.position := by
    rw [Station.reach_position, Config.positionMax]
    omega
  rw [Station.coldStart_due listen left gone]
  generalize s.reach (coldStartAt s.number) = t at gone position
  obtain ⟨bus, member, -⟩ := t.enterJoin_values
  refine ⟨by rw [member]; rfl, by rw [bus]; exact position, by rw [bus]; exact gone, rfl⟩

/-- What a dropped candidate leaves to a station: nothing that was held back, the own mark, or the cold start. -/
theorem Station.releaseHeldBack_idle {s : Station} {p : Nat}
    (notMark : isDriving (s.reach (p + 1)).member.state = true → p < 2500)
    (notCold : (s.reach (p + 1)).member.state = .listen →
      p < coldStartAt s.number ∨ (s.reach (p + 1)).allowanceSpent = true) : s.releaseHeldBack p = s := by
  refine Station.releaseHeldBack_none (fun late => ?_) fun late => ?_
  · have quiet : isDriving (s.reach (p + 1)).member.state = false :=
      Bool.eq_false_iff.mpr fun driving => absurd late (Nat.not_le.mpr (notMark driving))
    simp only [Station.ownMarkDue, quiet, Bool.false_and]
  · by_cases listen : (s.reach (p + 1)).member.state = .listen
    · have spent := (notCold listen).resolve_left (Nat.not_lt.mpr late)
      simp only [Station.coldStartDue, spent, Bool.not_true, Bool.and_false, Bool.false_and]
    · simp only [Station.coldStartDue, listen, decide_false, Bool.false_and]

theorem Station.ownMarkDue_of {s : Station} (driving : isDriving s.member.state = true)
    (pending : s.bus.markPending = false) (none : s.bus.candidate = none) : s.ownMarkDue = true := by
  simp [Station.ownMarkDue, driving, pending, none]

theorem Station.coldStartDue_of {s : Station} (listen : s.member.state = .listen) (left : s.allowanceSpent = false)
    (none : s.bus.candidate = none) : s.coldStartDue = true := by
  simp [Station.coldStartDue, listen, left, none]

/-- Settles O16: the edge, and the drop with what it held back. -/
theorem edgesOpenCandidates : Obligations.EdgesOpenCandidates := by
  intro x q p runs coming small t dropped mark begun periods
  refine ⟨exec_effect (Q := fun y => _ ∧ _) ?edge q, fun c candidate stays => ?drop, fun late => exec_of_effect ?kept q⟩
  case edge =>
    have taken : effect (.recessiveToDominantEdge p) x = t.takeEdge p := Station.edge_eq runs coming
    have parts : takesPart t.member.state = takesPart x.member.state := x.reach_takesPart p
    rw [taken]
    clear_value t
    refine ⟨?_, fun k => ?_⟩
    · simp only [Station.takeEdge, BusUnit.opensCandidate_iff]
    · rw [← parts, Bool.and_assoc (takesPart _ && _), ← inStartSpan_eq]
      exact t.markActivity_get p k
  case kept =>
    have none : (x.reach p).bus.candidate = none := (x.reach_candidate p).trans (BusUnit.later_candidate_eq_none late)
    exact if_neg (by simp [none])
  case drop =>
    have released : effect (.candidateMarkDropped p) x = dropped.releaseHeldBack p := by
      refine Station.dropCandidate_eq runs coming ?_
      rw [Station.reach_candidate, BusUnit.later_candidate_eq_some candidate stays]
      rfl
    obtain ⟨position, none, pending, driving, listen, number, spent, losses⟩ :
        begun.bus.position = p + 1 ∧ begun.bus.candidate = .none ∧ begun.bus.markPending = x.bus.markPending
          ∧ isDriving begun.member.state = isDriving x.member.state
          ∧ (begun.member.state = .listen ↔ x.member.state = .listen) ∧ begun.number = x.number
          ∧ begun.allowanceSpent = x.allowanceSpent ∧ begun.member.losses = x.member.losses :=
      x.reach_after_drop coming small rfl
    have droppedNumber : dropped.number = x.number := by simp [dropped, t, Station.number]
    have told : isDriving x.member.state = true → begun.periodsTold = periods := fun drives =>
      (Station.reach_periodsTold (s := dropped) ((x.reach_isDriving p).trans drives) _).trans
        (Station.reach_periodsTold (s := x) drives p)
    have mark_released : isDriving x.member.state = true → x.bus.markPending = false → 2500 ≤ p →
        dropped.releaseHeldBack p = begun.ownMark := fun drives free late =>
      Station.releaseHeldBack_mark late
        (Station.ownMarkDue_of (s := begun) (driving.trans drives) (pending.trans free) none)
    have late_begun : 2500 ≤ p → 2500 ≤ begun.bus.position := fun late => by omega
    have small_begun : begun.bus.position ≤ 65535 := by omega
    have idle : (isDriving begun.member.state = true → p < 2500) →
        (begun.member.state = .listen → p < coldStartAt dropped.number ∨ begun.allowanceSpent = true) →
        dropped.releaseHeldBack p = dropped := Station.releaseHeldBack_idle
    have cold_released : coldStartAt dropped.number ≤ p → begun.ownMarkDue = false → begun.coldStartDue = true →
        dropped.releaseHeldBack p = begun.coldStart := Station.releaseHeldBack_cold
    rw [driving, listen, droppedNumber, spent, Station.allowanceSpent_iff] at idle
    rw [droppedNumber] at cold_released
    clear_value begun dropped periods t
    refine ⟨fun early none_due => exec_of_effect (released.trans (idle early none_due)) q,
      fun drives free late few => exec_of_effect (released.trans ((mark_released drives free late).trans ?_)) q,
      fun drives free late many => exec_effect (Q := fun y => _ ∧ _) ?_ q,
      fun listens late left => exec_effect (Q := fun y => _ ∧ _) ?_ q⟩
    · rw [Station.ownMark_held_back_started (driving.trans drives) (pending.trans free) none (late_begun late) small_begun
        (told drives ▸ few), position, told drives]
    · have lost : ({ begun with bus := begun.bus.later 2500 } : Station).LostBus true _ :=
        Station.startMark_lostBus (driving.trans drives) (told drives ▸ many)
      rw [← Station.ownMark_held_back (driving.trans drives) (pending.trans free) none (late_begun late),
        ← mark_released drives free late, ← released] at lost
      refine ⟨lost.listen, ?_, ?_, ?_, lost.txd⟩
      · rw [lost.member, ← losses]; rfl
      · rw [lost.bus]; rfl
      · rw [lost.bus]; rfl
    · have left' : begun.allowanceSpent = false := spent.trans ((Station.allowanceSpent_eq_false x).mpr left)
      have begun_listens := listen.mpr listens
      have notMark : begun.ownMarkDue = false := by
        rw [Station.ownMarkDue, begun_listens]
        rfl
      have threshold : coldStartAt begun.number ≤ begun.bus.position := by
        rw [number, position]
        exact Nat.le_succ_of_le late
      obtain ⟨join, at_position, candidate, mark⟩ :=
        Station.coldStart_held_back begun_listens left' none threshold small_begun
      rw [released, cold_released late notMark (Station.coldStartDue_of begun_listens left' none)]
      exact ⟨join, at_position.trans position, candidate, mark⟩

end Sys2Proof.Machine
end

