-- ==== Sys2Proof/Proofs/DriveRules.lean ====
section
/-! The lock ramps, the laws, slew and limit (chapter 10). -/

namespace Sys2Proof.Machine

/-! ### Lock stepping (R163, R168, R169) -/

/-- Settles O42: each end where it is due, and the gate of LREL. -/
theorem lockRampAndReleaseEnd : Obligations.LockRampAndReleaseEnd := by
  intro x q
  refine ⟨fun down zero => exec_of_effect ?_ q, fun up full => exec_of_effect ?_ q,
    fun active run tilt member mode => exec_of_effect ?_ q, fun notDue => exec_of_effect ?_ q, ?_⟩
  · have ended : x.drive.endLockRamp x.params.shared.lockRamp = { x.drive with output := .locked } := by
      simp [Drive.endLockRamp, down, zero]
    exact congrArg (fun d => { x with drive := d }) ended
  · have ended : x.drive.endLockRamp x.params.shared.lockRamp = { x.drive with output := .active, release := 0 } := by
      simp [Drive.endLockRamp, up, full]
    exact congrArg (fun d => { x with drive := d }) ended
  · exact if_pos (by simp [Station.releaseDue, active, run, tilt, member, mode])
  · refine if_neg fun due => ?_
    simp only [Station.releaseDue, Bool.and_eq_true, decide_eq_true_eq] at due
    obtain ⟨⟨⟨⟨active, run⟩, tilt⟩, -⟩, -⟩ := due
    rcases notDue with other | other | early
    · simp [tilt] at other
    · exact other active
    · exact absurd run (Nat.not_le.mpr early)
  · simp [Station.lrelOut, and_assoc]

/-- A RAMP_UP step: one more, or ACTIVE at LOCK_RAMP (R168). -/
theorem Drive.stepUp_eq (lockRampMax : Nat) (d : Drive) :
    d.stepUp lockRampMax =
      if lockRampMax ≤ d.lockRamp + 1 then { d with output := .active, lockRamp := lockRampMax, release := 0 }
      else { d with output := .rampUp, lockRamp := d.lockRamp + 1 } := by
  unfold Drive.stepUp Drive.endLockRamp
  dsimp only [succSat]
  by_cases full : lockRampMax ≤ d.lockRamp + 1
  · simp only [Nat.min_eq_left full, if_pos (Nat.le_refl _), if_pos full]
  · simp only [Nat.min_eq_right (Nat.le_of_not_le full), if_neg full]

/-- A RAMP_DOWN step: one less, and LOCKED at 0 (R168). -/
theorem Drive.stepDown_eq {d : Drive} (down : d.output = .rampDown) (lockRampMax : Nat) :
    d.stepDown lockRampMax =
      { d with lockRamp := d.lockRamp - 1, output := if d.lockRamp ≤ 1 then .locked else .rampDown } := by
  unfold Drive.stepDown Drive.endLockRamp
  simp only [down]
  by_cases last : d.lockRamp ≤ 1
  · rw [if_pos (Nat.sub_eq_zero_of_le last), if_pos last]
  · rw [if_neg (by omega), if_neg last]

/-- Settles O43: the stepping by the output state. -/
theorem lockSteps : Obligations.LockSteps := by
  intro sh agreed mode d up
  have stepped : d.stepUp sh.lockRamp = up := d.stepUp_eq sh.lockRamp
  have stays : agreed = false ∨ mode = .lock → ¬(agreed && decide (mode ≠ .lock)) = true := fun h => by
    rcases h with h | h <;> simp [h]
  have turns : agreed = true → mode ≠ .lock → (agreed && decide (mode ≠ .lock)) = true := fun h h' => by simp [h, h']
  unfold Drive.stepLock
  refine ⟨fun off => ?_, fun low isAgreed on => ?_, fun locked other => ?_, fun down other => ?_, fun rampUp isAgreed => ?_,
    fun high other => ?_, fun active isAgreed => ?_⟩
  · simp only [off]
  · rcases low with h | h <;> simp only [h, if_pos (turns isAgreed on), stepped]
  · simp only [locked, if_neg (stays other)]
  · simp only [down, if_neg (stays other)]
    exact Drive.stepDown_eq down _
  · simp only [rampUp, isAgreed, if_true, stepped]
  · rcases high with h | h <;> simp [h, other]
  · simp only [active, isAgreed, if_true, succSat]

/-! ### Slew, limit and outputs (R166) -/

theorem saturate_le {lo hi x : Int} (low : lo ≤ x) (high : x ≤ hi) : saturate lo hi x = x := by
  unfold saturate
  rw [if_neg (by omega), if_neg (by omega)]

theorem saturate_above {lo hi x : Int} (proper : lo ≤ hi) (above : hi < x) : saturate lo hi x = hi := by
  unfold saturate
  rw [if_neg (by omega), if_pos above]

theorem saturate_below {lo hi x : Int} (below : x < lo) : saturate lo hi x = lo := if_pos below

/-- Settles O45: within the limit and beyond it either way, and the pins by the sign. -/
theorem effortSlewsThenIsLimited : Obligations.EffortSlewsThenIsLimited := by
  refine ⟨?_, fun inverted effort d => ⟨rfl, rfl, rfl, fun pos => ?_, fun neg => ?_,
    fun zero => ?_⟩⟩
  · intro slew limit target effort moved
    have limited : slewAndLimit slew limit target effort = saturate (-(limit : Int)) limit moved := rfl
    rw [limited]
    clear_value moved
    exact ⟨fun within => saturate_le (by omega) (by omega), fun above => saturate_above (by omega) above, saturate_below⟩
  · exact if_pos pos
  · exact (if_neg (by omega)).trans (if_pos neg)
  · exact (if_neg (by omega)).trans (if_neg (by omega))

/-! ### The laws (R164, R165) -/

theorem shareOf_eq (holders : List Holder) (k : StationNo) :
    shareOf holders k = ((holders.find? fun h => decide (h.station = k)).map (·.share)).getD 0 := by
  unfold shareOf
  cases holders.find? fun h => decide (h.station = k) <;> rfl

/-- The value of a quantity is there while its channel is mapped and normal (log 15). -/
theorem Station.fitValue_eq (s : Station) (set : MeasSet) (quantity : Quantity) :
    s.fitValue set quantity =
      match allStations.find? fun c => decide ((s.params.own.channels.get c).quantity = quantity) with
      | some c => if (s.meas.monitors.get c).state = .normal then set.channels.get c else none
      | none => none := by
  unfold Station.fitValue Station.channelOf
  cases allStations.find? fun c => decide ((s.params.own.channels.get c).quantity = quantity) with
  | none => rfl
  | some c => by_cases normal : (s.meas.monitors.get c).state = .normal <;> simp [Station.isFailed, normal]

/-- The leans of the usable peers of lean roles whose report is of this round (R81, R99, R165; log 16). -/
theorem Station.peerLeans_thisRound (s : Station) :
    s.peerLeans s.thisRound =
      allStations.filterMap fun k =>
        if k ≠ s.number ∧ ((s.peers.get k).state = .present ∨ (s.peers.get k).state = .suspect)
            ∧ ((s.peers.get k).rosterRole = .tiltL ∨ (s.peers.get k).rosterRole = .tiltR
              ∨ (s.peers.get k).rosterRole = .frame)
            ∧ (s.peers.get k).lastHeard = some s.bus.roundNumber then
          (s.peers.get k).lastReport.bind readLean
        else none := by
  unfold Station.peerLeans
  refine congrArg (List.filterMap · allStations) (funext fun k => ?_)
  by_cases own : k = s.number
  · simp [own]
  · by_cases heard : (s.peers.get k).lastHeard = some s.bus.roundNumber
    · simp [Station.usable, Station.roleOf, Station.thisRound, isLeanRole, isTiltRole, own, heard, or_assoc]
    · simp [Station.thisRound, heard]

/-- The lean term of the steer law is 0 when no peer gives a lean (R165). -/
theorem steerLaw_meanOf (own : StationSection) (setpoint : Int) (torque : Option Int) (leans : List Int) :
    steerLaw own setpoint torque (meanOf leans) =
      steerLaw own setpoint torque none
        + if leans = [] then 0 else (own.kl * (setpoint - leans.sum.tdiv leans.length)).tdiv 64 := by
  by_cases bare : leans = []
  · rw [if_pos bare, bare, Int.add_zero]
    rfl
  · have mean : meanOf leans = some (leans.sum.tdiv leans.length) := if_neg (by simpa using bare)
    rw [if_neg bare, mean]
    simp only [steerLaw, Int.add_zero]

/-- Settles O44: the two laws term by term. -/
theorem lawsGiveTheTarget : Obligations.LawsGiveTheTarget := by
  intro x own part steerTorque leans torque lean share
  have tilt_share : x.ownShare .tilt = share x.auth.tilt := shareOf_eq _ _
  have steer_share : x.ownShare .steer = share x.auth.steer := shareOf_eq _ _
  have measured : x.fitValue x.meas.latest .steerTorque = steerTorque := x.fitValue_eq _ _
  have listed : x.peerLeans x.thisRound = leans := x.peerLeans_thisRound
  have law : steerLaw own x.engine.run.setpoint steerTorque x.scooterLean = torque + lean := by
    have alone : steerLaw own x.engine.run.setpoint steerTorque none = torque := Int.add_zero torque
    rw [Station.scooterLean, listed]
    exact (steerLaw_meanOf own x.engine.run.setpoint steerTorque leans).trans (congrArg (· + lean) alone)
  refine ⟨fun a tilt measures => ?_, fun tilt missing => ?_, fun steer => ?_⟩ <;> unfold Station.driveTarget
  · simp only [tilt, if_true, tilt_share, measures]
    rfl
  · simp only [tilt, if_true, missing]
    rw [targetEffort, tiltLaw, saturate_le (by omega) (by omega)]
    simp
  · simp only [steer, Bool.false_eq_true, if_false, steer_share, measured]
    rw [show x.params.own = own from rfl, law]
    rfl

end Sys2Proof.Machine
end

