-- ==== Sys2Proof/Proofs/HeldRules.lean ====
section
/-! What a piece of work leaves of the conditions: the held state conditions it does not touch, and the raises told so far. -/

namespace Sys2Proof.Machine

/-! ### The queue only grows, short of a report (R177) -/

/-- A raise of the key stands in the queue, or was lost to the overflow (R177). -/
def ConditionUnit.told (c : ConditionUnit) (k : CondKey) : Prop := (∃ r ∈ c.queue, r.key = k) ∨ c.overflow = true

theorem told_congr {c d : ConditionUnit} (queue : d.queue = c.queue) (overflow : d.overflow = c.overflow) {k : CondKey}
    (h : c.told k) : d.told k := by
  unfold ConditionUnit.told at h ⊢
  rwa [queue, overflow]

theorem told_offerQueue {c : ConditionUnit} {k : CondKey} (h : c.told k) (offered : CondKey) : (offerQueue c offered).told k := by
  unfold offerQueue
  split
  · rcases h with ⟨r, hr, key⟩ | lost
    · refine .inl ⟨_, List.mem_map_of_mem hr, ?_⟩
      split <;> exact key
    · exact .inr lost
  · split
    · rcases h with ⟨r, hr, key⟩ | lost
      · exact .inl ⟨r, List.mem_append_left _ hr, key⟩
      · exact .inr lost
    · exact .inr rfl

theorem told_raiseEvent_self (c : ConditionUnit) (k : CondKey) (level : Nat) : (raiseEvent c k level).told k :=
  offerQueue_told _ _

theorem told_raiseEvent {c : ConditionUnit} {k : CondKey} (h : c.told k) (raised : CondKey) (level : Nat) :
    (raiseEvent c raised level).told k := by
  unfold raiseEvent
  refine told_offerQueue (told_congr ?_ ?_ h) raised <;> split
  · rfl
  · exact enterCond_queue c _
  · rfl
  · rw [enterCond_frame]

theorem told_removeCond {c : ConditionUnit} {k : CondKey} (h : c.told k) (removed : CondKey) :
    (removeCond c removed).told k := by
  rw [removeCond_frame]
  exact h

theorem told_holdCond {c : ConditionUnit} {k : CondKey} (h : c.told k) (held : CondKey) (level : Nat) :
    (holdCond c held level).told k := by
  unfold holdCond
  split
  · exact h
  · refine told_offerQueue (told_congr ?_ ?_ h) held
    · exact enterCond_queue c _
    · rw [enterCond_frame]

theorem told_setCond {c : ConditionUnit} {k : CondKey} (h : c.told k) (cause : Bool) (set : CondKey) (level : Nat) :
    (setCond c cause set level).told k := by
  unfold setCond
  split
  · exact told_holdCond h set level
  · exact told_removeCond h set

/-! ### What a piece of work leaves -/

/-- Work that takes `c` to `d` keeps the table sound, the state conditions outside `touched` as they are, and what is told. -/
structure ConditionUnit.Follows (touched : CondKey → Prop) (c d : ConditionUnit) : Prop where
  sound : c.tableSound → d.tableSound
  held : c.tableSound → ∀ key, condIsEvent key.code = false → ¬touched key → isHeld d key = isHeld c key
  told : ∀ key, c.told key → d.told key

namespace ConditionUnit.Follows

variable {touched : CondKey → Prop} {c d e : ConditionUnit}

theorem refl : c.Follows touched c := ⟨id, fun _ _ _ _ => rfl, fun _ => id⟩

theorem trans (h : c.Follows touched d) (h' : d.Follows touched e) : c.Follows touched e :=
  ⟨fun sound => h'.sound (h.sound sound),
    fun sound key state apart => (h'.held (h.sound sound) key state apart).trans (h.held sound key state apart),
    fun key told => h'.told key (h.told key told)⟩

/-- Work that touches less touches no more. -/
theorem mono {wider : CondKey → Prop} (h : c.Follows touched d) (within : ∀ key, touched key → wider key) :
    c.Follows wider d :=
  ⟨h.sound, fun sound key state apart => h.held sound key state fun is => apart (within key is), h.told⟩

/-- The order of raises and the mark of a dropped raise are nothing to what is held or told. -/
theorem of_same (table : d.table = c.table) (displaced : d.displaced = c.displaced) (queue : d.queue = c.queue)
    (overflow : d.overflow = c.overflow) : c.Follows touched d :=
  ⟨tableSound_congr table displaced, fun _ key _ _ => by unfold isHeld; rw [table, displaced],
    fun _ => told_congr queue overflow⟩

theorem raise (k : CondKey) (event : condIsEvent k.code = true) (level : Nat) : c.Follows touched (raiseEvent c k level) :=
  ⟨fun sound => raiseEvent_tableSound sound event level, fun _ _ state _ => isHeld_raiseEvent c event level state,
    fun _ told => told_raiseEvent told k level⟩

theorem set (cause : Bool) (k : CondKey) (level : Nat) (is : touched k) : c.Follows touched (setCond c cause k level) :=
  ⟨fun sound => setCond_tableSound sound cause k level,
    fun sound key state apart => by
      rw [isHeld_setCond sound.keysOnce cause level state, if_neg fun same : key = k => apart (same ▸ is)],
    fun _ told => told_setCond told cause k level⟩

theorem remove (k : CondKey) (is : touched k) : c.Follows touched (removeCond c k) := set (level := 0) false k is

theorem removes (keys : List CondKey) : ∀ {c : ConditionUnit}, (∀ k ∈ keys, touched k) →
    c.Follows touched (keys.foldl removeCond c) := by
  induction keys with
  | nil => exact fun _ => refl
  | cons k rest ih =>
    intro c are
    rw [List.foldl_cons]
    exact (remove k (are k List.mem_cons_self)).trans (ih fun key member => are key (List.mem_cons_of_mem k member))

end ConditionUnit.Follows

/-! ### The station's raises and holds -/

section

/-- What a station's work leaves of its conditions. -/
abbrev Station.Follows (touched : CondKey → Prop) (s t : Station) : Prop := s.cond.Follows touched t.cond

variable {touched : CondKey → Prop}

theorem Station.follows_raise (s : Station) {code : CondCode} (event : condIsEvent code = true) (source : Nat) :
    s.Follows touched (s.raise code source) := ConditionUnit.Follows.raise _ event _

theorem Station.follows_raiseTimes {code : CondCode} (event : condIsEvent code = true) (source n : Nat) :
    ∀ s : Station, s.Follows touched (s.raiseTimes code source n) := by
  induction n with
  | zero => exact fun _ => .refl
  | succ n ih => exact fun s => (s.follows_raise event source).trans (ih _)

theorem Station.follows_setHeld (s : Station) (cause : Bool) {code : CondCode} {source : Nat}
    (is : touched { code := code, source := source }) : s.Follows touched (s.setHeld cause code source) := .set _ _ _ is

theorem ConditionUnit.Follows.reoffer (c : ConditionUnit) : c.Follows touched (reofferDisplaced c) :=
  ⟨fun sound => reofferDisplaced_tableSound sound.1 sound.keysOnce sound.2.2.1,
    fun _ _ state _ => isHeld_reofferDisplaced c state, fun _ told => by rw [reofferDisplaced_frame]; exact told⟩

/-! ### What the authority's work leaves (R145, R156 to R158) -/

theorem Station.follows_failClaim (s : Station) (g : Group) (code : CloseCode)
    (is : touched { code := .authGiveup, source := groupCode g }) : s.Follows touched (s.failClaim g code) := by
  unfold Station.failClaim
  dsimp only
  split
  · refine ConditionUnit.Follows.trans ?_ (Station.follows_setHeld _ true is)
    exact ConditionUnit.Follows.raise _ rfl _
  · exact ConditionUnit.Follows.raise _ rfl _

theorem Station.follows_takeClose (s : Station) (g : Group) (closed : Option (StationNo × CloseCode))
    (is : touched { code := .authGiveup, source := groupCode g }) : s.Follows touched (s.takeClose g closed) := by
  unfold Station.takeClose
  split
  · split
    · split
      · exact .refl
      · exact s.follows_failClaim g _ is
    · exact .refl
  · exact .refl

theorem Station.follows_commitGroup (s : Station) (g : Group) (w : GroupWork)
    (is : touched { code := .authGiveup, source := groupCode g }) : s.Follows touched (s.commitGroup g w) :=
  Station.follows_takeClose { s with auth := s.auth.setGroup g _ } g w.closed is

theorem Station.follows_rampStep (s : Station) (is : ∀ n, touched { code := .authGiveup, source := n }) :
    s.Follows touched s.rampStep := by
  unfold Station.rampStep
  split
  · exact (s.follows_commitGroup .tilt _ (is _)).trans (Station.follows_commitGroup _ .steer _ (is _))
  · exact .refl

theorem Station.follows_groupConds (s : Station) (sole : touched { code := .tiltSole, source := 0 })
    (vacant : touched { code := .tiltVacant, source := 0 }) (steer : touched { code := .steerVacant, source := 0 }) :
    s.Follows touched s.groupConds := by
  unfold Station.groupConds
  split
  · exact ((s.follows_setHeld _ sole).trans (Station.follows_setHeld _ _ vacant)).trans (Station.follows_setHeld _ _ steer)
  · exact .refl

theorem Station.follows_propose (s : Station) (claim : Nat) : s.Follows touched (s.propose claim) := by
  refine (ConditionUnit.Follows.reoffer s.cond).trans ?_
  unfold Station.propose Station.moveSpeedMode
  dsimp only
  split <;> exact .of_same rfl rfl rfl rfl

/-! ### DEMAND_LOST follows the hold count (R134) -/

theorem Station.follows_foldl {α : Type} (f : Station → α → Station) (each : ∀ (s : Station) (a : α), s.Follows touched (f s a))
    (l : List α) :
    ∀ s : Station, s.Follows touched (l.foldl f s) := by
  induction l with
  | nil => exact fun _ => .refl
  | cons a rest ih => exact fun s => (each s a).trans (ih _)

end

theorem Station.told_raise (s : Station) (code : CondCode) (source : Nat) :
    (s.raise code source).cond.told { code := code, source := source } := told_raiseEvent_self _ _ _

/-- A key set follows its cause, where no key stands twice (R171). -/
theorem Station.isHeld_setHeld {s : Station} (sound : s.cond.tableSound) (cause : Bool) {code : CondCode} (source : Nat)
    {key : CondKey} (state : condIsEvent key.code = false) :
    isHeld (s.setHeld cause code source).cond key =
      if key = { code := code, source := source } then cause else isHeld s.cond key :=
  isHeld_setCond sound.keysOnce cause _ state

theorem Station.isHeld_setHeld_self {s : Station} (sound : s.cond.tableSound) (cause : Bool) {code : CondCode}
    (state : condIsEvent code = false) (source : Nat) :
    isHeld (s.setHeld cause code source).cond { code := code, source := source } = cause := by
  rw [Station.isHeld_setHeld sound cause source state, if_pos rfl]

theorem Station.setHeld_tableSound {s : Station} (sound : s.cond.tableSound) (cause : Bool) (code : CondCode)
    (source : Nat) : (s.setHeld cause code source).cond.tableSound := setCond_tableSound sound _ _ _

/-! ### DEMAND_LOST is held under one source (R134) -/

/-- Removals of one code under many sources leave every other key. -/
theorem Station.isHeld_foldl_removals {code : CondCode} (state : condIsEvent code = false) (keep : Nat → Bool)
    (sources : List Nat) :
    ∀ s : Station, s.cond.tableSound →
      (sources.foldl (fun s n => if keep n then s else s.setHeld false code n) s).cond.tableSound
        ∧ ∀ n, isHeld (sources.foldl (fun s n => if keep n then s else s.setHeld false code n) s).cond
            { code := code, source := n } =
          (isHeld s.cond { code := code, source := n } && (keep n || !decide (n ∈ sources))) := by
  induction sources with
  | nil => exact fun s sound => ⟨sound, fun n => by simp⟩
  | cons m rest ih =>
    intro s sound
    rw [List.foldl_cons]
    by_cases kept : keep m = true
    · rw [if_pos kept]
      obtain ⟨sound', held⟩ := ih s sound
      refine ⟨sound', fun n => (held n).trans ?_⟩
      by_cases same : n = m
      · simp [same, kept]
      · simp [same]
    · rw [if_neg kept]
      obtain ⟨sound', held⟩ := ih _ (Station.setHeld_tableSound sound false code m)
      refine ⟨sound', fun n => (held n).trans ?_⟩
      rw [Station.isHeld_setHeld sound false m state]
      by_cases same : n = m
      · simp [same, kept]
      · simp [same]

theorem Station.holdDemandLost_held {s : Station} (sound : s.cond.tableSound) (source : Nat) {n : Nat} (small : n ≤ 8) :
    isHeld (s.holdDemandLost source).cond { code := .demandLost, source := n } = decide (n = source) := by
  obtain ⟨sound', held⟩ :=
    Station.isHeld_foldl_removals (code := .demandLost) rfl (fun n => decide (n = source)) (List.range 9) s sound
  simp only [decide_eq_true_eq] at sound' held
  unfold Station.holdDemandLost
  rw [Station.isHeld_setHeld sound' true source rfl, held]
  by_cases same : n = source
  · simp [same]
  · have listed : n < 9 := by omega
    simp [same, listed]

theorem Station.holdDemandLost_eq (s : Station) (source : Nat) :
    s.holdDemandLost source = { s with cond := (s.holdDemandLost source).cond } := by
  have frame := s.holdDemandLost_frame source
  generalize s.holdDemandLost source = t at frame ⊢
  obtain ⟨pins, loader, params, bus, member, peers, meas, engine, auth, drive⟩ := frame
  rw [← pins, ← loader, ← params, ← bus, ← member, ← peers, ← meas, ← engine, ← auth, ← drive]

theorem Station.maySource_iff (s : Station) (k : StationNo) :
    s.maySource k = true ↔ (s.peers.get k).state = .present ∨ (s.peers.get k).state = .suspect ∨ k = s.number := by
  simp [Station.maySource, Station.usable, or_assoc]

/-- Settles O41: the source chosen, and its condition alone held. -/
theorem demandIsLost : Obligations.DemandIsLost := by
  intro x q takes above sound sh may
  have due : x.demandLostDue = true := by simp [Station.demandLostDue, takes, above]
  have lost : effect .demandLost x =
      ({ x with engine := { x.engine with demand := 0 } } : Station).holdDemandLost x.demandLostSource := if_pos due
  have primary : x.maySource sh.demandPrimary = true ↔ may sh.demandPrimary := x.maySource_iff _
  have secondary : x.maySource sh.demandSecondary = true ↔ may sh.demandSecondary := x.maySource_iff _
  have held : ∀ n, n ≤ 8 → isHeld (effect .demandLost x).cond { code := .demandLost, source := n }
      = decide (n = x.demandLostSource) := fun n small => by
    rw [lost]
    exact Station.holdDemandLost_held (s := { x with engine := { x.engine with demand := 0 } }) sound _ small
  refine exec_effect (Q := fun y => _ ∧ _) ?_ q
  refine ⟨?_, fun n small => ?_⟩
  · rw [lost]
    exact Station.holdDemandLost_eq _ _
  · dsimp only
    rw [held n small]
    unfold Station.demandLostSource Station.demandSource
    refine ⟨fun is => ?_, fun not is => ?_, fun not not' => ?_⟩
    · rw [if_pos (primary.mpr is)]
    · rw [if_neg (mt primary.mp not), if_pos (secondary.mpr is)]
    · rw [if_neg (mt primary.mp not), if_neg (mt secondary.mp not')]

/-! ### SPLIT_VIEW (R136) -/

theorem Station.countSplit_splitCount (s : Station) :
    s.countSplit.engine.splitCount =
      match s.bus.held.roundClass with
      | .split => min 3 (s.engine.splitCount + 1)
      | .agreed => 0
      | .memberless | .abandoned | .none => s.engine.splitCount := by
  cases hclass : s.bus.held.roundClass <;> simp [Station.countSplit, Station.splitView, hclass, succSat, Config.splitLimit]

/-- Settles O29: the condition, and the count by the class of the round. -/
theorem splitViewFollowsTheSplitCount : Obligations.SplitViewFollowsTheSplitCount := by
  refine ⟨fun x q sound => exec_effect (Q := fun y => _ ∧ _) ?_ q, fun x => ?_⟩
  · exact ⟨rfl, Station.isHeld_setHeld_self sound _ rfl 0⟩
  · rw [Station.countSplit_splitCount]
    cases x.bus.held.roundClass <;> simp

end Sys2Proof.Machine
end

