-- ==== Sys2Proof/Proofs/EngineRules.lean ====
section
/-! The engine's apply point: the intake of a MODE, the move, the end of a step and readiness (R119 to R137). -/

namespace Sys2Proof.Machine

/-! ### The end of a pass (R129) -/

theorem RunState.passEnd_pending {r : RunState} {m : Mode} (pending : r.pending = some m) (sh : SharedSection) :
    r.passEnd sh = r.startMode sh m := by
  unfold RunState.passEnd
  rw [pending]

theorem RunState.passEnd_repeat {r : RunState} (pending : r.pending = none) (left : 0 < r.repeatLeft) (sh : SharedSection) :
    r.passEnd sh =
      { r with
        repeatLeft := r.repeatLeft - 1, elapsed := 0
        accInc := saturate (-720) 720 (r.accInc + (stepAt sh r.step).increment) } := by
  unfold RunState.passEnd
  rw [pending]
  exact if_pos left

/-- The last pass of a step in a profile: the next step, the first one again, or COMPLETE. -/
theorem RunState.passEnd_last {r : RunState} {m : Mode} (pending : r.pending = none) (left : r.repeatLeft = 0)
    (mode : r.mode = some m) (sh : SharedSection) :
    r.passEnd sh =
      if r.step < (modeAt sh m).last then r.enterStep sh (r.step + 1)
      else if (modeAt sh m).loop = true then r.enterStep sh (modeAt sh m).first
      else { r with engine := .complete, repeatLeft := 0, elapsed := 65535 } := by
  unfold RunState.passEnd RunState.entry
  rw [pending, mode]
  exact if_neg (by omega)

/-! ### The intake (R121, R130 to R132, Table 8-4) -/

theorem Engine.intakeRunning_lower {e : Engine} {m : Mode} (lower : modeCode m < modeCode7 e.run.mode) (sh : SharedSection) :
    e.intakeRunning sh m = e.startMode sh m := if_pos lower

theorem Engine.intakeRunning_same {e : Engine} {m : Mode} (same : e.run.mode = some m) (sh : SharedSection) :
    e.intakeRunning sh m = { e with run := { e.run with pending := none } } := by
  refine (if_neg ?_).trans (if_pos same)
  rw [same]
  exact Nat.lt_irrefl _

theorem Engine.intakeRunning_higher {e : Engine} {m : Mode} (higher : modeCode7 e.run.mode < modeCode m) (sh : SharedSection) :
    e.intakeRunning sh m = { e with run := { e.run with pending := some m } } := by
  refine (if_neg (Nat.lt_asymm higher)).trans (if_neg fun same => ?_)
  rw [same] at higher
  exact Nat.lt_irrefl _ higher

/-- A SUSPENDED engine is RUNNING first (R121). -/
theorem Engine.intake_running {e : Engine} (runs : e.run.engine = .running ∨ e.run.engine = .suspended) (sh : SharedSection)
    (armed : Bool) (m : Mode) :
    e.intake sh armed m = ({ e with run := { e.run with engine := .running } } : Engine).intakeRunning sh m := by
  unfold Engine.intake
  rcases runs with running | suspended
  · simp only [running]
    rw [← running]
  · simp only [suspended]

theorem Engine.intake_lower {e : Engine} (runs : e.run.engine = .running ∨ e.run.engine = .suspended) {m : Mode}
    (lower : modeCode m < modeCode7 e.run.mode) (sh : SharedSection) (armed : Bool) :
    e.intake sh armed m = e.startMode sh m :=
  (Engine.intake_running runs sh armed m).trans
    (Engine.intakeRunning_lower (e := { e with run := { e.run with engine := .running } }) lower sh)

theorem Engine.intake_same {e : Engine} (runs : e.run.engine = .running ∨ e.run.engine = .suspended) {m : Mode}
    (same : e.run.mode = some m) (sh : SharedSection) (armed : Bool) :
    e.intake sh armed m = { e with run := { e.run with engine := .running, pending := none } } :=
  (Engine.intake_running runs sh armed m).trans
    (Engine.intakeRunning_same (e := { e with run := { e.run with engine := .running } }) same sh)

theorem Engine.intake_higher {e : Engine} (runs : e.run.engine = .running ∨ e.run.engine = .suspended) {m : Mode}
    (higher : modeCode7 e.run.mode < modeCode m) (sh : SharedSection) (armed : Bool) :
    e.intake sh armed m = { e with run := { e.run with engine := .running, pending := some m } } :=
  (Engine.intake_running runs sh armed m).trans
    (Engine.intakeRunning_higher (e := { e with run := { e.run with engine := .running } }) higher sh)

theorem Engine.intake_stopped {e : Engine} (stopped : e.run.engine = .complete ∨ e.run.engine = .frozen) (sh : SharedSection)
    (armed : Bool) (m : Mode) : e.intake sh armed m = if e.run.mode = some m then e else e.startMode sh m := by
  unfold Engine.intake
  rcases stopped with h | h <;> simp only [h]

theorem Engine.intake_idle {e : Engine} (idle : e.run.engine = .idle) (sh : SharedSection) (armed : Bool) (m : Mode) :
    e.intake sh armed m =
      if armed = true then ({ e with run := { e.run with setpoint := 0 } } : Engine).startMode sh m else e := by
  unfold Engine.intake
  simp only [idle]

/-- Settles O39: the five cases of a pass end, and the intake by the engine state. -/
theorem passEndsAndModesStartSteps : Obligations.PassEndsAndModesStartSteps := by
  intro sh enter start
  refine ⟨fun r => ⟨fun m pending => RunState.passEnd_pending pending sh, fun pending left => RunState.passEnd_repeat pending left sh,
    fun m pending left mode before => ?_, fun m pending left mode last loop => ?_, fun m pending left mode last once => ?_⟩,
    fun armed m e => ⟨fun running runs mode => ?_, fun stopped => ?_, fun idle => ?_⟩⟩
  · exact (RunState.passEnd_last pending left mode sh).trans (if_pos before)
  · exact (RunState.passEnd_last pending left mode sh).trans ((if_neg (Nat.not_lt.mpr last)).trans (if_pos loop))
  · refine (RunState.passEnd_last pending left mode sh).trans ((if_neg (Nat.not_lt.mpr last)).trans (if_neg ?_))
    exact Bool.eq_false_iff.mp once
  · have code : modeCode7 e.run.mode = modeCode running := congrArg modeCode7 mode
    refine ⟨fun lower => ?_, fun same => ?_, fun higher => ?_⟩
    · exact Engine.intake_lower runs (code ▸ lower) sh armed
    · exact Engine.intake_same runs (same ▸ mode) sh armed
    · exact Engine.intake_higher runs (code ▸ higher) sh armed
  · rw [Engine.intake_stopped stopped]
    exact ⟨fun same => if_pos same, fun other => if_neg other⟩
  · rw [Engine.intake_idle idle]
    exact ⟨fun isArmed => if_pos isArmed, fun notArmed => if_neg (Bool.eq_false_iff.mp notArmed)⟩

/-! ### Readiness (R137) and the timeouts (R126, R127) -/

theorem StepDef.isSyncEnd_iff (st : StepDef) :
    st.isSyncEnd = true ↔
      st.kind = .settle ∨ ((st.kind = .hold ∨ st.kind = .ramp) ∧ st.syncEnd = true)
        ∨ (st.kind = .track ∧ st.duration ≠ 0 ∧ st.syncEnd = true) := by
  unfold StepDef.isSyncEnd
  cases st.kind <;> simp [and_comm]

theorem ownSensor_iff (source : LeanSource) : ownSensor source = true ↔ source = .leanA ∨ source = .leanB := by
  simp [ownSensor]

theorem withinBand_iff (band : Nat) (lean : Option Int) (setpoint : Int) :
    withinBand band lean setpoint = true ↔ ∃ a, lean = some a ∧ (a - setpoint).natAbs ≤ band := by
  cases lean <;> simp [withinBand]

/-- A readiness that is not asked for is given (R137). -/
theorem Engine.formReadiness_free {e : Engine} {sh : SharedSection} {latest : MeasSet}
    (free : ((stepAt sh e.run.step).isSyncEnd && ownSensor latest.leanSource
      && (e.run.engine = .running || e.run.engine = .suspended)) = false) :
    e.formReadiness sh latest = { e with ready := true } :=
  if_neg (Bool.eq_false_iff.mp free)

theorem Engine.formReadiness_asked {e : Engine} {sh : SharedSection} {latest : MeasSet}
    (syncEnd : (stepAt sh e.run.step).isSyncEnd = true) (measured : ownSensor latest.leanSource = true)
    (runs : e.run.engine = .running ∨ e.run.engine = .suspended) {count : Nat}
    (counted : count = if e.run.engine = .suspended then e.readinessCount
      else if withinBand (stepAt sh e.run.step).band latest.ownLean e.run.setpoint = true then min 4 (e.readinessCount + 1)
      else 0) :
    e.formReadiness sh latest = { e with readinessCount := count, ready := decide (4 ≤ count) } := by
  rw [counted]
  refine if_pos ?_
  have run : (e.run.current sh).isSyncEnd = true := syncEnd
  rcases runs with h | h <;> simp [run, measured, h]

/-- The timeout of a RUNNING step (R126, R127). -/
theorem RunState.timeout_eq_some_iff {r : RunState} (running : r.engine = .running) (sh : SharedSection) (inp : EngineInputs)
    (source : Nat) :
    r.timeout sh inp = some source ↔
      ((stepAt sh r.step).kind = .settle ∧ inp.advance = false ∧ (stepAt sh r.step).duration ≤ r.elapsed ∧ source = 0)
        ∨ (((stepAt sh r.step).kind = .hold ∨ (stepAt sh r.step).kind = .ramp) ∧ (stepAt sh r.step).syncEnd = true
            ∧ 65535 ≤ r.elapsed ∧ source = 1)
        ∨ ((stepAt sh r.step).kind = .track ∧ (stepAt sh r.step).duration ≠ 0 ∧ (stepAt sh r.step).syncEnd = true
            ∧ 65535 ≤ r.elapsed ∧ source = 1) := by
  have started : ¬r.engine ≠ .running := not_not.mpr running
  simp only [RunState.timeout, if_neg started]
  rw [show r.current sh = stepAt sh r.step from rfl]
  generalize stepAt sh r.step = st
  cases kind : st.kind <;> simp [StepDef.isSyncEnd, kind, and_assoc, @eq_comm Nat _ source]
  tauto

/-- Settles O40: the timeout as a command, and readiness by the step, the sensor and the engine state. -/
theorem syncEndStepsTimeOutAndAskReadiness : Obligations.SyncEndStepsTimeOutAndAskReadiness := by
  refine ⟨fun x q st source takes agreed running step due => exec_of_effect ?_ q, ?_⟩
  · subst step
    have timeout : x.settleSource = some source := by
      rw [Station.settleSource, if_pos (by simp [takes, agreed])]
      exact (RunState.timeout_eq_some_iff running _ _ source).mpr due
    change x.settleTimeout = _
    unfold Station.settleTimeout
    rw [timeout]
    rfl
  · intro sh latest e st syncEnd measured inBand
    have sync : st.isSyncEnd = true ↔ syncEnd := st.isSyncEnd_iff
    have sensor : ownSensor latest.leanSource = true ↔ measured := ownSensor_iff _
    have band : withinBand st.band latest.ownLean e.run.setpoint = true ↔ inBand := withinBand_iff _ _ _
    refine ⟨fun isSync isMeasured => ⟨fun running within => ?_, fun running outside => ?_, fun suspended => ?_⟩, fun free => ?_⟩
    · have apart : e.run.engine ≠ .suspended := by simp [running]
      rw [Engine.formReadiness_asked (sync.mpr isSync) (sensor.mpr isMeasured) (.inl running)
        ((if_neg apart).trans (if_pos (band.mpr within))).symm]
      have full : 4 ≤ min 4 (e.readinessCount + 1) ↔ 3 ≤ e.readinessCount := by omega
      simp only [full]
    · have apart : e.run.engine ≠ .suspended := by simp [running]
      exact Engine.formReadiness_asked (sync.mpr isSync) (sensor.mpr isMeasured) (.inl running)
        ((if_neg apart).trans (if_neg (mt band.mp outside))).symm
    · exact Engine.formReadiness_asked (sync.mpr isSync) (sensor.mpr isMeasured) (.inr suspended) (if_pos suspended).symm
    · refine Engine.formReadiness_free ?_
      rcases free with free | free | ⟨notRunning, notSuspended⟩
      · rw [Bool.eq_false_iff.mpr (mt sync.mp free), Bool.false_and, Bool.false_and]
      · rw [Bool.eq_false_iff.mpr (mt sensor.mp free), Bool.and_false, Bool.false_and]
      · simp [notRunning, notSuspended]

/-! ### The apply point (R120) -/

/-- What the bit times up to APPLY_AT leave of a station with its apply point to come, PARK_REQ read at it (R120, R181). -/
structure Station.AtApply (x u : Station) (parkReq : Bool) : Prop where
  reached : u = { x.reach x.params.own.applyAt with pins := { x.pins with parkReq := parkReq } }
  bus : u.bus = x.bus.later x.params.own.applyAt
  dropPending : u.member.dropPending = x.member.dropPending
  takes : takesPart u.member.state = takesPart x.member.state

theorem Station.reach_dropPending (s : Station) (p : Nat) : (s.reach p).member.dropPending = s.member.dropPending := by
  have sampled : (s.sampleUntil p).member.dropPending = s.member.dropPending := by rw [s.sampleUntil_member p]
  rcases (s.sampleUntil p).advance_member p with same | lost
  · exact (congrArg (·.dropPending) same).trans sampled
  · exact (congrArg (·.dropPending) lost).trans sampled

theorem Station.applyPoint_due {x : Station} (takes : takesPart x.member.state = true)
    (opened : x.bus.round.opening ≠ .noRound) (waiting : x.bus.round.applied = false)
    (coming : x.bus.position ≤ x.params.own.applyAt) (inside : x.params.own.applyAt ≤ 2480) (parkReq : Bool) :
    ∃ u : Station, x.AtApply u parkReq ∧ effect (.applyPoint parkReq) x = u.applyWork := by
  have due : x.applyDue = true := by simp [Station.applyDue, takes, opened, waiting]
  refine ⟨{ x.reach x.params.own.applyAt with pins := { x.pins with parkReq := parkReq } }, ⟨rfl, ?_, ?_, ?_⟩, ?_⟩
  · have small : x.params.own.applyAt ≤ Config.windowLast := inside.trans (by decide)
    exact congrArg (·.bus) (Station.reach_inside (coming.trans small) small)
  · exact x.reach_dropPending _
  · exact x.reach_takesPart _
  · change x.applyPoint parkReq = _
    rw [Station.applyPoint, if_pos due, Station.atMoment_due _ coming, Station.reach_pins]

namespace Station.AtApply

variable {x u : Station} {parkReq : Bool}

theorem parts (h : x.AtApply u parkReq) :
    u.engine = x.engine ∧ u.params = x.params ∧ u.meas = x.meas ∧ u.peers = x.peers ∧ u.auth = x.auth
      ∧ u.loader = x.loader := by
  rw [h.reached]
  exact ⟨x.reach_engine _, x.reach_params _, x.reach_meas _, x.reach_peers _, x.reach_auth _, x.reach_loader _⟩

theorem held (h : x.AtApply u parkReq) : u.bus.held = x.bus.held := by rw [h.bus]; rfl

theorem applyClass (h : x.AtApply u parkReq) : u.applyClass = x.applyClass := by
  unfold Station.applyClass
  rw [h.bus]
  rfl

theorem state (h : x.AtApply u parkReq) : u.member.state = (x.reach x.params.own.applyAt).member.state := by
  rw [h.reached]

end Station.AtApply

theorem Station.demandLost_engine (s : Station) :
    s.demandLost.engine = if s.demandLostDue = true then { s.engine with demand := 0 } else s.engine := by
  unfold Station.demandLost
  split
  · rw [Station.holdDemandLost_eq]
  · rfl

/-- Stage 1 moves the demand, the last demand and the hold count (R133, R134). -/
theorem Station.formDemand_engine (s : Station) :
    ∃ (demand last : Int) (hold : Nat),
      s.formDemand.engine = { s.engine with demand := demand, lastDemand := last, holdCount := hold } := by
  unfold Station.formDemand
  split
  · exact ⟨_, _, _, rfl⟩
  · dsimp only
    rw [Station.demandLost_engine]
    split
    · exact ⟨_, _, _, rfl⟩
    · exact ⟨_, _, _, rfl⟩

theorem Station.applyWork_engine (s : Station) :
    s.applyWork.engine =
      (s.formDemand.runOrSuspend.engine.clamp s.bus.held.limit).formReadiness s.params.shared s.meas.latest := by
  have work : s.applyWork.engine = s.engineApply.engine := by simp [Station.applyWork]
  rw [work]
  simp [Station.engineApply]

theorem Engine.formReadiness_run (sh : SharedSection) (latest : MeasSet) (e : Engine) :
    (e.formReadiness sh latest).run = e.run := by
  unfold Engine.formReadiness
  dsimp only
  split <;> rfl

theorem Engine.formReadiness_keeps (sh : SharedSection) (latest : MeasSet) (e : Engine) :
    (e.formReadiness sh latest).demand = e.demand ∧ (e.formReadiness sh latest).lastDemand = e.lastDemand
      ∧ (e.formReadiness sh latest).holdCount = e.holdCount := by
  unfold Engine.formReadiness
  dsimp only
  split <;> exact ⟨rfl, rfl, rfl⟩

theorem Station.formDemand_applyClass (s : Station) : s.formDemand.applyClass = s.applyClass := by
  obtain ⟨-, -, -, bus, -⟩ := s.formDemand_frame
  simp only [Station.applyClass, bus]

theorem Station.runOrSuspend_unagreed {s : Station} (keeps : s.member.dropPending = false) (unagreed : s.applyClass ≠ .agreed) :
    s.runOrSuspend = { s with engine := s.engine.suspend } :=
  (if_neg (by rw [keeps]; exact Bool.false_ne_true)).trans (if_neg unagreed)

theorem Station.runOrSuspend_agreed {s : Station} (keeps : s.member.dropPending = false) (agreed : s.applyClass = .agreed) :
    s.runOrSuspend = s.runAgreed :=
  (if_neg (by rw [keeps]; exact Bool.false_ne_true)).trans (if_pos agreed)

/-- Settles O37: the suspend, and the clamp of R122. -/
theorem unagreedRoundSuspends : Obligations.UnagreedRoundSuspends := by
  intro x q parkReq takes opened waiting coming inside unagreed keeps
  obtain ⟨u, at_apply, work⟩ := Station.applyPoint_due takes opened waiting coming inside parkReq
  obtain ⟨engine, -⟩ := at_apply.parts
  obtain ⟨demand, last, hold, formed⟩ := u.formDemand_engine
  obtain ⟨-, -, -, -, member, -⟩ := u.formDemand_frame
  have suspended : u.formDemand.runOrSuspend = { u.formDemand with engine := u.formDemand.engine.suspend } :=
    Station.runOrSuspend_unagreed (by rw [member, at_apply.dropPending, keeps])
      (by rwa [u.formDemand_applyClass, at_apply.applyClass])
  refine exec_effect (Q := fun y => _) ?_ q
  rw [work, Station.applyWork_engine, Engine.formReadiness_run, suspended, formed, at_apply.held, engine]
  unfold Engine.suspend Engine.clamp clampSetpoint saturate
  by_cases running : x.engine.run.engine = .running
  · simp only [running, if_true]
    congr 1
    split <;> split <;> omega
  · simp only [running, if_false]
    congr 1
    split <;> split <;> omega

/-! ### An agreed round (R121 to R129) -/

/-- A RUNNING step's move and its count (R121, R123 to R128, Table 8-3). -/
def RunState.stepped (sh : SharedSection) (inp : EngineInputs) (r : RunState) : RunState :=
  { r with
    setpoint := r.movedSetpoint sh inp
    elapsed := if (r.current sh).counts = true then succSat 65535 r.elapsed else r.elapsed }

theorem Engine.runToCount_eq (sh : SharedSection) (armed : Bool) (inp : EngineInputs) (e : Engine) :
    e.runToCount sh armed inp =
      if (e.intake sh armed inp.mode).run.engine = .running then
        { e.intake sh armed inp.mode with run := (e.intake sh armed inp.mode).run.stepped sh inp }
      else e.intake sh armed inp.mode := by
  unfold Engine.runToCount
  generalize e.intake sh armed inp.mode = taken
  by_cases running : taken.run.engine = .running
  · have moved : taken.move sh inp = { taken with run := { taken.run with setpoint := taken.run.movedSetpoint sh inp } } :=
      if_pos running
    rw [moved, if_pos running]
    unfold Engine.countElapsed RunState.stepped
    by_cases counts : (taken.run.current sh).counts = true
    · rw [if_pos counts]
      exact if_pos (Bool.and_eq_true_iff.mpr ⟨decide_eq_true running, counts⟩)
    · rw [if_neg counts]
      exact if_neg fun both => counts (Bool.and_eq_true_iff.mp both).2
  · have still : taken.move sh inp = taken := if_neg running
    rw [still, if_neg running]
    exact if_neg (by simp [running])

theorem Engine.intakeRunning_parts (sh : SharedSection) (m : Mode) (e : Engine) :
    ∃ (r : RunState) (n : Nat), e.intakeRunning sh m = { e with run := r, readinessCount := n } := by
  unfold Engine.intakeRunning
  (repeat' split) <;> exact ⟨_, _, rfl⟩

theorem Engine.intake_parts (sh : SharedSection) (armed : Bool) (m : Mode) (e : Engine) :
    ∃ (r : RunState) (n : Nat), e.intake sh armed m = { e with run := r, readinessCount := n } := by
  unfold Engine.intake
  split
  · exact Engine.intakeRunning_parts sh m e
  · exact Engine.intakeRunning_parts sh m { e with run := { e.run with engine := .running } }
  all_goals split <;> exact ⟨_, _, rfl⟩

theorem RunState.timeout_running {r : RunState} {sh : SharedSection} {inp : EngineInputs} {source : Nat}
    (due : r.timeout sh inp = some source) : r.engine = .running := by
  by_contra other
  simp [RunState.timeout, other] at due

/-- The step ends by itself or by a timeout, told apart by the raise alone (R126, R127, R129). -/
theorem Station.runAgreed_engine {s : Station} (takes : takesPart s.member.state = true) (agreed : s.applyClass = .agreed) :
    s.runAgreed.engine =
        (s.engine.runToCount s.params.shared s.armed s.engineInputs).checkEnd s.params.shared s.engineInputs
      ∧ ∀ source, (s.engine.runToCount s.params.shared s.armed s.engineInputs).run.timeout s.params.shared s.engineInputs
          = some source → s.runAgreed.cond.told { code := .settleTimeout, source := source } := by
  have demand : (s.engine.runToCount s.params.shared s.armed s.engineInputs).demand = s.engine.demand := by
    obtain ⟨r, n, taken⟩ := s.engine.intake_parts s.params.shared s.armed s.engineInputs.mode
    rw [Engine.runToCount_eq, taken]
    split <;> rfl
  unfold Station.runAgreed
  dsimp only
  generalize s.engine.runToCount s.params.shared s.armed s.engineInputs = e at demand
  have inputs : ({ s with engine := e } : Station).engineInputs = s.engineInputs := by
    unfold Station.engineInputs
    dsimp only
    rw [demand]
    rfl
  have source : ({ s with engine := e } : Station).settleSource = e.run.timeout s.params.shared s.engineInputs := by
    rw [← inputs]
    exact if_pos (by simp only [takes, Bool.true_and]; exact decide_eq_true agreed)
  rw [inputs]
  cases due : e.run.timeout s.params.shared s.engineInputs with
  | none =>
    rw [source, due, if_neg (by simp)]
    exact ⟨rfl, fun _ some => by cases some⟩
  | some source' =>
    have told : ({ s with engine := e } : Station).settleTimeout =
        ({ s with engine := e.passEnd s.params.shared } : Station).raise .settleTimeout source' := by
      unfold Station.settleTimeout
      rw [source, due]
    rw [source, due, if_pos (by simp), told]
    refine ⟨?_, fun _ some => ?_⟩
    · refine (if_pos ?_).symm
      simp [RunState.timeout_running due, due]
    · cases some
      exact Station.told_raise _ _ _

/-- The keys that the group's work at the apply point sets. -/
def isAuthorityKey (k : CondKey) : Prop :=
  k.code = .authGiveup ∨ k.code = .tiltSole ∨ k.code = .tiltVacant ∨ k.code = .steerVacant

/-- Past the engine's part, the apply point sets conditions of the groups alone. -/
theorem Station.follows_applyWork (s : Station) :
    ConditionUnit.Follows isAuthorityKey s.formDemand.runOrSuspend.cond s.applyWork.cond := by
  have ramped := s.engineApply.follows_rampStep (touched := isAuthorityKey) fun _ => .inl rfl
  have held := s.engineApply.rampStep.follows_groupConds (touched := isAuthorityKey) (.inr (.inl rfl)) (.inr (.inr (.inl rfl)))
    (.inr (.inr (.inr rfl)))
  have steps := s.engineApply.rampStep.groupConds.countAuthority.driveApply.follows_propose (touched := isAuthorityKey)
    s.engineApply.rampStep.groupConds.claimCode
  refine (ramped.trans held).trans ?_
  have same : s.engineApply.rampStep.groupConds.countAuthority.driveApply.cond = s.engineApply.rampStep.groupConds.cond := by
    simp
  exact same ▸ steps

theorem RunState.endsNormally_iff (r : RunState) (sh : SharedSection) (inp : EngineInputs) :
    r.endsNormally sh inp = true ↔
      ((stepAt sh r.step).kind = .hold ∧ (stepAt sh r.step).duration ≤ r.elapsed
          ∧ ((stepAt sh r.step).syncEnd = false ∨ inp.advance = true))
        ∨ ((stepAt sh r.step).kind = .ramp ∧ (r.setpoint = r.target sh inp.limit ∨ 65535 ≤ r.elapsed)
          ∧ ((stepAt sh r.step).syncEnd = false ∨ inp.advance = true))
        ∨ ((stepAt sh r.step).kind = .track ∧ (stepAt sh r.step).duration ≠ 0 ∧ (stepAt sh r.step).duration ≤ r.elapsed
          ∧ ((stepAt sh r.step).syncEnd = false ∨ inp.advance = true))
        ∨ ((stepAt sh r.step).kind = .settle ∧ inp.advance = true) := by
  unfold RunState.endsNormally RunState.ownEnd
  rw [show r.current sh = stepAt sh r.step from rfl]
  generalize stepAt sh r.step = st
  cases kind : st.kind <;> simp [StepDef.isSyncEnd, kind, and_assoc]
  tauto

theorem StepDef.counts_iff (st : StepDef) : st.counts = true ↔ st.kind ≠ .freeze ∧ ¬(st.kind = .track ∧ st.duration = 0) := by
  unfold StepDef.counts
  cases st.kind <;> simp

theorem Station.armed_iff (s : Station) :
    s.armed = true ↔
      s.member.state = .member ∨ s.member.state = .halted
        ∨ ((s.member.state = .join ∨ s.member.state = .quiet) ∧ s.engine.run.adopted = true) := by
  unfold Station.armed
  cases s.member.state <;> simp

/-- A step that ends is followed by its pass end, any other stays (R129). -/
theorem Engine.checkEnd_of {e : Engine} {sh : SharedSection} {inp : EngineInputs} (running : e.run.engine = .running)
    {ends : Prop} (iff : ends ↔ e.run.endsNormally sh inp = true ∨ (e.run.timeout sh inp).isSome = true) :
    (¬ends → e.checkEnd sh inp = e) ∧ (ends → e.checkEnd sh inp = e.passEnd sh) := by
  unfold Engine.checkEnd
  rw [iff]
  refine ⟨fun not => if_neg fun both => not ?_, fun either => if_pos ?_⟩
  · exact Bool.or_eq_true_iff.mp (Bool.and_eq_true_iff.mp both).2
  · exact Bool.and_eq_true_iff.mpr ⟨decide_eq_true running, Bool.or_eq_true_iff.mpr either⟩

/-- What the apply point of an agreed round makes of the engine, before the clamp and readiness (R121). -/
theorem Station.applyWork_agreed {x u : Station} {parkReq : Bool} (h : x.AtApply u parkReq)
    (takes : takesPart x.member.state = true) (agreed : x.applyClass = .agreed) (keeps : x.member.dropPending = false) :
    ∃ (e : Engine) (inp : EngineInputs) (armed : Bool) (demand last : Int) (hold : Nat),
      e = { x.engine with demand := demand, lastDemand := last, holdCount := hold }
        ∧ inp = { roundClass := .agreed, mode := x.bus.held.mode, limit := x.bus.held.limit, advance := x.bus.held.advance,
                  demand := demand }
        ∧ (armed = true ↔ u.member.state = .member ∨ u.member.state = .halted
            ∨ ((u.member.state = .join ∨ u.member.state = .quiet) ∧ x.engine.run.adopted = true))
        ∧ u.applyWork.engine =
            (((e.runToCount x.params.shared armed inp).checkEnd x.params.shared inp).clamp x.bus.held.limit).formReadiness
              x.params.shared x.meas.latest
        ∧ ∀ source, (e.runToCount x.params.shared armed inp).run.timeout x.params.shared inp = some source →
            u.applyWork.cond.told { code := .settleTimeout, source := source } := by
  obtain ⟨engine, params, meas, -⟩ := h.parts
  obtain ⟨demand, last, hold, formed⟩ := u.formDemand_engine
  obtain ⟨-, -, sameParams, sameBus, member, -⟩ := u.formDemand_frame
  have class_ : u.formDemand.applyClass = .agreed := by rw [u.formDemand_applyClass, h.applyClass, agreed]
  have runs : u.formDemand.runOrSuspend = u.formDemand.runAgreed :=
    Station.runOrSuspend_agreed (by rw [member, h.dropPending, keeps]) class_
  have run := Station.runAgreed_engine (s := u.formDemand) (by rw [member, h.takes, takes]) class_
  have inputs : u.formDemand.engineInputs =
      { roundClass := .agreed, mode := x.bus.held.mode, limit := x.bus.held.limit, advance := x.bus.held.advance,
        demand := demand } := by
    unfold Station.engineInputs
    rw [class_, sameBus, h.held, formed]
  rw [sameParams, params, inputs, formed, engine] at run
  refine ⟨_, _, u.formDemand.armed, demand, last, hold, rfl, rfl, ?_, ?_, fun source due => ?_⟩
  · rw [Station.armed_iff, member, formed, engine]
  · rw [Station.applyWork_engine, runs, run.1, h.held, params, meas]
  · refine u.follows_applyWork.told _ ?_
    rw [runs]
    exact run.2 source due

/-- Settles O38: the intake by the engine state, and the move, the end and its successor by the step. -/
theorem runningStepsMove : Obligations.RunningStepsMove := by
  intro x q parkReq takes opened waiting coming inside agreed keeps sh held run t armed bound enter start
  obtain ⟨u, at_apply, work⟩ := Station.applyPoint_due takes opened waiting coming inside parkReq
  obtain ⟨e, inp, isArmed, demand, last, hold, formed, inputs, armed_iff, engine, told⟩ :=
    Station.applyWork_agreed at_apply takes agreed keeps
  have is_armed : isArmed = true ↔ armed := by rw [armed_iff, at_apply.state]
  have same_run : e.run = run := by rw [formed]
  have same_count : e.readinessCount = x.engine.readinessCount := by rw [formed]
  have mode : inp.mode = held.mode := by rw [inputs]
  obtain ⟨taken, count, intake⟩ := e.intake_parts sh isArmed inp.mode
  have stepped := Engine.runToCount_eq sh isArmed inp e
  rw [intake] at stepped
  dsimp only at stepped
  have becomes : ∀ (r : RunState) (n : Nat),
      (e.runToCount sh isArmed inp).checkEnd sh inp = { e with run := r, readinessCount := n } →
      u.applyWork.engine =
        Engine.formReadiness sh x.meas.latest
          { x.engine with
            run := { r with setpoint := bound r.setpoint }, readinessCount := n, demand := u.applyWork.engine.demand
            lastDemand := u.applyWork.engine.lastDemand, holdCount := u.applyWork.engine.holdCount } := fun r n is => by
    have result := engine
    rw [is] at result
    obtain ⟨sameDemand, sameLast, sameHold⟩ := Engine.formReadiness_keeps sh x.meas.latest
      (Engine.clamp x.bus.held.limit { e with run := r, readinessCount := n })
    rw [← result] at sameDemand sameLast sameHold
    rw [sameDemand, sameLast, sameHold, result, formed]
    rfl
  have moved_demand : u.applyWork.engine.demand = inp.demand := by
    obtain ⟨r, n, is⟩ : ∃ r n, (e.runToCount sh isArmed inp).checkEnd sh inp = { e with run := r, readinessCount := n } := by
      rw [stepped]
      unfold Engine.checkEnd Engine.passEnd
      split <;> split <;> exact ⟨_, _, rfl⟩
    rw [engine, is, (Engine.formReadiness_keeps _ _ _).1, inputs, formed]
    rfl
  have tells : ∀ source, (e.runToCount sh isArmed inp).run.timeout sh inp = some source →
      u.applyWork.cond.told { code := .settleTimeout, source := source } := told
  have limit : inp.limit = held.limit := by rw [inputs]
  have advance : inp.advance = held.advance := by rw [inputs]
  clear_value sh held run armed
  refine ⟨u.applyWork, taken, taken.stepped sh inp, count, by rw [← work]; rfl, ?_, ?_⟩
  · intro starts keeps
    have reads : ∀ r n, e.intake sh isArmed inp.mode = { e with run := r, readinessCount := n } → taken = r ∧ count = n :=
      fun r n is => by
        have same := intake.symm.trans is
        exact ⟨congrArg (·.run) same, congrArg (·.readinessCount) same⟩
    have reads_kept : ∀ r, e.intake sh isArmed inp.mode = { e with run := r } → keeps r := fun r is =>
      ⟨(reads r _ is).1, (reads r _ is).2.trans same_count⟩
    rw [mode, ← same_run] at *
    refine ⟨fun idle is => reads _ _ ?_, fun idle not => reads_kept _ ?_, fun stopped same => reads_kept _ ?_,
      fun stopped other => reads _ _ ?_, fun runs => ⟨fun lower => reads _ _ ?_, fun same => reads_kept _ ?_,
        fun higher => reads_kept _ ?_⟩⟩
    · exact (Engine.intake_idle idle sh _ _).trans (if_pos (is_armed.mpr is))
    · exact (Engine.intake_idle idle sh _ _).trans (if_neg (mt is_armed.mp not))
    · exact (Engine.intake_stopped stopped sh _ _).trans (if_pos same)
    · exact (Engine.intake_stopped stopped sh _ _).trans (if_neg other)
    · exact Engine.intake_lower runs lower sh isArmed
    · exact Engine.intake_same runs same sh isArmed
    · exact Engine.intake_higher runs higher sh isArmed
  · intro becomes' st target toward counts told'
    refine ⟨fun stays => becomes _ _ ?_, fun running => ?_⟩
    · rw [stepped, if_neg stays]
      exact if_neg (by simp [stays])
    · rw [if_pos running] at stepped
      have moved_running : (taken.stepped sh inp).engine = .running := running
      have target_eq : taken.target sh inp.limit = target := by rw [limit]; rfl
      have kinds : ∀ kind, st.kind = kind → (taken.stepped sh inp).setpoint =
          match kind with
          | .hold | .ramp => toward target
          | .track => toward u.applyWork.engine.demand
          | .settle => target
          | .freeze => taken.setpoint := fun kind is => by
        rw [← target_eq, moved_demand, ← is]
        rfl
      have elapsed : (taken.stepped sh inp).elapsed =
          if st.counts = true then min 65535 (taken.elapsed + 1) else taken.elapsed := rfl
      have counts_iff : st.counts = true ↔ counts := st.counts_iff
      have after : ∀ r n, (e.runToCount sh isArmed inp).checkEnd sh inp = { e with run := r, readinessCount := n } →
          becomes' r n := becomes
      have shape : taken.stepped sh inp =
          { taken with setpoint := (taken.stepped sh inp).setpoint, elapsed := (taken.stepped sh inp).elapsed } := rfl
      have step : stepAt sh (taken.stepped sh inp).step = st := rfl
      have moved_target : (taken.stepped sh inp).target sh inp.limit = target := target_eq
      generalize taken.stepped sh inp = moved at *
      clear_value target toward
      refine ⟨shape, fun is => ?_, fun is => kinds _ is, fun is => kinds _ is, fun is => kinds _ is,
        fun is => elapsed.trans (if_pos (counts_iff.mpr is)), fun not => elapsed.trans (if_neg (mt counts_iff.mp not)), ?_⟩
      · rcases is with is | is <;> exact kinds _ is
      · intro ready unready overdue ends
        have run_moved : (e.runToCount sh isArmed inp).run = moved := by rw [stepped]
        have unready_iff : unready ↔ moved.timeout sh inp = some 0 := by
          rw [RunState.timeout_eq_some_iff moved_running, step, advance]
          simp [unready]
        have overdue_iff : overdue ↔ moved.timeout sh inp = some 1 := by
          rw [RunState.timeout_eq_some_iff moved_running, step]
          simp only [overdue]
          clear * -
          simp
          tauto
        have timeout_iff : unready ∨ overdue ↔ (moved.timeout sh inp).isSome = true := by
          rw [unready_iff, overdue_iff, Option.isSome_iff_exists]
          refine ⟨fun either => either.elim (⟨_, ·⟩) (⟨_, ·⟩), fun ⟨source, due⟩ => ?_⟩
          rcases (RunState.timeout_eq_some_iff moved_running sh inp source).mp due with
            ⟨-, -, -, rfl⟩ | ⟨-, -, -, rfl⟩ | ⟨-, -, -, -, rfl⟩
          · exact .inl due
          · exact .inr due
          · exact .inr due
        have ends_iff : ends ↔ moved.endsNormally sh inp = true ∨ (moved.timeout sh inp).isSome = true := by
          rw [← timeout_iff, RunState.endsNormally_iff, step, moved_target, advance]
          simp only [ends, ready, or_assoc]
        obtain ⟨stays, passes⟩ := Engine.checkEnd_of (e := e.runToCount sh isArmed inp) (by rw [run_moved]; exact moved_running)
          (run_moved.symm ▸ ends_iff)
        have follows : ∀ r, ends → moved.passEnd sh = r → becomes' r 0 := fun r is result =>
          after r 0 ((passes is).trans (by rw [stepped, ← result]; rfl))
        have pass_last : ∀ m, moved.pending = none → moved.repeatLeft = 0 → moved.mode = some m → moved.passEnd sh = _ :=
          fun m pending left mode => RunState.passEnd_last pending left mode sh
        refine ⟨fun not => after _ _ ((stays not).trans stepped), fun is => tells 0 ?_, fun is => tells 1 ?_,
          fun m is pending => follows _ is (RunState.passEnd_pending pending sh),
          fun is pending left => follows _ is ((RunState.passEnd_repeat pending left sh).trans (by rw [step])),
          fun m is pending left mode => ⟨fun before => follows _ is ?_, fun last loop => follows _ is ?_,
            fun last once => follows _ is ?_⟩⟩
        · exact (congrArg (·.timeout sh inp) run_moved).trans (unready_iff.mp is)
        · exact (congrArg (·.timeout sh inp) run_moved).trans (overdue_iff.mp is)
        · exact (pass_last m pending left mode).trans (if_pos before)
        · exact (pass_last m pending left mode).trans ((if_neg (Nat.not_lt.mpr last)).trans (if_pos loop))
        · exact (pass_last m pending left mode).trans
            ((if_neg (Nat.not_lt.mpr last)).trans (if_neg (Bool.eq_false_iff.mp once)))

end Sys2Proof.Machine
end

