-- ==== Sys2Proof/Proofs/PinRules.lean ====
section
/-! The sample points of DISABLE and DRV_FLT (R72, R161, R162). -/

namespace Sys2Proof.Machine

/-! ### What a sample point does -/

theorem Station.seeDisable_asserted (s : Station) :
    s.seeDisable true =
      { s with
        member :=
          { s.member with disableSeen := true, state := if s.member.state = .member then .halted else s.member.state }
        drive := s.drive.enterOff
        cond := holdCond s.cond { code := .haltInput, source := 0 } 3 } := by
  unfold Station.seeDisable Station.driveOff
  by_cases member : s.member.state = .member
  · simp [member, Station.setHeld, setCond, condLevel]
  · simp [member, Station.setHeld, setCond, condLevel]

theorem Station.seeDisable_released (s : Station) :
    s.seeDisable false =
      { s with
        member :=
          { s.member with disableSeen := false, state := if s.member.state = .halted then .member else s.member.state }
        cond := removeCond s.cond { code := .haltInput, source := 0 } } := by
  unfold Station.seeDisable
  by_cases halted : s.member.state = .halted
  · simp [halted, Station.setHeld, setCond]
  · simp [halted, Station.setHeld, setCond]

theorem Station.seeDrvFlt_asserted {s : Station} (drives : isDriveRole s.params.role = true) :
    s.seeDrvFlt true =
      { s with
        drive := { s.drive.enterOff with fltSeen := true }, cond := holdCond s.cond { code := .driveFault, source := 0 } 2 } := by
  unfold Station.seeDrvFlt
  rw [if_pos drives]
  rfl

theorem Station.seeDrvFlt_released {s : Station} (drives : isDriveRole s.params.role = true) :
    s.seeDrvFlt false =
      { s with
        drive := { s.drive with fltSeen := false }, cond := removeCond s.cond { code := .driveFault, source := 0 } } := by
  unfold Station.seeDrvFlt
  rw [if_pos drives]
  rfl

theorem Station.seeDrvFlt_other {s : Station} (other : isDriveRole s.params.role = false) (level : Bool) :
    s.seeDrvFlt level = s := if_neg (Bool.eq_false_iff.mp other)

theorem readsPins_of {state : StationState} (load : state ≠ .load) (fault : state ≠ .configFault) : readsPins state = true := by
  revert load fault
  cases state <;> decide

/-- The bit times up to a position to come read the pins (R72). -/
theorem Station.sampleUntil_coming {s : Station} (reads : readsPins s.member.state = true) {p : Nat} (coming : s.bus.position < p) :
    s.sampleUntil p = (s.seeDisable s.pins.disable).seeDrvFlt s.pins.drvFlt := (if_pos coming).trans (if_pos reads)

theorem Station.advance_disableSeen (s : Station) (p : Nat) : (s.advance p).member.disableSeen = s.member.disableSeen := by
  rcases s.advance_member p with same | lost
  · rw [same]
  · rw [lost]

theorem Station.changeDisable_unseen (s : Station) (level : Bool) :
    s.changeDisable level false = { s with pins := { s.pins with disable := level } } := by
  unfold Station.changeDisable
  simp

theorem Station.changeDisable_seen {s : Station} (reads : readsPins s.member.state = true) (level : Bool) :
    s.changeDisable level true = ({ s with pins := { s.pins with disable := level } } : Station).seeDisable level := by
  unfold Station.changeDisable
  exact if_pos (by simpa using reads)

theorem Station.changeDrvFlt_unseen (s : Station) (level : Bool) :
    s.changeDrvFlt level false = { s with pins := { s.pins with drvFlt := level } } := by
  unfold Station.changeDrvFlt
  simp

theorem Station.changeDrvFlt_seen {s : Station} (reads : readsPins s.member.state = true) (level : Bool) :
    s.changeDrvFlt level true = ({ s with pins := { s.pins with drvFlt := level } } : Station).seeDrvFlt level := by
  unfold Station.changeDrvFlt
  exact if_pos (by simpa using reads)

/-- The conditions a sample point sets: each follows its pin, and DRIVE_FAULT on a drive role alone (R72, R161). -/
theorem Station.seePins_held {s : Station} (sound : s.cond.tableSound) (disable drvFlt : Bool) :
    isHeld ((s.seeDisable disable).seeDrvFlt drvFlt).cond { code := .haltInput, source := 0 } = disable
      ∧ (isDriveRole s.params.role = true →
          isHeld ((s.seeDisable disable).seeDrvFlt drvFlt).cond { code := .driveFault, source := 0 } = drvFlt) := by
  have first : (s.seeDisable disable).cond = setCond s.cond disable { code := .haltInput, source := 0 } 3 := by
    cases disable
    · rw [Station.seeDisable_released]; rfl
    · rw [Station.seeDisable_asserted]; rfl
  have sound' : (s.seeDisable disable).cond.tableSound := first ▸ setCond_tableSound sound disable _ _
  have halt : isHeld (s.seeDisable disable).cond { code := .haltInput, source := 0 } = disable := by
    rw [first, isHeld_setCond sound.keysOnce disable 3 rfl, if_pos rfl]
  have role : (s.seeDisable disable).params = s.params := by simp
  by_cases drives : isDriveRole s.params.role = true
  · have second : ((s.seeDisable disable).seeDrvFlt drvFlt).cond =
        setCond (s.seeDisable disable).cond drvFlt { code := .driveFault, source := 0 } 2 := by
      cases drvFlt
      · rw [Station.seeDrvFlt_released (by rw [role]; exact drives)]; rfl
      · rw [Station.seeDrvFlt_asserted (by rw [role]; exact drives)]; rfl
    rw [second, isHeld_setCond sound'.keysOnce drvFlt 2 rfl, isHeld_setCond sound'.keysOnce drvFlt 2 rfl]
    exact ⟨(if_neg (by decide)).trans halt, fun _ => if_pos rfl⟩
  · rw [Station.seeDrvFlt_other (by rw [role]; exact Bool.eq_false_iff.mpr drives)]
    exact ⟨halt, fun is => absurd is drives⟩

/-- What reading both pins makes of the drive (R161). -/
theorem Station.seePins_drive {s : Station} (drives : isDriveRole s.params.role = true) (disable drvFlt : Bool) :
    ((s.seeDisable disable).seeDrvFlt drvFlt).drive =
      { (if disable || drvFlt then s.drive.enterOff else s.drive) with fltSeen := drvFlt } := by
  have role : isDriveRole (s.seeDisable disable).params.role = true := by simpa using drives
  have first : (s.seeDisable disable).drive = if disable then s.drive.enterOff else s.drive := by
    cases disable
    · rw [Station.seeDisable_released]; rfl
    · rw [Station.seeDisable_asserted]; rfl
  cases drvFlt
  · rw [Station.seeDrvFlt_released role]
    cases disable <;> simp [first]
  · rw [Station.seeDrvFlt_asserted role]
    cases disable <;> simp [first, Drive.enterOff]

theorem Station.drvEn_iff (s : Station) :
    s.drvEn = true ↔
      (s.drive.output = .rampUp ∨ s.drive.output = .active ∨ s.drive.output = .rampDown)
        ∧ s.member.state = .member ∧ s.pins.disable = false ∧ s.pins.drvFlt = false := by
  unfold Station.drvEn
  simp [and_assoc, or_assoc]

/-- Settles O46: the pin alone, the sample point, and the sample points of the bit times on the way. -/
theorem disableHalts : Obligations.DisableHalts := by
  intro x q pin
  refine ⟨exec_of_effect (c := .disableAsserted false) (x.changeDisable_unseen true) q, exec_of_effect (c := .disableReleased false) (x.changeDisable_unseen false) q, ?_, ?_, x.drvEn_iff,
    fun load fault => ?_⟩
  · simp [pin, Station.drvEn]
  · simp [pin, Station.lrelOut]
  have reads := readsPins_of load fault
  refine ⟨exec_of_effect (c := .disableAsserted true) ((Station.changeDisable_seen reads true).trans (Station.seeDisable_asserted _)) q,
    exec_of_effect (c := .disableReleased true) ((Station.changeDisable_seen reads false).trans (Station.seeDisable_released _)) q, fun p coming => ?_⟩
  have sampled : x.sampleUntil p = (x.seeDisable x.pins.disable).seeDrvFlt x.pins.drvFlt :=
    Station.sampleUntil_coming reads coming
  have member : (x.sampleUntil p).member = (x.seeDisable x.pins.disable).member := by
    rw [sampled]
    simp
  refine ⟨?_, fun asserted => ⟨?_, ?_⟩, fun released => ?_, fun sound => ?_⟩
  · refine ((x.sampleUntil p).advance_disableSeen p).trans ?_
    rw [member]
    cases x.pins.disable
    · rw [Station.seeDisable_released]
    · rw [Station.seeDisable_asserted]
  · rw [Station.reach_state, member, asserted, Station.seeDisable_asserted]
  · rw [Station.reach_drive, sampled, asserted]
    generalize off : x.seeDisable true = t
    rw [Station.seeDisable_asserted] at off
    have drive : t.drive = x.drive.enterOff := by rw [← off]
    by_cases drives : isDriveRole t.params.role = true
    · cases x.pins.drvFlt
      · rw [Station.seeDrvFlt_released drives, drive]
        exact ⟨rfl, rfl, rfl⟩
      · rw [Station.seeDrvFlt_asserted drives, drive]
        exact ⟨rfl, rfl, rfl⟩
    · rw [Station.seeDrvFlt_other (Bool.eq_false_iff.mpr drives), drive]
      exact ⟨rfl, rfl, rfl⟩
  · rw [Station.reach_state, member, released, Station.seeDisable_released]
  · rw [Station.reach_cond, sampled]
    exact (Station.seePins_held sound _ _).1

/-- Settles O47: the pin alone, the sample point, and the sample points of the bit times on the way. -/
theorem driveFaultCutsTheDrive : Obligations.DriveFaultCutsTheDrive := by
  intro x q pin off
  refine ⟨exec_of_effect (c := .drvFltAsserted false) (x.changeDrvFlt_unseen true) q, exec_of_effect (c := .drvFltReleased false) (x.changeDrvFlt_unseen false) q, ?_, ?_,
    fun other => exec_of_effect ?_ q, fun load fault drives => ?_⟩
  · simp [pin, Station.drvEn]
  · simp [pin, Station.lrelOut]
  · change x.changeDrvFlt true true = pin true
    unfold Station.changeDrvFlt
    dsimp only
    split
    · exact Station.seeDrvFlt_other (s := pin true) other true
    · rfl
  · have reads := readsPins_of load fault
    refine ⟨exec_of_effect (c := .drvFltAsserted true) ((Station.changeDrvFlt_seen reads true).trans (Station.seeDrvFlt_asserted (s := pin true) drives)) q,
      exec_of_effect (c := .drvFltReleased true) ((Station.changeDrvFlt_seen reads false).trans (Station.seeDrvFlt_released (s := pin false) drives)) q,
      fun p coming => ⟨?_, fun sound => ?_⟩⟩
    · rw [Station.reach_drive, Station.sampleUntil_coming reads coming]
      exact Station.seePins_drive drives _ _
    · rw [Station.reach_cond, Station.sampleUntil_coming reads coming]
      exact (Station.seePins_held sound _ _).2 drives

end Sys2Proof.Machine
end

