-- ==== Sys2Proof/Proofs/TallyRules.lean ====
section
/-! The tally: what the wire gives, the handover, and what it makes of the station (R16, R26 to R38, R59, R67, R75, R167). -/

namespace Sys2Proof.Machine

/-! ### What the wire gives (R26 to R35) -/

theorem inSet_bitmapOf (v : Nat) (k : StationNo) : inSet (bitmapOf v) k = !v.testBit k.val := by
  have small := k.isLt
  simp only [inSet, bitmapOf, BitVec.getLsbD_not, BitVec.getLsbD_ofNat, small, decide_true, Bool.true_and]

/-- Two sets with the same stations are the same. -/
theorem stationSet_ext {S T : StationSet} (h : ∀ k : StationNo, inSet S k = inSet T k) : S = T :=
  BitVec.eq_of_getLsbD_eq fun i hi => h ⟨i, hi⟩

theorem inSet_single (own k : StationNo) : inSet (1#8 <<< own.val) k = decide (k = own) := by
  revert own k
  decide

/-- Bit `i` of a tally field, counted from its first position, is what the wire reads there. -/
theorem testBit_tallyField (wire : BitVec 70) (position w i : Nat) (hi : i < w) (first : 10 ≤ position)
    (last : position + w ≤ 80) :
    (tallyField wire position w).testBit (w - 1 - i) = wire.getMsbD (position - 10 + i) := by
  unfold tallyField
  rw [show Config.tallyStart = 10 from rfl, testBit_fieldOf 70 wire (position - 10) w i hi (by omega)]

theorem tallyField_lt (wire : BitVec 70) (position w : Nat) : tallyField wire position w < 2 ^ w :=
  Nat.mod_lt _ (Nat.two_pow_pos w)

/-- A bitmap field holds the stations whose bits read dominant, station 7's bit first (R26). -/
theorem inSet_bitmap (wire : BitVec 70) (position : Nat) (first : 10 ≤ position) (last : position + 8 ≤ 80) (k : StationNo) :
    inSet (bitmapOf (tallyField wire position 8)) k = !wire.getMsbD (position - 10 + (7 - k.val)) := by
  have small := k.isLt
  rw [inSet_bitmapOf, ← testBit_tallyField wire position 8 (7 - k.val) (by omega) first last]
  rw [show 8 - 1 - (7 - k.val) = k.val by omega]

theorem inSet_and (S T : StationSet) (k : StationNo) : inSet (S &&& T) k = (inSet S k && inSet T k) := BitVec.getLsbD_and

theorem inSet_not (S : StationSet) (k : StationNo) : inSet (~~~S) k = !inSet S k := by
  simp [inSet]

theorem modeOutcome_of_le {v : Nat} (small : v ≤ 4) : modeCode (modeOutcome v) = v := by
  interval_cases v <;> rfl

theorem modeOutcome_of_lt {v : Nat} (large : 4 < v) : modeOutcome v = .park := by
  obtain ⟨n, rfl⟩ : ∃ n, v = n + 5 := ⟨v - 5, by omega⟩
  rfl

theorem claimOutcome_some {v : Nat} {c : Claim} (h : claimOutcome v = some c) :
    c.urgency ≤ 2 ∧ v = 32 * groupCode c.group + 8 * c.urgency + c.station.val := by
  unfold claimOutcome at h
  split at h
  · cases h
    simp only [groupCode, Fin.val_ofNat]
    omega
  · split at h
    · cases h
      simp only [groupCode, Fin.val_ofNat]
      omega
    · cases h

theorem claimOutcome_none {v : Nat} (h : claimOutcome v = none) (g : Group) (u : Nat) (k : StationNo) (hu : u ≤ 2) :
    v ≠ 32 * groupCode g + 8 * u + k.val := by
  have small := k.isLt
  unfold claimOutcome at h
  split at h
  · cases h
  · split at h
    · cases h
    · cases g <;> simp only [groupCode] <;> omega

/-- Settles O20: the outcomes field by field. -/
theorem wireGivesTheOutcomes : Obligations.WireGivesTheOutcomes := by
  intro driving own wire h
  have members : ∀ k : StationNo, inSet h.members k = !wire.getMsbD (7 - k.val) := fun k => by
    refine (inSet_bitmap wire 10 (by decide) (by decide) k).trans ?_
    rw [Nat.sub_self, Nat.zero_add]
  have joining : ∀ k : StationNo, inSet h.joining k = (!wire.getMsbD (15 - k.val) && !wire.getMsbD (7 - k.val)) := fun k => by
    have small := k.isLt
    refine (inSet_and _ _ k).trans (congr (congrArg and ?_) (members k))
    refine (inSet_bitmap wire 18 (by decide) (by decide) k).trans ?_
    rw [show 18 - 10 + (7 - k.val) = 15 - k.val by omega]
  refine ⟨members, joining, fun k => ?_, ?_, modeOutcome_of_le, modeOutcome_of_lt, fun small => Nat.min_eq_left small,
    fun large => Nat.min_eq_right (Nat.le_of_lt large), ?_, ?_, fun c => claimOutcome_some,
    fun none g u k hu => claimOutcome_none none g u k hu⟩
  · exact (inSet_and _ _ k).trans (congrArg (inSet h.members k && ·) (inSet_not _ k))
  · have single : h.members = 1#8 <<< own.val ↔ ∀ k : StationNo, inSet h.members k = decide (k = own) :=
      ⟨fun same k => same ▸ inSet_single own k, fun all => stationSet_ext fun k => (all k).trans (inSet_single own k).symm⟩
    rw [← single]
    exact Bool.and_eq_true_iff.trans (and_congr_right fun _ => decide_eq_true_iff)
  · have small : tallyField wire 38 2 < 4 := tallyField_lt wire 38 2
    exact Nat.sub_add_cancel (by omega)
  · have bit := testBit_tallyField wire 40 1 0 (by decide) (by decide) (by decide)
    have small : tallyField wire 40 1 < 2 := tallyField_lt wire 40 1
    refine Eq.trans ?_ bit
    change decide (tallyField wire 40 1 = 1) = (tallyField wire 40 1).testBit 0
    generalize tallyField wire 40 1 = v at small
    rcases v with _ | _ | v
    · rfl
    · rfl
    · omega

/-! ### The handover at position 79 (R16, R59) -/

theorem Station.reach_number (s : Station) (p : Nat) : (s.reach p).number = s.number := by
  unfold Station.number
  rw [Station.reach_loader]

/-- A handover that is due at position 79, taken there, the pins read until then (log 2). -/
theorem Station.tallyHandover_due {x : Station} (due : x.handoverDue = true) (early : x.bus.position ≤ 79) (wire : BitVec 70) :
    effect (.tallyHandover wire) x = (x.reach 79).handover wire :=
  (if_pos due).trans (Station.atMoment_due _ early)

/-- The bit times up to a position inside the window move the timer and read the pins. -/
theorem Station.reach_bus_inside {x : Station} {p : Nat} (coming : x.bus.position ≤ p) (inside : p ≤ 2520) :
    (x.reach p).bus = x.bus.later p :=
  congrArg (·.bus) (Station.reach_inside (coming.trans inside) inside)

theorem Station.takeTally_held (s : Station) (wire : BitVec 70) :
    (s.takeTally wire).bus.held = resolveTally (isDriving s.member.state) s.number wire := by
  obtain ⟨-, loader, -, -, member, -⟩ := s.readBackTally_frame wire
  rw [Station.takeTally_bus]
  simp only [Station.takeOutcomes, Station.number, loader, member]

theorem recordApplies_iff (h : HeldSet) (n : Word16) (r : DecisionRecord) :
    recordApplies h n r = true ↔
      (h.roundClass = .agreed ∨ (h.roundClass = .memberless ∧ h.alone = true)) ∧ r.tag + 1 = n := by
  simp [recordApplies, and_comm]

/-- An applied exclusion of the own number, read before anything of the handover moves (R59, R75, R83). -/
theorem Station.silencedBy_iff (s : Station) (wire : BitVec 70) :
    s.silencedBy wire = true ↔
      isDriving s.member.state = true ∧ ∃ r, s.bus.pendingRecord = some r
        ∧ recordApplies (resolveTally (isDriving s.member.state) s.number wire) s.bus.roundNumber r = true
        ∧ inSet r.exclusions s.number = true := by
  have applied : (s.takeOutcomes wire).appliedRecord =
      s.bus.pendingRecord.filter (recordApplies (resolveTally (isDriving s.member.state) s.number wire) s.bus.roundNumber) := rfl
  unfold Station.silencedBy
  rw [applied, Bool.and_eq_true]
  refine and_congr_right fun _ => ?_
  cases record : s.bus.pendingRecord with
  | none => simp [exclusionsOf, inSet]
  | some r =>
    by_cases applies : recordApplies (resolveTally (isDriving s.member.state) s.number wire) s.bus.roundNumber r = true
    · simp [Option.filter, applies, exclusionsOf]
    · simp [Option.filter, applies, exclusionsOf, inSet]

theorem Station.handover_of_silenced {s : Station} {wire : BitVec 70} (silenced : s.silencedBy wire = true) :
    s.handover wire = (s.takeTally wire).enterSilent.groupConds := if_pos silenced

theorem Station.handover_of_not_silenced {s : Station} {wire : BitVec 70} (not : s.silencedBy wire = false) :
    s.handover wire = (s.takeTally wire).joinHandover.lockEntry := if_neg (Bool.eq_false_iff.mp not)

theorem Drive.enterLock_eq (lockRampMax : Nat) (d : Drive) :
    d.enterLock lockRampMax =
      match d.output with
      | .active => { d with output := .rampDown, lockRamp := lockRampMax, release := 0, lrel := false }
      | .rampUp => { d with output := .rampDown, release := 0, lrel := false }
      | .off | .locked | .rampDown => { d with release := 0, lrel := false } := by
  unfold Drive.enterLock
  cases d.output <;> rfl

/-- Settles O24: the MODE held after the tally, and what LOCK makes of the drive. -/
theorem lockEntersAtTheHandover : Obligations.LockEntersAtTheHandover := by
  intro x q wire due early role free t
  have driving : isDriving t.member.state = isDriving x.member.state := x.reach_isDriving 79
  have number : t.number = x.number := x.reach_number 79
  have bus : t.bus = x.bus.later 79 := Station.reach_bus_inside early (by decide)
  have params : t.params = x.params := x.reach_params 79
  have taken : effect (.tallyHandover wire) x = t.handover wire := Station.tallyHandover_due due early wire
  clear_value t
  have not : t.silencedBy wire = false := by
    rw [Bool.eq_false_iff]
    intro silenced
    obtain ⟨-, r, pending, -, excluded⟩ := (t.silencedBy_iff wire).mp silenced
    rw [bus] at pending
    rw [number, free r pending] at excluded
    cases excluded
  have held := t.takeTally_held wire
  rw [driving, number] at held
  obtain ⟨-, -, params', bus', -, -, -, drive'⟩ := (t.takeTally wire).joinHandover_frame
  obtain ⟨-, -, params'', -, drive''⟩ := t.takeTally_frame wire
  refine exec_effect (Q := fun y => _ ∧ _) ?_ q
  rw [taken, Station.handover_of_not_silenced not, ← held, ← bus', ← drive'']
  have role' : isDriveRole (t.takeTally wire).joinHandover.params.role = true := by rw [params', params'', params, role]
  unfold Station.lockEntry
  refine ⟨fun other => ?_, fun lock => ?_⟩
  · rw [if_neg (by simp only [other, decide_false, Bool.false_and]; exact Bool.false_ne_true)]
    exact drive'
  · rw [if_pos (by rw [lock, role']; rfl), ← drive', ← params, ← params'', ← params']
    exact Drive.enterLock_eq _ _

/-! ### Joining (R67, R70, R71, R143) -/

theorem Station.joinConditions_iff (s : Station) :
    s.joinConditions = true ↔
      16 ≤ s.member.joinRounds ∧ (s.meas.cal.status = .done ∨ s.meas.cal.status = .skipped) ∧ faultLevel s.cond ≤ 2
        ∧ (memberSet s.bus.held = 0 ∨
            (s.member.verdict = .met ∧ s.engine.run.adopted = true ∧ s.member.matchCount = 4 ∧ s.member.keptOwnMatch = true)) := by
  change _ ↔ Config.joinRounds ≤ _ ∧ _ ∧ _ ∧ (_ ∨ (_ ∧ _ ∧ s.member.matchCount = Config.matchRounds ∧ _))
  simp only [Station.joinConditions, Bool.and_eq_true, Bool.or_eq_true, decide_eq_true_eq, and_assoc]
  tauto

theorem Station.groupConds_eq (s : Station) : s.groupConds = { s with cond := s.groupConds.cond } := by
  unfold Station.groupConds
  split <;> rfl

theorem Station.enterMember_values (s : Station) :
    s.enterMember.member = { s.member with state := .member } ∧ s.enterMember.auth = { s.auth with live := true } := by
  unfold Station.enterMember Station.makeLive
  rw [Station.groupConds_eq]
  exact ⟨rfl, rfl⟩

/-- Settles O25: the count, and the conditions for it. -/
theorem joinConditionsAdmit : Obligations.JoinConditionsAdmit := by
  intro x join
  have counted : ∃ s : Station, s = { x with member := { x.member with joinRounds := succSat 255 x.member.joinRounds } }
      ∧ x.joinHandover = if s.joinConditions = true then s.enterMember else s := ⟨_, rfl, if_pos join⟩
  obtain ⟨s, is, handover⟩ := counted
  have conditions := s.joinConditions_iff
  obtain ⟨member, auth⟩ := s.enterMember_values
  have rounds : s.member.joinRounds = min 255 (x.member.joinRounds + 1) := by rw [is]; rfl
  have state : s.member.state = .join := by rw [is]; exact join
  have many : 16 ≤ min 255 (x.member.joinRounds + 1) ↔ 16 ≤ x.member.joinRounds + 1 := by omega
  rw [rounds, many] at conditions
  have rest : s.meas = x.meas ∧ s.cond = x.cond ∧ s.bus = x.bus ∧ s.engine = x.engine
      ∧ s.member.verdict = x.member.verdict ∧ s.member.matchCount = x.member.matchCount
      ∧ s.member.keptOwnMatch = x.member.keptOwnMatch := by rw [is]; exact ⟨rfl, rfl, rfl, rfl, rfl, rfl, rfl⟩
  obtain ⟨meas, cond, bus, engine, verdict, matches', kept⟩ := rest
  rw [meas, cond, bus, engine, verdict, matches', kept] at conditions
  rw [handover, ← conditions]
  by_cases met : s.joinConditions = true
  · rw [if_pos met, member, auth]
    exact ⟨rounds, .inr rfl, fun _ => rfl, iff_of_true rfl met⟩
  · rw [if_neg met, state]
    exact ⟨rounds, .inl rfl, fun is => (by cases is), iff_of_false (by simp) met⟩

/-! ### Silenced at the handover (R3, R75, R83) -/

theorem Station.adopt_member (s : Station) (entry : Option AdoptionEntry) :
    (s.adopt entry).member = { s.member with viewRefused := (s.adopt entry).member.viewRefused } := by
  unfold Station.adopt Station.takeView
  repeat' split
  all_goals simp

/-- The outcomes move the kept own match and the refusal of a view, and nothing else of the Membership Unit (R38, R144). -/
theorem Station.takeTally_member (s : Station) (wire : BitVec 70) :
    (s.takeTally wire).member =
      { s.member with
        keptOwnMatch := (s.takeTally wire).member.keptOwnMatch, viewRefused := (s.takeTally wire).member.viewRefused } := by
  unfold Station.takeTally Station.consumeOutcomes
  dsimp only
  simp only [Station.authorityHandover_frame]
  rw [Station.adopt_member]
  simp [Station.takeOwnMatch]

/-- What TXD shows of a driving station reads the timer, the image and the own slot alone (R3, R12). -/
theorem Station.drivesDominant_congr {s t : Station} (driving : isDriving t.member.state = isDriving s.member.state)
    (straps : t.loader.straps = s.loader.straps) (position : t.bus.position = s.bus.position) (mark : t.bus.mark = s.bus.mark)
    (image : t.bus.round.image = s.bus.round.image) (abandoned : t.bus.round.abandoned = s.bus.round.abandoned)
    (slot : t.bus.round.ownSlot = s.bus.round.ownSlot) (read : BitVec 70) : t.drivesDominant read = s.drivesDominant read := by
  unfold Station.drivesDominant BusUnit.markDominant
  rw [driving, straps, position, mark, image, abandoned, slot]

theorem Station.takeTally_drivesDominant (s : Station) (wire : BitVec 70) :
    (s.takeTally wire).drivesDominant (s.takeTally wire).bus.wireRead = s.drivesDominant wire := by
  obtain ⟨-, loader, -, bus, -⟩ := s.readBackTally_frame wire
  obtain ⟨-, loader', -⟩ := s.takeTally_frame wire
  have parts := s.takeTally_bus wire
  have wireRead : (s.takeTally wire).bus.wireRead = wire := by rw [parts]; rfl
  rw [wireRead]
  refine Station.drivesDominant_congr (by rw [Station.takeTally_state]) (by rw [loader']) ?_ ?_ ?_ ?_ ?_ wire
  all_goals
    rw [parts]
    simp only [Station.takeOutcomes, bus]

/-- A station in SILENT shows the level it kept, to the end of the bit time (R3). -/
theorem Station.txdDominant_of_silent {s : Station} (silent : s.member.state = .silent) (read : BitVec 70) :
    s.txdDominant read = s.bus.cutBit := by
  simp [Station.txdDominant, Station.drivesDominant, silent, isDriving]

theorem Station.txdDominant_of_driving {s : Station} (driving : isDriving s.member.state = true) (read : BitVec 70) :
    s.txdDominant read = s.drivesDominant read := by
  have apart : s.member.state ≠ .listen ∧ s.member.state ≠ .silent := by
    revert driving
    cases s.member.state <;> decide
  simp [Station.txdDominant, apart]

/-- The bit time after an entry to SILENT releases TXD (R3, R76). -/
theorem Station.tick_of_silent {s : Station} (silent : s.member.state = .silent) (hold : s.member.silentHold = 0)
    (read : BitVec 70) : s.tick.txdDominant read = false := by
  have sampled : s.samplePins.member.state = .silent := of_decide_eq_true
    ((Station.samplePins_test (fun y => decide (y = .silent)) rfl s).trans (decide_eq_true silent))
  have stopped : timerRuns s.samplePins.member.state = false := by rw [sampled]; rfl
  have position : s.samplePins.tickPosition = { s.samplePins with bus := s.samplePins.bus.releaseBit } :=
    if_neg (Bool.eq_false_iff.mp stopped)
  have state : s.samplePins.tickPosition.tickHold.tickScan.member.state = .silent := by
    simp only [Station.tickScan, Station.tickHold_state, position, sampled]
  have due : s.tick = s.samplePins.tickPosition.tickHold.tickScan := by
    refine Station.takeDue_of_stopped (by rw [state]; rfl) (lt_of_le_of_lt (Station.tickHold_silentHold_le _) ?_)
    rw [position, Station.samplePins_silentHold, hold]
    decide
  rw [due, Station.txdDominant_of_silent state]
  simp [Station.tickScan, position, BusUnit.releaseBit]

/-- Settles O23: the entry to SILENT after the outcomes, and the level of TXD over it. -/
theorem ownExclusionSilences : Obligations.OwnExclusionSilences := by
  intro x q wire r due early driving pending tag excluded h t class_
  have drives : isDriving t.member.state = true := (x.reach_isDriving 79).trans driving
  have number : t.number = x.number := x.reach_number 79
  have bus : t.bus = x.bus.later 79 := Station.reach_bus_inside early (by decide)
  obtain ⟨silencings, -⟩ : t.member.silencings = _ ∧ _ := x.reach_counts 79
  have taken : effect (.tallyHandover wire) x = t.handover wire := Station.tallyHandover_due due early wire
  clear_value t
  have silenced : t.silencedBy wire = true := by
    refine (t.silencedBy_iff wire).mpr ⟨drives, r, by rw [bus]; exact pending, ?_, by rw [number]; exact excluded⟩
    refine (recordApplies_iff _ _ _).mpr ⟨by rw [drives, number]; exact class_, by rw [bus]; exact tag⟩
  have entered : ∃ y : Station, effect (.tallyHandover wire) x = y
      ∧ y.bus = (t.takeTally wire).bus.atSilent (t.drivesDominant wire)
      ∧ y.member = { (t.takeTally wire).member with
          state := .silent, silencings := succSat 4 (t.takeTally wire).member.silencings, silentHold := 0 }
      ∧ y.drive = t.drive.enterOff := by
    refine ⟨_, taken.trans (Station.handover_of_silenced silenced), ?_, ?_, ?_⟩
    · rw [Station.groupConds_eq, ← t.takeTally_drivesDominant wire]
      exact Station.enterSilent_bus _
    · rw [Station.groupConds_eq]
      exact Station.enterSilent_member _
    · rw [Station.groupConds_eq]
      have kept : (t.takeTally wire).drive = t.drive := by simp
      rw [← kept]
      rfl
  obtain ⟨y, is, ybus, ymember, ydrive⟩ := entered
  have silent : y.member.state = .silent := by rw [ymember]
  have hold : y.member.silentHold = 0 := by rw [ymember]
  refine ⟨y, exec_of_effect is q, silent, ?_, hold, by rw [ybus]; rfl, by rw [ybus]; rfl, by rw [ydrive]; rfl, ?_, ?_,
    fun read => ?_, y.tick, rfl, fun read => Station.tick_of_silent silent hold read⟩
  · rw [ymember, t.takeTally_member]
    exact congrArg (succSat 4) silencings
  · simp [Station.drvEn, ydrive, Drive.enterOff]
  · simp [Station.lrelOut, ydrive, Drive.enterOff]
  · rw [Station.txdDominant_of_silent silent, Station.txdDominant_of_driving drives, ybus]
    rfl

end Sys2Proof.Machine
end

