-- ==== Sys2Proof/Proofs/ImageRules.lean ====
section
/-! The tally image and the levels that it drives (R12 to R14, R23, R24). -/

namespace Sys2Proof.Machine

/-! ### The levels of a field (R13, R14) -/

/-- The level at an index of the levels driven and read is dominant. -/
def dominantAt (levels : List (Bool × Bool)) (i : Nat) : Prop := ∃ read, levels[i]? = some (false, read)

theorem dominantAt_append (l m : List (Bool × Bool)) (i : Nat) :
    dominantAt (l ++ m) i ↔ dominantAt l i ∨ (l.length ≤ i ∧ dominantAt m (i - l.length)) := by
  unfold dominantAt
  by_cases inside : i < l.length
  · rw [List.getElem?_append_left inside]
    simp [Nat.not_le.mpr inside]
  · rw [List.getElem?_append_right (Nat.not_lt.mp inside), List.getElem?_eq_none (Nat.not_lt.mp inside)]
    simp [Nat.not_lt.mp inside]

@[simp] theorem length_bitsOf (w n : Nat) : (bitsOf w n).length = w := by simp [bitsOf]

theorem getElem?_bitsOf (w n i : Nat) : (bitsOf w n)[i]? = if i < w then some (n.testBit (w - 1 - i)) else none := by
  unfold bitsOf
  by_cases inside : i < w <;> simp [inside]

/-- A station contends while no bit that it drove recessive has read dominant (R13). -/
theorem dominantAt_contend (values : List Bool) : ∀ (contending : Bool) (reads : List Bool) (i : Nat),
    values.length = reads.length →
    (dominantAt (contend contending values reads) i ↔
      contending = true ∧ values[i]? = some false ∧ ∀ j < i, values[j]? = some true → reads[j]? = some true) := by
  induction values with
  | nil =>
    intro contending reads i _
    cases reads <;> simp [dominantAt, contend]
  | cons v vs ih =>
    intro contending reads i same
    cases reads with
    | nil => simp at same
    | cons r rs =>
      cases i with
      | zero =>
        unfold dominantAt contend
        cases contending <;> cases v <;> simp
      | succ i =>
        have step : dominantAt (contend contending (v :: vs) (r :: rs)) (i + 1) ↔
            dominantAt (contend (contending && !((if contending = true then v else true) && !r)) vs rs) i := Iff.rfl
        rw [step, ih _ rs i (by simpa using same)]
        have shift : (∀ j < i + 1, (v :: vs)[j]? = some true → (r :: rs)[j]? = some true) ↔
            (v = true → r = true) ∧ ∀ j < i, vs[j]? = some true → rs[j]? = some true := by
          constructor
          · exact fun all => ⟨by simpa using all 0 (Nat.succ_pos i), fun j hj => by simpa using all (j + 1) (by omega)⟩
          · rintro ⟨first, rest⟩ (_ | j) hj
            · simpa using first
            · simpa using rest j (by omega)
        rw [shift]
        cases contending <;> cases v <;> cases r <;> simp

@[simp] theorem length_contend (values : List Bool) : ∀ (contending : Bool) (reads : List Bool),
    (contend contending values reads).length = min values.length reads.length := by
  induction values with
  | nil => intro contending reads; cases reads <;> simp [contend]
  | cons v vs ih =>
    intro contending reads
    cases reads with
    | nil => simp [contend]
    | cons r rs => simp [contend, ih]

/-- The station contends at a position of a field and drives its bit there dominant (R13). -/
def contendsAt (p : Nat) (read : BitVec 70) (first width : Nat) (bit : Nat → Bool) : Prop :=
  first ≤ p ∧ p < first + width ∧ bit (first + width - 1 - p) = false
    ∧ ∀ i, first ≤ i → i < p → bit (first + width - 1 - i) = true → read.getMsbD (i - 10) = true

theorem dominantAt_field (read : BitVec 70) (first w n p : Nat) (inside : 10 ≤ first) (last : first + w ≤ 80)
    (late : first ≤ p) :
    dominantAt (contend true (bitsOf w n) (bitsOf w (tallyField read first w))) (p - first) ↔
      contendsAt p read first w n.testBit := by
  rw [dominantAt_contend _ _ _ _ (by simp)]
  have bits : ∀ j, (bitsOf w (tallyField read first w))[j]? = if j < w then some (read.getMsbD (first - 10 + j)) else none :=
    fun j => by
      rw [getElem?_bitsOf]
      by_cases hj : j < w
      · rw [if_pos hj, if_pos hj, testBit_tallyField read first w j hj inside last]
      · rw [if_neg hj, if_neg hj]
  simp only [getElem?_bitsOf, bits, true_and]
  unfold contendsAt
  constructor
  · rintro ⟨here, before⟩
    have small : p - first < w := by
      by_contra out
      simp [out] at here
    rw [if_pos small] at here
    refine ⟨late, by omega, ?_, fun i hi hip bit => ?_⟩
    · rw [← Option.some.inj here]
      congr 1
      omega
    · have at_i := before (i - first) (by omega)
      rw [if_pos (by omega), if_pos (by omega), show w - 1 - (i - first) = first + w - 1 - i by omega,
        show first - 10 + (i - first) = i - 10 by omega] at at_i
      simpa using at_i (congrArg some bit)
  · rintro ⟨-, small, here, before⟩
    rw [if_pos (by omega), show w - 1 - (p - first) = first + w - 1 - p by omega]
    refine ⟨congrArg some here, fun j hj bit => ?_⟩
    rw [if_pos (by omega)] at bit ⊢
    have at_j := before (first + j) (by omega) (by omega)
    rw [show first + w - 1 - (first + j) = w - 1 - j by omega, show first + j - 10 = first - 10 + j by omega] at at_j
    exact congrArg some (at_j (Option.some.inj bit))

/-- A min field is driven by its value, and by none when it abstains (R13). -/
theorem dominantAt_min (read : BitVec 70) (first w : Nat) (v : Option Nat) (p : Nat) (inside : 10 ≤ first)
    (last : first + w ≤ 80) (late : first ≤ p) :
    dominantAt (contend true (minBits w v) (bitsOf w (tallyField read first w))) (p - first) ↔
      ∃ n, v = some n ∧ contendsAt p read first w n.testBit := by
  unfold minBits
  rw [dominantAt_field read first w _ p inside last late]
  cases v with
  | some n => simp
  | none =>
    simp only [Option.getD_none, reduceCtorEq, false_and, exists_false, iff_false]
    rintro ⟨-, small, here, -⟩
    rw [Nat.testBit_two_pow_sub_one] at here
    simp at here
    omega

/-- A max field is driven by the complement of its value (R13). -/
theorem dominantAt_max (read : BitVec 70) (first w : Nat) (v : Option Nat) (p : Nat) (inside : 10 ≤ first)
    (last : first + w ≤ 80) (late : first ≤ p) :
    dominantAt (contend true (maxBits w v) (bitsOf w (tallyField read first w))) (p - first) ↔
      ∃ n, v = some n ∧ contendsAt p read first w fun i => !n.testBit i := by
  have complement : maxBits w v = minBits w (v.map fun n => 2 ^ w - 1 - n % 2 ^ w) := rfl
  rw [complement, dominantAt_min read first w _ p inside last late]
  have bit : ∀ n i, i < w → (2 ^ w - 1 - n % 2 ^ w).testBit i = !n.testBit i := fun n i hi => by
    rw [Nat.sub_sub, Nat.add_comm 1, Nat.testBit_two_pow_sub_succ (Nat.mod_lt _ (Nat.two_pow_pos w)),
      Nat.testBit_mod_two_pow]
    simp [hi]
  have same : ∀ n, contendsAt p read first w (2 ^ w - 1 - n % 2 ^ w).testBit ↔
      contendsAt p read first w fun i => !n.testBit i := fun n => by
    unfold contendsAt
    refine and_congr_right fun _ => and_congr_right fun small => and_congr ?_ ?_
    · rw [bit n _ (by omega)]
    · refine forall_congr' fun i => forall_congr' fun _ => forall_congr' fun hi => ?_
      rw [bit n _ (by omega)]
  cases v with
  | none => simp
  | some n => simp [same]

/-- A bitmap field is driven at the own bit alone, where the station asserts it (R14). -/
theorem dominantAt_bitmap (own : StationNo) (asserted : Bool) (reads : List Bool) (long : reads.length = 8) (i : Nat) :
    dominantAt ((bitmapBits own asserted).zip reads) i ↔ asserted = true ∧ i = 7 - own.val := by
  have levels : ∀ i, (bitmapBits own asserted)[i]? = some false ↔ asserted = true ∧ i = 7 - own.val := fun i => by
    unfold bitmapBits
    rw [getElem?_bitsOf]
    by_cases small : i < 8
    · interval_cases i <;> revert own asserted <;> decide
    · have far : i ≠ 7 - own.val := by omega
      simp [small, far]
  rw [← levels]
  unfold dominantAt
  constructor
  · rintro ⟨read, here⟩
    exact (List.getElem?_zip_eq_some.mp here).1
  · intro here
    have small : i < reads.length := by
      rw [levels] at here
      omega
    exact ⟨reads[i], List.getElem?_zip_eq_some.mpr ⟨here, List.getElem?_eq_getElem small⟩⟩

/-- ADVANCE is driven when not ready (R14). -/
theorem dominantAt_advance (advance : Option Bool) (read : Bool) (i : Nat) :
    dominantAt [(advance.getD true, read)] i ↔ advance = some false ∧ i = 0 := by
  unfold dominantAt
  cases i with
  | zero => cases advance <;> simp
  | succ i => simp

@[simp] theorem length_minBits (w : Nat) (v : Option Nat) : (minBits w v).length = w := length_bitsOf _ _
@[simp] theorem length_maxBits (w : Nat) (v : Option Nat) : (maxBits w v).length = w := length_bitsOf _ _
@[simp] theorem length_bitmapBits (own : StationNo) (asserted : Bool) : (bitmapBits own asserted).length = 8 := length_bitsOf _ _

/-- The levels of the tally section, position by position (R12 to R14). -/
theorem dominantAt_tallyLevels (own : StationNo) (image : TallyImage) (read : BitVec 70) (p : Nat) (inside : 10 ≤ p) :
    dominantAt (tallyLevels own image read) (p - 10) ↔
      p = 17 - own.val ∨ (image.joining = true ∧ p = 25 - own.val) ∨ (image.advance = some false ∧ p = 40)
        ∨ (∃ n, image.mode = some n ∧ contendsAt p read 26 3 n.testBit)
        ∨ (∃ n, image.limit = some n ∧ contendsAt p read 29 9 n.testBit)
        ∨ (∃ n, image.fault = some n ∧ contendsAt p read 38 2 fun i => !n.testBit i)
        ∨ (∃ n, image.claim = some n ∧ contendsAt p read 41 7 n.testBit)
        ∨ (∃ n, image.sig.map (·.toNat) = some n ∧ contendsAt p read 48 16 n.testBit)
        ∨ (∃ n, image.sig.map (·.toNat) = some n ∧ contendsAt p read 64 16 fun i => !n.testBit i) := by
  have field : ∀ (k w : Nat) (v : Option Nat), k + w ≤ 70 →
      (k ≤ p - 10 ∧ dominantAt (contend true (minBits w v) (bitsOf w (tallyField read (10 + k) w))) (p - 10 - k)
        ↔ ∃ n, v = some n ∧ contendsAt p read (10 + k) w n.testBit) := fun k w v high => by
    by_cases late : 10 + k ≤ p
    · rw [show p - 10 - k = p - (10 + k) by omega, dominantAt_min read (10 + k) w v p (by omega) (by omega) late]
      exact and_iff_right (by omega)
    · exact iff_of_false (fun h => late (by omega)) fun ⟨_, _, begun, _⟩ => late begun
  have field' : ∀ (k w : Nat) (v : Option Nat), k + w ≤ 70 →
      (k ≤ p - 10 ∧ dominantAt (contend true (maxBits w v) (bitsOf w (tallyField read (10 + k) w))) (p - 10 - k)
        ↔ ∃ n, v = some n ∧ contendsAt p read (10 + k) w fun i => !n.testBit i) := fun k w v high => by
    by_cases late : 10 + k ≤ p
    · rw [show p - 10 - k = p - (10 + k) by omega, dominantAt_max read (10 + k) w v p (by omega) (by omega) late]
      exact and_iff_right (by omega)
    · exact iff_of_false (fun h => late (by omega)) fun ⟨_, _, begun, _⟩ => late begun
  have mode := field 16 3 image.mode (by decide)
  have limit := field 19 9 image.limit (by decide)
  have fault := field' 28 2 image.fault (by decide)
  have claim := field 31 7 image.claim (by decide)
  have least := field 38 16 (image.sig.map (·.toNat)) (by decide)
  have most := field' 54 16 (image.sig.map (·.toNat)) (by decide)
  have members := dominantAt_bitmap own true (bitsOf 8 (tallyField read 10 8)) (by simp) (p - 10)
  have joining := dominantAt_bitmap own image.joining (bitsOf 8 (tallyField read 18 8)) (by simp) (p - 10 - 8)
  have advance := dominantAt_advance image.advance (decide (tallyField read 40 1 = 1)) (p - 10 - 30)
  have small := own.isLt
  unfold tallyLevels
  simp only [dominantAt_append, List.length_append, List.length_zip, List.length_singleton, length_contend, length_bitsOf,
    length_minBits, length_maxBits, length_bitmapBits, Nat.min_self, Nat.reduceAdd]
  simp only [Nat.reduceAdd] at mode limit fault claim least most
  rw [members, joining, mode, limit, fault, advance, claim, least, most]
  have at_members : (true = true ∧ p - 10 = 7 - own.val) = (p = 17 - own.val) := by
    refine propext ⟨fun h => ?_, fun h => ⟨rfl, ?_⟩⟩ <;> omega
  have at_joining : (8 ≤ p - 10 ∧ image.joining = true ∧ p - 10 - 8 = 7 - own.val) =
      (image.joining = true ∧ p = 25 - own.val) :=
    propext ⟨fun ⟨_, asserted, _⟩ => ⟨asserted, by omega⟩, fun ⟨asserted, _⟩ => ⟨by omega, asserted, by omega⟩⟩
  have at_advance : (30 ≤ p - 10 ∧ image.advance = some false ∧ p - 10 - 30 = 0) = (image.advance = some false ∧ p = 40) :=
    propext ⟨fun ⟨_, unready, _⟩ => ⟨unready, by omega⟩, fun ⟨unready, _⟩ => ⟨by omega, unready, by omega⟩⟩
  rw [at_members, at_joining, at_advance]
  exact Iff.of_eq (by ac_rfl)

/-! ### The image at position 10 (R23, R24) -/

theorem removeCond_proposal (c : ConditionUnit) (k : CondKey) : (removeCond c k).proposal = c.proposal := by
  rw [removeCond_frame]

theorem setCond_proposal (c : ConditionUnit) (cause : Bool) (k : CondKey) (level : Nat) :
    (setCond c cause k level).proposal = c.proposal := by
  unfold setCond holdCond
  repeat' split
  · rfl
  · rw [offerQueue_frame, enterCond_frame]
  · exact removeCond_proposal c k

theorem Station.samplePins_proposal (s : Station) : s.samplePins.cond.proposal = s.cond.proposal := by
  have disable : ∀ level, (s.seeDisable level).cond.proposal = s.cond.proposal := fun level => by
    cases level
    · rw [Station.seeDisable_released]
      exact removeCond_proposal _ _
    · rw [Station.seeDisable_asserted]
      exact setCond_proposal s.cond true _ 3
  unfold Station.samplePins
  split
  · unfold Station.seeDrvFlt
    split
    · dsimp only
      split
      · exact (setCond_proposal _ _ _ _).trans (disable _)
      · exact (setCond_proposal _ _ _ _).trans (disable _)
    · exact disable _
  · rfl

theorem Station.reach_proposal (s : Station) (p : Nat) : (s.reach p).cond.proposal = s.cond.proposal := by
  rw [Station.reach_cond]
  unfold Station.sampleUntil
  split
  · exact s.samplePins_proposal
  · rfl

theorem Station.takeImage_due {x : Station} (driving : isDriving x.member.state = true)
    (recognised : x.bus.round.recognised = true) (stands : x.bus.round.abandoned = false) (image : x.bus.round.image = none)
    (handed : x.bus.round.handed = false) (early : x.bus.position ≤ 10) :
    effect .tallyImage x = { x.reach 10 with bus := (x.reach 10).bus.keep (x.reach 10).tallyImage } :=
  (if_pos (by simp [Station.imageDue, driving, recognised, stands, image, handed])).trans (Station.atMoment_due _ early)

/-- Up to slot 0, past its mark, a driving station drives its tally bits alone (R3, R11, R12). -/
theorem Station.txdDominant_of_tally {x : Station} (driving : isDriving x.member.state = true)
    (mark : ∀ m, x.bus.mark = some m → 8 ≤ m.age) (early : x.bus.position < 100) (read : BitVec 70) :
    x.txdDominant read = true ↔
      ∃ image, x.bus.round.image = some image ∧ x.bus.round.abandoned = false ∧ 10 ≤ x.bus.position ∧ x.bus.position ≤ 79
        ∧ dominantAt (tallyLevels x.number image read) (x.bus.position - 10) := by
  have released : x.bus.markDominant = false := by
    unfold BusUnit.markDominant
    cases begun : x.bus.mark with
    | none => rfl
    | some m => exact decide_eq_false (Nat.not_lt.mpr (mark m begun))
  have slot : decide (Config.slotBase + Config.slotLength * x.loader.straps.val ≤ x.bus.position) = false :=
    decide_eq_false (by simp only [Config.slotBase, Config.slotLength]; omega)
  rw [Station.txdDominant_of_driving driving]
  unfold Station.drivesDominant
  simp only [driving, released, slot, Bool.and_false, Bool.false_and, Bool.false_or, Bool.true_and]
  cases x.bus.round.image with
  | none => cases x.bus.round.ownSlot <;> simp
  | some image =>
    unfold dominantAt
    rw [show x.number = x.loader.straps from rfl, show Config.tallyStart = 10 from rfl, show Config.tallyEnd = 79 from rfl]
    cases level : (tallyLevels x.loader.straps image read)[x.bus.position - 10]? with
    | none => cases x.bus.round.ownSlot <;> simp [level]
    | some l =>
      obtain ⟨driven, seen⟩ := l
      cases x.bus.round.ownSlot <;> cases driven <;> simp [level, and_assoc]

/-- Settles O18: the image by the state, and the levels that it drives. -/
theorem imageFollowsTheState : Obligations.ImageFollowsTheState := by
  refine ⟨?_, ?_⟩
  · intro x q driving recognised stands image handed early t
    have bus : t.bus = x.bus.later 10 := Station.reach_bus_inside early (by decide)
    have proposal : t.cond.proposal = x.cond.proposal := x.reach_proposal 10
    have drives : isDriving t.member.state = true := (x.reach_isDriving 10).trans driving
    have join : t.member.state = .join ↔ x.member.state = .join := by
      rw [x.reach_state 10]
      exact Station.sampleUntil_state_eq (by decide) (by decide) x 10
    have taken : effect .tallyImage x = { t with bus := t.bus.keep t.tallyImage } :=
      Station.takeImage_due driving recognised stands image handed early
    have round : t.bus.round = x.bus.round := by rw [bus]; rfl
    have sig : t.bus.ownSig = x.bus.ownSig := by rw [bus]; rfl
    clear_value t
    refine ⟨t.tallyImage, exec_of_effect (taken.trans ?_) q, fun inJoin => ?_, fun p member held => ?_, fun p halted held => ?_,
      fun notJoin bare => ?_⟩
    · rw [BusUnit.keep, round]
    · rw [Station.tallyImage, join.mpr inJoin]
    · rw [Station.tallyImage, member, proposal, held, sig]
      rfl
    · rw [Station.tallyImage, halted, proposal, held, sig]
      rfl
    · have other : t.member.state = .member ∨ t.member.state = .halted := by
        have notJoin' := mt join.mp notJoin
        revert drives notJoin'
        cases t.member.state <;> simp [isDriving]
      rcases other with h | h <;> rw [Station.tallyImage, h, proposal, bare, sig] <;> rfl
  · intro x read driving mark early p n contends least most
    have levels := Station.txdDominant_of_tally driving mark early read
    refine ⟨fun out => ?_, fun image held stands => levels.trans ?_⟩
    · rw [Bool.eq_false_iff]
      intro dominant
      obtain ⟨image, held, stands, low, high, -⟩ := levels.mp dominant
      rcases out with abandoned | none | before | after
      · rw [abandoned] at stands
        cases stands
      · rw [none] at held
        cases held
      · exact absurd low (Nat.not_le.mpr before)
      · exact absurd high (Nat.not_le.mpr after)
    · have small := x.number.isLt
      constructor
      · rintro ⟨image', held', -, low, -, dominant⟩
        obtain rfl : image' = image := Option.some.inj (held'.symm.trans held)
        exact (dominantAt_tallyLevels x.number image' read x.bus.position low).mp dominant
      · intro driven
        have range : 10 ≤ x.bus.position ∧ x.bus.position ≤ 79 := by
          rcases driven with h | ⟨-, h⟩ | ⟨-, h⟩ | ⟨_, -, h, h', -⟩ | ⟨_, -, h, h', -⟩ | ⟨_, -, h, h', -⟩ | ⟨_, -, h, h', -⟩
            | ⟨_, -, h, h', -⟩ | ⟨_, -, h, h', -⟩ <;> omega
        exact ⟨image, held, stands, range.1, range.2, (dominantAt_tallyLevels x.number image read x.bus.position range.1).mpr driven⟩

end Sys2Proof.Machine
end

