-- ==== Sys2Proof/Proofs/ExpiryRules.lean ====
section
/-! The operations of the Condition Unit entry by entry (R171 to R177). -/

namespace Sys2Proof.Machine

/-! ### The weakest entry (R174) -/

theorem weakest_first {w : CondEntry} {after : List CondEntry} (least : ∀ e ∈ after, w.level ≤ e.level) :
    weakest (w :: after) = some w := by
  unfold weakest
  cases found : weakest after with
  | none => rfl
  | some v => exact if_neg (Nat.not_lt.mpr (least v (weakest_mem found)))

/-- The entry of lowest level, and among those the earliest, is the weakest. -/
theorem weakest_of_split {w : CondEntry} {after : List CondEntry} (least : ∀ e ∈ after, w.level ≤ e.level)
    (before : List CondEntry) (lower : ∀ e ∈ before, w.level < e.level) : weakest (before ++ w :: after) = some w := by
  induction before with
  | nil => exact weakest_first least
  | cons e rest ih =>
    rw [List.cons_append, weakest, ih fun f member => lower f (List.mem_cons_of_mem e member)]
    exact if_pos (lower e List.mem_cons_self)

theorem displace_displaced (c : ConditionUnit) (e : CondEntry) :
    (displace c e).displaced = if condIsEvent e.key.code = true then c.displaced else c.displaced ++ [e] := by
  unfold displace
  split <;> rfl

theorem displace_table (c : ConditionUnit) (e : CondEntry) : (displace c e).table = c.table := by
  unfold displace
  split <;> rfl

theorem enterCond_room {c : ConditionUnit} (room : c.table.length < Config.tableSize) (e : CondEntry) :
    (enterCond c e).table = c.table ++ [e] ∧ (enterCond c e).displaced = c.displaced := by
  unfold enterCond
  rw [if_pos room]
  exact ⟨rfl, rfl⟩

theorem enterCond_full {c : ConditionUnit} (full : Config.tableSize ≤ c.table.length) {w : CondEntry}
    (weak : weakest c.table = some w) (e : CondEntry) :
    (w.level < e.level → (enterCond c e).table = dropKey c.table w.key ++ [e]
        ∧ (enterCond c e).displaced = (displace c w).displaced)
      ∧ (e.level ≤ w.level → (enterCond c e).table = c.table ∧ (enterCond c e).displaced = (displace c e).displaced) := by
  unfold enterCond
  rw [if_neg (Nat.not_lt.mpr full), weak]
  dsimp only
  refine ⟨fun higher => ?_, fun lower => ?_⟩
  · rw [if_pos higher, displace_table, displace_displaced, displace_displaced]
    exact ⟨rfl, rfl⟩
  · rw [if_neg (Nat.not_lt.mpr lower), displace_table]
    exact ⟨rfl, rfl⟩

/-! ### The queue (R177) -/

theorem offerQueue_known {c : ConditionUnit} {k : CondKey} (known : ∃ r ∈ c.queue, r.key = k) :
    (offerQueue c k).queue = c.queue.map (fun r => if r.key = k then { r with count := min 15 (r.count + 1) } else r)
      ∧ (offerQueue c k).overflow = c.overflow := by
  obtain ⟨r, member, key⟩ := known
  unfold offerQueue
  rw [if_pos (List.any_eq_true.mpr ⟨r, member, decide_eq_true key⟩)]
  exact ⟨rfl, rfl⟩

theorem offerQueue_new {c : ConditionUnit} {k : CondKey} (new : ∀ r ∈ c.queue, r.key ≠ k) :
    offerQueue c k =
      if c.queue.length < Config.queueSize then { c with queue := c.queue ++ [{ key := k, count := 1 }] }
      else { c with overflow := true, dropped := true } := by
  unfold offerQueue
  refine if_neg fun known => ?_
  obtain ⟨r, member, key⟩ := List.any_eq_true.mp known
  exact new r member (of_decide_eq_true key)

/-! ### What expires, and what a removal leaves (R174, R175) -/

theorem reofferDisplaced_none {c : ConditionUnit} (none : c.displaced = []) : reofferDisplaced c = c := by
  unfold reofferDisplaced
  rw [none]
  cases c
  cases none
  rfl

theorem expireConds_none {c : ConditionUnit} (none : c.displaced = []) :
    expireConds c = { c with table := c.table.filter fun e => !isExpired e } := by
  unfold expireConds
  split
  · exact reofferDisplaced_none none
  · next unexpired =>
    have all : c.table.filter (fun e => !isExpired e) = c.table := by
      refine List.filter_eq_self.mpr fun e member => ?_
      rw [Bool.not_eq_true']
      exact Bool.eq_false_iff.mpr fun expired => unexpired (List.any_eq_true.mpr ⟨e, member, expired⟩)
    rw [all]

theorem dropKey_absent {l : List CondEntry} {k : CondKey} (absent : hasKey l k = false) : dropKey l k = l := by
  refine List.filter_eq_self.mpr fun e member => ?_
  rw [Bool.not_eq_true', decide_eq_false_iff_not]
  exact fun key => Bool.false_ne_true (absent.symm.trans (hasKey_iff.mpr ⟨e, member, key⟩))

theorem removeCond_none {c : ConditionUnit} (none : c.displaced = []) (k : CondKey) :
    removeCond c k = { c with table := dropKey c.table k } := by
  unfold removeCond
  split
  · exact reofferDisplaced_none none
  · next absent =>
    rw [dropKey_absent (Bool.eq_false_iff.mpr absent), none]
    cases c
    cases none
    rfl

/-- Entering keys brings no other key. -/
theorem hasKey_enterCond {c : ConditionUnit} {e : CondEntry} {k : CondKey} (h : isHeld (enterCond c e) k = true) :
    isHeld c k = true ∨ e.key = k := by
  have single : ∀ f : CondEntry, hasKey [f] k = true ↔ f.key = k := fun f => by simp [hasKey]
  have turned : ∀ f : CondEntry, hasKey (displace c f).displaced k = true → hasKey c.displaced k = true ∨ f.key = k :=
    fun f is => by
      rw [displace_displaced] at is
      split at is
      · exact .inl is
      · rw [hasKey_append, single] at is
        exact is
  rw [isHeld_iff] at h ⊢
  by_cases room : c.table.length < Config.tableSize
  · rw [(enterCond_room room e).1, (enterCond_room room e).2, hasKey_append, single] at h
    tauto
  · have full := Nat.not_lt.mp room
    cases weak : weakest c.table with
    | none =>
      have still : enterCond c e = displace c e := by
        unfold enterCond
        rw [if_neg room, weak]
      rw [still, displace_table] at h
      have := turned e
      tauto
    | some w =>
      have mem : w.key = k → hasKey c.table k = true := fun key => hasKey_iff.mpr ⟨w, weakest_mem weak, key⟩
      have enters := enterCond_full full weak e
      have at_w := turned w
      have at_e := turned e
      by_cases higher : w.level < e.level
      · rw [(enters.1 higher).1, (enters.1 higher).2, hasKey_append, single, hasKey_dropKey] at h
        tauto
      · rw [(enters.2 (Nat.not_lt.mp higher)).1, (enters.2 (Nat.not_lt.mp higher)).2] at h
        tauto

theorem hasKey_foldl_enterCond (l : List CondEntry) {k : CondKey} :
    ∀ c : ConditionUnit, isHeld (l.foldl enterCond c) k = true → isHeld c k = true ∨ hasKey l k = true := by
  induction l with
  | nil => exact fun _ h => .inl h
  | cons e rest ih =>
    intro c h
    rw [List.foldl_cons] at h
    have cons : hasKey (e :: rest) k = true ↔ e.key = k ∨ hasKey rest k = true := by simp [hasKey]
    rw [cons]
    rcases ih _ h with entered | later
    · exact (hasKey_enterCond entered).imp_right .inl
    · exact .inr (.inr later)

/-- A removal ends the hold of its key, an event's too (R171, R175). -/
theorem isHeld_removeCond_self {c : ConditionUnit} (sound : c.tableSound) (k : CondKey) : isHeld (removeCond c k) k = false := by
  have once := keysOnce_apart sound.keysOnce k
  rw [Bool.eq_false_iff]
  intro held
  unfold removeCond at held
  split at held
  · next entered =>
    have apart := once entered
    have gone : isHeld { { c with table := dropKey c.table k } with displaced := [] } k ≠ true := by
      rw [Ne, isHeld_iff, hasKey_dropKey]
      exact fun either => either.elim (fun is => is.2 rfl) fun is => Bool.false_ne_true is
    rcases hasKey_foldl_enterCond _ _ held with left | offered
    · exact gone left
    · obtain ⟨e, member, key⟩ := hasKey_iff.mp offered
      have displaced := hasKey_iff.mpr ⟨e, (offerOrder_perm c.displaced).mem_iff.mp member, key⟩
      rw [apart] at displaced
      cases displaced
  · next absent =>
    rcases isHeld_iff.mp held with entered | displaced
    · exact absent entered
    · exact (hasKey_dropKey.mp displaced).2 rfl

/-! ### The fault level (R176) -/

/-- The highest level above a floor: at least the floor and every level, and one of them. -/
theorem foldl_max_level (l : List CondEntry) : ∀ m : Nat,
    m ≤ l.foldl (fun m e => max m e.level) m ∧ (∀ e ∈ l, e.level ≤ l.foldl (fun m e => max m e.level) m)
      ∧ (l.foldl (fun m e => max m e.level) m = m ∨ ∃ e ∈ l, e.level = l.foldl (fun m e => max m e.level) m) := by
  induction l with
  | nil => exact fun m => ⟨Nat.le_refl m, fun e member => absurd member List.not_mem_nil, .inl rfl⟩
  | cons e rest ih =>
    intro m
    rw [List.foldl_cons]
    obtain ⟨floor, each, attained⟩ := ih (max m e.level)
    generalize rest.foldl (fun m e => max m e.level) (max m e.level) = top at floor each attained ⊢
    refine ⟨by omega, fun f member => ?_, ?_⟩
    · rcases List.mem_cons.mp member with rfl | later
      · omega
      · exact each f later
    · rcases attained with same | ⟨f, member, level⟩
      · rcases Nat.le_total e.level m with below | above
        · exact .inl (by omega)
        · exact .inr ⟨e, List.mem_cons_self, by omega⟩
      · exact .inr ⟨f, List.mem_cons_of_mem e member, level⟩

/-- Settles O53: expiry, the raise, the hold, the removal and the fault level. -/
theorem eventsAreToldAndExpire : Obligations.EventsAreToldAndExpire := by
  unfold Obligations.EventsAreToldAndExpire
  intro has held without weakestOf enters told
  have has_iff : ∀ l k, has l k ↔ hasKey l k = true := fun l k => hasKey_iff.symm
  have held_iff : ∀ c k, held c k ↔ isHeld c k = true := fun c k => by
    rw [isHeld_iff, ← has_iff, ← has_iff]
  have weakest_eq : ∀ l w, weakestOf l w → weakest l = some w := fun l w ⟨before, after, split, lower, least⟩ => by
    rw [split]
    exact weakest_of_split least before lower
  have enters_of : ∀ (c y : ConditionUnit) (e : CondEntry), y.table = (enterCond c e).table →
      y.displaced = (enterCond c e).displaced → enters c e y := fun c y e table displaced => by
    refine ⟨fun room => ?_, fun w full weak => ?_⟩
    · obtain ⟨table', displaced'⟩ := enterCond_room room e
      exact ⟨table.trans table', displaced.trans displaced'⟩
    · obtain ⟨higher, lower⟩ := enterCond_full full (weakest_eq _ _ weak) e
      refine ⟨fun is => ?_, fun is => ?_⟩
      · exact ⟨table.trans (higher is).1, (displaced.trans (higher is).2).trans (displace_displaced c w)⟩
      · exact ⟨table.trans (lower is).1, (displaced.trans (lower is).2).trans (displace_displaced c e)⟩
  have told_of : ∀ (c y : ConditionUnit) (k : CondKey), y.queue = (offerQueue c k).queue →
      y.overflow = (offerQueue c k).overflow → told c k y := fun c y k queue overflow => by
    unfold told
    rw [queue, overflow]
    refine ⟨offerQueue_known, fun new room => ?_, fun new full => ?_⟩
    · rw [(offerQueue_new new).trans (if_pos room)]
      exact ⟨rfl, rfl⟩
    · rw [(offerQueue_new new).trans (if_neg (Nat.not_lt.mpr full))]
      exact ⟨rfl, rfl⟩
  refine ⟨fun x q none => exec_of_effect ?_ q, ?_, ?_, ?_, fun c => ?_⟩
  · exact congrArg (fun c => { x with cond := c }) (expireConds_none none)
  · intro c k level event y
    refine ⟨fun known => ?_, fun new => ?_, told_of c y k (raiseEvent_queue c k level) (raiseEvent_overflow c k level)⟩
    · unfold y raiseEvent
      rw [offerQueue_frame, if_pos ((has_iff _ _).mp known)]
      exact ⟨rfl, rfl⟩
    · have entry : newEntry c k level = { key := k, level := level, expiry := some 250, raised := c.nextRaise } := by
        unfold newEntry
        rw [if_pos event]
        rfl
      rw [← entry]
      refine enters_of c y _ ?_ ?_ <;> unfold y raiseEvent <;>
        rw [offerQueue_frame, if_neg (mt (has_iff _ _).mpr new)]
  · intro c k level state y
    refine ⟨fun known => if_pos ((held_iff c k).mp known), fun new => ⟨?_, ?_, ?_⟩⟩
    · have entry : newEntry c k level = { key := k, level := level, expiry := none, raised := c.nextRaise } := by
        unfold newEntry
        rw [if_neg (by rw [state]; exact Bool.false_ne_true)]
      rw [← entry]
      refine enters_of c y _ ?_ ?_ <;> unfold y holdCond <;> rw [if_neg (mt (held_iff c k).mpr new), offerQueue_frame]
    · refine told_of c y k ?_ ?_ <;> unfold y holdCond <;> rw [if_neg (mt (held_iff c k).mpr new)]
      · refine offerQueue_queue_congr ?_ k
        exact enterCond_queue c _
      · refine offerQueue_overflow_congr ?_ ?_ k
        · exact enterCond_queue c _
        · rw [enterCond_frame]
    · exact (held_iff y k).mpr ((isHeld_holdCond c k level state).mpr (.inr rfl))
  · intro c k sound y
    refine ⟨?_, congrArg (·.queue) (removeCond_frame c k), congrArg (·.overflow) (removeCond_frame c k),
      fun key other state => ?_, fun none => removeCond_none none k⟩
    · rw [held_iff, isHeld_removeCond_self sound k]
      exact Bool.false_ne_true
    · rw [held_iff, held_iff, isHeld_removeCond state (keysOnce_apart sound.keysOnce k)]
      exact and_iff_left other
  · obtain ⟨-, each, attained⟩ := foldl_max_level c.table 0
    refine ⟨fun none => by rw [faultLevel, none]; rfl, each, fun some => ?_⟩
    rcases attained with zero | top
    · obtain ⟨e, rest, cons⟩ := List.exists_cons_of_ne_nil some
      have member : e ∈ c.table := cons ▸ List.mem_cons_self
      refine ⟨e, member, Nat.le_antisymm (each e member) ?_⟩
      exact zero.trans_le (Nat.zero_le _)
    · exact top

end Sys2Proof.Machine
end

