-- ==== Sys2Proof/Proofs/ListenRules.lean ====
section
/-! The returns to LISTEN (R64, R74, R76, R77, Table 5-5). -/

namespace Sys2Proof.Machine

section

variable {touched : CondKey → Prop}

theorem Station.follows_seeDisable (s : Station) (level : Bool) (is : touched { code := .haltInput, source := 0 }) :
    s.Follows touched (s.seeDisable level) := by
  cases level
  · rw [Station.seeDisable_released]
    exact ConditionUnit.Follows.set (level := 3) false _ is
  · rw [Station.seeDisable_asserted]
    exact ConditionUnit.Follows.set (level := 3) true _ is

theorem Station.follows_seeDrvFlt (s : Station) (level : Bool) (is : touched { code := .driveFault, source := 0 }) :
    s.Follows touched (s.seeDrvFlt level) := by
  by_cases drives : isDriveRole s.params.role = true
  · cases level
    · rw [Station.seeDrvFlt_released drives]
      exact ConditionUnit.Follows.set (level := 2) false _ is
    · rw [Station.seeDrvFlt_asserted drives]
      exact ConditionUnit.Follows.set (level := 2) true _ is
  · rw [Station.seeDrvFlt_other (Bool.eq_false_iff.mpr drives)]
    exact .refl

theorem Station.follows_samplePins (s : Station) (halt : touched { code := .haltInput, source := 0 })
    (fault : touched { code := .driveFault, source := 0 }) : s.Follows touched s.samplePins := by
  unfold Station.samplePins
  split
  · exact (s.follows_seeDisable _ halt).trans (Station.follows_seeDrvFlt _ _ fault)
  · exact .refl

theorem Station.follows_reach (s : Station) (p : Nat) (halt : touched { code := .haltInput, source := 0 })
    (fault : touched { code := .driveFault, source := 0 }) : s.Follows touched (s.reach p) := by
  unfold Station.Follows
  rw [Station.reach_cond]
  unfold Station.sampleUntil
  split
  · exact s.follows_samplePins halt fault
  · exact .refl

end

/-! ### The entry to LISTEN -/

theorem clearedPeers_get (own : StationNo) (peers : Eight PeerRecord) (k : StationNo) :
    (clearedPeers own peers).get k =
      if k = own then { peers.get k with lastReport := none, lastHeard := none } else PeerRecord.reset (peers.get k).rosterRole :=
  Eight.get_ofFn _ k

theorem Station.enterListen_peers (s : Station) : s.enterListen.peers = clearedPeers s.number s.peers := by
  simp only [Station.enterListen, Station.setHeld_peers, Station.restAuthority_peers, Station.clearEngine,
    Station.removeDemandLost_peers, Station.clearMeasurement_peers]
  rw [Station.clearPeers_peers]
  rfl

theorem Station.enterListen_measured (s : Station) : s.enterListen.meas = s.clearMeasurement.meas := by
  simp only [Station.enterListen, Station.setHeld_meas, Station.restAuthority_meas, Station.clearEngine,
    Station.removeDemandLost_meas]
  unfold Station.clearMeasurement Station.postList Station.isDifferential
  simp

theorem Station.enterListen_atRest (s : Station) : s.enterListen.auth = Authority.atRest := by
  simp [Station.enterListen, Station.restAuthority_auth]

/-- The keys that an entry to LISTEN removes. -/
theorem mem_listenKeys (key : CondKey) :
    key ∈ listenKeys ↔
      (key.code = .demandLost ∧ key.source ≤ 8) ∨ (key.code = .splitView ∧ key.source = 0)
        ∨ ((key.code = .tiltSole ∨ key.code = .tiltVacant ∨ key.code = .steerVacant) ∧ key.source = 0)
        ∨ (key.code = .authGiveup ∧ key.source ≤ 1) ∨ (key.code = .roleMismatch ∧ key.source ≤ 7)
        ∨ (key.code = .configDiffers ∧ key.source ≤ 8) := by
  have listed : listenKeys =
      [⟨.roleMismatch, 0⟩, ⟨.configDiffers, 0⟩, ⟨.roleMismatch, 1⟩, ⟨.configDiffers, 1⟩, ⟨.roleMismatch, 2⟩, ⟨.configDiffers, 2⟩,
        ⟨.roleMismatch, 3⟩, ⟨.configDiffers, 3⟩, ⟨.roleMismatch, 4⟩, ⟨.configDiffers, 4⟩, ⟨.roleMismatch, 5⟩, ⟨.configDiffers, 5⟩,
        ⟨.roleMismatch, 6⟩, ⟨.configDiffers, 6⟩, ⟨.roleMismatch, 7⟩, ⟨.configDiffers, 7⟩]
        ++ engineKeys ++ authorityKeys ++ [⟨.configDiffers, 8⟩] := rfl
  obtain ⟨code, source⟩ := key
  rw [listed]
  simp only [engineKeys, authorityKeys, List.mem_append, List.mem_cons, List.mem_map, List.mem_range, CondKey.mk.injEq,
    List.not_mem_nil, or_false, eq_comm (a := CondCode.demandLost), exists_eq_right_right]
  cases code <;> simp <;> omega

/-- What a return to LISTEN makes of the station it begins from, TXD in its first bit time with it (R77, Table 5-5). -/
structure Station.Returned (t y : Station) (cut : Bool) : Prop where
  member : y.member = t.member.atListen
  bus : y.bus = { t.bus.atListen with cutBit := cut }
  peers : y.peers = clearedPeers t.number t.peers
  engine : y.engine = Engine.reset
  auth : y.auth = Authority.atRest
  drive : y.drive = t.drive.atListen
  meas : y.meas = t.clearMeasurement.meas
  cond : y.cond = t.enterListen.cond
  pins : y.pins = t.pins
  loader : y.loader = t.loader
  params : y.params = t.params

theorem Station.enterListen_returned (t : Station) : t.Returned t.enterListen false where
  member := t.enterListen_member
  bus := t.enterListen_bus
  peers := t.enterListen_peers
  engine := t.enterListen_engine
  auth := t.enterListen_atRest
  drive := t.enterListen_drive
  meas := t.enterListen_measured
  cond := rfl
  pins := t.enterListen_pins
  loader := t.enterListen_loader
  params := t.enterListen_params

/-- The same with the bit time of a mark cut (R74). -/
theorem Station.Returned.cut {t y : Station} (h : t.Returned y false) (cut : Bool) :
    t.Returned { y with bus := { y.bus with cutBit := cut } } cut where
  member := h.member
  bus := by rw [h.bus]
  peers := h.peers
  engine := h.engine
  auth := h.auth
  drive := h.drive
  meas := h.meas
  cond := h.cond
  pins := h.pins
  loader := h.loader
  params := h.params

/-- After a return TXD holds the level kept for the present bit time, and is released in the next one (R3, R74). -/
theorem Station.Returned.txd {t y : Station} {cut : Bool} (h : t.Returned y cut) :
    (∀ read : BitVec 70, y.txdDominant read = cut)
      ∧ ∀ (n : Nat) (read : BitVec 70), 0 < n → (y.reach n).txdDominant read = false := by
  have listen : y.member.state = .listen := by rw [h.member]; rfl
  have kept : ∀ (x : Station) (read : BitVec 70), x.member.state = .listen → x.txdDominant read = x.bus.cutBit :=
    fun x read listen => by simp [Station.txdDominant, Station.drivesDominant, listen, isDriving]
  refine ⟨fun read => ?_, fun n read later => ?_⟩
  · rw [kept y read listen, h.bus]
  · rw [kept _ read ((Station.reach_listen_iff y n).mpr listen), Station.reach_bus_cutBit, h.bus]
    simp [BusUnit.atListen, BusUnit.reset]
    omega

theorem Station.Returned.held {t y : Station} {cut : Bool} (h : t.Returned y cut) (sound : t.cond.tableSound) {key : CondKey}
    (state : condIsEvent key.code = false) : isHeld y.cond key = true ↔ isHeld t.cond key = true ∧ key ∉ listenKeys := by
  rw [h.cond]
  exact Station.isHeld_enterListen sound.keysOnce state

/-- The return after a loss is an entry to LISTEN of the station with the loss counted and BUS_LOSS raised (R74). -/
theorem Station.returnAfterLoss_from (x : Station) :
    ∃ t : Station,
      x.returnAfterLoss =
          { t.enterListen with
            bus := { t.enterListen.bus with cutBit := isDriving x.member.state && x.bus.markDominant } }
        ∧ t = { x with
            member := { x.member with losses := min 4 (x.member.losses + 1) }
            cond := raiseEvent x.cond { code := .busLoss, source := 0 } 3 } :=
  ⟨_, rfl, rfl⟩

/-- What each of the two commands begins its return from (R74, R76). -/
theorem Station.returns {x : Station} {c : Instr}
    (due : (c = .busLoss ∧ isDriving x.member.state = true ∧ 4 ≤ x.member.lossPeriods)
      ∨ (c = .silentHoldEnd ∧ x.member.state = .silent)) :
    ∃ t y : Station, effect c x = y ∧ t.Returned y (decide (c = .busLoss) && x.bus.markDominant)
      ∧ (c = .busLoss → t = { x with
          member := { x.member with losses := min 4 (x.member.losses + 1) }
          cond := raiseEvent x.cond { code := .busLoss, source := 0 } 3 })
      ∧ (c = .silentHoldEnd → t = if x.member.silentHold < 160000 then x.samplePins else x) := by
  rcases due with ⟨rfl, driving, many⟩ | ⟨rfl, silent⟩
  · have lost : effect .busLoss x = x.returnAfterLoss :=
      if_pos (by simp only [Station.busLossDue, driving, Config.lossPeriods, Bool.true_and]; exact decide_eq_true many)
    obtain ⟨t, returned, is⟩ := x.returnAfterLoss_from
    refine ⟨t, _, lost, ?_, fun _ => is, fun is => (by cases is)⟩
    rw [returned, driving, decide_eq_true rfl]
    have entered := t.enterListen_returned
    exact entered.cut _
  · have ended : effect .silentHoldEnd x = x.passHold.enterListen := if_pos silent
    exact ⟨_, _, ended, Station.enterListen_returned _, fun is => (by cases is), fun _ => rfl⟩

/-- Settles O52: the two returns, from what each of them begins. -/
theorem returnsEnterListen : Obligations.ReturnsEnterListen := by
  intro x q c due s ring leaves
  obtain ⟨t, y, effect_eq, returned, loss, hold⟩ := Station.returns due
  have sampled : s = x ∨ s = x.samplePins := by
    unfold s
    split
    · exact .inr rfl
    · exact .inl rfl
  have sound : x.cond.tableSound → s.cond.tableSound := fun h => by
    rcases sampled with is | is <;> rw [is]
    · exact h
    · exact (x.follows_samplePins (touched := fun _ => True) trivial trivial).sound h
  have kept : t.bus = x.bus ∧ t.peers = x.peers ∧ t.meas = x.meas ∧ t.pins = x.pins ∧ t.loader = x.loader ∧ t.params = x.params
      ∧ t.drive = s.drive ∧ t.member.silencings = x.member.silencings ∧ t.member.disableSeen = s.member.disableSeen
      ∧ t.member.losses = (if c = .busLoss then min 4 (x.member.losses + 1) else x.member.losses)
      ∧ t.cond.queue = (if c = .busLoss then (offerQueue x.cond { code := .busLoss, source := 0 }).queue else s.cond.queue)
      ∧ (x.cond.tableSound → t.cond.tableSound ∧ ∀ key : CondKey, condIsEvent key.code = false →
          isHeld t.cond key = isHeld s.cond key) := by
    rcases due with ⟨rfl, -⟩ | ⟨rfl, -⟩
    · have same : s = x := if_neg (fun both => by cases both.1)
      rw [loss rfl, same]
      exact ⟨rfl, rfl, rfl, rfl, rfl, rfl, rfl, rfl, rfl, rfl, raiseEvent_queue _ _ _, fun sound =>
        ⟨raiseEvent_tableSound sound rfl 3, fun key state => isHeld_raiseEvent x.cond rfl 3 state⟩⟩
    · have same : t = s := by
        rw [hold rfl]
        unfold s
        simp
      rw [same]
      have counts : s.member.silencings = x.member.silencings ∧ s.member.losses = x.member.losses := by
        rcases sampled with is | is <;> rw [is]
        · exact ⟨rfl, rfl⟩
        · rw [x.samplePins_member]
          exact ⟨rfl, rfl⟩
      have frame : s.bus = x.bus ∧ s.peers = x.peers ∧ s.meas = x.meas ∧ s.pins = x.pins ∧ s.loader = x.loader
          ∧ s.params = x.params := by
        rcases sampled with is | is <;> rw [is]
        · exact ⟨rfl, rfl, rfl, rfl, rfl, rfl⟩
        · obtain ⟨pins, loader, params, bus, peers, meas, -⟩ := x.samplePins_frame
          exact ⟨bus, peers, meas, pins, loader, params⟩
      obtain ⟨bus, peers, meas, pins, loader, params⟩ := frame
      exact ⟨bus, peers, meas, pins, loader, params, rfl, counts.1, rfl, counts.2, rfl, fun h => ⟨sound h, fun _ _ => rfl⟩⟩
  obtain ⟨bus, peers, meas, pins, loader, params, drive, silencings, disableSeen, losses, queue, held⟩ := kept
  have number : t.number = x.number := congrArg (·.straps) loader
  obtain ⟨now, later⟩ := returned.txd
  have queue_kept := t.enterListen_queue.1
  clear_value s
  refine ⟨y, exec_of_effect effect_eq q, ?_, by rw [returned.bus]; rfl, by rw [returned.bus]; rfl, by rw [returned.bus]; rfl,
    by rw [returned.bus]; rfl, by rw [returned.bus]; rfl, by rw [returned.bus]; rfl, by rw [returned.bus]; rfl,
    by rw [returned.bus]; rfl, by rw [returned.bus]; rfl, ?_, by rw [returned.bus]; rfl, fun k other => ?_, ?_, ?_,
    returned.engine, returned.auth, ?_, ?_, fun h key state => ?_, ?_, ?_, ?_, now, later, returned.pins.trans pins,
    returned.loader.trans loader, returned.params.trans params⟩
  · rw [returned.member, MembershipUnit.atListen, silencings, losses, disableSeen]
  · rw [returned.bus, bus]
    rfl
  · rw [returned.peers, clearedPeers_get, number, if_neg other, peers]
  · rw [returned.peers, clearedPeers_get, number, if_pos rfl, peers]
  · rw [returned.peers, clearedPeers_get, number, if_pos rfl]
  · rw [returned.drive, drive]
    rfl
  · rw [returned.meas]
    unfold Station.clearMeasurement Station.postList Station.isDifferential
    rw [meas, params]
    rfl
  · rw [returned.held (held h).1 state, (held h).2 key state, mem_listenKeys]
  · rw [returned.cond, Station.enterListen_cond]
  · rw [returned.cond, Station.enterListen_cond]
  · rw [returned.cond, queue_kept, queue]

end Sys2Proof.Machine
end

