-- ==== Sys2Proof/Proofs/MarklessRules.lean ====
section
/-! The own mark that reads recessive, and the end of an abandoned round (R8, R21). -/

namespace Sys2Proof.Machine

/-! ### The end of an abandoned round (R21; log 58) -/

/-- A frame of the own slot was begun. -/
def OwnSlot.begun : OwnSlot → Bool
  | .sending _ _ _ => true
  | .notBegun | .ended => false

theorem BusUnit.cutFrame_eq (b : BusUnit) :
    b.cutFrame =
      { b with
        nextSeq := if b.round.ownSlot.begun = true then !b.nextSeq else b.nextSeq
        round := { b.round with ownSlot := if b.round.ownSlot.begun = true then .ended else b.round.ownSlot } } := by
  unfold BusUnit.cutFrame OwnSlot.begun
  cases h : b.round.ownSlot <;> simp [← h]

/-- What the consumers of an abandoned round are told at its end, part by part (R21, R25, R36, R49, R59, R69). -/
theorem Station.closeAbandoned_abandoned {s : Station} (abandoned : s.bus.round.abandoned = true) :
    s.closeAbandoned =
      { s with
        bus :=
          { s.bus with
            held := if s.bus.round.tallyCut = true then s.bus.held.markAbandoned else s.bus.held
            ownSig := if (s.bus.round.tallyCut || !s.bus.round.sectionDone) = true then none else s.bus.ownSig
            pendingRecord := if s.bus.round.tallyCut = true then none else s.bus.pendingRecord
            nextSeq := if s.bus.round.ownSlot.begun = true then !s.bus.nextSeq else s.bus.nextSeq
            round := { s.bus.round with ownSlot := if s.bus.round.ownSlot.begun = true then .ended else s.bus.round.ownSlot } }
        member :=
          { s.member with
            matchCount :=
              if (s.member.state = .join ∨ s.member.state = .quiet) ∧ s.bus.round.sectionDone = false then 0
              else s.member.matchCount } } := by
  unfold Station.closeAbandoned
  rw [if_pos abandoned]
  dsimp only
  rw [BusUnit.cutFrame_eq]
  cases s.bus.round.tallyCut <;> cases done : s.bus.round.sectionDone <;>
    simp [done, Station.handNothing, BusUnit.tellTally]

/-! ### The markless start (R8, R21, R175) -/

theorem Station.startMarkless_bus (s : Station) (position : Nat) :
    (s.startMarkless position).bus =
      { s.closeAbandoned.bus with
        position := position, candidate := none, mark := none, stuckCount := 0, stuckNext := 0
        round := { RoundState.fresh .markless with abandoned := true, cutAt := position } } := rfl

theorem Station.startMarkless_cond (s : Station) (position : Nat) :
    (s.startMarkless position).cond =
      raiseEvent (expireConds (ageConds s.cond)) { code := .busFault, source := 0 } 3 := by
  obtain ⟨-, -, -, -, -, -, -, -, cond⟩ := s.closeAbandoned_frame
  unfold Station.startMarkless Station.ageConditions Station.raise Station.abandonRound
  dsimp only
  rw [cond]
  rfl

theorem Station.startMarkless_rest (s : Station) (position : Nat) :
    (s.startMarkless position).member = s.closeAbandoned.member ∧ (s.startMarkless position).pins = s.pins
      ∧ (s.startMarkless position).loader = s.loader ∧ (s.startMarkless position).params = s.params
      ∧ (s.startMarkless position).peers = s.peers ∧ (s.startMarkless position).meas = s.meas
      ∧ (s.startMarkless position).engine = s.engine ∧ (s.startMarkless position).auth = s.auth
      ∧ (s.startMarkless position).drive = s.drive := by
  obtain ⟨pins, loader, params, peers, meas, engine, auth, drive, -⟩ := s.closeAbandoned_frame
  exact ⟨rfl, pins, loader, params, peers, meas, engine, auth, drive⟩

theorem Station.closeAbandoned_roundNumber (s : Station) : s.closeAbandoned.bus.roundNumber = s.bus.roundNumber := by
  by_cases abandoned : s.bus.round.abandoned = true
  · rw [Station.closeAbandoned_abandoned abandoned]
  · rw [Station.closeAbandoned_none (Bool.eq_false_iff.mpr abandoned)]

/-- In a round that drives nothing, with no mark, a driving station releases TXD (R3, R21). -/
theorem Station.txdDominant_of_abandoned {s : Station} (driving : isDriving s.member.state = true) (mark : s.bus.mark = none)
    (abandoned : s.bus.round.abandoned = true) (read : BitVec 70) : s.txdDominant read = false := by
  rw [Station.txdDominant_of_driving driving]
  unfold Station.drivesDominant BusUnit.markDominant
  simp only [mark, abandoned, Bool.not_true, Bool.false_and, Option.any_none, Bool.false_or]
  cases s.bus.round.image <;> cases s.bus.round.ownSlot <;> simp

/-- A mark that stands, as the bit times up to a position leave it. -/
theorem Station.reach_mark (s : Station) (p : Nat) : (s.reach p).bus.mark = s.bus.mark.map (MarkDrive.later (p - s.bus.position)) := by
  rcases s.reach_round_cases p with h | h <;> rw [h] <;> rfl

/-- Settles O13: no mark, an unconfirmed one, a confirmed one, and what the end of an abandoned round tells. -/
theorem unreadMarkIsMarkless : Obligations.UnreadMarkIsMarkless := by
  refine ⟨fun x q sample none => exec_of_effect ?_ q, fun x q sample m mark => ?_⟩
  · change x.markNotReadBack sample.val = x
    unfold Station.markNotReadBack
    rw [none]
  · have read_back : effect (.markNotReadBack sample) x =
        if m.confirmed = true then x.atMoment sample.val Station.faultMark else x.markMissed m sample.val := by
      change x.markNotReadBack sample.val = _
      unfold Station.markNotReadBack
      rw [mark]
    have unconfirmed : m.confirmed = false → effect (.markNotReadBack sample) x = x.markMissed m sample.val := fun is =>
      read_back.trans (if_neg (Bool.eq_false_iff.mp is))
    refine ⟨fun is passed => exec_of_effect ?_ q, fun is passed => exec_of_effect ?_ q, ?_, ?_, fun x => ?_⟩
    · exact (unconfirmed is).trans (if_neg (Nat.not_le.mpr passed))
    · exact (read_back.trans (if_pos is)).trans (Station.atMoment_passed _ (Nat.not_le.mpr passed))
    · intro t ended is coming driving
      have missed : effect (.markNotReadBack sample) x = t.startMarkless sample.val :=
        (unconfirmed is).trans (if_pos coming)
      have drives : isDriving t.member.state = true := (x.reach_isDriving _).trans driving
      have parts : t.bus.roundNumber = x.bus.roundNumber
          ∧ t.pins = x.pins
          ∧ t.loader = x.loader
          ∧ t.params = x.params
          ∧ t.peers = x.peers
          ∧ t.meas = x.meas
          ∧ t.engine = x.engine
          ∧ t.auth = x.auth := by simp [t]
      clear_value t
      obtain ⟨number, pins, loader, params, peers, meas, engine, auth⟩ := parts
      have rest := t.startMarkless_rest sample.val
      rw [pins, loader, params, peers, meas, engine, auth] at rest
      obtain ⟨member, rest⟩ := rest
      have bus := t.startMarkless_bus sample.val
      have still : isDriving (t.startMarkless sample.val).member.state = true := by
        rw [Station.startMarkless_state]
        exact drives
      have released := Station.txdDominant_of_abandoned still (by rw [bus]) (by rw [bus])
      rw [← number, ← t.closeAbandoned_roundNumber]
      exact ⟨_, exec_of_effect missed q, bus, t.startMarkless_cond sample.val, released, member, rest⟩
    · intro t is coming
      have here : effect (.markNotReadBack sample) x = (x.reach sample.val).faultMark :=
        (read_back.trans (if_pos is)).trans (Station.atMoment_due _ coming)
      have stands := x.reach_mark sample.val
      rw [mark] at stands
      refine ⟨fun unfaulted => exec_of_effect (here.trans ?_) q, fun faulted => exec_of_effect (here.trans ?_) q⟩
      · unfold Station.faultMark
        rw [stands]
        simp only [Option.map_some, MarkDrive.later, unfaulted, is]
        rfl
      · unfold Station.faultMark
        rw [stands]
        simp only [Option.map_some, MarkDrive.later, faulted, if_true, t]
    · intro round begun early
      refine ⟨Station.closeAbandoned_none, fun abandoned => ?_⟩
      have cut : round.tallyCut = early := by
        unfold RoundState.tallyCut
        rw [abandoned, Bool.true_and]
        rfl
      have slot : round.ownSlot.begun = begun := by
        unfold OwnSlot.begun
        rfl
      rw [Station.closeAbandoned_abandoned abandoned, show x.bus.round = round from rfl, cut, slot]
      rfl

end Sys2Proof.Machine
end

