-- ==== Sys2Proof/Proofs/ScanRules.lean ====
section
/-! The scan of the Measurement Unit: what its end makes of each part (R102, R107 to R109, R114, R115), and
the pulses (R110, R111). -/

namespace Sys2Proof.Machine

theorem Eight.set_get_self {α : Type} (v : Eight α) (k : Fin 8) : v.set k (v.get k) = v :=
  fin8_cases (p := fun k => v.set k (v.get k) = v) rfl rfl rfl rfl rfl rfl rfl rfl k

/-! ### One channel's monitor (R107) -/

/-- The monitor of a channel after the scan's value of it: one that is off, or that has no value, stands. -/
def Station.nextMonitor (s : Station) (c : StationNo) : Monitor :=
  match s.meas.working.channels.get c with
  | none => s.meas.monitors.get c
  | some x =>
    if s.isMapped c && decide (0 < (s.params.own.channels.get c).filter) then
      monitorStep (s.params.own.channels.get c).filter (s.meas.monitors.get c) (monitorClass (s.params.own.channels.get c) x)
    else s.meas.monitors.get c

/-- One channel's monitor replaced. -/
def Station.setMonitor (s : Station) (c : StationNo) (m : Monitor) : Station :=
  { s with meas := { s.meas with monitors := s.meas.monitors.set c m } }

theorem Station.monitorChannel_eq (s : Station) (c : StationNo) :
    s.monitorChannel c =
      if (s.nextMonitor c).state = (s.meas.monitors.get c).state then s.setMonitor c (s.nextMonitor c)
      else (s.setMonitor c (s.nextMonitor c)).monitorConds c (s.nextMonitor c).state := by
  unfold Station.monitorChannel Station.nextMonitor Station.setMonitor
  cases s.meas.working.channels.get c with
  | none => simp [Eight.set_get_self]
  | some x =>
    dsimp only
    split
    · rfl
    · simp [Eight.set_get_self]

theorem Station.monitorChannel_meas (s : Station) (c : StationNo) :
    (s.monitorChannel c).meas = { s.meas with monitors := s.meas.monitors.set c (s.nextMonitor c) } := by
  rw [Station.monitorChannel_eq]
  split
  · rfl
  · obtain ⟨-, -, -, -, -, -, meas, -⟩ := (s.setMonitor c (s.nextMonitor c)).monitorConds_frame c (s.nextMonitor c).state
    exact meas

/-- A channel of the list leaves the monitors of the others to them. -/
theorem Station.nextMonitor_monitorChannel_other (s : Station) {c d : StationNo} (other : d ≠ c) :
    (s.monitorChannel c).nextMonitor d = s.nextMonitor d := by
  obtain ⟨-, -, params, -⟩ := s.monitorChannel_frame c
  unfold Station.nextMonitor Station.isMapped
  rw [params, s.monitorChannel_meas c]
  dsimp only
  rw [Eight.get_set_other _ _ _ _ other]

theorem Station.foldl_monitorChannel_meas (written : List StationNo) :
    ∀ s : Station, ∃ monitors : Eight Monitor,
      (written.foldl Station.monitorChannel s).meas = { s.meas with monitors := monitors } := by
  induction written with
  | nil => exact fun s => ⟨_, rfl⟩
  | cons c rest ih =>
    intro s
    obtain ⟨monitors, meas⟩ := ih (s.monitorChannel c)
    exact ⟨monitors, by rw [List.foldl_cons, meas, s.monitorChannel_meas c]⟩

/-- A channel outside the list keeps its monitor. -/
theorem Station.foldl_monitorChannel_unlisted {c : StationNo} (written : List StationNo) :
    ∀ s : Station, c ∉ written → (written.foldl Station.monitorChannel s).meas.monitors.get c = s.meas.monitors.get c := by
  induction written with
  | nil => exact fun s _ => rfl
  | cons d rest ih =>
    intro s apart
    rw [List.mem_cons, not_or] at apart
    rw [List.foldl_cons, ih _ apart.2, s.monitorChannel_meas d]
    exact Eight.get_set_other _ _ _ _ apart.1

/-- The channels of a scan, each once, take their own monitor's step (R101, R107). -/
theorem Station.foldl_monitorChannel_listed {c : StationNo} (written : List StationNo) :
    ∀ s : Station, written.Nodup → c ∈ written →
      (written.foldl Station.monitorChannel s).meas.monitors.get c = s.nextMonitor c := by
  induction written with
  | nil => exact fun s _ member => absurd member List.not_mem_nil
  | cons d rest ih =>
    intro s nodup member
    obtain ⟨fresh, nodup'⟩ := List.nodup_cons.mp nodup
    rw [List.foldl_cons]
    rcases List.mem_cons.mp member with rfl | later
    · rw [Station.foldl_monitorChannel_unlisted rest _ fresh, s.monitorChannel_meas c]
      exact Eight.get_set_self _ _ _
    · rw [ih _ nodup' later]
      exact s.nextMonitor_monitorChannel_other fun same => fresh (same ▸ later)

/-! ### The conditions of the monitors (R107) -/

theorem Station.isHeld_setHeldAt {s : Station} (sound : s.cond.tableSound) (cause : Bool) {code : CondCode} (source level : Nat)
    {key : CondKey} (state : condIsEvent key.code = false) :
    isHeld (s.setHeldAt cause code source level).cond key =
      if key = { code := code, source := source } then cause else isHeld s.cond key :=
  isHeld_setCond sound.keysOnce cause _ state

theorem Station.setHeldAt_tableSound {s : Station} (sound : s.cond.tableSound) (cause : Bool) (code : CondCode)
    (source level : Nat) : (s.setHeldAt cause code source level).cond.tableSound := setCond_tableSound sound _ _ _

/-- The conditions of a monitor follow its state. -/
theorem Station.monitorConds_held {s : Station} (sound : s.cond.tableSound) (c : StationNo) (state : MonitorState) :
    isHeld (s.monitorConds c state).cond { code := .channelLow, source := c.val } = decide (state = .low)
      ∧ isHeld (s.monitorConds c state).cond { code := .channelHigh, source := c.val } = decide (state = .high) := by
  unfold Station.monitorConds
  cases state <;> dsimp only <;> rw [Station.isHeld_setHeldAt (Station.setHeldAt_tableSound sound _ _ _ _) _ _ _ rfl,
    Station.isHeld_setHeldAt (Station.setHeldAt_tableSound sound _ _ _ _) _ _ _ rfl,
    Station.isHeld_setHeldAt sound _ _ _ rfl, Station.isHeld_setHeldAt sound _ _ _ rfl] <;> simp

/-- The keys of a channel's monitor. -/
def isMonitorKey (c : StationNo) (key : CondKey) : Prop :=
  key = { code := .channelLow, source := c.val } ∨ key = { code := .channelHigh, source := c.val }

theorem Station.follows_setHeldAt {touched : CondKey → Prop} (s : Station) (cause : Bool) {code : CondCode} {source : Nat}
    (level : Nat) (is : touched { code := code, source := source }) : s.Follows touched (s.setHeldAt cause code source level) :=
  .set _ _ _ is

theorem Station.follows_monitorConds (s : Station) (c : StationNo) (state : MonitorState) :
    s.Follows (isMonitorKey c) (s.monitorConds c state) := by
  unfold Station.monitorConds
  cases state
  · exact (s.follows_setHeldAt _ _ (.inl rfl)).trans (Station.follows_setHeldAt _ _ _ (.inr rfl))
  · exact (s.follows_setHeldAt _ _ (.inr rfl)).trans (Station.follows_setHeldAt _ _ _ (.inl rfl))
  · exact (s.follows_setHeldAt _ _ (.inl rfl)).trans (Station.follows_setHeldAt _ _ _ (.inr rfl))

theorem Station.follows_monitorChannel (s : Station) (c : StationNo) : s.Follows (isMonitorKey c) (s.monitorChannel c) := by
  rw [Station.monitorChannel_eq]
  split
  · exact .refl
  · exact (s.setMonitor c (s.nextMonitor c)).follows_monitorConds c _

/-- Two channels share no key. -/
theorem isMonitorKey_apart {c d : StationNo} (other : d ≠ c) {key : CondKey} (is : isMonitorKey d key) :
    ¬isMonitorKey c key := by
  have values : d.val ≠ c.val := fun same => other (Fin.ext same)
  rcases is with rfl | rfl <;> rintro (is | is) <;> simp_all

/-- What the channel's conditions show once its monitor has moved, or stands (R107). -/
def monitorShown (before : ConditionUnit) (was : Monitor) (after : ConditionUnit) (is : Monitor) (c : StationNo) : Prop :=
  (is.state ≠ was.state →
      isHeld after { code := .channelLow, source := c.val } = decide (is.state = .low)
        ∧ isHeld after { code := .channelHigh, source := c.val } = decide (is.state = .high))
    ∧ (is.state = was.state →
      isHeld after { code := .channelLow, source := c.val } = isHeld before { code := .channelLow, source := c.val }
        ∧ isHeld after { code := .channelHigh, source := c.val } = isHeld before { code := .channelHigh, source := c.val })

/-- What leaves the channel's keys leaves what its conditions show. -/
theorem monitorShown.follows {before mid after : ConditionUnit} {was is : Monitor} {c : StationNo}
    (shown : monitorShown before was mid is c) {touched : CondKey → Prop} (sound : mid.tableSound)
    (h : mid.Follows touched after) (apart : ∀ key, isMonitorKey c key → ¬touched key) :
    monitorShown before was after is c := by
  unfold monitorShown
  rw [h.held sound _ rfl (apart _ (.inl rfl)), h.held sound _ rfl (apart _ (.inr rfl))]
  exact shown

theorem Station.monitorChannel_shown {s : Station} (sound : s.cond.tableSound) (c : StationNo) :
    monitorShown s.cond (s.meas.monitors.get c) (s.monitorChannel c).cond (s.nextMonitor c) c := by
  rw [Station.monitorChannel_eq]
  split
  · next same => exact ⟨fun moved => absurd same moved, fun _ => ⟨rfl, rfl⟩⟩
  · next moved => exact ⟨fun _ => Station.monitorConds_held (s := s.setMonitor c (s.nextMonitor c)) sound c _,
      fun same => absurd same moved⟩

/-- Every channel's conditions show its monitor after the channels of a scan, each once. -/
theorem Station.foldl_monitorChannel_shown (written : List StationNo) :
    ∀ s : Station, written.Nodup → s.cond.tableSound →
      (written.foldl Station.monitorChannel s).cond.tableSound ∧
        ∀ c, monitorShown s.cond (s.meas.monitors.get c) (written.foldl Station.monitorChannel s).cond
          ((written.foldl Station.monitorChannel s).meas.monitors.get c) c := by
  induction written with
  | nil => exact fun s _ sound => ⟨sound, fun c => ⟨fun moved => absurd rfl moved, fun _ => ⟨rfl, rfl⟩⟩⟩
  | cons d rest ih =>
    intro s nodup sound
    obtain ⟨fresh, nodup'⟩ := List.nodup_cons.mp nodup
    have first := s.follows_monitorChannel d
    obtain ⟨sound', shown⟩ := ih (s.monitorChannel d) nodup' (first.sound sound)
    have meas := s.monitorChannel_meas d
    rw [List.foldl_cons]
    refine ⟨sound', fun c => ?_⟩
    have later := shown c
    by_cases same : c = d
    · subst same
      have stands : (rest.foldl Station.monitorChannel (s.monitorChannel c)).meas.monitors.get c = s.nextMonitor c := by
        rw [Station.foldl_monitorChannel_unlisted rest _ fresh, meas]
        exact Eight.get_set_self _ _ _
      have here := Station.monitorChannel_shown sound c
      rw [stands] at later ⊢
      rw [meas] at later
      dsimp only at later
      rw [Eight.get_set_self] at later
      obtain ⟨low, high⟩ := later.2 rfl
      unfold monitorShown
      rw [low, high]
      exact here
    · rw [meas] at later
      dsimp only at later
      rw [Eight.get_set_other _ _ _ _ same] at later
      have held : ∀ key, condIsEvent key.code = false → isMonitorKey c key →
          isHeld (s.monitorChannel d).cond key = isHeld s.cond key :=
        fun key state is => first.held sound key state (isMonitorKey_apart same is)
      refine ⟨later.1, fun stands => ?_⟩
      obtain ⟨low, high⟩ := later.2 stands
      exact ⟨low.trans (held _ rfl (.inl rfl)), high.trans (held _ rfl (.inr rfl))⟩

/-! ### The pair check (R108) -/

/-- The run count of the pair check after one comparison. -/
def Station.nextPairRun (s : Station) (split : Bool) : Nat := if split = s.meas.apart then 0 else succSat 15 s.meas.pairRun

/-- The pair check with both values, on whether they lie apart. -/
def Station.pairStep (s : Station) (split : Bool) : Station :=
  if s.params.own.pairFilter ≤ s.nextPairRun split then
    ({ s with meas := { s.meas with apart := split, pairRun := 0 } } : Station).setHeld split .sensorPair 0
  else { s with meas := { s.meas with pairRun := s.nextPairRun split } }

theorem Station.pairCheck_eq {s : Station} {a b : StationNo} {u v : Int} (tilt : isTiltRole s.params.role = true)
    (leanA : s.channelOf .leanA = some a) (leanB : s.channelOf .leanB = some b)
    (first : s.meas.working.channels.get a = some u) (second : s.meas.working.channels.get b = some v) :
    s.pairCheck = s.pairStep (decide (s.params.own.pairBand < (u - v).natAbs)) := by
  unfold Station.pairCheck
  rw [if_pos tilt, leanA, leanB]
  dsimp only
  rw [first, second]
  rfl

theorem Station.pairCheck_none {s : Station}
    (missing : isTiltRole s.params.role = false ∨ s.channelOf .leanA = none ∨ s.channelOf .leanB = none) :
    s.pairCheck = s := by
  unfold Station.pairCheck
  rcases missing with other | noA | noB
  · rw [if_neg (Bool.eq_false_iff.mp other)]
  · rw [noA]
    exact ite_self s
  · rw [noB]
    cases s.channelOf .leanA <;> exact ite_self s

theorem Station.pairCheck_cases (s : Station) : s.pairCheck = s ∨ ∃ split, s.pairCheck = s.pairStep split := by
  by_cases tilt : isTiltRole s.params.role = true
  · cases leanA : s.channelOf .leanA with
    | none => exact .inl (Station.pairCheck_none (.inr (.inl leanA)))
    | some a =>
      cases leanB : s.channelOf .leanB with
      | none => exact .inl (Station.pairCheck_none (.inr (.inr leanB)))
      | some b =>
        cases first : s.meas.working.channels.get a with
        | none =>
          left
          unfold Station.pairCheck
          rw [leanA, leanB]
          dsimp only
          rw [first]
          exact ite_self s
        | some u =>
          cases second : s.meas.working.channels.get b with
          | none =>
            left
            unfold Station.pairCheck
            rw [leanA, leanB]
            dsimp only
            rw [first, second]
            exact ite_self s
          | some v => exact .inr ⟨_, Station.pairCheck_eq tilt leanA leanB first second⟩
  · exact .inl (Station.pairCheck_none (.inl (Bool.eq_false_iff.mpr tilt)))

theorem Station.pairStep_meas (s : Station) (split : Bool) :
    (s.pairStep split).meas =
      if s.params.own.pairFilter ≤ s.nextPairRun split then { s.meas with apart := split, pairRun := 0 }
      else { s.meas with pairRun := s.nextPairRun split } := by
  unfold Station.pairStep
  by_cases full : s.params.own.pairFilter ≤ s.nextPairRun split
  · rw [if_pos full, if_pos full]
    rfl
  · rw [if_neg full, if_neg full]

/-- The pair check counts towards the other state, and takes it at its filter count. -/
theorem Station.pairStep_cases {s : Station} (positive : 1 ≤ s.params.own.pairFilter) (small : s.params.own.pairFilter ≤ 15)
    (split : Bool) :
    (split = s.meas.apart → (s.pairStep split).meas.apart = s.meas.apart ∧ (s.pairStep split).meas.pairRun = 0)
      ∧ (split ≠ s.meas.apart → s.meas.pairRun + 1 < s.params.own.pairFilter →
        (s.pairStep split).meas.apart = s.meas.apart ∧ (s.pairStep split).meas.pairRun = s.meas.pairRun + 1)
      ∧ (split ≠ s.meas.apart → s.params.own.pairFilter ≤ s.meas.pairRun + 1 →
        (s.pairStep split).meas.apart = split ∧ (s.pairStep split).meas.pairRun = 0) := by
  rw [Station.pairStep_meas]
  unfold Station.nextPairRun succSat
  refine ⟨fun same => ?_, fun differs short => ?_, fun differs full => ?_⟩
  · rw [if_pos same, if_neg (by omega)]
    exact ⟨rfl, rfl⟩
  · rw [if_neg differs, if_neg (by omega)]
    exact ⟨rfl, by dsimp only; omega⟩
  · rw [if_neg differs, if_pos (by omega)]
    exact ⟨rfl, rfl⟩

theorem Station.pairCheck_meas (s : Station) :
    ∃ apart run, s.pairCheck.meas = { s.meas with apart := apart, pairRun := run } := by
  rcases s.pairCheck_cases with same | ⟨split, step⟩
  · exact ⟨_, _, by rw [same]⟩
  · rw [step, Station.pairStep_meas]
    split
    · exact ⟨_, _, rfl⟩
    · exact ⟨_, _, rfl⟩

theorem Station.follows_pairCheck (s : Station) :
    s.Follows (fun key => key = { code := .sensorPair, source := 0 }) s.pairCheck := by
  rcases s.pairCheck_cases with same | ⟨split, step⟩
  · rw [same]
    exact .refl
  · rw [step]
    unfold Station.pairStep
    split
    · exact ConditionUnit.Follows.set (c := s.cond) _ _ _ rfl
    · exact .refl

/-- SENSOR_PAIR follows the state of the pair check. -/
theorem Station.pairCheck_held {s : Station} (sound : s.cond.tableSound) :
    (s.pairCheck.meas.apart ≠ s.meas.apart →
        isHeld s.pairCheck.cond { code := .sensorPair, source := 0 } = s.pairCheck.meas.apart)
      ∧ (s.pairCheck.meas.apart = s.meas.apart → 1 ≤ s.params.own.pairFilter →
        isHeld s.pairCheck.cond { code := .sensorPair, source := 0 } =
          isHeld s.cond { code := .sensorPair, source := 0 }) := by
  rcases s.pairCheck_cases with same | ⟨split, step⟩
  · rw [same]
    exact ⟨fun moved => absurd rfl moved, fun _ _ => rfl⟩
  · rw [step]
    unfold Station.pairStep
    split
    · next full =>
      refine ⟨fun _ => Station.isHeld_setHeld_self
        (s := { s with meas := { s.meas with apart := split, pairRun := 0 } }) sound split rfl 0, fun stands positive => ?_⟩
      have same : split = s.meas.apart := stands
      rw [Station.nextPairRun, if_pos same] at full
      omega
    · exact ⟨fun moved => absurd rfl moved, fun _ _ => rfl⟩

/-! ### The own lean (R109) -/

theorem monitorClass_within_iff (cfg : ChannelConfig) (x : Int) :
    monitorClass cfg x = .within ↔ cfg.low ≤ x ∧ x ≤ cfg.high := by
  unfold monitorClass
  split
  · next below => simp [Int.not_le.mpr below]
  · split
    · next above => simp [Int.not_le.mpr above]
    · next low high => simp [Int.not_lt.mp low, Int.not_lt.mp high]

theorem Station.isFailed_iff (s : Station) (c : StationNo) : s.isFailed c = true ↔ (s.meas.monitors.get c).state ≠ .normal :=
  decide_eq_true_iff

theorem Station.fitLean_eq_some_iff (s : Station) (q : Quantity) (v : Int) :
    s.fitLean q = some v ↔
      ∃ c, s.channelOf q = some c ∧ (s.meas.monitors.get c).state = .normal ∧ s.meas.working.channels.get c = some v
        ∧ (s.meas.apart = true → (s.params.own.channels.get c).low ≤ v ∧ v ≤ (s.params.own.channels.get c).high) := by
  unfold Station.fitLean
  cases s.channelOf q with
  | none => simp
  | some c =>
    cases value : s.meas.working.channels.get c with
    | none => simp [value]
    | some x =>
      by_cases failed : s.isFailed c = true
      · simp [failed, (s.isFailed_iff c).mp failed]
      · have normal : (s.meas.monitors.get c).state = .normal := not_not.mp (mt (s.isFailed_iff c).mpr failed)
        by_cases within : s.meas.apart = true → monitorClass (s.params.own.channels.get c) x = .within
        · simp only [failed, normal, value, Option.some.injEq, exists_eq_left', true_and, Bool.false_eq_true, if_false]
          rw [if_neg (by simpa using within), ← monitorClass_within_iff]
          constructor
          · rintro ⟨⟩
            exact ⟨rfl, within⟩
          · rintro ⟨same, -⟩
            rw [same]
        · simp only [failed, normal, value, Option.some.injEq, exists_eq_left', true_and, Bool.false_eq_true, if_false]
          rw [if_pos (by simpa using within), ← monitorClass_within_iff]
          constructor
          · rintro ⟨⟩
          · rintro ⟨same, fits⟩
            exact absurd (same ▸ fits) within

theorem Station.peerLeans_latestSection (s : Station) :
    s.peerLeans s.latestSectionReport =
      allStations.filterMap fun k =>
        if k ≠ s.number ∧ ((s.peers.get k).state = .present ∨ (s.peers.get k).state = .suspect)
            ∧ ((s.peers.get k).rosterRole = .tiltL ∨ (s.peers.get k).rosterRole = .tiltR
              ∨ (s.peers.get k).rosterRole = .frame)
            ∧ s.bus.lastSection ≠ none ∧ (s.peers.get k).lastHeard = s.bus.lastSection then
          (s.peers.get k).lastReport.bind readLean
        else none := by
  unfold Station.peerLeans Station.latestSectionReport
  congr 1
  funext k
  by_cases own : k = s.number
  · simp [own]
  · by_cases heard : s.bus.lastSection ≠ none ∧ (s.peers.get k).lastHeard = s.bus.lastSection
    · obtain ⟨some, same⟩ := heard
      simp [Station.usable, Station.roleOf, isLeanRole, isTiltRole, own, some, same,
        Option.isSome_iff_ne_none, or_assoc]
    · have missed : (s.bus.lastSection.isSome && decide ((s.peers.get k).lastHeard = s.bus.lastSection)) = false := by
        simpa [Option.isSome_iff_ne_none] using heard
      simp [missed, heard]

/-- The peer lean: the mean of the leans of the peers, or none (R109 cases 3 and 4). -/
theorem Station.peerLean_eq (s : Station) :
    s.peerLean =
      if s.peerLeans s.latestSectionReport = [] then (none, .none)
      else (some ((s.peerLeans s.latestSectionReport).sum.tdiv (s.peerLeans s.latestSectionReport).length), .peers) := by
  unfold Station.peerLean meanOf
  cases s.peerLeans s.latestSectionReport <;> rfl

/-! ### The pass (R114, R115) -/

theorem Station.raiseCalRange_eq (s : Station) (c : StationNo) :
    s.raiseCalRange c = { s with cond := (s.raiseCalRange c).cond } := by
  unfold Station.raiseCalRange
  split <;> rfl

theorem Station.foldl_raiseCalRange_eq (l : List StationNo) :
    ∀ s : Station, l.foldl Station.raiseCalRange s = { s with cond := (l.foldl Station.raiseCalRange s).cond } := by
  induction l with
  | nil => exact fun s => rfl
  | cons c rest ih =>
    intro s
    rw [List.foldl_cons, ih, s.raiseCalRange_eq c]

theorem Station.follows_raiseCalRange {touched : CondKey → Prop} (s : Station) (c : StationNo) :
    s.Follows touched (s.raiseCalRange c) := by
  unfold Station.raiseCalRange
  split
  · exact s.follows_raise rfl _
  · exact .refl

/-- CAL_RANGE is told for every channel of the list that saturated. -/
theorem Station.foldl_raiseCalRange_told {c : StationNo} (l : List StationNo) :
    ∀ s : Station, c ∈ l → s.isDifferential c = true → (s.offsetOf c).2 = true →
      (l.foldl Station.raiseCalRange s).cond.told { code := .calRange, source := c.val } := by
  induction l with
  | nil => exact fun s member => absurd member List.not_mem_nil
  | cons d rest ih =>
    intro s member differential saturated
    rw [List.foldl_cons]
    by_cases same : c = d
    · subst same
      refine (Station.follows_foldl (touched := fun _ => False) _ (fun s n => s.follows_raiseCalRange n) rest _).told _ ?_
      unfold Station.raiseCalRange
      rw [differential, saturated]
      exact s.told_raise _ _
    · have later := (List.mem_cons.mp member).resolve_left same
      rw [s.raiseCalRange_eq d]
      exact ih _ later differential saturated

/-- What the end of a pass makes of the Measurement Unit (R115). -/
theorem Station.completePass_meas (s : Station) :
    s.completePass.meas =
      { s.meas with
        offsets := Eight.ofFn fun c => if s.isDifferential c then (s.offsetOf c).1 else s.meas.offsets.get c
        cal := { s.meas.cal.clearPass with status := .done, done := true }
        lists := s.meas.lists.select .run false s.isDifferential } := by
  unfold Station.completePass
  rw [Station.foldl_raiseCalRange_eq allStations s]
  rfl

theorem Station.completePass_cond (s : Station) :
    s.completePass.cond = (allStations.foldl Station.raiseCalRange s).cond := by
  unfold Station.completePass
  generalize allStations.foldl Station.raiseCalRange s = t
  rfl

/-- A pass runs, and the scan that ended was one of it (R114). -/
def Station.passes (s : Station) (list : ScanList) : Prop := s.meas.cal.status = .running ∧ list = .calibration

theorem Station.countPass_apart {s : Station} {list : ScanList} (apart : ¬s.passes list) : s.countPass list = s := by
  unfold Station.countPass
  exact if_neg (by simpa [Station.passes] using apart)

/-- One more scan of a pass counted. -/
def Station.countScan (s : Station) : Station :=
  { s with meas := { s.meas with cal := { s.meas.cal with scans := s.meas.cal.scans + 1 } } }

theorem Station.countPass_passes {s : Station} {list : ScanList} (passes : s.passes list) :
    s.countPass list =
      if 2 * s.params.shared.calSamples ≤ s.meas.cal.scans + 1 then s.countScan.completePass
      else if s.params.shared.calSamples = s.meas.cal.scans + 1 then s.countScan.postList .calibration true
      else s.countScan := by
  unfold Station.countPass
  exact if_pos (by simpa [Station.passes] using passes)

/-- The end of a scan counts in the calibration, the lists and the offsets alone. -/
theorem Station.countPass_meas (s : Station) (list : ScanList) :
    ∃ cal lists offsets, (s.countPass list).meas = { s.meas with cal := cal, lists := lists, offsets := offsets } := by
  by_cases passes : s.passes list
  · rw [Station.countPass_passes passes]
    split
    · rw [Station.completePass_meas]
      exact ⟨_, _, _, rfl⟩
    · split <;> exact ⟨_, _, _, rfl⟩
  · rw [Station.countPass_apart passes]
    exact ⟨_, _, _, rfl⟩

theorem Station.follows_countPass {touched : CondKey → Prop} (s : Station) (list : ScanList) :
    s.Follows touched (s.countPass list) := by
  by_cases passes : s.passes list
  · rw [Station.countPass_passes passes]
    split
    · rw [Station.Follows, Station.completePass_cond]
      exact Station.follows_foldl _ (fun s n => s.follows_raiseCalRange n) allStations s.countScan
    · split <;> exact .refl
  · rw [Station.countPass_apart passes]
    exact .refl

/-! ### The end of a scan (R102) -/

/-- The monitors and the pair check have acted on the scan (R102 steps 1 and 2). -/
def Station.checkedScan (s : Station) (scan : RunningScan) : Station := (scan.written.foldl Station.monitorChannel s).pairCheck

/-- The working set is complete and becomes the latest set (R102 steps 3 and 4). -/
def Station.latchScan (s : Station) : Station :=
  { s.completeLean with
    meas := { s.completeLean.meas with latest := s.completeLean.meas.working, scan := none, endedSinceSync := true } }

theorem Station.endScan_eq (s : Station) (scan : RunningScan) :
    s.endScan scan = (s.checkedScan scan).latchScan.countPass scan.list := rfl

theorem Station.scanEnd_ended {s : Station} {scan : RunningScan} (runs : s.meas.scan = some scan) (ended : scan.left = []) :
    s.scanEnd = s.endScan scan := by
  unfold Station.scanEnd
  rw [runs]
  simp only [ended, List.isEmpty_nil, if_true]

theorem Station.eq_of_meas_cond {s t : Station} (pins : t.pins = s.pins) (loader : t.loader = s.loader)
    (params : t.params = s.params) (bus : t.bus = s.bus) (member : t.member = s.member) (peers : t.peers = s.peers)
    (engine : t.engine = s.engine) (auth : t.auth = s.auth) (drive : t.drive = s.drive) :
    t = { s with meas := t.meas, cond := t.cond } := by
  rw [← pins, ← loader, ← params, ← bus, ← member, ← peers, ← engine, ← auth, ← drive]

theorem Station.monitorChannel_rest (s : Station) (c : StationNo) :
    s.monitorChannel c = { s with meas := (s.monitorChannel c).meas, cond := (s.monitorChannel c).cond } := by
  obtain ⟨pins, loader, params, bus, member, peers, engine, auth, drive⟩ := s.monitorChannel_frame c
  exact Station.eq_of_meas_cond pins loader params bus member peers engine auth drive

theorem Station.pairCheck_rest (s : Station) :
    s.pairCheck = { s with meas := s.pairCheck.meas, cond := s.pairCheck.cond } := by
  obtain ⟨pins, loader, params, bus, member, peers, engine, auth, drive⟩ := s.pairCheck_frame
  exact Station.eq_of_meas_cond pins loader params bus member peers engine auth drive

theorem Station.foldl_monitorChannel_rest (l : List StationNo) :
    ∀ s : Station, ∃ meas cond, l.foldl Station.monitorChannel s = { s with meas := meas, cond := cond } := by
  induction l with
  | nil => exact fun s => ⟨_, _, rfl⟩
  | cons c rest ih =>
    intro s
    obtain ⟨meas, cond, eqn⟩ := ih (s.monitorChannel c)
    refine ⟨meas, cond, ?_⟩
    rw [List.foldl_cons, eqn, s.monitorChannel_rest c]

theorem Station.checkedScan_rest (s : Station) (scan : RunningScan) :
    ∃ meas cond, s.checkedScan scan = { s with meas := meas, cond := cond } := by
  obtain ⟨meas, cond, eqn⟩ := Station.foldl_monitorChannel_rest scan.written s
  unfold Station.checkedScan
  rw [eqn, Station.pairCheck_rest]
  exact ⟨_, _, rfl⟩

theorem Station.checkedScan_meas (s : Station) (scan : RunningScan) :
    ∃ apart run, (s.checkedScan scan).meas =
      { s.meas with
        monitors := (scan.written.foldl Station.monitorChannel s).meas.monitors, apart := apart, pairRun := run } := by
  obtain ⟨monitors, monitored⟩ := Station.foldl_monitorChannel_meas scan.written s
  obtain ⟨apart, run, paired⟩ := (scan.written.foldl Station.monitorChannel s).pairCheck_meas
  refine ⟨apart, run, paired.trans ?_⟩
  rw [monitored]

/-- What the end of a scan leaves in the Measurement Unit, part by part. -/
theorem Station.endScan_meas (s : Station) (scan : RunningScan) :
    let t := s.checkedScan scan
    ∃ cal lists offsets, (s.endScan scan).meas =
      { t.meas with
        working :=
          { t.meas.working with
            ownLean := t.selectLean.1, leanSource := t.selectLean.2, leanRate := leanRate t.selectLean.1 t.meas.prevLean }
        latest :=
          { t.meas.working with
            ownLean := t.selectLean.1, leanSource := t.selectLean.2, leanRate := leanRate t.selectLean.1 t.meas.prevLean }
        prevLean := t.selectLean.1, scan := none, endedSinceSync := true
        cal := cal, lists := lists, offsets := offsets } := by
  intro t
  obtain ⟨cal, lists, offsets, meas⟩ := t.latchScan.countPass_meas scan.list
  exact ⟨cal, lists, offsets, meas⟩

/-! ### The obligations -/

/-- Settles O48: the entry's sum and value, and the end of the scan with its last entry. -/
theorem conversionWritesItsChannel : Obligations.ConversionWritesItsChannel := by
  refine ⟨fun x q raw list e rest written elapsed scan => ?_, fun x q raw none => exec_of_effect ?_ q⟩
  · intro cfg summed value converted
    have sums : x.sample list e raw.toNat = summed := by
      unfold Station.sample Station.isDifferential Calibration.addSample
      simp only [summed, Bool.and_eq_true, decide_eq_true_eq, and_assoc]
    have entry : x.conversionEnd raw.toNat = converted.scanEnd := by
      unfold Station.conversionEnd
      rw [scan]
      dsimp only
      unfold Station.convert
      dsimp only
      rw [sums]
      rfl
    have runs : timerRuns x.member.state = true → effect (.conversionEnd raw) x = converted.scanEnd := fun runs =>
      (if_pos runs).trans entry
    refine ⟨fun takes more => exec_of_effect ((runs takes).trans ?_) q, fun takes last => ?_,
      fun not => exec_of_effect (c := .conversionEnd raw) (if_neg (Bool.eq_false_iff.mp not)) q⟩
    · cases left : rest with
      | nil => exact absurd left more
      | cons f others =>
        unfold Station.scanEnd
        simp [converted, left]
    · have ends : effect .scanEnd converted = converted.scanEnd := if_pos takes
      refine ⟨by rw [exec_eq, exec_eq, runs takes, ends], converted.scanEnd, exec_of_effect (runs takes) q, ?_⟩
      obtain ⟨running, scans, left⟩ : ∃ running, converted.meas.scan = some running ∧ running.left = [] :=
        ⟨_, rfl, last⟩
      rw [Station.scanEnd_ended scans left]
      generalize converted = y
      obtain ⟨cal, lists, offsets, meas⟩ := y.endScan_meas running
      obtain ⟨apart, run, checked⟩ := y.checkedScan_meas running
      rw [meas, checked]
      exact ⟨rfl, rfl, rfl⟩
  · have stays : x.conversionEnd raw.toNat = x := by
      unfold Station.conversionEnd
      rw [none]
    exact (congrArg (ite _ · x) stays).trans (ite_self x)

/-- Settles O50: the edge, the speed of an input and the wheel speed of the station. -/
theorem pulsesAreCounted : Obligations.PulsesAreCounted := by
  refine ⟨fun x q ps1 => ⟨fun runs input mapped => exec_of_effect ?_ q, fun runs input mapped => exec_of_effect ?_ q,
    fun not => exec_of_effect (c := .pulseEdge ps1) (if_neg (Bool.eq_false_iff.mp not)) q⟩,
    fun cfg p => ⟨fun unmapped => ?_, fun mapped quiet => ?_,
    fun mapped recent => ?_⟩, fun a b => ⟨rfl, rfl, rfl, rfl⟩⟩
  · change x.pulseEdge ps1 = _
    simp only [Station.pulseEdge, runs, input, mapped, if_true, Bool.false_eq_true, if_false, succSat]
  · change x.pulseEdge ps1 = _
    simp only [Station.pulseEdge, runs, input, mapped, if_true, succSat]
  · simp [pulseSpeed, unmapped]
  · simp [pulseSpeed, mapped, quiet]
  · simp [pulseSpeed, mapped, Nat.not_le.mpr recent]

/-- A channel serves a lean quantity with a value that fits (R106, R109). -/
def Station.leanFits (s : Station) (quantity : Quantity) (v : Int) : Prop :=
  ∃ c, s.channelOf quantity = some c ∧ (s.meas.monitors.get c).state = .normal ∧ s.meas.working.channels.get c = some v
    ∧ (s.meas.apart = true → (s.params.own.channels.get c).low ≤ v ∧ v ≤ (s.params.own.channels.get c).high)

theorem Station.fitLean_of_fits {s : Station} {quantity : Quantity} {v : Int} (fits : s.leanFits quantity v) :
    s.fitLean quantity = some v := (s.fitLean_eq_some_iff quantity v).mpr fits

theorem Station.fitLean_none {s : Station} {quantity : Quantity} (unfit : ∀ v, ¬s.leanFits quantity v) :
    s.fitLean quantity = none :=
  Option.eq_none_iff_forall_ne_some.mpr fun v is => unfit v ((s.fitLean_eq_some_iff quantity v).mp is)

/-- The order of R109: the own channels by role, then the peers. -/
theorem Station.selectLean_tilt_first {s : Station} (tilt : isTiltRole s.params.role = true) {v : Int}
    (fits : s.leanFits .leanA v) :
    s.selectLean = (some v, .leanA) := by
  unfold Station.selectLean
  rw [if_pos tilt, Station.fitLean_of_fits fits]

theorem Station.selectLean_tilt_second {s : Station} (tilt : isTiltRole s.params.role = true)
    (unfit : ∀ u, ¬s.leanFits .leanA u)
    {v : Int} (fits : s.leanFits .leanB v) : s.selectLean = (some v, .leanB) := by
  unfold Station.selectLean
  rw [if_pos tilt, Station.fitLean_none unfit, Station.fitLean_of_fits fits]

theorem Station.selectLean_tilt_peers {s : Station} (tilt : isTiltRole s.params.role = true)
    (unfitA : ∀ u, ¬s.leanFits .leanA u)
    (unfitB : ∀ u, ¬s.leanFits .leanB u) : s.selectLean = s.peerLean := by
  unfold Station.selectLean
  rw [if_pos tilt, Station.fitLean_none unfitA, Station.fitLean_none unfitB]

theorem Station.selectLean_frame {s : Station} (frame : s.params.role = .frame) {v : Int} (fits : s.leanFits .frameRoll v) :
    s.selectLean = (some v, .leanA) := by
  unfold Station.selectLean
  rw [frame, Station.fitLean_of_fits fits]
  rfl

theorem Station.selectLean_frame_peers {s : Station} (frame : s.params.role = .frame) (unfit : ∀ u, ¬s.leanFits .frameRoll u) :
    s.selectLean = s.peerLean := by
  unfold Station.selectLean
  rw [frame, Station.fitLean_none unfit]
  rfl

theorem Station.selectLean_other {s : Station} (tilt : isTiltRole s.params.role = false) (frame : s.params.role ≠ .frame) :
    s.selectLean = (none, .none) := by
  unfold Station.selectLean
  rw [if_neg (Bool.eq_false_iff.mp tilt), if_neg frame]

/-! ### What a pass makes of its parts (R114, R115) -/

theorem Station.countPass_early {s : Station} {list : ScanList} (passes : s.passes list)
    (early : s.meas.cal.scans + 1 < 2 * s.params.shared.calSamples) :
    (s.countPass list).meas =
      { s.meas with
        cal := { s.meas.cal with scans := s.meas.cal.scans + 1 }
        lists :=
          if s.params.shared.calSamples = s.meas.cal.scans + 1 then s.meas.lists.select .calibration true s.isDifferential
          else s.meas.lists } := by
  rw [Station.countPass_passes passes, if_neg (Nat.not_le.mpr early)]
  split <;> rfl

theorem Station.countPass_done {s : Station} {list : ScanList} (passes : s.passes list)
    (done : 2 * s.params.shared.calSamples ≤ s.meas.cal.scans + 1) : s.countPass list = s.countScan.completePass := by
  rw [Station.countPass_passes passes, if_pos done]

/-- The offset of a channel: the half difference of its sums, held to 127 either way (R115). -/
theorem Station.offsetOf_eq (s : Station) (c : StationNo) :
    let half : Int := ((s.meas.cal.nSums.get c : Int) - s.meas.cal.pSums.get c).tdiv (2 * s.params.shared.calSamples)
    (s.offsetOf c).1 = saturate (-127) 127 half ∧ (half < -127 ∨ 127 < half → (s.offsetOf c).2 = true) := by
  intro half
  refine ⟨rfl, fun outside => decide_eq_true ?_⟩
  change saturate (-127) 127 half ≠ half
  rcases outside with below | above
  · rw [saturate_below below]
    omega
  · rw [saturate_above (by decide) above]
    omega

theorem classTarget_monitorClass (cfg : ChannelConfig) (x : Int) :
    classTarget (monitorClass cfg x) = if x < cfg.low then .low else if cfg.high < x then .high else .normal := by
  unfold monitorClass
  split
  · rfl
  · split <;> rfl

theorem Station.nextMonitor_on {s : Station} {c : StationNo} {v : Int} (value : s.meas.working.channels.get c = some v)
    (mapped : (s.params.own.channels.get c).quantity ≠ .none) (filtered : 0 < (s.params.own.channels.get c).filter) :
    s.nextMonitor c =
      monitorStep (s.params.own.channels.get c).filter (s.meas.monitors.get c)
        (monitorClass (s.params.own.channels.get c) v) := by
  simp [Station.nextMonitor, Station.isMapped, value, mapped, filtered]

theorem Station.nextMonitor_off {s : Station} {c : StationNo}
    (off : (s.params.own.channels.get c).quantity = .none ∨ (s.params.own.channels.get c).filter = 0) :
    s.nextMonitor c = s.meas.monitors.get c := by
  unfold Station.nextMonitor Station.isMapped
  cases s.meas.working.channels.get c with
  | none => rfl
  | some v => rcases off with none | zero <;> simp [*]

/-! ### The parts of the end of a scan -/

theorem Station.endScan_monitors (s : Station) (scan : RunningScan) :
    (s.endScan scan).meas.monitors = (scan.written.foldl Station.monitorChannel s).meas.monitors := by
  obtain ⟨cal, lists, offsets, meas⟩ := s.endScan_meas scan
  obtain ⟨apart, run, checked⟩ := s.checkedScan_meas scan
  rw [meas, checked]

theorem Station.endScan_pair (s : Station) (scan : RunningScan) :
    (s.endScan scan).meas.apart = (s.checkedScan scan).meas.apart
      ∧ (s.endScan scan).meas.pairRun = (s.checkedScan scan).meas.pairRun := by
  obtain ⟨cal, lists, offsets, meas⟩ := s.endScan_meas scan
  rw [meas]
  exact ⟨rfl, rfl⟩

theorem Station.endScan_lean (s : Station) (scan : RunningScan) :
    (s.endScan scan).meas.latest.ownLean = (s.checkedScan scan).selectLean.1
      ∧ (s.endScan scan).meas.latest.leanSource = (s.checkedScan scan).selectLean.2
      ∧ (s.endScan scan).meas.latest.leanRate = leanRate (s.checkedScan scan).selectLean.1 s.meas.prevLean := by
  obtain ⟨cal, lists, offsets, meas⟩ := s.endScan_meas scan
  obtain ⟨apart, run, checked⟩ := s.checkedScan_meas scan
  rw [meas, checked]
  exact ⟨rfl, rfl, rfl⟩

/-- The pass counts from the parts that the scan began with. -/
theorem Station.endScan_before_pass (s : Station) (scan : RunningScan) :
    (s.checkedScan scan).latchScan.meas.cal = s.meas.cal ∧ (s.checkedScan scan).latchScan.meas.lists = s.meas.lists
      ∧ (s.checkedScan scan).latchScan.meas.offsets = s.meas.offsets ∧ (s.checkedScan scan).latchScan.params = s.params := by
  obtain ⟨apart, run, checked⟩ := s.checkedScan_meas scan
  obtain ⟨tmeas, tcond, rest⟩ := s.checkedScan_rest scan
  refine ⟨?_, ?_, ?_, ?_⟩
  · change (s.checkedScan scan).meas.cal = _
    rw [checked]
  · change (s.checkedScan scan).meas.lists = _
    rw [checked]
  · change (s.checkedScan scan).meas.offsets = _
    rw [checked]
  · change (s.checkedScan scan).params = _
    rw [rest]

/-- The pair check of a scan with both values compares what the scan wrote. -/
theorem Station.checkedScan_pair (s : Station) (scan : RunningScan) {a b : StationNo} {u v : Int}
    (tilt : isTiltRole s.params.role = true) (leanA : s.channelOf .leanA = some a) (leanB : s.channelOf .leanB = some b)
    (first : s.meas.working.channels.get a = some u) (second : s.meas.working.channels.get b = some v) :
    (s.checkedScan scan).meas.apart = (s.pairStep (decide (s.params.own.pairBand < (u - v).natAbs))).meas.apart
      ∧ (s.checkedScan scan).meas.pairRun = (s.pairStep (decide (s.params.own.pairBand < (u - v).natAbs))).meas.pairRun := by
  obtain ⟨tmeas, tcond, rest⟩ := Station.foldl_monitorChannel_rest scan.written s
  obtain ⟨monitors, monitored⟩ := Station.foldl_monitorChannel_meas scan.written s
  have params := congrArg Station.params rest
  unfold Station.checkedScan
  generalize scan.written.foldl Station.monitorChannel s = t at monitored params ⊢
  have channels : t.channelOf = s.channelOf := funext fun q => by rw [Station.channelOf, Station.channelOf, params]
  rw [Station.pairCheck_eq (s := t) (by rw [params]; exact tilt) (by rw [channels]; exact leanA) (by rw [channels]; exact leanB)
    (by rw [monitored]; exact first) (by rw [monitored]; exact second), Station.pairStep_meas, Station.pairStep_meas]
  have run : ∀ split, t.nextPairRun split = s.nextPairRun split := fun split => by
    rw [Station.nextPairRun, Station.nextPairRun, monitored]
  rw [run, params, monitored]
  split <;> exact ⟨rfl, rfl⟩

theorem Station.checkedScan_unpaired (s : Station) (scan : RunningScan)
    (missing : isTiltRole s.params.role = false ∨ s.channelOf .leanA = none ∨ s.channelOf .leanB = none) :
    (s.checkedScan scan).meas.apart = s.meas.apart ∧ (s.checkedScan scan).meas.pairRun = s.meas.pairRun := by
  obtain ⟨tmeas, tcond, rest⟩ := Station.foldl_monitorChannel_rest scan.written s
  obtain ⟨monitors, monitored⟩ := Station.foldl_monitorChannel_meas scan.written s
  have params := congrArg Station.params rest
  unfold Station.checkedScan
  generalize scan.written.foldl Station.monitorChannel s = t at monitored params ⊢
  have channels : t.channelOf = s.channelOf := funext fun q => by rw [Station.channelOf, Station.channelOf, params]
  rw [Station.pairCheck_none (by rw [channels, params]; exact missing), monitored]
  exact ⟨rfl, rfl⟩

/-- The conditions of the monitors and of the pair check after the end of a scan (R107, R108). -/
theorem Station.endScan_shown {s : Station} {scan : RunningScan} (nodup : scan.written.Nodup) (sound : s.cond.tableSound) :
    (∀ c, monitorShown s.cond (s.meas.monitors.get c) (s.endScan scan).cond ((s.endScan scan).meas.monitors.get c) c)
      ∧ ((s.endScan scan).meas.apart ≠ s.meas.apart →
          isHeld (s.endScan scan).cond { code := .sensorPair, source := 0 } = (s.endScan scan).meas.apart)
      ∧ ((s.endScan scan).meas.apart = s.meas.apart → 1 ≤ s.params.own.pairFilter →
          isHeld (s.endScan scan).cond { code := .sensorPair, source := 0 } =
            isHeld s.cond { code := .sensorPair, source := 0 }) := by
  obtain ⟨sound', shown⟩ := Station.foldl_monitorChannel_shown scan.written s nodup sound
  obtain ⟨tmeas, tcond, rest⟩ := Station.foldl_monitorChannel_rest scan.written s
  obtain ⟨monitors, monitored⟩ := Station.foldl_monitorChannel_meas scan.written s
  have monitoring : s.Follows (fun key => ∃ c, isMonitorKey c key) (scan.written.foldl Station.monitorChannel s) :=
    Station.follows_foldl _ (fun s c => (s.follows_monitorChannel c).mono fun key is => ⟨c, is⟩) scan.written s
  have pairing := (scan.written.foldl Station.monitorChannel s).follows_pairCheck
  have counting : (s.checkedScan scan).Follows (fun _ => False) (s.endScan scan) :=
    (s.checkedScan scan).latchScan.follows_countPass scan.list
  obtain ⟨apart, -⟩ := s.endScan_pair scan
  obtain ⟨moved, stands⟩ := Station.pairCheck_held sound'
  have params := congrArg Station.params rest
  have before := congrArg MeasurementUnit.apart monitored
  have untouched := monitoring.held sound { code := .sensorPair, source := 0 } rfl
    (by rintro ⟨c, is | is⟩ <;> cases is)
  have last := counting.held (pairing.sound sound') { code := .sensorPair, source := 0 } rfl id
  rw [apart, last, s.endScan_monitors]
  refine ⟨fun c => ?_, fun differs => moved fun same => differs (same.trans before), fun same positive => ?_⟩
  · refine ((shown c).follows sound' pairing ?_).follows (pairing.sound sound') counting fun _ _ => id
    rintro key (rfl | rfl) <;> exact fun is => by cases is
  · rw [← untouched]
    exact stands (same.trans before.symm) (params ▸ positive)

/-- Settles O49: the monitors, the pair check, the own lean, the latest set and the pass, each by its own rule. -/
theorem scanEndMakesTheLatestSet : Obligations.ScanEndMakesTheLatestSet := by
  refine ⟨fun x q scan runs running left nodup => ?_,
    fun x sound => ⟨Station.monitorConds_held sound, (Station.pairCheck_held sound).1⟩⟩
  intro channelOf
  have ends : effect .scanEnd x = x.endScan scan := (if_pos runs).trans (Station.scanEnd_ended running left)
  refine ⟨x.endScan scan, exec_of_effect ends q, ?_⟩
  have pair := x.endScan_pair scan
  have monitors := x.endScan_monitors scan
  have lean := x.endScan_lean scan
  have before := x.endScan_before_pass scan
  obtain ⟨pins, loader, params, bus, member, peers, engine, auth, drive⟩ := x.endScan_frame scan
  obtain ⟨cal', lists', offsets', meas⟩ := x.endScan_meas scan
  obtain ⟨apart, run, checked⟩ := x.checkedScan_meas scan
  refine ⟨Station.eq_of_meas_cond pins loader params bus member peers engine auth drive, ?_, ?_, ?_, ?_, ?_, ?_, ?_, ?_, ?_, ?_,
    ?_, ?_, ?_, ?_, ?_, ?_, ?_⟩
  iterate 7 · rw [meas, checked]
  · intro a b now was
    rw [lean.2.2]
    rw [lean.1] at now
    rw [now, was]
    rfl
  · intro missing
    rw [lean.2.2]
    rw [lean.1] at missing
    rcases missing with none | none <;> rw [none]
    · rfl
    · cases (x.checkedScan scan).selectLean.1 <;> rfl
  · rw [meas, checked]
  · intro cal lists samples passes polarity half
    rw [Station.endScan_eq]
    obtain ⟨cal_eq, lists_eq, offsets_eq, params_eq⟩ := before
    generalize (x.checkedScan scan).latchScan = u at cal_eq lists_eq offsets_eq params_eq ⊢
    have passes_iff : u.passes scan.list ↔ passes := by
      unfold Station.passes
      rw [cal_eq]
    have selected : ∀ list swapped, u.meas.lists.select list swapped u.isDifferential =
        { lists with calShadow := polarity swapped, selected := list } := by
      intro list swapped
      unfold Station.isDifferential
      rw [lists_eq, params_eq]
      rfl
    refine ⟨fun apart => ?_, fun is early => ?_, fun is done => ?_⟩
    · rw [Station.countPass_apart (mt passes_iff.mp apart)]
      exact ⟨cal_eq, lists_eq, offsets_eq⟩
    · rw [Station.countPass_early (passes_iff.mpr is) (by rw [cal_eq, params_eq]; exact early), selected, cal_eq, params_eq]
      exact ⟨rfl, offsets_eq, fun turns => if_pos turns.symm, fun not => (if_neg (Ne.symm not)).trans lists_eq⟩
    · rw [Station.countPass_done (passes_iff.mpr is) (by rw [cal_eq, params_eq]; exact done), Station.completePass_meas]
      refine ⟨?_, selected _ _, fun c => ?_⟩
      · change { (({ u.meas.cal with scans := _ } : Calibration).clearPass) with status := CalStatus.done, done := true } = _
        rw [cal_eq]
        rfl
      · intro differential
        have is_differential : u.countScan.isDifferential c = differential := by
          unfold Station.isDifferential Station.countScan
          rw [params_eq]
        have offset := u.countScan.offsetOf_eq c
        have halves : ((u.countScan.meas.cal.nSums.get c : Int) - u.countScan.meas.cal.pSums.get c).tdiv
            (2 * u.countScan.params.shared.calSamples) = half c := by
          unfold Station.countScan
          rw [cal_eq, params_eq]
        rw [halves] at offset
        dsimp only
        rw [Eight.get_ofFn, is_differential, offset.1]
        refine ⟨fun not => ?_, fun is => if_pos is, fun is outside => ?_⟩
        · rw [not, ← offsets_eq]
          rfl
        · rw [Station.completePass_cond]
          exact Station.foldl_raiseCalRange_told allStations _ (List.mem_finRange c) (is_differential.trans is) (offset.2 outside)
  · intro c v member value cfg m cls toward run mapped filtered
    rw [monitors, Station.foldl_monitorChannel_listed _ x nodup member, Station.nextMonitor_on value mapped filtered]
    have target : classTarget (monitorClass cfg v) = toward := classTarget_monitorClass cfg v
    unfold monitorStep
    rw [target]
    exact ⟨fun stands => if_pos stands, fun moves => if_neg moves⟩
  · intro c off
    rw [monitors]
    by_cases listed : c ∈ scan.written
    · rw [Station.foldl_monitorChannel_listed _ x nodup listed]
      exact Station.nextMonitor_off (off.resolve_left (not_not.mpr listed))
    · exact Station.foldl_monitorChannel_unlisted _ x listed
  · intro a b u v tilt leanA leanB first second positive small split
    rw [pair.1, pair.2]
    obtain ⟨apart_eq, run_eq⟩ := x.checkedScan_pair scan tilt leanA leanB first second
    rw [apart_eq, run_eq]
    exact Station.pairStep_cases positive small split
  · intro missing
    rw [pair.1, pair.2]
    exact x.checkedScan_unpaired scan missing
  · intro sound
    exact Station.endScan_shown nodup sound
  · intro fits leans selected fromPeers
    have selected_of : ∀ {lean source}, (x.checkedScan scan).selectLean = (lean, source) → selected lean source :=
      fun is => ⟨lean.1.trans (congrArg Prod.fst is), lean.2.1.trans (congrArg Prod.snd is)⟩
    obtain ⟨tmeas, tcond, rest⟩ := x.checkedScan_rest scan
    have params : (x.checkedScan scan).params = x.params := by rw [rest]
    have checked_monitors : (x.checkedScan scan).meas.monitors = (x.endScan scan).meas.monitors := by rw [monitors, checked]
    have checked_working : (x.checkedScan scan).meas.working = x.meas.working := by rw [checked]
    have fits_iff : ∀ quantity v, (x.checkedScan scan).leanFits quantity v ↔ fits quantity v := by
      intro quantity v
      have channels : (x.checkedScan scan).channelOf quantity = channelOf quantity := by
        rw [Station.channelOf, rest]
      unfold Station.leanFits
      rw [channels, ← pair.1, checked_monitors, checked_working, params]
    have peers_of : (x.checkedScan scan).selectLean = (x.checkedScan scan).peerLean → fromPeers := by
      intro is
      have listed : (x.checkedScan scan).peerLeans (x.checkedScan scan).latestSectionReport = leans := by
        rw [Station.peerLeans_latestSection, rest]
        rfl
      rw [Station.peerLean_eq, listed] at is
      exact ⟨fun bare => selected_of (is.trans (if_pos bare)), fun some => selected_of (is.trans (if_neg some))⟩
    have unfit : ∀ {quantity}, (∀ u, ¬fits quantity u) → ∀ u, ¬(x.checkedScan scan).leanFits quantity u :=
      fun none u => mt (fits_iff _ u).mp (none u)
    rw [← params]
    exact ⟨fun v tilt a => selected_of (Station.selectLean_tilt_first tilt ((fits_iff _ v).mpr a)),
      fun v tilt none b => selected_of (Station.selectLean_tilt_second tilt (unfit none) ((fits_iff _ v).mpr b)),
      fun tilt noA noB => peers_of (Station.selectLean_tilt_peers tilt (unfit noA) (unfit noB)),
      fun v frame roll => selected_of (Station.selectLean_frame frame ((fits_iff _ v).mpr roll)),
      fun frame none => peers_of (Station.selectLean_frame_peers frame (unfit none)),
      fun tilt frame => selected_of (Station.selectLean_other tilt frame)⟩

end Sys2Proof.Machine
end

