-- ==== Sys2Proof/Proofs/SyncRules.lean ====
section
/-! The confirmed mark (R6): the round it opens, the sync event's work in the order of R103, and what follows. -/

namespace Sys2Proof.Machine

/-! ### The round opens -/

/-- The loss period count after a mark of another station, or the own one (R22, R74; log 10). -/
def Station.markPeriods (s : Station) : Nat := if s.bus.markPending then s.member.lossPeriods else s.periodsTold

/-- The good-round count of LISTEN after the mark (R63). -/
def Station.goodAfter (s : Station) : Nat := if s.bus.markOpening = .inWindow then min 8 (s.member.goodRounds + 1) else 0

/-- The station with the round open, before the sync event's work. -/
def Station.openedMark (s : Station) : Station :=
  let t := if s.bus.markPending then s else s.notifyRound
  ({ t.closeAbandoned with bus := t.closeAbandoned.bus.openRound } : Station).ageConditions.countGoodRound

theorem Station.confirmMark_eq (s : Station) : s.confirmMark = s.openedMark.syncEvent.busLoss.joinEntry := rfl

/-- The end of an abandoned round does not read the loss period count. -/
theorem Station.closeAbandoned_lossPeriods (s : Station) (n : Nat) :
    ({ s with member := { s.member with lossPeriods := n } } : Station).closeAbandoned =
      { s.closeAbandoned with member := { s.closeAbandoned.member with lossPeriods := n } } := by
  by_cases abandoned : s.bus.round.abandoned = true
  · rw [Station.closeAbandoned_abandoned abandoned, Station.closeAbandoned_abandoned (by exact abandoned)]
  · have whole := Bool.eq_false_iff.mpr abandoned
    rw [Station.closeAbandoned_none whole, Station.closeAbandoned_none (by exact whole)]

theorem Station.notifyRound_not_driving {s : Station} (idle : isDriving s.member.state = false) : s.notifyRound = s := by
  simp [Station.notifyRound, idle]

/-- What the end of an abandoned round leaves of the timer's part of the round. -/
theorem Station.closeAbandoned_timer (s : Station) :
    s.closeAbandoned.bus.mark = s.bus.mark ∧ s.closeAbandoned.bus.sync = s.bus.sync
      ∧ s.closeAbandoned.bus.candidate = s.bus.candidate ∧ s.closeAbandoned.member.goodRounds = s.member.goodRounds
      ∧ s.closeAbandoned.member.lossPeriods = s.member.lossPeriods := by
  by_cases abandoned : s.bus.round.abandoned = true
  · rw [Station.closeAbandoned_abandoned abandoned]
    exact ⟨rfl, rfl, rfl, rfl, rfl⟩
  · rw [Station.closeAbandoned_none (Bool.eq_false_iff.mpr abandoned)]
    exact ⟨rfl, rfl, rfl, rfl, rfl⟩

theorem BusUnit.markOpening_congr {b c : BusUnit} (mark : c.mark = b.mark) (sync : c.sync = b.sync)
    (candidate : c.candidate = b.candidate) : c.markOpening = b.markOpening := by
  unfold BusUnit.markOpening BusUnit.markPending
  rw [mark, sync, candidate]

theorem Station.countGoodRound_eq (s : Station) :
    s.countGoodRound =
      { s with
        member :=
          { s.member with
            goodRounds :=
              if s.member.state = .listen then
                (if s.bus.round.opening = .inWindow then min 8 (s.member.goodRounds + 1) else 0)
              else s.member.goodRounds } } := by
  unfold Station.countGoodRound
  by_cases listen : s.member.state = .listen
  · rw [if_pos listen, if_pos listen]
    rfl
  · rw [if_neg listen, if_neg listen]

/-- The round that a confirmed mark opens, and what it leaves. -/
structure Station.Opened (s t : Station) : Prop where
  bus : t.bus = s.closeAbandoned.bus.openRound
  opening : t.bus.round = RoundState.fresh s.bus.markOpening
  driving : isDriving s.member.state = true → t.member = { s.closeAbandoned.member with lossPeriods := s.markPeriods }
  listen : s.member.state = .listen → t.member = { s.closeAbandoned.member with goodRounds := s.goodAfter }
  quiet : s.member.state = .quiet → t.member = s.closeAbandoned.member
  state : t.member.state = s.member.state
  cond : t.cond = expireConds (ageConds s.cond)
  pins : t.pins = s.pins
  loader : t.loader = s.loader
  params : t.params = s.params
  peers : t.peers = s.peers
  meas : t.meas = s.meas
  engine : t.engine = s.engine
  auth : t.auth = s.auth
  drive : t.drive = s.drive

/-- A station that holds the same round as `s`, its loss period count set. -/
theorem Station.openedMark_opened (s : Station) : s.Opened s.openedMark := by
  obtain ⟨pins, loader, params, peers, meas, engine, auth, drive, cond⟩ := s.closeAbandoned_frame
  obtain ⟨mark, sync, candidate, good, periods⟩ := s.closeAbandoned_timer
  have state := s.closeAbandoned_state
  have told : ∃ n, s.openedMark =
      ({ s.closeAbandoned with
          bus := s.closeAbandoned.bus.openRound
          member := { s.closeAbandoned.member with lossPeriods := n } } : Station).ageConditions.countGoodRound
        ∧ (isDriving s.member.state = true → n = s.markPeriods)
        ∧ (isDriving s.member.state = false → n = s.closeAbandoned.member.lossPeriods) := by
    unfold Station.openedMark Station.markPeriods
    by_cases pending : s.bus.markPending = true
    · refine ⟨s.closeAbandoned.member.lossPeriods, ?_, fun _ => ?_, fun _ => rfl⟩
      · rw [if_pos pending]
      · rw [if_pos pending, periods]
    · by_cases driving : isDriving s.member.state = true
      · refine ⟨s.periodsTold, ?_, fun _ => (if_neg pending).symm, fun not => absurd driving (Bool.eq_false_iff.mp not)⟩
        rw [if_neg pending, Station.notifyRound_eq driving]
        dsimp only
        rw [s.closeAbandoned_lossPeriods s.periodsTold]
      · refine ⟨s.closeAbandoned.member.lossPeriods, ?_, fun is => absurd is driving, fun _ => rfl⟩
        rw [if_neg pending, Station.notifyRound_not_driving (Bool.eq_false_iff.mpr driving)]
  have opens : s.closeAbandoned.bus.markOpening = s.bus.markOpening := BusUnit.markOpening_congr mark sync candidate
  obtain ⟨n, eqn, driven, following⟩ := told
  rw [Station.countGoodRound_eq] at eqn
  unfold Station.ageConditions at eqn
  have good_eq : (if s.closeAbandoned.bus.openRound.round.opening = .inWindow then
      min 8 (s.closeAbandoned.member.goodRounds + 1) else 0) = s.goodAfter := by
    unfold Station.goodAfter
    rw [← opens, good]
    rfl
  constructor
  case bus => rw [eqn]
  case opening => rw [eqn, ← opens]; rfl
  case driving =>
    intro drives
    have not : s.closeAbandoned.member.state ≠ .listen := fun is => by
      rw [← state, is] at drives
      cases drives
    rw [eqn]
    dsimp only
    rw [if_neg not, driven drives]
  case listen =>
    intro listen
    have idle : isDriving s.member.state = false := by rw [listen]; rfl
    rw [eqn]
    dsimp only
    rw [if_pos (state.trans listen), following idle, good_eq]
  case quiet =>
    intro quiet
    have idle : isDriving s.member.state = false := by rw [quiet]; rfl
    have not : s.closeAbandoned.member.state ≠ .listen := fun is => by
      rw [← state, is] at quiet
      cases quiet
    rw [eqn]
    dsimp only
    rw [if_neg not, following idle]
  case state => rw [eqn]; exact state
  case cond => rw [eqn]; exact congrArg (fun c => expireConds (ageConds c)) cond
  case pins => rw [eqn]; exact pins
  case loader => rw [eqn]; exact loader
  case params => rw [eqn]; exact params
  case peers => rw [eqn]; exact peers
  case meas => rw [eqn]; exact meas
  case engine => rw [eqn]; exact engine
  case auth => rw [eqn]; exact auth
  case drive => rw [eqn]; exact drive

/-! ### The scan that a sync event starts (R101, R102, R104) -/

/-- The shadow copy that the next scan takes. -/
def ScanLists.shadow (l : ScanLists) : List ScanEntry := if l.selected = .run then l.runShadow else l.calShadow

theorem ScanLists.active_load (l : ScanLists) : l.load.active = l.shadow := by
  unfold ScanLists.active ScanLists.load ScanLists.shadow
  cases l.selected <;> simp

theorem ScanLists.load_shadows (l : ScanLists) :
    l.load.selected = l.selected ∧ l.load.runShadow = l.runShadow ∧ l.load.calShadow = l.calShadow := by
  unfold ScanLists.load
  cases l.selected <;> simp

theorem Station.triggerScan_overrun {s : Station} (runs : s.meas.scan.isSome = true) :
    s.triggerScan = s.raise .scanOverrun 0 := by
  unfold Station.triggerScan
  cases scan : s.meas.scan with
  | none => rw [scan] at runs; cases runs
  | some r => rfl

theorem Station.triggerScan_starts {s : Station} (idle : s.meas.scan = none) (listed : s.meas.lists.shadow ≠ []) :
    s.triggerScan =
      { s with
        meas :=
          { s.meas with
            lists := s.meas.lists.load, working := s.withSpeeds s.meas.latest
            scan := some { list := s.meas.lists.selected, left := s.meas.lists.shadow, written := [], elapsed := 0 } } } := by
  unfold Station.triggerScan Station.startScan
  rw [idle]
  dsimp only
  rw [ScanLists.active_load, s.meas.lists.load_shadows.1]
  unfold Station.scanEnd
  dsimp only
  rw [if_neg (by simpa using listed)]

/-- A scan over an empty list ends at once (R102). -/
theorem Station.triggerScan_ends {s : Station} (idle : s.meas.scan = none) (empty : s.meas.lists.shadow = []) :
    ∃ (t : Station) (scan : RunningScan), s.triggerScan = t.endScan scan
      ∧ t.meas.snapshot = s.meas.snapshot ∧ t.meas.stale = s.meas.stale
      ∧ t.meas.ps0 = s.meas.ps0 ∧ t.meas.ps1 = s.meas.ps1 := by
  unfold Station.triggerScan Station.startScan
  rw [idle]
  dsimp only
  rw [ScanLists.active_load, empty]
  exact ⟨_, _, Station.scanEnd_ended rfl rfl, rfl, rfl, rfl, rfl⟩

/-! ### The evidence of standstill and motion (R112) -/

/-- The mapped pulse inputs. -/
def Station.pulseInputs (s : Station) : List (PulseConfig × PulseCounter) :=
  [(s.params.own.ps0, s.meas.ps0), (s.params.own.ps1, s.meas.ps1)].filter (·.1.mapped)

theorem Station.mem_pulseInputs (s : Station) (i : PulseConfig × PulseCounter) :
    i ∈ s.pulseInputs ↔
      i.1.mapped = true ∧ (i = (s.params.own.ps0, s.meas.ps0) ∨ i = (s.params.own.ps1, s.meas.ps1)) := by
  unfold Station.pulseInputs
  simp [List.mem_filter, and_comm]

theorem Station.pulseInputs_ne_nil (s : Station) :
    s.pulseInputs ≠ [] ↔ s.params.own.ps0.mapped = true ∨ s.params.own.ps1.mapped = true := by
  unfold Station.pulseInputs
  cases first : s.params.own.ps0.mapped <;> cases second : s.params.own.ps1.mapped <;> simp [List.filter, first, second]

/-- What the evidence reads as motion: a count placed, while waiting any entry of a ring, or a speed heard. -/
def Station.motion (s : Station) : Prop :=
  (s.pulseInputs ≠ [] ∧ ∃ i ∈ s.pulseInputs, (∃ n, i.2.ring.getLast? = some n ∧ n ≠ 0)
      ∨ (s.meas.cal.status = .waiting ∧ ∃ n ∈ i.2.ring, n ≠ 0))
    ∨ (s.pulseInputs = [] ∧ ∃ speeds, s.meas.cal.heard = some speeds ∧ ∃ v ∈ speeds, v ≠ 0)

/-- What it reads as standstill: full rings of zeros, or speeds that are all 0. -/
def Station.standstill (s : Station) : Prop :=
  ¬s.motion
    ∧ ((s.pulseInputs ≠ [] ∧ ∀ i ∈ s.pulseInputs, i.1.window ≤ i.2.fill ∧ ∀ n ∈ i.2.ring, n = 0)
      ∨ (s.pulseInputs = [] ∧ ∃ speeds, s.meas.cal.heard = some speeds ∧ speeds ≠ []))

theorem showsMotion_iff (waiting : Bool) (cfg : PulseConfig) (p : PulseCounter) :
    showsMotion waiting cfg p = true ↔
      cfg.mapped = true ∧ ((∃ n, p.ring.getLast? = some n ∧ n ≠ 0) ∨ (waiting = true ∧ ∃ n ∈ p.ring, n ≠ 0)) := by
  unfold showsMotion
  cases last : p.ring.getLast? with
  | none => simp [List.getLast?_eq_none_iff.mp last]
  | some n =>
    have some : p.ring ≠ [] := fun nil => by simp [nil] at last
    simp [some]

theorem showsStandstill_iff (cfg : PulseConfig) (p : PulseCounter) :
    showsStandstill cfg p = true ↔ (cfg.mapped = true → cfg.window ≤ p.fill ∧ ∀ n ∈ p.ring, n = 0) := by
  unfold showsStandstill
  cases cfg.mapped <;> simp

/-- With an input mapped the counts speak. -/
theorem Station.motion_of_inputs {s : Station} (mapped : s.pulseInputs ≠ []) :
    s.motion ↔
      showsMotion (decide (s.meas.cal.status = .waiting)) s.params.own.ps0 s.meas.ps0 = true
        ∨ showsMotion (decide (s.meas.cal.status = .waiting)) s.params.own.ps1 s.meas.ps1 = true := by
  simp only [Station.motion, showsMotion_iff, Station.mem_pulseInputs, mapped, ne_eq, not_false_eq_true, true_and, false_and,
    or_false, decide_eq_true_eq]
  constructor
  · rintro ⟨i, ⟨is, rfl | rfl⟩, shows⟩
    · exact .inl ⟨is, shows⟩
    · exact .inr ⟨is, shows⟩
  · rintro (⟨is, shows⟩ | ⟨is, shows⟩)
    · exact ⟨_, ⟨is, .inl rfl⟩, shows⟩
    · exact ⟨_, ⟨is, .inr rfl⟩, shows⟩

theorem Station.standstill_of_inputs {s : Station} (mapped : s.pulseInputs ≠ []) :
    s.standstill ↔
      ¬s.motion ∧ showsStandstill s.params.own.ps0 s.meas.ps0 = true
        ∧ showsStandstill s.params.own.ps1 s.meas.ps1 = true := by
  simp only [Station.standstill, showsStandstill_iff, Station.mem_pulseInputs, mapped, ne_eq, not_false_eq_true, true_and,
    false_and, or_false]
  refine and_congr_right fun _ => ⟨fun all => ⟨fun is => ?_, fun is => ?_⟩, ?_⟩
  · exact all _ ⟨is, .inl rfl⟩
  · exact all _ ⟨is, .inr rfl⟩
  · rintro ⟨first, second⟩ i ⟨is, rfl | rfl⟩
    · exact first is
    · exact second is

theorem Station.evidence_of_inputs {s : Station} (mapped : s.pulseInputs ≠ []) :
    s.evidence =
      if showsMotion (decide (s.meas.cal.status = .waiting)) s.params.own.ps0 s.meas.ps0
          || showsMotion (decide (s.meas.cal.status = .waiting)) s.params.own.ps1 s.meas.ps1 then .motion
      else if showsStandstill s.params.own.ps0 s.meas.ps0 && showsStandstill s.params.own.ps1 s.meas.ps1 then .standstill
      else .none := by
  unfold Station.evidence
  exact if_pos (by simpa using s.pulseInputs_ne_nil.mp mapped)

/-- Without one the speeds heard do. -/
theorem Station.evidence_of_heard {s : Station} (unmapped : s.pulseInputs = []) :
    s.evidence =
      match s.meas.cal.heard with
      | none => .none
      | some speeds =>
        if speeds.any (fun v => decide (v ≠ 0)) then .motion else if speeds.isEmpty then .none else .standstill := by
  unfold Station.evidence
  exact if_neg (by simpa using fun is => s.pulseInputs_ne_nil.mpr is unmapped)

theorem Station.evidence_cases (s : Station) :
    (s.motion → s.evidence = .motion) ∧ (s.standstill → s.evidence = .standstill)
      ∧ (¬s.motion → ¬s.standstill → s.evidence = .none) := by
  by_cases mapped : s.pulseInputs ≠ []
  · rw [Station.standstill_of_inputs mapped, Station.motion_of_inputs mapped, Station.evidence_of_inputs mapped]
    simp only [Bool.or_eq_true, Bool.and_eq_true]
    refine ⟨fun moves => if_pos moves, fun stands => ?_, fun not not' => ?_⟩
    · rw [if_neg stands.1, if_pos stands.2]
    · rw [if_neg not, if_neg fun stands => not' ⟨not, stands⟩]
  · have unmapped := not_not.mp mapped
    rw [Station.evidence_of_heard unmapped]
    unfold Station.standstill Station.motion
    simp only [unmapped, ne_eq, not_true_eq_false, false_and, false_or, true_and]
    cases s.meas.cal.heard with
    | none => simp
    | some speeds =>
      by_cases moves : ∃ v ∈ speeds, v ≠ 0
      · simp [moves]
      · cases speeds <;> simp_all

/-! ### The calibration step (R113, R116) -/

/-- The calibration with its pass cleared, at a status and a waiting count. -/
def Calibration.cleared (c : Calibration) (status : CalStatus) (waiting : Nat) : Calibration :=
  { c with status := status, waiting := waiting, scans := 0, pSums := Eight.fill 0, nSums := Eight.fill 0 }

/-- The calibration list's shadow at normal polarity. -/
def Station.normalShadow (s : Station) : List ScanEntry :=
  s.meas.lists.calShadow.map fun e => if s.isDifferential e.channel then { e with swapped := false } else e

/-- CAL_SKIPPED raised with a source. -/
def calSkippedTold (c : ConditionUnit) (source : Nat) : ConditionUnit := raiseEvent c { code := .calSkipped, source := source } 1

/-- What the calibration step makes of the station. -/
def Station.CalibratesTo (s : Station) (c : Calibration) (list : ScanList) (shadow : List ScanEntry) (cond : ConditionUnit) :
    Prop :=
  s.calibrationStep =
    { s with
      meas := { s.meas with cal := c, lists := { s.meas.lists with calShadow := shadow, selected := list } }, cond := cond }

theorem Station.calibrationStep_apart {s : Station} (apart : s.member.state ≠ .join) : s.calibrationStep = s := if_neg apart

theorem Station.calibrationStep_waiting {s : Station} (join : s.member.state = .join) (waits : s.meas.cal.status = .waiting) :
    (s.motion →
        s.CalibratesTo (s.meas.cal.cleared .skipped (min 32 (s.meas.cal.waiting + 1))) s.meas.lists.selected
          s.meas.lists.calShadow (calSkippedTold s.cond 0))
      ∧ (s.standstill →
        s.CalibratesTo (s.meas.cal.cleared .running (min 32 (s.meas.cal.waiting + 1))) .calibration s.normalShadow s.cond)
      ∧ (¬s.motion → ¬s.standstill → min 32 (s.meas.cal.waiting + 1) = 32 →
        s.CalibratesTo (s.meas.cal.cleared .skipped (min 32 (s.meas.cal.waiting + 1))) s.meas.lists.selected
          s.meas.lists.calShadow (calSkippedTold s.cond 2))
      ∧ (¬s.motion → ¬s.standstill → min 32 (s.meas.cal.waiting + 1) < 32 →
        s.CalibratesTo { s.meas.cal with waiting := min 32 (s.meas.cal.waiting + 1) } s.meas.lists.selected
          s.meas.lists.calShadow s.cond) := by
  obtain ⟨moves, stands, neither⟩ := s.evidence_cases
  have step : s.calibrationStep =
      match s.evidence with
      | .motion => s.countWait.skipCalibration 0
      | .standstill => s.countWait.beginPass
      | .none => s.countWait.calWaitTimeout := by
    unfold Station.calibrationStep
    rw [if_pos join, waits] <;> cases s.evidence <;> rfl
  have due : s.countWait.calWaitDue = decide (32 ≤ min 32 (s.meas.cal.waiting + 1)) := by
    have waiting : s.countWait.meas.cal.status = .waiting := waits
    unfold Station.calWaitDue
    rw [waiting]
    rfl
  unfold Station.CalibratesTo
  refine ⟨fun is => ?_, fun is => ?_, fun not not' full => ?_, fun not not' short => ?_⟩
  · rw [step, moves is]
    rfl
  · rw [step, stands is]
    rfl
  · rw [step, neither not not', Station.calWaitTimeout]
    dsimp only
    rw [if_pos (by rw [due, full]; rfl)]
    rfl
  · rw [step, neither not not', Station.calWaitTimeout]
    dsimp only
    rw [if_neg (by rw [due]; simpa using short)]
    rfl

theorem Station.calibrationStep_running {s : Station} (join : s.member.state = .join) (runs : s.meas.cal.status = .running) :
    (s.motion → s.CalibratesTo (s.meas.cal.cleared .skipped s.meas.cal.waiting) .run s.normalShadow (calSkippedTold s.cond 1))
      ∧ (¬s.motion → s.calibrationStep = s) := by
  obtain ⟨moves, stands, neither⟩ := s.evidence_cases
  have step : s.calibrationStep =
      match s.evidence with
      | .motion => (s.skipCalibration 1).postList .run false
      | .standstill | .none => s := by
    unfold Station.calibrationStep
    rw [if_pos join, runs] <;> cases s.evidence <;> rfl
  refine ⟨fun is => ?_, fun not => ?_⟩
  · unfold Station.CalibratesTo
    rw [step, moves is]
    rfl
  · rw [step]
    by_cases stand : s.standstill
    · rw [stands stand]
    · rw [neither not stand]

theorem Station.calibrationStep_idle {s : Station} (join : s.member.state = .join) (notWaiting : s.meas.cal.status ≠ .waiting)
    (notRunning : s.meas.cal.status ≠ .running) : s.calibrationStep = s := by
  unfold Station.calibrationStep
  rw [if_pos join]
  cases status : s.meas.cal.status with
  | waiting => exact absurd status notWaiting
  | running => exact absurd status notRunning
  | none => rfl
  | done => rfl
  | skipped => rfl

theorem Station.calibratesTo_self {s : Station} (stays : s.calibrationStep = s) :
    s.CalibratesTo s.meas.cal s.meas.lists.selected s.meas.lists.calShadow s.cond := stays

theorem Station.normalShadow_ne_nil {s : Station} (some : s.meas.lists.calShadow ≠ []) : s.normalShadow ≠ [] :=
  fun none => some (List.map_eq_nil_iff.mp none)

/-- The calibration step posts no empty list. -/
theorem Station.calibrates {s : Station} (join : s.member.state = .join) :
    ∃ c list shadow cond, s.CalibratesTo c list shadow cond ∧ (s.meas.lists.calShadow ≠ [] → shadow ≠ []) := by
  by_cases waits : s.meas.cal.status = .waiting
  · obtain ⟨moves, stands, full, short⟩ := Station.calibrationStep_waiting join waits
    by_cases motion : s.motion
    · exact ⟨_, _, _, _, moves motion, id⟩
    · by_cases standstill : s.standstill
      · exact ⟨_, _, _, _, stands standstill, Station.normalShadow_ne_nil⟩
      · by_cases last : min 32 (s.meas.cal.waiting + 1) = 32
        · exact ⟨_, _, _, _, full motion standstill last, id⟩
        · exact ⟨_, _, _, _, short motion standstill (by omega), id⟩
  · by_cases runs : s.meas.cal.status = .running
    · obtain ⟨moves, stays⟩ := Station.calibrationStep_running join runs
      by_cases motion : s.motion
      · exact ⟨_, _, _, _, moves motion, Station.normalShadow_ne_nil⟩
      · exact ⟨_, _, _, _, Station.calibratesTo_self (stays motion), id⟩
    · exact ⟨_, _, _, _, Station.calibratesTo_self (Station.calibrationStep_idle join waits runs), id⟩

/-! ### The mark to confirm (R5, R8) -/

/-- A mark is confirmed `left` bit times from now: the own one, or that of the open candidate. -/
def Station.confirmsIn (s : Station) (left : Nat) : Prop :=
  (∃ m, s.bus.mark = some m ∧ m.confirmed = false ∧ m.age + left = 4)
    ∨ (s.bus.markPending = false ∧ ∃ c, s.bus.candidate = some c ∧ c.age + left = 4)

theorem Station.syncMark_due {s : Station} (runs : timerRuns s.member.state = true) {left : Nat} (confirms : s.confirmsIn left) :
    s.syncMark = (s.reach (s.bus.position + left)).confirmMark := by
  have due : s.markDue = true ∧ s.bus.toConfirmation = left := by
    unfold Station.markDue BusUnit.candidateOpen BusUnit.markOpen BusUnit.toConfirmation
    rcases confirms with ⟨m, mark, unconfirmed, age⟩ | ⟨pending, c, candidate, age⟩
    · have pending : s.bus.markPending = true := by simp [BusUnit.markPending, mark, unconfirmed]
      have young : m.age ≤ 4 := by omega
      rw [runs, mark, pending]
      exact ⟨by simp [unconfirmed, Config.confirmTime, young], by dsimp only [Config.confirmTime]; omega⟩
    · have young : c.age ≤ 4 := by omega
      rw [runs, candidate, pending]
      exact ⟨by simp [Config.confirmTime, young], by dsimp only [Config.confirmTime]; omega⟩
  unfold Station.syncMark
  rw [if_pos due.1, due.2]

theorem Station.syncMark_not_due {s : Station} (noCandidate : ∀ c, s.bus.candidate = some c → 4 < c.age)
    (noMark : ∀ m, s.bus.mark = some m → m.confirmed = false → 4 < m.age) : s.syncMark = s := by
  unfold Station.syncMark Station.markDue BusUnit.candidateOpen BusUnit.markOpen
  refine if_neg ?_
  rw [Bool.and_eq_true, Bool.or_eq_true, Option.any_eq_true, Option.any_eq_true]
  rintro ⟨-, ⟨c, candidate, young⟩ | ⟨m, mark, young⟩⟩
  · exact absurd (of_decide_eq_true young) (Nat.not_le.mpr (noCandidate c candidate))
  · simp only [Bool.and_eq_true, Bool.not_eq_true'] at young
    exact absurd (of_decide_eq_true young.2) (Nat.not_le.mpr (noMark m mark young.1))

/-! ### The sync event as a whole (R103) -/

/-- The sync event before its calibration step: the snapshot latched and the pulses placed. -/
def Station.placed (s : Station) : Station := s.latchSnapshot.placePulses

theorem Station.placed_pulseInputs (s : Station) :
    s.placed.pulseInputs = s.pulseInputs.map fun i => (i.1, i.2.place i.1.window) := by
  unfold Station.pulseInputs
  change List.filter _ [(s.params.own.ps0, placeMapped s.params.own.ps0 s.meas.ps0),
    (s.params.own.ps1, placeMapped s.params.own.ps1 s.meas.ps1)] = _
  unfold placeMapped
  cases first : s.params.own.ps0.mapped <;> cases second : s.params.own.ps1.mapped <;> simp [List.filter, first, second]

/-- What triggering the scan leaves of the calibration and of the lists as posted, where no list is empty. -/
theorem Station.triggerScan_parts {s : Station}
    (listed : s.meas.scan.isSome = true ∨ (s.meas.lists.runShadow ≠ [] ∧ s.meas.lists.calShadow ≠ [])) :
    s.triggerScan.meas.cal = s.meas.cal ∧ s.triggerScan.meas.lists.selected = s.meas.lists.selected
      ∧ s.triggerScan.meas.lists.runShadow = s.meas.lists.runShadow
      ∧ s.triggerScan.meas.lists.calShadow = s.meas.lists.calShadow
      ∧ s.triggerScan.cond = (if s.meas.scan.isSome then raiseEvent s.cond { code := .scanOverrun, source := 0 } 1 else s.cond)
      ∧ (s.meas.scan = none → s.triggerScan.meas.scan =
          some { list := s.meas.lists.selected, written := [], elapsed := 0, left := s.meas.lists.shadow }) := by
  cases scan : s.meas.scan with
  | some r =>
    rw [Station.triggerScan_overrun (by rw [scan]; rfl)]
    exact ⟨rfl, rfl, rfl, rfl, rfl, fun none => by cases none⟩
  | none =>
    have nonempty : s.meas.lists.shadow ≠ [] := by
      obtain ⟨run, cal⟩ := listed.resolve_left (by simp [scan])
      unfold ScanLists.shadow
      split <;> assumption
    obtain ⟨selected, runShadow, calShadow⟩ := s.meas.lists.load_shadows
    rw [Station.triggerScan_starts scan nonempty]
    exact ⟨rfl, selected, runShadow, calShadow, rfl, fun _ => rfl⟩

/-- Where the calibration step leads, the sync event leads, with the scan triggered. -/
theorem Station.CalibratesTo.triggered {s : Station} {c : Calibration} {list : ScanList} {shadow : List ScanEntry}
    {cond : ConditionUnit} (h : s.CalibratesTo c list shadow cond)
    (listed : s.meas.scan.isSome = true ∨ (s.meas.lists.runShadow ≠ [] ∧ shadow ≠ [])) :
    let y := s.calibrationStep.triggerScan
    y.meas.cal = c ∧ y.meas.lists.selected = list ∧ y.meas.lists.runShadow = s.meas.lists.runShadow
      ∧ y.meas.lists.calShadow = shadow
      ∧ y.cond = (if s.meas.scan.isSome then raiseEvent cond { code := .scanOverrun, source := 0 } 1 else cond)
      ∧ (s.meas.scan = none → y.meas.scan =
          some { list := list, written := [], elapsed := 0, left := if list = .run then s.meas.lists.runShadow else shadow }) := by
  unfold Station.CalibratesTo at h
  dsimp only
  rw [h]
  exact Station.triggerScan_parts listed

theorem Station.syncEvent_eq (s : Station) : s.syncEvent = s.placed.calibrationStep.triggerScan := rfl

/-- Before the fourth period without a well-formed round, and outside LISTEN, the sync event is all that follows. -/
theorem Station.confirmMark_quiet {s : Station} (few : isDriving s.member.state = true → s.markPeriods < 4)
    (apart : s.member.state ≠ .listen) : s.confirmMark = s.openedMark.syncEvent := by
  have opened := s.openedMark_opened
  obtain ⟨-, -, -, -, member, -⟩ := s.openedMark.syncEvent_frame
  have noLoss : s.openedMark.syncEvent.busLossDue = false := by
    unfold Station.busLossDue
    rw [member, opened.state]
    by_cases driving : isDriving s.member.state = true
    · rw [opened.driving driving, driving, Bool.true_and]
      exact decide_eq_false (Nat.not_le.mpr (few driving))
    · rw [Bool.eq_false_iff.mpr driving, Bool.false_and]
  rw [Station.confirmMark_eq, Station.busLoss, if_neg (by rw [noLoss]; decide), Station.joinEntry, if_neg]
  rw [Station.joinEntryDue, member, opened.state]
  simp [apart]

/-- The count of the loss periods at the mark of a driving station stands over the passing of time. -/
theorem Station.reach_markPeriods {s : Station} (driving : isDriving s.member.state = true) (p : Nat) :
    (s.reach p).markPeriods = s.markPeriods := by
  unfold Station.markPeriods
  rw [s.reach_markPending p, (s.reach_counts p).2.2, Station.reach_periodsTold driving p]

/-- The ring of an input as its round's count is placed. -/
def placedRing (i : PulseConfig × PulseCounter) : List Nat :=
  (i.2.ring ++ [i.2.count]).drop (i.2.ring.length + 1 - i.1.window)

theorem place_ring (i : PulseConfig × PulseCounter) : (i.2.place i.1.window).ring = placedRing i := by
  unfold PulseCounter.place placedRing
  dsimp only
  rw [List.length_append, List.length_singleton]

/-- The motion seen after the placements, by the counts before them. -/
theorem Station.placed_motion_iff (s : Station) :
    s.placed.motion ↔
      (s.pulseInputs ≠ [] ∧ ∃ i ∈ s.pulseInputs, (∃ n, (placedRing i).getLast? = some n ∧ n ≠ 0)
          ∨ (s.meas.cal.status = .waiting ∧ ∃ n ∈ placedRing i, n ≠ 0))
        ∨ (s.pulseInputs = [] ∧ ∃ speeds, s.meas.cal.heard = some speeds ∧ ∃ v ∈ speeds, v ≠ 0) := by
  have cal : s.placed.meas.cal = s.meas.cal := rfl
  unfold Station.motion
  simp only [s.placed_pulseInputs, cal, ne_eq, List.map_eq_nil_iff, List.mem_map, exists_exists_and_eq_and, place_ring]

theorem Station.placed_standstill_iff (s : Station) :
    s.placed.standstill ↔
      ¬s.placed.motion
        ∧ ((s.pulseInputs ≠ [] ∧ ∀ i ∈ s.pulseInputs, i.1.window ≤ min 16 (i.2.fill + 1) ∧ ∀ n ∈ placedRing i, n = 0)
          ∨ (s.pulseInputs = [] ∧ ∃ speeds, s.meas.cal.heard = some speeds ∧ speeds ≠ [])) := by
  have cal : s.placed.meas.cal = s.meas.cal := rfl
  have fill : ∀ i : PulseConfig × PulseCounter, (i.2.place i.1.window).fill = min 16 (i.2.fill + 1) := fun _ => rfl
  unfold Station.standstill
  simp only [s.placed_pulseInputs, cal, ne_eq, List.map_eq_nil_iff, List.mem_map, forall_exists_index, and_imp,
    forall_apply_eq_imp_iff₂, place_ring, fill]

/-- Settles O51: the wait of 32, and the calibration step of a sync event by its evidence. -/
theorem calibrationFollowsItsEvidence : Obligations.CalibrationFollowsItsEvidence := by
  refine ⟨fun x q => ⟨fun waits full => exec_of_effect ?_ q, fun not => exec_of_effect ?_ q⟩, ?_⟩
  · refine if_pos ?_
    rw [Station.calWaitDue, waits]
    exact decide_eq_true full
  · refine if_neg ?_
    unfold Station.calWaitDue
    rw [Bool.and_eq_true]
    rintro ⟨waits, full⟩
    exact not.elim (fun apart => apart (of_decide_eq_true waits)) fun short =>
      absurd (of_decide_eq_true full) (Nat.not_le.mpr short)
  · intro x q left join periods few confirms listed cal lists inputs ring motion standstill waited cleared normal aged skipped
      then_
    have runs : timerRuns x.member.state = true := by rw [join]; rfl
    have driving : isDriving x.member.state = true := by rw [join]; rfl
    have confirmed : effect .syncMark x = (x.reach (x.bus.position + left)).confirmMark := Station.syncMark_due runs confirms
    have opened := (x.reach (x.bus.position + left)).openedMark_opened
    have quiet : (x.reach (x.bus.position + left)).confirmMark = (x.reach (x.bus.position + left)).openedMark.syncEvent :=
      Station.confirmMark_quiet (fun _ => (Station.reach_markPeriods driving _).trans_lt few)
        (by rw [Ne, Station.reach_listen_iff, join]; decide)
    obtain ⟨o, is⟩ : ∃ o, o = (x.reach (x.bus.position + left)).openedMark := ⟨_, rfl⟩
    rw [← is] at opened quiet
    have state : o.member.state = .join := by
      rw [opened.state, Station.reach_state]
      exact (Station.sampleUntil_state_eq (by decide) (by decide) x _).mpr join
    have meas : o.meas = x.meas := by rw [opened.meas, Station.reach_meas]
    have params : o.params = x.params := by rw [opened.params, Station.reach_params]
    have cond : o.placed.cond = aged := opened.cond
    have moves : o.placed.motion ↔ motion := by
      rw [Station.placed_motion_iff, Station.pulseInputs, meas, params]
      rfl
    have stands : o.placed.standstill ↔ standstill := by
      rw [Station.placed_standstill_iff, moves, Station.pulseInputs, meas, params]
      rfl
    have cal_eq : o.placed.meas.cal = cal := by change o.meas.cal = _; rw [meas]
    have lists_eq : o.placed.meas.lists = lists := by change o.meas.lists = _; rw [meas]
    have scan_eq : o.placed.meas.scan = x.meas.scan := by change o.meas.scan = _; rw [meas]
    have normal_eq : o.placed.normalShadow = normal := by
      unfold Station.normalShadow Station.isDifferential
      rw [lists_eq, show o.placed.params = x.params from params]
    have state' : o.placed.member.state = .join := state
    refine ⟨o.placed.calibrationStep.triggerScan, exec_of_effect (confirmed.trans quiet) q, ?_⟩
    generalize o.placed = s at *
    have posted : ∀ {c list shadow cond'}, s.CalibratesTo c list shadow cond' → (lists.calShadow ≠ [] → shadow ≠ []) →
        x.meas.scan.isSome = true ∨ (s.meas.lists.runShadow ≠ [] ∧ shadow ≠ []) :=
      fun _ kept => listed.imp_right fun both => ⟨by rw [lists_eq]; exact both.1, kept both.2⟩
    have normal_kept : lists.calShadow ≠ [] → s.normalShadow ≠ [] := fun some none => some <| by
      rw [normal_eq] at none
      exact List.map_eq_nil_iff.mp none
    refine ⟨?_, fun idle => ?_⟩
    · intro becomes
      have reached : ∀ {c list shadow cond'}, s.CalibratesTo c list shadow cond' → (lists.calShadow ≠ [] → shadow ≠ []) →
          becomes c list shadow cond' := by
        intro c list shadow cond' leads kept
        obtain ⟨cal', selected, run, shadow', told, -⟩ := leads.triggered (by rw [scan_eq]; exact posted leads kept)
        exact ⟨cal', selected, run.trans (by rw [lists_eq]), shadow', told.trans (by rw [scan_eq])⟩
      rw [normal_eq] at normal_kept
      refine ⟨fun waits => ?_, fun runs => ?_, fun notWaiting notRunning => ?_⟩
      · have leads := Station.calibrationStep_waiting state' (cal_eq.symm ▸ waits)
        rw [cal_eq, lists_eq, normal_eq, cond, moves, stands] at leads
        obtain ⟨moved, stood, full, short⟩ := leads
        exact ⟨fun is => reached (moved is) id, fun is => reached (stood is) normal_kept,
          fun not not' last => reached (full not not' last) id, fun not not' early => reached (short not not' early) id⟩
      · have leads := Station.calibrationStep_running state' (cal_eq.symm ▸ runs)
        rw [cal_eq, normal_eq, cond, moves] at leads
        obtain ⟨moved, stays⟩ := leads
        refine ⟨fun is => reached (moved is) normal_kept, fun not => ?_⟩
        have same := Station.calibratesTo_self (stays not)
        rw [cal_eq, lists_eq, cond] at same
        exact reached same id
      · have same := Station.calibratesTo_self
          (Station.calibrationStep_idle state' (cal_eq.symm ▸ notWaiting) (cal_eq.symm ▸ notRunning))
        rw [cal_eq, lists_eq, cond] at same
        exact reached same id
    · obtain ⟨c, list, shadow, cond', leads, kept⟩ := Station.calibrates state'
      rw [lists_eq] at kept
      obtain ⟨-, selected, run, shadow', -, scan⟩ := leads.triggered (by rw [scan_eq]; exact posted leads kept)
      rw [scan (scan_eq.trans idle), selected, run, shadow']

end Sys2Proof.Machine
end

