-- ==== Sys2Proof/Proofs/MarkOpening.lean ====
section
/-! What a confirmed mark makes of the station (R6, R63, R74, R103), with the entry to JOIN or the bus loss that follows it. -/

namespace Sys2Proof.Machine

/-! ### The entry to JOIN, due or not -/

/-- What JOIN_ENTRY makes of each part of the station, by whether it is due (R63 to R65). -/
structure Station.JoinTaken (s y : Station) (due : Bool) : Prop where
  bus : y.bus = { s.bus with nextSeq := if due then false else s.bus.nextSeq }
  member : y.member = if due then s.member.atJoin else s.member
  meas : y.meas = { s.meas with cal := y.meas.cal }
  cal : due = true →
    y.meas.cal.status = if allStations.any fun c => (s.params.own.channels.get c).differential then .waiting else .done
  engine : y.engine = if due then s.engine.clearRun else s.engine
  auth : y.auth = if due then Authority.atRest else s.auth
  stays : due = false → y.cond = s.cond
  queue : y.cond.queue = s.cond.queue
  pins : y.pins = s.pins
  loader : y.loader = s.loader
  params : y.params = s.params
  peers : y.peers = s.peers
  drive : y.drive = s.drive

theorem Station.enterJoin_meas (s : Station) : s.enterJoin.meas = { s.meas with cal := s.enterJoin.meas.cal } := by
  unfold Station.enterJoin
  simp only [Station.restAuthority_meas]
  rfl

theorem Station.enterJoin_queue (s : Station) : s.enterJoin.cond.queue = s.cond.queue := by
  unfold Station.enterJoin
  dsimp only
  rw [Station.restAuthority_cond]
  exact (foldl_removeCond_queue authorityKeys s.cond).1

theorem Station.joinEntry_taken (s : Station) : s.JoinTaken s.joinEntry s.joinEntryDue := by
  unfold Station.joinEntry
  cases s.joinEntryDue with
  | false => exact ⟨rfl, rfl, rfl, nofun, rfl, rfl, fun _ => rfl, rfl, rfl, rfl, rfl, rfl, rfl⟩
  | true =>
    obtain ⟨bus, member, cal, engine, auth⟩ := s.enterJoin_values
    exact ⟨bus, member, s.enterJoin_meas, fun _ => cal, engine, auth, nofun, s.enterJoin_queue, s.enterJoin_pins,
      s.enterJoin_loader, s.enterJoin_params, s.enterJoin_peers, s.enterJoin_drive⟩

/-! ### What the sync event leaves in the Measurement Unit (R103, R104) -/

/-- The end of a scan keeps the snapshot and the pulse counts. -/
theorem Station.endScan_kept (s : Station) (scan : RunningScan) :
    (s.endScan scan).meas.snapshot = s.meas.snapshot ∧ (s.endScan scan).meas.stale = s.meas.stale
      ∧ (s.endScan scan).meas.ps0 = s.meas.ps0 ∧ (s.endScan scan).meas.ps1 = s.meas.ps1
      ∧ (s.endScan scan).meas.endedSinceSync = true := by
  obtain ⟨cal, lists, offsets, meas⟩ := s.endScan_meas scan
  obtain ⟨apart, run, checked⟩ := s.checkedScan_meas scan
  rw [meas, checked]
  exact ⟨rfl, rfl, rfl, rfl, rfl⟩

theorem Station.triggerScan_kept (s : Station) :
    s.triggerScan.meas.snapshot = s.meas.snapshot ∧ s.triggerScan.meas.stale = s.meas.stale
      ∧ s.triggerScan.meas.ps0 = s.meas.ps0 ∧ s.triggerScan.meas.ps1 = s.meas.ps1
      ∧ (∀ r, s.meas.scan = some r → s.triggerScan.meas = s.meas)
      ∧ (s.meas.scan = none → s.triggerScan.meas.scan.isSome = true ∨ s.triggerScan.meas.endedSinceSync = true) := by
  cases scan : s.meas.scan with
  | some r =>
    rw [Station.triggerScan_overrun (by rw [scan]; rfl)]
    exact ⟨rfl, rfl, rfl, rfl, fun _ _ => rfl, nofun⟩
  | none =>
    by_cases listed : s.meas.lists.shadow = []
    · obtain ⟨t, r, ends, snapshot, stale, ps0, ps1⟩ := Station.triggerScan_ends scan listed
      obtain ⟨snapshot', stale', ps0', ps1', ended⟩ := t.endScan_kept r
      rw [ends]
      exact ⟨snapshot'.trans snapshot, stale'.trans stale, ps0'.trans ps0, ps1'.trans ps1, nofun, fun _ => .inr ended⟩
    · rw [Station.triggerScan_starts scan listed]
      exact ⟨rfl, rfl, rfl, rfl, nofun, fun _ => .inl rfl⟩

theorem Station.calibrationStep_meas (s : Station) :
    ∃ cal lists, s.calibrationStep.meas = { s.meas with cal := cal, lists := lists } := by
  by_cases join : s.member.state = .join
  · obtain ⟨c, list, shadow, cond, leads, -⟩ := Station.calibrates join
    unfold Station.CalibratesTo at leads
    rw [leads]
    exact ⟨_, _, rfl⟩
  · exact ⟨_, _, congrArg Station.meas (Station.calibrationStep_apart join)⟩

/-- The sync event's work in the Measurement Unit. -/
theorem Station.syncEvent_kept (s : Station) :
    s.syncEvent.meas.snapshot = s.meas.latest ∧ s.syncEvent.meas.stale = !s.meas.endedSinceSync
      ∧ s.syncEvent.meas.ps0 = placeMapped s.params.own.ps0 s.meas.ps0
      ∧ s.syncEvent.meas.ps1 = placeMapped s.params.own.ps1 s.meas.ps1
      ∧ (∀ r, s.meas.scan = some r →
          s.syncEvent.meas.scan = some r ∧ s.syncEvent.meas.working = s.meas.working
            ∧ s.syncEvent.meas.latest = s.meas.latest ∧ s.syncEvent.meas.endedSinceSync = false)
      ∧ (s.meas.scan = none → s.syncEvent.meas.scan.isSome = true ∨ s.syncEvent.meas.endedSinceSync = true) := by
  obtain ⟨cal, lists, meas⟩ := s.placed.calibrationStep_meas
  have kept := s.placed.calibrationStep.triggerScan_kept
  rw [meas] at kept
  obtain ⟨snapshot, stale, ps0, ps1, runs, idle⟩ := kept
  rw [Station.syncEvent_eq]
  refine ⟨snapshot, stale, ps0, ps1, fun r scan => ?_, idle⟩
  rw [runs r scan]
  exact ⟨scan, rfl, rfl, rfl⟩

/-- Outside JOIN the sync event starts a scan with the posted list, or tells that one runs. -/
theorem Station.syncEvent_apart {s : Station} (apart : s.member.state ≠ .join) :
    (s.meas.scan.isSome = true → s.syncEvent = s.placed.raise .scanOverrun 0)
      ∧ (s.meas.scan = none → s.meas.lists.shadow ≠ [] →
        s.syncEvent =
          { s.placed with
            meas :=
              { s.placed.meas with
                lists := s.meas.lists.load, working := s.placed.withSpeeds s.meas.latest
                scan := some { list := s.meas.lists.selected, left := s.meas.lists.shadow, written := [], elapsed := 0 } } }) := by
  have stays : s.placed.calibrationStep = s.placed := Station.calibrationStep_apart apart
  rw [Station.syncEvent_eq, stays]
  exact ⟨fun runs => Station.triggerScan_overrun runs,
    fun idle listed => Station.triggerScan_starts (s := s.placed) idle listed⟩

theorem Station.syncEvent_apart_cond {s : Station} (apart : s.member.state ≠ .join)
    (some : s.meas.scan.isSome = true ∨ s.meas.lists.shadow ≠ []) :
    s.syncEvent.cond =
      if s.meas.scan.isSome then raiseEvent s.cond { code := .scanOverrun, source := 0 } 1 else s.cond := by
  obtain ⟨overruns, starts⟩ := Station.syncEvent_apart apart
  cases scan : s.meas.scan with
  | some r =>
    rw [overruns (by rw [scan]; rfl)]
    rfl
  | none =>
    rw [starts scan (some.resolve_left (by simp [scan]))]
    rfl

/-! ### How the mark opens its round (R6, R9; log 11) -/

/-- A mark to be confirmed, with the opening of its round at the station that time has carried to the confirmation. -/
def Station.opensAs (s t : Station) (left : Nat) (opening : Opening) : Prop :=
  (∃ m, s.bus.mark = some m ∧ m.confirmed = false ∧ m.age + left = 4 ∧ opening = .inWindow)
    ∨ (s.bus.markPending = false
        ∧ ∃ c, s.bus.candidate = some c ∧ c.age + left = 4
            ∧ opening = if c.inWindow = true ∧ t.bus.sync = .synchronised then .inWindow else .acquired)

theorem Station.opensAs.confirms {s t : Station} {left : Nat} {opening : Opening} (h : s.opensAs t left opening) :
    s.confirmsIn left := by
  rcases h with ⟨m, mark, unconfirmed, age, -⟩ | ⟨pending, c, candidate, age, -⟩
  · exact .inl ⟨m, mark, unconfirmed, age⟩
  · exact .inr ⟨pending, c, candidate, age⟩

theorem BusUnit.markPending_of_mark {b : BusUnit} {m : MarkDrive} (mark : b.mark = some m) (unconfirmed : m.confirmed = false) :
    b.markPending = true := by
  simp [BusUnit.markPending, mark, unconfirmed]

theorem Station.opensAs.opening {s : Station} {left : Nat} {opening : Opening}
    (h : s.opensAs (s.reach (s.bus.position + left)) left opening) :
    (s.reach (s.bus.position + left)).bus.markOpening = opening := by
  unfold BusUnit.markOpening
  rw [s.reach_markPending]
  rcases h with ⟨m, mark, unconfirmed, -, rfl⟩ | ⟨pending, c, candidate, age, rfl⟩
  · rw [BusUnit.markPending_of_mark mark unconfirmed]
    rfl
  · have open_ : c.age + (s.bus.position + left - s.bus.position) ≤ 4 := by omega
    rw [pending, s.reach_candidate, BusUnit.later_candidate_eq_some candidate open_]
    by_cases both : c.inWindow = true ∧ (s.reach (s.bus.position + left)).bus.sync = .synchronised
    · simp [both]
    · rw [if_neg both, if_neg]
      simpa [and_comm] using both

/-- The mark that the opened round leaves. -/
theorem Station.openRound_mark (s : Station) (p : Nat) :
    (∀ m, s.bus.mark = some m → m.confirmed = false →
        (s.reach p).closeAbandoned.bus.openRound.mark = some { m with age := 4, confirmed := true })
      ∧ (s.bus.markPending = false → (s.reach p).closeAbandoned.bus.openRound.mark = none) := by
  obtain ⟨mark, -⟩ := (s.reach p).closeAbandoned_timer
  have same : (s.reach p).closeAbandoned.bus.markPending = s.bus.markPending := by
    rw [← s.reach_markPending p]
    unfold BusUnit.markPending
    rw [mark]
  unfold BusUnit.openRound
  rw [same, mark, s.reach_mark p]
  refine ⟨fun m is unconfirmed => ?_, fun not => ?_⟩
  · dsimp only
    rw [BusUnit.markPending_of_mark is unconfirmed, is]
    simp [MarkDrive.later, Config.confirmTime]
  · dsimp only
    rw [not]
    rfl

/-! ### A bus loss at a mark (R74; log 47) -/

theorem Station.syncEvent_busLossDue (s : Station) :
    s.openedMark.syncEvent.busLossDue = true ↔ isDriving s.member.state = true ∧ 4 ≤ s.markPeriods := by
  have opened := s.openedMark_opened
  obtain ⟨-, -, -, -, member, -⟩ := s.openedMark.syncEvent_frame
  unfold Station.busLossDue
  rw [member, opened.state, Bool.and_eq_true]
  refine and_congr_right fun driving => ?_
  rw [opened.driving driving]
  exact decide_eq_true_iff

theorem Station.returned_not_joining {s y : Station} {cut : Bool} (lost : s.LostBus cut y) : y.joinEntry = y := by
  unfold Station.joinEntry Station.joinEntryDue
  rw [lost.member]
  exact if_neg (by simp [MembershipUnit.atListen, MembershipUnit.reset, Config.goodRounds])

theorem Station.goodAfter_le (s : Station) : s.goodAfter ≤ 8 := by
  unfold Station.goodAfter
  split <;> omega

/-- The fourth period without a well-formed round loses the bus, the sync event's work done (R74; log 47). -/
theorem Station.confirmMark_lost {s : Station} (driving : isDriving s.member.state = true) (many : 4 ≤ s.markPeriods) :
    ∃ f : Station, f.LostBus f.bus.markDominant s.confirmMark ∧ f.bus = s.closeAbandoned.bus.openRound
      ∧ f.member.losses = s.member.losses ∧ f.meas.snapshot = s.meas.latest := by
  have opened := s.openedMark_opened
  obtain ⟨-, -, -, bus, member, -⟩ := s.openedMark.syncEvent_frame
  have kept := s.openedMark.syncEvent_kept
  have due := s.syncEvent_busLossDue.mpr ⟨driving, many⟩
  rw [Station.confirmMark_eq, Station.busLoss, if_pos due]
  generalize s.openedMark.syncEvent = f at bus member kept
  have lost := Station.returnAfterLoss_lostBus (s := f) (by rw [member, opened.state]; exact driving)
  refine ⟨f, ?_, bus.trans opened.bus, ?_, kept.1.trans (by rw [opened.meas])⟩
  · rw [Station.returned_not_joining lost]
    exact lost
  · rw [member, opened.driving driving]
    exact s.closeAbandoned_sameCounts.losses

/-- The entry to JOIN that a mark brings (R63, R64). -/
theorem Station.syncEvent_joinEntryDue (s : Station) :
    s.openedMark.syncEvent.joinEntryDue =
      (decide (s.member.state = .listen) && decide (s.goodAfter = 8)
        && decide (s.member.silencings + s.member.losses ≤ s.params.shared.rejoinMax)) := by
  have opened := s.openedMark_opened
  obtain ⟨-, -, params, -, member, -⟩ := s.openedMark.syncEvent_frame
  unfold Station.joinEntryDue Station.allowanceSpent
  rw [member, params, opened.state, opened.params]
  by_cases listen : s.member.state = .listen
  · have counts := s.closeAbandoned_sameCounts
    have full : 8 ≤ s.goodAfter ↔ s.goodAfter = 8 := by have := s.goodAfter_le; omega
    have left : ∀ n m : Nat, (!decide (n < m)) = decide (m ≤ n) := fun n m => by
      rw [← decide_not]
      exact decide_eq_decide.mpr Nat.not_lt
    rw [opened.listen listen]
    change (decide (s.member.state = .listen) && decide (8 ≤ s.goodAfter)
      && !decide (s.params.shared.rejoinMax < s.closeAbandoned.member.silencings + s.closeAbandoned.member.losses)) = _
    rw [counts.silencings, counts.losses, left, decide_eq_decide.mpr full]
  · simp [listen]

/-- A following station that is carried past its window has lost its marks before the confirmation (R9). -/
theorem Station.lost_before_mark {s : Station} {p : Nat} (following : isFollowing s.member.state = true)
    (synchronised : s.bus.sync = .synchronised) (pending : s.bus.markPending = false) (past : 2520 < p) :
    (s.reach p).bus.markOpening = .acquired ∧ (s.reach p).bus.pendingRecord = none ∧ (s.reach p).member.goodRounds = 0 := by
  have lost := Station.reach_lost following synchronised past
  refine ⟨?_, by rw [lost]; rfl, by rw [lost]⟩
  unfold BusUnit.markOpening
  rw [s.reach_markPending, pending, lost]
  rfl

theorem quiet_of_following {state : StationState} (following : isFollowing state = true) (apart : state ≠ .listen) :
    state = .quiet := by
  cases state <;> simp_all [isFollowing]

/-- In LISTEN the end of an abandoned round moves nothing of the Membership Unit (R69). -/
theorem Station.closeAbandoned_member_listen {s : Station} (listen : s.member.state = .listen) :
    s.closeAbandoned.member = s.member := by
  by_cases abandoned : s.bus.round.abandoned = true
  · rw [Station.closeAbandoned_abandoned abandoned]
    dsimp only
    rw [if_neg (by simp [listen])]
  · rw [Station.closeAbandoned_none (Bool.eq_false_iff.mpr abandoned)]

/-- The placement of an input's round count (R110). -/
theorem placeMapped_eq (cfg : PulseConfig) (p : PulseCounter) :
    placeMapped cfg p =
      if cfg.mapped then
        { count := 0, ring := (p.ring ++ [p.count]).drop (p.ring.length + 1 - cfg.window), fill := min 16 (p.fill + 1)
          quiet := if p.count = 0 then min 255 (p.quiet + 1) else 0 }
      else p := by
  unfold placeMapped PulseCounter.place
  dsimp only
  rw [List.length_append, List.length_singleton]
  rfl

/-- Settles O10: the opened round, the sync event, and the bus loss or the entry to JOIN. -/
theorem markOpensTheRound : Obligations.MarkOpensTheRound := by
  refine ⟨?_, fun x q noCandidate noMark => exec_of_effect (c := .syncMark) (Station.syncMark_not_due noCandidate noMark) q⟩
  intro x q left opening runs t ended opens periods lost good enters place speed0 speed1 aged told list
  have opens' : x.opensAs t left opening := opens
  have confirmed : effect .syncMark x = t.confirmMark := Station.syncMark_due runs opens'.confirms
  have opened := t.openedMark_opened
  have opening_eq : t.bus.markOpening = opening := opens'.opening
  have mark := x.openRound_mark (x.bus.position + left)
  have driving : isDriving t.member.state = isDriving x.member.state := x.reach_isDriving _
  have counted : isDriving x.member.state = true → t.markPeriods = periods := fun drives => Station.reach_markPeriods drives _
  have lost_iff : t.openedMark.syncEvent.busLossDue = true ↔ lost := by
    rw [Station.syncEvent_busLossDue, driving]
    exact and_congr_right fun drives => by rw [counted drives]
  obtain ⟨silencings, losses, -⟩ : t.member.silencings = _ ∧ t.member.losses = _ ∧ _ := x.reach_counts _
  have params : t.params = x.params := x.reach_params _
  have meas : t.meas = x.meas := x.reach_meas _
  have placed_eq : ∀ cfg p, placeMapped cfg p = place cfg p := placeMapped_eq
  have kept := t.openedMark.syncEvent_kept
  have frame := t.openedMark.syncEvent_frame
  refine ⟨fun stays => ?_, fun loses => ?_⟩
  · have noLoss : t.openedMark.syncEvent.busLoss = t.openedMark.syncEvent := if_neg (mt lost_iff.mp stays)
    have taken := t.openedMark.syncEvent.joinEntry_taken
    have enters_eq : t.openedMark.syncEvent.joinEntryDue = enters := by
      rw [Station.syncEvent_joinEntryDue]
      unfold Station.goodAfter
      rw [decide_eq_decide.mpr (x.reach_listen_iff _), silencings, losses, params, opening_eq]
    rw [enters_eq] at taken
    refine ⟨t.openedMark.syncEvent.joinEntry, exec_of_effect (confirmed.trans (by rw [Station.confirmMark_eq, noLoss])) q, ?_⟩
    obtain ⟨fpins, floader, fparams, fbus, fmember, fpeers, fengine, fauth, fdrive⟩ := frame
    have bus_eq := taken.bus
    have member_eq := taken.member
    rw [fbus] at bus_eq
    rw [fmember] at member_eq
    have listens : enters = true → t.member.state = .listen := fun is => by
      simp only [enters, Bool.and_eq_true, decide_eq_true_eq] at is
      exact (x.reach_listen_iff _).mpr is.1.1
    have full : enters = true → good = 8 := fun is => by
      simp only [enters, Bool.and_eq_true, decide_eq_true_eq] at is
      exact is.1.2
    have enters_not : t.member.state ≠ .listen → enters = false := fun not => Bool.eq_false_iff.mpr (mt listens not)
    have not_join : x.member.state ≠ .join → t.member.state ≠ .join := fun apart is => apart <| by
      rw [Station.reach_state] at is
      exact (Station.sampleUntil_state_eq (by decide) (by decide) x _).mp is
    have good_eq : t.goodAfter = good := by
      unfold Station.goodAfter
      rw [opening_eq]
    rw [opened.meas, opened.params, params, meas] at kept
    obtain ⟨snapshot, stale, ps0, ps1, running, idle⟩ := kept
    generalize t.openedMark.syncEvent.joinEntry = y at taken bus_eq member_eq
    refine ⟨?bus, ?mark, ?noMark, ?past, ?driving, ?quiet, ?listen, ?enters, ?apart, ?snapshot, ?stale, ?ps0, ?ps1, ?running,
      ?starts, ?idle, ?told, ?pins, ?loader, ?params, ?peers, ?drive⟩
    case bus =>
      have number : ended.bus.roundNumber = x.bus.roundNumber :=
        (Station.closeAbandoned_roundNumber _).trans (x.reach_bus_roundNumber _)
      have opens_eq : ended.bus.markOpening = opening := by
        obtain ⟨mark', sync, candidate, -⟩ := t.closeAbandoned_timer
        exact (BusUnit.markOpening_congr mark' sync candidate).trans opening_eq
      rw [bus_eq, opened.bus]
      unfold BusUnit.openRound
      dsimp only
      rw [number, opens_eq]
      rfl
    case mark =>
      intro m is unconfirmed
      rw [bus_eq, opened.bus]
      exact mark.1 m is unconfirmed
    case noMark =>
      intro not
      rw [bus_eq, opened.bus]
      exact mark.2 not
    case past =>
      intro following synchronised not past
      obtain ⟨acquired, record, none⟩ := Station.lost_before_mark following synchronised not past
      have acquired_eq : opening = .acquired := opening_eq.symm.trans acquired
      have good_none : good ≠ 8 := by simp [good, acquired_eq]
      have stays' : enters = false := Bool.eq_false_iff.mpr fun is => good_none (full is)
      refine ⟨?_, ?_, ?_⟩
      · rw [bus_eq, ← acquired_eq, ← opening_eq]
        exact congrArg RoundState.opening opened.opening
      · rw [bus_eq, opened.bus]
        exact (t.closeAbandoned_record).elim (fun same => same.trans record) id
      · rw [member_eq, stays']
        by_cases listen : t.member.state = .listen
        · rw [if_neg (by decide), opened.listen listen, good_eq]
          exact if_neg (by rw [acquired_eq]; decide)
        · have quiet : t.member.state = .quiet := by
            refine quiet_of_following ?_ listen
            rw [Station.reach_state]
            exact (x.sampleUntil_isFollowing _).trans following
          obtain ⟨-, -, -, good', -⟩ := t.closeAbandoned_timer
          rw [if_neg (by decide), opened.quiet quiet]
          exact good'.trans none
    case driving =>
      intro drives
      rw [member_eq, enters_not (fun listen => by rw [listen] at driving; rw [← driving] at drives; cases drives)]
      rw [← counted drives]
      exact opened.driving (driving.trans drives)
    case quiet =>
      intro is
      have quiet : t.member.state = .quiet := by
        rw [Station.reach_state]
        exact (Station.sampleUntil_state_eq (by decide) (by decide) x _).mpr is
      rw [member_eq, enters_not (by rw [quiet]; decide)]
      exact opened.quiet quiet
    case listen =>
      intro is not
      have listen : t.member.state = .listen := (x.reach_listen_iff _).mpr is
      rw [member_eq, not, ← good_eq, if_neg (by decide), opened.listen listen, Station.closeAbandoned_member_listen listen]
    case enters =>
      intro is
      have cal := taken.cal is
      rw [fparams, opened.params, params] at cal
      rw [member_eq, taken.engine, taken.auth, is, if_pos rfl, if_pos rfl, if_pos rfl, opened.listen (listens is),
        Station.closeAbandoned_member_listen (listens is), good_eq, full is, fengine, opened.engine]
      refine ⟨rfl, ?_, rfl, cal⟩
      exact congrArg Engine.clearRun (x.reach_engine _)
    case apart =>
      intro not
      rw [taken.engine, taken.auth, not, fengine, fauth, opened.engine, opened.auth]
      exact ⟨x.reach_engine _, x.reach_auth _⟩
    case snapshot => rw [taken.meas]; exact snapshot
    case stale => rw [taken.meas]; exact stale
    case ps0 => rw [taken.meas]; exact ps0.trans (placed_eq _ _)
    case ps1 => rw [taken.meas]; exact ps1.trans (placed_eq _ _)
    case running => rw [taken.meas]; exact running
    case starts =>
      intro none apart some
      obtain ⟨-, starts⟩ := Station.syncEvent_apart (s := t.openedMark) (by rw [opened.state]; exact not_join apart)
      have speeds : t.openedMark.placed.withSpeeds x.meas.latest =
          { x.meas.latest with speed0 := speed0, speed1 := speed1, ownSpeed := ownSpeedOf speed0 speed1 } := by
        unfold Station.withSpeeds
        change (let a := pulseSpeed t.openedMark.params.own.ps0 (placeMapped t.openedMark.params.own.ps0 t.openedMark.meas.ps0)
          let b := pulseSpeed t.openedMark.params.own.ps1 (placeMapped t.openedMark.params.own.ps1 t.openedMark.meas.ps1)
          { x.meas.latest with speed0 := a, speed1 := b, ownSpeed := ownSpeedOf a b }) = _
        rw [opened.params, params, opened.meas, meas, placed_eq, placed_eq]
      rw [opened.meas, meas] at starts
      rw [taken.meas, starts none some, speeds]
      refine ⟨rfl, rfl, ?_, rfl⟩
      change t.openedMark.meas.latest = _
      rw [opened.meas, meas]
    case idle => rw [taken.meas]; exact idle
    case told =>
      intro apart some
      have told_eq := Station.syncEvent_apart_cond (s := t.openedMark) (by rw [opened.state]; exact not_join apart)
        (by rw [opened.meas, meas]; exact some)
      rw [opened.meas, meas, opened.cond] at told_eq
      exact ⟨fun not => (taken.stays not).trans told_eq, fun _ => taken.queue.trans (congrArg ConditionUnit.queue told_eq)⟩
    case pins => rw [taken.pins, fpins, opened.pins]; exact x.reach_pins _
    case loader => rw [taken.loader, floader, opened.loader]; exact x.reach_loader _
    case params => rw [taken.params, fparams, opened.params]; exact params
    case peers => rw [taken.peers, fpeers, opened.peers]; exact x.reach_peers _
    case drive => rw [taken.drive, fdrive, opened.drive]
  · obtain ⟨f, lostBus, bus, losses', snapshot⟩ := Station.confirmMark_lost (driving.trans loses.1)
      ((counted loses.1).symm ▸ loses.2)
    obtain ⟨y, is⟩ : ∃ y, y = t.confirmMark := ⟨_, rfl⟩
    rw [← is] at lostBus confirmed
    refine ⟨y, exec_of_effect confirmed q, lostBus.listen, ?_, ?_, ?_, ?_, ?_, ?_, ?_, ?_, ?_, fun not read => ?_,
      lostBus.told⟩
    · rw [lostBus.member, ← losses, ← losses']
      rfl
    iterate 6 · rw [lostBus.bus]; rfl
    · rw [lostBus.drive]
      rfl
    · rw [lostBus.snapshot, snapshot, meas]
    · rw [lostBus.txd.1, bus, BusUnit.markDominant, mark.2 not]
      rfl

end Sys2Proof.Machine
end

