-- ==== Sys2Proof/Proofs/PeerRules.lean ====
section
/-! The records of the peer table: their commands and their judgement (R82, R96, R97), and the vote (R98). -/

namespace Sys2Proof.Machine

/-! ### PEER_LOST and SUSPECT_RECOVERY (R82, R97) -/

theorem Station.peerLost_taken {s : Station} {k : StationNo} (other : k ≠ s.number) (full : 3 ≤ (s.peers.get k).absentRounds)
    (taken : isTaken (s.peers.get k).state = true) : s.peerLost k = (s.makeAbsent k).raise .peerLost k.val := by
  have due : s.absentDue k = true := by
    simp [Station.absentDue, other, taken, Config.absentLimit, full]
  unfold Station.peerLost
  rw [if_pos due, if_pos taken]

theorem Station.peerLost_excluded {s : Station} {k : StationNo} (other : k ≠ s.number)
    (full : 3 ≤ (s.peers.get k).absentRounds)
    (excluded : (s.peers.get k).state = .excluded) : s.peerLost k = s.makeAbsent k := by
  have due : s.absentDue k = true := by
    simp [Station.absentDue, other, excluded, Config.absentLimit, full]
  unfold Station.peerLost
  rw [if_pos due, if_neg (by rw [excluded]; decide)]

theorem Station.peerLost_not_due {s : Station} {k : StationNo} (not : k = s.number ∨ (s.peers.get k).absentRounds < 3) :
    s.peerLost k = s := by
  unfold Station.peerLost
  refine if_neg ?_
  unfold Station.absentDue
  rw [Bool.and_eq_true, Bool.and_eq_true]
  rintro ⟨⟨other, -⟩, full⟩
  exact not.elim (of_decide_eq_true (p := k ≠ s.number) other) fun short =>
    absurd (of_decide_eq_true full) (Nat.not_le.mpr short)

theorem Station.recoveryDue_iff (s : Station) (k : StationNo) :
    s.recoveryDue k = true ↔ (s.peers.get k).state = .suspect ∧ 32 ≤ (s.peers.get k).recover := by
  unfold Station.recoveryDue
  rw [Bool.and_eq_true]
  exact and_congr decide_eq_true_iff decide_eq_true_iff

theorem Station.suspectRecovery_due {s : Station} {k : StationNo} (suspect : (s.peers.get k).state = .suspect)
    (full : 32 ≤ (s.peers.get k).recover) :
    s.suspectRecovery k = s.setPeer k { s.peers.get k with state := .present, recover := 0 } :=
  if_pos ((s.recoveryDue_iff k).mpr ⟨suspect, full⟩)

theorem Station.suspectRecovery_not_due {s : Station} {k : StationNo}
    (not : (s.peers.get k).state ≠ .suspect ∨ (s.peers.get k).recover < 32) : s.suspectRecovery k = s :=
  if_neg fun due => by
    obtain ⟨suspect, full⟩ := (s.recoveryDue_iff k).mp due
    exact not.elim (· suspect) (Nat.not_lt.mpr full)

/-- A SUSPECT record is clean in this round: received, without a cause (R97). -/
def Station.cleanRound (s : Station) (k : StationNo) : Bool := s.wasReceived k && !s.suspectCause k

/-- The judgement of a SUSPECT record that its recover count does not end (R97). -/
theorem Station.judgeRecord_suspect {s : Station} {k : StationNo} (suspect : (s.peers.get k).state = .suspect) {count : Nat}
    (counts : (if s.cleanRound k then min 32 ((s.peers.get k).recover + 1) else 0) = count) (short : count < 32) :
    s.judgeRecord k = s.setPeer k { s.peers.get k with recover := count } := by
  subst counts
  unfold Station.judgeRecord
  dsimp only
  rw [suspect]
  refine Station.suspectRecovery_not_due (.inr ?_)
  unfold Station.setPeer
  dsimp only
  rw [Eight.get_set_self]
  exact short

theorem Station.judgeRecord_present {s : Station} {k : StationNo} (present : (s.peers.get k).state = .present)
    (cause : s.suspectCause k = true) :
    s.judgeRecord k =
      (s.setPeer k { s.peers.get k with state := .suspect, recover := 0 }).raise .peerSuspect k.val := by
  unfold Station.judgeRecord
  dsimp only
  rw [present]
  exact if_pos cause

/-- Settles O30: the two commands by their counts, and the judgement of a SUSPECT or PRESENT record. -/
theorem peerRecordsMoveAtTheirCounts : Obligations.PeerRecordsMoveAtTheirCounts := by
  refine ⟨fun x q k => ?_, fun x q k => ?_⟩
  · intro r gone ended
    refine ⟨fun other full taken => exec_of_effect (c := .peerLost k) ((Station.peerLost_taken other full ?_).trans ?_) q,
      fun other full excluded => exec_of_effect (c := .peerLost k) ((Station.peerLost_excluded other full excluded).trans ?_) q,
      fun not => exec_of_effect (c := .peerLost k) (Station.peerLost_not_due not) q⟩
    · rcases taken with is | is | is <;> exact (congrArg isTaken is).trans rfl
    · rfl
    · rfl
  · intro r
    refine ⟨fun suspect full => exec_of_effect (c := .suspectRecovery k) (Station.suspectRecovery_due suspect full) q,
      fun not => exec_of_effect (c := .suspectRecovery k) (Station.suspectRecovery_not_due not) q,
      fun suspect short received clean => ?_,
      fun suspect not => ?_, fun present cause => ?_⟩
    · refine Station.judgeRecord_suspect suspect ?_ (Nat.succ_lt_succ short)
      rw [Station.cleanRound, received, clean, if_pos (by rfl)]
      exact Nat.min_eq_right (Nat.le_succ_of_le short)
    · refine Station.judgeRecord_suspect suspect (if_neg ?_) (by decide)
      rcases not with missed | caused
      · simp [Station.cleanRound, missed]
      · simp [Station.cleanRound, caused]
    · exact Station.judgeRecord_present present cause

/-! ### The vote (R98) -/

/-- Settles O31: the votes counted among the eligible voters. -/
theorem voteNamesTheExclusions : Obligations.VoteNamesTheExclusions := by
  intro x p received voters votes
  have heard : ∀ v, x.heard v = received v := fun v => rfl
  have voters_eq : allStations.filter (x.eligible p) = voters := by
    refine List.filter_congr fun v _ => ?_
    unfold Station.eligible Station.wasReceived
    rw [heard]
    rfl
  have votes_eq : voters.filter (x.votesFor p) = votes := by
    refine List.filter_congr fun v _ => ?_
    unfold Station.votesFor
    rw [heard]
    cases received v <;> rfl
  unfold Station.exclusions
  rw [inSet_setOf]
  unfold Station.votedOut
  rw [voters_eq]
  dsimp only
  rw [votes_eq]
  simp [and_assoc]

end Sys2Proof.Machine
end

