-- ==== Sys2Proof/Proofs/HandoverRules.lean ====
section
/-! The handover of one group, step by step (R147, R148, R150, R151, R153 to R155). -/

namespace Sys2Proof.Machine

/-! ### A group with no transaction open -/

section

variable {w : GroupWork} {inp : GroupInputs}

theorem GroupWork.ageStage_none (closed : w.record.transaction = none) : w.ageStage = w := by
  unfold GroupWork.ageStage
  rw [closed]

theorem GroupWork.abort_none (closed : w.record.transaction = none) : w.abort inp = w := by
  unfold GroupWork.abort
  rw [closed]

theorem GroupWork.respond_none (closed : w.record.transaction = none) (start : Option Stage) : w.respond inp start = w := by
  unfold GroupWork.respond
  rw [closed]

theorem GroupWork.answerLimit_none (closed : w.record.transaction = none) : w.answerLimit = w := by
  unfold GroupWork.answerLimit
  rw [closed]

theorem GroupWork.prepareLimit_none (closed : w.record.transaction = none) : w.prepareLimit = w := by
  unfold GroupWork.prepareLimit
  rw [closed]

/-- A claim is void while a transaction was open at the start (R147). -/
theorem GroupWork.takeClaim_open (w : GroupWork) (inp : GroupInputs) : w.takeClaim inp true = w := by
  unfold GroupWork.takeClaim
  cases inp.claimant with
  | none => rfl
  | some c => exact if_pos (by simp [GroupWork.claimVoid])

/-- Steps 3 to 5 of R148. -/
def GroupWork.afterLosses (w : GroupWork) (inp : GroupInputs) (start : Option Stage) : GroupWork :=
  ((w.abort inp).respond inp start).answerLimit.prepareLimit

theorem groupHandover_eq (inp : GroupInputs) (start : GroupRecord) :
    groupHandover inp start =
      (((⟨start, none⟩ : GroupWork).ageStage.dealLosses inp).afterLosses inp (start.transaction.map (·.stage))).takeClaim inp
        start.transaction.isSome := rfl

theorem GroupWork.afterLosses_none (closed : w.record.transaction = none) (start : Option Stage) :
    w.afterLosses inp start = w := by
  unfold GroupWork.afterLosses
  rw [GroupWork.abort_none closed, GroupWork.respond_none closed, GroupWork.answerLimit_none closed,
    GroupWork.prepareLimit_none closed]

theorem GroupWork.dealLosses_closed (closed : w.record.transaction = none) :
    w.dealLosses inp = w.removeLost inp w.record.holders := by
  unfold GroupWork.dealLosses
  rw [closed]

/-- With no transaction open a handover removes the lost, then tests the claim. -/
theorem groupHandover_none (inp : GroupInputs) {start : GroupRecord} (closed : start.transaction = none) :
    groupHandover inp start = ((⟨start, none⟩ : GroupWork).removeLost inp start.holders).takeClaim inp false := by
  have left : ((⟨start, none⟩ : GroupWork).removeLost inp start.holders).record.transaction = none :=
    (GroupWork.removeLost_transaction _ _ _).trans closed
  rw [groupHandover_eq, GroupWork.ageStage_none closed, GroupWork.dealLosses_closed closed, GroupWork.afterLosses_none left,
    closed]
  rfl

/-! ### A claim (R147) -/

theorem GroupWork.takeClaim_unclaimed (none : inp.claimant = none) (openAtStart : Bool) : w.takeClaim inp openAtStart = w := by
  unfold GroupWork.takeClaim
  rw [none]

/-- What makes a claim void for a group with no transaction open. -/
def GroupWork.claimIsVoid (w : GroupWork) (inp : GroupInputs) (c : StationNo) : Prop :=
  (∃ h ∈ w.record.holders, h.station = c) ∨ (if inp.group = .tilt then 2 else 1) ≤ w.record.holders.length
    ∨ (inp.stopped = true ∧ w.record.holders ≠ [])

theorem GroupWork.claimVoid_iff (w : GroupWork) (inp : GroupInputs) (c : StationNo) :
    w.claimVoid inp false c = true ↔ w.claimIsVoid inp c := by
  have most : mostHolders inp.group = if inp.group = .tilt then 2 else 1 := by cases inp.group <;> rfl
  unfold GroupWork.claimVoid GroupWork.claimIsVoid isHolder
  rw [most]
  simp [or_assoc]

theorem GroupWork.takeClaim_void {c : StationNo} (claims : inp.claimant = some c) (void : w.claimIsVoid inp c) :
    w.takeClaim inp false = w := by
  unfold GroupWork.takeClaim
  rw [claims]
  exact if_pos ((w.claimVoid_iff inp c).mpr void)

theorem GroupWork.takeClaim_opens {c : StationNo} (claims : inp.claimant = some c) (fits : ¬w.claimIsVoid inp c) :
    w.takeClaim inp false =
      w.moveTo
        { claimant := c, stage := if w.record.holders.isEmpty then .prepare else .answer, age := 0, rampCount := 0,
          saved := none } := by
  unfold GroupWork.takeClaim
  rw [claims]
  exact if_neg (mt (w.claimVoid_iff inp c).mp fits)

/-! ### A transaction open (R148) -/

variable {t : Transaction}

theorem GroupWork.ageStage_some (opened : w.record.transaction = some t) :
    w.ageStage = w.moveTo { t with age := min 16 (t.age + 1) } := by
  unfold GroupWork.ageStage
  rw [opened]
  rfl

theorem GroupWork.dealLosses_withdrawn (opened : w.record.transaction = some t) (lost : inp.lost t.claimant = true) :
    w.dealLosses inp = (w.close (w.record.restored t) .withdrawn).removeLost inp (w.record.restored t) := by
  unfold GroupWork.dealLosses
  rw [opened]
  exact if_pos lost

theorem GroupWork.close_some (opened : w.record.transaction = some t) (holders : List Holder) (code : CloseCode) :
    w.close holders code =
      { record := { w.record with holders := holders, transaction := none }, closed := some (t.claimant, code) } := by
  unfold GroupWork.close
  rw [opened]

/-- No holder other than the claimant stands under LOCK or FAULT 3. -/
theorem GroupWork.abort_apart (opened : w.record.transaction = some t)
    (apart : inp.stopped = false ∨ ∀ h ∈ w.record.holders, h.station = t.claimant) : w.abort inp = w := by
  unfold GroupWork.abort
  rw [opened]
  refine if_neg ?_
  rcases apart with runs | own
  · simp [runs]
  · simpa [otherHolder] using fun _ => own

theorem GroupWork.abort_stopped (opened : w.record.transaction = some t) (stopped : inp.stopped = true)
    (other : ∃ h ∈ w.record.holders, h.station ≠ t.claimant) :
    w.abort inp = w.close (w.record.restored t) .aborted := by
  unfold GroupWork.abort
  rw [opened]
  exact if_pos (by simpa [otherHolder, stopped] using other)

theorem GroupWork.respond_answer (opened : w.record.transaction = some t) (answer : t.stage = .answer) :
    w.respond inp (some .answer) =
      if someHolder w.record.holders inp .keep then w.close w.record.holders .refused
      else if someHolder w.record.holders inp .give then w.moveTo { t with stage := .prepare, age := 0 }
      else w := by
  unfold GroupWork.respond
  rw [opened]
  dsimp only
  rw [answer]

theorem GroupWork.respond_prepare (opened : w.record.transaction = some t) (prepare : t.stage = .prepare) :
    w.respond inp (some .prepare) = if inp.responses.get t.claimant = .ready then w.takeReady inp.group t else w := by
  unfold GroupWork.respond
  rw [opened]
  dsimp only
  rw [prepare]

/-- A stage that was not the start's takes no response of the handover. -/
theorem GroupWork.respond_moved (opened : w.record.transaction = some t) {start : Option Stage}
    (moved : start ≠ some t.stage ∨ t.stage = .ramp) : w.respond inp start = w := by
  unfold GroupWork.respond
  rw [opened]
  dsimp only
  cases stage : t.stage <;> cases start with
  | none => rfl
  | some s => cases s <;> simp_all

theorem GroupWork.answerLimit_apart (opened : w.record.transaction = some t) (apart : t.stage ≠ .answer ∨ t.age < 4) :
    w.answerLimit = w := by
  unfold GroupWork.answerLimit
  rw [opened]
  refine if_neg ?_
  rw [Bool.and_eq_true]
  rintro ⟨answer, full⟩
  exact apart.elim (fun not => not (of_decide_eq_true answer)) fun short =>
    absurd (of_decide_eq_true full) (Nat.not_le.mpr short)

theorem GroupWork.answerLimit_due (opened : w.record.transaction = some t) (answer : t.stage = .answer) (full : 4 ≤ t.age) :
    w.answerLimit = w.close w.record.holders .noAnswer := by
  unfold GroupWork.answerLimit
  rw [opened]
  exact if_pos (by simp [answer, Config.answerLimit, full])

theorem GroupWork.prepareLimit_apart (opened : w.record.transaction = some t) (apart : t.stage ≠ .prepare ∨ t.age < 16) :
    w.prepareLimit = w := by
  unfold GroupWork.prepareLimit
  rw [opened]
  refine if_neg ?_
  rw [Bool.and_eq_true]
  rintro ⟨prepare, full⟩
  exact apart.elim (fun not => not (of_decide_eq_true prepare)) fun short =>
    absurd (of_decide_eq_true full) (Nat.not_le.mpr short)

theorem GroupWork.prepareLimit_due (opened : w.record.transaction = some t) (prepare : t.stage = .prepare) (full : 16 ≤ t.age) :
    w.prepareLimit = w.close w.record.holders .notReady := by
  unfold GroupWork.prepareLimit
  rw [opened]
  exact if_pos (by simp [prepare, Config.prepareLimit, full])

/-- A stage just entered is at no limit. -/
theorem GroupWork.limits_fresh (opened : w.record.transaction = some t) (fresh : t.age = 0) : w.answerLimit.prepareLimit = w := by
  rw [GroupWork.answerLimit_apart opened (.inr (by omega)), GroupWork.prepareLimit_apart opened (.inr (by omega))]

theorem GroupWork.limits_none (closed : w.record.transaction = none) : w.answerLimit.prepareLimit = w := by
  rw [GroupWork.answerLimit_none closed, GroupWork.prepareLimit_none closed]

/-- A READY taken (R151). -/
theorem GroupWork.takeReady_eq (opened : w.record.transaction = some t) (g : Group) :
    w.takeReady g t =
      if g = .tilt ∧ w.record.holders = [] then
        { record := { w.record with holders := [{ station := t.claimant, share := 1000 }], transaction := none }
          closed := some (t.claimant, .complete) }
      else
        { w with
          record :=
            { w.record with
              holders := w.record.holders ++ [{ station := t.claimant, share := 0 }]
              transaction := some { t with stage := .ramp, age := 0, rampCount := 0, saved := some w.record.holders } } } := by
  unfold GroupWork.takeReady
  cases g with
  | steer => rw [if_neg (by simp)]
  | tilt =>
    dsimp only
    by_cases vacant : w.record.holders = []
    · rw [if_pos (List.isEmpty_iff.mpr vacant), if_pos ⟨rfl, vacant⟩, GroupWork.close_some opened]
    · rw [if_neg (mt List.isEmpty_iff.mp vacant), if_neg fun both => vacant both.2]

/-- With a transaction open at the start a handover ages the stage, deals with the losses, and goes on. -/
theorem groupHandover_some (inp : GroupInputs) {start : GroupRecord} (opened : start.transaction = some t) :
    groupHandover inp start =
      ((⟨{ start with transaction := some { t with age := min 16 (t.age + 1) } }, none⟩ : GroupWork).dealLosses inp).afterLosses
        inp (some t.stage) := by
  rw [groupHandover_eq, GroupWork.ageStage_some (w := ⟨start, none⟩) opened, opened]
  exact GroupWork.takeClaim_open _ _

/-! ### Steps 3 to 5 by the stage -/

/-- The transaction goes on: no holder but the claimant stands under LOCK or FAULT 3 (R155). -/
def GroupWork.goesOn (w : GroupWork) (inp : GroupInputs) (t : Transaction) : Prop :=
  inp.stopped = false ∨ ∀ h ∈ w.record.holders, h.station = t.claimant

theorem GroupWork.afterLosses_aborted (opened : w.record.transaction = some t) (stopped : inp.stopped = true)
    (other : ∃ h ∈ w.record.holders, h.station ≠ t.claimant) (start : Option Stage) :
    w.afterLosses inp start =
      { record := { w.record with holders := w.record.restored t, transaction := none }
        closed := some (t.claimant, .aborted) } := by
  unfold GroupWork.afterLosses
  rw [GroupWork.abort_stopped opened stopped other, GroupWork.close_some opened]
  rw [GroupWork.respond_none rfl, GroupWork.limits_none rfl]

theorem GroupWork.someHolder_iff (holders : List Holder) (r : Response) :
    someHolder holders inp r = true ↔ ∃ h ∈ holders, inp.responses.get h.station = r := by
  simp [someHolder]

/-- A KEEP closes an ANSWER, a GIVE moves it on. -/
theorem GroupWork.afterLosses_keep (opened : w.record.transaction = some t) (on : w.goesOn inp t) (answer : t.stage = .answer)
    (keep : ∃ h ∈ w.record.holders, inp.responses.get h.station = .keep) :
    w.afterLosses inp (some .answer) =
      { record := { w.record with transaction := none }, closed := some (t.claimant, .refused) } := by
  unfold GroupWork.afterLosses
  rw [GroupWork.abort_apart opened on, GroupWork.respond_answer opened answer,
    if_pos ((GroupWork.someHolder_iff _ _).mpr keep), GroupWork.close_some opened, GroupWork.answerLimit_none rfl,
    GroupWork.prepareLimit_none rfl]

theorem GroupWork.afterLosses_give (opened : w.record.transaction = some t) (on : w.goesOn inp t) (answer : t.stage = .answer)
    (noKeep : ¬∃ h ∈ w.record.holders, inp.responses.get h.station = .keep)
    (give : ∃ h ∈ w.record.holders, inp.responses.get h.station = .give) :
    w.afterLosses inp (some .answer) = w.moveTo { t with stage := .prepare, age := 0 } := by
  unfold GroupWork.afterLosses
  rw [GroupWork.abort_apart opened on, GroupWork.respond_answer opened answer,
    if_neg (mt (GroupWork.someHolder_iff _ _).mp noKeep), if_pos ((GroupWork.someHolder_iff _ _).mpr give),
    GroupWork.limits_fresh (t := { t with stage := .prepare, age := 0 }) rfl rfl]

/-- Without a response an ANSWER waits up to its limit (R150). -/
theorem GroupWork.afterLosses_silent (opened : w.record.transaction = some t) (on : w.goesOn inp t) (answer : t.stage = .answer)
    (silent : ∀ h ∈ w.record.holders, inp.responses.get h.station ≠ .keep ∧ inp.responses.get h.station ≠ .give) :
    (t.age < 4 → w.afterLosses inp (some .answer) = w)
      ∧ (4 ≤ t.age → w.afterLosses inp (some .answer) =
        { record := { w.record with transaction := none }, closed := some (t.claimant, .noAnswer) }) := by
  have waits : (w.abort inp).respond inp (some .answer) = w := by
    rw [GroupWork.abort_apart opened on, GroupWork.respond_answer opened answer, if_neg, if_neg]
    · exact mt (GroupWork.someHolder_iff _ _).mp fun ⟨h, mem, is⟩ => (silent h mem).2 is
    · exact mt (GroupWork.someHolder_iff _ _).mp fun ⟨h, mem, is⟩ => (silent h mem).1 is
  unfold GroupWork.afterLosses
  rw [waits]
  refine ⟨fun short => ?_, fun full => ?_⟩
  · rw [GroupWork.answerLimit_apart opened (.inr short), GroupWork.prepareLimit_apart opened (.inl (by rw [answer]; decide))]
  · rw [GroupWork.answerLimit_due opened answer full, GroupWork.close_some opened, GroupWork.prepareLimit_none rfl]

/-- A READY begins the ramp, or completes at once where a TILT group stands VACANT (R151). -/
theorem GroupWork.afterLosses_ready (opened : w.record.transaction = some t) (on : w.goesOn inp t) (prepare : t.stage = .prepare)
    (ready : inp.responses.get t.claimant = .ready) :
    w.afterLosses inp (some .prepare) =
      if inp.group = .tilt ∧ w.record.holders = [] then
        { record := { w.record with holders := [{ station := t.claimant, share := 1000 }], transaction := none }
          closed := some (t.claimant, .complete) }
      else
        { w with
          record :=
            { w.record with
              holders := w.record.holders ++ [{ station := t.claimant, share := 0 }]
              transaction := some { t with stage := .ramp, age := 0, rampCount := 0, saved := some w.record.holders } } } := by
  unfold GroupWork.afterLosses
  rw [GroupWork.abort_apart opened on, GroupWork.respond_prepare opened prepare, if_pos ready, GroupWork.takeReady_eq opened]
  split
  · exact GroupWork.limits_none rfl
  · exact GroupWork.limits_fresh
      (t := { t with stage := .ramp, age := 0, rampCount := 0, saved := some w.record.holders }) rfl rfl

/-- Without a READY a PREPARE waits up to its limit (R151). -/
theorem GroupWork.afterLosses_unready (opened : w.record.transaction = some t) (on : w.goesOn inp t)
    (prepare : t.stage = .prepare) {start : Option Stage} (unready : start = some .prepare → inp.responses.get t.claimant ≠ .ready) :
    (t.age < 16 → w.afterLosses inp start = w)
      ∧ (16 ≤ t.age → w.afterLosses inp start =
        { record := { w.record with transaction := none }, closed := some (t.claimant, .notReady) }) := by
  have waits : (w.abort inp).respond inp start = w := by
    rw [GroupWork.abort_apart opened on]
    by_cases same : start = some .prepare
    · rw [same, GroupWork.respond_prepare opened prepare, if_neg (unready same)]
    · exact GroupWork.respond_moved opened (.inl (prepare ▸ same))
  unfold GroupWork.afterLosses
  rw [waits, GroupWork.answerLimit_apart opened (.inl (by rw [prepare]; decide))]
  refine ⟨fun short => GroupWork.prepareLimit_apart opened (.inr short), fun full => ?_⟩
  rw [GroupWork.prepareLimit_due opened prepare full, GroupWork.close_some opened]

theorem GroupWork.afterLosses_ramp (opened : w.record.transaction = some t) (on : w.goesOn inp t) (ramp : t.stage = .ramp)
    (start : Option Stage) : w.afterLosses inp start = w := by
  unfold GroupWork.afterLosses
  rw [GroupWork.abort_apart opened on, GroupWork.respond_moved opened (.inr ramp),
    GroupWork.answerLimit_apart opened (.inl (by rw [ramp]; decide)),
    GroupWork.prepareLimit_apart opened (.inl (by rw [ramp]; decide))]

end

/-- A transaction with its stage age one up. -/
def Transaction.aged (t : Transaction) : Transaction := { t with age := min 16 (t.age + 1) }

/-- The start of a handover with its stage age one up. -/
def GroupRecord.aged (r : GroupRecord) (t : Transaction) : GroupRecord := { r with transaction := some t.aged }

/-- With no party lost the handover goes on from the aged stage. -/
theorem groupHandover_kept {inp : GroupInputs} {start : GroupRecord} {t : Transaction} (opened : start.transaction = some t)
    (claimant : inp.lost t.claimant = false) (holders : ∀ h ∈ start.holders, inp.lost h.station = false) :
    groupHandover inp start = (⟨start.aged t, none⟩ : GroupWork).afterLosses inp (some t.stage) := by
  rw [groupHandover_some inp opened]
  exact congrArg (GroupWork.afterLosses · inp (some t.stage))
    (GroupWork.dealLosses_none (w := ⟨start.aged t, none⟩) rfl claimant holders)

/-- Settles O26: the claim tested, and the response that moves a stage. -/
theorem claimsAndResponsesMoveTheStage : Obligations.ClaimsAndResponsesMoveTheStage := by
  refine ⟨fun inp start c closed present claims => ?_, fun inp start t opened claimant present on => ?_⟩
  · have kept : (⟨start, none⟩ : GroupWork).removeLost inp start.holders = ⟨start, none⟩ :=
      GroupWork.removeLost_none _ _ _ present
    rw [groupHandover_none inp closed, kept]
    refine ⟨fun ⟨apart, room, runs⟩ => GroupWork.takeClaim_opens claims ?_,
      fun void => GroupWork.takeClaim_void claims void⟩
    rintro (⟨h, mem, is⟩ | full | ⟨stopped, some⟩)
    · exact apart h mem is
    · exact absurd room (Nat.not_lt.mpr full)
    · exact runs.elim (fun not => by rw [not] at stopped; cases stopped) some
  · have on' : (⟨start.aged t, none⟩ : GroupWork).goesOn inp t.aged := on
    intro holderSays
    rw [groupHandover_kept opened claimant present]
    refine ⟨fun answer noKeep give => ?_, fun answer keep => ?_, fun h prepare ready tilt holders => ?_,
      fun prepare ready tilt holders => ?_, fun prepare ready steer holders => ?_⟩
    · rw [answer]
      exact GroupWork.afterLosses_give (t := t.aged) rfl on' answer noKeep give
    · rw [answer]
      exact GroupWork.afterLosses_keep (t := t.aged) rfl on' answer keep
    all_goals
      rw [prepare, GroupWork.afterLosses_ready (t := t.aged) rfl on' prepare ready]
    · rw [if_neg (by simp [GroupRecord.aged, holders])]
      simp [GroupRecord.aged, Transaction.aged, holders]
    · rw [if_pos ⟨tilt, holders⟩]
      rfl
    · rw [if_neg (by simp [steer])]
      simp [GroupRecord.aged, Transaction.aged, holders]

end Sys2Proof.Machine
end

