-- ==== Sys2Proof/Proofs/RampRules.lean ====
section
/-! The share ramp of a group (R152), the epoch (R145) and what a close does to the retry state (R156, R157). -/

namespace Sys2Proof.Machine

/-! ### The ramp (R152) -/

theorem groupRamp_step {g : Group} {rounds : Nat} {start : GroupRecord} {t : Transaction} (opened : start.transaction = some t)
    (ramp : t.stage = .ramp) :
    groupRamp g rounds start =
      if rounds ≤ t.rampCount + 1 then
        { record := { start with holders := rampDone g start.holders, transaction := none }
          closed := some (t.claimant, .complete) }
      else
        { record :=
            { start with
              holders := rampShares g rounds (t.rampCount + 1) t.claimant start.holders
              transaction := some { t with rampCount := t.rampCount + 1 } }
          closed := none } := by
  unfold groupRamp
  dsimp only
  rw [opened]
  dsimp only
  rw [if_pos ramp, GroupWork.close_some (w := ⟨start, none⟩) opened]

theorem rampShares_pair {rounds count : Nat} {giver c : StationNo} (apart : giver ≠ c) (a b : Nat) :
    rampShares .tilt rounds count c [⟨giver, a⟩, ⟨c, b⟩] =
      [⟨giver, 1000 - 500 * count / rounds⟩, ⟨c, 500 * count / rounds⟩] := by
  simp [rampShares, apart]

theorem rampShares_sole (rounds count : Nat) (c : StationNo) (b : Nat) :
    rampShares .steer rounds count c [⟨c, b⟩] = [⟨c, 1000 * count / rounds⟩] := by
  simp [rampShares]

/-! ### The retry state of a close (R156, R157) -/

theorem Authority.setGroup_get (a : Authority) (g : Group) (r : GroupRecord) :
    (a.setGroup g r).group g = r ∧ (a.setGroup g r).group g.other = a.group g.other
      ∧ (∀ x, (a.setGroup g r).retry x = a.retry x) ∧ (a.setGroup g r).live = a.live := by
  cases g <;> exact ⟨rfl, rfl, fun x => by cases x <;> rfl, rfl⟩

theorem Authority.setRetry_get (a : Authority) (g : Group) (r : Retry) :
    (a.setRetry g r).retry g = r ∧ (a.setRetry g r).retry g.other = a.retry g.other
      ∧ (∀ x, (a.setRetry g r).group x = a.group x) ∧ (a.setRetry g r).live = a.live := by
  cases g <;> exact ⟨rfl, rfl, fun x => by cases x <;> rfl, rfl⟩

/-- AUTH_FAIL told for a group and a close (R157). -/
def failTold (c : ConditionUnit) (g : Group) (n : Nat) : ConditionUnit :=
  raiseEvent c { code := .authFail, source := 8 * groupCode g + n } 1

/-- The group is given up after this failure (R157). -/
def Retry.givesUp (r : Retry) : Bool := r.givenUp || decide (3 ≤ min 3 (r.failures + 1))

theorem Station.failClaim_eq (s : Station) (g : Group) (code : CloseCode) :
    s.failClaim g code =
      { s with
        auth :=
          s.auth.setRetry g
            { failures := min 3 ((s.auth.retry g).failures + 1), backoff := 16, givenUp := (s.auth.retry g).givesUp }
        cond :=
          if (s.auth.retry g).givesUp = true then
            holdCond (failTold s.cond g (closeNumber code)) { code := .authGiveup, source := groupCode g } 2
          else failTold s.cond g (closeNumber code) } := by
  unfold Station.failClaim
  by_cases up : (s.auth.retry g).givesUp = true
  · rw [if_pos up]
    exact if_pos up
  · rw [if_neg up]
    exact if_neg up

theorem Station.takeClose_kept {s : Station} {g : Group} {closed : Option (StationNo × CloseCode)}
    (apart : ∀ c code, closed = some (c, code) → c ≠ s.number) : s.takeClose g closed = s := by
  unfold Station.takeClose
  cases closed with
  | none => rfl
  | some p => exact if_neg (apart p.1 p.2 rfl)

theorem Station.takeClose_complete (s : Station) (g : Group) :
    s.takeClose g (some (s.number, .complete)) =
      { s with auth := s.auth.setRetry g { s.auth.retry g with failures := 0 } } := by
  unfold Station.takeClose
  dsimp only
  rw [if_pos rfl, if_pos rfl]

theorem Station.takeClose_failed (s : Station) (g : Group) {code : CloseCode} (failed : code ≠ .complete) :
    s.takeClose g (some (s.number, code)) = s.failClaim g code := by
  unfold Station.takeClose
  dsimp only
  rw [if_pos rfl, if_neg failed]

/-- What a close leaves: the records of the groups, and the other group's retry state. -/
theorem Station.takeClose_rest (s : Station) (g : Group) (closed : Option (StationNo × CloseCode)) :
    s.takeClose g closed = { s with auth := (s.takeClose g closed).auth, cond := (s.takeClose g closed).cond }
      ∧ (s.takeClose g closed).auth.live = s.auth.live
      ∧ (∀ x, (s.takeClose g closed).auth.group x = s.auth.group x)
      ∧ (s.takeClose g closed).auth.retry g.other = s.auth.retry g.other := by
  have set : ∀ r, (s.auth.setRetry g r).live = s.auth.live ∧ (∀ x, (s.auth.setRetry g r).group x = s.auth.group x)
      ∧ (s.auth.setRetry g r).retry g.other = s.auth.retry g.other := fun r => by
    obtain ⟨-, other, groups, live⟩ := s.auth.setRetry_get g r
    exact ⟨live, groups, other⟩
  cases closed with
  | none => exact ⟨rfl, rfl, fun _ => rfl, rfl⟩
  | some p =>
    obtain ⟨c, code⟩ := p
    by_cases own : c = s.number
    · subst own
      by_cases complete : code = .complete
      · subst complete
        rw [Station.takeClose_complete]
        exact ⟨rfl, set _⟩
      · rw [Station.takeClose_failed s g complete, Station.failClaim_eq]
        exact ⟨rfl, set _⟩
    · rw [Station.takeClose_kept fun c' code' is => by cases is; exact own]
      exact ⟨rfl, rfl, fun _ => rfl, rfl⟩

/-! ### The end of the work on a group (R145) -/

/-- The group's record put in place, its epoch counted, before what the close does. -/
def Station.recordGroup (s : Station) (g : Group) (r : GroupRecord) : Station :=
  { s with
    auth :=
      s.auth.setGroup g
        { r with epoch := if differs (s.auth.group g) r then (s.auth.group g).epoch + 1 else (s.auth.group g).epoch } }

theorem Station.commitGroup_eq (s : Station) (g : Group) (w : GroupWork) :
    s.commitGroup g w = (s.recordGroup g w.record).takeClose g w.closed := rfl

theorem differs_iff (a b : GroupRecord) :
    differs a b = false ↔
      b.holders = a.holders ∧ b.transaction.map Transaction.visible = a.transaction.map Transaction.visible := by
  unfold differs
  rw [Bool.or_eq_false_iff, decide_eq_false_iff_not, decide_eq_false_iff_not, not_not, not_not, eq_comm,
    @eq_comm _ (a.transaction.map _)]

/-- The parts of the table after the work on a group. -/
theorem Station.commitGroup_parts (s : Station) (g : Group) (w : GroupWork) :
    s.commitGroup g w = { s with auth := (s.commitGroup g w).auth, cond := (s.commitGroup g w).cond }
      ∧ (s.commitGroup g w).auth.live = s.auth.live
      ∧ (s.commitGroup g w).auth.group g =
          { w.record with
            epoch := if differs (s.auth.group g) w.record then (s.auth.group g).epoch + 1 else (s.auth.group g).epoch }
      ∧ (s.commitGroup g w).auth.group g.other = s.auth.group g.other
      ∧ (s.commitGroup g w).auth.retry g.other = s.auth.retry g.other := by
  obtain ⟨record, other, retry, live⟩ := s.auth.setGroup_get g
    { w.record with
      epoch := if differs (s.auth.group g) w.record then (s.auth.group g).epoch + 1 else (s.auth.group g).epoch }
  obtain ⟨eqn, live', groups, retry'⟩ := (s.recordGroup g w.record).takeClose_rest g w.closed
  rw [Station.commitGroup_eq]
  exact ⟨eqn, live'.trans live, (groups g).trans record, (groups g.other).trans other, retry'.trans (retry g.other)⟩

theorem Station.recordGroup_retry (s : Station) (g : Group) (r : GroupRecord) :
    (s.recordGroup g r).auth.retry g = s.auth.retry g :=
  (s.auth.setGroup_get g _).2.2.1 g

/-- A close of another station's claim, or none, leaves the retry state and the conditions (R156, R157). -/
theorem Station.commitGroup_kept {s : Station} {g : Group} {w : GroupWork}
    (apart : ∀ c code, w.closed = some (c, code) → c ≠ s.number) :
    (s.commitGroup g w).auth.retry g = s.auth.retry g ∧ (s.commitGroup g w).cond = s.cond := by
  rw [Station.commitGroup_eq, Station.takeClose_kept (s := s.recordGroup g w.record) apart]
  exact ⟨s.recordGroup_retry g w.record, rfl⟩

theorem Station.commitGroup_complete {s : Station} {g : Group} {w : GroupWork} (closed : w.closed = some (s.number, .complete)) :
    (s.commitGroup g w).auth.retry g = { s.auth.retry g with failures := 0 } ∧ (s.commitGroup g w).cond = s.cond := by
  rw [Station.commitGroup_eq, closed]
  have complete := (s.recordGroup g w.record).takeClose_complete g
  rw [s.recordGroup_retry] at complete
  rw [show (s.recordGroup g w.record).number = s.number from rfl] at complete
  rw [complete]
  exact ⟨((s.recordGroup g w.record).auth.setRetry_get g _).1, rfl⟩

theorem Station.commitGroup_failed {s : Station} {g : Group} {w : GroupWork} {code : CloseCode}
    (closed : w.closed = some (s.number, code)) (failed : code ≠ .complete) :
    (s.commitGroup g w).auth.retry g =
        { failures := min 3 ((s.auth.retry g).failures + 1), backoff := 16, givenUp := (s.auth.retry g).givesUp }
      ∧ (s.commitGroup g w).cond =
        (if (s.auth.retry g).givesUp = true then
          holdCond (failTold s.cond g (closeNumber code)) { code := .authGiveup, source := groupCode g } 2
        else failTold s.cond g (closeNumber code)) := by
  rw [Station.commitGroup_eq, closed]
  have fails := (s.recordGroup g w.record).takeClose_failed g failed
  rw [show (s.recordGroup g w.record).number = s.number from rfl, Station.failClaim_eq, s.recordGroup_retry] at fails
  rw [fails]
  exact ⟨((s.recordGroup g w.record).auth.setRetry_get g _).1, rfl⟩

/-- A group given up holds AUTH_GIVEUP (R157). -/
theorem isHeld_giveup {c : ConditionUnit} (sound : c.tableSound) (g : Group) (n : Nat) :
    isHeld (holdCond (failTold c g n) { code := .authGiveup, source := groupCode g } 2)
      { code := .authGiveup, source := groupCode g } = true := by
  have told := raiseEvent_tableSound (k := { code := .authFail, source := 8 * groupCode g + n }) sound rfl 1
  have held := isHeld_setCond told.keysOnce true (k := { code := .authGiveup, source := groupCode g })
    (key := { code := .authGiveup, source := groupCode g }) 2 rfl
  rwa [if_pos rfl] at held

/-- Settles O27: the ramp by its count, the epoch, and the retry state by the close. -/
theorem rampsShareAndEpochsCount : Obligations.RampsShareAndEpochsCount := by
  refine ⟨⟨fun rounds a b giver c start t apart opened ramp claimant holders => ?_,
    fun rounds b c start t opened ramp claimant holders => ?_, fun x apart => ?_⟩, fun x g w => ?_⟩
  · rw [groupRamp_step opened ramp, holders, claimant, rampShares_pair apart]
    rfl
  · rw [groupRamp_step opened ramp, holders, claimant, rampShares_sole]
    rfl
  · unfold Station.rampStep
    exact if_neg (by simp [apart])
  · intro y old failures givenUp kept
    obtain ⟨eqn, live, record, other, retry⟩ := x.commitGroup_parts g w
    refine ⟨fun same => ?_, fun differ => ?_, eqn, live, ?_, other, retry,
      fun none => Station.commitGroup_kept fun c code is => (by rw [none] at is; cases is), fun c code closed => ?_⟩
    · rw [record, (differs_iff _ _).mpr same]
      rfl
    · rw [record, if_pos (by simpa using mt (differs_iff _ _).mp differ)]
    · exact record.trans (by rw [show y.auth.group g = _ from record])
    · refine ⟨fun apart => Station.commitGroup_kept fun c' code' is => ?_, fun own complete => ?_, ?_⟩
      · rw [closed] at is
        cases is
        exact apart
      · exact Station.commitGroup_complete (by rw [closed, own, complete])
      · intro n own code_n told
        have number : closeNumber code = n ∧ code ≠ .complete := by
          rcases code_n with ⟨rfl, rfl⟩ | ⟨rfl, rfl⟩ | ⟨rfl, rfl⟩ | ⟨rfl, rfl⟩ | ⟨rfl, rfl⟩ <;> exact ⟨rfl, by decide⟩
        obtain ⟨retries, cond⟩ := Station.commitGroup_failed (s := x) (g := g) (w := w) (by rw [closed, own]) number.2
        rw [number.1] at cond
        refine ⟨retries, cond, fun sound up => ?_⟩
        rw [show y.cond = _ from cond.trans (if_pos up)]
        exact isHeld_giveup sound g n

end Sys2Proof.Machine
end

