-- ==== Sys2Proof/Proofs/CloseRules.lean ====
section
/-! How a transaction closes or goes on: at its limits (R150, R151), and at a handover with losses and aborts (R153 to R155). -/

namespace Sys2Proof.Machine

/-! ### The group conditions (R158) -/

theorem Station.tiltMember_iff (s : Station) :
    s.tiltMember = true ↔
      ((s.member.state = .member ∨ s.member.state = .halted) ∧ isTiltRole s.params.role = true)
        ∨ ∃ k : StationNo, k ≠ s.number ∧ s.usable k = true ∧ isTiltRole (s.roleOf k) = true := by
  have listed : ∀ k : StationNo, k ∈ allStations := List.mem_finRange
  simp [Station.tiltMember, List.any_eq_true, listed, and_assoc]

/-- The group conditions of a live table follow the group records. -/
theorem Station.groupConds_stand {s : Station} (live : s.auth.live = true) (sound : s.cond.tableSound) :
    s.groupConds.groupCondsStand := by
  have eqn : s.groupConds =
      ((s.setHeld (decide (s.auth.tilt.holders.length = 1)) .tiltSole 0).setHeld
        (s.auth.tilt.holders.isEmpty && s.tiltMember) .tiltVacant 0).setHeld s.auth.steer.holders.isEmpty .steerVacant 0 := by
    unfold Station.groupConds
    rw [if_pos live]
    rfl
  have first := Station.setHeld_tableSound sound (decide (s.auth.tilt.holders.length = 1)) .tiltSole 0
  have second := Station.setHeld_tableSound first (s.auth.tilt.holders.isEmpty && s.tiltMember) .tiltVacant 0
  have held : ∀ key, condIsEvent key.code = false → isHeld s.groupConds.cond key =
      if key = { code := .steerVacant, source := 0 } then s.auth.steer.holders.isEmpty
      else if key = { code := .tiltVacant, source := 0 } then s.auth.tilt.holders.isEmpty && s.tiltMember
      else if key = { code := .tiltSole, source := 0 } then decide (s.auth.tilt.holders.length = 1)
      else isHeld s.cond key := fun key state => by
    rw [eqn, Station.isHeld_setHeld second _ _ state, Station.isHeld_setHeld first _ _ state,
      Station.isHeld_setHeld sound _ _ state]
  unfold Station.groupCondsStand
  rw [held _ rfl, held _ rfl, held _ rfl, s.groupConds_eq]
  refine ⟨?_, ?_, ?_⟩
  · rw [if_neg (by decide), if_neg (by decide), if_pos rfl]
    exact decide_eq_true_iff
  · rw [if_neg (by decide), if_pos rfl, Bool.and_eq_true, List.isEmpty_iff]
    exact and_congr_right fun _ => s.tiltMember_iff
  · rw [if_pos rfl]
    exact List.isEmpty_iff

/-! ### The limit of a stage on a group (R150, R151) -/

/-- A limit closes the transactions of its stage at their age, with its code. -/
structure StageLimit (f : GroupWork → GroupWork) (stage : Stage) (limit : Nat) (code : CloseCode) : Prop where
  failed : code ≠ .complete
  stays : ∀ w, (∀ t, w.record.transaction = some t → t.stage = stage → t.age < limit) → f w = w
  closes : ∀ w t, w.record.transaction = some t → t.stage = stage → limit ≤ t.age →
    f w = { record := { w.record with transaction := none }, closed := some (t.claimant, code) }

theorem answerLimit_stageLimit : StageLimit GroupWork.answerLimit .answer 4 .noAnswer := by
  refine ⟨by decide, fun w early => ?_, fun w t opened answer full => ?_⟩
  · cases opened : w.record.transaction with
    | none => exact GroupWork.answerLimit_none opened
    | some t =>
      refine GroupWork.answerLimit_apart opened ?_
      by_cases answer : t.stage = .answer
      · exact .inr (early t opened answer)
      · exact .inl answer
  · rw [GroupWork.answerLimit_due opened answer full, GroupWork.close_some opened]

theorem prepareLimit_stageLimit : StageLimit GroupWork.prepareLimit .prepare 16 .notReady := by
  refine ⟨by decide, fun w early => ?_, fun w t opened prepare full => ?_⟩
  · cases opened : w.record.transaction with
    | none => exact GroupWork.prepareLimit_none opened
    | some t =>
      refine GroupWork.prepareLimit_apart opened ?_
      by_cases prepare : t.stage = .prepare
      · exact .inr (early t opened prepare)
      · exact .inl prepare
  · rw [GroupWork.prepareLimit_due opened prepare full, GroupWork.close_some opened]

/-- The transaction of a group is at the limit of a stage. -/
def Station.atLimit (s : Station) (stage : Stage) (limit : Nat) (g : Group) (t : Transaction) : Prop :=
  (s.auth.group g).transaction = some t ∧ t.stage = stage ∧ limit ≤ t.age

/-- What a limit makes of one group, from `s` to `y` (R145, R150, R151, R157). -/
structure Station.GroupLimited (s y : Station) (stage : Stage) (limit : Nat) (code : CloseCode) (g : Group) : Prop where
  stays : (∀ t, ¬s.atLimit stage limit g t) → y.auth.group g = s.auth.group g ∧ y.auth.retry g = s.auth.retry g
  closes : ∀ t, s.atLimit stage limit g t →
    y.auth.group g = { s.auth.group g with transaction := none, epoch := (s.auth.group g).epoch + 1 }
  others : ∀ t, s.atLimit stage limit g t → t.claimant ≠ s.number → y.auth.retry g = s.auth.retry g
  own : ∀ t, s.atLimit stage limit g t → t.claimant = s.number →
    y.auth.retry g =
        { failures := min 3 ((s.auth.retry g).failures + 1), backoff := 16, givenUp := (s.auth.retry g).givesUp }
      ∧ (s.cond.tableSound → (s.auth.retry g).givesUp = true →
        isHeld y.cond { code := .authGiveup, source := groupCode g } = true)
      ∧ y.cond.told { code := .authFail, source := 8 * groupCode g + closeNumber code }

theorem Station.limitGroup_limited {f : GroupWork → GroupWork} {stage : Stage} {limit : Nat} {code : CloseCode}
    (limits : StageLimit f stage limit code) (s : Station) (g : Group) :
    s.GroupLimited (s.limitGroup f g) stage limit code g := by
  obtain ⟨-, -, record, -, -⟩ := s.commitGroup_parts g (f ⟨s.auth.group g, none⟩)
  have done : ∀ t, s.atLimit stage limit g t → f ⟨s.auth.group g, none⟩ =
      { record := { s.auth.group g with transaction := none }, closed := some (t.claimant, code) } :=
    fun t ⟨opened, is, full⟩ => limits.closes ⟨s.auth.group g, none⟩ t opened is full
  unfold Station.limitGroup
  constructor
  case stays =>
    intro early
    have same := limits.stays ⟨s.auth.group g, none⟩ fun t opened is =>
      Nat.not_le.mp fun full => early t ⟨opened, is, full⟩
    obtain ⟨retry, -⟩ := Station.commitGroup_kept (s := s) (g := g) (w := f ⟨s.auth.group g, none⟩)
      fun c code' is => by rw [same] at is; cases is
    refine ⟨record.trans ?_, retry⟩
    rw [same, (differs_iff _ _).mpr ⟨rfl, rfl⟩]
    rfl
  case closes =>
    intro t due
    refine record.trans ?_
    rw [done t due, if_pos]
    refine Bool.not_eq_false _ ▸ mt (differs_iff _ _).mp fun same => ?_
    have visible := same.2
    rw [due.1] at visible
    cases visible
  case others =>
    intro t due apart
    refine (Station.commitGroup_kept fun c code' is => ?_).1
    rw [done t due] at is
    cases is
    exact apart
  case own =>
    intro t due own
    obtain ⟨retry, cond⟩ := Station.commitGroup_failed (s := s) (g := g) (w := f ⟨s.auth.group g, none⟩) (code := code)
      (by rw [done t due, own]) limits.failed
    refine ⟨retry, fun sound up => ?_, ?_⟩
    · rw [cond, if_pos up]
      exact isHeld_giveup sound g _
    · rw [cond]
      split
      · exact told_holdCond (told_raiseEvent_self _ _ _) _ _
      · exact told_raiseEvent_self _ _ _

/-- A later piece of work that leaves the group, its retry state and AUTH_GIVEUP of it leaves what the limit made. -/
theorem Station.GroupLimited.later {s y z : Station} {stage : Stage} {limit : Nat} {code : CloseCode} {g : Group}
    (h : s.GroupLimited y stage limit code g) (group : z.auth.group g = y.auth.group g) (retry : z.auth.retry g = y.auth.retry g)
    {touched : CondKey → Prop} (follows : y.Follows touched z) (sound : s.cond.tableSound → y.cond.tableSound)
    (apart : ¬touched { code := .authGiveup, source := groupCode g }) : s.GroupLimited z stage limit code g := by
  constructor
  case stays => rw [group, retry]; exact h.stays
  case closes => rw [group]; exact h.closes
  case others => rw [retry]; exact h.others
  case own =>
    intro t due own
    obtain ⟨retry', held, told⟩ := h.own t due own
    refine ⟨retry.trans retry', fun is up => ?_, follows.told _ told⟩
    rw [follows.held (sound is) _ rfl apart]
    exact held is up

/-- What a limit makes of a group that an earlier piece of work left as it was. -/
theorem Station.GroupLimited.earlier {r s y : Station} {stage : Stage} {limit : Nat} {code : CloseCode} {g : Group}
    (h : s.GroupLimited y stage limit code g) (group : s.auth.group g = r.auth.group g) (retry : s.auth.retry g = r.auth.retry g)
    (number : s.number = r.number) (sound : r.cond.tableSound → s.cond.tableSound) : r.GroupLimited y stage limit code g := by
  have at_limit : ∀ t, s.atLimit stage limit g t ↔ r.atLimit stage limit g t := fun t => by
    unfold Station.atLimit
    rw [group]
  constructor
  case stays =>
    intro early
    rw [← group, ← retry]
    exact h.stays fun t due => early t ((at_limit t).mp due)
  case closes =>
    intro t due
    rw [← group]
    exact h.closes t ((at_limit t).mpr due)
  case others =>
    intro t due apart
    rw [← retry]
    exact h.others t ((at_limit t).mpr due) (number ▸ apart)
  case own =>
    intro t due own
    rw [← retry]
    obtain ⟨retry', held, told⟩ := h.own t ((at_limit t).mpr due) (number ▸ own)
    exact ⟨retry', fun is => held (sound is), told⟩

/-- A limit on both groups of a live table, each for itself, and the group conditions after it. -/
theorem Station.limitStage_limited {f : GroupWork → GroupWork} {stage : Stage} {limit : Nat} {code : CloseCode}
    (limits : StageLimit f stage limit code) {s : Station} (live : s.auth.live = true) (takes : takesPart s.member.state = true) :
    s.limitStage f = { s with auth := (s.limitStage f).auth, cond := (s.limitStage f).cond }
      ∧ (s.limitStage f).auth.live = true
      ∧ (s.cond.tableSound → (s.limitStage f).groupCondsStand)
      ∧ ∀ g, s.GroupLimited (s.limitStage f) stage limit code g := by
  have eqn : s.limitStage f = ((s.limitGroup f .tilt).limitGroup f .steer).groupConds :=
    if_pos (by rw [live, takes]; rfl)
  have first := s.commitGroup_parts .tilt (f ⟨s.auth.group .tilt, none⟩)
  have firstFollows : s.Follows (fun key => key.code = .authGiveup) (s.limitGroup f .tilt) :=
    s.follows_commitGroup .tilt _ rfl
  have tilt := s.limitGroup_limited limits .tilt
  obtain ⟨r, is⟩ : ∃ r, r = s.limitGroup f .tilt := ⟨_, rfl⟩
  have second := r.commitGroup_parts .steer (f ⟨r.auth.group .steer, none⟩)
  have secondFollows : r.Follows (fun key => key = { code := .authGiveup, source := 1 }) (r.limitGroup f .steer) :=
    r.follows_commitGroup .steer _ rfl
  have steer := r.limitGroup_limited limits .steer
  rw [eqn]
  change s.limitGroup f .tilt = _ ∧ (s.limitGroup f .tilt).auth.live = _ ∧ (s.limitGroup f .tilt).auth.group .tilt = _
    ∧ (s.limitGroup f .tilt).auth.group .steer = _ ∧ (s.limitGroup f .tilt).auth.retry .steer = _ at first
  change r.limitGroup f .steer = _ ∧ (r.limitGroup f .steer).auth.live = _ ∧ (r.limitGroup f .steer).auth.group .steer = _
    ∧ (r.limitGroup f .steer).auth.group .tilt = _ ∧ (r.limitGroup f .steer).auth.retry .tilt = _ at second
  rw [← is] at first firstFollows tilt ⊢
  generalize r.limitGroup f .steer = u at second secondFollows steer ⊢
  obtain ⟨eqn1, live1, -, other1, retry1⟩ := first
  obtain ⟨eqn2, live2, -, other2, retry2⟩ := second
  have last : u.Follows (fun key => key.code ≠ .authGiveup) u.groupConds :=
    u.follows_groupConds (by decide) (by decide) (by decide)
  have live3 : u.auth.live = true := live2.trans (live1.trans live)
  have auth3 : u.groupConds.auth = u.auth := by rw [u.groupConds_eq]
  refine ⟨?_, (congrArg Authority.live auth3).trans live3,
    fun sound => Station.groupConds_stand live3 (secondFollows.sound (firstFollows.sound sound)), fun g => ?_⟩
  · rw [u.groupConds_eq, eqn2, eqn1]
  · cases g with
    | tilt =>
      refine tilt.later (by rw [auth3]; exact other2) (by rw [auth3]; exact retry2)
        ((secondFollows.mono fun key is => .inl is).trans (last.mono fun key is => .inr is)) firstFollows.sound
        (touched := fun key => key = { code := .authGiveup, source := 1 } ∨ key.code ≠ .authGiveup) ?_
      rintro (other | other)
      · exact absurd (congrArg CondKey.source other) (by decide)
      · exact other rfl
    | steer =>
      refine (steer.earlier other1 retry1 (by rw [eqn1]; rfl) firstFollows.sound).later (by rw [auth3]) (by rw [auth3]) last
        (fun sound => secondFollows.sound (firstFollows.sound sound)) fun other => other rfl

/-! ### A handover that loses a party (R153, R154) -/

/-- A record without its transaction, and of some holders those that are not lost (R153). -/
def GroupRecord.withoutLost (r : GroupRecord) (inp : GroupInputs) (holders : List Holder) : GroupRecord :=
  { r with
    transaction := none
    holders :=
      if ∀ h ∈ holders, inp.lost h.station = false then holders
      else soleShare (holders.filter fun h => !inp.lost h.station)
    lossAge := if ∀ h ∈ holders, inp.lost h.station = false then r.lossAge else 0 }

theorem GroupWork.removeLost_eq {w : GroupWork} (inp : GroupInputs) (holders : List Holder) :
    w.removeLost inp holders =
      { record := { w.record.withoutLost inp holders with transaction := w.record.transaction }, closed := w.closed } := by
  unfold GroupRecord.withoutLost
  by_cases kept : ∀ h ∈ holders, inp.lost h.station = false
  · rw [GroupWork.removeLost_none w inp holders kept, if_pos kept, if_pos kept]
  · rw [GroupWork.removeLost_some w inp holders (by simpa using kept), if_neg kept, if_neg kept]

theorem GroupWork.removeLost_closed {w : GroupWork} (closed : w.record.transaction = none) (inp : GroupInputs)
    (holders : List Holder) :
    w.removeLost inp holders = { record := w.record.withoutLost inp holders, closed := w.closed } := by
  rw [GroupWork.removeLost_eq, closed]
  rfl

/-- The holders that a transaction's end leaves, before its losses (R154, R155). -/
theorem GroupRecord.restored_eq (r : GroupRecord) (t : Transaction) :
    r.restored t = if t.stage = .ramp then t.saved.getD r.holders else r.holders := by
  unfold GroupRecord.restored
  cases t.stage <;> cases t.saved <;> rfl

/-- A lost claimant withdraws the transaction. -/
theorem groupHandover_withdrawn {inp : GroupInputs} {start : GroupRecord} {t : Transaction} (opened : start.transaction = some t)
    (lost : inp.lost t.claimant = true) :
    groupHandover inp start =
      { record := start.withoutLost inp (start.restored t), closed := some (t.claimant, .withdrawn) } := by
  have aged : (start.aged t).restored t.aged = start.restored t := rfl
  rw [groupHandover_some inp opened]
  have deals := GroupWork.dealLosses_withdrawn (w := ⟨start.aged t, none⟩) (t := t.aged) rfl lost
  rw [GroupWork.close_some (w := ⟨start.aged t, none⟩) (t := t.aged) rfl, GroupWork.removeLost_closed rfl, aged] at deals
  exact (congrArg (GroupWork.afterLosses · inp (some t.stage)) deals).trans (GroupWork.afterLosses_none rfl _)

theorem GroupWork.removeLost_sole {w : GroupWork} {inp : GroupInputs} {h : Holder} (lost : inp.lost h.station = true) :
    w.removeLost inp [h] = { w with record := { w.record with holders := [], lossAge := 0 } } := by
  rw [GroupWork.removeLost_some w inp [h] ⟨h, List.mem_singleton_self h, lost⟩]
  simp [lost, soleShare]

section

variable {w : GroupWork} {inp : GroupInputs} {t : Transaction} {h : Holder}

/-- The sole holder lost in ANSWER moves the transaction to PREPARE. -/
theorem GroupWork.dealLosses_answer (opened : w.record.transaction = some t) (claimant : inp.lost t.claimant = false)
    (answer : t.stage = .answer) (holders : w.record.holders = [h]) (lost : inp.lost h.station = true) :
    w.dealLosses inp =
      { w with
        record :=
          { w.record with holders := [], lossAge := 0, transaction := some { t with stage := .prepare, age := 0 } } } := by
  unfold GroupWork.dealLosses
  rw [opened]
  dsimp only
  rw [if_neg (by rw [claimant]; decide), answer]
  dsimp only
  rw [if_pos (by simp [holders, lost]), holders, GroupWork.removeLost_sole lost]
  rfl

theorem GroupWork.dealLosses_prepare (opened : w.record.transaction = some t) (claimant : inp.lost t.claimant = false)
    (prepare : t.stage = .prepare) : w.dealLosses inp = w.removeLost inp w.record.holders := by
  unfold GroupWork.dealLosses
  rw [opened]
  dsimp only
  rw [if_neg (by rw [claimant]; decide), prepare]

/-- The giver lost in RAMP completes it with the claimant alone. -/
theorem GroupWork.dealLosses_ramp (opened : w.record.transaction = some t) (claimant : inp.lost t.claimant = false)
    (ramp : t.stage = .ramp) {share : Nat} (holders : w.record.holders = [h, { station := t.claimant, share := share }])
    (lost : inp.lost h.station = true) :
    w.dealLosses inp =
      { record :=
          { w.record with holders := [{ station := t.claimant, share := 1000 }], lossAge := 0, transaction := none }
        closed := some (t.claimant, .complete) } := by
  have removed : w.removeLost inp w.record.holders =
      { w with record := { w.record with holders := [{ station := t.claimant, share := 1000 }], lossAge := 0 } } := by
    rw [GroupWork.removeLost_some w inp _ ⟨h, by simp [holders], lost⟩, holders]
    simp [lost, claimant, soleShare]
  unfold GroupWork.dealLosses
  rw [opened]
  dsimp only
  rw [if_neg (by rw [claimant]; decide), ramp]
  dsimp only
  rw [if_pos (by simp [holders, lost]), removed]
  exact GroupWork.close_some
    (w := ⟨{ w.record with holders := [{ station := t.claimant, share := 1000 }], lossAge := 0 }, w.closed⟩) opened _ _

end

/-- Settles O28: the limits, the group conditions, what a handover reads, and its ends. -/
theorem transactionsClose : Obligations.TransactionsClose := by
  refine ⟨fun x q c stage limit code commands => ?_, fun x => ⟨fun rest => ?_, fun live => ?_⟩, fun x g applied k => ?_,
    fun inp start => ?_⟩
  · intro due
    obtain ⟨f, code', is, limits, number⟩ : ∃ f code', effect c x = x.limitStage f ∧ StageLimit f stage limit code'
        ∧ closeNumber code' = code := by
      rcases commands with ⟨rfl, rfl, rfl, rfl⟩ | ⟨rfl, rfl, rfl, rfl⟩
      · exact ⟨_, _, rfl, answerLimit_stageLimit, rfl⟩
      · exact ⟨_, _, rfl, prepareLimit_stageLimit, rfl⟩
    refine ⟨fun not => exec_of_effect (is.trans (if_neg ?_)) q, fun live takes => ?_⟩
    · rcases not with not | not <;> simp [not]
    · obtain ⟨eqn, live', stand, groups⟩ := Station.limitStage_limited limits live takes
      refine ⟨x.limitStage f, exec_of_effect is q, eqn, live', stand, fun g => ?_⟩
      have limited := groups g
      refine ⟨limited.stays, fun t due => ⟨limited.closes t due, limited.others t due, fun own => ?_⟩⟩
      obtain ⟨retry, held, told⟩ := limited.own t due own
      have gives : (x.auth.retry g).givesUp = ((x.auth.retry g).givenUp || decide (2 ≤ (x.auth.retry g).failures)) := by
        unfold Retry.givesUp
        rw [decide_eq_decide.mpr (by omega : 3 ≤ min 3 ((x.auth.retry g).failures + 1) ↔ 2 ≤ (x.auth.retry g).failures)]
      rw [retry, ← number]
      exact ⟨rfl, rfl, gives, held, told⟩
  · unfold Station.groupConds
    exact if_neg (by simp [rest])
  · exact ⟨x.groupConds_eq, Station.groupConds_stand live⟩
  · intro inp held usable role admitted sender
    have usable_iff : x.usable k = true ↔ usable := by simp [Station.usable, usable]
    have sender_iff : x.isSender k = true ↔ sender := by
      unfold Station.isSender
      by_cases own : k = x.number
      · simp [own, sender]
      · simp [own, sender, usable_iff]
    have admits_iff : admits g (x.roleOf k) = true ↔ admitted := by
      change admits g role = true ↔ admitted
      cases g <;> simp [admits, isTiltRole, isSteerRole, admitted]
    have claims_iff : x.takesClaims = true ↔
        held.roundClass = .agreed ∨ (held.roundClass = .memberless ∧ held.alone = true) := by
      simp [Station.takesClaims, held]
    have response : inp.responses.get k = _ := x.responsesFor_get g applied k
    refine ⟨rfl, ?_, ?_, ?_, fun none => ?_, fun r is => ?_⟩
    · rw [x.groupInputs_lost g applied k, ← usable_iff, Bool.not_eq_true]
    · change x.stopped = true ↔ _
      simp [Station.stopped, held]
    · change x.claimantFor g = some k ↔ _
      rw [x.claimantFor_iff g k, claims_iff, usable_iff, admits_iff]
    · rw [response, none]
    · rw [response, is]
      dsimp only
      refine ⟨fun not => if_neg (mt sender_iff.mp not), fun none => ?_, fun tilt steer is_sender some => ?_⟩
      · rw [none]
        exact ite_self _
      · rw [if_pos (sender_iff.mpr is_sender), some]
        cases g <;> rfl
  · intro left
    have left_eq : ∀ holders, left holders = start.withoutLost inp holders := fun holders => by
      unfold GroupRecord.withoutLost soleShare
      rfl
    refine ⟨fun closed none => ?_, fun c closed claims => ?_, fun t opened => ?_⟩
    · rw [groupHandover_none inp closed, GroupWork.removeLost_closed closed, left_eq]
      exact GroupWork.takeClaim_unclaimed none false
    · intro r void
      have removed : (⟨start, none⟩ : GroupWork).removeLost inp start.holders = ⟨r, none⟩ := by
        rw [GroupWork.removeLost_closed closed, ← left_eq]
      rw [groupHandover_none inp closed, removed]
      refine ⟨GroupWork.takeClaim_void (w := ⟨r, none⟩) claims, fun fits => ?_⟩
      rw [GroupWork.takeClaim_opens (w := ⟨r, none⟩) claims fits]
      simp only [GroupWork.moveTo, List.isEmpty_iff]
    · intro restored age waits fails
      have restored_eq : start.restored t = restored := start.restored_eq t
      refine ⟨fun claimant present on => ?_, fun lost => ?_, fun claimant present stopped other => ?_,
        fun h claimant lost => ?_⟩
      · have on' : (⟨start.aged t, none⟩ : GroupWork).goesOn inp t.aged := on
        rw [groupHandover_kept opened claimant present]
        refine ⟨fun answer silent => ?_, fun prepare unready => ?_, fun ramp => ?_⟩
        · rw [answer]
          exact GroupWork.afterLosses_silent (t := t.aged) rfl on' answer silent
        · exact GroupWork.afterLosses_unready (t := t.aged) rfl on' prepare fun _ => unready
        · exact GroupWork.afterLosses_ramp (t := t.aged) rfl on' ramp _
      · rw [groupHandover_withdrawn opened lost, left_eq, restored_eq]
      · rw [groupHandover_kept opened claimant present, GroupWork.afterLosses_aborted (t := t.aged) rfl stopped other,
          ← restored_eq]
        rfl
      · have alone : ∀ {t' : Transaction},
            (⟨{ start.aged t with holders := [], lossAge := 0, transaction := some t' }, none⟩ :
            GroupWork).goesOn inp t' := .inr fun _ member => absurd member List.not_mem_nil
        have handover : ∀ w, (⟨start.aged t, none⟩ : GroupWork).dealLosses inp = w →
            groupHandover inp start = w.afterLosses inp (some t.stage) := fun w is => by
          rw [groupHandover_some inp opened, ← is]
          rfl
        have removed : t.stage = .prepare → start.holders = [h] → (⟨start.aged t, none⟩ : GroupWork).dealLosses inp =
            ⟨{ start.aged t with holders := [], lossAge := 0 }, none⟩ := fun prepare holders => by
          rw [GroupWork.dealLosses_prepare (t := t.aged) rfl claimant prepare]
          exact (congrArg (GroupWork.removeLost _ inp) holders).trans (GroupWork.removeLost_sole lost)
        refine ⟨fun answer holders => ?_, fun prepare holders ready tilt => ?_, fun prepare holders unready short => ?_,
          fun prepare holders unready full => ?_, fun share ramp holders => ?_⟩
        · rw [handover _ (GroupWork.dealLosses_answer (t := t.aged) rfl claimant answer holders lost)]
          exact (GroupWork.afterLosses_unready (t := { t with stage := .prepare, age := 0 }) rfl alone rfl
            fun same => by rw [answer] at same; cases same).1 (Nat.zero_lt_succ 15)
        · rw [handover _ (removed prepare holders), prepare]
          exact (GroupWork.afterLosses_ready (t := t.aged) rfl alone prepare ready).trans (if_pos ⟨tilt, rfl⟩)
        · have older : t.aged = { t with age := t.age + 1 } := by
            unfold Transaction.aged
            rw [Nat.min_eq_right (by omega)]
          rw [handover _ (removed prepare holders)]
          refine ((GroupWork.afterLosses_unready (t := t.aged) rfl alone prepare fun _ => unready).1 ?_).trans ?_
          · rw [older]
            exact Nat.succ_lt_succ short
          · rw [GroupRecord.aged, older]
        · rw [handover _ (removed prepare holders)]
          refine (GroupWork.afterLosses_unready (t := t.aged) rfl alone prepare fun _ => unready).2 ?_
          change 16 ≤ min 16 (t.age + 1)
          omega
        · rw [handover _ (GroupWork.dealLosses_ramp (t := t.aged) rfl claimant ramp holders lost)]
          exact GroupWork.afterLosses_none rfl _

end Sys2Proof.Machine
end

