-- ==== Sys2Proof/Proofs/SpanRules.lean ====
section
/-! The stuck-bus monitor (R20, R21): the positions of a span, the detections among them, and what they make of the station.
Settles O17. -/

namespace Sys2Proof.Machine

/-- The sample points that a count of `before` and the positions counted after it detect: every 33rd. -/
def detectionsFrom (before : Nat) (positions : List Nat) : List Nat :=
  (positions.zipIdx.filter fun p => decide ((before + p.2 + 1) % 33 = 0)).map (·.1)

/-- The counted positions of a span of `n` sample points. -/
def countedFrom (recognised : Bool) (first n : Nat) : List Nat :=
  ((List.range n).map (first + ·)).filter (isCounted recognised)

/-- What one counted position makes of the station. -/
def Station.countPoint (s : Station) (position : Nat) : Station :=
  if Config.stuckLimit ≤ s.bus.stuckCount + 1 then
    ({ s with bus := { s.bus with stuckCount := 0 } } : Station).detectStuck position
  else { s with bus := { s.bus with stuckCount := s.bus.stuckCount + 1 } }

/-- The station with another count of the monitor. -/
def Station.withStuck (s : Station) (count : Nat) : Station := { s with bus := { s.bus with stuckCount := count } }

/-- The station as a span leaves the monitor. -/
def Station.spanned (s : Station) (count next : Nat) : Station :=
  { s with bus := { s.bus with stuckCount := count, stuckNext := next } }

theorem detectionsFrom_cons (before p : Nat) (positions : List Nat) :
    detectionsFrom before (p :: positions) =
      (if (before + 1) % 33 = 0 then [p] else []) ++ detectionsFrom (before + 1) positions := by
  have shift (q : Nat × Nat) : (before + (q.2 + 1) + 1) % 33 = (before + 1 + q.2 + 1) % 33 := by congr 1; omega
  unfold detectionsFrom
  rw [List.zipIdx_cons', List.filter_cons, List.filter_map, apply_ite (List.map _), List.map_cons, List.map_map]
  simp only [Function.comp_def, Prod.map, id_eq, shift, Nat.add_zero]
  split <;> simp_all

theorem detectionsFrom_period (positions : List Nat) : detectionsFrom 33 positions = detectionsFrom 0 positions := by
  have shift (n : Nat) : (33 + n + 1) % 33 = (0 + n + 1) % 33 := by omega
  simp only [detectionsFrom, shift]

theorem countedFrom_succ (recognised : Bool) (first n : Nat) :
    countedFrom recognised first (n + 1) =
      (if isCounted recognised first then [first] else []) ++ countedFrom recognised (first + 1) n := by
  unfold countedFrom
  rw [List.range_succ_eq_map, List.map_cons, List.map_map, List.filter_cons]
  simp only [Function.comp_def, Nat.add_zero, Nat.succ_eq_add_one, Nat.add_assoc, Nat.add_comm 1]
  split <;> rfl

/-! ## A detection -/

theorem detectStuck_recognised (s : Station) (p : Nat) :
    (s.detectStuck p).bus.round.recognised = s.bus.round.recognised := by
  unfold Station.detectStuck
  dsimp only
  split <;> rfl

theorem countPoint_recognised (s : Station) (p : Nat) :
    (s.countPoint p).bus.round.recognised = s.bus.round.recognised := by
  unfold Station.countPoint
  split
  · exact detectStuck_recognised _ p
  · rfl

/-- What the detections leave in the table: STUCK_BUS with the source of each. -/
def stuckEvents (detections : List Nat) (c : ConditionUnit) : ConditionUnit :=
  detections.foldl (fun c p => raiseEvent c { code := .stuckBus, source := stuckSource p } 3) c

theorem detectStuck_abandoned {s : Station} (cut : s.bus.round.abandoned = true) (p : Nat) :
    s.detectStuck p = { s with cond := stuckEvents [p] s.cond } := if_pos cut

/-- The first detection abandons the round. -/
theorem detectStuck_first {s : Station} (open_ : s.bus.round.abandoned = false) (p : Nat) :
    s.detectStuck p = { s.abandonRound p with cond := stuckEvents [p] s.cond } :=
  if_neg (by rw [Bool.not_eq_true]; exact open_)

/-- A detection reads the round and not the count. -/
theorem detectStuck_withStuck (s : Station) (count p : Nat) :
    (s.withStuck count).detectStuck p = (s.detectStuck p).withStuck count := by
  by_cases cut : s.bus.round.abandoned = true
  · rw [detectStuck_abandoned cut, detectStuck_abandoned (s := s.withStuck count) cut]
    rfl
  · rw [Bool.not_eq_true] at cut
    rw [detectStuck_first cut, detectStuck_first (s := s.withStuck count) cut]
    rfl

theorem foldl_detectStuck_abandoned (ps : List Nat) {s : Station} (cut : s.bus.round.abandoned = true) :
    ps.foldl Station.detectStuck s = { s with cond := stuckEvents ps s.cond } := by
  induction ps generalizing s with
  | nil => rfl
  | cons p ps ih =>
    rw [List.foldl_cons, detectStuck_abandoned cut]
    exact ih (s := { s with cond := stuckEvents [p] s.cond }) cut

theorem foldl_detectStuck_first (p : Nat) (ps : List Nat) {s : Station} (open_ : s.bus.round.abandoned = false) :
    (p :: ps).foldl Station.detectStuck s = { s.abandonRound p with cond := stuckEvents (p :: ps) s.cond } := by
  rw [List.foldl_cons, detectStuck_first open_]
  exact foldl_detectStuck_abandoned ps (s := { s.abandonRound p with cond := stuckEvents [p] s.cond }) rfl

/-! ## A span -/

theorem countStuck_eq (s : Station) (p : Nat) :
    s.countStuck p = if isCounted s.bus.round.recognised p then s.countPoint p else s := rfl

theorem countSpan_eq (n : Nat) (s : Station) (first : Nat) :
    s.countSpan first n = (countedFrom s.bus.round.recognised first n).foldl Station.countPoint s := by
  induction n generalizing s first with
  | zero => rfl
  | succ n ih =>
    rw [countedFrom_succ, Station.countSpan, ih, countStuck_eq]
    by_cases counted : isCounted s.bus.round.recognised first
    · rw [if_pos counted, if_pos counted, countPoint_recognised]
      rfl
    · rw [if_neg counted, if_neg counted, List.nil_append]

theorem countPoint_due {s : Station} (due : s.bus.stuckCount = 32) (p : Nat) :
    s.countPoint p = (s.detectStuck p).withStuck 0 := by
  rw [← detectStuck_withStuck]
  exact if_pos (by rw [due]; decide)

theorem countPoint_not_due {s : Station} (early : s.bus.stuckCount + 1 < 33) (p : Nat) :
    s.countPoint p = s.withStuck (s.bus.stuckCount + 1) := if_neg (Nat.not_le.mpr early)

/-- The counted positions detect at every 33rd, and the count goes on from the last. -/
theorem foldl_countPoint (ps : List Nat) (s : Station) (count : Nat) (below : count < 33) :
    ps.foldl Station.countPoint (s.withStuck count) =
      ((detectionsFrom count ps).foldl Station.detectStuck s).withStuck ((count + ps.length) % 33) := by
  induction ps generalizing s count with
  | nil => rw [List.length_nil, Nat.add_zero, Nat.mod_eq_of_lt below]; rfl
  | cons p ps ih =>
    rw [List.foldl_cons, detectionsFrom_cons, List.length_cons, List.foldl_append]
    by_cases due : count = 32
    · subst due
      rw [countPoint_due rfl, detectStuck_withStuck, if_pos (by decide)]
      refine (ih (s.detectStuck p) 0 (by decide)).trans ?_
      rw [← detectionsFrom_period]
      exact congrArg _ (by omega)
    · have early : count + 1 < 33 := by omega
      rw [countPoint_not_due early, if_neg (by omega)]
      refine (ih s (count + 1) early).trans ?_
      exact congrArg _ (by omega)

/-! ## O17 -/

theorem inFrame_iff (p : Nat) : inFrame p = true ↔ ∃ k : Fin 8, 100 + 256 * k.val ≤ p ∧ p < 347 + 256 * k.val := by
  have unfolded : inFrame p = true ↔ (100 ≤ p ∧ p ≤ 2147) ∧ (p - 100) % 256 < 247 := by
    unfold inFrame
    rw [Bool.and_eq_true, Bool.and_eq_true, decide_eq_true_iff, decide_eq_true_iff, decide_eq_true_iff]
    rfl
  rw [unfolded]
  constructor
  · rintro ⟨⟨low, high⟩, inside⟩
    exact ⟨⟨(p - 100) / 256, by omega⟩, by dsimp only; omega⟩
  · rintro ⟨k, low, high⟩
    have := k.isLt
    omega

/-- A position is counted outside the mark, the signature fields and the frames. -/
theorem isCounted_iff (recognised : Bool) (p : Nat) :
    isCounted recognised p = true ↔
      ¬((recognised = true ∧ p < 8) ∨ (48 ≤ p ∧ p ≤ 79)
        ∨ ∃ k : Fin 8, 100 + 256 * k.val ≤ p ∧ p < 347 + 256 * k.val) := by
  rw [← inFrame_iff]
  have mark : Config.markLength = 8 := rfl
  have signature : Config.signatureStart = 48 ∧ Config.tallyEnd = 79 := ⟨rfl, rfl⟩
  simp only [isCounted, mark, signature.1, signature.2, Bool.and_eq_true, Bool.not_eq_true', Bool.and_eq_false_iff,
    decide_eq_false_iff_not, not_or, not_and_or, Bool.not_eq_true, and_assoc]

theorem RoundState.recognised_iff (r : RoundState) :
    r.recognised = true ↔ r.opening = .inWindow ∨ r.opening = .acquired := by
  simp [RoundState.recognised]

/-- The station after a span, its time, its count and its detections apart. -/
theorem stuckSpan_due {x : Station} {first last : Nat} (monitors : x.monitorsBus = true) (reaches : x.spanEnd last = last)
    (ordered : first ≤ last) (coming : x.bus.position ≤ last) (below : x.bus.stuckCount < 33) :
    let before := if first = x.bus.stuckNext then x.bus.stuckCount else 0
    let positions := countedFrom x.bus.round.recognised first (last + 1 - first)
    let s := (detectionsFrom before positions).foldl Station.detectStuck (x.sampleUntil last)
    x.stuckSpan first last = (s.spanned ((before + positions.length) % 33) (last + 1)).advance last := by
  intro before positions s
  have due : (x.monitorsBus && decide (first ≤ last) && decide (x.bus.position ≤ last)) = true := by
    rw [monitors, decide_eq_true ordered, decide_eq_true coming]; rfl
  have start : before < 33 := by
    change (if first = x.bus.stuckNext then x.bus.stuckCount else 0) < 33
    split <;> omega
  have begun : ({ x.sampleUntil last with bus := (x.sampleUntil last).bus.beginSpan first } : Station) =
      (x.sampleUntil last).withStuck before := by
    simp only [BusUnit.beginSpan, Station.withStuck, Station.sampleUntil_bus, before]
  have opening : ((x.sampleUntil last).withStuck before).bus.round.recognised = x.bus.round.recognised :=
    congrArg RoundState.recognised (congrArg BusUnit.round (x.sampleUntil_bus last) :)
  have spans : ({ x.sampleUntil last with bus := (x.sampleUntil last).bus.beginSpan first } : Station).countSpan first
      (x.spanEnd last + 1 - first) = s.withStuck ((before + positions.length) % 33) := by
    rw [begun, countSpan_eq, opening, reaches]
    exact foldl_countPoint positions (x.sampleUntil last) before start
  exact (if_pos due).trans (congrArg (fun t : Station =>
    ({ t with bus := { t.bus with stuckNext := last + 1 } } : Station).advance last) spans)

/-- Where the monitor runs and the span ends in the round, time moves the timer and nothing else. -/
theorem advance_of_monitored {x : Station} {last : Nat}
    (runs : isDriving x.member.state = true ∨ (x.member.state = .quiet ∧ x.bus.round.opening = .inWindow ∧ last ≤ 2520))
    (coming : x.bus.position ≤ last) {s : Station} (state : s.member.state = (x.sampleUntil last).member.state)
    (position : s.bus.position = x.bus.position) : s.advance last = { s with bus := s.bus.later last } := by
  rcases runs with driving | ⟨_, _, inside⟩
  · exact Station.advance_driving last (by rw [state, Station.sampleUntil_isDriving, driving])
  · exact Station.advance_inside (by rw [position]; exact coming.trans inside) inside

/-- Settles O17. The positions of the span are walked with the count (`foldl_countPoint`), and the first detection alone cuts the
round (`foldl_detectStuck_first`). -/
theorem stuckSpanAbandons : Obligations.StuckSpanAbandons := by
  intro x q first last round recognised excluded positions before count detections source t cond runs coming ordered below
  have monitors : x.monitorsBus = true := by
    rcases runs with driving | ⟨quiet, opening, _⟩
    · simp [Station.monitorsBus, driving]
    · simp [Station.monitorsBus, quiet, show x.bus.round.opening = .inWindow from opening]
  have reaches : x.spanEnd last = last := by
    rcases runs with driving | ⟨quiet, _, inside⟩
    · exact if_pos driving
    · exact (if_neg (by rw [quiet]; decide)).trans (Nat.min_eq_left inside)
  have span := stuckSpan_due monitors reaches ordered coming below
  have counted : positions = countedFrom x.bus.round.recognised first (last + 1 - first) := by
    refine List.filter_congr fun p _ => ?_
    rw [Bool.eq_iff_iff, decide_eq_true_iff, isCounted_iff, RoundState.recognised_iff]
  obtain ⟨s, is⟩ : ∃ s, s = x.sampleUntil last := ⟨_, rfl⟩
  have bus : s.bus = x.bus := by rw [is, Station.sampleUntil_bus]
  have moved {s' : Station} (state : s'.member.state = s.member.state) (position : s'.bus.position = s.bus.position) :
      s'.advance last = { s' with bus := s'.bus.later last } :=
    advance_of_monitored runs coming (by rw [state, is]) (by rw [position, bus])
  have reached : t = { s with bus := s.bus.later last } := by
    rw [← moved rfl rfl, is]
    rfl
  have conds : cond = stuckEvents detections s.cond := by
    change stuckEvents detections t.cond = _
    rw [reached]
  rw [← counted, ← is] at span
  rw [conds, reached]
  refine ⟨fun still => exec_of_effect (c := .stuckBus first last) (span.trans ?_) q,
    fun p later starts open_ => exec_of_effect (c := .stuckBus first last) (span.trans ?_) q⟩
  · have detects : detections.foldl Station.detectStuck s = { s with cond := stuckEvents detections s.cond } := by
      rcases still with none | cut
      · rw [none]; rfl
      · exact foldl_detectStuck_abandoned detections (by rw [bus]; exact cut)
    refine (congrArg (fun s' : Station => (s'.spanned (count % 33) (last + 1)).advance last) detects).trans ?_
    exact moved rfl rfl
  · have detects : detections.foldl Station.detectStuck s =
        { s.abandonRound p with cond := stuckEvents detections s.cond } := by
      rw [starts]
      exact foldl_detectStuck_first p later (by rw [bus]; exact open_)
    refine (congrArg (fun s' : Station => (s'.spanned (count % 33) (last + 1)).advance last) detects).trans ?_
    refine (moved (s' := Station.spanned { s.abandonRound p with cond := stuckEvents detections s.cond } (count % 33) (last + 1))
      rfl rfl).trans ?_
    simp only [round, ← bus]
    rfl

end Sys2Proof.Machine
end

