-- ==== Sys2Proof/Proofs/OutcomeRules.lean ====
section
/-! The handover in its parts: the outcomes taken and counted, the peer table judged, the applied entry adopted, and the
authority table worked (R16, R59; log 19). Settles O22. -/

namespace Sys2Proof.Machine

/-! ## The parts -/

/-- The outcomes taken, the split counted and the own match kept (R15, R25, R36, R136). -/
def Station.counted (s : Station) (wire : BitVec 70) : Station :=
  ((s.readBackTally wire).takeOutcomes wire).countSplit.takeOwnMatch

/-- The record that the handover applies. -/
def Station.appliedAt (s : Station) (wire : BitVec 70) : Option DecisionRecord :=
  s.bus.pendingRecord.filter (recordApplies (resolveTally (isDriving s.member.state) s.number wire) s.bus.roundNumber)

/-- The handover up to the peer table (R82 to R84). -/
def Station.judged (s : Station) (wire : BitVec 70) : Station :=
  ({ s.counted wire with bus := { (s.counted wire).bus with pendingRecord := none } } : Station).peersHandover
    (exclusionsOf (s.appliedAt wire))

/-- The split count after a round of a class (R136). -/
def splitAfter (c : RoundClass) (n : Nat) : Nat := if c = .split then min 3 (n + 1) else if c = .agreed then 0 else n

theorem Station.countSplit_engine (s : Station) :
    s.countSplit.engine = { s.engine with splitCount := splitAfter s.bus.held.roundClass s.engine.splitCount } := by
  cases hclass : s.bus.held.roundClass <;>
    simp [Station.countSplit, Station.splitView, hclass, succSat, Config.splitLimit, splitAfter]

theorem Station.counted_bus (s : Station) (wire : BitVec 70) :
    (s.counted wire).bus = { ((s.readBackTally wire).takeOutcomes wire).bus with ownSig := none } := by
  unfold Station.counted Station.takeOwnMatch
  obtain ⟨-, -, -, bus, -⟩ := ((s.readBackTally wire).takeOutcomes wire).countSplit_frame
  rw [bus]

/-- The outcomes are those that the wire reads at the station. -/
theorem Station.takeOutcomes_held (s : Station) (wire : BitVec 70) :
    ((s.readBackTally wire).takeOutcomes wire).bus.held = resolveTally (isDriving s.member.state) s.number wire := by
  obtain ⟨-, loader, -, -, member, -⟩ := s.readBackTally_frame wire
  simp only [Station.takeOutcomes, Station.number, loader, member]

theorem Station.counted_applied (s : Station) (wire : BitVec 70) : (s.counted wire).appliedRecord = s.appliedAt wire := by
  obtain ⟨-, -, -, bus, -⟩ := s.readBackTally_frame wire
  unfold Station.appliedRecord
  rw [Station.counted_bus]
  have held := s.takeOutcomes_held wire
  obtain ⟨t, is⟩ : ∃ t, t = (s.readBackTally wire).takeOutcomes wire := ⟨_, rfl⟩
  have pending : t.bus.pendingRecord = s.bus.pendingRecord := by rw [is, Station.takeOutcomes, bus]
  have number : t.bus.roundNumber = s.bus.roundNumber := by rw [is, Station.takeOutcomes, bus]
  rw [← is] at held ⊢
  simp only [held, pending, number, Station.appliedAt]

/-- The handover's outcomes in the order of log 19. -/
theorem Station.takeTally_eq (s : Station) (wire : BitVec 70) :
    s.takeTally wire =
      ((s.judged wire).adopt ((s.appliedAt wire).bind (·.adoption))).authorityHandover (s.appliedAt wire) := by
  unfold Station.judged
  rw [← Station.counted_applied]
  rfl

/-- What the part up to the peer table leaves as it was, and what it moves but for the peer table and the conditions. -/
theorem Station.judged_parts (s : Station) (wire : BitVec 70) :
    (s.judged wire).pins = s.pins ∧ (s.judged wire).loader = s.loader ∧ (s.judged wire).params = s.params
      ∧ (s.judged wire).meas = s.meas ∧ (s.judged wire).auth = s.auth ∧ (s.judged wire).drive = s.drive
      ∧ (s.judged wire).member = { s.member with keptOwnMatch := (s.judged wire).member.keptOwnMatch }
      ∧ (s.judged wire).bus =
          { ((s.readBackTally wire).takeOutcomes wire).bus with ownSig := none, pendingRecord := none }
      ∧ (s.judged wire).engine =
          { s.engine with
            splitCount :=
              splitAfter (resolveTally (isDriving s.member.state) s.number wire).roundClass s.engine.splitCount } := by
  have held := s.takeOutcomes_held wire
  obtain ⟨p₁, l₁, r₁, -, m₁, -, c₁, e₁, a₁, d₁⟩ := s.readBackTally_frame wire
  obtain ⟨p₂, l₂, r₂, m₂, -, c₂, e₂, a₂, d₂, -⟩ := (s.readBackTally wire).takeOutcomes_frame wire
  obtain ⟨p₃, l₃, r₃, b₃, m₃, -, c₃, a₃, d₃⟩ := ((s.readBackTally wire).takeOutcomes wire).countSplit_frame
  have e₃ := ((s.readBackTally wire).takeOutcomes wire).countSplit_engine
  rw [held, e₂, e₁] at e₃
  unfold Station.judged
  obtain ⟨p, l, r, b, m, c, e, a, d⟩ := Station.peersHandover_frame
    { s.counted wire with bus := { (s.counted wire).bus with pendingRecord := none } } (exclusionsOf (s.appliedAt wire))
  rw [p, l, r, b, m, c, e, a, d]
  dsimp only
  rw [Station.counted_bus]
  refine ⟨p₃.trans (p₂.trans p₁), l₃.trans (l₂.trans l₁), r₃.trans (r₂.trans r₁), c₃.trans (c₂.trans c₁),
    a₃.trans (a₂.trans a₁), d₃.trans (d₂.trans d₁), ?_, rfl, e₃⟩
  unfold Station.counted Station.takeOwnMatch
  rw [m₃, m₂, m₁]

/-! ## Adoption (R139, R140, R144) -/

/-- The engine with proper fields taken, and brought forward with the recorded inputs. -/
def Engine.adopting (sh : SharedSection) (a : AdoptionEntry) (e : Engine) : Engine :=
  Engine.bringForward sh a.inputs { e with run := runOfFields sh a.traj, readinessCount := 0 }

/-- The station takes the entry. -/
def Station.takesEntry (s : Station) (a : AdoptionEntry) : Prop :=
  (s.member.state = .join ∨ s.member.state = .member ∨ s.member.state = .quiet)
    ∧ s.engine.run.engine = .idle ∧ s.engine.run.adopted = false ∧ trajProper s.params.shared a.traj = true

theorem Station.takesEntry_iff (s : Station) (a : AdoptionEntry) :
    (s.mayAdopt && trajProper s.params.shared a.traj) = true ↔ s.takesEntry a := by
  rw [Bool.and_eq_true, Station.mayAdopt_iff, Station.takesEntry]
  tauto

theorem Station.adopt_taken {s : Station} {a : AdoptionEntry} (takes : s.takesEntry a) :
    s.adopt (some a) = ({ s with engine := s.engine.adopting s.params.shared a } : Station).takeView a := by
  have due := (s.takesEntry_iff a).mpr takes
  have engine : s.engineAdopt a = { s with engine := s.engine.adopting s.params.shared a } := if_pos due
  exact (if_pos due).trans (congrArg (Station.takeView · a) engine)

theorem Station.adopt_not_taken {s : Station} {a : AdoptionEntry} (not : ¬s.takesEntry a) : s.adopt (some a) = s :=
  if_neg (mt (s.takesEntry_iff a).mp not)

theorem Station.adopt_engine_taken {s : Station} {a : AdoptionEntry} (takes : s.takesEntry a) :
    (s.adopt (some a)).engine = s.engine.adopting s.params.shared a := by
  rw [Station.adopt_taken takes]
  simp only [Station.takeView_frame]

/-! ## The discarded record -/

/-- The station without a pending record. -/
def Station.noRecord (s : Station) : Station := { s with bus := { s.bus with pendingRecord := none } }

theorem Station.raiseTimes_noRecord (code : CondCode) (source n : Nat) :
    ∀ s : Station, s.noRecord.raiseTimes code source n = (s.raiseTimes code source n).noRecord := by
  induction n with
  | zero => exact fun _ => rfl
  | succ n ih => exact fun s => ih (s.raise code source)

/-- What is read, counted and kept does not depend on the pending record. -/
theorem Station.counted_noRecord (s : Station) (wire : BitVec 70) : s.noRecord.counted wire = (s.counted wire).noRecord := by
  have read : s.noRecord.readBackTally wire = (s.readBackTally wire).noRecord := by
    unfold Station.readBackTally
    cases himage : s.bus.round.image with
    | none => simp only [Station.noRecord, himage]
    | some image =>
      simp only [show s.noRecord.bus.round.image = some image from himage]
      exact Station.raiseTimes_noRecord _ _ _ s
  unfold Station.counted
  rw [read]
  rfl

/-- A record that is not applied is the same as none. -/
theorem Station.handover_noRecord {s : Station} {wire : BitVec 70} (unapplied : s.appliedAt wire = none) :
    s.noRecord.handover wire = s.handover wire := by
  have applied : s.noRecord.appliedAt wire = none := rfl
  have silenced : s.noRecord.silencedBy wire = s.silencedBy wire :=
    congrArg (fun r => isDriving s.member.state && inSet (exclusionsOf r) s.number) (applied.trans unapplied.symm)
  have judged : s.noRecord.judged wire = s.judged wire := by
    unfold Station.judged
    rw [applied, unapplied, Station.counted_noRecord]
    rfl
  have taken : s.noRecord.takeTally wire = s.takeTally wire := by
    rw [Station.takeTally_eq, Station.takeTally_eq, applied, unapplied, judged]
  unfold Station.handover
  rw [silenced, taken]

/-! ## Adopted views (R144) -/

theorem Station.usable_iff (s : Station) (k : StationNo) :
    s.usable k = true ↔ (s.peers.get k).state = .present ∨ (s.peers.get k).state = .suspect := by
  simp [Station.usable]

theorem admits_tilt_iff (r : Role) : admits .tilt r = true ↔ r = .tiltL ∨ r = .tiltR := by
  cases r <;> decide

theorem admits_steer_iff (r : Role) : admits .steer r = true ↔ r = .steer ∨ r = .steerB := by
  cases r <;> decide

/-- A view fits by its holders' records: another station, usable, of a role that the group admits. -/
theorem Station.viewFits_records (s : Station) (g : Group) (S : StationSet) :
    s.viewFits g S = true ↔
      ∀ k : StationNo, inSet S k = true →
        k ≠ s.number ∧ ((s.peers.get k).state = .present ∨ (s.peers.get k).state = .suspect)
          ∧ (g = .tilt → (s.peers.get k).rosterRole = .tiltL ∨ (s.peers.get k).rosterRole = .tiltR)
          ∧ (g = .steer → (s.peers.get k).rosterRole = .steer ∨ (s.peers.get k).rosterRole = .steerB) := by
  rw [Station.viewFits_iff]
  refine forall_congr' fun k => imp_congr_right fun _ => ?_
  rw [Station.usable_iff, and_left_comm]
  refine and_congr_right fun other => and_congr_right fun _ => ?_
  rw [show s.roleOf k = (s.peers.get k).rosterRole from if_neg other]
  cases g
  · simp [admits_tilt_iff]
  · simp [admits_steer_iff]

/-- The holders of a view: alone with the whole share, or each with half of it. -/
theorem viewHolders_eq (S : StationSet) :
    viewHolders S =
      (allStations.filter (inSet S)).map fun k =>
        { station := k, share := if (allStations.filter (inSet S)).length = 1 then 1000 else 500 } := by
  unfold viewHolders
  rw [show stationsOf S = allStations.filter (inSet S) from rfl]
  split
  · next k eqn => rw [eqn]; rfl
  · next l several =>
    have : (allStations.filter (inSet S)).length ≠ 1 := fun one => by
      obtain ⟨k, is⟩ := List.length_eq_one_iff.mp one
      exact several k is
    simp only [this, if_false]

theorem Station.takeView_taken {s : Station} {a : AdoptionEntry}
    (fits : s.viewFits .tilt a.tiltHolders = true ∧ s.viewFits .steer a.steerHolders = true) :
    s.takeView a =
      { s with
        auth :=
          { s.auth with
            live := true
            tilt := { GroupRecord.vacant with holders := viewHolders a.tiltHolders, epoch := a.tiltEpoch }
            steer := { GroupRecord.vacant with holders := viewHolders a.steerHolders, epoch := a.steerEpoch } } } :=
  if_pos (Bool.and_eq_true_iff.mpr fits)

theorem Station.takeView_refused {s : Station} {a : AdoptionEntry}
    (refused : ¬(s.viewFits .tilt a.tiltHolders = true ∧ s.viewFits .steer a.steerHolders = true)) :
    s.takeView a = { s with member := { s.member with viewRefused := true } } :=
  if_neg (mt Bool.and_eq_true_iff.mp refused)

/-! ## O22 -/

theorem Station.handover_engine (s : Station) (wire : BitVec 70) : (s.handover wire).engine = (s.takeTally wire).engine := by
  cases silenced : s.silencedBy wire
  · rw [Station.handover_of_not_silenced silenced]
    simp only [Station.lockEntry_frame, Station.joinHandover_frame]
  · rw [Station.handover_of_silenced silenced]
    simp only [Station.groupConds_frame, Station.enterSilent_engine]

theorem Station.takeTally_engine (s : Station) (wire : BitVec 70) :
    (s.takeTally wire).engine = ((s.judged wire).adopt ((s.appliedAt wire).bind (·.adoption))).engine := by
  rw [Station.takeTally_eq]
  simp only [Station.authorityHandover_frame]

theorem Station.appliedAt_of_applies {s : Station} {wire : BitVec 70} {r : DecisionRecord}
    (pending : s.bus.pendingRecord = some r)
    (applies : recordApplies (resolveTally (isDriving s.member.state) s.number wire) s.bus.roundNumber r = true) :
    s.appliedAt wire = some r := by
  rw [Station.appliedAt, pending, Option.filter_some, if_pos applies]

theorem Station.appliedAt_of_not_applies {s : Station} {wire : BitVec 70} {r : DecisionRecord}
    (pending : s.bus.pendingRecord = some r)
    (not : ¬recordApplies (resolveTally (isDriving s.member.state) s.number wire) s.bus.roundNumber r = true) :
    s.appliedAt wire = none := by
  rw [Station.appliedAt, pending, Option.filter_some, if_neg not]

/-- The part up to the peer table does not move what decides whether an entry is taken. -/
theorem Station.judged_takesEntry (s : Station) (wire : BitVec 70) (a : AdoptionEntry) :
    (s.judged wire).takesEntry a ↔ s.takesEntry a := by
  obtain ⟨-, -, params, -, -, -, member, -, engine⟩ := s.judged_parts wire
  unfold Station.takesEntry
  rw [params, member, engine]

/-- The sample points read the pins and not the bus. -/
theorem Station.samplePins_withBus (s : Station) (b : BusUnit) :
    ({ s with bus := b } : Station).samplePins = { s.samplePins with bus := b } := by
  have disable (level : Bool) : ({ s with bus := b } : Station).seeDisable level = { s.seeDisable level with bus := b } := by
    unfold Station.seeDisable
    cases level
    · by_cases halted : s.member.state = .halted
      · simp [halted, Station.setHeld]
      · simp [halted, Station.setHeld]
    · by_cases member : s.member.state = .member
      · simp [member, Station.setHeld, Station.driveOff]
      · simp [member, Station.setHeld, Station.driveOff]
  have fault (u : Station) (level : Bool) :
      ({ u with bus := b } : Station).seeDrvFlt level = { u.seeDrvFlt level with bus := b } := by
    unfold Station.seeDrvFlt
    by_cases role : isDriveRole u.params.role
    · cases level <;> simp [role, Station.setHeld, Station.driveOff]
    · simp [role]
  unfold Station.samplePins
  by_cases reads : readsPins s.member.state
  · simp only [reads, if_true, disable, fault]
  · simp only [reads, if_false, Bool.false_eq_true]

/-- The time until position 79 leaves a station without a pending record where it leaves the station. -/
theorem Station.noRecord_reach {x : Station} (early : x.bus.position ≤ 79) : x.noRecord.reach 79 = (x.reach 79).noRecord := by
  have sampled : x.noRecord.sampleUntil 79 = (x.sampleUntil 79).noRecord := by
    unfold Station.sampleUntil
    by_cases coming : x.bus.position < 79
    · have bus : x.samplePins.bus = x.bus := by simp only [Station.samplePins_frame]
      rw [if_pos coming, if_pos (show x.noRecord.bus.position < 79 from coming)]
      refine (x.samplePins_withBus x.noRecord.bus).trans ?_
      unfold Station.noRecord
      rw [bus]
    · rw [if_neg coming, if_neg (show ¬x.noRecord.bus.position < 79 from coming)]
  rw [Station.reach_inside (s := x.noRecord) (early.trans (by decide)) (by decide),
    Station.reach_inside (early.trans (by decide)) (by decide), sampled]
  rfl

/-- Settles O22. -/
theorem recordIsAppliedOrDiscarded : Obligations.RecordIsAppliedOrDiscarded := by
  unfold Obligations.RecordIsAppliedOrDiscarded
  intro proper takes
  have takes_iff : ∀ (x : Station) (a : AdoptionEntry), takes x a ↔ x.takesEntry a := fun x a => by
    simp only [takes, proper, Station.takesEntry, trajProper_iff]
  refine ⟨?_, ?_⟩
  · intro x q wire r due early pending t h count
    have driving : isDriving t.member.state = isDriving x.member.state := x.reach_isDriving 79
    have number : t.number = x.number := x.reach_number 79
    have bus : t.bus = x.bus.later 79 := Station.reach_bus_inside early (by decide)
    have held : resolveTally (isDriving t.member.state) t.number wire = h := by rw [driving, number]
    have pending' : t.bus.pendingRecord = some r := by rw [bus]; exact pending
    have round : t.bus.roundNumber = x.bus.roundNumber := by rw [bus]; rfl
    have applies : recordApplies (resolveTally (isDriving t.member.state) t.number wire) t.bus.roundNumber r = true ↔
        (h.roundClass = .agreed ∨ (h.roundClass = .memberless ∧ h.alone = true)) ∧ r.tag + 1 = x.bus.roundNumber := by
      rw [recordApplies_iff, held, round]
    refine ⟨fun discards => ?_, fun a class_ tag entry => ?_⟩
    · have unapplied : t.appliedAt wire = none := Station.appliedAt_of_not_applies pending' fun yes => by
        obtain ⟨class_, tag⟩ := applies.mp yes
        rcases discards with split | ⟨memberless, alone⟩ | late
        · rcases class_ with agreed | ⟨memberless, -⟩ <;> simp_all
        · rcases class_ with agreed | ⟨-, alone'⟩ <;> simp_all
        · exact late tag
      have with_ : effect (.tallyHandover wire) x = t.handover wire := Station.tallyHandover_due due early wire
      have without : effect (.tallyHandover wire) x.noRecord = t.noRecord.handover wire := by
        rw [← Station.noRecord_reach early]
        exact Station.tallyHandover_due (x := x.noRecord) due early wire
      rw [exec_eq, with_, ← Station.handover_noRecord unapplied, ← without]
      exact (exec_eq _ _ q).symm
    · have applied : t.appliedAt wire = some r :=
        Station.appliedAt_of_applies pending' (applies.mpr ⟨class_, tag⟩)
      have engine : (t.handover wire).engine = ((t.judged wire).adopt (some a)).engine := by
        rw [Station.handover_engine, Station.takeTally_engine, applied]
        exact congrArg (fun e => ((t.judged wire).adopt e).engine) entry
      obtain ⟨-, -, params, -, -, -, -, -, counted⟩ := t.judged_parts wire
      rw [held, show t.engine = x.engine from x.reach_engine 79] at counted
      have after : splitAfter h.roundClass x.engine.splitCount = count := by
        rcases class_ with agreed | ⟨memberless, -⟩
        · simp [splitAfter, count, agreed]
        · simp [splitAfter, count, memberless]
      rw [after] at counted
      intro st adopted inputs
      refine exec_effect (c := .tallyHandover wire) (Q := fun y => _ ∧ _) ?_ q
      rw [Station.tallyHandover_due due early wire]
      refine ⟨fun yes => engine.trans ?_, fun no => engine.trans ?_⟩
      · rw [Station.adopt_engine_taken ((t.judged_takesEntry wire a).mpr ((takes_iff t a).mp yes)), counted, params,
          show t.params = x.params from x.reach_params 79]
        rfl
      · rw [Station.adopt_not_taken (mt (t.judged_takesEntry wire a).mp (mt (takes_iff t a).mpr no)), counted]
  · intro x a fits view
    refine ⟨fun yes tilt steer => ?_, fun yes not => ?_, fun no => Station.adopt_not_taken (mt (takes_iff x a).mpr no)⟩
    · rw [Station.adopt_taken ((takes_iff x a).mp yes)]
      refine (congrArg Station.auth (Station.takeView_taken
        (s := { x with engine := x.engine.adopting x.params.shared a }) ?_)).trans ?_
      · exact ⟨(x.viewFits_records .tilt a.tiltHolders).mpr tilt, (x.viewFits_records .steer a.steerHolders).mpr steer⟩
      · simp only [view, viewHolders_eq, GroupRecord.vacant]
    · have refused : ¬(x.viewFits .tilt a.tiltHolders = true ∧ x.viewFits .steer a.steerHolders = true) := by
        rw [Station.viewFits_records, Station.viewFits_records]
        exact not
      rw [Station.adopt_taken ((takes_iff x a).mp yes), 
        Station.takeView_refused (s := { x with engine := x.engine.adopting x.params.shared a }) refused]
      exact ⟨rfl, rfl⟩

end Sys2Proof.Machine
end

