-- ==== Sys2Proof/Proofs/WorkRules.lean ====
section
/-! Work on the conditions as a run of raises and holds of some codes, and what it leaves of the others: the held state
conditions, the records of the queue, and what is told. The works of a handover are such runs. -/

namespace Sys2Proof.Machine

/-- Some raises, holds and removals of conditions of the codes take `c` to `d`. -/
inductive ConditionUnit.Worked (codes : CondCode → Prop) (c : ConditionUnit) : ConditionUnit → Prop where
  | refl : Worked codes c c
  | raise {d : ConditionUnit} {k : CondKey} (level : Nat) (work : Worked codes c d) (event : condIsEvent k.code = true)
    (is : codes k.code) : Worked codes c (raiseEvent d k level)
  | set {d : ConditionUnit} {k : CondKey} (cause : Bool) (level : Nat) (work : Worked codes c d) (is : codes k.code) :
    Worked codes c (setCond d cause k level)

/-- What a station's work does to its conditions. -/
abbrev Station.Worked (codes : CondCode → Prop) (s t : Station) : Prop := s.cond.Worked codes t.cond

namespace ConditionUnit.Worked

variable {codes : CondCode → Prop} {c d e : ConditionUnit}

theorem trans (h : c.Worked codes d) (h' : d.Worked codes e) : c.Worked codes e := by
  induction h' with
  | refl => exact h
  | raise level _ event is ih => exact ih.raise level event is
  | set cause level _ is ih => exact ih.set cause level is

/-- The work keeps what is told, and the state conditions of the other codes. -/
theorem follows (h : c.Worked codes d) : c.Follows (fun key => codes key.code) d := by
  induction h with
  | refl => exact .refl
  | raise level _ event _ ih => exact ih.trans (.raise _ event level)
  | set cause level _ is ih => exact ih.trans (.set cause _ level is)

end ConditionUnit.Worked

/-! ## The records of the queue (R177) -/

/-- A record is no other's business: an offer of another key leaves it. -/
theorem offerQueue_keeps {c : ConditionUnit} {r : QueueRecord} (member : r ∈ c.queue) {k : CondKey} (other : r.key ≠ k) :
    r ∈ (offerQueue c k).queue := by
  unfold offerQueue
  split
  · refine List.mem_map.mpr ⟨r, member, if_neg other⟩
  · split
    · exact List.mem_append_left _ member
    · exact member

theorem raiseEvent_offers (c : ConditionUnit) (k : CondKey) (level : Nat) :
    ∃ d : ConditionUnit, raiseEvent c k level = offerQueue d k ∧ d.queue = c.queue := by
  unfold raiseEvent
  split
  · exact ⟨_, rfl, rfl⟩
  · exact ⟨_, rfl, enterCond_queue c _⟩

theorem raiseEvent_keeps {c : ConditionUnit} {r : QueueRecord} (member : r ∈ c.queue) {k : CondKey} (other : r.key ≠ k)
    (level : Nat) : r ∈ (raiseEvent c k level).queue := by
  obtain ⟨d, is, queue⟩ := raiseEvent_offers c k level
  rw [is]
  exact offerQueue_keeps (by rwa [queue]) other

theorem setCond_keeps {c : ConditionUnit} {r : QueueRecord} (member : r ∈ c.queue) {k : CondKey} (other : r.key ≠ k)
    (cause : Bool) (level : Nat) : r ∈ (setCond c cause k level).queue := by
  cases cause
  · change r ∈ (removeCond c k).queue
    rwa [removeCond_frame]
  · change r ∈ (holdCond c k level).queue
    unfold holdCond
    split
    · exact member
    · refine offerQueue_keeps ?_ other
      change r ∈ (enterCond c _).queue
      rwa [enterCond_queue]

/-- Work on other codes leaves a record of the queue. -/
theorem ConditionUnit.Worked.keeps {codes : CondCode → Prop} {c d : ConditionUnit} (h : c.Worked codes d) {r : QueueRecord}
    (other : ¬codes r.key.code) (member : r ∈ c.queue) : r ∈ d.queue := by
  induction h with
  | refl => exact member
  | raise level _ _ is ih => exact raiseEvent_keeps ih (fun same => other (same ▸ is)) level
  | set cause level _ is ih => exact setCond_keeps ih (fun same => other (same ▸ is)) cause level

/-- Raises of a key not in a queue with room count in one record (R177). -/
theorem raiseEvent_counts {c : ConditionUnit} {k : CondKey} {r : QueueRecord} (member : r ∈ c.queue) (key : r.key = k)
    (level : Nat) : { r with count := min 15 (r.count + 1) } ∈ (raiseEvent c k level).queue := by
  obtain ⟨d, is, queue⟩ := raiseEvent_offers c k level
  rw [is, (offerQueue_known ⟨r, queue ▸ member, key⟩).1, queue]
  exact List.mem_map.mpr ⟨r, member, if_pos key⟩

theorem raiseEvent_begins {c : ConditionUnit} {k : CondKey} (new : ∀ r ∈ c.queue, r.key ≠ k) (room : c.queue.length < 8)
    (level : Nat) : { key := k, count := 1 } ∈ (raiseEvent c k level).queue := by
  obtain ⟨d, is, queue⟩ := raiseEvent_offers c k level
  rw [is, offerQueue_new (queue ▸ new), if_pos (by rw [queue]; exact room)]
  exact List.mem_append_right _ List.mem_cons_self

theorem Station.raiseTimes_counts (code : CondCode) (source n : Nat) :
    ∀ (s : Station) (m : Nat), m ≤ 15 → { key := { code := code, source := source }, count := m } ∈ s.cond.queue →
      { key := { code := code, source := source }, count := min 15 (m + n) } ∈ (s.raiseTimes code source n).cond.queue := by
  induction n with
  | zero => exact fun s m small member => by rwa [Nat.add_zero, Nat.min_eq_right small]
  | succ n ih =>
    intro s m small member
    have counted := ih (s.raise code source) (min 15 (m + 1)) (Nat.min_le_left _ _) (raiseEvent_counts member rfl _)
    rwa [show min 15 (min 15 (m + 1) + n) = min 15 (m + (n + 1)) by omega] at counted

/-- Several raises of a new key leave one record with their number (R177). -/
theorem Station.raiseTimes_new {s : Station} {code : CondCode} {source n : Nat} (some_ : 0 < n)
    (new : ∀ r ∈ s.cond.queue, r.key ≠ { code := code, source := source }) (room : s.cond.queue.length < 8) :
    { key := { code := code, source := source }, count := min 15 n } ∈ (s.raiseTimes code source n).cond.queue := by
  obtain ⟨m, rfl⟩ : ∃ m, n = m + 1 := ⟨n - 1, by omega⟩
  have counted := Station.raiseTimes_counts code source m (s.raise code source) 1 (by decide) (raiseEvent_begins new room _)
  rwa [Nat.add_comm 1 m] at counted

/-! ## The works of a handover -/

/-- The codes that a handover's work on the peer table, the authority table and the station state raises, holds or removes. -/
abbrev isHandoverCode (code : CondCode) : Prop :=
  code ∈ [CondCode.peerLost, .peerExcluded, .roleMismatch, .configDiffers, .authFail, .authGiveup, .tiltSole, .tiltVacant,
    .steerVacant]

section

variable {codes : CondCode → Prop}

theorem Station.worked_raise (s : Station) {code : CondCode} (source : Nat) (event : condIsEvent code = true)
    (is : codes code) : s.Worked codes (s.raise code source) := .raise _ .refl event is

theorem Station.worked_setHeld (s : Station) (cause : Bool) {code : CondCode} (source : Nat) (is : codes code) :
    s.Worked codes (s.setHeld cause code source) := .set _ _ .refl is

theorem Station.worked_removeRecordConds (s : Station) (k : StationNo) (role : codes .roleMismatch)
    (config : codes .configDiffers) : s.Worked codes (s.removeRecordConds k) :=
  (s.worked_setHeld false k.val role).trans (Station.worked_setHeld _ false k.val config)

theorem Station.worked_foldl {α : Type} {f : Station → α → Station} (each : ∀ (s : Station) (a : α), s.Worked codes (f s a))
    (l : List α) : ∀ s : Station, s.Worked codes (l.foldl f s) := by
  induction l with
  | nil => exact fun _ => .refl
  | cons a rest ih => exact fun s => (each s a).trans (ih _)

theorem Station.worked_forPeers {f : Station → StationNo → Station} 
    (each : ∀ (s : Station) k, s.Worked codes (f s k)) (s : Station) :
    s.Worked codes (s.forPeers f) :=
  Station.worked_foldl (fun s k => by
    split
    · exact .refl
    · exact each s k) allStations s

end

theorem Station.worked_peerLost (s : Station) (k : StationNo) : s.Worked isHandoverCode (s.peerLost k) := by
  have absent : s.Worked isHandoverCode (s.makeAbsent k) :=
    Station.worked_removeRecordConds (s.setPeer k _) k (by decide) (by decide)
  unfold Station.peerLost
  split
  · split
    · exact absent.trans (Station.worked_raise _ k.val rfl (by decide))
    · exact absent
  · exact .refl

theorem Station.worked_excludePeer (s : Station) (before : PeerState) (bit : Bool) (k : StationNo) :
    s.Worked isHandoverCode (s.excludePeer before bit k) := by
  unfold Station.excludePeer
  split
  · exact .refl
  · dsimp only
    refine ConditionUnit.Worked.trans ?_ (Station.worked_raise _ k.val rfl (by decide))
    split
    · exact Station.worked_removeRecordConds (s.setPeer k _) k (by decide) (by decide)
    · exact .refl

theorem Station.worked_peerHandover (s : Station) (named : StationSet) (k : StationNo) :
    s.Worked isHandoverCode (s.peerHandover named k) := by
  unfold Station.peerHandover
  dsimp only
  have lost := Station.worked_peerLost
    (s.setPeer k (countAbsent (s.peers.get k) (s.bitTaken k) (inSet s.bus.held.joining k) (s.refused k))) k
  split
  · exact lost.trans (Station.worked_excludePeer _ _ _ k)
  · exact lost

theorem Station.worked_failClaim (s : Station) (g : Group) (code : CloseCode) :
    s.Worked isHandoverCode (s.failClaim g code) := by
  unfold Station.failClaim
  dsimp only
  have failed : s.Worked isHandoverCode (s.raise .authFail (8 * groupCode g + closeNumber code)) :=
    Station.worked_raise s _ rfl (by decide)
  split
  · exact failed.trans (Station.worked_setHeld _ true _ (by decide))
  · exact failed

theorem Station.worked_takeClose (s : Station) (g : Group) (closed : Option (StationNo × CloseCode)) :
    s.Worked isHandoverCode (s.takeClose g closed) := by
  unfold Station.takeClose
  split
  · split
    · split
      · exact .refl
      · exact s.worked_failClaim g _
    · exact .refl
  · exact .refl

theorem Station.worked_commitGroup (s : Station) (g : Group) (w : GroupWork) :
    s.Worked isHandoverCode (s.commitGroup g w) :=
  Station.worked_takeClose { s with auth := s.auth.setGroup g _ } g w.closed

theorem Station.worked_groupConds (s : Station) : s.Worked isHandoverCode s.groupConds := by
  unfold Station.groupConds
  split
  · exact ((s.worked_setHeld _ 0 (by decide)).trans (Station.worked_setHeld _ _ 0 (by decide))).trans
      (Station.worked_setHeld _ _ 0 (by decide))
  · exact .refl

theorem Station.worked_authorityHandover (s : Station) (applied : Option DecisionRecord) :
    s.Worked isHandoverCode (s.authorityHandover applied) := by
  unfold Station.authorityHandover
  split
  · exact ((s.worked_commitGroup .tilt _).trans (Station.worked_commitGroup _ .steer _)).trans (Station.worked_groupConds _)
  · exact .refl

theorem Station.worked_adopt (s : Station) (entry : Option AdoptionEntry) : s.Worked isHandoverCode (s.adopt entry) := by
  obtain ⟨-, -, -, -, -, -, -, cond⟩ := s.adopt_frame entry
  rw [Station.Worked, cond]
  exact .refl

theorem Station.worked_enterSilent (s : Station) : s.Worked isHandoverCode s.enterSilent := by
  change ConditionUnit.Worked isHandoverCode s.cond (setCond s.cond false { code := .configDiffers, source := 8 } 1)
  exact .set false 1 .refl (by decide)

theorem Station.worked_joinHandover (s : Station) : s.Worked isHandoverCode s.joinHandover := by
  unfold Station.joinHandover
  split
  · dsimp only
    split
    · unfold Station.enterMember Station.makeLive
      refine ConditionUnit.Worked.trans ?_ (Station.worked_groupConds _)
      change ConditionUnit.Worked isHandoverCode s.cond (setCond s.cond false { code := .configDiffers, source := 8 } 1)
      exact .set false 1 .refl (by decide)
    · exact .refl
  · exact .refl

/-- The work of the handover after the split count. -/
theorem Station.worked_handover (s : Station) (wire : BitVec 70) :
    s.takeTally wire |>.Worked isHandoverCode (s.handover wire) := by
  cases silenced : s.silencedBy wire
  · rw [Station.handover_of_not_silenced silenced, Station.Worked]
    obtain ⟨-, -, -, -, -, -, -, -, -, cond⟩ := (s.takeTally wire).joinHandover.lockEntry_frame
    rw [cond]
    exact Station.worked_joinHandover _
  · rw [Station.handover_of_silenced silenced]
    exact (Station.worked_enterSilent _).trans (Station.worked_groupConds _)

end Sys2Proof.Machine
end

