-- ==== Sys2Proof/Proofs/RecordRules.lean ====
section
/-! What a pass over the peer table does to one record, and the record's handover (R82 to R84). -/

namespace Sys2Proof.Machine

/-! ## One record in a pass over the table -/

/-- One step of a pass over the table: the own record is left. -/
def Station.guarded (f : Station → StationNo → Station) (s : Station) (k : StationNo) : Station :=
  if k = s.number then s else f s k

/-- A pass over the table does one record's work once, between the works on others. -/
theorem Station.forPeers_split {f : Station → StationNo → Station} (number : ∀ s k, (f s k).number = s.number) (s : Station)
    {k : StationNo} (other : k ≠ s.number) :
    ∃ before after : List StationNo, k ∉ before ∧ k ∉ after
      ∧ s.forPeers f = after.foldl (Station.guarded f) (f (before.foldl (Station.guarded f) s) k) := by
  have listed : k ∈ allStations := List.mem_finRange k
  have once : allStations.Nodup := List.nodup_finRange 8
  obtain ⟨before, after, split⟩ := List.append_of_mem listed
  rw [split, List.nodup_append, List.nodup_cons] at once
  obtain ⟨-, ⟨notAfter, -⟩, apart⟩ := once
  refine ⟨before, after, fun member => apart k member k List.mem_cons_self rfl, notAfter, ?_⟩
  have stays : (before.foldl (Station.guarded f) s).number = s.number :=
    Station.foldl_keeps Station.number _ (fun x j => by
      unfold Station.guarded
      split
      · rfl
      · exact number x j) before s
  have step : Station.guarded f (before.foldl (Station.guarded f) s) k = f (before.foldl (Station.guarded f) s) k :=
    if_neg (by rw [stays]; exact other)
  unfold Station.forPeers
  change allStations.foldl (Station.guarded f) s = _
  rw [split, List.foldl_append, List.foldl_cons, step]

/-- What each work of a pass keeps, its part over some of the records keeps. -/
theorem Station.guarded_keeps {P : Station → Prop} {f : Station → StationNo → Station} {l : List StationNo}
    (each : ∀ s, ∀ k ∈ l, P s → P (f s k)) {s : Station} (h : P s) : P (l.foldl (Station.guarded f) s) := by
  induction l generalizing s with
  | nil => exact h
  | cons k rest ih =>
    rw [List.foldl_cons]
    refine ih (fun s j member => each s j (List.mem_cons_of_mem k member)) ?_
    unfold Station.guarded
    split
    · exact h
    · exact each s k List.mem_cons_self h

/-! ## A record's handover -/

/-- The record becomes ABSENT at a full count (R82). -/
def PeerRecord.lostAt (r : PeerRecord) : PeerRecord :=
  if (isTaken r.state || r.state = .excluded) && decide (3 ≤ r.absentRounds) then r.toAbsent else r

/-- The record after an exclusion that names it (R83, Table 6-2). -/
def PeerRecord.excludedAt (before : PeerState) (bit : Bool) (r : PeerRecord) : PeerRecord :=
  if before = .excluded then r
  else if (isTaken before && decide (r.state ≠ .absent)) || (before = .absent && bit) then
    PeerRecord.toExcluded { r with exclusions := succSat 15 r.exclusions }
  else { r with exclusions := succSat 15 r.exclusions }

/-- The record after its handover, by its bits and whether it is named. -/
def PeerRecord.handedOver (named bit joining refused : Bool) (r : PeerRecord) : PeerRecord :=
  if named then (countAbsent r bit joining refused).lostAt.excludedAt r.state bit
  else (countAbsent r bit joining refused).lostAt

theorem Station.setPeer_get (s : Station) (k : StationNo) (r : PeerRecord) : (s.setPeer k r).peers.get k = r :=
  Eight.get_set_self _ _ _

theorem Station.setPeer_get_other (s : Station) {j k : StationNo} (apart : j ≠ k) (r : PeerRecord) :
    (s.setPeer k r).peers.get j = s.peers.get j := Eight.get_set_other _ _ _ _ apart

theorem Station.peerLost_get {s : Station} {k : StationNo} (other : k ≠ s.number) :
    (s.peerLost k).peers.get k = (s.peers.get k).lostAt := by
  have due : s.absentDue k =
      ((isTaken (s.peers.get k).state || (s.peers.get k).state = .excluded) && decide (3 ≤ (s.peers.get k).absentRounds)) := by
    unfold Station.absentDue
    dsimp only
    rw [decide_eq_true other, Bool.true_and]
    rfl
  have absent : (s.makeAbsent k).peers.get k = (s.peers.get k).toAbsent := s.setPeer_get k _
  unfold Station.peerLost PeerRecord.lostAt
  rw [due]
  split
  · split <;> exact absent
  · rfl

theorem Station.peerLost_get_other (s : Station) {j k : StationNo} (apart : j ≠ k) :
    (s.peerLost k).peers.get j = s.peers.get j := by
  have absent : (s.makeAbsent k).peers.get j = s.peers.get j := s.setPeer_get_other apart _
  unfold Station.peerLost
  split
  · split <;> exact absent
  · rfl

theorem Station.excludePeer_get (s : Station) (before : PeerState) (bit : Bool) (k : StationNo) :
    (s.excludePeer before bit k).peers.get k = (s.peers.get k).excludedAt before bit := by
  unfold Station.excludePeer PeerRecord.excludedAt Station.excludes
  split
  · rfl
  · dsimp only
    split
    · exact s.setPeer_get k _
    · exact s.setPeer_get k _

theorem Station.excludePeer_get_other (s : Station) (before : PeerState) (bit : Bool) {j k : StationNo} (apart : j ≠ k) :
    (s.excludePeer before bit k).peers.get j = s.peers.get j := by
  unfold Station.excludePeer
  split
  · rfl
  · dsimp only
    split <;> exact s.setPeer_get_other apart _

theorem Station.peerHandover_get {s : Station} {k : StationNo} (other : k ≠ s.number) (named : StationSet) :
    (s.peerHandover named k).peers.get k =
      (s.peers.get k).handedOver (inSet named k) (s.bitTaken k) (inSet s.bus.held.joining k) (s.refused k) := by
  have lost := Station.peerLost_get (s := s.setPeer k
    (countAbsent (s.peers.get k) (s.bitTaken k) (inSet s.bus.held.joining k) (s.refused k))) other
  rw [s.setPeer_get] at lost
  unfold Station.peerHandover PeerRecord.handedOver
  dsimp only
  split
  · rw [Station.excludePeer_get, lost]
  · exact lost

theorem Station.peerHandover_get_other (s : Station) (named : StationSet) {j k : StationNo} (apart : j ≠ k) :
    (s.peerHandover named k).peers.get j = s.peers.get j := by
  unfold Station.peerHandover
  dsimp only
  have lost := Station.peerLost_get_other (s.setPeer k
    (countAbsent (s.peers.get k) (s.bitTaken k) (inSet s.bus.held.joining k) (s.refused k))) apart
  rw [s.setPeer_get_other apart] at lost
  split
  · rw [Station.excludePeer_get_other _ _ _ apart, lost]
  · exact lost

/-- What a pass of handovers over other records leaves of what one record's handover reads. -/
theorem Station.guarded_peerHandover {named : StationSet} {l : List StationNo} {k : StationNo} (apart : k ∉ l) (s : Station) :
    let t := l.foldl (Station.guarded (Station.peerHandover named)) s
    t.peers.get k = s.peers.get k ∧ t.bus = s.bus ∧ t.params = s.params ∧ t.loader = s.loader
      ∧ s.Worked isHandoverCode t := by
  refine Station.guarded_keeps (P := fun t : Station => t.peers.get k = s.peers.get k ∧ t.bus = s.bus ∧ t.params = s.params
    ∧ t.loader = s.loader ∧ s.Worked isHandoverCode t) (fun t j member h => ?_) ⟨rfl, rfl, rfl, rfl, .refl⟩
  obtain ⟨record, bus, params, loader, work⟩ := h
  obtain ⟨-, loader', params', bus', -⟩ := t.peerHandover_frame named j
  refine ⟨?_, bus'.trans bus, params'.trans params, loader'.trans loader, work.trans (t.worked_peerHandover named j)⟩
  rw [Station.peerHandover_get_other _ _ (fun same : k = j => apart (same ▸ member)), record]

/-- One record's handover, in the pass over the table. -/
theorem Station.peersHandover_split (s : Station) (named : StationSet) {k : StationNo} (other : k ≠ s.number) :
    ∃ t : Station, t.peers.get k = s.peers.get k ∧ t.bus = s.bus ∧ t.params = s.params ∧ t.loader = s.loader
      ∧ (s.peersHandover named).peers.get k = (t.peerHandover named k).peers.get k
      ∧ (t.peerHandover named k).Worked isHandoverCode (s.peersHandover named) := by
  obtain ⟨before, after, notBefore, notAfter, split⟩ := Station.forPeers_split (f := Station.peerHandover named)
    (fun s k => by simp [Station.number]) s other
  obtain ⟨record, bus, params, loader, -⟩ := Station.guarded_peerHandover (named := named) notBefore s
  refine ⟨before.foldl (Station.guarded (Station.peerHandover named)) s, record, bus, params, loader, ?_⟩
  obtain ⟨record', -, -, -, work⟩ := Station.guarded_peerHandover (named := named) notAfter
    (Station.peerHandover named (before.foldl (Station.guarded (Station.peerHandover named)) s) k)
  unfold Station.peersHandover
  rw [split]
  exact ⟨record', work⟩

theorem Station.peersHandover_get {s : Station} (named : StationSet) {k : StationNo} (other : k ≠ s.number) :
    (s.peersHandover named).peers.get k =
      (s.peers.get k).handedOver (inSet named k) (s.bitTaken k) (inSet s.bus.held.joining k) (s.refused k) := by
  obtain ⟨t, record, bus, params, loader, result, -⟩ := s.peersHandover_split named other
  have other' : k ≠ t.number := by rwa [Station.number, loader]
  rw [result, Station.peerHandover_get other', record]
  unfold Station.bitTaken Station.membersBit Station.refused
  rw [record, bus, params]

theorem Station.peersHandover_own (s : Station) (named : StationSet) :
    (s.peersHandover named).peers.get s.number = s.peers.get s.number := by
  have kept := Station.forPeers_preserves (fun t : Station => t.peers.get s.number = s.peers.get s.number ∧ t.number = s.number)
    (Station.peerHandover named) (fun t k other h => by
      obtain ⟨record, number⟩ := h
      refine ⟨?_, ?_⟩
      · rw [Station.peerHandover_get_other _ _ (fun same : s.number = k => other (same ▸ number.symm)), record]
      · rw [← number, Station.number, Station.number]
        simp only [Station.peerHandover_frame]) s ⟨rfl, rfl⟩
  exact kept.1

/-! ## What the record's handover tells (R82, R83) -/

theorem Station.peerHandover_told_excluded {s : Station} {named : StationSet} {k : StationNo} (is : inSet named k = true)
    (apart : (s.peers.get k).state ≠ .excluded) :
    (s.peerHandover named k).cond.told { code := .peerExcluded, source := k.val } := by
  unfold Station.peerHandover
  dsimp only
  rw [if_pos is]
  unfold Station.excludePeer
  rw [if_neg apart]
  exact Station.told_raise _ _ _

theorem Station.peerHandover_told_lost {s : Station} {named : StationSet} {k : StationNo} (other : k ≠ s.number)
    (taken : isTaken (countAbsent (s.peers.get k) (s.bitTaken k) (inSet s.bus.held.joining k) (s.refused k)).state = true)
    (full : 3 ≤ (countAbsent (s.peers.get k) (s.bitTaken k) (inSet s.bus.held.joining k) (s.refused k)).absentRounds) :
    (s.peerHandover named k).cond.told { code := .peerLost, source := k.val } := by
  have lost : ((s.setPeer k (countAbsent (s.peers.get k) (s.bitTaken k) (inSet s.bus.held.joining k) (s.refused k))).peerLost
      k).cond.told { code := .peerLost, source := k.val } := by
    rw [Station.peerLost_taken (s := s.setPeer k _) other (by rwa [s.setPeer_get]) (by rwa [s.setPeer_get])]
    exact Station.told_raise _ _ _
  unfold Station.peerHandover
  dsimp only
  split
  · exact (Station.worked_excludePeer _ _ _ k).follows.told _ lost
  · exact lost

theorem Station.peersHandover_told_excluded {s : Station} {named : StationSet} {k : StationNo} (other : k ≠ s.number)
    (is : inSet named k = true) (apart : (s.peers.get k).state ≠ .excluded) :
    (s.peersHandover named).cond.told { code := .peerExcluded, source := k.val } := by
  obtain ⟨t, record, -, -, -, -, work⟩ := s.peersHandover_split named other
  exact work.follows.told _ (Station.peerHandover_told_excluded is (by rwa [record]))

theorem Station.peersHandover_told_lost {s : Station} {named : StationSet} {k : StationNo} (other : k ≠ s.number)
    (taken : isTaken (countAbsent (s.peers.get k) (s.bitTaken k) (inSet s.bus.held.joining k) (s.refused k)).state = true)
    (full : 3 ≤ (countAbsent (s.peers.get k) (s.bitTaken k) (inSet s.bus.held.joining k) (s.refused k)).absentRounds) :
    (s.peersHandover named).cond.told { code := .peerLost, source := k.val } := by
  obtain ⟨t, record, bus, params, loader, -, work⟩ := s.peersHandover_split named other
  have same : countAbsent (t.peers.get k) (t.bitTaken k) (inSet t.bus.held.joining k) (t.refused k) =
      countAbsent (s.peers.get k) (s.bitTaken k) (inSet s.bus.held.joining k) (s.refused k) := by
    unfold Station.bitTaken Station.membersBit Station.refused
    rw [record, bus, params]
  exact work.follows.told _
    (Station.peerHandover_told_lost (by rwa [Station.number, loader]) (by rwa [same]) (by rwa [same]))

/-! ## The record's handover by its state (R82 to R84) -/

/-- The absent rounds of a record after its handover. -/
def PeerRecord.absentAfter (r : PeerRecord) (bit refused : Bool) : Nat :=
  if bit = true ∨ (refused = true ∧ r.state = .absent) then 0 else min 3 (r.absentRounds + 1)

theorem countAbsent_eq (r : PeerRecord) (bit joining refused : Bool) :
    countAbsent r bit joining refused =
      { r with
        absentRounds := r.absentAfter bit refused
        state := if r.state = .absent ∧ joining = true ∧ refused = false then .joining else r.state } := by
  unfold countAbsent PeerRecord.absentAfter
  cases bit <;> cases joining <;> cases refused <;> simp [succSat, Config.absentLimit]

section
variable {r : PeerRecord} {bit joining refused : Bool}

/-- An ABSENT record whose bit is clear is not JOINING: no station joins outside the members (Table 3-2). -/
theorem countAbsent_absent (absent : r.state = .absent) (within : joining = true → refused = false → bit = true)
    (clear : bit = false) :
    countAbsent r bit joining refused = { r with absentRounds := r.absentAfter bit refused, state := .absent } := by
  rw [countAbsent_eq]
  have : ¬(r.state = .absent ∧ joining = true ∧ refused = false) := fun ⟨_, joins, free⟩ => by
    simpa [clear] using within joins free
  rw [if_neg this, absent]

theorem lostAt_not_full (early : r.absentRounds < 3) : r.lostAt = r :=
  if_neg (by simp [Nat.not_le.mpr early])

theorem lostAt_absent (absent : r.state = .absent) : r.lostAt = r := if_neg (by simp [absent, isTaken])

theorem lostAt_full (full : 3 ≤ r.absentRounds) (known : isTaken r.state = true ∨ r.state = .excluded) :
    r.lostAt = r.toAbsent := if_pos (by simp [full, known])

theorem countAbsent_known (known : r.state ≠ .absent) :
    countAbsent r bit joining refused = { r with absentRounds := r.absentAfter bit refused } := by
  rw [countAbsent_eq, if_neg fun h => known h.1]

/-- A record not named, by what the count makes of it. -/
theorem handedOver_not_named : r.handedOver false bit joining refused = (countAbsent r bit joining refused).lostAt := rfl

theorem handedOver_named :
    r.handedOver true bit joining refused = (countAbsent r bit joining refused).lostAt.excludedAt r.state bit := rfl

/-- The count of an ABSENT record does not lose it. -/
theorem lostAt_countAbsent_absent (absent : r.state = .absent) (within : joining = true → refused = false → bit = true) :
    (countAbsent r bit joining refused).lostAt = countAbsent r bit joining refused := by
  cases is : bit
  · rw [countAbsent_absent absent (is ▸ within) rfl]
    exact lostAt_absent rfl
  · refine lostAt_not_full ?_
    rw [countAbsent_eq]
    simp [PeerRecord.absentAfter]

/-- The record after an exclusion that changes its state, and after one that finds it ABSENT. -/
def PeerRecord.excludedWith (r : PeerRecord) (rounds : Nat) : PeerRecord :=
  { r with
    state := .excluded, missed := 0, stale := 0, leanDisagree := 0, speedDisagree := 0, steerDisagree := 0, recover := 0
    absentRounds := rounds, exclusions := min 15 (r.exclusions + 1) }

theorem isTaken_iff (x : PeerState) : isTaken x = true ↔ x = .joining ∨ x = .present ∨ x = .suspect := by
  cases x <;> decide

theorem excludedAt_absent_set (absent : r.state = .absent) (within : joining = true → refused = false → bit = true)
    (set : bit = true) :
    r.handedOver true bit joining refused = r.excludedWith (r.absentAfter bit refused) := by
  rw [handedOver_named, lostAt_countAbsent_absent absent within, countAbsent_eq]
  simp [PeerRecord.excludedAt, PeerRecord.toExcluded, PeerRecord.excludedWith, absent, set, isTaken, succSat]

theorem excludedAt_absent_clear (absent : r.state = .absent) (within : joining = true → refused = false → bit = true)
    (clear : bit = false) :
    r.handedOver true bit joining refused =
      { r with absentRounds := r.absentAfter bit refused, exclusions := min 15 (r.exclusions + 1) } := by
  rw [handedOver_named, lostAt_countAbsent_absent absent within, countAbsent_absent absent within clear]
  simp [PeerRecord.excludedAt, absent, clear, isTaken, succSat]

theorem handedOver_taken_kept (taken : isTaken r.state = true) (early : r.absentAfter bit refused < 3) :
    r.handedOver false bit joining refused = { r with absentRounds := r.absentAfter bit refused }
      ∧ r.handedOver true bit joining refused = r.excludedWith (r.absentAfter bit refused) := by
  have known : r.state ≠ .absent ∧ r.state ≠ .excluded := by
    rcases (isTaken_iff _).mp taken with is | is | is <;> simp [is]
  have kept : (countAbsent r bit joining refused).lostAt = { r with absentRounds := r.absentAfter bit refused } := by
    rw [countAbsent_known known.1]
    exact lostAt_not_full early
  rw [handedOver_not_named, handedOver_named, kept]
  refine ⟨rfl, ?_⟩
  simp [PeerRecord.excludedAt, PeerRecord.toExcluded, PeerRecord.excludedWith, known, taken, succSat]

theorem handedOver_taken_lost (taken : isTaken r.state = true) (full : r.absentAfter bit refused = 3) :
    r.handedOver false bit joining refused = r.toAbsent
      ∧ r.handedOver true bit joining refused = { r.toAbsent with exclusions := min 15 (r.exclusions + 1) } := by
  have known : r.state ≠ .absent ∧ r.state ≠ .excluded := by
    rcases (isTaken_iff _).mp taken with is | is | is <;> simp [is]
  have lost : (countAbsent r bit joining refused).lostAt = r.toAbsent := by
    rw [countAbsent_known known.1]
    exact lostAt_full (full ▸ Nat.le_refl 3) (.inl taken)
  rw [handedOver_not_named, handedOver_named, lost]
  refine ⟨rfl, ?_⟩
  simp [PeerRecord.excludedAt, PeerRecord.toAbsent, PeerRecord.reset, known, succSat]

/-- An EXCLUDED record is not excluded again. -/
theorem handedOver_excluded (is : r.state = .excluded) (named : Bool) :
    r.handedOver named bit joining refused = (countAbsent r bit joining refused).lostAt := by
  cases named
  · rfl
  · rw [handedOver_named]
    exact if_pos is

theorem handedOver_excluded_kept (is : r.state = .excluded) (early : r.absentAfter bit refused < 3) (named : Bool) :
    r.handedOver named bit joining refused = { r with absentRounds := r.absentAfter bit refused } := by
  rw [handedOver_excluded is, countAbsent_known (by simp [is])]
  exact lostAt_not_full early

theorem handedOver_excluded_lost (is : r.state = .excluded) (full : r.absentAfter bit refused = 3) (named : Bool) :
    r.handedOver named bit joining refused = r.toAbsent := by
  rw [handedOver_excluded is, countAbsent_known (by simp [is])]
  exact lostAt_full (full ▸ Nat.le_refl 3) (.inr is)

end

end Sys2Proof.Machine
end

