-- ==== Sys2Proof/Proofs/GroupWorkRules.lean ====
section
/-! The authority handover of a live table, group by group, by what it reads (R145, R148). -/

namespace Sys2Proof.Machine

/-- The stations agree in what the work on a group reads beside the table. -/
structure Station.SameParties (s t : Station) : Prop where
  loader : t.loader = s.loader
  params : t.params = s.params
  peers : t.peers = s.peers
  held : t.bus.held = s.bus.held
  state : t.member.state = s.member.state

theorem Station.SameParties.number {s t : Station} (h : s.SameParties t) : t.number = s.number := by
  rw [Station.number, h.loader, Station.number]

theorem Station.SameParties.usable {s t : Station} (h : s.SameParties t) (k : StationNo) : t.usable k = s.usable k := by
  rw [Station.usable, h.peers, Station.usable]

theorem Station.SameParties.roleOf {s t : Station} (h : s.SameParties t) (k : StationNo) : t.roleOf k = s.roleOf k := by
  rw [Station.roleOf, h.number, h.params, h.peers, Station.roleOf]

/-- The inputs of a group's handover are those of the other station. -/
theorem Station.SameParties.groupInputs {s t : Station} (h : s.SameParties t) (g : Group) (applied : Option DecisionRecord) :
    t.groupInputs g applied = s.groupInputs g applied := by
  have party : t.isParty = s.isParty := funext fun k => by rw [Station.isParty, h.usable, h.number, Station.isParty]
  have sender : t.isSender = s.isSender := funext fun k => by
    rw [Station.isSender, h.usable, h.number, h.state, Station.isSender]
  have responses : t.responsesFor g applied = s.responsesFor g applied := by
    unfold Station.responsesFor
    rw [sender]
  have claimant : t.claimantFor g = s.claimantFor g := by
    unfold Station.claimantFor Station.takesClaims
    simp only [h.held, h.usable, h.number, h.state, h.roleOf]
  have stopped : t.stopped = s.stopped := by unfold Station.stopped; rw [h.held]
  unfold Station.groupInputs
  rw [party, responses, stopped, claimant]

/-- Views fit the same at both stations. -/
theorem Station.SameParties.viewFits {s t : Station} (h : s.SameParties t) (g : Group) (S : StationSet) :
    t.viewFits g S = s.viewFits g S := by
  unfold Station.viewFits
  simp only [h.usable, h.number, h.roleOf]

/-- The authority table after an applied entry depends on the parties, the table and the engine's run state. -/
theorem Station.SameParties.adopt_auth {s t : Station} (h : s.SameParties t) (auth : t.auth = s.auth)
    (run : t.engine.run = s.engine.run) (entry : Option AdoptionEntry) : (t.adopt entry).auth = (s.adopt entry).auth := by
  cases entry with
  | none => exact auth
  | some a =>
    have taken : t.takesEntry a ↔ s.takesEntry a := by unfold Station.takesEntry; rw [h.state, run, h.params]
    by_cases takes : s.takesEntry a
    · rw [Station.adopt_taken takes, Station.adopt_taken (taken.mpr takes)]
      by_cases fits : s.viewFits .tilt a.tiltHolders = true ∧ s.viewFits .steer a.steerHolders = true
      · have fits' : t.viewFits .tilt a.tiltHolders = true ∧ t.viewFits .steer a.steerHolders = true := by
          rwa [h.viewFits, h.viewFits]
        rw [Station.takeView_taken (s := { s with engine := s.engine.adopting s.params.shared a }) fits,
          Station.takeView_taken (s := { t with engine := t.engine.adopting t.params.shared a }) fits', auth]
      · have misfits : ¬(t.viewFits .tilt a.tiltHolders = true ∧ t.viewFits .steer a.steerHolders = true) := by
          rwa [h.viewFits, h.viewFits]
        rw [Station.takeView_refused (s := { s with engine := s.engine.adopting s.params.shared a }) fits,
          Station.takeView_refused (s := { t with engine := t.engine.adopting t.params.shared a }) misfits]
        exact auth
    · rw [Station.adopt_not_taken takes, Station.adopt_not_taken (mt taken.mp takes), auth]

/-- The retry state after a group's work depends on the retry state before and the own number. -/
theorem Station.commitGroup_retry_congr {s t : Station} {g : Group} (number : t.number = s.number)
    (retry : t.auth.retry g = s.auth.retry g) (w : GroupWork) :
    (t.commitGroup g w).auth.retry g = (s.commitGroup g w).auth.retry g := by
  by_cases own : ∃ code, w.closed = some (s.number, code)
  · obtain ⟨code, closed⟩ := own
    have closed' : w.closed = some (t.number, code) := by rw [number, closed]
    by_cases complete : code = .complete
    · subst complete
      rw [(Station.commitGroup_complete closed).1, (Station.commitGroup_complete closed').1, retry]
    · rw [(Station.commitGroup_failed closed complete).1, (Station.commitGroup_failed closed' complete).1, retry]
  · have apart : ∀ c code, w.closed = some (c, code) → c ≠ s.number := fun c code closed same => own ⟨code, same ▸ closed⟩
    rw [(Station.commitGroup_kept apart).1, (Station.commitGroup_kept (s := t) (by rwa [number])).1, retry]

theorem Station.commitGroup_group_congr {s t : Station} {g : Group} (group : t.auth.group g = s.auth.group g) (w : GroupWork) :
    (t.commitGroup g w).auth.group g = (s.commitGroup g w).auth.group g := by
  obtain ⟨-, -, record, -⟩ := s.commitGroup_parts g w
  obtain ⟨-, -, record', -⟩ := t.commitGroup_parts g w
  rw [record, record', group]

theorem Station.commitGroup_sameParties (s : Station) (g : Group) (w : GroupWork) : s.SameParties (s.commitGroup g w) := by
  obtain ⟨parts, -⟩ := s.commitGroup_parts g w
  rw [parts]
  exact ⟨rfl, rfl, rfl, rfl, rfl⟩

theorem Station.authorityHandover_of_rest {s : Station} (rest : s.auth.live = false) (applied : Option DecisionRecord) :
    s.authorityHandover applied = s := if_neg (by rw [rest]; decide)

/-- A live table stays live, and each group is worked from what the station reads before the handover. -/
theorem Station.authorityHandover_groups {s : Station} (live : s.auth.live = true) (applied : Option DecisionRecord) :
    (s.authorityHandover applied).auth.live = true ∧ ∀ g : Group,
      let work := groupHandover (s.groupInputs g applied) (s.auth.group g)
      (s.authorityHandover applied).auth.group g = (s.commitGroup g work).auth.group g
        ∧ (s.authorityHandover applied).auth.retry g = (s.commitGroup g work).auth.retry g := by
  have handover : s.authorityHandover applied = ((s.groupWork applied .tilt).groupWork applied .steer).groupConds :=
    if_pos live
  obtain ⟨auth, -⟩ : ((s.groupWork applied .tilt).groupWork applied .steer).groupConds.auth =
    ((s.groupWork applied .tilt).groupWork applied .steer).auth ∧ True := ⟨by simp only [Station.groupConds_frame], trivial⟩
  rw [handover, auth]
  obtain ⟨-, live₁, -, group₁, retry₁⟩ :=
    s.commitGroup_parts .tilt (groupHandover (s.groupInputs .tilt applied) (s.auth.group .tilt))
  have same := s.commitGroup_sameParties .tilt (groupHandover (s.groupInputs .tilt applied) (s.auth.group .tilt))
  unfold Station.groupWork
  obtain ⟨u, is⟩ : ∃ u, u = s.commitGroup .tilt (groupHandover (s.groupInputs .tilt applied) (s.auth.group .tilt)) := ⟨_, rfl⟩
  rw [← is] at live₁ group₁ retry₁ same ⊢
  rw [same.groupInputs, show u.auth.group .steer = s.auth.group .steer from group₁]
  obtain ⟨-, live₂, -, group₂, retry₂⟩ :=
    u.commitGroup_parts .steer (groupHandover (s.groupInputs .steer applied) (s.auth.group .steer))
  refine ⟨live₂.trans (live₁.trans live), fun g => ?_⟩
  cases g with
  | tilt =>
    dsimp only
    rw [← is]
    exact ⟨group₂, retry₂⟩
  | steer => exact ⟨Station.commitGroup_group_congr group₁ _, Station.commitGroup_retry_congr same.number retry₁ _⟩

end Sys2Proof.Machine
end

