-- ==== Sys2Proof/Proofs/TakeTallyRules.lean ====
section
/-! What the handover leaves in each unit: the bus, the conditions, the peer table, the authority table and the station state
(R15, R16, R82 to R84, R136, R145, R158). -/

namespace Sys2Proof.Machine

/-! ## The bus -/

/-- The own claim result of a handover (R35). -/
theorem Station.takeTally_bus_values (s : Station) (wire : BitVec 70) :
    (s.takeTally wire).bus =
      { s.bus with
        held := resolveTally (isDriving s.member.state) s.number wire, wireRead := wire
        claimResult :=
          claimResultOf s.number (droveClaim s.bus.round.image) (resolveTally (isDriving s.member.state) s.number wire).claim
        ownSig := none, pendingRecord := none
        round := { s.bus.round with handed := true } } := by
  obtain ⟨-, loader, -, bus, member, -⟩ := s.readBackTally_frame wire
  rw [Station.takeTally_bus]
  simp only [Station.takeOutcomes, Station.number, loader, member, bus]

theorem Station.handover_bus_of_not_silenced {s : Station} {wire : BitVec 70} (not : s.silencedBy wire = false) :
    (s.handover wire).bus = (s.takeTally wire).bus := by
  rw [Station.handover_of_not_silenced not]
  simp only [Station.lockEntry_frame, Station.joinHandover_frame]

theorem Station.handover_bus_of_silenced {s : Station} {wire : BitVec 70} (silenced : s.silencedBy wire = true) :
    ∃ cut, (s.handover wire).bus = (s.takeTally wire).bus.atSilent cut := by
  rw [Station.handover_of_silenced silenced]
  simp only [Station.groupConds_frame, Station.enterSilent_bus]
  exact ⟨_, rfl⟩

/-- The units that no move of the station state touches. -/
theorem Station.handover_frame (s : Station) (wire : BitVec 70) :
    (s.handover wire).pins = s.pins ∧ (s.handover wire).loader = s.loader ∧ (s.handover wire).params = s.params
      ∧ (s.handover wire).peers = (s.takeTally wire).peers ∧ (s.handover wire).engine = (s.takeTally wire).engine := by
  refine ⟨?_, ?_, ?_, ?_, s.handover_engine wire⟩ <;> cases silenced : s.silencedBy wire
  · rw [Station.handover_of_not_silenced silenced]; simp
  · rw [Station.handover_of_silenced silenced]; simp
  · rw [Station.handover_of_not_silenced silenced]; simp
  · rw [Station.handover_of_silenced silenced]; simp
  · rw [Station.handover_of_not_silenced silenced]; simp
  · rw [Station.handover_of_silenced silenced]; simp
  · rw [Station.handover_of_not_silenced silenced]; simp
  · rw [Station.handover_of_silenced silenced]; simp

/-! ## The conditions -/

/-- The bits driven and not read back raise BUS_FAULT, and SPLIT_VIEW follows the split count (R15, R136). -/
theorem Station.counted_cond (s : Station) (wire : BitVec 70) :
    (s.counted wire).cond =
      setCond (s.readBackTally wire).cond
        (decide (3 ≤ splitAfter (resolveTally (isDriving s.member.state) s.number wire).roundClass s.engine.splitCount))
        { code := .splitView, source := 0 } 2 := by
  have held := s.takeOutcomes_held wire
  obtain ⟨-, -, -, -, -, -, -, engine, -⟩ := s.readBackTally_frame wire
  obtain ⟨-, -, -, -, -, -, engine', -, -, cond⟩ := (s.readBackTally wire).takeOutcomes_frame wire
  obtain ⟨u, is⟩ : ∃ u, u = (s.readBackTally wire).takeOutcomes wire := ⟨_, rfl⟩
  have split : u.countSplit.engine.splitCount =
      splitAfter (resolveTally (isDriving s.member.state) s.number wire).roundClass s.engine.splitCount := by
    rw [Station.countSplit_engine, is, held, engine', engine]
  rw [← split, ← cond, ← is]
  unfold Station.counted
  rw [← is]
  rfl

theorem Station.worked_judged (s : Station) (wire : BitVec 70) : (s.counted wire).Worked isHandoverCode (s.judged wire) := by
  have judged := Station.worked_forPeers (fun t k => t.worked_peerHandover (exclusionsOf (s.appliedAt wire)) k)
    { s.counted wire with bus := { (s.counted wire).bus with pendingRecord := none } }
  unfold Station.judged Station.peersHandover
  exact judged

/-- The work of the outcomes after the split count. -/
theorem Station.worked_takeTally (s : Station) (wire : BitVec 70) :
    (s.counted wire).Worked isHandoverCode (s.takeTally wire) := by
  rw [Station.takeTally_eq]
  exact (s.worked_judged wire).trans ((Station.worked_adopt _ _).trans (Station.worked_authorityHandover _ _))

/-- The bits driven dominant that the wire reads recessive (R15). -/
def Station.faults (s : Station) (wire : BitVec 70) : Nat :=
  match s.bus.round.image with
  | some image => notReadBack (tallyLevels s.number image wire)
  | none => 0

theorem Station.readBackTally_eq (s : Station) (wire : BitVec 70) :
    s.readBackTally wire = s.raiseTimes .busFault 1 (s.faults wire) := by
  unfold Station.readBackTally Station.faults
  cases s.bus.round.image <;> rfl

/-- The record of the bits not read back stands in the queue after the handover (R15, R177). -/
theorem Station.handover_busFault {s : Station} {wire : BitVec 70} (some_ : 0 < s.faults wire)
    (new : ∀ r ∈ s.cond.queue, r.key ≠ { code := .busFault, source := 1 }) (room : s.cond.queue.length < 8) :
    { key := { code := .busFault, source := 1 }, count := min 15 (s.faults wire) } ∈ (s.handover wire).cond.queue := by
  have raised := Station.raiseTimes_new some_ new room
  rw [← Station.readBackTally_eq] at raised
  have split : { key := { code := .busFault, source := 1 }, count := min 15 (s.faults wire) } ∈ (s.counted wire).cond.queue := by
    rw [Station.counted_cond]
    exact setCond_keeps raised (k := { code := .splitView, source := 0 }) nofun _ _
  have worked := (s.worked_takeTally wire).trans (s.worked_handover wire)
  exact worked.keeps (show ¬isHandoverCode .busFault by decide) split

theorem Station.readBackTally_tableSound {s : Station} (sound : s.cond.tableSound) (wire : BitVec 70) :
    (s.readBackTally wire).cond.tableSound := by
  rw [Station.readBackTally_eq]
  exact (s.follows_raiseTimes (touched := fun _ => False) rfl 1 _).sound sound

theorem Station.counted_tableSound {s : Station} (sound : s.cond.tableSound) (wire : BitVec 70) :
    (s.counted wire).cond.tableSound := by
  rw [Station.counted_cond]
  exact setCond_tableSound (Station.readBackTally_tableSound sound wire) _ _ _

theorem Station.takeTally_tableSound {s : Station} (sound : s.cond.tableSound) (wire : BitVec 70) :
    (s.takeTally wire).cond.tableSound :=
  (s.worked_takeTally wire).follows.sound (Station.counted_tableSound sound wire)

/-- SPLIT_VIEW stands as the split count says after the handover (R136). -/
theorem Station.handover_splitView {s : Station} (sound : s.cond.tableSound) (wire : BitVec 70) :
    isHeld (s.handover wire).cond { code := .splitView, source := 0 } =
      decide (3 ≤ splitAfter (resolveTally (isDriving s.member.state) s.number wire).roundClass s.engine.splitCount) := by
  have read := Station.readBackTally_tableSound sound wire
  have counted := Station.counted_tableSound sound wire
  have worked := (s.worked_takeTally wire).trans (s.worked_handover wire)
  rw [worked.follows.held counted _ rfl (by decide), Station.counted_cond, isHeld_setCond read.keysOnce _ _ rfl, if_pos rfl]

/-! ## The authority table -/

/-- The table after the outcomes, from the station with the outcomes taken and the peer table judged. -/
theorem Station.takeTally_auth (s : Station) (wire : BitVec 70) :
    let seen : Station :=
      { s with
        bus := { s.bus with held := resolveTally (isDriving s.member.state) s.number wire }, peers := (s.takeTally wire).peers }
    let took := seen.adopt ((s.appliedAt wire).bind (·.adoption))
    (took.auth.live = false → (s.takeTally wire).auth = took.auth)
      ∧ (took.auth.live = true → (s.takeTally wire).auth.live = true ∧ ∀ g : Group,
          let work := groupHandover (seen.groupInputs g (s.appliedAt wire)) (took.auth.group g)
          (s.takeTally wire).auth.group g = (took.commitGroup g work).auth.group g
            ∧ (s.takeTally wire).auth.retry g = (took.commitGroup g work).auth.retry g) := by
  intro seen took
  have taken := s.takeTally_eq wire
  obtain ⟨-, loader, params, -, auth, -, member, bus, engine⟩ := s.judged_parts wire
  have held : (s.judged wire).bus.held = resolveTally (isDriving s.member.state) s.number wire := by
    rw [bus]
    exact s.takeOutcomes_held wire
  obtain ⟨j, is⟩ : ∃ j, j = (s.judged wire).adopt ((s.appliedAt wire).bind (·.adoption)) := ⟨_, rfl⟩
  obtain ⟨-, loader', params', bus', peers', -⟩ := (s.judged wire).adopt_frame ((s.appliedAt wire).bind (·.adoption))
  have member' := (s.judged wire).adopt_member ((s.appliedAt wire).bind (·.adoption))
  rw [← is] at taken loader' params' bus' peers' member'
  have peers : (s.takeTally wire).peers = (s.judged wire).peers := by
    rw [taken, ← peers']
    simp only [Station.authorityHandover_frame]
  have judged : seen.SameParties (s.judged wire) := ⟨loader, params, peers.symm, held, by rw [member]⟩
  have adopted : seen.SameParties j :=
    ⟨loader'.trans loader, params'.trans params, peers'.trans peers.symm, (congrArg BusUnit.held bus').trans held,
      by rw [member', member]⟩
  have table : took.auth = j.auth := by
    rw [is]
    exact (judged.adopt_auth auth (by rw [engine]) _).symm
  have number : took.number = j.number := by
    rw [adopted.number]
    exact congrArg Loader.straps (seen.adopt_frame ((s.appliedAt wire).bind (·.adoption))).2.1
  rw [taken, table]
  refine ⟨fun rest => by rw [Station.authorityHandover_of_rest rest], fun live => ?_⟩
  obtain ⟨live', groups⟩ := Station.authorityHandover_groups live (s.appliedAt wire)
  refine ⟨live', fun g => ?_⟩
  obtain ⟨record, retry⟩ := groups g
  dsimp only at record retry ⊢
  rw [record, retry, adopted.groupInputs]
  exact ⟨Station.commitGroup_group_congr (by rw [table]) _,
    Station.commitGroup_retry_congr number.symm (by rw [table]) _⟩

/-! ## The station state -/

theorem Station.adopt_kept (s : Station) (entry : Option AdoptionEntry) :
    (s.adopt entry).member.keptOwnMatch = s.member.keptOwnMatch := by
  rw [Station.adopt_member]

/-- The own match kept of an agreed round (R38). -/
theorem Station.takeTally_kept (s : Station) (wire : BitVec 70) :
    (s.takeTally wire).member.keptOwnMatch =
      if (resolveTally (isDriving s.member.state) s.number wire).roundClass = .agreed then
        s.bus.ownSig.isSome && decide (s.bus.ownSig = (resolveTally (isDriving s.member.state) s.number wire).agreedSig)
      else s.member.keptOwnMatch := by
  have held := s.takeOutcomes_held wire
  obtain ⟨-, -, -, bus₁, member₁, -⟩ := s.readBackTally_frame wire
  obtain ⟨-, -, -, member₂, -⟩ := (s.readBackTally wire).takeOutcomes_frame wire
  obtain ⟨-, -, -, bus₃, member₃, -⟩ := ((s.readBackTally wire).takeOutcomes wire).countSplit_frame
  have sig : ((s.readBackTally wire).takeOutcomes wire).bus.ownSig = s.bus.ownSig := by rw [← bus₁]; rfl
  have counted : (s.counted wire).member.keptOwnMatch =
      if (resolveTally (isDriving s.member.state) s.number wire).roundClass = .agreed then
        s.bus.ownSig.isSome && decide (s.bus.ownSig = (resolveTally (isDriving s.member.state) s.number wire).agreedSig)
      else s.member.keptOwnMatch := by
    unfold Station.counted Station.takeOwnMatch
    dsimp only
    rw [bus₃, member₃, member₂, member₁, held, sig]
  obtain ⟨-, -, -, -, member, -⟩ := Station.peersHandover_frame
    { s.counted wire with bus := { (s.counted wire).bus with pendingRecord := none } } (exclusionsOf (s.appliedAt wire))
  rw [← counted, Station.takeTally_eq]
  obtain ⟨-, -, -, -, member', -⟩ := Station.authorityHandover_frame
    ((s.judged wire).adopt ((s.appliedAt wire).bind (·.adoption))) (s.appliedAt wire)
  have judged : (s.judged wire).member = (s.counted wire).member := by
    unfold Station.judged
    rw [member]
  rw [member', Station.adopt_kept, judged]

theorem Station.joinHandover_auth (s : Station) :
    s.joinHandover.auth = { s.auth with live := s.joinHandover.auth.live } := by
  unfold Station.joinHandover
  split
  · dsimp only
    split
    · rw [(Station.enterMember_values _).2]
    · rfl
  · rfl

/-- A station that the round leaves out keeps its table and its conditions. -/
theorem Station.joinHandover_stays {s : Station} (not : s.member.state = .join → s.joinHandover.member.state ≠ .member) :
    s.joinHandover.auth = s.auth ∧ s.joinHandover.cond = s.cond := by
  by_cases join : s.member.state = .join
  · obtain ⟨u, is⟩ : ∃ u : Station, u = { s with member := { s.member with joinRounds := succSat 255 s.member.joinRounds } } :=
      ⟨_, rfl⟩
    have handover : s.joinHandover = if u.joinConditions = true then u.enterMember else u := by
      rw [is]
      exact if_pos join
    by_cases met : u.joinConditions = true
    · refine absurd ?_ (not join)
      rw [handover, if_pos met, u.enterMember_values.1]
    · rw [handover, if_neg met, is]
      exact ⟨rfl, rfl⟩
  · rw [show s.joinHandover = s from if_neg join]
    exact ⟨rfl, rfl⟩

theorem Station.joinHandover_state_of_not_join {s : Station} (not : s.member.state ≠ .join) : s.joinHandover = s := if_neg not

/-- The group conditions read the table, the parties and the own state's part in them. -/
theorem Station.groupCondsStand_congr {s t : Station} (h : s.groupCondsStand) (same : s.SameParties t) (auth : t.auth = s.auth)
    (cond : t.cond = s.cond) : t.groupCondsStand := by
  unfold Station.groupCondsStand at h ⊢
  simp only [auth, cond, same.state, same.params, same.number, same.usable, same.roleOf]
  exact h

/-- The group conditions of a live table stand after the outcomes (R158). -/
theorem Station.authorityHandover_stand {s : Station} (applied : Option DecisionRecord)
    (live : (s.authorityHandover applied).auth.live = true) (sound : s.cond.tableSound) :
    (s.authorityHandover applied).groupCondsStand := by
  by_cases alive : s.auth.live = true
  · have handover : s.authorityHandover applied = ((s.groupWork applied .tilt).groupWork applied .steer).groupConds :=
      if_pos alive
    have worked : s.Worked isHandoverCode ((s.groupWork applied .tilt).groupWork applied .steer) :=
      (s.worked_commitGroup .tilt _).trans (Station.worked_commitGroup _ .steer _)
    rw [handover] at live ⊢
    simp only [Station.groupConds_frame] at live
    exact Station.groupConds_stand live (worked.follows.sound sound)
  · rw [Station.authorityHandover_of_rest (by simpa using alive)] at live
    exact absurd live alive

theorem Station.takeTally_stand {s : Station} {wire : BitVec 70} (live : (s.takeTally wire).auth.live = true)
    (sound : s.cond.tableSound) : (s.takeTally wire).groupCondsStand := by
  have judged : ((s.judged wire).adopt ((s.appliedAt wire).bind (·.adoption))).cond.tableSound :=
    ((s.worked_judged wire).trans (Station.worked_adopt _ _)).follows.sound (Station.counted_tableSound sound wire)
  rw [Station.takeTally_eq] at live ⊢
  exact Station.authorityHandover_stand _ live judged

theorem Station.enterMember_stand {s : Station} (sound : s.cond.tableSound) : s.enterMember.groupCondsStand := by
  unfold Station.enterMember Station.makeLive
  refine Station.groupConds_stand rfl ?_
  exact setCond_tableSound sound false { code := .configDiffers, source := 8 } 1

theorem Station.joinHandover_stand {s : Station} (live : s.joinHandover.auth.live = true) (sound : s.cond.tableSound)
    (before : s.auth.live = true → s.groupCondsStand) : s.joinHandover.groupCondsStand := by
  by_cases join : s.member.state = .join
  · obtain ⟨u, is⟩ : ∃ u : Station, u = { s with member := { s.member with joinRounds := succSat 255 s.member.joinRounds } } :=
      ⟨_, rfl⟩
    have handover : s.joinHandover = if u.joinConditions = true then u.enterMember else u := by
      rw [is]
      exact if_pos join
    rw [handover] at live ⊢
    by_cases met : u.joinConditions = true
    · rw [if_pos met]
      exact Station.enterMember_stand (by rw [is]; exact sound)
    · rw [if_neg met] at live ⊢
      rw [is] at live ⊢
      exact Station.groupCondsStand_congr (before live) ⟨rfl, rfl, rfl, rfl, rfl⟩ rfl rfl
  · rw [Station.joinHandover_state_of_not_join join] at live ⊢
    exact before live

/-- The group conditions of a live table stand after the handover (R158; log 33). -/
theorem Station.handover_stand {s : Station} {wire : BitVec 70} (live : (s.handover wire).auth.live = true)
    (sound : s.cond.tableSound) : (s.handover wire).groupCondsStand := by
  have taken := Station.takeTally_tableSound sound wire
  cases silenced : s.silencedBy wire
  · rw [Station.handover_of_not_silenced silenced] at live ⊢
    obtain ⟨-, loader, params, bus, member, peers, -, -, auth, cond⟩ := (s.takeTally wire).joinHandover.lockEntry_frame
    rw [auth] at live
    have joined := Station.joinHandover_stand live taken fun live => Station.takeTally_stand live sound
    exact Station.groupCondsStand_congr joined ⟨loader, params, peers, by rw [bus], by rw [member]⟩ auth cond
  · rw [Station.handover_of_silenced silenced] at live ⊢
    simp only [Station.groupConds_frame] at live
    exact Station.groupConds_stand live ((Station.worked_enterSilent _).follows.sound taken)

end Sys2Proof.Machine
end

