-- ==== Sys2Proof/Proofs/HandoverParts.lean ====
section
/-! The parts of O19: the records, the table, the station state, and a round abandoned before its handover. Settles O19. -/

namespace Sys2Proof.Machine

/-! ## The records (R82 to R84) -/

/-- The bit of a record that is not refused (R84). -/
def Station.bitAt (s : Station) (wire : BitVec 70) (k : StationNo) : Bool :=
  inSet (resolveTally (isDriving s.member.state) s.number wire).members k && !s.refused k

theorem resolveTally_joining_within (driving : Bool) (own : StationNo) (wire : BitVec 70) (k : StationNo)
    (joins : inSet (resolveTally driving own wire).joining k = true) :
    inSet (resolveTally driving own wire).members k = true := by
  have both : inSet (resolveTally driving own wire).joining k =
      (inSet (bitmapOf (tallyField wire 18 8)) k && inSet (resolveTally driving own wire).members k) := inSet_and _ _ k
  rw [both, Bool.and_eq_true] at joins
  exact joins.2

/-- What a record's handover reads, at the station with the outcomes counted. -/
theorem Station.counted_reads (s : Station) (wire : BitVec 70) :
    (s.counted wire).peers = s.peers ∧ (s.counted wire).loader = s.loader
      ∧ (∀ k, (s.counted wire).bitTaken k = s.bitAt wire k) ∧ (∀ k, (s.counted wire).refused k = s.refused k)
      ∧ (s.counted wire).bus.held = resolveTally (isDriving s.member.state) s.number wire := by
  have held := s.takeOutcomes_held wire
  obtain ⟨-, l₁, r₁, -, -, p₁, -⟩ := s.readBackTally_frame wire
  obtain ⟨-, l₂, r₂, -, p₂, -⟩ := (s.readBackTally wire).takeOutcomes_frame wire
  obtain ⟨-, l₃, r₃, b₃, -, p₃, -⟩ := ((s.readBackTally wire).takeOutcomes wire).countSplit_frame
  have peers : (s.counted wire).peers = s.peers := p₃.trans (p₂.trans p₁)
  have params : (s.counted wire).params = s.params := r₃.trans (r₂.trans r₁)
  have held' : (s.counted wire).bus.held = resolveTally (isDriving s.member.state) s.number wire := by
    rw [Station.counted_bus]
    exact held
  have refused (k : StationNo) : (s.counted wire).refused k = s.refused k := by
    rw [Station.refused, peers, params, Station.refused]
  refine ⟨peers, l₃.trans (l₂.trans l₁), fun k => ?_, refused, held'⟩
  rw [Station.bitTaken, Station.membersBit, refused, held', Station.bitAt]

theorem Station.takeTally_peers (s : Station) (wire : BitVec 70) : (s.takeTally wire).peers = (s.judged wire).peers := by
  rw [Station.takeTally_eq]
  simp only [Station.authorityHandover_frame, Station.adopt_frame]

/-- A record after the handover. -/
theorem Station.takeTally_record {s : Station} (wire : BitVec 70) {k : StationNo} (other : k ≠ s.number) :
    (s.takeTally wire).peers.get k =
      (s.peers.get k).handedOver (inSet (exclusionsOf (s.appliedAt wire)) k) (s.bitAt wire k)
        (inSet (resolveTally (isDriving s.member.state) s.number wire).joining k) (s.refused k) := by
  obtain ⟨peers, loader, bit, refused, held⟩ := s.counted_reads wire
  rw [Station.takeTally_peers, ← bit, ← refused, ← held, ← peers]
  exact Station.peersHandover_get (s := { s.counted wire with bus := { (s.counted wire).bus with pendingRecord := none } }) _
    (by rwa [Station.number, loader])

theorem Station.takeTally_own (s : Station) (wire : BitVec 70) :
    (s.takeTally wire).peers.get s.number = s.peers.get s.number := by
  obtain ⟨peers, loader, -⟩ := s.counted_reads wire
  have own := Station.peersHandover_own { s.counted wire with bus := { (s.counted wire).bus with pendingRecord := none } }
    (exclusionsOf (s.appliedAt wire))
  rw [Station.takeTally_peers]
  rw [show ({ s.counted wire with bus := { (s.counted wire).bus with pendingRecord := none } } : Station).number = s.number from
    congrArg Loader.straps loader] at own
  refine own.trans ?_
  exact congrArg (fun p : Eight PeerRecord => p.get s.number) peers

/-- The raises of a record's handover are told after the whole handover. -/
theorem Station.handover_told_excluded {s : Station} {wire : BitVec 70} {k : StationNo} (other : k ≠ s.number)
    (named : inSet (exclusionsOf (s.appliedAt wire)) k = true) (apart : (s.peers.get k).state ≠ .excluded) :
    (s.handover wire).cond.told { code := .peerExcluded, source := k.val } := by
  obtain ⟨peers, loader, -⟩ := s.counted_reads wire
  have told := Station.peersHandover_told_excluded
    (s := { s.counted wire with bus := { (s.counted wire).bus with pendingRecord := none } })
    (by rwa [Station.number, loader]) named (by rwa [peers])
  have rest : (s.judged wire).Worked isHandoverCode (s.takeTally wire) := by
    rw [Station.takeTally_eq]
    exact (Station.worked_adopt _ _).trans (Station.worked_authorityHandover _ _)
  exact (rest.trans (s.worked_handover wire)).follows.told _ told

theorem Station.handover_told_lost {s : Station} {wire : BitVec 70} {k : StationNo} (other : k ≠ s.number)
    (taken : isTaken (s.peers.get k).state = true)
    (full : (s.peers.get k).absentAfter (s.bitAt wire k) (s.refused k) = 3) :
    (s.handover wire).cond.told { code := .peerLost, source := k.val } := by
  obtain ⟨peers, loader, bit, refused, held⟩ := s.counted_reads wire
  have known : (s.peers.get k).state ≠ .absent := by
    rcases (isTaken_iff _).mp taken with is | is | is <;> simp [is]
  have counts : countAbsent ((s.counted wire).peers.get k) ((s.counted wire).bitTaken k)
      (inSet (s.counted wire).bus.held.joining k) ((s.counted wire).refused k) =
        { s.peers.get k with absentRounds := (s.peers.get k).absentAfter (s.bitAt wire k) (s.refused k) } := by
    rw [peers, bit, refused]
    exact countAbsent_known known
  have told := Station.peersHandover_told_lost (named := exclusionsOf (s.appliedAt wire))
    (s := { s.counted wire with bus := { (s.counted wire).bus with pendingRecord := none } }) (k := k)
    (by rwa [Station.number, loader]) ((congrArg (fun r : PeerRecord => isTaken r.state) counts).trans taken)
    (Nat.le_of_eq ((congrArg PeerRecord.absentRounds counts).trans full).symm)
  have rest : (s.judged wire).Worked isHandoverCode (s.takeTally wire) := by
    rw [Station.takeTally_eq]
    exact (Station.worked_adopt _ _).trans (Station.worked_authorityHandover _ _)
  exact (rest.trans (s.worked_handover wire)).follows.told _ told

/-- A record after the whole handover, by its state, its bits and whether the applied record names it. -/
theorem Station.handover_records {s : Station} {wire : BitVec 70} {k : StationNo} (other : k ≠ s.number) {named : Prop}
    (names : named ↔ inSet (exclusionsOf (s.appliedAt wire)) k = true) :
    let y := s.handover wire
    let h := resolveTally (isDriving s.member.state) s.number wire
    let r := s.peers.get k
    let refused := decide (s.params.shared.rejoinMax < r.exclusions)
    let bit := inSet h.members k && !refused
    let state := if r.state = .absent ∧ inSet h.joining k = true ∧ refused = false then .joining else r.state
    let rounds := r.absentAfter bit refused
    let taken : Prop := r.state = .joining ∨ r.state = .present ∨ r.state = .suspect
    let counted : Nat := min 15 (r.exclusions + 1)
    let gone : Nat → PeerRecord := fun n => { PeerRecord.reset r.rosterRole with exclusions := n }
    (r.state = .absent → ¬named → y.peers.get k = { r with absentRounds := rounds, state := state })
      ∧ (r.state = .absent → named → bit = true → y.peers.get k = r.excludedWith rounds)
      ∧ (r.state = .absent → named → bit = false →
          y.peers.get k = { r with absentRounds := rounds, exclusions := counted })
      ∧ (taken → rounds < 3 → ¬named → y.peers.get k = { r with absentRounds := rounds })
      ∧ (taken → rounds < 3 → named → y.peers.get k = r.excludedWith rounds)
      ∧ (taken → rounds = 3 → ¬named → y.peers.get k = gone r.exclusions)
      ∧ (taken → rounds = 3 → named → y.peers.get k = gone counted)
      ∧ (r.state = .excluded → rounds < 3 → y.peers.get k = { r with absentRounds := rounds })
      ∧ (r.state = .excluded → rounds = 3 → y.peers.get k = gone r.exclusions)
      ∧ (taken → rounds = 3 → y.cond.told { code := .peerLost, source := k.val })
      ∧ (named → r.state ≠ .excluded → y.cond.told { code := .peerExcluded, source := k.val }) := by
  intro y h r refused bit state rounds taken counted gone
  have record : y.peers.get k = r.handedOver (inSet (exclusionsOf (s.appliedAt wire)) k) bit (inSet h.joining k) refused := by
    obtain ⟨-, -, -, peers, -⟩ := s.handover_frame wire
    rw [peers]
    exact Station.takeTally_record wire other
  have not (no : ¬named) : inSet (exclusionsOf (s.appliedAt wire)) k = false := by
    rwa [names, Bool.not_eq_true] at no
  have within : inSet h.joining k = true → refused = false → bit = true := fun joins free => by
    rw [show bit = (inSet h.members k && !refused) from rfl, free, resolveTally_joining_within _ _ _ _ joins]
    rfl
  rw [record]
  refine ⟨fun absent no => ?_, fun absent yes set => ?_, fun absent yes clear => ?_, fun is early no => ?_,
    fun is early yes => ?_, fun is full no => ?_, fun is full yes => ?_, fun is early => ?_, fun is full => ?_,
    fun is full => ?_, fun yes apart => ?_⟩
  · rw [not no, handedOver_not_named, lostAt_countAbsent_absent absent within, countAbsent_eq]
  · rw [names.mp yes, excludedAt_absent_set absent within set]
  · rw [names.mp yes, excludedAt_absent_clear absent within clear]
  · rw [not no, (handedOver_taken_kept ((isTaken_iff _).mpr is) early).1]
  · rw [names.mp yes, (handedOver_taken_kept ((isTaken_iff _).mpr is) early).2]
  · rw [not no, (handedOver_taken_lost ((isTaken_iff _).mpr is) full).1]
    rfl
  · rw [names.mp yes, (handedOver_taken_lost ((isTaken_iff _).mpr is) full).2]
    rfl
  · exact handedOver_excluded_kept is early _
  · exact handedOver_excluded_lost is full _
  · exact Station.handover_told_lost other ((isTaken_iff _).mpr is) full
  · exact Station.handover_told_excluded other (names.mp yes) apart

/-! ## The table and the station state -/

theorem Station.handover_member_of_not_silenced {s : Station} {wire : BitVec 70} (not : s.silencedBy wire = false) :
    (s.handover wire).member = (s.takeTally wire).joinHandover.member
      ∧ (s.handover wire).auth = (s.takeTally wire).joinHandover.auth
      ∧ (s.handover wire).cond = (s.takeTally wire).joinHandover.cond := by
  rw [Station.handover_of_not_silenced not]
  obtain ⟨-, -, -, -, member, -, -, -, auth, cond⟩ := (s.takeTally wire).joinHandover.lockEntry_frame
  exact ⟨member, auth, cond⟩

theorem Station.handover_member_of_silenced {s : Station} {wire : BitVec 70} (silenced : s.silencedBy wire = true) :
    (s.handover wire).member.state = .silent ∧ (s.handover wire).auth = (s.takeTally wire).auth := by
  rw [Station.handover_of_silenced silenced]
  simp only [Station.groupConds_frame, Station.enterSilent_member, Station.enterSilent_auth, and_self]

/-- The station state only makes a table live (R71, R143). -/
theorem Station.handover_auth (s : Station) (wire : BitVec 70) :
    (s.handover wire).auth = { (s.takeTally wire).auth with live := (s.handover wire).auth.live }
      ∧ ((s.takeTally wire).auth.live = true → (s.handover wire).auth.live = true) := by
  cases silenced : s.silencedBy wire
  · rw [(Station.handover_member_of_not_silenced silenced).2.1]
    refine ⟨Station.joinHandover_auth _, fun live => ?_⟩
    unfold Station.joinHandover
    split
    · dsimp only
      split
      · rw [(Station.enterMember_values _).2]
      · exact live
    · exact live
  · rw [(Station.handover_member_of_silenced silenced).2]
    exact ⟨rfl, id⟩

/-- A live table's groups are worked, and a table at rest stays as the entry left it (R143 to R145, R148). -/
theorem Station.handover_groups (s : Station) (wire : BitVec 70) :
    let y := s.handover wire
    let seen : Station :=
      { s with
        bus := { s.bus with held := resolveTally (isDriving s.member.state) s.number wire }, peers := (s.takeTally wire).peers }
    let took := seen.adopt ((s.appliedAt wire).bind (·.adoption))
    (took.auth.live = false → y.auth = { took.auth with live := y.auth.live })
      ∧ (took.auth.live = true → y.auth.live = true ∧ ∀ g : Group,
          let work := groupHandover (seen.groupInputs g (s.appliedAt wire)) (took.auth.group g)
          y.auth.group g = (took.commitGroup g work).auth.group g
            ∧ y.auth.retry g = (took.commitGroup g work).auth.retry g) := by
  intro y seen took
  obtain ⟨rest, groups⟩ := s.takeTally_auth wire
  obtain ⟨auth, alive⟩ := s.handover_auth wire
  refine ⟨fun at_rest => ?_, fun live => ?_⟩
  · refine auth.trans ?_
    rw [rest at_rest]
  · obtain ⟨live', works⟩ := groups live
    refine ⟨alive live', fun g => ?_⟩
    obtain ⟨record, retry⟩ := works g
    have same : y.auth.group g = (s.takeTally wire).auth.group g ∧ y.auth.retry g = (s.takeTally wire).auth.retry g := by
      rw [show y.auth = _ from auth]
      cases g <;> exact ⟨rfl, rfl⟩
    exact ⟨same.1.trans record, same.2.trans retry⟩

/-- The own match that a handover keeps (R38). -/
def Station.keptAt (s : Station) (wire : BitVec 70) : Bool :=
  if (resolveTally (isDriving s.member.state) s.number wire).roundClass = .agreed then
    s.bus.ownSig.isSome && decide (s.bus.ownSig = (resolveTally (isDriving s.member.state) s.number wire).agreedSig)
  else s.member.keptOwnMatch

/-- The join conditions at a handover (Table 5-3), by the outcomes taken with it. -/
def Station.joinsAt (s : Station) (wire : BitVec 70) : Prop :=
  16 ≤ s.member.joinRounds + 1 ∧ (s.meas.cal.status = .done ∨ s.meas.cal.status = .skipped)
    ∧ faultLevel (s.takeTally wire).cond ≤ 2
    ∧ (memberSet (resolveTally (isDriving s.member.state) s.number wire) = 0 ∨
        (s.member.verdict = .met ∧ (s.takeTally wire).engine.run.adopted = true ∧ s.member.matchCount = 4
          ∧ s.keptAt wire = true))

/-- A station in JOIN counts the round, and becomes MEMBER exactly when the conditions hold (R67, R70). -/
theorem Station.handover_join {s : Station} {wire : BitVec 70} (not : s.silencedBy wire = false) (join : s.member.state = .join) :
    let y := s.handover wire
    y.member.joinRounds = min 255 (s.member.joinRounds + 1)
      ∧ (y.member.state = .join ∨ y.member.state = .member)
      ∧ (y.member.state = .member ↔ s.joinsAt wire) ∧ (s.joinsAt wire → y.auth.live = true)
      ∧ (¬s.joinsAt wire → y.auth = (s.takeTally wire).auth ∧ y.cond = (s.takeTally wire).cond) := by
  intro y
  obtain ⟨member, auth, cond⟩ := Station.handover_member_of_not_silenced not
  have joinW : (s.takeTally wire).member.state = .join := by rw [Station.takeTally_state, join]
  obtain ⟨rounds, state, live, admits⟩ := joinConditionsAdmit (s.takeTally wire) joinW
  have stays := Station.joinHandover_stays (s := s.takeTally wire)
  have values := s.takeTally_member wire
  obtain ⟨-, -, -, meas, -⟩ := s.takeTally_frame wire
  have conditions : (s.takeTally wire).joinHandover.member.state = .member ↔ s.joinsAt wire := by
    rw [admits, meas, Station.takeTally_held, Station.takeTally_kept]
    rw [show (s.takeTally wire).member.joinRounds = s.member.joinRounds by rw [values],
      show (s.takeTally wire).member.verdict = s.member.verdict by rw [values],
      show (s.takeTally wire).member.matchCount = s.member.matchCount by rw [values]]
    rfl
  rw [show (s.takeTally wire).member.joinRounds = s.member.joinRounds by rw [values]] at rounds
  rw [show y.member = _ from member, show y.auth = _ from auth, show y.cond = _ from cond]
  exact ⟨rounds, state, conditions, fun joins => live (conditions.mpr joins),
    fun no => stays fun _ admitted => no (conditions.mp admitted)⟩

/-- Another station stays as it was (R67). -/
theorem Station.handover_not_join {s : Station} {wire : BitVec 70} (not : s.silencedBy wire = false)
    (other : s.member.state ≠ .join) :
    (s.handover wire).member.state = s.member.state ∧ (s.handover wire).auth = (s.takeTally wire).auth := by
  obtain ⟨member, auth, -⟩ := Station.handover_member_of_not_silenced not
  have stays := Station.joinHandover_state_of_not_join (s := s.takeTally wire) (by rwa [Station.takeTally_state])
  rw [stays] at member auth
  exact ⟨by rw [member, Station.takeTally_state], auth⟩

theorem Station.joinHandover_kept (s : Station) : s.joinHandover.member.keptOwnMatch = s.member.keptOwnMatch := by
  unfold Station.joinHandover
  split
  · dsimp only
    split
    · rw [(Station.enterMember_values _).1]
    · rfl
  · rfl

theorem Station.handover_kept {s : Station} {wire : BitVec 70} (not : s.silencedBy wire = false) :
    (s.handover wire).member.keptOwnMatch = s.keptAt wire := by
  rw [(Station.handover_member_of_not_silenced not).1, Station.joinHandover_kept, Station.takeTally_kept]
  rfl

/-- The bus after the handover, a silenced station's round and record aside (R16, R35, R36). -/
theorem Station.handover_bus (s : Station) (wire : BitVec 70) :
    let h := resolveTally (isDriving s.member.state) s.number wire
    let b := (s.handover wire).bus
    b.held = h ∧ b.wireRead = wire ∧ b.position = s.bus.position ∧ b.ownSig = none ∧ b.pendingRecord = none
      ∧ b.roundNumber = s.bus.roundNumber ∧ b.signature = s.bus.signature
      ∧ b.claimResult = claimResultOf s.number (droveClaim s.bus.round.image) h.claim
      ∧ (s.silencedBy wire = true → b.round = RoundState.none)
      ∧ (s.silencedBy wire = false → b.round = { s.bus.round with handed := true }) := by
  cases silenced : s.silencedBy wire
  · rw [Station.handover_bus_of_not_silenced silenced, Station.takeTally_bus_values]
    exact ⟨rfl, rfl, rfl, rfl, rfl, rfl, rfl, rfl, nofun, fun _ => rfl⟩
  · obtain ⟨cut, is⟩ := Station.handover_bus_of_silenced silenced
    rw [is, Station.takeTally_bus_values]
    exact ⟨rfl, rfl, rfl, rfl, rfl, rfl, rfl, rfl, fun _ => rfl, nofun⟩

/-! ## O19 -/

theorem mem_exclusionsOf (applied : Option DecisionRecord) (k : StationNo) :
    inSet (exclusionsOf applied) k = true ↔ ∃ r, applied = some r ∧ inSet r.exclusions k = true := by
  cases applied with
  | none => simp [exclusionsOf, inSet]
  | some r => simp [exclusionsOf]

theorem Station.silencedBy_applied (s : Station) (wire : BitVec 70) :
    s.silencedBy wire = true ↔
      isDriving s.member.state = true ∧ ∃ r, s.appliedAt wire = some r ∧ inSet r.exclusions s.number = true := by
  rw [← mem_exclusionsOf, ← Bool.and_eq_true]
  rfl

theorem Engine.intake_splitCount (sh : SharedSection) (armed : Bool) (m : Mode) (e : Engine) :
    (e.intake sh armed m).splitCount = e.splitCount := by
  have running (e : Engine) : (e.intakeRunning sh m).splitCount = e.splitCount := by
    unfold Engine.intakeRunning
    split
    · rfl
    · split <;> rfl
  unfold Engine.intake
  split
  · exact running e
  · exact running _
  · split <;> rfl
  · split <;> rfl
  · split <;> rfl

/-- Bringing an engine forward does not count a split (R140). -/
theorem Engine.bringForward_splitCount (sh : SharedSection) (inp : EngineInputs) (e : Engine) :
    (e.bringForward sh inp).splitCount = e.splitCount := by
  have moved (e : Engine) : (e.move sh inp).splitCount = e.splitCount := by unfold Engine.move; split <;> rfl
  have counts (e : Engine) : (e.countElapsed sh).splitCount = e.splitCount := by unfold Engine.countElapsed; split <;> rfl
  have ends (e : Engine) : (e.checkEnd sh inp).splitCount = e.splitCount := by unfold Engine.checkEnd; split <;> rfl
  have suspends : e.suspend.splitCount = e.splitCount := by unfold Engine.suspend; split <;> rfl
  have runs : (e.runToCount sh true inp).splitCount = e.splitCount := by
    unfold Engine.runToCount
    rw [counts, moved, Engine.intake_splitCount]
  unfold Engine.bringForward
  change (if _ then _ else _ : Engine).splitCount = _
  split
  · rw [ends, runs]
  · exact suspends

theorem Station.adopt_splitCount (s : Station) (entry : Option AdoptionEntry) :
    (s.adopt entry).engine.splitCount = s.engine.splitCount := by
  cases entry with
  | none => rfl
  | some a =>
    by_cases takes : s.takesEntry a
    · rw [Station.adopt_engine_taken takes, Engine.adopting, Engine.bringForward_splitCount]
    · rw [Station.adopt_not_taken takes]

/-- The engine of a round without an adoption keeps all but its split count (R136). -/
theorem Station.handover_engine_split (s : Station) (wire : BitVec 70) :
    let split := splitAfter (resolveTally (isDriving s.member.state) s.number wire).roundClass s.engine.splitCount
    (s.handover wire).engine.splitCount = split
      ∧ ((s.appliedAt wire).bind (·.adoption) = none → (s.handover wire).engine = { s.engine with splitCount := split }) := by
  intro split
  obtain ⟨-, -, -, -, -, -, -, -, engine⟩ := s.judged_parts wire
  rw [Station.handover_engine, Station.takeTally_engine]
  refine ⟨?_, fun none => by rw [none]; exact engine⟩
  rw [Station.adopt_splitCount, engine]

/-! ### A round abandoned before its handover (R16, R21) -/

theorem tallyCut_iff (r : RoundState) :
    r.tallyCut = true ↔ r.abandoned = true ∧ r.handed = false ∧ (r.opening = .markless ∨ r.cutAt ≤ 79) := by
  unfold RoundState.tallyCut
  rw [Bool.and_eq_true, Bool.and_eq_true, Bool.not_eq_true', Bool.or_eq_true, decide_eq_true_iff, decide_eq_true_iff, and_assoc]
  rfl

/-- The bits driven until the abandonment that the wire reads recessive. -/
def Station.unread (s : Station) (wire : BitVec 70) : Nat :=
  match s.bus.round.image with
  | some image =>
    (((tallyLevels s.number image wire).take (s.bus.round.cutAt - 9)).filter fun level => !level.1 && level.2).length
  | none => 0

theorem Station.raiseTimes_withBus (code : CondCode) (source n : Nat) (b : BusUnit) :
    ∀ s : Station, ({ s with bus := b } : Station).raiseTimes code source n = { s.raiseTimes code source n with bus := b } := by
  induction n with
  | zero => exact fun _ => rfl
  | succ n ih => exact fun s => ih (s.raise code source)

theorem Station.readBackCut_eq (s : Station) (wire : BitVec 70) :
    s.readBackCut wire =
      { s with
        bus := { s.bus with round := { s.bus.round with image := none } }
        cond := (s.raiseTimes .busFault 1 (s.unread wire)).cond } := by
  unfold Station.readBackCut Station.unread
  cases himage : s.bus.round.image with
  | none => simp only [Station.raiseTimes, ← himage]
  | some image =>
    have levels : levelsUntil s.bus.round.cutAt (tallyLevels s.number image wire) =
        (tallyLevels s.number image wire).take (s.bus.round.cutAt - 9) := by
      unfold levelsUntil
      congr 1
    dsimp only
    rw [levels]
    refine (Station.raiseTimes_withBus _ _ _ _ s).trans ?_
    rw [Station.raiseTimes_frame]
    rfl

theorem Station.cutTally_eq (s : Station) (wire : BitVec 70) :
    s.cutTally wire =
      { s with
        bus :=
          { s.bus with
            held := { s.bus.held with claim := none, roundClass := .abandoned }, ownSig := none, pendingRecord := none
            round := { s.bus.round with image := none } }
        cond := (s.raiseTimes .busFault 1 (s.unread wire)).cond } := by
  unfold Station.cutTally
  rw [Station.readBackCut_eq]
  rfl

end Sys2Proof.Machine
end

