-- ==== Sys2Proof/Proofs/HandoverTakes.lean ====
section
/-! The handover at position 79, from its parts. Settles O19. -/

namespace Sys2Proof.Machine

/-- The bit times until position 79 leave the counts of the Membership Unit. -/
theorem Station.reach_member_79 {x : Station} (early : x.bus.position ≤ 79) :
    (x.reach 79).member =
      { x.member with state := (x.reach 79).member.state, disableSeen := (x.reach 79).member.disableSeen } := by
  rw [Station.reach_inside (early.trans (by decide)) (by decide)]
  exact x.sampleUntil_member 79

/-- A round abandoned before 79 is not handed on (R16, R21). -/
theorem Station.tallyHandover_cut {x : Station} (takes : takesPart x.member.state = true) (cut : x.bus.round.tallyCut = true)
    (early : x.bus.position ≤ 79) (wire : BitVec 70) : effect (.tallyHandover wire) x = (x.reach 79).cutTally wire := by
  have abandoned := ((tallyCut_iff _).mp cut).1
  have not : ¬x.handoverDue = true := by simp [Station.handoverDue, abandoned]
  have due : x.cutTallyDue = true := by simp [Station.cutTallyDue, takes, cut]
  exact (if_neg not).trans ((if_pos due).trans (Station.atMoment_due _ early))

theorem droveClaim_eq (image : Option TallyImage) :
    droveClaim image = image.any fun image => image.claim.any fun code => decide (code ≠ 127) := by
  cases image with
  | none => rfl
  | some image =>
    obtain ⟨joining, mode, limit, fault, advance, claim, sig⟩ := image
    cases claim <;> rfl

/-- Settles O19. -/
theorem handoverTakesTheOutcomes : Obligations.HandoverTakesTheOutcomes := by
  intro x q wire early t h applied named told
  have driving : isDriving t.member.state = isDriving x.member.state := x.reach_isDriving 79
  have number : t.number = x.number := x.reach_number 79
  have bus : t.bus = x.bus.later 79 := Station.reach_bus_inside early (by decide)
  have member : t.member = { x.member with state := t.member.state, disableSeen := t.member.disableSeen } :=
    Station.reach_member_79 early
  have peers : t.peers = x.peers := x.reach_peers 79
  have params : t.params = x.params := x.reach_params 79
  have engine : t.engine = x.engine := x.reach_engine 79
  have meas : t.meas = x.meas := x.reach_meas 79
  have pins : t.pins = x.pins := x.reach_pins 79
  have loader : t.loader = x.loader := x.reach_loader 79
  have held : resolveTally (isDriving t.member.state) t.number wire = h := by rw [driving, number]
  have record : t.appliedAt wire = applied := by
    unfold Station.appliedAt
    rw [held, bus]
    rfl
  have cond : x.cond.tableSound → t.cond.tableSound :=
    (x.follows_reach (touched := fun _ => True) 79 trivial trivial).sound
  have join : t.member.state = .join ↔ x.member.state = .join := by
    rw [show t.member.state = (x.sampleUntil 79).member.state from x.reach_state 79]
    exact Station.sampleUntil_state_eq (by decide) (by decide) x 79
  refine ⟨fun due => ?_, fun takes abandoned handed cut => ?_⟩
  · intro w silenced kept faults claims split seen took joins
    have names (k : StationNo) : named k ↔ inSet (exclusionsOf (t.appliedAt wire)) k = true := by
      rw [record, mem_exclusionsOf]
    have silenced_iff : silenced ↔ t.silencedBy wire = true := by
      rw [Station.silencedBy_applied, driving, number, record]
    have aloud : ¬silenced → t.silencedBy wire = false := fun no => by rwa [silenced_iff, Bool.not_eq_true] at no
    have taken : effect (.tallyHandover wire) x = t.handover wire := Station.tallyHandover_due due early wire
    have split_eq :
        splitAfter (resolveTally (isDriving t.member.state) t.number wire).roundClass t.engine.splitCount = split := by
      rw [held, engine]
      rfl
    have faults_eq : t.faults wire = faults := by
      unfold Station.faults
      rw [bus, number]
      rfl
    have kept_eq : t.keptAt wire = kept := by
      unfold Station.keptAt
      rw [held, bus, member]
      rfl
    have joins_iff : t.joinsAt wire ↔ joins := by
      unfold Station.joinsAt
      rw [kept_eq, held, meas, member]
    obtain ⟨b1, b2, b3, b4, b5, b6, b7, b8, b9, b10⟩ := t.handover_bus wire
    obtain ⟨pins', loader', params', peers', engine'⟩ := t.handover_frame wire
    obtain ⟨splits, spared⟩ := t.handover_engine_split wire
    obtain ⟨rest, groups⟩ := t.handover_groups wire
    rw [held] at b1 b8
    rw [held, record] at rest groups
    rw [split_eq] at splits spared
    refine exec_effect (c := .tallyHandover wire) (Q := fun y => _ ∧ _) ?_ q
    rw [taken]
    refine ⟨b1, b2, ?_, b4, b5, ?_, ?_, ?_, pins'.trans pins, loader'.trans loader, params'.trans params, peers', engine',
      ?_, splits, ?_, ?_, ?_, ?_, ?_, ?_, ?_, ?_, ?_, ?_, ?_, ?_, ?_⟩
    · rw [b3, bus]
      exact (congrArg (min 65535) (max_eq_right early)).trans rfl
    · rw [b6, bus]; rfl
    · rw [b7, bus]; rfl
    · rw [b8, number]
      unfold claimResultOf
      have drove : droveClaim t.bus.round.image = claims := by
        rw [bus]
        exact droveClaim_eq x.bus.round.image
      rw [drove]
    · intro some_ new room
      rw [← faults_eq] at some_ ⊢
      exact ⟨_, Station.handover_busFault some_ new room, rfl, rfl⟩
    · intro none
      rw [spared (by rw [record]; exact none), engine]
    · intro sound
      rw [Station.handover_splitView (cond sound), split_eq]
    · exact fun yes => b9 (silenced_iff.mp yes)
    · intro no
      rw [b10 (aloud no), bus]
      rfl
    · rw [peers', ← number, Station.takeTally_own, peers]
    · intro k other
      have records := Station.handover_records (s := t) (wire := wire) (by rwa [number]) (names k)
      rw [held, peers, params] at records
      exact records
    · exact rest
    · exact groups
    · exact fun yes => (Station.handover_member_of_silenced (silenced_iff.mp yes)).1
    · intro no
      rw [Station.handover_kept (aloud no), kept_eq]
    · exact fun no other => Station.handover_not_join (aloud no) (mt join.mp other)
    · intro no is
      obtain ⟨rounds, state, admits, live, stays⟩ := Station.handover_join (aloud no) (join.mpr is)
      rw [joins_iff] at admits live stays
      exact ⟨rounds.trans (by rw [member]), state, admits, live, stays⟩
    · exact fun live sound => Station.handover_stand live (cond sound)
  · have is : x.bus.round.tallyCut = true := (tallyCut_iff _).mpr ⟨abandoned, handed, cut⟩
    intro unread
    refine exec_of_effect (c := .tallyHandover wire) ((Station.tallyHandover_cut takes is early wire).trans ?_) q
    have unread_eq : t.unread wire = unread := by
      unfold Station.unread
      rw [bus, number]
      rfl
    refine (t.cutTally_eq wire).trans ?_
    rw [unread_eq, bus]
    rfl

end Sys2Proof.Machine
end

