-- ==== Sys2Proof/Proofs/SlotRules.lean ====
section
/-! The end of the own slot and the entry to SILENT after a third clash (R47, R49 to R51, R75, R178). Settles O33. -/

namespace Sys2Proof.Machine

/-! ## TXD after the tally section (R3, R17, R18) -/

/-- What the own slot drives dominant at a position. -/
def Station.slotDominant (s : Station) : Bool :=
  match s.bus.round.ownSlot with
  | .sending frame _ mismatch =>
    !s.bus.round.abandoned && decide (slotStart s.number ≤ s.bus.position)
      && decide (s.bus.position < slotStart s.number + Config.frameLength)
      && frameDominant frame mismatch (s.bus.position - slotStart s.number)
  | .notBegun | .ended => false

/-- After the tally section a driving station drives its mark and its frame. -/
theorem Station.drivesDominant_late {s : Station} (late : 80 ≤ s.bus.position) (read : BitVec 70) :
    s.drivesDominant read = (isDriving s.member.state && (s.bus.markDominant || s.slotDominant)) := by
  have tally : decide (s.bus.position ≤ Config.tallyEnd) = false := decide_eq_false (Nat.not_le.mpr late)
  unfold Station.drivesDominant Station.slotDominant
  dsimp only
  rw [tally]
  cases s.bus.round.image with
  | none =>
    simp only [Bool.or_false]
    rfl
  | some image =>
    simp only [Bool.and_false, Bool.false_and, Bool.or_false]
    rfl

theorem BusUnit.markDominant_ended {b : BusUnit} (ended : ∀ m, b.mark = some m → 8 ≤ m.age) : b.markDominant = false := by
  unfold BusUnit.markDominant
  cases hm : b.mark with
  | none => rfl
  | some m => exact decide_eq_false (Nat.not_lt.mpr (ended m hm))

/-! ## The entry to SILENT after a clash (R50, R75) -/

theorem Station.clashSilence_due {s : Station} (driving : isDriving s.member.state = true) (clashes : 3 ≤ s.bus.clashCount) :
    s.clashSilence = s.enterSilent :=
  if_pos (Bool.and_eq_true_iff.mpr ⟨driving, decide_eq_true clashes⟩)

theorem Station.clashSilence_not_due {s : Station} (few : s.bus.clashCount < 3) : s.clashSilence = s :=
  if_neg fun due => Nat.not_le.mpr few (of_decide_eq_true (Bool.and_eq_true_iff.mp due).2)

/-- A silenced station drives to the end of the bit time what it drove (R3). -/
theorem Station.enterSilent_txd (s : Station) (read : BitVec 70) :
    s.enterSilent.txdDominant read = s.drivesDominant s.bus.wireRead := by
  have silent : s.enterSilent.member.state = .silent := by rw [Station.enterSilent_member]
  rw [Station.txdDominant_of_silent silent, Station.enterSilent_bus]
  rfl

/-! ## The end of the own frame (R47, R49 to R51, R178) -/

theorem Station.ownSlotEnd_due {x : Station} {frame : BitVec 247} {report : Report} {mismatch : Option Nat}
    (sending : x.bus.round.ownSlot = .sending frame report mismatch) (coming : x.bus.position ≤ 100 + 256 * x.number.val + 255) :
    effect .ownSlotEnd x =
      if (x.reach (100 + 256 * x.number.val + 255)).bus.round.abandoned then
        { x.reach (100 + 256 * x.number.val + 255) with bus := (x.reach (100 + 256 * x.number.val + 255)).bus.cutFrame }
      else (x.reach (100 + 256 * x.number.val + 255)).endFrame frame report mismatch := by
  change x.ownSlotEnd = _
  unfold Station.ownSlotEnd
  rw [sending]
  exact Station.atMoment_due _ coming

/-- What a clean frame tells the Condition Unit (R47, R178). -/
theorem reportTold_eq (c : ConditionUnit) (sent : Nat) (overflowSent : Bool) :
    reportTold c sent overflowSent =
      { c with
        queue :=
          match c.queue with
          | [] => []
          | r :: rest =>
            if sent = 0 then r :: rest
            else if r.count ≤ sent then rest
            else { r with count := r.count - sent } :: rest
        overflow := c.overflow && !(overflowSent && !c.dropped) } := by
  unfold reportTold tellHead
  cases c.queue <;> cases c.overflow <;> cases overflowSent <;> cases c.dropped <;> by_cases none : sent = 0 <;>
    simp [none]

theorem BusUnit.endOwnSlot_clean (b : BusUnit) (own : StationNo) (frame : BitVec 247) (report : Report) :
    b.endOwnSlot own frame report none =
      { b with
        clashCount := 0, nextSeq := !b.nextSeq
        signature := absorb b.signature (true :: true :: bitsOf 247 frame.toNat)
        round := { b.round with ownSlot := .ended, slots := b.round.slots.set own (some (.received report)) } } := by
  simp only [BusUnit.endOwnSlot, BusUnit.classSlot, ownClass, slotBits, Option.isNone_none, if_true]

theorem Station.endFrame_clean (s : Station) (frame : BitVec 247) (report : Report) :
    s.endFrame frame report none =
      { s with
        bus :=
          { s.bus with
            clashCount := 0, nextSeq := !s.bus.nextSeq
            signature := absorb s.bus.signature (true :: true :: bitsOf 247 frame.toNat)
            round := { s.bus.round with ownSlot := .ended, slots := s.bus.round.slots.set s.number (some (.received report)) } }
        cond := reportTold s.cond report.condCount report.overflow } := by
  unfold Station.endFrame
  simp only [BusUnit.endOwnSlot_clean, Option.isNone_none, if_true]
  exact Station.clashSilence_not_due (Nat.zero_lt_succ 2)

/-- The station after a clashed frame, before a third one silences it. -/
def Station.clashed (s : Station) : Station :=
  { s with
    bus :=
      { s.bus with
        clashCount := min 3 (s.bus.clashCount + 1), nextSeq := !s.bus.nextSeq
        signature := absorb s.bus.signature [true, false]
        round := { s.bus.round with ownSlot := .ended, slots := s.bus.round.slots.set s.number (some .garbled) } } }

theorem Station.endFrame_clashed (s : Station) (frame : BitVec 247) (report : Report) {mismatch : Option Nat}
    (some_ : mismatch.isSome = true) : s.endFrame frame report mismatch = s.clashed.clashSilence := by
  obtain ⟨i, rfl⟩ := Option.isSome_iff_exists.mp some_
  rfl

/-- Settles O33: the frame cut, clean and clashed, and the third clash. -/
theorem ownSlotEndCountsClashes : Obligations.OwnSlotEndCountsClashes := by
  refine ⟨?_, ?_⟩
  · intro x q frame report mismatch last t told sending coming
    have inside : last ≤ 2147 := by
      have := x.number.isLt
      omega
    have bus : t.bus = x.bus.later last := Station.reach_bus_inside coming (inside.trans (by decide))
    have round : t.bus.round = x.bus.round := by rw [bus]; rfl
    have due := Station.ownSlotEnd_due sending coming
    have number : t.number = x.number := x.reach_number last
    have driving : isDriving t.member.state = isDriving x.member.state := x.reach_isDriving last
    obtain ⟨silencings, -⟩ : t.member.silencings = _ ∧ _ := x.reach_counts last
    have position : t.bus.position = last := by
      rw [bus]
      exact (congrArg (min 65535) (max_eq_right coming)).trans (by omega)
    have values : t.bus.nextSeq = x.bus.nextSeq ∧ t.bus.signature = x.bus.signature ∧ t.bus.clashCount = x.bus.clashCount := by
      rw [bus]
      exact ⟨rfl, rfl, rfl⟩
    obtain ⟨seq, signature, clashes⟩ := values
    change effect .ownSlotEnd x = if t.bus.round.abandoned then { t with bus := t.bus.cutFrame }
      else t.endFrame frame report mismatch at due
    refine ⟨fun cut => ?_, fun clean open_ => ?_, fun clash open_ few => ?_, fun clash open_ many drives => ?_⟩
    · refine exec_of_effect (c := .ownSlotEnd) (due.trans ((if_pos (by rw [round, cut])).trans ?_)) q
      have sending' : t.bus.round.ownSlot = .sending frame report mismatch := by rw [round, sending]
      unfold BusUnit.cutFrame
      rw [sending', seq, round]
    · subst clean
      refine exec_of_effect (c := .ownSlotEnd) (due.trans ((if_neg (by rw [round, open_]; decide)).trans ?_)) q
      refine (t.endFrame_clean frame report).trans ?_
      rw [seq, signature, round, number, reportTold_eq] <;> rfl
    · refine exec_of_effect (c := .ownSlotEnd) (due.trans ((if_neg (by rw [round, open_]; decide)).trans ?_)) q
      rw [t.endFrame_clashed frame report clash, Station.clashSilence_not_due (s := t.clashed)
        (by change min 3 (t.bus.clashCount + 1) < 3; omega)]
      unfold Station.clashed
      rw [seq, signature, round, number, clashes, Nat.min_eq_right (by omega)]
    · have silenced : effect .ownSlotEnd x = t.clashed.enterSilent := by
        rw [due, if_neg (by rw [round, open_]; decide), t.endFrame_clashed frame report clash]
        exact Station.clashSilence_due (s := t.clashed) (driving.trans drives)
          (by change 3 ≤ min 3 (t.bus.clashCount + 1); omega)
      refine ⟨_, exec_of_effect (c := .ownSlotEnd) silenced q, by rw [Station.enterSilent_member], ?_, rfl, fun ended read => ?_⟩
      · rw [Station.enterSilent_member]
        exact congrArg (succSat 4) silencings
      · have late : 80 ≤ t.clashed.bus.position := by
          rw [show t.clashed.bus.position = last from position]
          omega
        have mark : t.clashed.bus.markDominant = false := BusUnit.markDominant_ended ended
        have slot : t.clashed.slotDominant = false := rfl
        rw [Station.enterSilent_txd, Station.drivesDominant_late late, mark, slot, Bool.or_false, Bool.and_false]
  · intro x q driving clashes
    have silenced : effect .clashSilence x = x.enterSilent := Station.clashSilence_due driving clashes
    have silent : x.enterSilent.member.state = .silent := by rw [Station.enterSilent_member]
    refine ⟨_, exec_of_effect (c := .clashSilence) silenced q, x.enterSilent_member, ?_, fun late read => ?_,
      ⟨x.enterSilent.tick, rfl, fun read => Station.tick_of_silent silent (by rw [Station.enterSilent_member]) read⟩,
      rfl, rfl, rfl, rfl, rfl, rfl, rfl, rfl, rfl⟩
    · rw [Station.enterSilent_bus]
      rfl
    · rw [Station.enterSilent_txd, Station.txdDominant_of_driving driving, Station.drivesDominant_late late,
        Station.drivesDominant_late late]

end Sys2Proof.Machine
end

