-- ==== Sys2Proof/Proofs/ReportRules.lean ====
section
/-! The secondary field of the own report (R42). Refutes O32. -/

namespace Sys2Proof.Machine

/-- A MEMBER of role NONE in a recognised round, no channel mapped, the snapshot with a value in every channel: R42 gives its
report no secondary value, and the model looks up the first channel whose quantity is NONE. -/
def unmappedMember : Station :=
  { Station.reset with
    bus := { BusUnit.reset with round := RoundState.fresh .inWindow }
    member := { MembershipUnit.reset with state := .member }
    meas := { MeasurementUnit.reset with snapshot := { MeasSet.reset with channels := Eight.fill (some 5) } } }

/-- The secondary field of that report is the value of a channel that is not mapped. -/
theorem unmappedMember_secondary : (unmappedMember.reach 100).buildReport.secondary = 5 := by decide

/-- Refutes O32: a station of role NONE reports the value of an unmapped channel as its secondary value. -/
theorem not_ownFrameIsCompared : ¬Obligations.OwnFrameIsCompared := by
  intro h
  obtain ⟨-, -, -, -, -, -, -, secondary, -⟩ := h.1 unmappedMember [] 0 (by decide) (by decide)
    (by decide) (by decide) (by decide)
  exact absurd (unmappedMember_secondary.symm.trans secondary) (by decide)

end Sys2Proof.Machine
end

