-- ==== Sys2Proof/Proofs/FrameRules.lean ====
section
/-! The report frame bit by bit, its check, and the class of a slot (R39, R48, R51, R54, R55, Table 14-2). Settles O34. -/

namespace Sys2Proof.Machine

/-! ## The fields of the frame (Table 14-2) -/

/-- The widths of the fields and the check, in the order of Table 14-2. -/
def frameWidths : List Nat :=
  [3, 1, 3, 3, 16, 10, 12, 12, 12, 10, 11, 3, 5, 4, 16, 10, 3, 3, 9, 2, 8, 8, 3, 7, 8, 8, 3, 7, 8, 3, 3, 1, 1, 6, 4, 4, 1, 16]

theorem frameFields_widths (r : Report) : (frameFields r).map (·.1) = frameWidths := rfl

theorem widthOf_frame_take (r : Report) (n : Nat) : widthOf ((frameFields r).take n) = (frameWidths.take n).sum := by
  rw [widthOf, List.map_take, frameFields_widths]

/-- A field of the frame by its place in the list of fields. -/
theorem fieldOf_frame (r : Report) (n : Nat) {first w v : Nat} (place : (frameFields r)[n]? = some (w, v))
    (start : (frameWidths.take n).sum = first) : fieldOf 247 (encodeReport r).toNat first w = v % 2 ^ w := by
  refine fieldOf_encodeReport r ((frameFields r).take n) ((frameFields r).drop (n + 1)) first w v ?_
    (by rw [widthOf_frame_take, start])
  obtain ⟨small, is⟩ := List.getElem?_eq_some_iff.mp place
  rw [← is, List.getElem_cons_drop, List.take_append_drop]

/-- The bits of a field of the frame, the most significant first. -/
theorem frame_holds (r : Report) (n : Nat) {first w v : Nat} (place : (frameFields r)[n]? = some (w, v))
    (start : (frameWidths.take n).sum = first) (inside : first + w ≤ 247) :
    ∀ i, i < w → (encodeReport r).getMsbD (first + i) = v.testBit (w - 1 - i) := by
  intro i hi
  rw [← testBit_fieldOf 247 (encodeReport r) first w i hi inside, fieldOf_frame r n place start, Nat.testBit_mod_two_pow]
  simp [show w - 1 - i < w by omega]

theorem testBit_signedField (w : Nat) (x : Int) (i : Nat) (hi : i < w) :
    (signedField w x).testBit (w - 1 - i) = (BitVec.ofInt w x).getMsbD i := by
  have value : signedField w x = (BitVec.ofInt w x).toNat := by rw [BitVec.toNat_ofInt]; rfl
  rw [value, BitVec.getMsbD, BitVec.getLsbD]
  simp [hi]

/-- The bits of a signed field of the frame, in two's complement (R39). -/
theorem frame_signed (r : Report) (n : Nat) {first w : Nat} {x : Int} (place : (frameFields r)[n]? = some (w, signedField w x))
    (start : (frameWidths.take n).sum = first) (inside : first + w ≤ 247) :
    ∀ i, i < w → (encodeReport r).getMsbD (first + i) = (BitVec.ofInt w x).getMsbD i := by
  intro i hi
  rw [frame_holds r n place start inside i hi, testBit_signedField w x i hi]

/-- A field in range reads as it was put. -/
theorem frame_reads (r : Report) (n : Nat) {first w v : Nat} (place : (frameFields r)[n]? = some (w, v))
    (start : (frameWidths.take n).sum = first) (below : v < 2 ^ w) : fieldOf 247 (encodeReport r).toNat first w = v := by
  rw [fieldOf_frame r n place start, Nat.mod_eq_of_lt below]

theorem frame_reads_word (r : Report) (n : Nat) {first w : Nat} {v : BitVec w} (place : (frameFields r)[n]? = some (w, v.toNat))
    (start : (frameWidths.take n).sum = first) : BitVec.ofNat w (fieldOf 247 (encodeReport r).toNat first w) = v := by
  rw [frame_reads r n place start v.isLt, BitVec.ofNat_toNat, BitVec.setWidth_eq]

theorem frame_reads_flag (r : Report) (n : Nat) {first : Nat} {b : Bool} (place : (frameFields r)[n]? = some (1, b.toNat))
    (start : (frameWidths.take n).sum = first) : decide (fieldOf 247 (encodeReport r).toNat first 1 = 1) = b := by
  rw [frame_reads r n place start (by cases b <;> decide)]
  cases b <;> rfl

/-- A number in the range of `w` bits reads back from two's complement (R39). -/
theorem signedOf_signedField (w : Nat) (x : Int) (low : -(2 ^ w : Int) ≤ x) (high : x < 2 ^ w) :
    signedOf (w + 1) (signedField (w + 1) x) = x := by
  have pos : (0 : Int) < 2 ^ w := by positivity
  have double : (2 : Int) ^ (w + 1) = 2 ^ w + 2 ^ w := by ring
  have nats : ((2 ^ w : Nat) : Int) = 2 ^ w := by push_cast; rfl
  have doubleN : (2 : Nat) ^ (w + 1) = 2 ^ w + 2 ^ w := by ring
  unfold signedOf signedField
  rw [double, doubleN]
  by_cases negative : x < 0
  · have reduced : x % (2 ^ w + 2 ^ w : Int) = x + (2 ^ w + 2 ^ w) := by
      rw [← Int.add_emod_right]
      exact Int.emod_eq_of_lt (by omega) (by omega)
    rw [reduced, if_neg (by omega)]
    omega
  · rw [Int.emod_eq_of_lt (by omega) (by omega), if_pos (by omega)]
    omega

theorem frame_reads_signed (r : Report) (n : Nat) {first w : Nat} {x : Int}
    (place : (frameFields r)[n]? = some (w + 1, signedField (w + 1) x)) (start : (frameWidths.take n).sum = first)
    (low : -(2 ^ w : Int) ≤ x) (high : x < 2 ^ w) :
    signedOf (w + 1) (fieldOf 247 (encodeReport r).toNat first (w + 1)) = x := by
  have below : signedField (w + 1) x < 2 ^ (w + 1) := by
    unfold signedField
    have := Int.emod_lt_of_pos x (show (0 : Int) < 2 ^ (w + 1) by positivity)
    have nonneg := Int.emod_nonneg x (show (2 ^ (w + 1) : Int) ≠ 0 by positivity)
    zify
    rw [Int.toNat_of_nonneg nonneg]
    exact this
  rw [frame_reads r n place start below, signedOf_signedField w x low high]

/-! ## The check (R48) -/

theorem bitsOf_body (f : BitVec 247) : bitsOf 231 (f.toNat >>> 16) = (List.range 231).map fun i => f.getMsbD i := by
  unfold bitsOf
  refine List.map_congr_left fun i hi => ?_
  have small : i < 231 := List.mem_range.mp hi
  rw [Nat.testBit_shiftRight, BitVec.getMsbD, BitVec.getLsbD, show 16 + (231 - 1 - i) = 247 - 1 - i by omega]
  simp [show i < 247 by omega]

theorem checkHolds_iff (f : BitVec 247) :
    checkHolds f = true ↔
      ∀ i, i < 16 → f.getMsbD (231 + i) = (checkOf ((List.range 231).map fun j => f.getMsbD j)).getLsbD (15 - i) := by
  have stored (i : Nat) (hi : i < 16) : (BitVec.ofNat 16 (f.toNat % 2 ^ 16)).getLsbD (15 - i) = f.getMsbD (231 + i) := by
    rw [BitVec.getLsbD_ofNat, Nat.testBit_mod_two_pow, BitVec.getMsbD, BitVec.getLsbD, show 247 - 1 - (231 + i) = 15 - i by omega]
    simp [show 15 - i < 16 by omega, show 231 + i < 247 by omega]
  unfold checkHolds frameCheck
  rw [decide_eq_true_iff, bitsOf_body]
  constructor
  · intro equal i hi
    rw [equal, stored i hi]
  · intro bits
    refine BitVec.eq_of_getLsbD_eq fun i hi => ?_
    rw [show i = 15 - (15 - i) by omega, stored (15 - i) (by omega), bits (15 - i) (by omega)]

theorem frameCheck_encodeReport (r : Report) :
    frameCheck (packFields (reportFields r)) = checkOf ((List.range 231).map fun i => (encodeReport r).getMsbD i) := by
  rw [← encodeReport_body, frameCheck, bitsOf_body]

/-! ## Decoding (R39) -/

/-- The fields of a report are in the range of their bits. -/
structure Report.InRange (r : Report) : Prop where
  station : r.station < 2 ^ 3
  state : r.state < 2 ^ 3
  role : r.role < 2 ^ 3
  lean : -(2 ^ 9 : Int) ≤ r.lean ∧ r.lean < 2 ^ 9
  leanRate : -(2 ^ 11 : Int) ≤ r.leanRate ∧ r.leanRate < 2 ^ 11
  secondary : -(2 ^ 11 : Int) ≤ r.secondary ∧ r.secondary < 2 ^ 11
  speed : r.speed < 2 ^ 12
  demand : -(2 ^ 9 : Int) ≤ r.demand ∧ r.demand < 2 ^ 9
  effort : -(2 ^ 10 : Int) ≤ r.effort ∧ r.effort < 2 ^ 10
  mode : r.traj.mode < 2 ^ 3
  step : r.traj.step < 2 ^ 5
  repeatLeft : r.traj.repeatLeft < 2 ^ 4
  elapsed : r.traj.elapsed < 2 ^ 16
  setpoint : -(2 ^ 9 : Int) ≤ r.traj.setpoint ∧ r.traj.setpoint < 2 ^ 9
  pending : r.traj.pending < 2 ^ 3
  propMode : r.propMode < 2 ^ 3
  propLimit : r.propLimit < 2 ^ 9
  propFault : r.propFault < 2 ^ 2
  tiltStage : r.tiltView.stage < 2 ^ 3
  tiltRamp : r.tiltView.rampCount < 2 ^ 7
  steerStage : r.steerView.stage < 2 ^ 3
  steerRamp : r.steerView.rampCount < 2 ^ 7
  tiltResponse : r.tiltResponse < 2 ^ 3
  steerResponse : r.steerResponse < 2 ^ 3
  condCode : r.condCode < 2 ^ 6
  condSource : r.condSource < 2 ^ 4
  condCount : r.condCount < 2 ^ 4

theorem decode_traj {r : Report} (h : r.InRange) : (decodeReport (encodeReport r)).traj = r.traj := by
  refine (TrajFields.mk.injEq _ _ _ _ _ _ _ _ _ _ _ _).mpr ⟨?_, ?_, ?_, ?_, ?_, ?_⟩
  · exact frame_reads r 11 rfl rfl h.mode
  · exact frame_reads r 12 rfl rfl h.step
  · exact frame_reads r 13 rfl rfl h.repeatLeft
  · exact frame_reads r 14 rfl rfl h.elapsed
  · exact frame_reads_signed r 15 (w := 9) rfl rfl h.setpoint.1 h.setpoint.2
  · exact frame_reads r 16 rfl rfl h.pending

theorem decode_tiltView {r : Report} (h : r.InRange) : decodeView (encodeReport r).toNat 156 = r.tiltView := by
  refine (View.mk.injEq _ _ _ _ _ _ _ _).mpr ⟨?_, ?_, ?_, ?_⟩
  · exact frame_reads_word r 21 rfl rfl
  · exact frame_reads r 22 rfl rfl h.tiltStage
  · exact frame_reads r 23 rfl rfl h.tiltRamp
  · exact frame_reads_word r 24 rfl rfl

theorem decode_steerView {r : Report} (h : r.InRange) : decodeView (encodeReport r).toNat 182 = r.steerView := by
  refine (View.mk.injEq _ _ _ _ _ _ _ _).mpr ⟨?_, ?_, ?_, ?_⟩
  · exact frame_reads_word r 25 rfl rfl
  · exact frame_reads r 26 rfl rfl h.steerStage
  · exact frame_reads r 27 rfl rfl h.steerRamp
  · exact frame_reads_word r 28 rfl rfl

/-- A frame built from a report in range reads as the report. -/
theorem decodeReport_encodeReport {r : Report} (h : r.InRange) : decodeReport (encodeReport r) = r := by
  refine (Report.mk.injEq ..).mpr ⟨?_, ?_, ?_, ?_, ?_, ?_, ?_, ?_, ?_, ?_, ?_, decode_traj h, ?_, ?_, ?_, ?_, decode_tiltView h,
    decode_steerView h, ?_, ?_, ?_, ?_, ?_, ?_, ?_, ?_⟩
  · exact frame_reads r 0 rfl rfl h.station
  · exact frame_reads_flag r 1 rfl rfl
  · exact frame_reads r 2 rfl rfl h.state
  · exact frame_reads r 3 rfl rfl h.role
  · exact frame_reads_word r 4 rfl rfl
  · exact frame_reads_signed r 5 (w := 9) rfl rfl h.lean.1 h.lean.2
  · exact frame_reads_signed r 6 (w := 11) rfl rfl h.leanRate.1 h.leanRate.2
  · exact frame_reads_signed r 7 (w := 11) rfl rfl h.secondary.1 h.secondary.2
  · exact frame_reads r 8 rfl rfl h.speed
  · exact frame_reads_signed r 9 (w := 9) rfl rfl h.demand.1 h.demand.2
  · exact frame_reads_signed r 10 (w := 10) rfl rfl h.effort.1 h.effort.2
  · exact frame_reads r 17 rfl rfl h.propMode
  · exact frame_reads r 18 rfl rfl h.propLimit
  · exact frame_reads r 19 rfl rfl h.propFault
  · exact frame_reads_word r 20 rfl rfl
  · exact frame_reads r 29 rfl rfl h.tiltResponse
  · exact frame_reads r 30 rfl rfl h.steerResponse
  · exact frame_reads_flag r 31 rfl rfl
  · exact frame_reads_flag r 32 rfl rfl
  · exact frame_reads r 33 rfl rfl h.condCode
  · exact frame_reads r 34 rfl rfl h.condSource
  · exact frame_reads r 35 rfl rfl h.condCount
  · exact frame_reads_flag r 36 rfl rfl

/-! ## The class of a slot (R51, R55) -/

theorem Station.slotEnd_due {x : Station} {k : StationNo} (takes : takesPart x.member.state = true)
    (recognised : x.bus.round.recognised = true) (open_ : x.bus.round.abandoned = false)
    (unclassed : x.bus.round.slots.get k = none)
    (other : k ≠ x.number ∨ x.member.state = .quiet) (coming : x.bus.position ≤ 100 + 256 * k.val + 255) (sampled : BitVec 247) :
    effect (.slotEnd k sampled) x =
      { x.reach (100 + 256 * k.val + 255) with
        bus := (x.reach (100 + 256 * k.val + 255)).bus.classSlot k
          ((x.reach (100 + 256 * k.val + 255)).receivedClass k sampled) sampled } := by
  have due : x.slotDue k = true := by simp [Station.slotDue, takes, recognised, open_, unclassed, other]
  exact (if_pos due).trans (Station.atMoment_due _ coming)

theorem classOfBits_received {k : StationNo} {f : BitVec 247} (holds : checkHolds f = true)
    (station : fieldOf 247 f.toNat 0 3 = k.val) : classOfBits k f = .received (decodeReport f) := by
  simp [classOfBits, holds, station]

theorem classOfBits_garbled {k : StationNo} {f : BitVec 247} (not : checkHolds f = false ∨ fieldOf 247 f.toNat 0 3 ≠ k.val) :
    classOfBits k f = .garbled := by
  rcases not with broken | foreign <;> simp [classOfBits, *]

theorem slotIsClassed_classes (x : Station) (q : List Instr) (k : StationNo) (sampled : BitVec 247)
    (takes : takesPart x.member.state = true) (recognised : x.bus.round.recognised = true)
    (open_ : x.bus.round.abandoned = false) (unclassed : x.bus.round.slots.get k = none)
    (other : k ≠ x.number ∨ x.member.state = .quiet) (coming : x.bus.position ≤ 100 + 256 * k.val + 255) :
    let t := x.reach (100 + 256 * k.val + 255)
    let classed : SlotClass → List Bool → Station := fun c bits =>
      { t with
        bus :=
          { t.bus with
            signature := absorb x.bus.signature bits
            round := { x.bus.round with slots := x.bus.round.slots.set k (some c) } } }
    (k = x.number ∨ x.bus.round.activity.get k = false →
      exec (.slotEnd k sampled) ⟨x, q⟩ = .next ⟨classed .silent [false, false], q⟩)
    ∧ (k ≠ x.number → x.bus.round.activity.get k = true →
        checkHolds sampled = true → fieldOf 247 sampled.toNat 0 3 = k.val →
      exec (.slotEnd k sampled) ⟨x, q⟩ =
        .next ⟨classed (.received (decodeReport sampled)) (true :: true :: bitsOf 247 sampled.toNat), q⟩)
    ∧ (k ≠ x.number → x.bus.round.activity.get k = true →
        (checkHolds sampled = false ∨ fieldOf 247 sampled.toNat 0 3 ≠ k.val) →
      exec (.slotEnd k sampled) ⟨x, q⟩ = .next ⟨classed .garbled [true, false], q⟩) := by
  intro t classed
  have small := k.isLt
  have due := Station.slotEnd_due takes recognised open_ unclassed other coming sampled
  have bus : t.bus = x.bus.later (100 + 256 * k.val + 255) := Station.reach_bus_inside coming (by omega)
  have number : t.number = x.number := x.reach_number _
  have result (c : SlotClass) (is : t.receivedClass k sampled = c) :
      exec (.slotEnd k sampled) ⟨x, q⟩ = .next ⟨classed c (slotBits sampled c), q⟩ := by
    refine exec_of_effect (c := .slotEnd k sampled) (due.trans ?_) q
    change { t with bus := t.bus.classSlot k (t.receivedClass k sampled) sampled } = classed c (slotBits sampled c)
    unfold BusUnit.classSlot
    rw [is]
    simp only [classed, bus]
    rfl
  have active : k ≠ x.number → x.bus.round.activity.get k = true → t.receivedClass k sampled = classOfBits k sampled :=
    fun apart heard => by simp [Station.receivedClass, number, apart, bus, heard]
  refine ⟨fun idle => result .silent ?_, fun apart heard holds station => result _ ?_, fun apart heard not => result .garbled ?_⟩
  · unfold Station.receivedClass
    rw [number, bus]
    rcases idle with own | idle <;> simp [*]
  · rw [active apart heard, classOfBits_received holds station]
  · rw [active apart heard, classOfBits_garbled not]

/-! ## The layout (Table 14-2) -/

theorem slotIsClassed_layout (r : Report) :
    let frame := encodeReport r
    let holds : Nat → Nat → Nat → Prop := fun first width n =>
      ∀ i, i < width → frame.getMsbD (first + i) = n.testBit (width - 1 - i)
    let signed : Nat → Nat → Int → Prop := fun first width n =>
      ∀ i, i < width → frame.getMsbD (first + i) = (BitVec.ofInt width n).getMsbD i
    let view : Nat → View → Prop := fun first v =>
      holds first 8 v.holders.toNat ∧ holds (first + 8) 3 v.stage ∧ holds (first + 11) 7 v.rampCount
        ∧ holds (first + 18) 8 v.epoch.toNat
    holds 0 3 r.station ∧ holds 3 1 r.seq.toNat ∧ holds 4 3 r.state ∧ holds 7 3 r.role ∧ holds 10 16 r.digest.toNat
      ∧ signed 26 10 r.lean ∧ signed 36 12 r.leanRate ∧ signed 48 12 r.secondary ∧ holds 60 12 r.speed
      ∧ signed 72 10 r.demand ∧ signed 82 11 r.effort
      ∧ holds 93 3 r.traj.mode ∧ holds 96 5 r.traj.step ∧ holds 101 4 r.traj.repeatLeft ∧ holds 105 16 r.traj.elapsed
      ∧ signed 121 10 r.traj.setpoint ∧ holds 131 3 r.traj.pending
      ∧ holds 134 3 r.propMode ∧ holds 137 9 r.propLimit ∧ holds 146 2 r.propFault ∧ holds 148 8 r.suspects.toNat
      ∧ view 156 r.tiltView ∧ view 182 r.steerView ∧ holds 208 3 r.tiltResponse ∧ holds 211 3 r.steerResponse
      ∧ holds 214 1 r.staleScan.toNat ∧ holds 215 1 r.calDone.toNat ∧ holds 216 6 r.condCode ∧ holds 222 4 r.condSource
      ∧ holds 226 4 r.condCount ∧ holds 230 1 r.overflow.toNat := by
  refine ⟨frame_holds r 0 rfl rfl (by decide), frame_holds r 1 rfl rfl (by decide), frame_holds r 2 rfl rfl (by decide),
    frame_holds r 3 rfl rfl (by decide), frame_holds r 4 rfl rfl (by decide), frame_signed r 5 rfl rfl (by decide),
    frame_signed r 6 rfl rfl (by decide), frame_signed r 7 rfl rfl (by decide), frame_holds r 8 rfl rfl (by decide),
    frame_signed r 9 rfl rfl (by decide), frame_signed r 10 rfl rfl (by decide), frame_holds r 11 rfl rfl (by decide),
    frame_holds r 12 rfl rfl (by decide), frame_holds r 13 rfl rfl (by decide), frame_holds r 14 rfl rfl (by decide),
    frame_signed r 15 rfl rfl (by decide), frame_holds r 16 rfl rfl (by decide), frame_holds r 17 rfl rfl (by decide),
    frame_holds r 18 rfl rfl (by decide), frame_holds r 19 rfl rfl (by decide), frame_holds r 20 rfl rfl (by decide),
    ⟨frame_holds r 21 rfl rfl (by decide), frame_holds r 22 rfl rfl (by decide), frame_holds r 23 rfl rfl (by decide),
      frame_holds r 24 rfl rfl (by decide)⟩,
    ⟨frame_holds r 25 rfl rfl (by decide), frame_holds r 26 rfl rfl (by decide), frame_holds r 27 rfl rfl (by decide),
      frame_holds r 28 rfl rfl (by decide)⟩,
    frame_holds r 29 rfl rfl (by decide), frame_holds r 30 rfl rfl (by decide), frame_holds r 31 rfl rfl (by decide),
    frame_holds r 32 rfl rfl (by decide), frame_holds r 33 rfl rfl (by decide), frame_holds r 34 rfl rfl (by decide),
    frame_holds r 35 rfl rfl (by decide), frame_holds r 36 rfl rfl (by decide)⟩

/-- Settles O34: the class, the layout with its check, the registers and the readings. -/
theorem slotIsClassed : Obligations.SlotIsClassed := by
  refine ⟨slotIsClassed_classes, fun r => ?_, checkHolds_iff, fun bits b start i hi => ?_, fun width n => rfl,
    fun f => ⟨rfl, rfl, rfl, rfl⟩⟩
  · intro frame holds signed view below fits inRange
    have layout := slotIsClassed_layout r
    have check : holds 231 16 (checkOf ((List.range 231).map fun i => frame.getMsbD i)).toNat := by
      rw [← frameCheck_encodeReport]
      exact frame_holds r 37 rfl rfl (by decide)
    have decodes : inRange → decodeReport frame = r := by
      rintro ⟨h0, h1, h2, h3, h4, h5, h6, h7, h8, h9, h10, h11, h12, h13, h14, h15, h16, h17, h18, h19, h20, h21, h22, h23, h24,
        h25, h26⟩
      exact decodeReport_encodeReport ⟨h0, h1, h2, h3, h4, h5, h6, h7, h8, h9, h10, h11, h12, h13, h14, h15, h16, h17, h18, h19,
        h20, h21, h22, h23, h24, h25, h26⟩
    obtain ⟨a0, a1, a2, a3, a4, a5, a6, a7, a8, a9, a10, a11, a12, a13, a14, a15, a16, a17, a18, a19, a20, a21, a22, a23, a24,
      a25, a26, a27, a28, a29, a30⟩ := layout
    exact ⟨a0, a1, a2, a3, a4, a5, a6, a7, a8, a9, a10, a11, a12, a13, a14, a15, a16, a17, a18, a19, a20, a21, a22, a23, a24,
      a25, a26, a27, a28, a29, a30, check, checkHolds_encodeReport r, decodes⟩
  · refine ⟨rfl, rfl, ?_, ?_⟩
    · rw [checkOf_concat, checkStep_stage _ _ _ hi]
    · rw [absorb_concat, signatureStep_stage _ _ _ hi]

end Sys2Proof.Machine
end

