-- ==== Sys2Proof/Proofs/ApplyRules.lean ====
section
/-! The apply point, block by block: what it leaves of the bus, the member, the engine and the authority table (R120 to R152). -/

namespace Sys2Proof.Machine

/-! ## The blocks in their order -/

/-- The apply point before the claim is formed: the engine's part, the ramps and the group conditions. -/
def Station.rampedAt (s : Station) : Station := s.engineApply.rampStep.groupConds

/-- The apply point before the proposal record: the counts of the table and the drive as well. -/
def Station.drivenAt (s : Station) : Station := s.rampedAt.countAuthority.driveApply

theorem Station.applyWork_eq (s : Station) :
    s.applyWork =
      { s.drivenAt.propose s.rampedAt.claimCode with
        bus := { s.drivenAt.bus with round := { s.drivenAt.bus.round with applied := true } } } := by
  unfold Station.applyWork Station.drivenAt Station.rampedAt
  dsimp only
  rw [(Station.propose_frame _ _).2.2.2.1]

/-- What the parts of the apply point before the claim leave (R120). -/
theorem Station.rampedAt_frame (s : Station) :
    s.rampedAt.pins = s.pins ∧ s.rampedAt.loader = s.loader ∧ s.rampedAt.params = s.params ∧ s.rampedAt.peers = s.peers
      ∧ s.rampedAt.meas = s.meas ∧ s.rampedAt.drive = s.drive ∧ s.rampedAt.engine = s.engineApply.engine
      ∧ s.rampedAt.bus = s.engineApply.bus ∧ s.rampedAt.member = s.engineApply.member := by
  simp [Station.rampedAt]

theorem Station.drivenAt_frame (s : Station) :
    s.drivenAt.pins = s.pins ∧ s.drivenAt.loader = s.loader ∧ s.drivenAt.params = s.params ∧ s.drivenAt.peers = s.peers
      ∧ s.drivenAt.meas = s.meas ∧ s.drivenAt.engine = s.engineApply.engine
      ∧ s.drivenAt.bus = s.engineApply.bus ∧ s.drivenAt.member = s.engineApply.member ∧ s.drivenAt.cond = s.rampedAt.cond := by
  simp [Station.drivenAt, Station.rampedAt]

theorem Station.runOrSuspend_member (s : Station) :
    s.runOrSuspend.member = { s.member with dropPending := false } := by
  unfold Station.runOrSuspend
  split
  · unfold Station.dropAdopted
    exact Station.restAuthority_member _
  · next keeps =>
    have same : s.member = { s.member with dropPending := false } := by
      rw [← Bool.not_eq_true _ |>.mp keeps]
    split
    · exact (by simp : s.runAgreed.member = s.member).trans same
    · exact same

theorem Station.engineApply_member (s : Station) : s.engineApply.member = { s.member with dropPending := false } := by
  change s.formDemand.runOrSuspend.member = _
  rw [Station.runOrSuspend_member]
  simp

/-- What the apply point leaves of each part that is not of the engine, the table, the drive or the proposal. -/
theorem Station.applyWork_parts (s : Station) :
    s.applyWork.bus = { s.bus with
          pendingRecord := s.bus.pendingRecord.map (DecisionRecord.withDemand s.applyWork.engine.demand)
          round := { s.bus.round with applied := true } }
      ∧ s.applyWork.member = { s.member with dropPending := false } ∧ s.applyWork.pins = s.pins
      ∧ s.applyWork.loader = s.loader ∧ s.applyWork.params = s.params ∧ s.applyWork.peers = s.peers
      ∧ s.applyWork.meas = s.meas ∧ s.applyWork.engine = s.engineApply.engine := by
  obtain ⟨pins, loader, params, peers, meas, engine, bus, member, -⟩ := s.drivenAt_frame
  obtain ⟨pins', loader', params', -, member', peers', meas', engine', -⟩ := s.drivenAt.propose_frame s.rampedAt.claimCode
  rw [Station.applyWork_eq]
  refine ⟨?_, member'.trans (member.trans s.engineApply_member), pins'.trans pins, loader'.trans loader, params'.trans params,
    peers'.trans peers, meas'.trans meas, engine'.trans engine⟩
  dsimp only
  rw [engine', engine, bus, Station.engineApply_bus]

theorem DecisionRecord.withDemand_none {r : DecisionRecord} (demand : Int) (none : r.adoption = none) :
    r.withDemand demand = r := by
  unfold DecisionRecord.withDemand
  rw [none, Option.map_none, ← none]

theorem DecisionRecord.withDemand_some {r : DecisionRecord} {a : AdoptionEntry} (demand : Int) (some : r.adoption = some a) :
    r.withDemand demand = { r with adoption := Option.some { a with demand := demand } } := by
  unfold DecisionRecord.withDemand
  rw [some, Option.map_some]

/-! ## The engine (R122, R133, R134, R141) -/

theorem clampSetpoint_natAbs (limit : Nat) (x : Int) : (clampSetpoint limit x).natAbs ≤ limit := by
  unfold clampSetpoint saturate
  split
  · omega
  · split <;> omega

/-- The setpoint is within the agreed LIMIT (R122). -/
theorem Station.applyWork_setpoint (s : Station) : s.applyWork.engine.run.setpoint.natAbs ≤ s.bus.held.limit := by
  rw [Station.applyWork_engine, Engine.formReadiness_run]
  exact clampSetpoint_natAbs _ _

/-- The engine after it differs in the run state and the readiness count alone. -/
def Engine.Reruns (e e' : Engine) : Prop := ∃ (r : RunState) (n : Nat), e' = { e with run := r, readinessCount := n }

namespace Engine.Reruns

variable {e e' e'' : Engine}

theorem refl (e : Engine) : e.Reruns e := ⟨_, _, rfl⟩

theorem trans (h : e.Reruns e') (h' : e'.Reruns e'') : e.Reruns e'' := by
  obtain ⟨r, n, rfl⟩ := h
  obtain ⟨r', n', rfl⟩ := h'
  exact ⟨r', n', rfl⟩

theorem demand (h : e.Reruns e') : e'.demand = e.demand ∧ e'.lastDemand = e.lastDemand ∧ e'.holdCount = e.holdCount := by
  obtain ⟨r, n, rfl⟩ := h
  exact ⟨rfl, rfl, rfl⟩

end Engine.Reruns

theorem Engine.reruns_runToCount (sh : SharedSection) (armed : Bool) (inp : EngineInputs) (e : Engine) :
    e.Reruns (e.runToCount sh armed inp) := by
  have taken : e.Reruns (e.intake sh armed inp.mode) := e.intake_parts sh armed inp.mode
  rw [Engine.runToCount_eq]
  split
  · exact taken.trans ⟨_, _, rfl⟩
  · exact taken

theorem Engine.reruns_checkEnd (sh : SharedSection) (inp : EngineInputs) (e : Engine) : e.Reruns (e.checkEnd sh inp) := by
  unfold Engine.checkEnd
  split
  · exact ⟨_, _, rfl⟩
  · exact .refl e

/-- The stages after the first leave the demand and its hold state (R120). -/
theorem Station.runOrSuspend_demand (s : Station) : s.engine.Reruns s.runOrSuspend.engine := by
  unfold Station.runOrSuspend
  split
  · exact ⟨_, _, rfl⟩
  · split
    · have counted := s.engine.reruns_runToCount s.params.shared s.armed s.engineInputs
      unfold Station.runAgreed
      dsimp only
      split
      · unfold Station.settleTimeout
        split
        · exact counted.trans ⟨_, _, rfl⟩
        · exact counted
      · exact counted.trans (Engine.reruns_checkEnd _ _ _)
    · unfold Engine.suspend
      split
      · exact ⟨_, _, rfl⟩
      · exact .refl _

theorem Station.applyWork_demand (s : Station) :
    s.applyWork.engine.demand = s.formDemand.engine.demand ∧ s.applyWork.engine.lastDemand = s.formDemand.engine.lastDemand
      ∧ s.applyWork.engine.holdCount = s.formDemand.engine.holdCount := by
  rw [Station.applyWork_engine]
  obtain ⟨demand, last, hold⟩ := Engine.formReadiness_keeps s.params.shared s.meas.latest
    (s.formDemand.runOrSuspend.engine.clamp s.bus.held.limit)
  obtain ⟨demand', last', hold'⟩ := s.formDemand.runOrSuspend_demand.demand
  exact ⟨demand.trans demand', last.trans last', hold.trans hold'⟩

theorem Station.formDemand_source {s : Station} {d : Int} (source : s.sourceDemand = some d) :
    s.formDemand.engine = { s.engine with demand := d, lastDemand := d, holdCount := 0 } := by
  unfold Station.formDemand
  rw [source]
  exact Station.removeDemandLost_engine _

/-- The hold count after a round without a source report (R134). -/
def Station.heldRounds (s : Station) : Nat := min (s.params.shared.demandHold + 1) (s.engine.holdCount + 1)

theorem Station.formDemand_held {s : Station} (none : s.sourceDemand = none) (takes : takesPart s.member.state = true) :
    s.formDemand.engine =
      { s.engine with
        demand := if s.params.shared.demandHold < s.heldRounds then 0 else s.engine.lastDemand
        holdCount := s.heldRounds } := by
  unfold Station.formDemand
  rw [none]
  dsimp only
  rw [Station.demandLost_engine]
  have due : ({ s with engine := { s.engine with
      demand := s.engine.lastDemand, holdCount := s.heldRounds } } : Station).demandLostDue =
        decide (s.params.shared.demandHold < s.heldRounds) := by
    unfold Station.demandLostDue
    rw [takes, Bool.true_and]
  change (if ({ s with engine := { s.engine with
      demand := s.engine.lastDemand, holdCount := s.heldRounds } } : Station).demandLostDue = true then _ else _) = _
  rw [due]
  by_cases above : s.params.shared.demandHold < s.heldRounds
  · rw [if_pos (decide_eq_true above), if_pos above]
    rfl
  · rw [if_neg (by simp [above]), if_neg above]
    rfl

/-- A drop of the adopted state puts the run state and the table at rest (R69, R141, R143). -/
theorem Station.applyWork_dropped {s : Station} (drops : s.member.dropPending = true) :
    s.applyWork.engine.run = RunState.idle ∧ s.applyWork.engine.readinessCount = 0 ∧ s.applyWork.engine.ready = true := by
  have member : s.formDemand.member = s.member := by simp
  have dropped : s.formDemand.runOrSuspend.engine = s.formDemand.engine.clearRun := by
    unfold Station.runOrSuspend
    rw [if_pos (by rw [member, drops])]
    exact Station.restAuthority_engine _
  have clamped : ∀ limit, clampSetpoint limit 0 = 0 := fun limit => Int.natAbs_eq_zero.mp (by
    unfold clampSetpoint
    rw [saturate_le (by omega) (by omega)]
    rfl)
  rw [Station.applyWork_engine, dropped]
  have run : (s.formDemand.engine.clearRun.clamp s.bus.held.limit).run = RunState.idle := by
    unfold Engine.clamp Engine.clearRun
    dsimp only
    rw [show RunState.idle.setpoint = 0 from rfl, clamped]
    rfl
  have rest : (s.formDemand.engine.clearRun.clamp s.bus.held.limit).formReadiness s.params.shared s.meas.latest =
      { s.formDemand.engine.clearRun.clamp s.bus.held.limit with ready := true } := by
    refine Engine.formReadiness_free ?_
    rw [run, show RunState.idle.engine = .idle from rfl]
    simp
  rw [rest]
  exact ⟨run, rfl, rfl⟩

/-! ## The authority table (R146, R152) -/

theorem Authority.ext_groups {a b : Authority} (live : a.live = b.live)
    (groups : ∀ g : Group, a.group g = b.group g ∧ a.retry g = b.retry g) : a = b := by
  obtain ⟨tilt, tiltRetry⟩ := groups .tilt
  obtain ⟨steer, steerRetry⟩ := groups .steer
  cases a
  cases b
  cases live
  cases tilt
  cases steer
  cases tiltRetry
  cases steerRetry
  rfl

/-- A live table makes one ramp step of each group in an agreed round (R152). -/
theorem Station.rampStep_groups {s : Station} (live : s.auth.live = true) (agreed : s.applyClass = .agreed) :
    s.rampStep.auth.live = true ∧ ∀ g : Group,
      s.rampStep.auth.group g = (s.commitGroup g (groupRamp g s.params.shared.rampRounds (s.auth.group g))).auth.group g
        ∧ s.rampStep.auth.retry g =
          (s.commitGroup g (groupRamp g s.params.shared.rampRounds (s.auth.group g))).auth.retry g := by
  have steps : s.rampStep = (s.rampGroup .tilt).rampGroup .steer := if_pos (by simp [live, agreed])
  obtain ⟨eqn, live₁, -, group₁, retry₁⟩ :=
    s.commitGroup_parts .tilt (groupRamp .tilt s.params.shared.rampRounds (s.auth.group .tilt))
  have same := s.commitGroup_sameParties .tilt (groupRamp .tilt s.params.shared.rampRounds (s.auth.group .tilt))
  rw [steps]
  unfold Station.rampGroup
  obtain ⟨u, is⟩ : ∃ u, u = s.commitGroup .tilt (groupRamp .tilt s.params.shared.rampRounds (s.auth.group .tilt)) := ⟨_, rfl⟩
  rw [← is] at live₁ group₁ retry₁ same ⊢
  rw [same.params, show u.auth.group .steer = s.auth.group .steer from group₁]
  obtain ⟨-, live₂, -, group₂, retry₂⟩ :=
    u.commitGroup_parts .steer (groupRamp .steer s.params.shared.rampRounds (s.auth.group .steer))
  refine ⟨live₂.trans (live₁.trans live), fun g => ?_⟩
  cases g with
  | tilt =>
    rw [← is]
    exact ⟨group₂, retry₂⟩
  | steer => exact ⟨Station.commitGroup_group_congr group₁ _, Station.commitGroup_retry_congr same.number retry₁ _⟩

theorem Station.rampStep_rest {s : Station} (rest : s.auth.live = false ∨ s.applyClass ≠ .agreed) : s.rampStep = s := by
  refine if_neg ?_
  rcases rest with rest | rest
  · rw [rest]
    simp
  · simp [rest]

/-- The ramp step reads the table, the number, the rounds of a ramp and the class of the round. -/
theorem Station.rampStep_auth_congr {s t : Station} (auth : t.auth = s.auth) (number : t.number = s.number)
    (params : t.params = s.params) (class_ : t.applyClass = s.applyClass) : t.rampStep.auth = s.rampStep.auth := by
  by_cases steps : s.auth.live = true ∧ s.applyClass = .agreed
  · obtain ⟨live, agreed⟩ := steps
    obtain ⟨live₁, groups₁⟩ := Station.rampStep_groups live agreed
    obtain ⟨live₂, groups₂⟩ := Station.rampStep_groups (auth ▸ live : t.auth.live = true) (class_.trans agreed)
    refine Authority.ext_groups (live₂.trans live₁.symm) fun g => ?_
    obtain ⟨group₁, retry₁⟩ := groups₁ g
    obtain ⟨group₂, retry₂⟩ := groups₂ g
    rw [group₁, retry₁, group₂, retry₂, params, auth]
    exact ⟨Station.commitGroup_group_congr (by rw [auth]) _, Station.commitGroup_retry_congr number (by rw [auth]) _⟩
  · have rest : s.auth.live = false ∨ s.applyClass ≠ .agreed := by
      by_cases live : s.auth.live = true
      · exact .inr fun agreed => steps ⟨live, agreed⟩
      · exact .inl (Bool.not_eq_true _ ▸ live)
    rw [Station.rampStep_rest rest, Station.rampStep_rest (by rw [auth, class_]; exact rest), auth]

/-- The table after the drop or the ramps (R143, R152). -/
def Station.rampedTable (s : Station) : Authority := if s.member.dropPending then Authority.atRest else s.rampStep.auth

theorem Station.engineApply_auth (s : Station) :
    s.engineApply.auth = if s.member.dropPending then Authority.atRest else s.auth := by
  have member : s.formDemand.member = s.member := by simp
  have auth : s.formDemand.auth = s.auth := by simp
  change s.formDemand.runOrSuspend.auth = _
  unfold Station.runOrSuspend
  rw [member]
  split
  · rfl
  · split
    · exact (by simp : s.formDemand.runAgreed.auth = s.formDemand.auth).trans auth
    · exact auth

theorem Station.engineApply_applyClass (s : Station) : s.engineApply.applyClass = s.applyClass := by
  unfold Station.applyClass
  rw [Station.engineApply_bus]

theorem Station.rampedAt_auth (s : Station) : s.rampedAt.auth = s.rampedTable := by
  have ramped : s.rampedAt.auth = s.engineApply.rampStep.auth := by simp [Station.rampedAt]
  obtain ⟨-, loader, params, -⟩ := s.engineApply_frame
  have auth := s.engineApply_auth
  rw [ramped]
  unfold Station.rampedTable
  split
  · next drops =>
    rw [if_pos drops] at auth
    rw [Station.rampStep_rest (.inl (by rw [auth]; rfl)), auth]
  · next keeps =>
    rw [if_neg keeps] at auth
    exact Station.rampStep_auth_congr auth (congrArg (·.straps) loader) params s.engineApply_applyClass

theorem Station.applyWork_auth (s : Station) :
    s.applyWork.auth = if s.rampedTable.live then s.rampedTable.countRounds else s.rampedTable := by
  have counted : s.applyWork.auth = s.rampedAt.countAuthority.auth := by simp [Station.applyWork_eq, Station.drivenAt]
  rw [counted]
  unfold Station.countAuthority
  rw [s.rampedAt_auth]
  split
  · rfl
  · exact s.rampedAt_auth

theorem Authority.countRounds_group (a : Authority) (g : Group) :
    a.countRounds.group g = { a.group g with lossAge := min 64 ((a.group g).lossAge + 1) }
      ∧ a.countRounds.retry g = { a.retry g with backoff := (a.retry g).backoff - 1 } := by
  cases g <;> exact ⟨rfl, rfl⟩

end Sys2Proof.Machine
end

