-- ==== Sys2Proof/Proofs/ApplyDrive.lean ====
section
/-! The Drive Unit at the apply point (R163 to R166), and the conditions that the apply point leaves. -/

namespace Sys2Proof.Machine

/-! ## The drive (R163 to R166, R169) -/

/-- The law of the role reads the engine, the table, the measurements, the parameters and what the peers report this round. -/
theorem Station.driveTarget_congr {s t : Station} (loader : t.loader = s.loader) (params : t.params = s.params)
    (peers : t.peers = s.peers) (round : t.bus.roundNumber = s.bus.roundNumber) (meas : t.meas = s.meas)
    (engine : t.engine = s.engine) (auth : ∀ g, (t.auth.group g).holders = (s.auth.group g).holders) :
    t.driveTarget = s.driveTarget := by
  have number : t.number = s.number := congrArg (·.straps) loader
  have share : ∀ g, t.ownShare g = s.ownShare g := fun g => by rw [Station.ownShare, auth, number, Station.ownShare]
  have torque : t.fitValue t.meas.latest .steerTorque = s.fitValue s.meas.latest .steerTorque := by
    rw [Station.fitValue_eq, Station.fitValue_eq, params, meas]
  have lean : t.scooterLean = s.scooterLean := by
    unfold Station.scooterLean
    rw [Station.peerLeans_thisRound, Station.peerLeans_thisRound, number, peers, round]
  unfold Station.driveTarget
  rw [share, share, torque, lean, params, meas, engine]

theorem Station.mayLeaveOff_iff (s : Station) :
    s.mayLeaveOff = true ↔
      s.member.state = .member ∧ s.pins.disable = false ∧ s.pins.drvFlt = false ∧ s.member.disableSeen = false
        ∧ s.drive.fltSeen = false := by
  simp [Station.mayLeaveOff, and_assoc]

theorem Drive.stepLock_effort (sh : SharedSection) (agreed : Bool) (mode : Mode) (d : Drive) :
    (d.stepLock sh agreed mode).effort = d.effort := by
  have up : (d.stepUp sh.lockRamp).effort = d.effort := by
    rw [Drive.stepUp_eq]
    split <;> rfl
  unfold Drive.stepLock
  split
  · rfl
  · split
    · exact up
    · rfl
  · next down =>
    split
    · exact up
    · rw [Drive.stepDown_eq down]
  · split
    · exact up
    · rfl
  · split <;> rfl

/-- The effort of a unit that is not OFF, and the pins that show it (R164 to R166, R169, R170). -/
def Drive.updated (sh : SharedSection) (own : StationSection) (agreed tilt inMember : Bool) (mode : Mode) (target : Int)
    (d : Drive) : Drive :=
  let stepped := d.stepLock sh agreed mode
  let out := stepped.putOut own.dirInverted
    (slewAndLimit own.effortSlew (effortLimit own.effortMax sh.lockRamp stepped) target d.effort)
  { out with
    lrel := stepped.lrel ||
      (decide (stepped.output = .active) && decide (sh.releaseHold ≤ stepped.release) && tilt && inMember
        && decide (mode ≠ .lock)) }

theorem Station.driveUpdate_drive (s : Station) :
    s.driveUpdate.drive =
      s.drive.updated s.params.shared s.params.own (decide (s.applyClass = .agreed)) (isTiltRole s.params.role)
        (decide (s.member.state = .member)) s.bus.held.mode s.driveTarget := by
  obtain ⟨stepped, is⟩ : ∃ d, d = s.drive.stepLock s.params.shared (decide (s.applyClass = .agreed)) s.bus.held.mode := ⟨_, rfl⟩
  have target : ({ s with drive := stepped } : Station).driveTarget = s.driveTarget :=
    Station.driveTarget_congr rfl rfl rfl rfl rfl rfl fun _ => rfl
  have effort : stepped.effort = s.drive.effort := by rw [is, Drive.stepLock_effort]
  unfold Station.driveUpdate Drive.updated
  dsimp only
  rw [← is, target, effort]
  unfold Station.releaseHoldEnd
  split
  · next due =>
    have met : (decide (stepped.output = .active) && decide (s.params.shared.releaseHold ≤ stepped.release)
      && isTiltRole s.params.role && decide (s.member.state = .member) && decide (s.bus.held.mode ≠ .lock)) = true := due
    rw [met, Bool.or_true]
  · next not =>
    have unmet : (decide (stepped.output = .active) && decide (s.params.shared.releaseHold ≤ stepped.release)
      && isTiltRole s.params.role && decide (s.member.state = .member) && decide (s.bus.held.mode ≠ .lock)) = false :=
      Bool.eq_false_iff.mpr not
    rw [unmet, Bool.or_false]
    rfl

/-- The drive at the start of its apply point: OFF is left where it may be (R163). -/
def Drive.leftOff (d : Drive) : Drive := if d.output = .off then { d with output := .locked, lockRamp := 0 } else d

theorem Drive.leftOff_effort (d : Drive) : d.leftOff.effort = d.effort := by
  unfold Drive.leftOff
  split <;> rfl

theorem Drive.leftOff_output (d : Drive) : d.leftOff.output ≠ .off := by
  unfold Drive.leftOff
  split
  · exact nofun
  · next on => exact on

theorem Station.driveApply_cases (s : Station) :
    (isDriveRole s.params.role = false → s.driveApply.drive = s.drive)
      ∧ (isDriveRole s.params.role = true → s.drive.output = .off → s.mayLeaveOff = false → s.driveApply.drive = s.drive)
      ∧ (isDriveRole s.params.role = true → s.drive.output ≠ .off ∨ s.mayLeaveOff = true →
          s.driveApply = ({ s with drive := s.drive.leftOff } : Station).driveUpdate) := by
  refine ⟨fun other => ?_, fun role off stays => ?_, fun role leaves => ?_⟩
  · unfold Station.driveApply
    rw [if_neg (by rw [other]; decide)]
  · have kept : s.leaveOff = s := if_neg (by rw [stays]; simp)
    unfold Station.driveApply
    rw [if_pos role]
    dsimp only
    rw [kept, if_pos off]
  · have left : s.leaveOff = { s with drive := s.drive.leftOff } := by
      unfold Station.leaveOff Drive.leftOff
      by_cases off : s.drive.output = .off
      · rw [if_pos off, if_pos (by simp [off, leaves.resolve_left (not_not_intro off)])]
      · rw [if_neg off, if_neg (by simp [off])]
    unfold Station.driveApply
    rw [if_pos role]
    dsimp only
    rw [left, if_neg s.drive.leftOff_output]

/-! ## The conditions -/

theorem setCond_speedMode (c : ConditionUnit) (cause : Bool) (k : CondKey) (level : Nat) :
    (setCond c cause k level).speedMode = c.speedMode := by
  cases cause
  · change (removeCond c k).speedMode = c.speedMode
    rw [removeCond_frame]
  · change (holdCond c k level).speedMode = c.speedMode
    unfold holdCond
    split
    · rfl
    · rw [offerQueue_frame, enterCond_frame]

theorem raiseEvent_speedMode (c : ConditionUnit) (k : CondKey) (level : Nat) :
    (raiseEvent c k level).speedMode = c.speedMode := by
  unfold raiseEvent
  split
  · rw [offerQueue_frame]
  · rw [offerQueue_frame, enterCond_frame]

/-- Raises and holds leave the speed mode. -/
theorem ConditionUnit.Worked.speedMode {codes : CondCode → Prop} {c d : ConditionUnit} (h : c.Worked codes d) :
    d.speedMode = c.speedMode := by
  induction h with
  | refl => rfl
  | raise level _ _ _ ih => exact (raiseEvent_speedMode _ _ level).trans ih
  | set cause level _ _ ih => exact (setCond_speedMode _ cause _ level).trans ih

theorem ConditionUnit.Worked.mono {codes wider : CondCode → Prop} {c d : ConditionUnit} (h : c.Worked codes d)
    (within : ∀ code, codes code → wider code) : c.Worked wider d := by
  induction h with
  | refl => exact .refl
  | raise level _ event is ih => exact ih.raise level event (within _ is)
  | set cause level _ is ih => exact ih.set cause level (within _ is)

/-! ### Stage 1 -/

theorem Station.worked_removeDemandLost (s : Station) : s.Worked (· = .demandLost) s.removeDemandLost :=
  Station.worked_foldl (codes := fun code => code = .demandLost) (fun t n => t.worked_setHeld false n rfl) (List.range 9) s

theorem Station.worked_holdDemandLost (s : Station) (source : Nat) : s.Worked (· = .demandLost) (s.holdDemandLost source) := by
  unfold Station.holdDemandLost
  refine ConditionUnit.Worked.trans (Station.worked_foldl (fun t n => ?_) (List.range 9) s)
    (Station.worked_setHeld _ true source rfl)
  split
  · exact .refl
  · exact t.worked_setHeld false n rfl

theorem Station.worked_demandLost (s : Station) : s.Worked (· = .demandLost) s.demandLost := by
  unfold Station.demandLost
  split
  · exact Station.worked_holdDemandLost { s with engine := { s.engine with demand := 0 } } _
  · exact .refl

theorem Station.worked_formDemand (s : Station) : s.Worked (· = .demandLost) s.formDemand := by
  unfold Station.formDemand
  split
  · exact Station.worked_removeDemandLost _
  · exact Station.worked_demandLost
      { s with
        engine :=
          { s.engine with
            demand := s.engine.lastDemand, holdCount := succSat (s.params.shared.demandHold + 1) s.engine.holdCount } }

/-! ### After stage 1 -/

/-- The codes that the apply point raises, holds or removes after stage 1. -/
abbrev isApplyCode (code : CondCode) : Prop := code = .settleTimeout ∨ isHandoverCode code

theorem Station.worked_restAuthority (s : Station) : s.Worked isApplyCode s.restAuthority :=
  ((((Station.worked_setHeld { s with auth := Authority.atRest } false 0 (by decide)).trans
    (Station.worked_setHeld _ false 0 (by decide))).trans (Station.worked_setHeld _ false 0 (by decide))).trans
    (Station.worked_setHeld _ false 0 (by decide))).trans (Station.worked_setHeld _ false 1 (by decide))

theorem Station.worked_runOrSuspend (s : Station) : s.Worked isApplyCode s.runOrSuspend := by
  unfold Station.runOrSuspend
  split
  · exact Station.worked_restAuthority { s with engine := _, member := _ }
  · split
    · unfold Station.runAgreed
      dsimp only
      split
      · unfold Station.settleTimeout
        split
        · exact Station.worked_raise { s with engine := _ } _ rfl (.inl rfl)
        · exact .refl
      · exact .refl
    · exact .refl

theorem Station.worked_rampStep (s : Station) : s.Worked isApplyCode s.rampStep := by
  unfold Station.rampStep
  split
  · exact ((s.worked_commitGroup .tilt _).trans (Station.worked_commitGroup _ .steer _)).mono fun _ is => .inr is
  · exact .refl

/-- The works from stage 2 on, up to the group conditions. -/
theorem Station.worked_rampStep_after (s : Station) : s.formDemand.Worked isApplyCode s.engineApply.rampStep :=
  s.formDemand.worked_runOrSuspend.trans (Station.worked_rampStep s.engineApply)

theorem Station.worked_rampedAt (s : Station) : s.formDemand.Worked isApplyCode s.rampedAt :=
  s.worked_rampStep_after.trans ((Station.worked_groupConds _).mono fun _ is => .inr is)

/-! ### DEMAND_LOST (R134) -/

theorem Station.removeDemandLost_held {s : Station} (sound : s.cond.tableSound) {n : Nat} (small : n ≤ 8) :
    isHeld s.removeDemandLost.cond { code := .demandLost, source := n } = false := by
  obtain ⟨-, held⟩ :=
    Station.isHeld_foldl_removals (code := .demandLost) rfl (fun _ => false) (List.range 9) s sound
  simp only [Bool.false_eq_true, if_false, Bool.false_or] at held
  have listed : n ∈ List.range 9 := List.mem_range.mpr (by omega)
  exact (held n).trans (by simp only [listed, decide_true, Bool.not_true, Bool.and_false])

/-- DEMAND_LOST leaves with a source report, and is held under the chosen source alone while the hold count is above
DEMAND_HOLD (R134). -/
theorem Station.formDemand_lost {s : Station} (sound : s.cond.tableSound) (takes : takesPart s.member.state = true) {n : Nat}
    (small : n ≤ 8) :
    (s.sourceDemand.isSome = true → isHeld s.formDemand.cond { code := .demandLost, source := n } = false)
      ∧ (s.sourceDemand = none → s.params.shared.demandHold < s.heldRounds →
          isHeld s.formDemand.cond { code := .demandLost, source := n } = decide (n = s.demandLostSource))
      ∧ (s.sourceDemand = none → ¬s.params.shared.demandHold < s.heldRounds → s.formDemand.cond = s.cond) := by
  have lost : s.sourceDemand = none → s.formDemand = ({ s with engine := { s.engine with
      demand := s.engine.lastDemand, holdCount := s.heldRounds } } : Station).demandLost := fun none => by
    unfold Station.formDemand
    rw [none]
    rfl
  have due : ({ s with engine := { s.engine with
      demand := s.engine.lastDemand, holdCount := s.heldRounds } } : Station).demandLostDue =
        decide (s.params.shared.demandHold < s.heldRounds) := by
    unfold Station.demandLostDue
    rw [takes, Bool.true_and]
  refine ⟨fun some => ?_, fun none above => ?_, fun none low => ?_⟩
  · obtain ⟨d, source⟩ := Option.isSome_iff_exists.mp some
    unfold Station.formDemand
    rw [source]
    exact Station.removeDemandLost_held (s := { s with engine := { s.engine with demand := d, lastDemand := d, holdCount := 0 } })
      sound small
  · rw [lost none]
    unfold Station.demandLost
    rw [due, if_pos (decide_eq_true above)]
    exact Station.holdDemandLost_held (s := { s with engine := { s.engine with demand := 0, holdCount := s.heldRounds } }) sound
      _ small
  · rw [lost none]
    unfold Station.demandLost
    rw [due, if_neg (by simp [low])]

end Sys2Proof.Machine
end

