-- ==== Sys2Proof/Proofs/ApplyProposal.lean ====
section
/-! The proposal record of the apply point: the limit curve, the terms of the mode and the limit, the claim code (R146, R179 to
R183), and the reports that the apply point reads (R81, R133). -/

namespace Sys2Proof.Machine

/-! ## The limit curve (R182) -/

theorem curveFrom_first {v : Nat} {a : CurvePoint} {rest : List CurvePoint} (low : v ≤ a.speed) :
    curveFrom v (a :: rest) = a.limit := by
  cases rest with
  | nil => rfl
  | cons b rest => exact if_pos low

theorem curveFrom_last {v : Nat} {curve : List CurvePoint} (rises : (curve.map (·.speed)).Pairwise (· < ·)) {a : CurvePoint}
    (last : curve.getLast? = some a) (high : a.speed ≤ v) : curveFrom v curve = a.limit := by
  induction curve with
  | nil => cases last
  | cons p rest ih =>
    cases rest with
    | nil =>
      cases last
      rfl
    | cons q rest =>
      rw [List.getLast?_cons_cons] at last
      rw [List.map_cons, List.pairwise_cons] at rises
      obtain ⟨above, rises⟩ := rises
      have member : a ∈ q :: rest := List.mem_of_getLast? last
      have low : p.speed < a.speed := above _ (List.mem_map_of_mem member)
      have next : ¬v < q.speed := by
        rw [List.map_cons, List.pairwise_cons] at rises
        rcases List.mem_cons.mp member with rfl | further
        · omega
        · have := rises.1 _ (List.mem_map_of_mem further)
          omega
      refine Eq.trans ?_ (ih rises last)
      exact (if_neg (by omega)).trans (if_neg next)

/-- Straight between two points, truncated toward zero; never below both limits, so no value is lost. -/
theorem between_eq {p q : CurvePoint} {v : Nat} (low : p.speed ≤ v) (high : v < q.speed) :
    (between p q v : Int) =
      p.limit + (((q.limit : Int) - p.limit) * ((v : Int) - p.speed)).tdiv ((q.speed : Int) - p.speed) := by
  have width : (0 : Int) < (q.speed : Int) - p.speed := by omega
  have least : -(p.limit : Int) ≤ (((q.limit : Int) - p.limit) * ((v : Int) - p.speed)).tdiv ((q.speed : Int) - p.speed) := by
    rcases le_total p.limit q.limit with up | down
    · have rise : 0 ≤ ((q.limit : Int) - p.limit) * ((v : Int) - p.speed) := mul_nonneg (by omega) (by omega)
      have := Int.tdiv_nonneg rise width.le
      omega
    · have fall : 0 ≤ ((p.limit : Int) - q.limit) * ((v : Int) - p.speed) := mul_nonneg (by omega) (by omega)
      have bound : ((p.limit : Int) - q.limit) * ((v : Int) - p.speed) ≤ p.limit * ((q.speed : Int) - p.speed) :=
        mul_le_mul (by omega) (by omega) (by omega) (by omega)
      have within : (((p.limit : Int) - q.limit) * ((v : Int) - p.speed)).tdiv ((q.speed : Int) - p.speed) ≤ p.limit := by
        rw [Int.tdiv_eq_ediv_of_nonneg fall]
        exact Int.ediv_le_of_le_mul width bound
      rw [show ((q.limit : Int) - p.limit) * ((v : Int) - p.speed) =
        -(((p.limit : Int) - q.limit) * ((v : Int) - p.speed)) by ring,
        Int.neg_tdiv]
      omega
  unfold between
  omega

theorem curveFrom_between {v : Nat} {curve : List CurvePoint} (rises : (curve.map (·.speed)).Pairwise (· < ·)) {i : Nat}
    {a b : CurvePoint} (first : curve[i]? = some a) (second : curve[i + 1]? = some b) (low : a.speed ≤ v) (high : v < b.speed) :
    (curveFrom v curve : Int) =
      a.limit + (((b.limit : Int) - a.limit) * ((v : Int) - a.speed)).tdiv ((b.speed : Int) - a.speed) := by
  induction curve generalizing i with
  | nil => simp at first
  | cons p rest ih =>
    cases rest with
    | nil => simp at second
    | cons q rest =>
      cases i with
      | zero =>
        cases first
        cases second
        by_cases start : v ≤ a.speed
        · rw [curveFrom_first start, show (v : Int) - a.speed = 0 by omega]
          simp
        · rw [← between_eq low high]
          exact congrArg _ ((if_neg start).trans (if_pos high))
      | succ i =>
        rw [List.map_cons, List.pairwise_cons] at rises
        obtain ⟨above, rises⟩ := rises
        have member : a ∈ q :: rest := List.mem_of_getElem? first
        have later : p.speed < a.speed := above _ (List.mem_map_of_mem member)
        have next : ¬v < q.speed := by
          rw [List.map_cons, List.pairwise_cons] at rises
          rcases List.mem_cons.mp member with rfl | further
          · omega
          · have := rises.1 _ (List.mem_map_of_mem further)
            omega
        refine Eq.trans (congrArg _ ?_) (ih rises first second)
        exact (if_neg (by omega)).trans (if_neg next)

/-! ## The terms of the mode and the limit (R179 to R182) -/

theorem modeCap_eq (level : Nat) :
    modeCap level = if level = 0 then 4 else if level = 1 then 3 else if level = 2 then 2 else 0 := by
  rcases level with _ | _ | _ | level
  · rfl
  · rfl
  · rfl
  · rw [if_neg (by omega), if_neg (by omega), if_neg (by omega)]
    rfl

theorem limitCap_eq (sh : SharedSection) (level : Nat) :
    limitCap sh level =
      if level = 0 then 360 else if level = 1 then sh.cautionLimit else if level = 2 then sh.walkLimit else 0 := by
  rcases level with _ | _ | _ | level
  · rfl
  · rfl
  · rfl
  · rw [if_neg (by omega), if_neg (by omega), if_neg (by omega)]
    rfl

theorem modeAbove_code (sh : SharedSection) (margin v : Nat) :
    modeCode (modeAbove sh margin v) =
      if sh.vGuided + margin ≤ v then 4 else if sh.vWalk + margin ≤ v then 3 else if 1 + margin ≤ v then 2 else 1 := by
  unfold modeAbove
  (repeat' split) <;> rfl

theorem nextSpeedMode_code (sh : SharedSection) (before : Mode) (v : Nat) :
    modeCode (nextSpeedMode sh before v) =
      if modeCode (modeAbove sh 0 v) < modeCode before then modeCode (modeAbove sh 0 v)
      else if modeCode before < modeCode (modeAbove sh sh.vh v) then modeCode (modeAbove sh sh.vh v) else modeCode before := by
  unfold nextSpeedMode
  dsimp only
  rw [apply_ite modeCode, apply_ite modeCode]

theorem modeCode_of_small {n : Nat} (small : n ≤ 4) : modeCode ((modeOfCode n).getD .lock) = n := by
  rcases n with _ | _ | _ | _ | _ | n
  · rfl
  · rfl
  · rfl
  · rfl
  · rfl
  · omega

/-- The mode of the proposal is the least of its terms: the mode cap is a mode's code (R181). -/
theorem Station.buildProposal_mode (s : Station) (claim : Nat) :
    modeCode (s.buildProposal claim).mode = min (min (modeCap s.capLevel) s.speedTerm) (min s.parkTerm s.haltTerm) := by
  have small : modeCap s.capLevel ≤ 4 := by
    rw [modeCap_eq]
    (repeat' split) <;> omega
  exact modeCode_of_small (n := s.modeProposal) (by unfold Station.modeProposal; omega)

theorem Station.parkTerm_eq (s : Station) :
    ((isSteerRole s.params.role = true ∧ s.pins.parkReq = true ∧ ∃ v, s.parkSpeed = some v ∧ v < s.params.shared.vWalk) →
        s.parkTerm = 1)
      ∧ (¬(isSteerRole s.params.role = true ∧ s.pins.parkReq = true ∧ ∃ v, s.parkSpeed = some v ∧ v < s.params.shared.vWalk) →
        s.parkTerm = 7) := by
  unfold Station.parkTerm
  cases s.parkSpeed with
  | none =>
    refine ⟨fun h => ?_, fun _ => rfl⟩
    obtain ⟨-, -, v, is, -⟩ := h
    cases is
  | some v =>
    refine ⟨fun h => ?_, fun not => if_neg fun both => not ?_⟩
    · obtain ⟨role, asked, v', is, low⟩ := h
      cases is
      exact if_pos (by simp [role, asked, low])
    · simp only [Bool.and_eq_true, decide_eq_true_iff] at both
      exact ⟨both.1.1, both.1.2, v, rfl, both.2⟩

theorem Station.parkSpeed_eq (s : Station) :
    s.parkSpeed =
      match s.meas.latest.ownSpeed, s.sourceSpeed with
      | some v, _ => some v
      | none, some v => some v
      | none, none => s.peerSpeed := by
  unfold Station.parkSpeed
  cases s.meas.latest.ownSpeed with
  | some v => rfl
  | none => cases s.sourceSpeed <;> rfl

/-! ## The reports that the apply point reads (R81, R133) -/

/-- The stations agree in the reports of this round and in what chooses among them. -/
structure Station.SameReports (s t : Station) : Prop where
  loader : t.loader = s.loader
  params : t.params = s.params
  peers : t.peers = s.peers
  round : t.bus.roundNumber = s.bus.roundNumber

namespace Station.SameReports

variable {s t : Station}

theorem number (h : s.SameReports t) : t.number = s.number := congrArg (·.straps) h.loader

theorem thisRound (h : s.SameReports t) : t.thisRound = s.thisRound := by
  unfold Station.thisRound
  rw [h.peers, h.round]

theorem usable (h : s.SameReports t) : t.usable = s.usable := by
  unfold Station.usable
  rw [h.peers]

theorem demandSource (h : s.SameReports t) : t.demandSource = s.demandSource := by
  unfold Station.demandSource Station.maySource
  rw [h.usable, h.params, h.number]

theorem sourceDemand (h : s.SameReports t) : t.sourceDemand = s.sourceDemand := by
  unfold Station.sourceDemand
  rw [h.demandSource, h.thisRound]

theorem sourceSpeed (h : s.SameReports t) : t.sourceSpeed = s.sourceSpeed := by
  unfold Station.sourceSpeed
  rw [h.demandSource, h.thisRound]

theorem peerSpeed (h : s.SameReports t) : t.peerSpeed = s.peerSpeed := by
  unfold Station.peerSpeed
  rw [h.number, h.usable, h.thisRound]

end Station.SameReports

/-- The source of the demand: the primary, else the secondary, each usable or the own number (R133). -/
theorem Station.demandSource_eq (s : Station) :
    s.demandSource =
      if s.usable s.params.shared.demandPrimary = true ∨ s.params.shared.demandPrimary = s.number then
        some s.params.shared.demandPrimary
      else if s.usable s.params.shared.demandSecondary = true ∨ s.params.shared.demandSecondary = s.number then
        some s.params.shared.demandSecondary
      else none := by
  have may : ∀ k, s.maySource k = true ↔ s.usable k = true ∨ k = s.number := fun k => by simp [Station.maySource]
  unfold Station.demandSource
  simp only [may]

theorem Station.sourceDemand_eq (s : Station) : s.sourceDemand = (s.demandSource.bind s.thisRound).bind readDemand := by
  rw [Option.bind_assoc]
  rfl

theorem Station.peerSpeed_eq (s : Station) :
    s.peerSpeed =
      (allStations.filterMap fun k =>
        if k ≠ s.number ∧ s.usable k = true then (s.thisRound k).bind readSpeed else none).max? := by
  unfold Station.peerSpeed
  simp only [Bool.and_eq_true, decide_eq_true_iff]

/-! ## The claim code (R146) -/

theorem isHolder_eq_false_iff (holders : List Holder) (k : StationNo) :
    isHolder holders k = false ↔ ∀ h ∈ holders, h.station ≠ k := by
  simp [isHolder]

theorem Station.ownGroup_iff (s : Station) (g : Group) :
    s.ownGroup = some g ↔
      (g = .tilt ∧ isTiltRole s.params.role = true) ∨ (g = .steer ∧ isSteerRole s.params.role = true) := by
  unfold Station.ownGroup
  generalize s.params.role = r
  cases g <;> cases r <;> decide

theorem Station.ownGroup_none {s : Station} (other : isDriveRole s.params.role = false) : s.ownGroup = none := by
  revert other
  unfold Station.ownGroup
  generalize s.params.role = r
  cases r <;> decide

theorem mostHolders_eq (g : Group) : mostHolders g = if g = .tilt then 2 else 1 := by cases g <;> rfl

theorem Station.mayClaim_iff (s : Station) (g : Group) :
    s.mayClaim g = true ↔
      s.auth.live = true ∧ s.member.state = .member ∧ (∀ h ∈ (s.auth.group g).holders, h.station ≠ s.number)
        ∧ (s.auth.group g).holders.length < (if g = .tilt then 2 else 1) ∧ (s.auth.group g).transaction = none
        ∧ (s.auth.retry g).backoff = 0 ∧ (s.auth.retry g).givenUp = false ∧ s.drive.fltSeen = false
        ∧ ((s.auth.group g).holders = [] ∨ (s.bus.held.mode ≠ .lock ∧ s.bus.held.fault < 3)) := by
  rw [← isHolder_eq_false_iff, ← mostHolders_eq]
  simp [Station.mayClaim, and_assoc]

/-- The claim code of the own group; 127 where no claim may be formed. -/
theorem Station.claimCode_of {s : Station} {g : Group} (own : s.ownGroup = some g) :
    (s.mayClaim g = true → s.claimCode = 32 * groupCode g + 8 * s.urgency g + s.number.val)
      ∧ (¬s.mayClaim g = true → s.claimCode = 127) := by
  unfold Station.claimCode
  rw [own]
  exact ⟨fun may => if_pos may, fun not => if_neg not⟩

end Sys2Proof.Machine
end

