-- ==== Sys2Proof/Proofs/ApplyPoint.lean ====
section
/-! The whole apply point, each block's work done once and in the order of the spec (R120, R163, R183). -/

namespace Sys2Proof.Machine

/-! ## The proposal record (R174, R180, R183) -/

/-- The station that hands over the proposal record: displaced conditions offered, the speed mode moved. -/
def Station.proposing (s : Station) : Station := ({ s with cond := reofferDisplaced s.cond } : Station).moveSpeedMode

/-- The speed mode after the apply point (R180). -/
def Station.movedMode (s : Station) : Mode :=
  match s.meas.latest.ownSpeed with
  | some v => nextSpeedMode s.params.shared s.cond.speedMode v
  | none => s.cond.speedMode

theorem Station.proposing_eq (s : Station) :
    s.proposing = { s with cond := { reofferDisplaced s.cond with speedMode := s.movedMode } } := by
  have mode : (reofferDisplaced s.cond).speedMode = s.cond.speedMode := by rw [reofferDisplaced_frame]
  unfold Station.proposing Station.moveSpeedMode Station.movedMode
  dsimp only
  cases s.meas.latest.ownSpeed with
  | some v => rw [mode]
  | none => rw [← mode]

theorem Station.applyWork_cond (s : Station) :
    s.applyWork.cond =
      { s.drivenAt.proposing.cond with proposal := some (s.drivenAt.proposing.buildProposal s.rampedAt.claimCode) } := by
  rw [Station.applyWork_eq]
  rfl

/-- What the station that hands over the record has of the station at the apply point. -/
theorem Station.proposing_frame (s : Station) :
    s.SameReports s.drivenAt.proposing ∧ s.drivenAt.proposing.pins = s.pins ∧ s.drivenAt.proposing.meas = s.meas
      ∧ s.drivenAt.proposing.bus.held = s.bus.held ∧ s.drivenAt.proposing.member.state = s.member.state
      ∧ s.drivenAt.proposing.engine = s.applyWork.engine ∧ s.drivenAt.proposing.cond.speedMode = s.movedMode := by
  obtain ⟨pins, loader, params, peers, meas, engine, bus, member, cond⟩ := s.drivenAt_frame
  obtain ⟨-, -, -, -, -, -, -, engine'⟩ := s.applyWork_parts
  have mode : s.drivenAt.cond.speedMode = s.cond.speedMode := by
    rw [cond]
    exact s.worked_rampedAt.speedMode.trans s.worked_formDemand.speedMode
  have moved : s.drivenAt.movedMode = s.movedMode := by
    unfold Station.movedMode
    rw [meas, params, mode]
  rw [Station.proposing_eq]
  refine ⟨⟨loader, params, peers, ?_⟩, pins, meas, ?_, ?_, ?_, ?_⟩
  · dsimp only
    rw [bus, Station.engineApply_bus]
  · dsimp only
    rw [bus, Station.engineApply_bus]
  · dsimp only
    rw [member, Station.engineApply_member]
  · exact engine.trans engine'.symm
  · exact moved

/-- The apply point leaves the state conditions as the group conditions leave them, and the speed mode as R180 moves it. -/
theorem Station.applyWork_held_conds (s : Station) {key : CondKey} (state : condIsEvent key.code = false) :
    isHeld s.applyWork.cond key = isHeld s.rampedAt.cond key := by
  obtain ⟨-, -, -, -, -, -, -, -, cond⟩ := s.drivenAt_frame
  rw [Station.applyWork_cond, Station.proposing_eq, ← cond]
  exact isHeld_reofferDisplaced s.drivenAt.cond state

theorem Station.applyWork_speedMode (s : Station) : s.applyWork.cond.speedMode = s.movedMode := by
  rw [Station.applyWork_cond]
  obtain ⟨-, -, -, -, -, -, mode⟩ := s.proposing_frame
  exact mode

theorem Station.applyWork_faultLevel (s : Station) : faultLevel s.applyWork.cond = faultLevel s.drivenAt.proposing.cond := by
  rw [Station.applyWork_cond]
  rfl

/-! ## The group conditions (R158) -/

theorem Station.applyWork_groupCondsStand {s : Station} (live : s.applyWork.auth.live = true) (sound : s.cond.tableSound) :
    s.applyWork.groupCondsStand := by
  have alive : s.engineApply.rampStep.auth.live = true := by
    have ramped : s.rampedAt.auth = s.engineApply.rampStep.auth := by simp [Station.rampedAt]
    rw [← ramped, Station.rampedAt_auth]
    rw [Station.applyWork_auth] at live
    split at live
    · next yes => exact yes
    · exact live
  have before : s.engineApply.rampStep.cond.tableSound :=
    s.worked_rampStep_after.follows.sound (s.worked_formDemand.follows.sound sound)
  have stand : s.rampedAt.groupCondsStand := Station.groupConds_stand alive before
  obtain ⟨-, loader, params, peers, -, -, -, -, member⟩ := s.rampedAt_frame
  obtain ⟨-, member', -, loader', params', peers', -⟩ := s.applyWork_parts
  have holders : ∀ g : Group, (s.applyWork.auth.group g).holders = (s.rampedAt.auth.group g).holders := fun g => by
    rw [Station.applyWork_auth, Station.rampedAt_auth]
    split
    · rw [(s.rampedTable.countRounds_group g).1]
    · rfl
  have state : s.applyWork.member.state = s.rampedAt.member.state := by rw [member', member, Station.engineApply_member]
  have number : s.applyWork.number = s.rampedAt.number :=
    (congrArg (·.straps) loader').trans (congrArg (·.straps) loader).symm
  have same : s.applyWork.peers = s.rampedAt.peers := peers'.trans peers.symm
  have sameParams : s.applyWork.params = s.rampedAt.params := params'.trans params.symm
  have tilt : s.applyWork.auth.tilt.holders = s.rampedAt.auth.tilt.holders := holders .tilt
  have steer : s.applyWork.auth.steer.holders = s.rampedAt.auth.steer.holders := holders .steer
  unfold Station.groupCondsStand Station.usable Station.roleOf at stand ⊢
  rw [s.applyWork_held_conds rfl, s.applyWork_held_conds rfl, s.applyWork_held_conds rfl, tilt, steer]
  simp only [state, number, same, sameParams]
  exact stand

/-! ## The demand (R133, R134) -/

/-- DEMAND_LOST at the end of the apply point is as stage 1 leaves it. -/
theorem Station.applyWork_demandLost {s : Station} (sound : s.cond.tableSound) (n : Nat) :
    isHeld s.applyWork.cond { code := .demandLost, source := n } =
      isHeld s.formDemand.cond { code := .demandLost, source := n } := by
  rw [s.applyWork_held_conds rfl]
  exact s.worked_rampedAt.follows.held (s.worked_formDemand.follows.sound sound) _ rfl (show ¬isApplyCode .demandLost by decide)

/-! ## The drive (R163 to R166) -/

/-- The Drive Unit's part of the apply point, after the counts of the table. -/
theorem Station.applyWork_drive (s : Station) :
    s.applyWork.drive = s.rampedAt.countAuthority.driveApply.drive := by
  simp [Station.applyWork_eq, Station.drivenAt]

theorem Station.counted_frame (s : Station) :
    s.rampedAt.countAuthority.pins = s.pins ∧ s.rampedAt.countAuthority.loader = s.loader
      ∧ s.rampedAt.countAuthority.params = s.params ∧ s.rampedAt.countAuthority.peers = s.peers
      ∧ s.rampedAt.countAuthority.meas = s.meas ∧ s.rampedAt.countAuthority.drive = s.drive
      ∧ s.rampedAt.countAuthority.engine = s.applyWork.engine ∧ s.rampedAt.countAuthority.auth = s.applyWork.auth
      ∧ s.rampedAt.countAuthority.bus = s.engineApply.bus
      ∧ s.rampedAt.countAuthority.member = { s.member with dropPending := false } := by
  obtain ⟨pins, loader, params, peers, meas, drive, engine, bus, member⟩ := s.rampedAt_frame
  obtain ⟨-, -, -, -, -, -, -, engine'⟩ := s.applyWork_parts
  have auth : s.applyWork.auth = s.rampedAt.countAuthority.auth := by simp [Station.applyWork_eq, Station.drivenAt]
  rw [engine', auth, ← s.engineApply_member, ← member, ← engine, ← bus, ← drive, ← meas, ← peers, ← params, ← loader, ← pins]
  simp

/-- The drive after an apply point that does not leave it in OFF (R164 to R166, R169, R170). -/
theorem Station.applyWork_drive_on {s : Station} (role : isDriveRole s.params.role = true)
    (leaves : s.drive.output ≠ .off ∨ s.mayLeaveOff = true) :
    s.applyWork.drive =
      s.drive.leftOff.updated s.params.shared s.params.own (decide (s.applyClass = .agreed)) (isTiltRole s.params.role)
        (decide (s.member.state = .member)) s.bus.held.mode
        ({ s with engine := s.applyWork.engine, auth := s.applyWork.auth } : Station).driveTarget := by
  obtain ⟨target, target_is⟩ : ∃ n, n =
    ({ s with engine := s.applyWork.engine, auth := s.applyWork.auth } : Station).driveTarget := ⟨_, rfl⟩
  obtain ⟨pins, loader, params, peers, meas, drive, engine, auth, bus, member⟩ := s.counted_frame
  have busHeld : s.rampedAt.countAuthority.bus.held = s.bus.held := by rw [bus, Station.engineApply_bus]
  have round : s.rampedAt.countAuthority.bus.roundNumber = s.bus.roundNumber := by rw [bus, Station.engineApply_bus]
  have class_ : s.rampedAt.countAuthority.applyClass = s.applyClass := by
    unfold Station.applyClass
    rw [bus, Station.engineApply_bus]
  rw [Station.applyWork_drive, ← target_is]
  generalize s.rampedAt.countAuthority = v at *
  have may : v.mayLeaveOff = s.mayLeaveOff := by
    unfold Station.mayLeaveOff
    rw [member, pins, drive]
  have same : ({ v with drive := v.drive.leftOff } : Station).driveTarget = target :=
    (Station.driveTarget_congr (s := { s with engine := s.applyWork.engine, auth := s.applyWork.auth })
      (t := { v with drive := v.drive.leftOff }) loader params peers round meas engine
      fun g => congrArg (fun a : Authority => (a.group g).holders) auth).trans target_is.symm
  have sameClass : ({ v with drive := v.drive.leftOff } : Station).applyClass = s.applyClass := class_
  rw [v.driveApply_cases.2.2 (by rw [params]; exact role) (by rw [drive, may]; exact leaves), Station.driveUpdate_drive, same,
    sameClass]
  dsimp only
  rw [busHeld, member, params, drive]

theorem Station.applyWork_drive_off {s : Station}
    (off : isDriveRole s.params.role = false ∨ (s.drive.output = .off ∧ s.mayLeaveOff = false)) :
    s.applyWork.drive = s.drive := by
  obtain ⟨pins, -, params, -, -, drive, -, -, -, member⟩ := s.counted_frame
  rw [Station.applyWork_drive]
  generalize s.rampedAt.countAuthority = v at *
  have may : v.mayLeaveOff = s.mayLeaveOff := by
    unfold Station.mayLeaveOff
    rw [member, pins, drive]
  obtain ⟨other, stays, -⟩ := v.driveApply_cases
  rcases off with role | ⟨isOff, kept⟩
  · exact (other (by rw [params]; exact role)).trans drive
  · cases role : isDriveRole v.params.role
    · exact (other role).trans drive
    · exact (stays role (by rw [drive]; exact isOff) (by rw [may]; exact kept)).trans drive

end Sys2Proof.Machine
end

