-- ==== Sys2Proof/Proofs/ApplyTerms.lean ====
section
/-! The terms of the apply point by the station before it: the proposal record, the ramps, the drive, and the statement on the
whole (R120, R146, R152, R163, R179 to R183). -/

namespace Sys2Proof.Machine

/-! ## The record (R146, R179 to R183) -/

namespace Station.AtApply

variable {x u : Station} {parkReq : Bool}

theorem sameReports (h : x.AtApply u parkReq) : x.SameReports u := by
  obtain ⟨-, params, -, peers, -, loader⟩ := h.parts
  exact ⟨loader, params, peers, by rw [h.bus]; rfl⟩

/-- What the handed record is made from, by the station at the start of the round and the bit times since. -/
theorem proposing (h : x.AtApply u parkReq) :
    x.SameReports u.drivenAt.proposing ∧ u.drivenAt.proposing.pins.parkReq = parkReq
      ∧ u.drivenAt.proposing.meas = x.meas ∧ u.drivenAt.proposing.bus.held = x.bus.held
      ∧ u.drivenAt.proposing.member.state = (x.reach x.params.own.applyAt).member.state
      ∧ u.drivenAt.proposing.cond.speedMode = u.applyWork.cond.speedMode := by
  obtain ⟨reports, pins, meas, held, state, -, mode⟩ := u.proposing_frame
  have before := h.sameReports
  have reached : u.pins.parkReq = parkReq := by rw [h.reached]
  refine ⟨⟨reports.loader.trans before.loader, reports.params.trans before.params, reports.peers.trans before.peers,
    reports.round.trans before.round⟩, by rw [pins, reached], meas.trans h.parts.2.2.1, held.trans h.held, state.trans h.state,
    mode.trans u.applyWork_speedMode.symm⟩

/-- The bit times up to the apply point change no condition but the two of the pins (R161, R162). -/
theorem follows (h : x.AtApply u parkReq) : x.Follows (fun key => key.code = .haltInput ∨ key.code = .driveFault) u := by
  have cond : u.cond = (x.reach x.params.own.applyAt).cond := by rw [h.reached]
  rw [Station.Follows, cond]
  exact x.follows_reach _ (.inl rfl) (.inr rfl)

theorem capLevel (h : x.AtApply u parkReq) :
    u.drivenAt.proposing.capLevel = max (faultLevel u.applyWork.cond) x.bus.held.fault := by
  obtain ⟨-, -, -, held, -⟩ := h.proposing
  rw [u.applyWork_faultLevel, ← held]
  rfl

theorem speedTerm (h : x.AtApply u parkReq) :
    u.drivenAt.proposing.speedTerm =
      if x.meas.latest.ownSpeed.isSome then modeCode u.applyWork.cond.speedMode else 7 := by
  obtain ⟨-, -, meas, -, -, mode⟩ := h.proposing
  unfold Station.speedTerm
  rw [meas, mode]

theorem haltTerm (h : x.AtApply u parkReq) :
    u.drivenAt.proposing.haltTerm = if (x.reach x.params.own.applyAt).member.state = .halted then 0 else 7 := by
  obtain ⟨-, -, -, -, state, -⟩ := h.proposing
  unfold Station.haltTerm
  rw [state]

theorem parkSpeed (h : x.AtApply u parkReq) : u.drivenAt.proposing.parkSpeed = x.parkSpeed := by
  obtain ⟨reports, -, meas, -⟩ := h.proposing
  rw [Station.parkSpeed_eq, Station.parkSpeed_eq, meas, reports.sourceSpeed, reports.peerSpeed]

theorem curveTerm (h : x.AtApply u parkReq) :
    u.drivenAt.proposing.curveTerm =
      match x.meas.latest.ownSpeed with
      | some v => curveFrom v x.params.shared.curve
      | none => 511 := by
  obtain ⟨reports, -, meas, -⟩ := h.proposing
  unfold Station.curveTerm
  rw [meas, reports.params] <;> rfl

/-- The mode of the record, with the park term where the station asks for PARK (R181). -/
theorem mode (h : x.AtApply u parkReq) (claim : Nat) :
    let term : Nat → Nat := fun park =>
      min (min (modeCap u.drivenAt.proposing.capLevel) u.drivenAt.proposing.speedTerm) (min park u.drivenAt.proposing.haltTerm)
    let parks : Prop := isSteerRole x.params.role = true ∧ parkReq = true
      ∧ ∃ v, x.parkSpeed = some v ∧ v < x.params.shared.vWalk
    (parks → modeCode (u.drivenAt.proposing.buildProposal claim).mode = term 1)
      ∧ (¬parks → modeCode (u.drivenAt.proposing.buildProposal claim).mode = term 7) := by
  intro term parks
  obtain ⟨asks, asksNot⟩ := u.drivenAt.proposing.parkTerm_eq
  obtain ⟨reports, parkPin, -⟩ := h.proposing
  rw [h.parkSpeed, reports.params, parkPin] at asks asksNot
  rw [Station.buildProposal_mode]
  exact ⟨fun yes => by rw [asks yes], fun no => by rw [asksNot no]⟩

/-- The limit of the record (R182). -/
theorem limit (h : x.AtApply u parkReq) (claim : Nat) :
    (u.drivenAt.proposing.buildProposal claim).limit =
      min (min u.drivenAt.proposing.curveTerm (limitCap x.params.shared u.drivenAt.proposing.capLevel))
        (min (modeAt x.params.shared x.bus.held.mode).maxLean
          (if isHeld u.applyWork.cond { code := .tiltSole, source := 0 } then x.params.shared.soleLimit else 511)) := by
  obtain ⟨reports, -, -, held, -⟩ := h.proposing
  have sole : isHeld u.applyWork.cond { code := .tiltSole, source := 0 } = u.drivenAt.proposing.holds .tiltSole 0 := by
    rw [Station.applyWork_cond]
    rfl
  change u.drivenAt.proposing.limitProposal = _
  unfold Station.limitProposal
  dsimp only
  rw [reports.params, held, sole]

/-- The speed mode after the apply point (R180). -/
theorem speedMode (h : x.AtApply u parkReq) :
    (∀ v, x.meas.latest.ownSpeed = some v →
        u.applyWork.cond.speedMode = nextSpeedMode x.params.shared (x.reach x.params.own.applyAt).cond.speedMode v)
      ∧ (x.meas.latest.ownSpeed = none → u.applyWork.cond.speedMode = (x.reach x.params.own.applyAt).cond.speedMode) := by
  obtain ⟨-, params, meas, -⟩ := h.parts
  have reached : u.cond = (x.reach x.params.own.applyAt).cond := by rw [h.reached]
  rw [u.applyWork_speedMode]
  unfold Station.movedMode
  rw [meas, params, reached]
  exact ⟨fun v is => by rw [is], fun is => by rw [is]⟩

/-- The claim code of the own group, by the table after the drop or the ramps (R146). -/
theorem claim (h : x.AtApply u parkReq) {g : Group}
    (admitted : (g = .tilt ∧ isTiltRole x.params.role = true) ∨ (g = .steer ∧ isSteerRole x.params.role = true)) :
    let t := x.reach x.params.own.applyAt
    let r := u.rampedTable.group g
    let retry := u.rampedTable.retry g
    let may : Prop :=
      u.rampedTable.live = true ∧ t.member.state = .member ∧ (∀ h ∈ r.holders, h.station ≠ x.number)
        ∧ r.holders.length < (if g = .tilt then 2 else 1) ∧ r.transaction = none ∧ retry.backoff = 0
        ∧ retry.givenUp = false ∧ t.drive.fltSeen = false
        ∧ (r.holders = [] ∨ (x.bus.held.mode ≠ .lock ∧ x.bus.held.fault < 3))
    let urgency : Nat := if r.lossAge < 64 then 0 else if 0 < retry.failures then 2 else 1
    (may → u.rampedAt.claimCode = 32 * groupCode g + 8 * urgency + x.number.val)
      ∧ (¬may → u.rampedAt.claimCode = 127) := by
  obtain ⟨-, loader, params, -, -, drive, -, bus, member⟩ := u.rampedAt_frame
  have own : u.rampedAt.ownGroup = some g := by
    rw [Station.ownGroup_iff, params, h.parts.2.1]
    exact admitted
  have number : u.rampedAt.number = x.number :=
    (congrArg (·.straps) loader).trans h.sameReports.number
  have held : u.rampedAt.bus.held = x.bus.held := by
    rw [bus, Station.engineApply_bus]
    exact h.held
  have state : u.rampedAt.member.state = (x.reach x.params.own.applyAt).member.state := by
    rw [member, Station.engineApply_member]
    exact h.state
  have drive' : u.rampedAt.drive = (x.reach x.params.own.applyAt).drive := by rw [drive, h.reached]
  have code := Station.claimCode_of own
  rw [Station.mayClaim_iff, Station.urgency, number, u.rampedAt_auth, held, state, drive'] at code
  exact code

theorem claim_none (h : x.AtApply u parkReq) (other : isDriveRole x.params.role = false) : u.rampedAt.claimCode = 127 := by
  obtain ⟨-, -, params, -⟩ := u.rampedAt_frame
  have none : u.rampedAt.ownGroup = none := Station.ownGroup_none (by rw [params, h.parts.2.1]; exact other)
  unfold Station.claimCode
  rw [none]
  rfl

/-- The table after the drop or the ramps, by the station before the apply point. -/
theorem rampedTable (h : x.AtApply u parkReq) :
    u.rampedTable =
      if (x.reach x.params.own.applyAt).member.dropPending then Authority.atRest
      else (x.reach x.params.own.applyAt).rampStep.auth := by
  have same : u.rampStep.auth = (x.reach x.params.own.applyAt).rampStep.auth := by
    rw [h.reached]
    exact Station.rampStep_auth_congr (s := x.reach x.params.own.applyAt) rfl rfl rfl rfl
  unfold Station.rampedTable
  rw [same, h.reached]

theorem reach_applyClass (h : x.AtApply u parkReq) : (x.reach x.params.own.applyAt).applyClass = x.applyClass := by
  rw [← h.applyClass, h.reached]
  rfl

/-- The ramps read the table and the class as they stand before the apply point (R152). -/
theorem ramps (h : x.AtApply u parkReq) (keeps : x.member.dropPending = false) :
    (x.auth.live = true → x.applyClass = .agreed → ∀ g : Group,
        u.rampedTable.group g = ((x.reach x.params.own.applyAt).commitGroup g
            (groupRamp g x.params.shared.rampRounds (x.auth.group g))).auth.group g
          ∧ u.rampedTable.retry g = ((x.reach x.params.own.applyAt).commitGroup g
            (groupRamp g x.params.shared.rampRounds (x.auth.group g))).auth.retry g)
      ∧ (x.auth.live = false ∨ x.applyClass ≠ .agreed → u.rampedTable = x.auth) := by
  have class_ := h.reach_applyClass
  have auth := x.reach_auth x.params.own.applyAt
  rw [h.rampedTable, if_neg (by rw [x.reach_dropPending, keeps]; decide)]
  refine ⟨fun live agreed => ?_, fun rest => ?_⟩
  · obtain ⟨-, groups⟩ := Station.rampStep_groups (s := x.reach x.params.own.applyAt) (by rw [auth, live])
      (class_.trans agreed)
    rw [auth, x.reach_params] at groups
    exact groups
  · rw [Station.rampStep_rest (by rw [auth, class_]; exact rest), auth]

end Station.AtApply

/-- The drive of a role that drives, in OFF where it may not leave it and by the law of the role elsewhere (R163 to R166). -/
theorem Station.AtApply.drive {x u : Station} {parkReq : Bool} (h : x.AtApply u parkReq) :
    let t := x.reach x.params.own.applyAt
    let target := ({ t with engine := u.applyWork.engine, auth := u.applyWork.auth } : Station).driveTarget
    let released : Prop :=
      t.member.state = .member ∧ x.pins.disable = false ∧ x.pins.drvFlt = false ∧ t.member.disableSeen = false
        ∧ t.drive.fltSeen = false
    (isDriveRole x.params.role = false → u.applyWork.drive = t.drive)
      ∧ (isDriveRole x.params.role = true → t.drive.output = .off → ¬released → u.applyWork.drive = t.drive)
      ∧ (isDriveRole x.params.role = true → t.drive.output ≠ .off ∨ released →
          u.applyWork.drive =
            t.drive.leftOff.updated x.params.shared x.params.own (decide (x.applyClass = .agreed)) (isTiltRole x.params.role)
              (decide (t.member.state = .member)) x.bus.held.mode target) := by
  intro t target released
  obtain ⟨-, params, meas, peers, -, loader⟩ := h.parts
  have member : u.member = t.member := by rw [h.reached]
  have drive : u.drive = t.drive := by rw [h.reached]
  have may : u.mayLeaveOff = true ↔ released := by
    rw [Station.mayLeaveOff_iff, member, drive, h.reached]
  have sameTarget : ({ u with engine := u.applyWork.engine, auth := u.applyWork.auth } : Station).driveTarget = target :=
    Station.driveTarget_congr (s := { t with engine := u.applyWork.engine, auth := u.applyWork.auth })
      (t := { u with engine := u.applyWork.engine, auth := u.applyWork.auth }) (by rw [h.reached]) (by rw [h.reached])
      (by rw [h.reached]) (by rw [h.reached]) (by rw [h.reached]) rfl fun _ => rfl
  have off := u.applyWork_drive_off
  have on := u.applyWork_drive_on
  rw [sameTarget, params, drive, member, h.applyClass, h.held] at on
  rw [params, drive] at off
  refine ⟨fun other => off (.inl other), fun _ isOff stays => off (.inr ⟨isOff, ?_⟩),
    fun role leaves => on role (leaves.imp id may.mpr)⟩
  exact Bool.eq_false_iff.mpr (mt may.mp stays)

/-- The bus at the apply point: the timer there, the driven mark and the candidate as far on. -/
theorem BusUnit.later_eq {b : BusUnit} {p : Nat} (coming : b.position ≤ p) (inside : p ≤ 2480) :
    b.later p =
      { b with position := p, candidate := (b.later p).candidate, mark := (b.later p).mark, cutBit := (b.later p).cutBit } := by
  have counts : 2480 ≤ Config.positionMax := by decide
  have place : (b.later p).position = p := by
    change min Config.positionMax (max b.position p) = p
    omega
  have parts : b.later p =
      { b with position := (b.later p).position, candidate := (b.later p).candidate, mark := (b.later p).mark,
               cutBit := (b.later p).cutBit } := rfl
  rwa [place] at parts

/-- Settles O36: each block's part of the apply point, by the lemmas on its stage. -/
theorem applyPointClampsAndProposes : Obligations.ApplyPointClampsAndProposes := by
  refine ⟨?_, fun x => ?_, fun v curve rises =>
    ⟨fun a first low => ?_, fun a last high => curveFrom_last rises last high,
      fun i a b first second low high => curveFrom_between rises first second low high⟩⟩
  · intro x q parkReq takes opened waiting coming inside t own sh held usable chosen heardNow ramped
    obtain ⟨u, atApply, work⟩ := Station.applyPoint_due takes opened waiting coming inside parkReq
    obtain ⟨engine, params, meas, peers, auth, loader⟩ := atApply.parts
    obtain ⟨bus', member', pins', loader', params', peers', meas', engine'⟩ := u.applyWork_parts
    have reports := atApply.sameReports
    have chosen_is : chosen = x.demandSource := x.demandSource_eq.symm
    have source_is : (chosen.bind heardNow).bind readDemand = u.sourceDemand := by
      rw [chosen_is, reports.sourceDemand, Station.sourceDemand_eq]
      rfl
    have takes' : takesPart u.member.state = true := by rw [atApply.takes, takes]
    have reachedMember : u.member = t.member := by rw [atApply.reached]
    have counted : u.heldRounds = min (sh.demandHold + 1) (x.engine.holdCount + 1) := by
      unfold Station.heldRounds
      rw [params, engine]
    have table : u.rampedTable = ramped := atApply.rampedTable
    have tbus : t.bus = x.bus.later own.applyAt := by rw [← atApply.bus, atApply.reached]
    have record : u.applyWork.bus.pendingRecord =
        x.bus.pendingRecord.map (DecisionRecord.withDemand u.applyWork.engine.demand) := by
      rw [bus', atApply.bus]
      rfl
    have idleEngine := u.applyWork_dropped
    have demand := u.applyWork_demand
    refine ⟨u.applyWork, u.drivenAt.proposing.buildProposal u.rampedAt.claimCode,
      exec_of_effect (c := .applyPoint parkReq) work q, ?_, fun none => by rw [record, none]; rfl, fun r is => ?_,
      by rw [member', reachedMember], by rw [pins', atApply.reached], loader'.trans loader, params'.trans params,
      peers'.trans peers, meas'.trans meas, ?_, fun d is => ?_, fun none => ?_, fun sound n small => ?_, fun drops => ?_,
      fun keeps live agreed g => ?_, fun keeps rest => ?_, fun rest => ?_, fun live => ?_, fun live sound => ?_, ?_, ?_, ?_, ?_,
      ?_, fun g admitted => ?_, fun other => atApply.claim_none other⟩
    · rw [tbus]
      refine Eq.trans ?_ (congrArg (fun b : BusUnit => { b with
        round := { x.bus.round with applied := true }, pendingRecord := u.applyWork.bus.pendingRecord })
        (BusUnit.later_eq coming inside))
      rw [bus', atApply.bus]
      rfl
    · rw [record, is]
      exact ⟨fun none => congrArg some (DecisionRecord.withDemand_none _ none),
        fun a entry => congrArg some (DecisionRecord.withDemand_some _ entry)⟩
    · exact u.applyWork_setpoint.trans (by rw [atApply.held])
    · rw [source_is] at is
      rw [u.formDemand_source is] at demand
      exact demand
    · rw [source_is] at none
      rw [u.formDemand_held none takes', counted, params, engine] at demand
      intro count
      exact ⟨demand.2.2, demand.2.1, demand.1⟩
    · have sound' : u.cond.tableSound := atApply.follows.sound sound
      intro lost above
      have before : isHeld u.cond { code := .demandLost, source := n } = isHeld x.cond { code := .demandLost, source := n } :=
        atApply.follows.held sound _ rfl (show ¬(CondCode.demandLost = .haltInput ∨ CondCode.demandLost = .driveFault) by decide)
      obtain ⟨leaves, held', stays⟩ := u.formDemand_lost sound' takes' small
      rw [counted, params] at held' stays
      rw [source_is, show lost = isHeld u.formDemand.cond _ from u.applyWork_demandLost sound' n]
      refine ⟨leaves, fun none high => ?_, fun none low => ?_⟩
      · rw [held' none high, chosen_is, ← reports.demandSource]
        rfl
      · rw [stays none low, before]
    · obtain ⟨run, rest, ready⟩ := idleEngine (by rw [atApply.dropPending, drops])
      have atRest : u.rampedTable = Authority.atRest := if_pos (by rw [atApply.dropPending, drops])
      refine ⟨run, rest, ready, ?_⟩
      rw [u.applyWork_auth, atRest]
      rfl
    · rw [← table]
      exact (atApply.ramps keeps).1 live agreed g
    · rw [← table]
      exact (atApply.ramps keeps).2 rest
    · rw [u.applyWork_auth, table, if_neg (by rw [rest]; decide)]
    · rw [u.applyWork_auth, table, if_pos live]
      exact ⟨live, fun g => ramped.countRounds_group g⟩
    · exact u.applyWork_groupCondsStand live (atApply.follows.sound sound)
    · obtain ⟨other, off, on⟩ := atApply.drive
      intro released start stepped limit target out hold
      refine ⟨other, off, fun role leaves => (on role leaves).trans ?_⟩
      unfold Drive.updated
      dsimp only
      rw [Drive.leftOff_effort]
      rfl
    · rw [u.applyWork_cond]
    · exact u.applyWork_faultLevel.symm
    · obtain ⟨-, -, -, -, -, same, -⟩ := u.proposing_frame
      exact congrArg (·.ready) same
    · intro level modeCap_ limitCap_ above before speed source peerSpeeds parkSpeed parks least speedTerm haltTerm curveTerm
        soleTerm
      obtain ⟨moves, stays⟩ := atApply.speedMode
      obtain ⟨parked, unparked⟩ := atApply.mode u.rampedAt.claimCode
      have sourceSpeed : x.sourceSpeed = source := by
        rw [show source = (chosen.bind heardNow).bind _ from rfl, chosen_is]
        rfl
      have parkSpeed_is : x.parkSpeed = parkSpeed := by
        rw [x.parkSpeed_eq, sourceSpeed, x.peerSpeed_eq]
        rfl
      rw [parkSpeed_is, atApply.capLevel, modeCap_eq, atApply.speedTerm, atApply.haltTerm] at parked unparked
      refine ⟨fun v is => ?_, stays, parked, unparked, ?_⟩
      · rw [moves v is, nextSpeedMode_code, modeAbove_code, modeAbove_code]
      · rw [atApply.limit, atApply.capLevel, limitCap_eq, atApply.curveTerm] <;> rfl
    · rw [← table]
      exact atApply.claim admitted
  · rw [Station.applyClass]
    cases x.bus.round.abandoned <;> cases x.bus.round.handed <;> rfl
  · cases curve with
    | nil => cases first
    | cons p rest =>
      cases first
      exact curveFrom_first low

end Sys2Proof.Machine
end

