-- ==== Sys2Proof/Proofs/BaseRules.lean ====
section
/-! What the cross-checks compare: the reference of the peers' values, and the values that may be used (R91 to R95). -/

namespace Sys2Proof.Machine

/-! ## The reference (R95) -/

theorem insertAscending_eq (x : Int) (l : List Int) : insertAscending x l = l.orderedInsert (· ≤ ·) x := by
  induction l with
  | nil => rfl
  | cons y rest ih => rw [insertAscending, List.orderedInsert_cons, ih]

/-- The values in ascending order are those of insertion sort. -/
theorem ascending_eq (l : List Int) : ascending l = l.insertionSort (· ≤ ·) := by
  induction l with
  | nil => rfl
  | cons x rest ih =>
    rw [List.insertionSort_cons, ← ih, ← insertAscending_eq]
    rfl

/-- Every ascending arrangement of the values is the model's. -/
theorem ascending_unique {l m : List Int} (perm : m.Perm l) (sorted : m.Pairwise (· ≤ ·)) : ascending l = m := by
  rw [ascending_eq]
  refine List.Perm.eq_of_pairwise (le := fun a b : Int => a ≤ b) (fun a b _ _ => le_antisymm)
    (List.pairwise_insertionSort _ l) sorted ?_
  exact (List.perm_insertionSort _ l).trans perm.symm

theorem ascending_length (l : List Int) : (ascending l).length = l.length := by
  rw [ascending_eq, List.length_insertionSort]

theorem reference_few {l : List Int} (few : l.length < 3) : reference l = none := by
  unfold reference
  dsimp only
  rw [ascending_length, if_pos few]

theorem reference_odd {l m : List Int} (perm : m.Perm l) (sorted : m.Pairwise (· ≤ ·)) {n : Nat} (length : l.length = 2 * n + 1)
    (many : 1 ≤ n) : reference l = m[n]? := by
  have size : m.length = 2 * n + 1 := perm.length_eq.trans length
  unfold reference
  dsimp only
  rw [ascending_unique perm sorted, size, if_neg (by omega), if_pos (by omega), show (2 * n + 1) / 2 = n by omega,
    List.getD_eq_getElem?_getD, List.getElem?_eq_getElem (by omega)]
  rfl

theorem reference_even {l m : List Int} (perm : m.Perm l) (sorted : m.Pairwise (· ≤ ·)) {n : Nat} {a b : Int}
    (length : l.length = 2 * n + 2) (many : 1 ≤ n) (low : m[n]? = some a) (high : m[n + 1]? = some b) :
    reference l = some ((a + b).tdiv 2) := by
  have size : m.length = 2 * n + 2 := perm.length_eq.trans length
  unfold reference
  dsimp only
  rw [ascending_unique perm sorted, size, if_neg (by omega), if_neg (by omega), show (2 * n + 2) / 2 - 1 = n by omega,
    show (2 * n + 2) / 2 = n + 1 by omega, List.getD_eq_getElem?_getD, List.getD_eq_getElem?_getD, low, high]
  rfl

/-! ## The values (R91 to R94) -/

theorem Station.heard_iff (s : Station) (k : StationNo) (f : Report) :
    s.heard k = some f ↔ s.bus.round.slots.get k = some (.received f) := by
  unfold Station.heard
  split
  · next g is => rw [is]; simp
  · next is => rw [is]; simp
  · next is => rw [is]; simp
  · next is => rw [is]; simp

theorem isJudged_iff (x : PeerState) : isJudged x = true ↔ x = .present ∨ x = .suspect := by
  cases x <;> decide

/-- The report of a record that the cross-checks may use (R91). -/
theorem Station.crossReport_iff (s : Station) (k : StationNo) (f : Report) :
    s.crossReport k = some f ↔
      k ≠ s.number ∧ ((s.peers.get k).state = .present ∨ (s.peers.get k).state = .suspect) ∧ s.meas.stale = false
        ∧ s.bus.round.slots.get k = some (.received f) ∧ f.staleScan = false := by
  rw [← Station.heard_iff, ← isJudged_iff]
  unfold Station.crossReport
  by_cases usable : (decide (k ≠ s.number) && isJudged (s.peers.get k).state && !s.meas.stale) = true
  · rw [if_pos usable]
    simp only [Bool.and_eq_true, decide_eq_true_iff, Bool.not_eq_true'] at usable
    obtain ⟨⟨other, judged⟩, fresh⟩ := usable
    cases heard : s.heard k with
    | none => simp
    | some g =>
      by_cases same : g = f
      · subst same
        cases stale : g.staleScan <;> simp [stale, other, judged, fresh]
      · cases stale : g.staleScan <;> simp [stale, same]
  · rw [if_neg usable]
    simp only [Bool.and_eq_true, decide_eq_true_iff, Bool.not_eq_true'] at usable
    simp only [reduceCtorEq, false_iff]
    exact fun h => usable ⟨⟨h.1, h.2.1⟩, h.2.2.1⟩

theorem Station.crossReport_none {s : Station} {k : StationNo}
    (unused : ∀ f, ¬(k ≠ s.number ∧ ((s.peers.get k).state = .present ∨ (s.peers.get k).state = .suspect) ∧ s.meas.stale = false
      ∧ s.bus.round.slots.get k = some (.received f) ∧ f.staleScan = false)) : s.crossReport k = none :=
  Option.eq_none_iff_forall_ne_some.mpr fun f is => unused f ((s.crossReport_iff k f).mp is)

theorem Station.crossReport_own {s : Station} : s.crossReport s.number = none :=
  Station.crossReport_none fun _ h => h.1 rfl

theorem isLeanRole_iff (r : Role) : isLeanRole r = true ↔ r = .tiltL ∨ r = .tiltR ∨ r = .frame := by cases r <;> decide

theorem isSpeedRole_iff (r : Role) : isSpeedRole r = true ↔ r = .tiltL ∨ r = .tiltR ∨ r = .speed := by cases r <;> decide

/-- The value of a role's reports is used only from a station of the role: the own number's report is used by no check. -/
theorem Station.ofRole_eq {α : Type} (s : Station) (k : StationNo) (test : Role → Bool) (read : Report → Option α) :
    (if test (s.roleOf k) then (s.crossReport k).bind read else none) =
      if test (s.peers.get k).rosterRole then (s.crossReport k).bind read else none := by
  by_cases own : k = s.number
  · subst own
    rw [Station.crossReport_own]
    simp
  · rw [show s.roleOf k = (s.peers.get k).rosterRole from if_neg own]

theorem Station.leanOf_eq (s : Station) (k : StationNo) :
    s.leanOf k = if isLeanRole (s.peers.get k).rosterRole then (s.crossReport k).bind readLean else none :=
  s.ofRole_eq k isLeanRole readLean

theorem Station.speedOf_eq (s : Station) (k : StationNo) :
    s.speedOf k =
      if isSpeedRole (s.peers.get k).rosterRole then
        (s.crossReport k).bind fun f => (readSpeed f).map fun v => (v : Int)
      else none := s.ofRole_eq k isSpeedRole _

/-- The other steering role. -/
def isOtherSteer (own r : Role) : Bool := (own = .steer && r = .steerB) || (own = .steerB && r = .steer)

theorem Station.steerOf_eq (s : Station) (k : StationNo) :
    s.steerOf k =
      if isOtherSteer s.params.role (s.peers.get k).rosterRole then (s.crossReport k).bind readSecondary else none :=
  s.ofRole_eq k (isOtherSteer s.params.role) readSecondary

theorem isOtherSteer_iff (own r : Role) :
    isOtherSteer own r = true ↔ (own = .steer ∧ r = .steerB) ∨ (own = .steerB ∧ r = .steer) := by
  simp [isOtherSteer]

/-- The bases of the checks, and the values that each record gives them (R91 to R95). -/
theorem Station.basesOf (x : Station) :
    ((isLeanRole x.params.role = true ∧ (x.meas.snapshot.leanSource = .leanA ∨ x.meas.snapshot.leanSource = .leanB) →
        x.leanBase = x.meas.snapshot.ownLean)
      ∧ (¬(isLeanRole x.params.role = true ∧
            (x.meas.snapshot.leanSource = .leanA ∨ x.meas.snapshot.leanSource = .leanB)) →
          x.leanBase = reference (allStations.filterMap x.leanOf)))
    ∧ (∀ v, x.meas.snapshot.ownSpeed = some v → x.speedBase = some (v : Int))
    ∧ (x.meas.snapshot.ownSpeed = none → x.speedBase = reference (allStations.filterMap x.speedOf)) := by
  have own : (isLeanRole x.params.role && (x.meas.snapshot.leanSource = .leanA || x.meas.snapshot.leanSource = .leanB)) = true ↔
      isLeanRole x.params.role = true ∧ (x.meas.snapshot.leanSource = .leanA ∨ x.meas.snapshot.leanSource = .leanB) := by
    simp
  refine ⟨⟨fun yes => if_pos (own.mpr yes), fun no => if_neg (mt own.mp no)⟩, fun v is => ?_, fun is => ?_⟩
  · unfold Station.speedBase
    rw [is]
  · unfold Station.speedBase
    rw [is]

/-- What a record's report gives the checks: by its role, and nothing from a report that may not be used (R91 to R94). -/
theorem Station.valuesOf (x : Station) (k : StationNo) :
    let compared : Report → Prop := fun f =>
      k ≠ x.number ∧ ((x.peers.get k).state = .present ∨ (x.peers.get k).state = .suspect) ∧ x.meas.stale = false
        ∧ x.bus.round.slots.get k = some (.received f) ∧ f.staleScan = false
    let role := (x.peers.get k).rosterRole
    let pair : Prop := (x.params.role = .steer ∧ role = .steerB) ∨ (x.params.role = .steerB ∧ role = .steer)
    let leanRole : Prop := role = .tiltL ∨ role = .tiltR ∨ role = .frame
    let speedRole : Prop := role = .tiltL ∨ role = .tiltR ∨ role = .speed
    (∀ f, compared f →
      (leanRole → x.leanOf k = readLean f)
        ∧ (speedRole → x.speedOf k = (readSpeed f).map (fun v => (v : Int))) ∧ (pair → x.steerOf k = readSecondary f))
    ∧ ((∀ f, ¬compared f) → x.leanOf k = none ∧ x.speedOf k = none ∧ x.steerOf k = none)
    ∧ (¬leanRole → x.leanOf k = none) ∧ (¬speedRole → x.speedOf k = none) ∧ (¬pair → x.steerOf k = none) := by
  intro compared role pair leanRole speedRole
  have lean : isLeanRole role = true ↔ leanRole := isLeanRole_iff role
  have speed : isSpeedRole role = true ↔ speedRole := isSpeedRole_iff role
  have steer : isOtherSteer x.params.role role = true ↔ pair := isOtherSteer_iff _ role
  rw [Station.leanOf_eq, Station.speedOf_eq, Station.steerOf_eq]
  refine ⟨fun f used => ?_, fun unused => ?_, fun no => if_neg (mt lean.mp no), fun no => if_neg (mt speed.mp no),
    fun no => if_neg (mt steer.mp no)⟩
  · rw [(x.crossReport_iff k f).mpr used]
    exact ⟨fun yes => if_pos (lean.mpr yes), fun yes => if_pos (speed.mpr yes), fun yes => if_pos (steer.mpr yes)⟩
  · rw [Station.crossReport_none unused]
    exact ⟨ite_self none, ite_self none, ite_self none⟩

end Sys2Proof.Machine
end

