-- ==== Sys2Proof/Proofs/PassRules.lean ====
section
/-! The five passes over the peer table at the end of the report section, and what each makes of one record (R85 to R97). -/

namespace Sys2Proof.Machine

/-! ## One record in a pass -/

theorem Station.foldl_split (g : Station → StationNo → Station) (k : StationNo) (s : Station) :
    ∃ before after : List StationNo, k ∉ before ∧ k ∉ after
      ∧ allStations.foldl g s = after.foldl g (g (before.foldl g s) k) := by
  have once : allStations.Nodup := List.nodup_finRange 8
  obtain ⟨before, after, split⟩ := List.append_of_mem (show k ∈ allStations from List.mem_finRange k)
  rw [split, List.nodup_append, List.nodup_cons] at once
  obtain ⟨-, ⟨notAfter, -⟩, apart⟩ := once
  exact ⟨before, after, fun member => apart k member k List.mem_cons_self rfl, notAfter, by
    rw [split, List.foldl_append, List.foldl_cons]⟩

/-- What the works on the records of a list keep, all of them together keep. -/
theorem Station.foldl_keeps_listed {P : Station → Prop} {g : Station → StationNo → Station} {l : List StationNo}
    (each : ∀ s, ∀ k ∈ l, P s → P (g s k)) {s : Station} (h : P s) : P (l.foldl g s) := by
  induction l generalizing s with
  | nil => exact h
  | cons k rest ih =>
    rw [List.foldl_cons]
    exact ih (fun s j member => each s j (List.mem_cons_of_mem k member)) (each s k List.mem_cons_self h)

/-- A pass up to one record and past it: the works on the records before keep a relation to the station before the pass and the
record, and what each work on another record keeps stands from the record's own work to the end of the pass. -/
theorem Station.forPeers_at {f : Station → StationNo → Station} {R : Station → Prop} {Q : Station → Station → Prop}
    {k : StationNo} {s : Station} (number : ∀ t j, (f t j).number = t.number) (start : R s) (step : ∀ t j, R t → R (f t j))
    (others : ∀ t j, k ≠ j → (f t j).peers.get k = t.peers.get k) (same : ∀ t, Q t t)
    (later : ∀ t u j, k ≠ j → Q t u → Q t (f u j)) (other : k ≠ s.number) :
    ∃ t, R t ∧ t.peers.get k = s.peers.get k ∧ Q (f t k) (s.forPeers f) := by
  obtain ⟨before, after, notBefore, notAfter, split⟩ := Station.forPeers_split number s other
  obtain ⟨related, record⟩ := Station.guarded_keeps (l := before) (f := f)
    (P := fun t => R t ∧ t.peers.get k = s.peers.get k)
    (fun t j member h => ⟨step t j h.1, (others t j fun same => notBefore (same ▸ member)).trans h.2⟩) ⟨start, rfl⟩
  refine ⟨_, related, record, ?_⟩
  rw [split]
  exact Station.guarded_keeps (l := after) (f := f)
    (P := fun t => Q (f (before.foldl (Station.guarded f) s) k) t)
    (fun t j member h => later _ t j (fun same => notAfter (same ▸ member)) h) (same _)

/-- A pass makes of a record what its work makes of it at the station before the pass, where the work reads nothing else that
the pass changes. -/
theorem Station.forPeers_get {f : Station → StationNo → Station} {R : Station → Prop} {k : StationNo} {s : Station}
    (number : ∀ t j, (f t j).number = t.number) (start : R s) (step : ∀ t j, R t → R (f t j))
    (others : ∀ t j, k ≠ j → (f t j).peers.get k = t.peers.get k)
    (reads : ∀ t, R t → t.peers.get k = s.peers.get k → (f t k).peers.get k = (f s k).peers.get k) (other : k ≠ s.number) :
    (s.forPeers f).peers.get k = (f s k).peers.get k := by
  obtain ⟨t, related, record, result⟩ := Station.forPeers_at (Q := fun t u => u.peers.get k = t.peers.get k) number start step
    others (fun _ => rfl) (fun t u j apart h => (others u j apart).trans h) other
  exact result.trans (reads t related record)

/-! ## What the passes read -/

/-- The stations agree in what the passes read beside the peer table. -/
structure Station.SameSight (s t : Station) : Prop where
  loader : t.loader = s.loader
  params : t.params = s.params
  bus : t.bus = s.bus
  member : t.member = s.member
  meas : t.meas = s.meas
  engine : t.engine = s.engine

namespace Station.SameSight

variable {s t u : Station}

theorem refl (s : Station) : s.SameSight s := ⟨rfl, rfl, rfl, rfl, rfl, rfl⟩

theorem trans (h : s.SameSight t) (h' : t.SameSight u) : s.SameSight u :=
  ⟨h'.loader.trans h.loader, h'.params.trans h.params, h'.bus.trans h.bus, h'.member.trans h.member, h'.meas.trans h.meas,
    h'.engine.trans h.engine⟩

theorem number (h : s.SameSight t) : t.number = s.number := by rw [Station.number, h.loader, Station.number]

theorem heard (h : s.SameSight t) (k : StationNo) : t.heard k = s.heard k := by
  unfold Station.heard
  rw [h.bus]

theorem wasReceived (h : s.SameSight t) (k : StationNo) : t.wasReceived k = s.wasReceived k := by
  rw [Station.wasReceived, h.heard, Station.wasReceived]

theorem membersBit (h : s.SameSight t) (k : StationNo) : t.membersBit k = s.membersBit k := by
  rw [Station.membersBit, h.bus, Station.membersBit]

theorem inMemberSet (h : s.SameSight t) (k : StationNo) : t.inMemberSet k = s.inMemberSet k := by
  rw [Station.inMemberSet, h.bus, Station.inMemberSet]

theorem digestCause (h : s.SameSight t) (k : StationNo) : t.digestCause k = s.digestCause k := by
  unfold Station.digestCause
  rw [h.heard, h.loader]

theorem trajCause (h : s.SameSight t) (k : StationNo) : t.trajCause k = s.trajCause k := by
  unfold Station.trajCause Station.comparesTraj
  rw [h.heard, h.member, h.inMemberSet, h.engine]

end Station.SameSight

theorem Station.sight_takeReport (s : Station) (k : StationNo) : s.SameSight (s.takeReport k) := by
  obtain ⟨-, loader, params, bus, member, meas, engine, -⟩ := s.takeReport_frame k
  exact ⟨loader, params, bus, member, meas, engine⟩

theorem Station.sight_countRecord (s : Station) (k : StationNo) : s.SameSight (s.countRecord k) := ⟨rfl, rfl, rfl, rfl, rfl, rfl⟩

theorem Station.sight_takePresence (s : Station) (k : StationNo) : s.SameSight (s.takePresence k) := by
  obtain ⟨-, loader, params, bus, member, meas, engine, -⟩ := s.takePresence_frame k
  exact ⟨loader, params, bus, member, meas, engine⟩

theorem Station.sight_checkRecord (s : Station) (k : StationNo) : s.SameSight (s.checkRecord k) := by
  obtain ⟨-, loader, params, bus, member, meas, engine, -⟩ := s.checkRecord_frame k
  exact ⟨loader, params, bus, member, meas, engine⟩

theorem Station.sight_judgeRecord (s : Station) (k : StationNo) : s.SameSight (s.judgeRecord k) := by
  obtain ⟨-, loader, params, bus, member, meas, engine, -⟩ := s.judgeRecord_frame k
  exact ⟨loader, params, bus, member, meas, engine⟩

theorem Station.sight_foldl {g : Station → StationNo → Station} (each : ∀ (s : Station) k, s.SameSight (g s k))
    (l : List StationNo) (s : Station) : s.SameSight (l.foldl g s) :=
  Station.foldl_keeps_listed (P := fun t => s.SameSight t) (fun t k _ h => h.trans (each t k)) (.refl s)

theorem Station.sight_forPeers {f : Station → StationNo → Station} (each : ∀ (s : Station) k, s.SameSight (f s k)) (s : Station) :
    s.SameSight (s.forPeers f) :=
  Station.sight_foldl (fun t k => by
    split
    · exact .refl t
    · exact each t k) allStations s

/-! ## The passes -/

/-- The station after each pass but the last (R85). -/
def Station.reported (s : Station) : Station := allStations.foldl Station.takeReport s
def Station.recordsCounted (s : Station) : Station := s.reported.forPeers Station.countRecord
def Station.presenceTaken (s : Station) : Station := s.recordsCounted.forPeers Station.takePresence
def Station.recordsChecked (s : Station) : Station := s.presenceTaken.forPeers Station.checkRecord

theorem Station.peersSection_eq (s : Station) : s.peersSection = s.recordsChecked.forPeers Station.judgeRecord := rfl

theorem Station.sight_reported (s : Station) : s.SameSight s.reported := Station.sight_foldl Station.sight_takeReport _ s

theorem Station.sight_recordsCounted (s : Station) : s.SameSight s.recordsCounted :=
  s.sight_reported.trans (Station.sight_forPeers Station.sight_countRecord _)

theorem Station.sight_presenceTaken (s : Station) : s.SameSight s.presenceTaken :=
  s.sight_recordsCounted.trans (Station.sight_forPeers Station.sight_takePresence _)

theorem Station.sight_recordsChecked (s : Station) : s.SameSight s.recordsChecked :=
  s.sight_presenceTaken.trans (Station.sight_forPeers Station.sight_checkRecord _)

theorem Station.sight_peersSection (s : Station) : s.SameSight s.peersSection :=
  s.sight_recordsChecked.trans (Station.sight_forPeers Station.sight_judgeRecord _)

/-! ### Step 1: the report (R81, R85) -/

/-- The record with a report taken in, where it is heard and not refused. -/
def PeerRecord.withReport (frame : Option Report) (refused : Bool) (round : Word16) (r : PeerRecord) : PeerRecord :=
  match frame with
  | some f => if refused then r else { r with lastReport := some f, lastHeard := some round }
  | none => r

theorem Station.takeReport_get (s : Station) (k : StationNo) :
    (s.takeReport k).peers.get k = (s.peers.get k).withReport (s.heard k) (s.refused k) s.bus.roundNumber := by
  unfold Station.takeReport PeerRecord.withReport
  cases s.heard k with
  | none => rfl
  | some f =>
    dsimp only
    split
    · rfl
    · exact s.setPeer_get k _

theorem Station.takeReport_get_other (s : Station) {j k : StationNo} (apart : j ≠ k) :
    (s.takeReport k).peers.get j = s.peers.get j := by
  unfold Station.takeReport
  split
  · split
    · rfl
    · exact s.setPeer_get_other apart _
  · rfl

theorem Station.reported_get (s : Station) (k : StationNo) :
    s.reported.peers.get k =
      (s.peers.get k).withReport (s.heard k) (decide (s.params.shared.rejoinMax < (s.peers.get k).exclusions))
        s.bus.roundNumber := by
  obtain ⟨before, after, notBefore, notAfter, split⟩ := Station.foldl_split Station.takeReport k s
  obtain ⟨sight, record⟩ := Station.foldl_keeps_listed (l := before) (g := Station.takeReport)
    (P := fun t => s.SameSight t ∧ t.peers.get k = s.peers.get k)
    (fun t j member h => ⟨h.1.trans (t.sight_takeReport j),
      (t.takeReport_get_other fun same : k = j => notBefore (same ▸ member)).trans h.2⟩) ⟨.refl s, rfl⟩
  have rest := Station.foldl_keeps_listed (l := after) (g := Station.takeReport)
    (P := fun t => t.peers.get k = ((before.foldl Station.takeReport s).takeReport k).peers.get k)
    (fun t j member h => (t.takeReport_get_other fun same : k = j => notAfter (same ▸ member)).trans h) rfl
  unfold Station.reported
  rw [split, rest, Station.takeReport_get, Station.refused, record, sight.heard, sight.params, sight.bus]

/-! ### Step 2: missed and seq (R86, R87) -/

/-- The record after its missed and stale counts. -/
def PeerRecord.sectionCounted (frame : Option Report) (bit : Bool) (r : PeerRecord) : PeerRecord :=
  countSeq (countMissed r frame.isSome bit) frame bit

theorem Station.countRecord_get (s : Station) (k : StationNo) :
    (s.countRecord k).peers.get k = (s.peers.get k).sectionCounted (s.heard k) (s.membersBit k) := s.setPeer_get k _

theorem Station.countRecord_get_other (s : Station) {j k : StationNo} (apart : j ≠ k) :
    (s.countRecord k).peers.get j = s.peers.get j := s.setPeer_get_other apart _

theorem Station.recordsCounted_get {s : Station} {k : StationNo} (other : k ≠ s.number) :
    s.recordsCounted.peers.get k = (s.reported.peers.get k).sectionCounted (s.heard k) (s.membersBit k) := by
  have pass := Station.forPeers_get (f := Station.countRecord) (R := fun t => s.SameSight t) (k := k) (s := s.reported)
    (fun t j => (t.sight_countRecord j).number) s.sight_reported (fun t j h => h.trans (t.sight_countRecord j))
    (fun t j apart => t.countRecord_get_other apart)
    (fun t sight record => by
      rw [Station.countRecord_get, Station.countRecord_get, record, sight.heard, sight.membersBit, s.sight_reported.heard,
        s.sight_reported.membersBit])
    (by rwa [s.sight_reported.number])
  refine pass.trans ?_
  rw [Station.countRecord_get, s.sight_reported.heard, s.sight_reported.membersBit]

/-! ### Step 3: presence (R88) -/

/-- The record appears: JOINING, or ABSENT and not refused, a member and received. -/
def PeerRecord.appears (member received refused : Bool) (r : PeerRecord) : Bool :=
  (r.state = .joining || (r.state = .absent && !refused)) && member && received

/-- The record after step 3. -/
def PeerRecord.presence (appears : Bool) (r : PeerRecord) : PeerRecord := if appears then { r with state := .present } else r

theorem Station.takePresence_get (s : Station) (k : StationNo) :
    (s.takePresence k).peers.get k =
      (s.peers.get k).presence ((s.peers.get k).appears (s.inMemberSet k) (s.wasReceived k) (s.refused k)) := by
  unfold Station.takePresence PeerRecord.presence
  change (if s.becomesPresent k then _ else _ : Station).peers.get k = if s.becomesPresent k then _ else _
  split
  · exact s.setPeer_get k _
  · rfl

theorem Station.takePresence_get_other (s : Station) {j k : StationNo} (apart : j ≠ k) :
    (s.takePresence k).peers.get j = s.peers.get j := by
  unfold Station.takePresence
  split
  · exact s.setPeer_get_other apart _
  · rfl

theorem Station.presenceTaken_get {s : Station} {k : StationNo} (other : k ≠ s.number) :
    s.presenceTaken.peers.get k =
      (s.recordsCounted.peers.get k).presence ((s.recordsCounted.peers.get k).appears (s.inMemberSet k) (s.wasReceived k)
        (decide (s.params.shared.rejoinMax < (s.recordsCounted.peers.get k).exclusions))) := by
  have counted := s.sight_recordsCounted
  have pass := Station.forPeers_get (f := Station.takePresence) (R := fun t => s.SameSight t) (k := k) (s := s.recordsCounted)
    (fun t j => (t.sight_takePresence j).number) counted (fun t j h => h.trans (t.sight_takePresence j))
    (fun t j apart => t.takePresence_get_other apart)
    (fun t sight record => by
      rw [Station.takePresence_get, Station.takePresence_get, Station.refused, Station.refused, record, sight.inMemberSet,
        sight.wasReceived, sight.params, counted.inMemberSet, counted.wasReceived, counted.params])
    (by rwa [counted.number])
  refine pass.trans ?_
  rw [Station.takePresence_get, Station.refused, counted.inMemberSet, counted.wasReceived, counted.params]

end Sys2Proof.Machine
end

