-- ==== Sys2Proof/Proofs/CheckRules.lean ====
section
/-! Steps 4 and 5 at the end of the report section: the checks and the suspicion of one record, and their
conditions (R89 to R97). -/

namespace Sys2Proof.Machine

/-! ## What the checks read -/

/-- The stations agree in what the cross-checks compare: which records are judged, the roles, the reports and the own values. -/
structure Station.SameBases (s t : Station) : Prop where
  number : t.number = s.number
  params : t.params = s.params
  slots : t.bus.round.slots = s.bus.round.slots
  stale : t.meas.stale = s.meas.stale
  snapshot : t.meas.snapshot = s.meas.snapshot
  monitors : t.meas.monitors = s.meas.monitors
  judged : ∀ k, isJudged (t.peers.get k).state = isJudged (s.peers.get k).state
  roster : ∀ k, (t.peers.get k).rosterRole = (s.peers.get k).rosterRole

namespace Station.SameBases

variable {s t u : Station}

theorem refl (s : Station) : s.SameBases s := ⟨rfl, rfl, rfl, rfl, rfl, rfl, fun _ => rfl, fun _ => rfl⟩

theorem trans (h : s.SameBases t) (h' : t.SameBases u) : s.SameBases u :=
  ⟨h'.number.trans h.number, h'.params.trans h.params, h'.slots.trans h.slots, h'.stale.trans h.stale,
    h'.snapshot.trans h.snapshot, h'.monitors.trans h.monitors, fun k => (h'.judged k).trans (h.judged k),
    fun k => (h'.roster k).trans (h.roster k)⟩

theorem of_sight (h : s.SameSight t) (judged : ∀ k, isJudged (t.peers.get k).state = isJudged (s.peers.get k).state)
    (roster : ∀ k, (t.peers.get k).rosterRole = (s.peers.get k).rosterRole) : s.SameBases t :=
  ⟨h.number, h.params, by rw [h.bus], by rw [h.meas], by rw [h.meas], by rw [h.meas], judged, roster⟩

theorem crossReport (h : s.SameBases t) (k : StationNo) : t.crossReport k = s.crossReport k := by
  have heard : t.heard k = s.heard k := by
    unfold Station.heard
    rw [h.slots]
  unfold Station.crossReport
  rw [h.number, h.judged, h.stale, heard]

theorem leanOf (h : s.SameBases t) : t.leanOf = s.leanOf := funext fun k => by
  rw [Station.leanOf_eq, Station.leanOf_eq, h.roster, h.crossReport]

theorem speedOf (h : s.SameBases t) : t.speedOf = s.speedOf := funext fun k => by
  rw [Station.speedOf_eq, Station.speedOf_eq, h.roster, h.crossReport]

theorem steerOf (h : s.SameBases t) : t.steerOf = s.steerOf := funext fun k => by
  rw [Station.steerOf_eq, Station.steerOf_eq, h.roster, h.crossReport, h.params]

theorem leanBase (h : s.SameBases t) : t.leanBase = s.leanBase := by
  unfold Station.leanBase
  rw [h.params, h.snapshot, h.leanOf]

theorem speedBase (h : s.SameBases t) : t.speedBase = s.speedBase := by
  unfold Station.speedBase
  rw [h.snapshot, h.speedOf]

theorem steerBase (h : s.SameBases t) : t.steerBase = s.steerBase := by
  unfold Station.steerBase
  rw [Station.fitValue_eq, Station.fitValue_eq, h.params, h.snapshot, h.monitors]

end Station.SameBases

/-- A work on one record alone that leaves its role and whether it is judged leaves what the checks compare. -/
theorem Station.SameBases.of_record {s t : Station} {k : StationNo} (h : s.SameSight t)
    (others : ∀ j, j ≠ k → t.peers.get j = s.peers.get j)
    (judged : isJudged (t.peers.get k).state = isJudged (s.peers.get k).state)
    (roster : (t.peers.get k).rosterRole = (s.peers.get k).rosterRole) : s.SameBases t :=
  .of_sight h
    (fun j => by
      by_cases same : j = k
      · rw [same, judged]
      · rw [others j same])
    (fun j => by
      by_cases same : j = k
      · rw [same, roster]
      · rw [others j same])

/-! ## Step 4 (R89 to R95) -/

/-- The record after its three cross-checks. -/
def PeerRecord.checked (lean speed steer : Nat → Nat) (r : PeerRecord) : PeerRecord :=
  if isJudged r.state then
    { r with
      leanDisagree := lean r.leanDisagree, speedDisagree := speed r.speedDisagree, steerDisagree := steer r.steerDisagree }
  else r

/-- The counts of the three checks of a record (R92 to R95). -/
def Station.leanCount (s : Station) (k : StationNo) : Nat → Nat :=
  countCheck (outsideBand s.params.shared.leanBand) s.leanBase (s.leanOf k)
def Station.speedCount (s : Station) (k : StationNo) : Nat → Nat :=
  countCheck (speedDisagrees s.params.shared.speedBand) s.speedBase (s.speedOf k)
def Station.steerCount (s : Station) (k : StationNo) : Nat → Nat :=
  countCheck (outsideBand s.params.shared.steerBand) s.steerBase (s.steerOf k)

theorem Station.SameBases.counts {s t : Station} (h : s.SameBases t) (k : StationNo) :
    t.leanCount k = s.leanCount k ∧ t.speedCount k = s.speedCount k ∧ t.steerCount k = s.steerCount k := by
  unfold Station.leanCount Station.speedCount Station.steerCount
  rw [h.leanBase, h.leanOf, h.speedBase, h.speedOf, h.steerBase, h.steerOf, h.params]
  exact ⟨rfl, rfl, rfl⟩

/-- The conditions of step 4 on a record that is judged. -/
def Station.checkConds (s : Station) (k : StationNo) : Station :=
  if s.trajCause k then (s.identityConds k).raise .trajMismatch k.val else s.identityConds k

theorem Station.identityConds_sight (s : Station) (k : StationNo) :
    s.SameSight (s.identityConds k) ∧ (s.identityConds k).peers = s.peers := by
  unfold Station.identityConds
  split <;> exact ⟨⟨rfl, rfl, rfl, rfl, rfl, rfl⟩, rfl⟩

theorem Station.checkRecord_eq (s : Station) (k : StationNo) :
    s.checkRecord k =
      if isJudged (s.peers.get k).state then (s.checkConds k).setPeer k ((s.checkConds k).crossCheck k) else s := by
  obtain ⟨sight, -⟩ := s.identityConds_sight k
  unfold Station.checkRecord Station.checkConds
  dsimp only
  rw [sight.trajCause]

theorem Station.checkConds_sight (s : Station) (k : StationNo) :
    s.SameSight (s.checkConds k) ∧ (s.checkConds k).peers = s.peers := by
  obtain ⟨sight, peers⟩ := s.identityConds_sight k
  unfold Station.checkConds
  split
  · exact ⟨sight.trans ⟨rfl, rfl, rfl, rfl, rfl, rfl⟩, peers⟩
  · exact ⟨sight, peers⟩

theorem Station.checkRecord_get (s : Station) (k : StationNo) :
    (s.checkRecord k).peers.get k = (s.peers.get k).checked (s.leanCount k) (s.speedCount k) (s.steerCount k) := by
  obtain ⟨sight, peers⟩ := s.checkConds_sight k
  have bases : s.SameBases (s.checkConds k) := .of_sight sight (fun _ => by rw [peers]) (fun _ => by rw [peers])
  rw [Station.checkRecord_eq]
  unfold PeerRecord.checked
  split
  · rw [Station.setPeer_get]
    obtain ⟨lean, speed, steer⟩ := bases.counts k
    rw [← lean, ← speed, ← steer, ← peers]
    rfl
  · rfl

theorem Station.checkRecord_get_other (s : Station) {j k : StationNo} (apart : j ≠ k) :
    (s.checkRecord k).peers.get j = s.peers.get j := by
  obtain ⟨-, peers⟩ := s.checkConds_sight k
  rw [Station.checkRecord_eq]
  split
  · rw [Station.setPeer_get_other _ apart, peers]
  · rfl

theorem PeerRecord.checked_state (lean speed steer : Nat → Nat) (r : PeerRecord) :
    (r.checked lean speed steer).state = r.state ∧ (r.checked lean speed steer).rosterRole = r.rosterRole := by
  unfold PeerRecord.checked
  split <;> exact ⟨rfl, rfl⟩

theorem Station.bases_checkRecord (s : Station) (k : StationNo) : s.SameBases (s.checkRecord k) :=
  .of_record (s.sight_checkRecord k) (fun _ apart => s.checkRecord_get_other apart)
    (by rw [Station.checkRecord_get, (PeerRecord.checked_state _ _ _ _).1])
    (by rw [Station.checkRecord_get, (PeerRecord.checked_state _ _ _ _).2])

theorem Station.recordsChecked_get {s : Station} {k : StationNo} (other : k ≠ s.number) :
    s.recordsChecked.peers.get k =
      (s.presenceTaken.peers.get k).checked (s.presenceTaken.leanCount k) (s.presenceTaken.speedCount k)
        (s.presenceTaken.steerCount k) := by
  have pass := Station.forPeers_get (f := Station.checkRecord) (R := fun t => s.presenceTaken.SameBases t) (k := k)
    (s := s.presenceTaken) (fun t j => (t.sight_checkRecord j).number) (.refl _) (fun t j h => h.trans (t.bases_checkRecord j))
    (fun t j apart => t.checkRecord_get_other apart)
    (fun t bases record => by
      obtain ⟨lean, speed, steer⟩ := bases.counts k
      rw [Station.checkRecord_get, Station.checkRecord_get, record, lean, speed, steer])
    (by rwa [s.sight_presenceTaken.number])
  exact pass.trans (Station.checkRecord_get _ _)

/-! ## Step 5 (R96, R97) -/

/-- The record after step 5. -/
def PeerRecord.suspected (cause received : Bool) (r : PeerRecord) : PeerRecord :=
  match r.state with
  | .present => if cause then { r with state := .suspect, recover := 0 } else r
  | .suspect =>
    let count := if received && !cause then min 32 (r.recover + 1) else 0
    if 32 ≤ count then { r with state := .present, recover := 0 } else { r with recover := count }
  | .absent | .joining | .excluded | .self => r

theorem Station.judgeRecord_of_present {s : Station} {k : StationNo} (present : (s.peers.get k).state = .present) :
    s.judgeRecord k =
      if s.suspectCause k then (s.setPeer k { s.peers.get k with state := .suspect, recover := 0 }).raise .peerSuspect k.val
      else s := by
  unfold Station.judgeRecord
  dsimp only
  split
  · rfl
  all_goals simp_all

theorem Station.judgeRecord_of_suspect {s : Station} {k : StationNo} (suspect : (s.peers.get k).state = .suspect) :
    s.judgeRecord k =
      (s.setPeer k { s.peers.get k with
        recover := if s.cleanRound k then succSat Config.recoverLimit (s.peers.get k).recover else 0 }).suspectRecovery k := by
  unfold Station.judgeRecord
  dsimp only
  split
  · simp_all
  · rfl
  all_goals simp_all

theorem Station.judgeRecord_of_unjudged {s : Station} {k : StationNo} (unjudged : isJudged (s.peers.get k).state = false) :
    s.judgeRecord k = s := by
  unfold Station.judgeRecord
  dsimp only
  split
  · simp_all [isJudged]
  · simp_all [isJudged]
  all_goals rfl

theorem PeerRecord.suspected_of_present {r : PeerRecord} (present : r.state = .present) (cause received : Bool) :
    r.suspected cause received = if cause then { r with state := .suspect, recover := 0 } else r := by
  unfold PeerRecord.suspected
  split
  · rfl
  all_goals simp_all

theorem PeerRecord.suspected_of_suspect {r : PeerRecord} (suspect : r.state = .suspect) (cause received : Bool) :
    r.suspected cause received =
      if 32 ≤ (if received && !cause then min 32 (r.recover + 1) else 0) then { r with state := .present, recover := 0 }
      else { r with recover := if received && !cause then min 32 (r.recover + 1) else 0 } := by
  unfold PeerRecord.suspected
  split
  · simp_all
  · rfl
  all_goals simp_all

theorem PeerRecord.suspected_of_unjudged {r : PeerRecord} (unjudged : isJudged r.state = false) (cause received : Bool) :
    r.suspected cause received = r := by
  unfold PeerRecord.suspected
  split
  · simp_all [isJudged]
  · simp_all [isJudged]
  all_goals rfl

/-- The record after its recovery, where the count has reached 32 (R97). -/
def PeerRecord.recovered (r : PeerRecord) : PeerRecord :=
  if r.state = .suspect && decide (32 ≤ r.recover) then { r with state := .present, recover := 0 } else r

theorem Station.suspectRecovery_get (s : Station) (k : StationNo) :
    (s.suspectRecovery k).peers.get k = (s.peers.get k).recovered := by
  unfold Station.suspectRecovery PeerRecord.recovered
  change (if s.recoveryDue k then _ else s : Station).peers.get k = if s.recoveryDue k then _ else _
  split
  · exact s.setPeer_get k _
  · rfl

theorem Station.suspectRecovery_get_other (s : Station) {j k : StationNo} (apart : j ≠ k) :
    (s.suspectRecovery k).peers.get j = s.peers.get j := by
  unfold Station.suspectRecovery
  split
  · exact s.setPeer_get_other apart _
  · rfl

theorem Station.judgeRecord_get (s : Station) (k : StationNo) :
    (s.judgeRecord k).peers.get k = (s.peers.get k).suspected (s.suspectCause k) (s.wasReceived k) := by
  cases judged : isJudged (s.peers.get k).state with
  | false => rw [Station.judgeRecord_of_unjudged judged, PeerRecord.suspected_of_unjudged judged]
  | true =>
    rcases (isJudged_iff _).mp judged with present | suspect
    · rw [Station.judgeRecord_of_present present, PeerRecord.suspected_of_present present]
      split
      · exact s.setPeer_get k _
      · rfl
    · rw [Station.judgeRecord_of_suspect suspect, PeerRecord.suspected_of_suspect suspect]
      rw [Station.suspectRecovery_get, s.setPeer_get]
      unfold PeerRecord.recovered
      dsimp only
      rw [suspect, decide_eq_true rfl, Bool.true_and]
      simp only [decide_eq_true_eq]
      rfl

theorem Station.judgeRecord_get_other (s : Station) {j k : StationNo} (apart : j ≠ k) :
    (s.judgeRecord k).peers.get j = s.peers.get j := by
  unfold Station.judgeRecord
  dsimp only
  split
  · split
    · exact s.setPeer_get_other apart _
    · rfl
  · rw [Station.suspectRecovery_get_other _ apart]
    exact s.setPeer_get_other apart _
  all_goals rfl

theorem PeerRecord.suspected_judged (cause received : Bool) (r : PeerRecord) :
    isJudged (r.suspected cause received).state = isJudged r.state
      ∧ (r.suspected cause received).rosterRole = r.rosterRole := by
  unfold PeerRecord.suspected
  cases state : r.state <;> dsimp only <;> (repeat' split) <;> exact ⟨by simp [state, isJudged], rfl⟩

theorem Station.bases_judgeRecord (s : Station) (k : StationNo) : s.SameBases (s.judgeRecord k) :=
  .of_record (s.sight_judgeRecord k) (fun _ apart => s.judgeRecord_get_other apart)
    (by rw [Station.judgeRecord_get, (PeerRecord.suspected_judged _ _ _).1])
    (by rw [Station.judgeRecord_get, (PeerRecord.suspected_judged _ _ _).2])

end Sys2Proof.Machine
end

