-- ==== Sys2Proof/Proofs/RecordChain.lean ====
section
/-! One record from the start to the end of the five steps: the report, the counts, the checks, presence and suspicion (R81 to
R97). -/

namespace Sys2Proof.Machine

theorem Station.SameSight.suspectCause {s t : Station} (h : s.SameSight t) {k : StationNo}
    (record : t.peers.get k = s.peers.get k) : t.suspectCause k = s.suspectCause k := by
  have role : t.roleCause k = s.roleCause k := by
    unfold Station.roleCause
    rw [h.heard, record]
  unfold Station.suspectCause
  rw [record, h.params, role, h.digestCause, h.trajCause]

/-- Step 5 for one record. -/
theorem Station.peersSection_get {s : Station} {k : StationNo} (other : k ≠ s.number) :
    s.peersSection.peers.get k =
      (s.recordsChecked.peers.get k).suspected (s.recordsChecked.suspectCause k) (s.wasReceived k) := by
  have checked := s.sight_recordsChecked
  have pass := Station.forPeers_get (f := Station.judgeRecord) (R := fun t => s.recordsChecked.SameSight t) (k := k)
    (s := s.recordsChecked) (fun t j => (t.sight_judgeRecord j).number) (.refl _) (fun t j h => h.trans (t.sight_judgeRecord j))
    (fun t j apart => t.judgeRecord_get_other apart)
    (fun t sight record => by
      rw [Station.judgeRecord_get, Station.judgeRecord_get, record, sight.suspectCause record, sight.wasReceived])
    (by rwa [checked.number])
  rw [Station.peersSection_eq, pass, Station.judgeRecord_get, checked.wasReceived]

/-! ## What each step leaves of the record -/

/-- The records agree in all but the state, the recover count and the counters of the cross-checks. -/
structure PeerRecord.SameCounts (r z : PeerRecord) : Prop where
  lastReport : z.lastReport = r.lastReport
  lastHeard : z.lastHeard = r.lastHeard
  expectedSeq : z.expectedSeq = r.expectedSeq
  missed : z.missed = r.missed
  stale : z.stale = r.stale
  rosterRole : z.rosterRole = r.rosterRole
  absentRounds : z.absentRounds = r.absentRounds
  exclusions : z.exclusions = r.exclusions

theorem PeerRecord.SameCounts.trans {r z w : PeerRecord} (h : r.SameCounts z) (h' : z.SameCounts w) : r.SameCounts w :=
  ⟨h'.1.trans h.1, h'.2.trans h.2, h'.3.trans h.3, h'.4.trans h.4, h'.5.trans h.5, h'.6.trans h.6, h'.7.trans h.7,
    h'.8.trans h.8⟩

theorem PeerRecord.presence_counts (appears : Bool) (r : PeerRecord) : r.SameCounts (r.presence appears) := by
  unfold PeerRecord.presence
  split <;> exact ⟨rfl, rfl, rfl, rfl, rfl, rfl, rfl, rfl⟩

theorem PeerRecord.checked_counts (lean speed steer : Nat → Nat) (r : PeerRecord) :
    r.SameCounts (r.checked lean speed steer) := by
  unfold PeerRecord.checked
  split <;> exact ⟨rfl, rfl, rfl, rfl, rfl, rfl, rfl, rfl⟩

theorem PeerRecord.suspected_counts (cause received : Bool) (r : PeerRecord) : r.SameCounts (r.suspected cause received) := by
  unfold PeerRecord.suspected
  dsimp only
  (repeat' split) <;> exact ⟨rfl, rfl, rfl, rfl, rfl, rfl, rfl, rfl⟩

theorem PeerRecord.suspected_checks (cause received : Bool) (r : PeerRecord) :
    (r.suspected cause received).leanDisagree = r.leanDisagree ∧ (r.suspected cause received).speedDisagree = r.speedDisagree
      ∧ (r.suspected cause received).steerDisagree = r.steerDisagree := by
  unfold PeerRecord.suspected
  dsimp only
  (repeat' split) <;> exact ⟨rfl, rfl, rfl⟩

/-- Steps 1 and 2 leave the state, the role and what is counted elsewhere. -/
theorem PeerRecord.counted_keeps (r : PeerRecord) (frame : Option Report) (refused bit : Bool) (round : Word16) :
    let z := (r.withReport frame refused round).sectionCounted frame bit
    z.state = r.state ∧ z.rosterRole = r.rosterRole ∧ z.absentRounds = r.absentRounds ∧ z.exclusions = r.exclusions
      ∧ z.recover = r.recover ∧ z.leanDisagree = r.leanDisagree ∧ z.speedDisagree = r.speedDisagree
      ∧ z.steerDisagree = r.steerDisagree := by
  have report : ∃ report heard, r.withReport frame refused round = { r with lastReport := report, lastHeard := heard } := by
    unfold PeerRecord.withReport
    (repeat' split) <;> exact ⟨_, _, rfl⟩
  obtain ⟨report, heard, is⟩ := report
  have missed : ∃ n report heard, countMissed (r.withReport frame refused round) frame.isSome bit =
      { r with missed := n, lastReport := report, lastHeard := heard } := by
    rw [is]
    unfold countMissed
    dsimp only
    (repeat' split) <;> exact ⟨_, _, _, rfl⟩
  obtain ⟨n, report', heard', is'⟩ := missed
  unfold PeerRecord.sectionCounted
  rw [is']
  unfold countSeq
  (repeat' split) <;> exact ⟨rfl, rfl, rfl, rfl, rfl, rfl, rfl, rfl⟩

/-! ## The report (R81, R85, R86) -/

theorem countSeq_report (r : PeerRecord) (frame : Option Report) (bit : Bool) :
    (countSeq r frame bit).lastReport = r.lastReport ∧ (countSeq r frame bit).lastHeard = r.lastHeard
      ∧ (countSeq r frame bit).missed = r.missed := by
  unfold countSeq
  (repeat' split) <;> exact ⟨rfl, rfl, rfl⟩

theorem countMissed_seq (r : PeerRecord) (received bit : Bool) :
    (countMissed r received bit).state = r.state ∧ (countMissed r received bit).expectedSeq = r.expectedSeq
      ∧ (countMissed r received bit).stale = r.stale := by
  unfold countMissed
  dsimp only
  (repeat' split) <;> exact ⟨rfl, rfl, rfl⟩

theorem countMissed_unjudged {r : PeerRecord} (unjudged : isJudged r.state = false) (received bit : Bool) :
    countMissed r received bit = r := if_neg (by rw [unjudged]; decide)

/-- A count of 15 takes the last report away (R81). -/
theorem countMissed_judged {r : PeerRecord} (judged : isJudged r.state = true) {received bit : Bool} {n : Nat}
    (count : n = if received then 0 else if bit then min 15 (r.missed + 1) else r.missed) :
    countMissed r received bit =
      if n = 15 then { r with missed := n, lastReport := none, lastHeard := none } else { r with missed := n } := by
  rw [count]
  exact if_pos judged

theorem PeerRecord.counted_heard (r : PeerRecord) (f : Report) (refused bit : Bool) (round : Word16) :
    let z := (r.withReport (some f) refused round).sectionCounted (some f) bit
    (isJudged r.state = true → z.missed = 0) ∧ (isJudged r.state = false → z.missed = r.missed)
      ∧ (refused = false → z.lastReport = some f ∧ z.lastHeard = some round)
      ∧ (refused = true → z.lastReport = r.lastReport ∧ z.lastHeard = r.lastHeard) := by
  intro z
  obtain ⟨report, heard, missed⟩ := countSeq_report
    (countMissed (r.withReport (some f) refused round) true bit) (some f) bit
  have state : (r.withReport (some f) refused round).state = r.state
      ∧ (r.withReport (some f) refused round).missed = r.missed := by
    unfold PeerRecord.withReport
    dsimp only
    split <;> exact ⟨rfl, rfl⟩
  have taken : (refused = false → (r.withReport (some f) refused round).lastReport = some f
        ∧ (r.withReport (some f) refused round).lastHeard = some round)
      ∧ (refused = true → (r.withReport (some f) refused round).lastReport = r.lastReport
        ∧ (r.withReport (some f) refused round).lastHeard = r.lastHeard) := by
    cases refused
    · exact ⟨fun _ => ⟨rfl, rfl⟩, nofun⟩
    · exact ⟨nofun, fun _ => ⟨rfl, rfl⟩⟩
  rw [show z.lastReport = _ from report, show z.lastHeard = _ from heard, show z.missed = _ from missed]
  cases judged : isJudged r.state with
  | false =>
    rw [countMissed_unjudged (by rw [state.1, judged])]
    exact ⟨nofun, fun _ => state.2, taken⟩
  | true =>
    rw [countMissed_judged (n := 0) (by rw [state.1, judged]) rfl, if_neg (by decide)]
    exact ⟨fun _ => rfl, nofun, taken⟩

theorem PeerRecord.counted_unheard (r : PeerRecord) (refused bit : Bool) (round : Word16) :
    let z := (r.withReport none refused round).sectionCounted none bit
    (isJudged r.state = true → bit = true → z.missed = min 15 (r.missed + 1))
      ∧ (isJudged r.state = true → bit = false → z.missed = r.missed)
      ∧ (isJudged r.state = false → z.missed = r.missed)
      ∧ (isJudged r.state = true → z.missed = 15 → z.lastReport = none ∧ z.lastHeard = none)
      ∧ (isJudged r.state = false ∨ z.missed ≠ 15 → z.lastReport = r.lastReport ∧ z.lastHeard = r.lastHeard) := by
  intro z
  obtain ⟨report, heard, missed⟩ := countSeq_report (countMissed r false bit) none bit
  rw [show z.lastReport = _ from report, show z.lastHeard = _ from heard, show z.missed = _ from missed]
  cases judged : isJudged r.state with
  | false =>
    rw [countMissed_unjudged judged]
    exact ⟨nofun, nofun, fun _ => rfl, nofun, fun _ => ⟨rfl, rfl⟩⟩
  | true =>
    rw [countMissed_judged (n := if bit then min 15 (r.missed + 1) else r.missed) judged rfl]
    by_cases full : (if bit then min 15 (r.missed + 1) else r.missed) = 15
    · rw [if_pos full]
      refine ⟨fun _ is => if_pos is, fun _ is => if_neg (by rw [is]; decide), nofun, fun _ _ => ⟨rfl, rfl⟩, fun not => ?_⟩
      exact not.elim nofun fun short => absurd full short
    · rw [if_neg full]
      refine ⟨fun _ is => if_pos is, fun _ is => if_neg (by rw [is]; decide), nofun, fun _ is => absurd is full,
        fun _ => ⟨rfl, rfl⟩⟩

/-! ## The seq (R83, R87) -/

theorem PeerRecord.counted_seq (r : PeerRecord) (frame : Option Report) (refused bit : Bool) (round : Word16) :
    let z := (r.withReport frame refused round).sectionCounted frame bit
    (r.state = .excluded → z.expectedSeq = r.expectedSeq ∧ z.stale = r.stale)
      ∧ (r.state ≠ .excluded →
        (∀ f, frame = some f → z.expectedSeq = some (!f.seq))
          ∧ (frame = none → z.expectedSeq = if bit then r.expectedSeq.map not else r.expectedSeq)
          ∧ (frame = none → z.stale = r.stale)
          ∧ (∀ f, frame = some f → z.stale = staleAfter r f.seq)) := by
  intro z
  have parts : (r.withReport frame refused round).state = r.state ∧ (r.withReport frame refused round).expectedSeq = r.expectedSeq
      ∧ (r.withReport frame refused round).stale = r.stale := by
    unfold PeerRecord.withReport
    (repeat' split) <;> exact ⟨rfl, rfl, rfl⟩
  obtain ⟨state, expected, stale⟩ := countMissed_seq (r.withReport frame refused round) frame.isSome bit
  have result : z = countSeq (countMissed (r.withReport frame refused round) frame.isSome bit) frame bit := rfl
  generalize countMissed (r.withReport frame refused round) frame.isSome bit = c at state expected stale result
  rw [parts.1] at state
  rw [parts.2.1] at expected
  rw [parts.2.2] at stale
  rw [result]
  unfold countSeq
  refine ⟨fun excluded => ?_, fun open_ => ?_⟩
  · rw [if_pos (state.trans excluded)]
    exact ⟨expected, stale⟩
  · rw [if_neg (by rw [state]; exact open_)]
    cases frame with
    | none =>
      dsimp only
      refine ⟨nofun, fun _ => ?_, fun _ => ?_, nofun⟩
      · rw [apply_ite PeerRecord.expectedSeq, expected]
      · rw [apply_ite PeerRecord.stale, stale]
        exact ite_self _
    | some f =>
      refine ⟨fun g is => ?_, nofun, nofun, fun g is => ?_⟩
      · cases is
        rfl
      · cases is
        change staleAfter c f.seq = _
        unfold staleAfter
        rw [expected, state, stale]

end Sys2Proof.Machine
end

