-- ==== Sys2Proof/Proofs/SuspectRules.lean ====
section
/-! The record at the end of the five steps: its cross-checks by the bases at the end, its cause, its state and recover count
(R88 to R97). -/

namespace Sys2Proof.Machine

/-- The record appears in this round: JOINING, or ABSENT and not refused, a member, and received (R88). -/
def Station.appears (s : Station) (k : StationNo) : Prop :=
  ((s.peers.get k).state = .joining
      ∨ ((s.peers.get k).state = .absent ∧ ¬s.params.shared.rejoinMax < (s.peers.get k).exclusions))
    ∧ s.inMemberSet k = true ∧ s.wasReceived k = true

/-- The record is judged before this round's presence (R86). -/
def Station.judgedBefore (s : Station) (k : StationNo) : Prop :=
  (s.peers.get k).state = .present ∨ (s.peers.get k).state = .suspect

section

variable {s : Station} {k : StationNo}

/-- The record after steps 1 and 2. -/
theorem Station.counted_get (other : k ≠ s.number) :
    s.recordsCounted.peers.get k =
      ((s.peers.get k).withReport (s.heard k) (decide (s.params.shared.rejoinMax < (s.peers.get k).exclusions))
        s.bus.roundNumber).sectionCounted (s.heard k) (s.membersBit k) := by
  rw [Station.recordsCounted_get other, Station.reported_get]

/-- Steps 3 to 5 leave what steps 1 and 2 count. -/
theorem Station.section_counts (other : k ≠ s.number) :
    (s.recordsCounted.peers.get k).SameCounts (s.peersSection.peers.get k) := by
  rw [Station.peersSection_get other, Station.recordsChecked_get other, Station.presenceTaken_get other]
  exact ((PeerRecord.presence_counts _ _).trans (PeerRecord.checked_counts _ _ _ _)).trans (PeerRecord.suspected_counts _ _ _)

/-- The state after step 3 (R88). -/
theorem Station.presence_state (other : k ≠ s.number) :
    (s.appears k → (s.presenceTaken.peers.get k).state = .present)
      ∧ (¬s.appears k → (s.presenceTaken.peers.get k).state = (s.peers.get k).state) := by
  obtain ⟨state, -, -, exclusions, -⟩ := PeerRecord.counted_keeps (s.peers.get k) (s.heard k)
    (decide (s.params.shared.rejoinMax < (s.peers.get k).exclusions)) (s.membersBit k) s.bus.roundNumber
  rw [← Station.counted_get other] at state exclusions
  have appears : ((s.recordsCounted.peers.get k).appears (s.inMemberSet k) (s.wasReceived k)
      (decide (s.params.shared.rejoinMax < (s.recordsCounted.peers.get k).exclusions))) = true ↔ s.appears k := by
    unfold PeerRecord.appears Station.appears
    rw [state, exclusions]
    simp [and_assoc]
  rw [Station.presenceTaken_get other]
  unfold PeerRecord.presence
  exact ⟨fun is => by rw [if_pos (appears.mpr is)], fun not => by rw [if_neg (mt appears.mp not), state]⟩

theorem Station.presence_judged (other : k ≠ s.number) :
    isJudged (s.presenceTaken.peers.get k).state = true ↔ s.judgedBefore k ∨ s.appears k := by
  obtain ⟨yes, no⟩ := Station.presence_state other
  rw [isJudged_iff]
  by_cases is : s.appears k
  · exact ⟨fun _ => .inr is, fun _ => .inl (yes is)⟩
  · rw [no is]
    exact ⟨.inl, fun h => h.resolve_right is⟩

/-- What the checks compare does not change from the presence to the end of the section. -/
theorem Station.bases_checked (s : Station) : s.presenceTaken.SameBases s.recordsChecked :=
  Station.forPeers_preserves (fun t => s.presenceTaken.SameBases t) Station.checkRecord
    (fun t j _ h => h.trans (t.bases_checkRecord j)) s.presenceTaken (.refl _)

theorem Station.bases_section (s : Station) : s.presenceTaken.SameBases s.peersSection :=
  Station.forPeers_preserves (fun t => s.presenceTaken.SameBases t) Station.judgeRecord
    (fun t j _ h => h.trans (t.bases_judgeRecord j)) s.recordsChecked s.bases_checked

theorem Station.presence_roster (other : k ≠ s.number) :
    (s.presenceTaken.peers.get k).rosterRole = (s.peers.get k).rosterRole := by
  obtain ⟨-, kept, -⟩ := PeerRecord.counted_keeps (s.peers.get k) (s.heard k)
    (decide (s.params.shared.rejoinMax < (s.peers.get k).exclusions)) (s.membersBit k) s.bus.roundNumber
  rw [← Station.counted_get other] at kept
  rw [Station.presenceTaken_get other, (PeerRecord.presence_counts _ _).rosterRole, kept]

/-! ## The cross-checks (R91 to R95) -/

theorem countCheck_cases (disagrees : Int → Int → Bool) (base value : Option Int) (n : Nat) :
    (base = none ∨ value = none → countCheck disagrees base value n = n)
      ∧ ∀ a b, base = some a → value = some b →
        (disagrees a b = true → countCheck disagrees base value n = min 15 (n + 1))
          ∧ (disagrees a b = false → countCheck disagrees base value n = 0) := by
  refine ⟨fun missing => ?_, fun a b is is' => ?_⟩
  · rcases missing with rfl | rfl
    · rfl
    · cases base <;> rfl
  · subst is is'
    exact ⟨fun yes => if_pos yes, fun no => if_neg (by rw [no]; decide)⟩

/-- The counters of the three checks are the ones of the section's end, by its own bases. -/
theorem Station.section_checks (other : k ≠ s.number) :
    let z := s.peersSection.peers.get k
    let r := s.peers.get k
    (s.judgedBefore k ∨ s.appears k →
        z.leanDisagree = s.peersSection.leanCount k r.leanDisagree
          ∧ z.speedDisagree = s.peersSection.speedCount k r.speedDisagree
          ∧ z.steerDisagree = s.peersSection.steerCount k r.steerDisagree)
      ∧ (¬(s.judgedBefore k ∨ s.appears k) →
        z.leanDisagree = r.leanDisagree ∧ z.speedDisagree = r.speedDisagree ∧ z.steerDisagree = r.steerDisagree) := by
  intro z r
  obtain ⟨-, -, -, -, -, lean, speed, steer⟩ := PeerRecord.counted_keeps r (s.heard k)
    (decide (s.params.shared.rejoinMax < (s.peers.get k).exclusions)) (s.membersBit k) s.bus.roundNumber
  rw [← Station.counted_get other] at lean speed steer
  have present : (s.presenceTaken.peers.get k).leanDisagree = r.leanDisagree
      ∧ (s.presenceTaken.peers.get k).speedDisagree = r.speedDisagree
      ∧ (s.presenceTaken.peers.get k).steerDisagree = r.steerDisagree := by
    rw [Station.presenceTaken_get other]
    unfold PeerRecord.presence
    split <;> exact ⟨lean, speed, steer⟩
  obtain ⟨lean', speed', steer'⟩ := s.bases_section.counts k
  obtain ⟨lean₅, speed₅, steer₅⟩ := PeerRecord.suspected_checks (s.recordsChecked.suspectCause k) (s.wasReceived k)
    (s.recordsChecked.peers.get k)
  rw [← Station.peersSection_get other, Station.recordsChecked_get other] at lean₅ speed₅ steer₅
  rw [show z.leanDisagree = _ from lean₅, show z.speedDisagree = _ from speed₅, show z.steerDisagree = _ from steer₅, lean',
    speed', steer', ← Station.presence_judged other, ← present.1, ← present.2.1, ← present.2.2]
  generalize s.presenceTaken.peers.get k = p
  unfold PeerRecord.checked
  refine ⟨fun judged => ?_, fun not => ?_⟩
  · simp only [judged, if_true, and_self]
  · simp only [not, if_false, Bool.false_eq_true, and_self]

/-! ## The cause (R96) -/

/-- The suspect cause by the record at the end of the section. -/
theorem Station.section_cause (other : k ≠ s.number) :
    s.recordsChecked.suspectCause k = true ↔
      let z := s.peersSection.peers.get k
      let sh := s.params.shared
      2 ≤ z.missed ∨ 2 ≤ z.stale ∨ sh.leanFilter ≤ z.leanDisagree ∨ sh.speedFilter ≤ z.speedDisagree
        ∨ sh.steerFilter ≤ z.steerDisagree ∨ s.roleCause k = true ∨ s.digestCause k = true ∨ s.trajCause k = true := by
  have sight := s.sight_recordsChecked
  have counts := PeerRecord.suspected_counts (s.recordsChecked.suspectCause k) (s.wasReceived k) (s.recordsChecked.peers.get k)
  obtain ⟨lean, speed, steer⟩ := PeerRecord.suspected_checks (s.recordsChecked.suspectCause k) (s.wasReceived k)
    (s.recordsChecked.peers.get k)
  rw [← Station.peersSection_get other] at counts lean speed steer
  have roster : (s.recordsChecked.peers.get k).rosterRole = (s.peers.get k).rosterRole := by
    rw [s.bases_checked.roster, Station.presence_roster other]
  have role : s.recordsChecked.roleCause k = s.roleCause k := by
    unfold Station.roleCause
    rw [sight.heard, roster]
  dsimp only
  rw [counts.missed, counts.stale, lean, speed, steer, ← role, ← sight.digestCause, ← sight.trajCause, ← sight.params]
  unfold Station.suspectCause
  simp only [Bool.or_eq_true, decide_eq_true_iff, or_assoc]
  exact Iff.rfl

/-! ## Presence and suspicion (R88, R96, R97) -/

/-- The record before step 5 has the state of step 3 and the recover count of before. -/
theorem Station.checked_state (other : k ≠ s.number) :
    (s.recordsChecked.peers.get k).state = (s.presenceTaken.peers.get k).state
      ∧ (s.recordsChecked.peers.get k).recover = (s.peers.get k).recover := by
  obtain ⟨-, -, -, -, recover, -⟩ := PeerRecord.counted_keeps (s.peers.get k) (s.heard k)
    (decide (s.params.shared.rejoinMax < (s.peers.get k).exclusions)) (s.membersBit k) s.bus.roundNumber
  rw [← Station.counted_get other] at recover
  have present : (s.presenceTaken.peers.get k).recover = (s.peers.get k).recover := by
    rw [Station.presenceTaken_get other]
    unfold PeerRecord.presence
    split <;> exact recover
  rw [Station.recordsChecked_get other, ← present]
  unfold PeerRecord.checked
  split <;> exact ⟨rfl, rfl⟩

theorem Station.appears_unjudged (judged : s.judgedBefore k) : ¬s.appears k := fun appears => by
  obtain ⟨absent, -⟩ := appears
  rcases judged with is | is <;> simp [is] at absent

theorem Station.checked_present (other : k ≠ s.number) (present : (s.peers.get k).state = .present ∨ s.appears k) :
    (s.recordsChecked.peers.get k).state = .present := by
  obtain ⟨yes, no⟩ := Station.presence_state other
  rw [(Station.checked_state other).1]
  exact present.elim (fun is => (no (Station.appears_unjudged (.inl is))).trans is) yes

/-- The state and the recover count at the end of the section. -/
theorem Station.section_state (other : k ≠ s.number) :
    let r := s.peers.get k
    let z := s.peersSection.peers.get k
    let cause := s.recordsChecked.suspectCause k
    (¬s.judgedBefore k → ¬s.appears k → z.state = r.state ∧ z.recover = r.recover)
      ∧ (r.state = .present ∨ s.appears k →
          (cause = true → z.state = .suspect ∧ z.recover = 0)
            ∧ (cause = false → z.state = .present ∧ z.recover = r.recover))
      ∧ (r.state = .suspect →
          (s.wasReceived k = false ∨ cause = true → z.state = .suspect ∧ z.recover = 0)
            ∧ (s.wasReceived k = true → cause = false → 31 ≤ r.recover → z.state = .present ∧ z.recover = 0)
            ∧ (s.wasReceived k = true → cause = false → r.recover < 31 →
                z.state = .suspect ∧ z.recover = r.recover + 1)) := by
  intro r z cause
  obtain ⟨yes, no⟩ := Station.presence_state other
  obtain ⟨state, recover⟩ := Station.checked_state other
  rw [← state] at yes no
  have result : z = (s.recordsChecked.peers.get k).suspected cause (s.wasReceived k) := Station.peersSection_get other
  rw [result]
  refine ⟨fun unjudged hidden => ?_, fun present => ?_, fun suspect => ?_⟩
  · rw [PeerRecord.suspected_of_unjudged (by rw [no hidden, Bool.eq_false_iff, Ne, isJudged_iff]; exact unjudged)]
    exact ⟨no hidden, recover⟩
  · have is := Station.checked_present other present
    rw [PeerRecord.suspected_of_present is]
    refine ⟨fun yes => ?_, fun no => ?_⟩
    · rw [if_pos yes]
      exact ⟨rfl, rfl⟩
    · rw [if_neg (by rw [no]; decide)]
      exact ⟨is, recover⟩
  · have is : (s.recordsChecked.peers.get k).state = .suspect := (no (Station.appears_unjudged (.inr suspect))).trans suspect
    rw [PeerRecord.suspected_of_suspect is, recover]
    refine ⟨fun unclean => ?_, fun received clean full => ?_, fun received clean short => ?_⟩
    · have zero : (if (s.wasReceived k && !cause) = true then min 32 ((s.peers.get k).recover + 1) else 0) = 0 :=
        if_neg (by rcases unclean with h | h <;> simp [h])
      rw [zero, if_neg (by decide)]
      exact ⟨is, rfl⟩
    all_goals
      have count : (if (s.wasReceived k && !cause) = true then min 32 ((s.peers.get k).recover + 1) else 0) =
        min 32 (r.recover + 1) := if_pos (by simp [received, clean])
      rw [count]
    · rw [if_pos (by omega)]
      exact ⟨rfl, rfl⟩
    · rw [if_neg (by omega)]
      exact ⟨is, by dsimp only; omega⟩

end

end Sys2Proof.Machine
end

