-- ==== Sys2Proof/Proofs/SectionConds.lean ====
section
/-! The conditions of the peer table at the end of the report section: what is held and told for one record (R89, R90, R96). -/

namespace Sys2Proof.Machine

/-! ## One record's conditions -/

/-- The conditions of another record: those under another source. -/
def otherSource (k : StationNo) (key : CondKey) : Prop := key.source ≠ k.val

theorem Station.follows_identityConds (s : Station) (k : StationNo) {touched : CondKey → Prop}
    (role : touched { code := .roleMismatch, source := k.val }) (digest : touched { code := .configDiffers, source := k.val }) :
    s.Follows touched (s.identityConds k) := by
  unfold Station.identityConds
  split
  · exact (s.follows_setHeld _ role).trans (Station.follows_setHeld _ _ digest)
  · exact .refl

theorem Station.follows_checkRecord (s : Station) (k : StationNo) {touched : CondKey → Prop}
    (role : touched { code := .roleMismatch, source := k.val }) (digest : touched { code := .configDiffers, source := k.val }) :
    s.Follows touched (s.checkRecord k) := by
  have conds := s.follows_identityConds k role digest
  rw [Station.checkRecord_eq]
  unfold Station.checkConds
  split
  · split
    · exact ConditionUnit.Follows.trans conds ((s.identityConds k).follows_raise (code := .trajMismatch) rfl k.val)
    · exact conds
  · exact .refl

theorem Station.follows_suspectRecovery (s : Station) (k : StationNo) {touched : CondKey → Prop} :
    s.Follows touched (s.suspectRecovery k) := by
  unfold Station.suspectRecovery
  split <;> exact .refl

theorem Station.follows_judgeRecord (s : Station) (k : StationNo) {touched : CondKey → Prop} :
    s.Follows touched (s.judgeRecord k) := by
  cases judged : isJudged (s.peers.get k).state with
  | false =>
    rw [Station.judgeRecord_of_unjudged judged]
    exact .refl
  | true =>
    rcases (isJudged_iff _).mp judged with present | suspect
    · rw [Station.judgeRecord_of_present present]
      split
      · exact Station.follows_raise (s.setPeer k _) (code := .peerSuspect) rfl k.val
      · exact .refl
    · rw [Station.judgeRecord_of_suspect suspect]
      exact Station.follows_suspectRecovery (s.setPeer k _) k

theorem Station.identityConds_held {s : Station} {k : StationNo} (received : s.wasReceived k = true)
    (sound : s.cond.tableSound) :
    isHeld (s.identityConds k).cond { code := .roleMismatch, source := k.val } = s.roleCause k
      ∧ isHeld (s.identityConds k).cond { code := .configDiffers, source := k.val } = s.digestCause k := by
  have first := Station.setHeld_tableSound sound (s.roleCause k) .roleMismatch k.val
  have is : s.identityConds k = (s.setHeld (s.roleCause k) .roleMismatch k.val).setHeld (s.digestCause k) .configDiffers k.val :=
    if_pos received
  rw [is]
  refine ⟨?_, Station.isHeld_setHeld_self first _ rfl _⟩
  rw [Station.isHeld_setHeld first _ _ rfl, if_neg (by simp)]
  exact Station.isHeld_setHeld_self sound _ rfl _

/-- A judged record that is heard holds its two conditions as their causes are, and tells a differing trajectory (R89, R90). -/
theorem Station.checkRecord_conds {s : Station} {k : StationNo} (judged : isJudged (s.peers.get k).state = true) :
    (s.cond.tableSound → s.wasReceived k = true →
        isHeld (s.checkRecord k).cond { code := .roleMismatch, source := k.val } = s.roleCause k
          ∧ isHeld (s.checkRecord k).cond { code := .configDiffers, source := k.val } = s.digestCause k)
      ∧ (s.trajCause k = true → (s.checkRecord k).cond.told { code := .trajMismatch, source := k.val }) := by
  rw [Station.checkRecord_eq, if_pos judged]
  change (_ → _ → isHeld (s.checkConds k).cond _ = _ ∧ isHeld (s.checkConds k).cond _ = _)
    ∧ (_ → (s.checkConds k).cond.told _)
  unfold Station.checkConds
  refine ⟨fun sound received => ?_, fun cause => ?_⟩
  · have held := Station.identityConds_held received sound
    split
    · have raised := (s.identityConds k).follows_raise (code := .trajMismatch) rfl k.val (touched := fun _ => False)
      have kept := (s.follows_identityConds k (touched := fun _ => True) trivial trivial).sound sound
      rw [raised.held kept _ rfl id, raised.held kept _ rfl id]
      exact held
    · exact held
  · rw [if_pos cause]
    exact Station.told_raise _ _ _

/-! ## The passes -/

theorem Station.presenceTaken_cond (s : Station) : s.presenceTaken.cond = s.cond := by
  have reported : s.reported.cond = s.cond :=
    Station.foldl_preserves (fun t => t.cond = s.cond) Station.takeReport
      (fun t k h => by simpa using h) allStations s rfl
  have counted : s.recordsCounted.cond = s.cond :=
    Station.forPeers_preserves (fun t => t.cond = s.cond) Station.countRecord (fun t k _ h => h) s.reported reported
  exact Station.forPeers_preserves (fun t => t.cond = s.cond) Station.takePresence
    (fun t k _ h => by simpa using h) s.recordsCounted counted

theorem Station.follows_judging (s : Station) {touched : CondKey → Prop} : s.recordsChecked.Follows touched s.peersSection :=
  Station.forPeers_preserves (fun t => s.recordsChecked.Follows touched t) Station.judgeRecord
    (fun t k _ h => ConditionUnit.Follows.trans h (t.follows_judgeRecord k)) s.recordsChecked .refl

theorem Station.follows_checking (s : Station) : s.Follows (fun key => key.source < 8) s.recordsChecked := by
  have start : s.Follows (fun key => key.source < 8) s.presenceTaken := by
    rw [Station.Follows, s.presenceTaken_cond]
    exact .refl
  exact Station.forPeers_preserves (fun t => s.Follows (fun key => key.source < 8) t) Station.checkRecord
    (fun t k _ h => ConditionUnit.Follows.trans h (t.follows_checkRecord k k.isLt k.isLt)) s.presenceTaken start

/-- The conditions that the peer table's work may touch are under the stations' numbers. -/
theorem Station.follows_peersSection (s : Station) : s.Follows (fun key => key.source < 8) s.peersSection :=
  ConditionUnit.Follows.trans s.follows_checking s.follows_judging

section

variable {s : Station} {k : StationNo}

/-- What is held and told for a record at the end of the section (R89, R90). -/
theorem Station.section_conds (other : k ≠ s.number) (judged : s.judgedBefore k ∨ s.appears k) :
    (s.cond.tableSound → s.wasReceived k = true →
        isHeld s.peersSection.cond { code := .roleMismatch, source := k.val } = s.roleCause k
          ∧ isHeld s.peersSection.cond { code := .configDiffers, source := k.val } = s.digestCause k)
      ∧ (s.trajCause k = true → s.peersSection.cond.told { code := .trajMismatch, source := k.val }) := by
  have sight₃ := s.sight_presenceTaken
  obtain ⟨t, ⟨sight, sound⟩, record, later⟩ := Station.forPeers_at (f := Station.checkRecord) (k := k) (s := s.presenceTaken)
    (R := fun t => s.presenceTaken.SameSight t ∧ (s.cond.tableSound → t.cond.tableSound))
    (Q := fun t u => t.Follows (otherSource k) u)
    (fun t j => (t.sight_checkRecord j).number) ⟨.refl _, fun sound => by rwa [s.presenceTaken_cond]⟩
    (fun t j h => ⟨h.1.trans (t.sight_checkRecord j),
      fun sound => (t.follows_checkRecord j (touched := fun _ => True) trivial trivial).sound (h.2 sound)⟩)
    (fun t j apart => t.checkRecord_get_other apart) (fun t => .refl)
    (fun t u j apart h => ConditionUnit.Follows.trans h (u.follows_checkRecord j (fun same => apart (Fin.ext same.symm))
      (fun same => apart (Fin.ext same.symm))))
    (by rwa [sight₃.number])
  have all := sight₃.trans sight
  have rest : (t.checkRecord k).Follows (otherSource k) s.peersSection := ConditionUnit.Follows.trans later s.follows_judging
  have roster : (s.presenceTaken.peers.get k).rosterRole = (s.peers.get k).rosterRole := Station.presence_roster other
  have role : t.roleCause k = s.roleCause k := by
    unfold Station.roleCause
    rw [all.heard, record, roster]
  obtain ⟨held, told⟩ := Station.checkRecord_conds (s := t) (k := k)
    (by rw [record]; exact (Station.presence_judged other).mpr judged)
  rw [all.wasReceived, role, all.digestCause] at held
  rw [all.trajCause] at told
  refine ⟨fun sound' received => ?_, fun cause => rest.told _ (told cause)⟩
  have kept := (t.follows_checkRecord k (touched := fun _ => True) trivial trivial).sound (sound sound')
  obtain ⟨roleHeld, digestHeld⟩ := held (sound sound') received
  exact ⟨(rest.held kept _ rfl (not_not_intro rfl)).trans roleHeld, (rest.held kept _ rfl (not_not_intro rfl)).trans digestHeld⟩

/-- A record that becomes SUSPECT is told (R96). -/
theorem Station.section_told (other : k ≠ s.number) (present : (s.peers.get k).state = .present ∨ s.appears k)
    (cause : s.recordsChecked.suspectCause k = true) :
    s.peersSection.cond.told { code := .peerSuspect, source := k.val } := by
  have sight₄ := s.sight_recordsChecked
  obtain ⟨t, sight, record, later⟩ := Station.forPeers_at (f := Station.judgeRecord) (k := k) (s := s.recordsChecked)
    (R := fun t => s.recordsChecked.SameSight t) (Q := fun t u => t.Follows (fun _ => False) u)
    (fun t j => (t.sight_judgeRecord j).number) (.refl _) (fun t j h => h.trans (t.sight_judgeRecord j))
    (fun t j apart => t.judgeRecord_get_other apart) (fun t => .refl)
    (fun t u j apart h => ConditionUnit.Follows.trans h (u.follows_judgeRecord j)) (by rwa [sight₄.number])
  have state : (t.peers.get k).state = .present := by rw [record, Station.checked_present other present]
  refine later.told _ ?_
  rw [Station.judgeRecord_of_present state, if_pos (by rw [sight.suspectCause record, cause])]
  exact Station.told_raise _ _ _

end

end Sys2Proof.Machine
end

