-- ==== Sys2Proof/Proofs/SectionRecord.lean ====
section
/-! The peer table at the end of the report section, record by record (R81 to R97). -/

namespace Sys2Proof.Machine

/-! ## The own record -/

theorem Station.forPeers_own {f : Station → StationNo → Station} (number : ∀ t k, (f t k).number = t.number)
    (others : ∀ t j k, j ≠ k → (f t k).peers.get j = t.peers.get j) (s : Station) :
    (s.forPeers f).peers.get s.number = s.peers.get s.number := by
  obtain ⟨-, own⟩ := Station.forPeers_preserves
    (fun t => t.number = s.number ∧ t.peers.get s.number = s.peers.get s.number) f
    (fun t k other h => ⟨(number t k).trans h.1, (others t _ k (h.1 ▸ other.symm)).trans h.2⟩) s ⟨rfl, rfl⟩
  exact own

/-- The own record takes its report and nothing else (log 48). -/
theorem Station.peersSection_own (s : Station) :
    s.peersSection.peers.get s.number =
      (s.peers.get s.number).withReport (s.heard s.number)
        (decide (s.params.shared.rejoinMax < (s.peers.get s.number).exclusions)) s.bus.roundNumber := by
  have counted := Station.forPeers_own (f := Station.countRecord) (fun t k => (t.sight_countRecord k).number)
    (fun t j k apart => t.countRecord_get_other apart) s.reported
  have present := Station.forPeers_own (f := Station.takePresence) (fun t k => (t.sight_takePresence k).number)
    (fun t j k apart => t.takePresence_get_other apart) s.recordsCounted
  have checked := Station.forPeers_own (f := Station.checkRecord) (fun t k => (t.sight_checkRecord k).number)
    (fun t j k apart => t.checkRecord_get_other apart) s.presenceTaken
  have judged := Station.forPeers_own (f := Station.judgeRecord) (fun t k => (t.sight_judgeRecord k).number)
    (fun t j k apart => t.judgeRecord_get_other apart) s.recordsChecked
  rw [s.sight_reported.number] at counted
  rw [s.sight_recordsCounted.number] at present
  rw [s.sight_presenceTaken.number] at checked
  rw [s.sight_recordsChecked.number] at judged
  calc s.peersSection.peers.get s.number = s.recordsChecked.peers.get s.number := judged
    _ = s.presenceTaken.peers.get s.number := checked
    _ = s.recordsCounted.peers.get s.number := present
    _ = s.reported.peers.get s.number := counted
    _ = _ := s.reported_get _

/-! ## The causes and the reports, as the statement has them -/

section

variable (s : Station) (k : StationNo)

theorem Station.heard_none_iff : s.heard k = none ↔ ∀ f, ¬s.bus.round.slots.get k = some (.received f) := by
  rw [Option.eq_none_iff_forall_ne_some]
  exact forall_congr' fun f => not_congr (s.heard_iff k f)

theorem Station.wasReceived_iff : s.wasReceived k = true ↔ ¬∀ f, ¬s.bus.round.slots.get k = some (.received f) := by
  rw [← Station.heard_none_iff, Station.wasReceived, Option.isSome_iff_ne_none]

theorem Station.wasReceived_eq_false_iff :
    s.wasReceived k = false ↔ ∀ f, ¬s.bus.round.slots.get k = some (.received f) := by
  rw [← Station.heard_none_iff, Station.wasReceived, Option.isSome_eq_false_iff, Option.isNone_iff_eq_none]

theorem Station.roleCause_iff :
    s.roleCause k = true ↔
      ∃ f, s.bus.round.slots.get k = some (.received f) ∧ (f.role = 0 ∨ f.role ≠ roleCode (s.peers.get k).rosterRole) := by
  simp only [← Station.heard_iff]
  unfold Station.roleCause roleMatches
  cases s.heard k with
  | none => simp
  | some g =>
    simp only [Bool.not_eq_true', Bool.and_eq_false_iff, decide_eq_false_iff_not, not_not, Option.some.injEq, exists_eq_left']

theorem Station.digestCause_iff :
    s.digestCause k = true ↔
      ∃ f, s.bus.round.slots.get k = some (.received f) ∧ f.digest ≠ s.loader.digest := by
  simp only [← Station.heard_iff]
  unfold Station.digestCause
  cases s.heard k with
  | none => simp
  | some g => simp

theorem Station.comparesTraj_iff :
    s.comparesTraj = true ↔
      s.member.state = .member ∨ s.member.state = .halted ∨ (s.member.state = .quiet ∧ s.member.quietCompares = true) := by
  unfold Station.comparesTraj
  cases s.member.state <;> simp

theorem Station.trajCause_iff :
    s.trajCause k = true ↔
      ∃ f, s.bus.round.slots.get k = some (.received f)
        ∧ (s.member.state = .member ∨ s.member.state = .halted
            ∨ (s.member.state = .quiet ∧ s.member.quietCompares = true))
        ∧ inSet (memberSet s.bus.held) k = true ∧ f.traj ≠ s.engine.run.fields := by
  simp only [← Station.heard_iff, ← Station.comparesTraj_iff]
  unfold Station.trajCause Station.inMemberSet
  cases s.heard k with
  | none => simp
  | some g => simp [and_assoc]

theorem Station.appears_iff :
    s.appears k ↔
      ((s.peers.get k).state = .joining
          ∨ ((s.peers.get k).state = .absent ∧ ¬s.params.shared.rejoinMax < (s.peers.get k).exclusions))
        ∧ inSet (memberSet s.bus.held) k = true ∧ ¬∀ f, ¬s.bus.round.slots.get k = some (.received f) := by
  rw [← Station.wasReceived_iff]
  exact Iff.rfl

end

/-- The conditions that the work after the peer table may touch. -/
def isClosingKey (key : CondKey) : Prop :=
  key.source = 8 ∨ key.code = .tiltSole ∨ key.code = .tiltVacant ∨ key.code = .steerVacant

end Sys2Proof.Machine
end

