-- ==== Sys2Proof/Proofs/SectionPeers.lean ====
section
/-! The record of a peer at the end of the report section, clause by clause (R81 to R97). -/

namespace Sys2Proof.Machine

section

variable {s : Station} {k : StationNo}

/-- The report (R81, R85). -/
theorem Station.record_report (other : k ≠ s.number) :
    let r := s.peers.get k
    let z := s.peersSection.peers.get k
    let received : Report → Prop := fun f => s.bus.round.slots.get k = some (.received f)
    let refused : Prop := s.params.shared.rejoinMax < r.exclusions
    (∀ f, received f → ¬refused → z.lastReport = some f ∧ z.lastHeard = some s.bus.roundNumber)
      ∧ (∀ f, received f → refused → z.lastReport = r.lastReport ∧ z.lastHeard = r.lastHeard)
      ∧ ((∀ f, ¬received f) → s.judgedBefore k → z.missed = 15 → z.lastReport = none ∧ z.lastHeard = none)
      ∧ ((∀ f, ¬received f) → ¬s.judgedBefore k ∨ z.missed ≠ 15 → z.lastReport = r.lastReport ∧ z.lastHeard = r.lastHeard) := by
  intro r z received refused
  have counts := Station.section_counts other
  have judged : isJudged r.state = true ↔ s.judgedBefore k := isJudged_iff _
  have unjudged : isJudged r.state = false ↔ ¬s.judgedBefore k := by rw [← judged, Bool.not_eq_true]
  rw [show z.lastReport = _ from counts.lastReport, show z.lastHeard = _ from counts.lastHeard,
    show z.missed = _ from counts.missed, Station.counted_get other]
  refine ⟨fun f heard accepted => ?_, fun f heard is => ?_, fun unheard is full => ?_, fun unheard is => ?_⟩
  · rw [(s.heard_iff k f).mpr heard]
    obtain ⟨-, -, taken, -⟩ := r.counted_heard f (decide refused) (s.membersBit k) s.bus.roundNumber
    exact taken (decide_eq_false accepted)
  · rw [(s.heard_iff k f).mpr heard]
    obtain ⟨-, -, -, left⟩ := r.counted_heard f (decide refused) (s.membersBit k) s.bus.roundNumber
    exact left (decide_eq_true is)
  · rw [(s.heard_none_iff k).mpr unheard] at full ⊢
    obtain ⟨-, -, -, lost, -⟩ := r.counted_unheard (decide refused) (s.membersBit k) s.bus.roundNumber
    exact lost (judged.mpr is) full
  · rw [(s.heard_none_iff k).mpr unheard] at is ⊢
    obtain ⟨-, -, -, -, kept⟩ := r.counted_unheard (decide refused) (s.membersBit k) s.bus.roundNumber
    exact kept (is.imp unjudged.mpr id)

/-- The missed count (R86). -/
theorem Station.record_missed (other : k ≠ s.number) :
    let r := s.peers.get k
    let z := s.peersSection.peers.get k
    let unheard : Prop := ∀ f, ¬s.bus.round.slots.get k = some (.received f)
    let bit : Prop := inSet s.bus.held.members k = true
    (s.judgedBefore k → ¬unheard → z.missed = 0)
      ∧ (s.judgedBefore k → unheard → bit → z.missed = min 15 (r.missed + 1))
      ∧ (¬s.judgedBefore k ∨ (unheard ∧ ¬bit) → z.missed = r.missed) := by
  intro r z unheard bit
  have judged : isJudged r.state = true ↔ s.judgedBefore k := isJudged_iff _
  have unjudged : isJudged r.state = false ↔ ¬s.judgedBefore k := by rw [← judged, Bool.not_eq_true]
  rw [show z.missed = _ from (Station.section_counts other).missed, Station.counted_get other]
  by_cases silent : unheard
  · rw [(s.heard_none_iff k).mpr silent]
    obtain ⟨up, stays, kept, -⟩ := r.counted_unheard (decide (s.params.shared.rejoinMax < (s.peers.get k).exclusions))
      (s.membersBit k) s.bus.roundNumber
    refine ⟨fun _ heard => absurd silent heard, fun is _ => up (judged.mpr is), fun not => ?_⟩
    cases state : isJudged r.state with
    | false => exact kept state
    | true =>
      obtain ⟨-, notBit⟩ := not.resolve_left (not_not_intro (judged.mp state))
      exact stays state (Bool.eq_false_iff.mpr notBit)
  · obtain ⟨f, heard⟩ : ∃ f, s.heard k = some f := Option.isSome_iff_exists.mp ((s.wasReceived_iff k).mpr silent)
    rw [heard]
    obtain ⟨zero, kept, -⟩ := r.counted_heard f (decide (s.params.shared.rejoinMax < (s.peers.get k).exclusions))
      (s.membersBit k) s.bus.roundNumber
    exact ⟨fun is _ => zero (judged.mpr is), fun _ is => absurd is silent,
      fun not => kept (unjudged.mpr (not.resolve_right fun both => silent both.1))⟩

theorem staleAfter_cases {r : PeerRecord} {seq : Bool} :
    (r.expectedSeq = none → staleAfter r seq = r.stale)
      ∧ ∀ e, r.expectedSeq = some e →
        ((r.state = .present ∨ r.state = .suspect) → seq = e → staleAfter r seq = 0)
          ∧ ((r.state = .present ∨ r.state = .suspect) → seq ≠ e → staleAfter r seq = min 15 (r.stale + 1))
          ∧ (¬(r.state = .present ∨ r.state = .suspect) → staleAfter r seq = 0) := by
  unfold staleAfter
  refine ⟨fun none => by rw [none], fun e is => ?_⟩
  rw [is, ← isJudged_iff]
  dsimp only
  refine ⟨fun judged same => ?_, fun judged differ => ?_, fun not => if_neg not⟩
  · rw [if_pos judged, if_pos same.symm]
  · rw [if_pos judged, if_neg (Ne.symm differ)]
    rfl

/-- The seq and the stale count (R83, R87). -/
theorem Station.record_seq (other : k ≠ s.number) :
    let r := s.peers.get k
    let z := s.peersSection.peers.get k
    let received : Report → Prop := fun f => s.bus.round.slots.get k = some (.received f)
    let unheard : Prop := ∀ f, ¬received f
    let bit : Prop := inSet s.bus.held.members k = true
    (r.state = .excluded → z.expectedSeq = r.expectedSeq ∧ z.stale = r.stale)
      ∧ (r.state ≠ .excluded →
        (∀ f, received f → z.expectedSeq = some (!f.seq))
        ∧ (unheard → bit → z.expectedSeq = r.expectedSeq.map not)
        ∧ (unheard → ¬bit → z.expectedSeq = r.expectedSeq)
        ∧ (unheard → z.stale = r.stale)
        ∧ (∀ f, received f → r.expectedSeq = none → z.stale = r.stale)
        ∧ (∀ f e, received f → r.expectedSeq = some e →
            (s.judgedBefore k → f.seq = e → z.stale = 0)
              ∧ (s.judgedBefore k → f.seq ≠ e → z.stale = min 15 (r.stale + 1))
              ∧ (¬s.judgedBefore k → z.stale = 0))) := by
  intro r z received unheard bit
  have counts := Station.section_counts other
  obtain ⟨excluded, counted⟩ := r.counted_seq (s.heard k) (decide (s.params.shared.rejoinMax < (s.peers.get k).exclusions))
    (s.membersBit k) s.bus.roundNumber
  rw [← Station.counted_get other, ← counts.expectedSeq, ← counts.stale] at excluded counted
  refine ⟨excluded, fun open_ => ?_⟩
  obtain ⟨expected, turns, stays, stale⟩ := counted open_
  have none_iff := s.heard_none_iff k
  refine ⟨fun f heard => expected f ((s.heard_iff k f).mpr heard),
    fun silent is => (turns (none_iff.mpr silent)).trans (if_pos is),
    fun silent not => (turns (none_iff.mpr silent)).trans (if_neg not), fun silent => stays (none_iff.mpr silent),
    fun f heard none => (stale f ((s.heard_iff k f).mpr heard)).trans (staleAfter_cases.1 none), fun f e heard is => ?_⟩
  rw [show z.stale = _ from stale f ((s.heard_iff k f).mpr heard)]
  exact staleAfter_cases.2 e is

/-- One counter of the cross-checks (R91 to R95), by whether its values disagree. -/
theorem counter_cases {before after : Nat} {base value : Option Int} {disagrees : Int → Int → Bool} {compared : Prop}
    {differs : Int → Int → Prop} (iff : ∀ a b, disagrees a b = true ↔ differs a b)
    (counts : compared → after = countCheck disagrees base value before) (stays : ¬compared → after = before) :
    ((base = none ∨ value = none ∨ ¬compared) → after = before)
      ∧ ∀ a b, base = some a → value = some b → compared →
        (differs a b → after = min 15 (before + 1)) ∧ (¬differs a b → after = 0) := by
  obtain ⟨missing, both⟩ := countCheck_cases disagrees base value before
  refine ⟨fun not => ?_, fun a b is is' yes => ?_⟩
  · by_cases yes : compared
    · rw [counts yes]
      exact missing (not.imp id fun h => h.resolve_right (not_not_intro yes))
    · exact stays yes
  · obtain ⟨up, zero⟩ := both a b is is'
    rw [counts yes]
    exact ⟨fun h => up ((iff a b).mpr h), fun h => zero (Bool.eq_false_iff.mpr (mt (iff a b).mp h))⟩

/-- The three counters, by the bases of a station that compares the same (R92 to R95). -/
theorem Station.record_checks (other : k ≠ s.number) {y : Station} (bases : s.peersSection.SameBases y) :
    let r := s.peers.get k
    let z := s.peersSection.peers.get k
    let sh := s.params.shared
    let counts : Nat → Nat → Option Int → Option Int → (Int → Int → Prop) → Prop :=
      fun before after base value disagrees =>
        ((base = none ∨ value = none ∨ ¬(s.judgedBefore k ∨ s.appears k)) → after = before)
          ∧ ∀ a b, base = some a → value = some b → s.judgedBefore k ∨ s.appears k →
            (disagrees a b → after = min 15 (before + 1)) ∧ (¬disagrees a b → after = 0)
    counts r.leanDisagree z.leanDisagree y.leanBase (y.leanOf k) (fun a b => sh.leanBand < (a - b).natAbs)
      ∧ counts r.speedDisagree z.speedDisagree y.speedBase (y.speedOf k)
          (fun a b => sh.speedBand + (max a b).toNat / 8 < (a - b).natAbs)
      ∧ counts r.steerDisagree z.steerDisagree y.steerBase (y.steerOf k) (fun a b => sh.steerBand < (a - b).natAbs) := by
  intro r z sh counts
  obtain ⟨counted, kept⟩ := Station.section_checks other
  obtain ⟨lean, speed, steer⟩ := bases.counts k
  have params : y.params = s.params := bases.params.trans s.sight_peersSection.params
  rw [← lean, ← speed, ← steer] at counted
  unfold Station.leanCount Station.speedCount Station.steerCount at counted
  rw [params] at counted
  exact ⟨counter_cases (fun a b => decide_eq_true_iff) (fun is => (counted is).1) fun not => (kept not).1,
    counter_cases (fun a b => decide_eq_true_iff) (fun is => (counted is).2.1) fun not => (kept not).2.1,
    counter_cases (fun a b => decide_eq_true_iff) (fun is => (counted is).2.2) fun not => (kept not).2.2⟩

/-- What no step of the section touches. -/
theorem Station.record_keeps (other : k ≠ s.number) :
    let r := s.peers.get k
    let z := s.peersSection.peers.get k
    z.rosterRole = r.rosterRole ∧ z.absentRounds = r.absentRounds ∧ z.exclusions = r.exclusions := by
  intro r z
  have counts := Station.section_counts other
  obtain ⟨-, roster, absent, exclusions, -⟩ := r.counted_keeps (s.heard k)
    (decide (s.params.shared.rejoinMax < (s.peers.get k).exclusions)) (s.membersBit k) s.bus.roundNumber
  rw [← Station.counted_get other] at roster absent exclusions
  exact ⟨counts.rosterRole.trans roster, counts.absentRounds.trans absent, counts.exclusions.trans exclusions⟩

end

end Sys2Proof.Machine
end

