-- ==== Sys2Proof/Proofs/SectionClose.lean ====
section
/-! The end of the report section after the peer table: the verdict, the match count, the evidence, the signature and the record
(R53 to R58, R68, R69, R79, R112). -/

namespace Sys2Proof.Machine

/-! ## The stages -/

/-- The station before the close: the peer table, the verdict, the match count and the evidence done. -/
def Station.weighed (s : Station) : Station := s.peersSection.judgeDigest.judgeMatch.keepEvidence

theorem Station.handOn_eq (s : Station) : s.handOn = s.weighed.closeSection.groupConds := rfl

/-- The verdict leaves all but itself and the condition of source 8 (R68). -/
theorem Station.judgeDigest_eq (s : Station) :
    s.judgeDigest =
      { s with
        member := if s.member.state = .join then { s.member with verdict := s.takeVerdict } else s.member
        cond := if s.member.state = .join then
            setCond s.cond (decide (s.takeVerdict = .failed)) { code := .configDiffers, source := 8 } 1 else s.cond } := by
  unfold Station.judgeDigest
  split <;> rfl

theorem Station.judgeMatch_eq (s : Station) :
    s.judgeMatch =
      { s with
        member := if s.member.state = .join ∨ s.member.state = .quiet then s.member.takeMatch s.matchResult else s.member } := by
  unfold Station.judgeMatch
  by_cases compares : s.member.state = .join ∨ s.member.state = .quiet
  · rw [if_pos (by simpa using compares), if_pos compares]
  · rw [if_neg (by simpa using compares), if_neg compares]

theorem Station.keepEvidence_eq (s : Station) :
    s.keepEvidence =
      { s with
        meas := if s.member.state = .join then { s.meas with cal := { s.meas.cal with heard := some s.heardSpeeds } }
          else s.meas } := by
  unfold Station.keepEvidence
  split <;> rfl

theorem MembershipUnit.takeMatch_verdict (m : MembershipUnit) (r : MatchResult) : (m.takeMatch r).verdict = m.verdict := by
  cases r <;> rfl

/-- What the stages before the close leave. -/
theorem Station.weighed_frame (s : Station) :
    s.weighed.pins = s.pins ∧ s.weighed.loader = s.loader ∧ s.weighed.params = s.params ∧ s.weighed.bus = s.bus
      ∧ s.weighed.peers = s.peersSection.peers ∧ s.weighed.engine = s.engine ∧ s.weighed.auth = s.auth
      ∧ s.weighed.drive = s.drive ∧ s.weighed.cond = s.peersSection.judgeDigest.cond := by
  simp [Station.weighed]

/-! ## The member's part (R68, R69, R79) -/

theorem Station.SameSight.memberReports {s t : Station} (h : s.SameSight t) : t.memberReports = s.memberReports := by
  unfold Station.memberReports
  simp only [h.inMemberSet, h.heard]

theorem Station.SameSight.takeVerdict {s t : Station} (h : s.SameSight t) : t.takeVerdict = s.takeVerdict := by
  unfold Station.takeVerdict
  rw [h.memberReports, h.loader, h.bus]

/-- The comparison reads the run state, the refused view and the members' reports. -/
theorem Station.matchResult_congr {s t : Station} (engine : t.engine = s.engine)
    (refused : t.member.viewRefused = s.member.viewRefused) (bus : t.bus = s.bus) : t.matchResult = s.matchResult := by
  have reports : t.memberReports = s.memberReports := by
    unfold Station.memberReports Station.inMemberSet Station.heard
    rw [bus]
  unfold Station.matchResult
  rw [engine, refused, reports]

/-- The member after the section: the verdict in JOIN, and the match count in JOIN and QUIET. -/
theorem Station.weighed_member (s : Station) :
    s.weighed.member =
      let judged : MembershipUnit := if s.member.state = .join then { s.member with verdict := s.takeVerdict } else s.member
      if s.member.state = .join ∨ s.member.state = .quiet then judged.takeMatch s.matchResult else judged := by
  have sight := s.sight_peersSection
  have digest : s.peersSection.judgeDigest.member =
      if s.member.state = .join then { s.member with verdict := s.takeVerdict } else s.member := by
    rw [Station.judgeDigest_eq, sight.takeVerdict, sight.member]
  have state : s.peersSection.judgeDigest.member.state = s.member.state := by
    rw [digest]
    split <;> rfl
  have result : s.peersSection.judgeDigest.matchResult = s.matchResult :=
    Station.matchResult_congr (by simp) (by rw [digest]; split <;> rfl) (by simp)
  have kept : s.weighed.member = s.peersSection.judgeDigest.judgeMatch.member := by simp [Station.weighed]
  rw [kept, Station.judgeMatch_eq]
  dsimp only
  rw [state, result, digest]

theorem Station.weighed_state (s : Station) : s.weighed.member.state = s.member.state := by
  rw [Station.weighed_member]
  dsimp only
  split <;> split <;> simp [MembershipUnit.takeMatch_state]

/-- The evidence of a section in JOIN (R112). -/
theorem Station.weighed_meas (s : Station) :
    s.weighed.meas =
      if s.member.state = .join then { s.meas with cal := { s.meas.cal with heard := some s.heardSpeeds } } else s.meas := by
  have sight := s.sight_peersSection
  have state : s.peersSection.judgeDigest.judgeMatch.member.state = s.member.state := by
    rw [← s.weighed_state]
    simp [Station.weighed]
  have speeds : s.peersSection.judgeDigest.judgeMatch.heardSpeeds = s.heardSpeeds := by
    unfold Station.heardSpeeds Station.membersBit Station.heard Station.number
    simp
  unfold Station.weighed
  rw [Station.keepEvidence_eq, state, speeds]
  simp

/-- What the cross-checks compare stands from the peer table to the end. -/
theorem Station.weighed_bases (s : Station) : s.peersSection.SameBases s.weighed := by
  obtain ⟨-, loader, params, bus, peers, -⟩ := s.weighed_frame
  have sight := s.sight_peersSection
  have meas : s.weighed.meas.stale = s.meas.stale ∧ s.weighed.meas.snapshot = s.meas.snapshot
      ∧ s.weighed.meas.monitors = s.meas.monitors := by
    rw [Station.weighed_meas]
    split <;> exact ⟨rfl, rfl, rfl⟩
  obtain ⟨stale, snapshot, monitors⟩ := meas
  exact ⟨by rw [sight.number, Station.number, loader, Station.number], by rw [params, sight.params],
    by rw [bus, sight.bus], by rw [stale, sight.meas], by rw [snapshot, sight.meas], by rw [monitors, sight.meas],
    fun _ => by rw [peers], fun _ => by rw [peers]⟩

/-! ## The conditions after the peer table -/

theorem Station.follows_judgeDigest (s : Station) : s.Follows isClosingKey s.judgeDigest := by
  rw [Station.judgeDigest_eq]
  unfold Station.Follows
  dsimp only
  split
  · exact .set _ _ _ (.inl rfl)
  · exact .refl

theorem Station.follows_weighed (s : Station) : s.peersSection.Follows isClosingKey s.weighed := by
  obtain ⟨-, -, -, -, -, -, -, -, cond⟩ := s.weighed_frame
  rw [Station.Follows, cond]
  exact s.peersSection.follows_judgeDigest

theorem Station.handOn_follows (s : Station) :
    s.weighed.Follows (fun key => key.code = .tiltSole ∨ key.code = .tiltVacant ∨ key.code = .steerVacant) s.handOn := by
  have closed := s.weighed.closeSection.follows_groupConds
    (touched := fun key => key.code = .tiltSole ∨ key.code = .tiltVacant ∨ key.code = .steerVacant)
    (.inl rfl) (.inr (.inl rfl)) (.inr (.inr rfl))
  have cond : s.weighed.closeSection.cond = s.weighed.cond := by simp
  rw [Station.Follows, cond] at closed
  rw [Station.handOn_eq]
  exact closed

/-- CONFIG_DIFFERS of source 8 follows the verdict in JOIN (R68). -/
theorem Station.weighed_configDiffers {s : Station} (join : s.member.state = .join) (sound : s.cond.tableSound) :
    isHeld s.handOn.cond { code := .configDiffers, source := 8 } = decide (s.weighed.member.verdict = .failed) := by
  have sight := s.sight_peersSection
  have before := s.follows_peersSection.sound sound
  obtain ⟨-, -, -, -, -, -, -, -, cond⟩ := s.weighed_frame
  have verdict : s.weighed.member.verdict = s.takeVerdict := by
    rw [Station.weighed_member, if_pos join]
    dsimp only
    rw [if_pos (.inl join), MembershipUnit.takeMatch_verdict]
  have held : isHeld s.weighed.cond { code := .configDiffers, source := 8 } = decide (s.takeVerdict = .failed) := by
    rw [cond, Station.judgeDigest_eq, sight.member, sight.takeVerdict]
    dsimp only
    rw [if_pos join]
    exact (isHeld_setCond (k := { code := .configDiffers, source := 8 }) (key := { code := .configDiffers, source := 8 })
      before.keysOnce _ _ rfl).trans (if_pos rfl)
  rw [verdict, ← held]
  exact s.handOn_follows.held (s.follows_weighed.sound before) _ rfl (by decide)

end Sys2Proof.Machine
end

