-- ==== Sys2Proof/Proofs/SectionDecision.lean ====
section
/-! The decision record and the signature at the end of the report section (R36, R56 to R58, R98). -/

namespace Sys2Proof.Machine

/-! ## The vote and the excluded set (R56, R98) -/

theorem Station.exclusions_congr {s t : Station} (number : t.number = s.number) (params : t.params = s.params)
    (held : t.bus.held = s.bus.held) (slots : t.bus.round.slots = s.bus.round.slots) (peers : t.peers = s.peers) :
    t.exclusions = s.exclusions := by
  have heard : t.heard = s.heard := by
    unfold Station.heard
    rw [slots]
  have eligible : t.eligible = s.eligible := by
    unfold Station.eligible Station.wasReceived Station.inMemberSet
    rw [number, heard, held, peers]
  unfold Station.exclusions Station.votedOut Station.votesFor
  rw [eligible, heard, peers, params]

theorem StationSet.ext_inSet {S T : StationSet} (same : ∀ k : StationNo, inSet S k = inSet T k) : S = T :=
  BitVec.eq_of_getLsbD_eq fun i small => same ⟨i, small⟩

/-- The peer table excludes no record, and lets none back (R56, R83). -/
theorem Station.section_excluded (s : Station) (k : StationNo) :
    (s.peersSection.peers.get k).state = .excluded ↔ (s.peers.get k).state = .excluded := by
  by_cases own : k = s.number
  · subst own
    have state : (s.peersSection.peers.get s.number).state = (s.peers.get s.number).state := by
      rw [Station.peersSection_own]
      unfold PeerRecord.withReport
      (repeat' split) <;> rfl
    rw [state]
  · obtain ⟨unjudged, present, suspect⟩ := Station.section_state own
    by_cases hidden : ¬s.judgedBefore k ∧ ¬s.appears k
    · rw [(unjudged hidden.1 hidden.2).1]
    · have other : (s.peers.get k).state ≠ .excluded := fun is => hidden ⟨fun judged => by
        rcases judged with h | h <;> simp [is] at h, fun appears => by
        obtain ⟨absent, -⟩ := appears
        simp [is] at absent⟩
      have active : (s.peersSection.peers.get k).state = .present ∨ (s.peersSection.peers.get k).state = .suspect := by
        by_cases is : (s.peers.get k).state = .suspect
        · cases cause : s.recordsChecked.suspectCause k with
          | true => exact .inr ((suspect is).1 (.inr cause)).1
          | false =>
            cases received : s.wasReceived k with
            | false => exact .inr ((suspect is).1 (.inl received)).1
            | true =>
              rcases Nat.lt_or_ge (s.peers.get k).recover 31 with short | full
              · exact .inr ((suspect is).2.2 received cause short).1
              · exact .inl ((suspect is).2.1 received cause full).1
        · have is' : (s.peers.get k).state = .present ∨ s.appears k := by
            by_contra neither
            rw [not_or] at neither
            exact hidden ⟨fun judged => judged.elim neither.1 is, neither.2⟩
          cases cause : s.recordsChecked.suspectCause k with
          | true => exact .inr ((present is').1 cause).1
          | false => exact .inl ((present is').2 cause).1
      exact ⟨fun is => by rcases active with h | h <;> simp [is] at h, fun is => absurd is other⟩

theorem Station.weighed_excludedSet {s : Station} {excluded : StationSet}
    (is : ∀ k : StationNo, inSet excluded k = decide ((s.peers.get k).state = .excluded)) : s.weighed.excludedSet = excluded := by
  obtain ⟨-, -, -, -, peers, -⟩ := s.weighed_frame
  refine StationSet.ext_inSet fun k => ?_
  unfold Station.excludedSet
  rw [inSet_setOf, is, peers]
  exact decide_eq_decide.mpr (s.section_excluded k)

/-! ## The adoption entry (R58, R79) -/

theorem find?_least {p : StationNo → Bool} {k : StationNo} (is : p k = true) (least : ∀ j, j < k → p j = false) :
    allStations.find? p = some k := by
  have rises : allStations.Pairwise (· < ·) := List.pairwise_lt_finRange 8
  obtain ⟨before, after, split⟩ := List.append_of_mem (show k ∈ allStations from List.mem_finRange k)
  refine List.find?_eq_some_iff_append.mpr ⟨is, before, after, split, fun j member => ?_⟩
  rw [split] at rises
  have below : j < k := (List.pairwise_append.mp rises).2.2 j member k List.mem_cons_self
  rw [least j below]
  rfl

theorem viewsSettled_iff (f : Report) :
    viewsSettled f = true ↔
      f.tiltView.stage = 0 ∧ f.steerView.stage = 0 ∧ setSize f.tiltView.holders ≤ 2 ∧ setSize f.steerView.holders ≤ 1 := by
  unfold viewsSettled viewProper
  simp only [Bool.and_eq_true, decide_eq_true_iff]
  omega

theorem Station.seeksAdoption_iff (s : Station) :
    s.seeksAdoption = true ↔
      (s.member.state = .join ∨ s.member.state = .quiet) ∧ s.engine.run.adopted = false := by
  simp [Station.seeksAdoption]

/-- The adoption entry comes from the lowest-numbered received member, when its views are settled. -/
theorem Station.adoptionEntry_from {s : Station} {k : StationNo} {f : Report} (seeks : s.seeksAdoption = true)
    (candidate : (s.inMemberSet k && s.wasReceived k) = true)
    (least : ∀ j, j < k → (s.inMemberSet j && s.wasReceived j) = false) (heard : s.heard k = some f) :
    (viewsSettled f = true → s.adoptionEntry =
        some { source := k, traj := f.traj, tiltHolders := f.tiltView.holders, tiltEpoch := f.tiltView.epoch,
               steerHolders := f.steerView.holders, steerEpoch := f.steerView.epoch, roundClass := s.bus.held.roundClass,
               mode := s.bus.held.mode, limit := s.bus.held.limit, advance := s.bus.held.advance, demand := s.engine.demand })
      ∧ (¬viewsSettled f = true → s.adoptionEntry = none) := by
  have source : s.adoptionSource = some k := find?_least candidate least
  unfold Station.adoptionEntry
  rw [if_pos seeks, source]
  dsimp only
  rw [heard]
  exact ⟨fun settled => if_pos settled, fun not => if_neg not⟩

theorem Station.adoptionEntry_none {s : Station}
    (none : ¬s.seeksAdoption = true ∨ ∀ k, (s.inMemberSet k && s.wasReceived k) = false) : s.adoptionEntry = Option.none := by
  unfold Station.adoptionEntry
  rcases none with idle | silent
  · exact if_neg idle
  · have source : s.adoptionSource = Option.none :=
      List.find?_eq_none.mpr fun k _ => by rw [silent k]; decide
    rw [source]
    exact ite_self _

/-! ## The close (R36, R56, R57) -/

theorem responseOfCode_eq (code : Nat) :
    responseOfCode code =
      if code = 1 then .ready else if code = 2 then .give else if code = 3 then .keep else if code = 4 then .release
      else .none := by
  rcases code with _ | _ | _ | _ | _ | code <;> rfl

theorem Station.recordResponses_get (s : Station) (k : StationNo) :
    s.recordResponses.get k = (s.heard k).map fun f => (responseOfCode f.tiltResponse, responseOfCode f.steerResponse) :=
  Eight.get_ofFn _ _

/-- The bus after the section has handed on. -/
theorem Station.handOn_bus (s : Station) :
    s.handOn.bus =
      { s.bus with
        signature := absorb s.bus.signature s.weighed.digestBits
        ownSig := some (absorb s.bus.signature s.weighed.digestBits)
        pendingRecord := some s.weighed.buildRecord
        lastSection := some s.bus.roundNumber } := by
  obtain ⟨-, -, -, bus, -⟩ := s.weighed_frame
  have closed : s.handOn.bus = s.weighed.closeSection.bus := by
    rw [Station.handOn_eq]
    exact (Station.groupConds_frame _).2.2.2.1
  rw [closed]
  unfold Station.closeSection
  dsimp only
  rw [bus]

theorem Station.weighed_digestBits (s : Station) :
    s.weighed.digestBits =
      bitsOf 8 s.auth.tilt.epoch.toNat ++ bitsOf 8 s.auth.steer.epoch.toNat ++ bitsOf 8 s.weighed.excludedSet.toNat
        ++ bitsOf 3 (if s.engine.run.engine = .idle then 7 else modeCode7 s.engine.run.mode)
        ++ bitsOf 5 (if s.engine.run.engine = .idle then 0 else s.engine.run.step) := by
  obtain ⟨-, -, -, -, -, engine, auth, -⟩ := s.weighed_frame
  unfold Station.digestBits
  rw [engine, auth]
  simp only [decide_eq_true_eq]

/-- What handing on leaves beside the bus, the peer table, the member, the evidence and the conditions. -/
theorem Station.handOn_parts (s : Station) :
    s.handOn.member = s.weighed.member ∧ s.handOn.peers = s.peersSection.peers ∧ s.handOn.meas = s.weighed.meas := by
  obtain ⟨-, -, -, -, peers, -⟩ := s.weighed_frame
  rw [← peers, Station.handOn_eq]
  simp

end Sys2Proof.Machine
end

