-- ==== Sys2Proof/Proofs/SectionSettled.lean ====
section
/-! What a round hands on at position 2147: the record, the peer table, the verdict and the match count (R53). -/

namespace Sys2Proof.Machine

/-- What the bit times up to the end of the report section leave. -/
structure Station.AtSection (x t : Station) : Prop where
  reached : t = x.reach 2147
  bus : t.bus = x.bus.later 2147
  member : t.member = { x.member with state := t.member.state, disableSeen := t.member.disableSeen }

theorem Station.atSection {x : Station} (coming : x.bus.position ≤ 2147) : x.AtSection (x.reach 2147) := by
  refine ⟨rfl, Station.reach_bus_inside coming (by decide), ?_⟩
  rw [Station.reach_inside (coming.trans (by decide)) (by decide)]
  exact x.sampleUntil_member 2147

namespace Station.AtSection

variable {x t : Station}

theorem parts (h : x.AtSection t) :
    t.pins = x.pins ∧ t.loader = x.loader ∧ t.params = x.params ∧ t.peers = x.peers ∧ t.meas = x.meas ∧ t.engine = x.engine
      ∧ t.auth = x.auth ∧ t.number = x.number := by
  rw [h.reached]
  exact ⟨x.reach_pins _, x.reach_loader _, x.reach_params _, x.reach_peers _, x.reach_meas _, x.reach_engine _, x.reach_auth _,
    x.reach_number _⟩

theorem round (h : x.AtSection t) : t.bus.round = x.bus.round ∧ t.bus.held = x.bus.held ∧ t.bus.roundNumber = x.bus.roundNumber
    ∧ t.bus.signature = x.bus.signature ∧ t.bus.nextSeq = x.bus.nextSeq ∧ t.bus.pendingRecord = x.bus.pendingRecord := by
  rw [h.bus]
  exact ⟨rfl, rfl, rfl, rfl, rfl, rfl⟩

theorem join (h : x.AtSection t) : t.member.state = .join ↔ x.member.state = .join := by
  rw [h.reached, x.reach_state]
  exact Station.sampleUntil_state_eq (by decide) (by decide) x 2147

theorem quiet (h : x.AtSection t) : t.member.state = .quiet ↔ x.member.state = .quiet := by
  rw [h.reached, x.reach_state]
  exact Station.sampleUntil_state_eq (by decide) (by decide) x 2147

theorem sound (h : x.AtSection t) (sound : x.cond.tableSound) : t.cond.tableSound := by
  rw [h.reached]
  exact (x.follows_reach 2147 (touched := fun _ => True) trivial trivial).sound sound

/-- The members' reports, as the statement has them. -/
theorem memberReports (h : x.AtSection t) :
    t.memberReports =
      allStations.filterMap fun k =>
        if inSet (memberSet x.bus.held) k then
          match x.bus.round.slots.get k with
          | some (.received f) => some f
          | some .silent | some .garbled | none => none
        else none := by
  obtain ⟨round, held, -⟩ := h.round
  unfold Station.memberReports Station.inMemberSet Station.heard
  rw [round, held] <;> rfl

theorem heardSpeeds (h : x.AtSection t) :
    t.heardSpeeds =
      allStations.filterMap fun k =>
        if k ≠ x.number ∧ inSet x.bus.held.members k = true then
          match x.bus.round.slots.get k with
          | some (.received f) => readSpeed f
          | some .silent | some .garbled | none => none
        else none := by
  obtain ⟨round, held, -⟩ := h.round
  obtain ⟨-, -, -, -, -, -, -, number⟩ := h.parts
  unfold Station.heardSpeeds Station.membersBit Station.heard
  rw [round, held, number]
  refine congrArg (List.filterMap · allStations) (funext fun k => ?_)
  simp only [Bool.and_eq_true, decide_eq_true_iff]
  congr 1
  cases x.bus.round.slots.get k with
  | none => rfl
  | some c => cases c <;> rfl

end Station.AtSection

/-! ## The handover of the section -/

/-- The round hands its results on when every slot is classed (R53). -/
theorem RoundState.allClassed_iff (r : RoundState) : r.allClassed = true ↔ ∀ k : StationNo, (r.slots.get k).isSome = true := by
  unfold RoundState.allClassed
  rw [List.all_eq_true]
  exact ⟨fun all k => all k (List.mem_finRange k), fun all k _ => all k⟩

theorem Station.endSection_on {s : Station} (on : s.bus.round.handsOn = true) :
    s.endSection =
      { s.handOn with bus := { s.handOn.bus with round := { s.bus.round with sectionDone := true } } } := by
  have round : s.handOn.bus.round = s.bus.round := by rw [Station.handOn_bus]
  unfold Station.endSection
  rw [if_pos on]
  dsimp only
  rw [round]

/-- The parts of the station after it has handed on. -/
theorem Station.endSection_parts {s : Station} (on : s.bus.round.handsOn = true) :
    s.endSection.peers = s.peersSection.peers ∧ s.endSection.meas = s.weighed.meas ∧ s.endSection.member = s.weighed.member
      ∧ s.endSection.cond = s.handOn.cond
      ∧ s.endSection.bus =
        { s.bus with
          signature := absorb s.bus.signature s.weighed.digestBits
          ownSig := some (absorb s.bus.signature s.weighed.digestBits)
          pendingRecord := some s.weighed.buildRecord
          lastSection := some s.bus.roundNumber
          round := { s.bus.round with sectionDone := true } } := by
  obtain ⟨member, peers, meas⟩ := s.handOn_parts
  have bus := s.handOn_bus
  rw [Station.endSection_on on]
  generalize s.handOn = u at *
  exact ⟨peers, meas, member, rfl, by dsimp only; rw [bus]⟩

theorem Station.endSection_off {s : Station} (off : s.bus.round.handsOn = false) :
    s.endSection =
      { s with
        bus := { s.bus with ownSig := none, round := { s.bus.round with sectionDone := true } }
        member :=
          { s.member with
            matchCount := if s.member.state = .join ∨ s.member.state = .quiet then 0 else s.member.matchCount } } := by
  unfold Station.endSection
  rw [if_neg (by rw [off]; decide)]
  unfold Station.handNothing
  simp only [Bool.or_eq_true, decide_eq_true_eq]

/-- What the cross-checks compare at the end is what the peer table leaves. -/
theorem Station.endSection_bases {s : Station} (on : s.bus.round.handsOn = true) : s.peersSection.SameBases s.endSection := by
  obtain ⟨peers, meas, -, -, bus⟩ := Station.endSection_parts on
  obtain ⟨-, loader, params, -⟩ := s.endSection_frame
  have sight := s.sight_peersSection
  have bases := s.weighed_bases
  have number : s.endSection.number = s.number := congrArg (·.straps) loader
  exact ⟨by rw [number, sight.number], by rw [params, sight.params], by rw [bus, sight.bus], by rw [meas, bases.stale],
    by rw [meas, bases.snapshot], by rw [meas, bases.monitors], fun _ => by rw [peers], fun _ => by rw [peers]⟩

/-- The work after the peer table changes no condition of a record. -/
theorem Station.endSection_follows {s : Station} (on : s.bus.round.handsOn = true) :
    s.peersSection.Follows isClosingKey s.endSection := by
  obtain ⟨-, -, -, cond, -⟩ := Station.endSection_parts on
  have last : s.weighed.Follows isClosingKey s.handOn := s.handOn_follows.mono fun _ is => .inr is
  rw [Station.Follows, cond]
  exact ConditionUnit.Follows.trans s.follows_weighed last

/-! ### The decision record -/

theorem Station.AtSection.record {x t : Station} (h : x.AtSection t) (on : t.bus.round.handsOn = true) :
    let y := t.endSection
    let read : Nat → Response := fun code =>
      if code = 1 then .ready else if code = 2 then .give else if code = 3 then .keep else if code = 4 then .release
      else .none
    let seeks : Prop := (x.member.state = .join ∨ x.member.state = .quiet) ∧ x.engine.run.adopted = false
    let received : StationNo → Report → Prop := fun k f => x.bus.round.slots.get k = some (.received f)
    let candidate : StationNo → Prop := fun k => inSet (memberSet x.bus.held) k = true ∧ ∃ f, received k f
    let settled : Report → Prop := fun f =>
      f.tiltView.stage = 0 ∧ f.steerView.stage = 0 ∧ setSize f.tiltView.holders ≤ 2 ∧ setSize f.steerView.holders ≤ 1
    ∃ r, y.bus.pendingRecord = some r ∧ r.tag = x.bus.roundNumber ∧ r.exclusions = y.exclusions
      ∧ (∀ k f, received k f → r.responses.get k = some (read f.tiltResponse, read f.steerResponse))
      ∧ (∀ k, (∀ f, ¬received k f) → r.responses.get k = none)
      ∧ (∀ k f, seeks → candidate k → (∀ j, j < k → ¬candidate j) → received k f →
          (settled f →
            ∃ demand : Int, r.adoption =
              some { source := k, traj := f.traj, tiltHolders := f.tiltView.holders
                     tiltEpoch := f.tiltView.epoch, steerHolders := f.steerView.holders
                     steerEpoch := f.steerView.epoch, roundClass := x.bus.held.roundClass
                     mode := x.bus.held.mode, limit := x.bus.held.limit, advance := x.bus.held.advance
                     demand := demand })
          ∧ (¬settled f → r.adoption = none))
      ∧ (¬seeks ∨ (∀ k, ¬candidate k) → r.adoption = none) := by
  obtain ⟨peers, meas, member, -, bus⟩ := Station.endSection_parts on
  obtain ⟨-, loader, params, -⟩ := t.endSection_frame
  obtain ⟨-, loader', params', bus', peers', engine', -⟩ := t.weighed_frame
  have state := t.weighed_state
  obtain ⟨-, -, -, -, -, engine, -⟩ := h.parts
  obtain ⟨round, held, roundNumber, -⟩ := h.round
  generalize t.endSection = y at *
  generalize t.weighed = w at *
  intro y' read seeks received candidate settled
  have heard : ∀ k f, w.heard k = some f ↔ received k f := fun k f => by
    rw [Station.heard_iff, bus', round]
  have seeks_iff : w.seeksAdoption = true ↔ seeks := by
    rw [Station.seeksAdoption_iff, state, engine', engine, h.join, h.quiet]
  have candidate_iff : ∀ k, (w.inMemberSet k && w.wasReceived k) = true ↔ candidate k := fun k => by
    rw [Bool.and_eq_true, Station.wasReceived, Option.isSome_iff_exists, Station.inMemberSet, bus', held]
    simp only [heard]
    exact Iff.rfl
  refine ⟨w.buildRecord, by rw [bus], ?_, ?_, fun k f is => ?_, fun k none => ?_, fun k f seek is least from_ => ?_,
    fun none => ?_⟩
  · rw [← roundNumber, ← bus']
    rfl
  · change w.exclusions = _
    refine (Station.exclusions_congr (s := w) (t := y) ?_ ?_ ?_ ?_ ?_).symm
    · exact (congrArg (·.straps) loader).trans (congrArg (·.straps) loader').symm
    · exact params.trans params'.symm
    · rw [bus', bus]
    · rw [bus', bus]
    · exact peers.trans peers'.symm
  · change w.recordResponses.get k = _
    rw [Station.recordResponses_get, (heard k f).mpr is, Option.map_some, responseOfCode_eq, responseOfCode_eq]
  · change w.recordResponses.get k = _
    rw [Station.recordResponses_get, Option.eq_none_iff_forall_ne_some.mpr fun f is => none f ((heard k f).mp is),
      Option.map_none]
  · obtain ⟨taken, left⟩ := Station.adoptionEntry_from (seeks_iff.mpr seek) ((candidate_iff k).mpr is)
      (fun j below => Bool.eq_false_iff.mpr (mt (candidate_iff j).mp (least j below))) ((heard k f).mpr from_)
    rw [viewsSettled_iff, bus', held] at taken
    rw [viewsSettled_iff] at left
    exact ⟨fun is => ⟨_, taken is⟩, left⟩
  · exact Station.adoptionEntry_none (none.imp (mt seeks_iff.mp)
      fun silent k => Bool.eq_false_iff.mpr (mt (candidate_iff k).mp (silent k)))

/-- The signature absorbs the decision digest (R56). -/
theorem Station.AtSection.signature {x t : Station} (h : x.AtSection t) (on : t.bus.round.handsOn = true) {excluded : StationSet}
    (is : ∀ k : StationNo, inSet excluded k = decide ((x.peers.get k).state = .excluded)) :
    t.endSection.bus.signature =
      absorb x.bus.signature
        (bitsOf 8 x.auth.tilt.epoch.toNat ++ bitsOf 8 x.auth.steer.epoch.toNat ++ bitsOf 8 excluded.toNat
          ++ bitsOf 3 (if x.engine.run.engine = .idle then 7 else modeCode7 x.engine.run.mode)
          ++ bitsOf 5 (if x.engine.run.engine = .idle then 0 else x.engine.run.step)) := by
  obtain ⟨-, -, -, -, bus⟩ := Station.endSection_parts on
  obtain ⟨-, -, -, peers, -, engine, auth, -⟩ := h.parts
  obtain ⟨-, -, -, signature, -⟩ := h.round
  rw [bus]
  dsimp only
  rw [t.weighed_digestBits, Station.weighed_excludedSet (excluded := excluded) (by rw [peers]; exact is), engine, auth, signature]

end Sys2Proof.Machine
end

