-- ==== Sys2Proof/Proofs/SectionEnds.lean ====
section
/-! The end of the report section as a whole: each peer's record, the verdict and the match count, and the statement (R53, R68,
R69, R79, R85 to R97). -/

namespace Sys2Proof.Machine

theorem reportSectionEnd_due {x : Station} (takes : takesPart x.member.state = true)
    (opened : x.bus.round.recognised = true ∨ x.bus.round.abandoned = true) (waiting : x.bus.round.sectionDone = false)
    (coming : x.bus.position ≤ 2147) : effect .reportSectionEnd x = (x.reach 2147).endSection := by
  have due : x.sectionDue = true := by
    unfold Station.sectionDue
    rw [takes, waiting]
    rcases opened with h | h <;> simp [h]
  change x.reportSectionEnd = _
  unfold Station.reportSectionEnd
  rw [if_pos due]
  exact Station.atMoment_due _ coming

/-- What the end of the section leaves of the bus and the state, whether it hands on or not. -/
theorem Station.endSection_kept (s : Station) :
    s.endSection.bus.position = s.bus.position ∧ s.endSection.bus.round = { s.bus.round with sectionDone := true }
      ∧ s.endSection.bus.held = s.bus.held ∧ s.endSection.bus.nextSeq = s.bus.nextSeq
      ∧ s.endSection.member.state = s.member.state := by
  cases on : s.bus.round.handsOn with
  | true =>
    obtain ⟨-, -, member, -, bus⟩ := Station.endSection_parts on
    rw [bus, member, s.weighed_state]
    exact ⟨rfl, rfl, rfl, rfl, rfl⟩
  | false =>
    rw [Station.endSection_off on]
    exact ⟨rfl, rfl, rfl, rfl, rfl⟩

/-! ## The verdict and the match (R68, R69) -/

theorem Station.takeVerdict_cases (s : Station) :
    let same := s.memberReports.filter fun f => decide (f.digest = s.loader.digest)
    (memberSet s.bus.held = 0 → s.takeVerdict = .noMembers)
      ∧ (memberSet s.bus.held ≠ 0 →
        (s.memberReports.length < 2 * same.length → s.takeVerdict = .met)
          ∧ (2 * same.length ≤ s.memberReports.length → s.takeVerdict = .failed)) := by
  intro same
  unfold Station.takeVerdict
  refine ⟨fun none => if_pos none, fun some => ⟨fun most => ?_, fun few => ?_⟩⟩
  · exact (if_neg some).trans (if_pos most)
  · exact (if_neg some).trans (if_neg (Nat.not_lt.mpr few))

/-- The result of the comparison, by the run state, the difference and the reports (R69). -/
theorem Station.matchResult_cases (s : Station) :
    let differ : Prop := s.member.viewRefused = true ∨ ∃ f ∈ s.memberReports, f.traj ≠ s.engine.run.fields
    (s.engine.run.adopted = false → s.matchResult = .noState)
      ∧ (s.engine.run.adopted = true → differ → s.matchResult = .differ)
      ∧ (s.engine.run.adopted = true → ¬differ → s.memberReports = [] → s.matchResult = .noneHeard)
      ∧ (s.engine.run.adopted = true → ¬differ → s.memberReports ≠ [] → s.matchResult = .equal) := by
  intro differ
  have differ_iff : (s.member.viewRefused || s.memberReports.any fun f => decide (f.traj ≠ s.engine.run.fields)) = true
      ↔ differ := by
    simp [differ]
  have empty : s.memberReports.isEmpty = true ↔ s.memberReports = [] := List.isEmpty_iff
  unfold Station.matchResult
  dsimp only
  refine ⟨fun idle => by rw [idle]; rfl, fun adopted is => ?_, fun adopted not none => ?_, fun adopted not some => ?_⟩ <;>
    rw [adopted, if_neg (by decide)]
  · rw [if_pos (differ_iff.mpr is)]
  · rw [if_neg (mt differ_iff.mp not), if_pos (empty.mpr none)]
  · rw [if_neg (mt differ_iff.mp not), if_neg (mt empty.mp some)]

namespace Station.AtSection

variable {x t : Station}

theorem matchCount (h : x.AtSection t) : t.member.matchCount = x.member.matchCount := by rw [h.member]

/-- A section that hands nothing on restarts the match in JOIN and QUIET (R69). -/
theorem restarted (h : x.AtSection t) :
    (if t.member.state = .join ∨ t.member.state = .quiet then 0 else t.member.matchCount) =
      if x.member.state = .join ∨ x.member.state = .quiet then 0 else x.member.matchCount := by
  simp only [h.join, h.quiet, h.matchCount]

/-- The result of the comparison by the station before. -/
theorem result (h : x.AtSection t) {reports : List Report} (are : t.memberReports = reports) :
    let differ : Prop := x.member.viewRefused = true ∨ ∃ f ∈ reports, f.traj ≠ x.engine.run.fields
    (x.engine.run.adopted = false → t.matchResult = .noState)
      ∧ (x.engine.run.adopted = true → differ → t.matchResult = .differ)
      ∧ (x.engine.run.adopted = true → ¬differ → reports = [] → t.matchResult = .noneHeard)
      ∧ (x.engine.run.adopted = true → ¬differ → reports ≠ [] → t.matchResult = .equal) := by
  obtain ⟨-, -, -, -, -, engine, -⟩ := h.parts
  have refused : t.member.viewRefused = x.member.viewRefused := by rw [h.member]
  have cases := t.matchResult_cases
  rw [refused, engine, are] at cases
  exact cases

/-- The member in JOIN and QUIET is the one of before, its verdict taken in JOIN, after the comparison. -/
theorem compared (h : x.AtSection t) (on : t.bus.round.handsOn = true)
    (compares : x.member.state = .join ∨ x.member.state = .quiet) :
    ∃ m : MembershipUnit, t.endSection.member = m.takeMatch t.matchResult ∧ m.matchCount = x.member.matchCount
      ∧ m.dropPending = x.member.dropPending ∧ m.quietCompares = x.member.quietCompares
      ∧ (m.state = .quiet ↔ x.member.state = .quiet)
      ∧ (x.member.state = .join → m.verdict = t.takeVerdict) ∧ (x.member.state ≠ .join → m.verdict = x.member.verdict) := by
  obtain ⟨-, -, member, -⟩ := Station.endSection_parts on
  rw [t.weighed_member] at member
  dsimp only at member
  rw [if_pos (show t.member.state = .join ∨ t.member.state = .quiet from compares.imp h.join.mpr h.quiet.mpr)] at member
  refine ⟨_, member, ?_⟩
  have quiet := h.quiet
  split
  · next join =>
    have joined := h.join.mp join
    exact ⟨h.matchCount, by rw [h.member], by rw [h.member], quiet, fun _ => rfl, fun not => absurd joined not⟩
  · next not =>
    exact ⟨h.matchCount, by rw [h.member], by rw [h.member], quiet, fun join => absurd (h.join.mpr join) not,
      fun _ => by rw [h.member]⟩

/-- Every other station keeps its member (R69). -/
theorem uncompared (h : x.AtSection t) (on : t.bus.round.handsOn = true) (notJoin : x.member.state ≠ .join)
    (notQuiet : x.member.state ≠ .quiet) : t.endSection.member = t.member := by
  obtain ⟨-, -, member, -⟩ := Station.endSection_parts on
  rw [member, t.weighed_member]
  dsimp only
  rw [if_neg (by rw [h.join, h.quiet]; exact fun either => either.elim notJoin notQuiet), if_neg (mt h.join.mp notJoin)]

end Station.AtSection

end Sys2Proof.Machine
end

