-- ==== Sys2Proof/Proofs/SectionMain.lean ====
section
/-! The statement on the end of the report section (R53). -/

namespace Sys2Proof.Machine

/-- Settles O35: what is handed on part by part, nothing of an unclassed or an abandoned round, the bases and the reference. -/
theorem sectionHandsOn : Obligations.SectionHandsOn := by
  refine ⟨?_, ?_, fun x => ⟨x.basesOf.1, x.basesOf.2.1, x.basesOf.2.2, x.fitValue_eq _ _, x.valuesOf⟩,
    fun l => ⟨reference_few, fun m perm sorted => ⟨fun n length many => reference_odd perm sorted length many,
      fun n a b length many low high => reference_even perm sorted length many low high⟩⟩⟩
  · intro x q takes recognised open_ waiting coming t sh read seeks received member candidate settled told
    have work : effect .reportSectionEnd x = t.endSection := reportSectionEnd_due takes (.inl recognised) waiting coming
    have h : x.AtSection t := Station.atSection coming
    refine ⟨t.endSection, exec_of_effect (c := .reportSectionEnd) work q, ?_⟩
    clear_value t
    obtain ⟨pins, loader, params, engine, auth, drive⟩ := t.endSection_frame
    obtain ⟨pins', loader', params', peers', meas', engine', auth', number⟩ := h.parts
    obtain ⟨round, held, roundNumber, sig, nextSeq, pending⟩ := h.round
    have place : t.bus.position = 2147 := by
      have counts : 2147 ≤ Config.positionMax := by decide
      rw [h.bus]
      change min Config.positionMax (max x.bus.position 2147) = 2147
      omega
    obtain ⟨position, sectionDone, heldEnd, seqEnd, state⟩ := t.endSection_kept
    rw [place] at position
    rw [round] at sectionDone
    rw [held] at heldEnd
    rw [nextSeq] at seqEnd
    refine ⟨position, sectionDone, heldEnd, seqEnd, state, pins.trans pins', loader.trans loader', params.trans params',
      engine.trans engine', auth.trans auth', drive, fun classed => ?_, fun some => ?_⟩
    · have on : t.bus.round.handsOn = true := by
        rw [round]
        simp [RoundState.handsOn, recognised, open_, (RoundState.allClassed_iff _).mpr classed]
      obtain ⟨peers, meas, -, cond, bus⟩ := Station.endSection_parts on
      have bases := Station.endSection_bases on
      have closing := Station.endSection_follows on
      refine ⟨h.record on, ?_, ?_, fun excluded is => h.signature on is, fun k other => ?_, fun unheard => ?_,
        fun f heard => ?_, ?_⟩
      · rw [bus]
      · rw [bus, roundNumber]
      · intro r z refused unheard bit judged appears roleDiffers digestDiffers compares trajDiffers cause counts
        have other' : k ≠ t.number := by rwa [number]
        have quietCompares : t.member.quietCompares = x.member.quietCompares := by rw [h.member]
        have judged_is : t.judgedBefore k = judged := by
          unfold Station.judgedBefore
          rw [peers']
        have appears_is : t.appears k = appears :=
          propext ((t.appears_iff k).trans (by rw [peers', params', held, round]))
        have role_iff : t.roleCause k = true ↔ roleDiffers := (t.roleCause_iff k).trans (by rw [round, peers'])
        have digest_iff : t.digestCause k = true ↔ digestDiffers := (t.digestCause_iff k).trans (by rw [round, loader'])
        have traj_iff : t.trajCause k = true ↔ trajDiffers :=
          (t.trajCause_iff k).trans (by rw [round, held, engine', quietCompares])
        have unheard_iff : t.wasReceived k = false ↔ unheard := (t.wasReceived_eq_false_iff k).trans (by rw [round])
        have heard_iff : t.wasReceived k = true ↔ ¬unheard := (t.wasReceived_iff k).trans (by rw [round])
        have cause_iff : t.recordsChecked.suspectCause k = true ↔ cause := by
          have causes := Station.section_cause other'
          rw [← peers, params', role_iff, digest_iff, traj_iff] at causes
          exact causes
        have report := Station.record_report other'
        have missed := Station.record_missed other'
        have seq := Station.record_seq other'
        have checks := Station.record_checks other' bases
        have states := Station.section_state other'
        have keeps := Station.record_keeps other'
        rw [← peers, peers', params', round, roundNumber, judged_is] at report
        rw [← peers, peers', round, held, judged_is] at missed
        rw [← peers, peers', round, held, judged_is] at seq
        rw [← peers, peers', params', judged_is, appears_is] at checks
        rw [← peers, peers', judged_is, appears_is] at states
        rw [← peers, peers'] at keeps
        obtain ⟨taken, refusedLeft, lost, kept⟩ := report
        obtain ⟨zero, up, stays⟩ := missed
        obtain ⟨excludedSeq, openSeq⟩ := seq
        obtain ⟨lean, speed, steer⟩ := checks
        obtain ⟨still, present, suspect⟩ := states
        obtain ⟨roster, absentRounds, exclusions⟩ := keeps
        have clean : ¬cause → t.recordsChecked.suspectCause k = false := fun not =>
          Bool.eq_false_iff.mpr (mt cause_iff.mp not)
        refine ⟨taken, refusedLeft, lost, kept, zero, up, stays, excludedSeq, openSeq, lean, speed, steer, still,
          fun is yes => ?_, fun is no => (present is).2 (clean no),
          fun is either => (suspect is).1 (either.imp unheard_iff.mpr cause_iff.mpr),
          fun is heard no full => (suspect is).2.1 (heard_iff.mpr heard) (clean no) full,
          fun is heard no short => (suspect is).2.2 (heard_iff.mpr heard) (clean no) short, roster, absentRounds, exclusions,
          fun sound is heard => ?_, fun is differs => ?_⟩
        · obtain ⟨becomes, recover⟩ := (present is).1 (cause_iff.mpr yes)
          refine ⟨becomes, recover, closing.told _ (Station.section_told other' ?_ (cause_iff.mpr yes))⟩
          rw [peers', appears_is]
          exact is
        all_goals
          obtain ⟨held', toldTraj⟩ := Station.section_conds other' (show t.judgedBefore k ∨ t.appears k by
            rw [judged_is, appears_is]
            exact is)
        · have sound' := h.sound sound
          obtain ⟨roleHeld, digestHeld⟩ := held' sound' (heard_iff.mpr heard)
          have before := t.follows_peersSection.sound sound'
          have small : k.val ≠ 8 := Nat.ne_of_lt k.isLt
          rw [← role_iff, ← digest_iff, closing.held before _ rfl (by simp [isClosingKey, small]),
            closing.held before _ rfl (by simp [isClosingKey, small]), roleHeld, digestHeld]
          exact ⟨Iff.rfl, Iff.rfl⟩
        · exact closing.told _ (toldTraj (traj_iff.mpr differs))
      · rw [peers, ← number, t.peersSection_own, ← peers', (t.heard_none_iff t.number).mpr (by rw [round, number]; exact unheard)]
        rfl
      · by_cases refused : x.params.shared.rejoinMax < (x.peers.get x.number).exclusions
        · exact .inl refused
        · refine .inr ?_
          rw [peers, ← number, t.peersSection_own, (t.heard_iff t.number f).mpr (by rw [round, number]; exact heard), params',
            peers', roundNumber, number, decide_eq_false refused]
          rfl
      · intro reports same differ count
        have are : t.memberReports = reports := h.memberReports
        obtain ⟨idle, differs, none, equal⟩ := h.result are
        refine ⟨fun join => ?_, fun other => ?_, fun compares => ?_, fun quiet => ?_, h.uncompared on⟩
        · obtain ⟨m, is, -, -, -, -, verdict, -⟩ := h.compared on (.inl join)
          have taken : t.endSection.member.verdict = t.takeVerdict := by
            rw [is, MembershipUnit.takeMatch_verdict, verdict join]
          have cases := t.takeVerdict_cases
          rw [are, held, loader', ← taken] at cases
          obtain ⟨empty, some⟩ := cases
          refine ⟨empty, some, fun sound => ?_, ?_⟩
          · have follows := Station.weighed_configDiffers (h.join.mpr join) (h.sound sound)
            obtain ⟨-, -, member, -⟩ := Station.endSection_parts on
            rw [cond, member, follows]
          · rw [meas, t.weighed_meas, if_pos (h.join.mpr join), meas', h.heardSpeeds] <;> rfl
        · rw [meas, t.weighed_meas, if_neg (mt h.join.mp other), meas']
          refine ⟨?_, rfl⟩
          by_cases quiet : x.member.state = .quiet
          · obtain ⟨m, is, -, -, -, -, -, verdict⟩ := h.compared on (.inr quiet)
            rw [is, MembershipUnit.takeMatch_verdict, verdict other]
          · rw [h.uncompared on other quiet, h.member]
        · obtain ⟨m, is, matchCount, drop, -⟩ := h.compared on compares
          change t.endSection.member.viewRefused = false ∧ (_ → t.endSection.member.matchCount = 0 ∧ _)
            ∧ (_ → _ → t.endSection.member.matchCount = 0 ∧ _) ∧ (_ → _ → _ → t.endSection.member.matchCount = 0 ∧ _)
            ∧ (_ → _ → _ → t.endSection.member.matchCount = min 4 (x.member.matchCount + 1) ∧ _)
          rw [is]
          refine ⟨?_, fun h => ?_, fun h h' => ?_, fun h h' h'' => ?_, fun h h' h'' => ?_⟩
          · cases t.matchResult <;> rfl
          · rw [idle h]
            exact ⟨rfl, drop⟩
          · rw [differs h h']
            exact ⟨rfl, rfl⟩
          · rw [none h h' h'']
            exact ⟨rfl, drop⟩
          · rw [equal h h' h'']
            exact ⟨by rw [← matchCount]; rfl, drop⟩
        · obtain ⟨m, is, -, -, keeps, quiet', -⟩ := h.compared on (.inr quiet)
          rw [is]
          refine ⟨fun either => ?_, fun adopted h' h'' => ?_, fun adopted h' h'' => ?_⟩
          · cases adopted : x.engine.run.adopted with
            | false =>
              rw [idle adopted]
              rfl
            | true =>
              rw [differs adopted (either.resolve_left (by rw [adopted]; decide))]
              rfl
          · rw [none adopted h' h'']
            exact keeps
          · rw [equal adopted h' h'', ← keeps]
            change (m.quietCompares ||
              (m.state = .quiet && decide (succSat Config.matchRounds m.matchCount = Config.matchRounds))) = _
            rw [quiet'.mpr quiet, decide_eq_true rfl, Bool.true_and]
            rfl
    · have off : t.bus.round.handsOn = false := by
        obtain ⟨k, none⟩ := some
        have unclassed : ¬x.bus.round.allClassed = true := fun all => by
          have classed := (RoundState.allClassed_iff _).mp all k
          rw [none] at classed
          cases classed
        rw [round, RoundState.handsOn, Bool.eq_false_iff.mpr unclassed, Bool.and_false]
      rw [Station.endSection_off off]
      exact ⟨rfl, pending, peers', rfl, meas', by rw [h.restarted]⟩
  · intro x q takes abandoned waiting coming t
    have work : effect .reportSectionEnd x = t.endSection := reportSectionEnd_due takes (.inr abandoned) waiting coming
    have h : x.AtSection t := Station.atSection coming
    refine exec_of_effect (c := .reportSectionEnd) (work.trans ?_) q
    clear_value t
    obtain ⟨round, -⟩ := h.round
    rw [Station.endSection_off (by rw [round]; simp [RoundState.handsOn, abandoned]), round, h.restarted]

end Sys2Proof.Machine
end

