-- ==== Sys2Proof/Proofs/ImageParts.lean ====
section
/-! The parts of the configuration image: each record's ranges and what stands at its bytes (Tables 12-3, 12-4 and 14-4 to
14-8). -/

namespace Sys2Proof.Machine

/-! ## The parsers' steps -/

theorem flagIn_eq_some (n : Nat) (f : Bool) : flagIn n = some f ↔ n ≤ 1 ∧ decide (n = 1) = f := by
  rcases n with _ | _ | n
  · simp [flagIn]
  · simp [flagIn]
  · simp [flagIn]

/-- A part that is there exactly when it fits is read as what stands there. -/
theorem bind_eq_some_of {α β : Type} {x : Option α} {fits : Prop} {v : α} (part : ∀ a, x = some a ↔ fits ∧ v = a)
    (f : α → Option β) (r : β) : (x >>= f) = some r ↔ fits ∧ f v = some r := by
  rw [Option.bind_eq_bind, Option.bind_eq_some_iff]
  refine ⟨fun ⟨a, is, next⟩ => ?_, fun ⟨fit, next⟩ => ⟨v, (part v).mpr ⟨fit, rfl⟩, next⟩⟩
  obtain ⟨fit, rfl⟩ := (part a).mp is
  exact ⟨fit, next⟩

theorem natIn_bind {β : Type} (lo hi n : Nat) (f : Nat → Option β) (r : β) :
    (natIn lo hi n >>= f) = some r ↔ (lo ≤ n ∧ n ≤ hi) ∧ f n = some r := bind_eq_some_of (natIn_eq_some lo hi n) f r

theorem intIn_bind {β : Type} (lo hi x : Int) (f : Int → Option β) (r : β) :
    (intIn lo hi x >>= f) = some r ↔ (lo ≤ x ∧ x ≤ hi) ∧ f x = some r := bind_eq_some_of (intIn_eq_some lo hi x) f r

theorem flagIn_bind {β : Type} (n : Nat) (f : Bool → Option β) (r : β) :
    (flagIn n >>= f) = some r ↔ n ≤ 1 ∧ f (decide (n = 1)) = some r := bind_eq_some_of (flagIn_eq_some n) f r

theorem require_bind {β : Type} (test : Bool) (f : Unit → Option β) (r : β) :
    (require test >>= f) = some r ↔ test = true ∧ f () = some r :=
  bind_eq_some_of (fun u => by rw [require_eq_some, and_iff_left rfl]) f r

theorem pure_eq_some {β : Type} (a r : β) : (pure a : Option β) = some r ↔ a = r := Option.some_inj

theorem eightOf_eq_some {α : Type} (f : Fin 8 → Option α) (v : Eight α) : eightOf f = some v ↔ ∀ k, f k = some (v.get k) := by
  obtain ⟨n0, n1, n2, n3, n4, n5, n6, n7⟩ := v
  refine ⟨fun is => ?_, fun all => ?_⟩
  · obtain ⟨a0, is0, is⟩ := then_eq_some is
    obtain ⟨a1, is1, is⟩ := then_eq_some is
    obtain ⟨a2, is2, is⟩ := then_eq_some is
    obtain ⟨a3, is3, is⟩ := then_eq_some is
    obtain ⟨a4, is4, is⟩ := then_eq_some is
    obtain ⟨a5, is5, is⟩ := then_eq_some is
    obtain ⟨a6, is6, is⟩ := then_eq_some is
    obtain ⟨a7, is7, is⟩ := then_eq_some is
    cases is
    intro k
    fin_cases k
    · exact is0
    · exact is1
    · exact is2
    · exact is3
    · exact is4
    · exact is5
    · exact is6
    · exact is7
  · unfold eightOf
    rw [all 0, all 1, all 2, all 3, all 4, all 5, all 6, all 7]
    rfl

theorem Eight.eq_of_get {α : Type} {u v : Eight α} (same : ∀ k, u.get k = v.get k) : u = v := by
  obtain ⟨_, _, _, _, _, _, _, _⟩ := u
  obtain ⟨_, _, _, _, _, _, _, _⟩ := v
  congr
  · exact same 0
  · exact same 1
  · exact same 2
  · exact same 3
  · exact same 4
  · exact same 5
  · exact same 6
  · exact same 7

/-- Eight records are there when each fits, and are then what stands there. -/
theorem eightOf_fits {α : Type} {f : Fin 8 → Option α} {fits : Fin 8 → Prop} {value : Fin 8 → α}
    (each : ∀ k r, f k = some r ↔ fits k ∧ value k = r) (v : Eight α) :
    eightOf f = some v ↔ (∀ k, fits k) ∧ Eight.ofFn value = v := by
  rw [eightOf_eq_some]
  constructor
  · intro all
    exact ⟨fun k => ((each k _).mp (all k)).1, Eight.eq_of_get fun k => by rw [Eight.get_ofFn, ((each k _).mp (all k)).2]⟩
  · rintro ⟨all, rfl⟩ k
    exact (each k _).mpr ⟨all k, by rw [Eight.get_ofFn]⟩

/-- A list of records is there when each fits, and is then the list of what stands there. -/
theorem mapM_eq_some {α β : Type} {f : α → Option β} {fits : α → Prop} {value : α → β}
    (each : ∀ a r, f a = some r ↔ fits a ∧ value a = r) (l : List α) (rs : List β) :
    l.mapM f = some rs ↔ (∀ a ∈ l, fits a) ∧ l.map value = rs := by
  induction l generalizing rs with
  | nil => simp [eq_comm]
  | cons a rest ih =>
    rw [List.mapM_cons]
    constructor
    · intro is
      obtain ⟨r, first, is⟩ := then_eq_some is
      obtain ⟨rs', later, is⟩ := then_eq_some is
      cases is
      obtain ⟨fit, rfl⟩ := (each a r).mp first
      obtain ⟨fits, rfl⟩ := (ih rs').mp later
      exact ⟨List.forall_mem_cons.mpr ⟨fit, fits⟩, rfl⟩
    · rintro ⟨all, rfl⟩
      obtain ⟨fit, fits⟩ := List.forall_mem_cons.mp all
      rw [(each a _).mpr ⟨fit, rfl⟩, (ih _).mpr ⟨fits, rfl⟩]
      rfl

theorem byteAt_lt (b : List Byte) (i : Nat) : byteAt b i < 256 := (b.getD i 0).isLt

theorem wordAt_lt (b : List Byte) (i : Nat) : wordAt b i < 65536 := by
  have high := byteAt_lt b i
  have low := byteAt_lt b (i + 1)
  unfold wordAt
  omega

/-! ## The codes -/

theorem roleOfCode_fits (n : Nat) (r : Role) : roleOfCode n = some r ↔ n ≤ 6 ∧ (roleOfCode n).getD .none = r := by
  rcases n with _ | _ | _ | _ | _ | _ | _ | n <;> simp [roleOfCode]

theorem roleCode_of_fits {n : Nat} (fits : n ≤ 6) : roleCode ((roleOfCode n).getD .none) = n := by
  interval_cases n <;> rfl

theorem quantityOfCode_fits (n : Nat) (q : Quantity) :
    quantityOfCode n = some q ↔ n ≤ 9 ∧ (quantityOfCode n).getD .none = q := by
  rcases n with _ | _ | _ | _ | _ | _ | _ | _ | _ | _ | n <;> simp [quantityOfCode]

/-! ## Pulse inputs, modes, steps and curve points (Tables 14-6 to 14-8) -/

def pulseFits (b : List Byte) (r : Nat) : Prop :=
  byteAt b r ≤ 1 ∧ (1 ≤ wordAt b (r + 1) ∧ wordAt b (r + 1) ≤ 4095) ∧ (1 ≤ byteAt b (r + 3) ∧ byteAt b (r + 3) ≤ 16)
    ∧ (1 ≤ byteAt b (r + 4) ∧ byteAt b (r + 4) ≤ 255)

def pulseAt (b : List Byte) (r : Nat) : PulseConfig :=
  { mapped := decide (byteAt b r = 1), scale := wordAt b (r + 1), window := byteAt b (r + 3), zeroRounds := byteAt b (r + 4) }

theorem parsePulse_eq_some (b : List Byte) (r : Nat) (p : PulseConfig) :
    parsePulse b r = some p ↔ pulseFits b r ∧ pulseAt b r = p := by
  unfold parsePulse pulseFits pulseAt
  simp only [flagIn_bind, natIn_bind, pure_eq_some, and_assoc]

def modeFits (b : List Byte) (r : Nat) : Prop :=
  byteAt b r ≤ byteAt b (r + 1) ∧ byteAt b (r + 1) ≤ 31 ∧ byteAt b (r + 2) ≤ 1
    ∧ (0 ≤ wordAt b (r + 3) ∧ wordAt b (r + 3) ≤ 360)

def modeEntryAt (b : List Byte) (r : Nat) : ModeEntry :=
  { first := byteAt b r, last := byteAt b (r + 1), loop := decide (byteAt b (r + 2) = 1), maxLean := wordAt b (r + 3) }

theorem parseMode_eq_some (b : List Byte) (r : Nat) (m : ModeEntry) :
    parseMode b r = some m ↔ modeFits b r ∧ modeEntryAt b r = m := by
  unfold parseMode modeFits modeEntryAt
  simp only [flagIn_bind, natIn_bind, pure_eq_some, and_assoc]
  constructor
  · rintro ⟨-, -, order, rest⟩
    exact ⟨order, rest⟩
  · rintro ⟨order, last, rest⟩
    exact ⟨Nat.zero_le _, order.trans last, order, last, rest⟩

/-- Point `p` of the curve of the shared section at byte `o`. -/
def pointFits (b : List Byte) (o p : Nat) : Prop :=
  (0 ≤ wordAt b (o + 394 + 4 * p) ∧ wordAt b (o + 394 + 4 * p) ≤ 4094)
    ∧ (0 ≤ wordAt b (o + 396 + 4 * p) ∧ wordAt b (o + 396 + 4 * p) ≤ 360)

def pointAt (b : List Byte) (o p : Nat) : CurvePoint :=
  { speed := wordAt b (o + 394 + 4 * p), limit := wordAt b (o + 396 + 4 * p) }

theorem parsePoint_eq_some (b : List Byte) (o p : Nat) (point : CurvePoint) :
    parsePoint b (o + 394 + 4 * p) = some point ↔ pointFits b o p ∧ pointAt b o p = point := by
  have second : o + 394 + 4 * p + 2 = o + 396 + 4 * p := by omega
  unfold parsePoint pointFits pointAt
  simp only [second, natIn_bind, pure_eq_some, and_assoc]

def stepFits (b : List Byte) (r : Nat) : Prop :=
  byteAt b r ≤ 4 ∧ byteAt b (r + 1) ≤ 3 ∧ (-360 ≤ signedWordAt b (r + 2) ∧ signedWordAt b (r + 2) ≤ 360)
    ∧ (1 ≤ byteAt b (r + 4) ∧ byteAt b (r + 4) ≤ 80) ∧ (byteAt b r = 0 ∨ byteAt b r = 3 → 1 ≤ wordAt b (r + 5))
    ∧ (1 ≤ byteAt b (r + 7) ∧ byteAt b (r + 7) ≤ 80) ∧ byteAt b (r + 8) ≤ 15
    ∧ (-360 ≤ signedWordAt b (r + 9) ∧ signedWordAt b (r + 9) ≤ 360)

def stepDefAt (b : List Byte) (r : Nat) : StepDef :=
  { kind := (stepKindOfCode (byteAt b r)).getD .hold, syncEnd := decide (byteAt b (r + 1) % 2 = 1)
    keepAuthority := decide (2 ≤ byteAt b (r + 1)), target := signedWordAt b (r + 2), rate := byteAt b (r + 4)
    duration := wordAt b (r + 5), band := byteAt b (r + 7), repeats := byteAt b (r + 8), increment := signedWordAt b (r + 9) }

theorem stepKindOfCode_eq_some (n : Nat) (k : StepKind) :
    stepKindOfCode n = some k ↔ n ≤ 4 ∧ (stepKindOfCode n).getD .hold = k := by
  rcases n with _ | _ | _ | _ | _ | n <;> simp [stepKindOfCode]

/-- A HOLD or a SETTLE asks for a duration (R191). -/
theorem stepKind_timed {n : Nat} (small : n ≤ 4) :
    ((stepKindOfCode n).getD .hold = .hold ∨ (stepKindOfCode n).getD .hold = .settle) ↔ n = 0 ∨ n = 3 := by
  interval_cases n <;> simp [stepKindOfCode]

theorem parseStep_eq_some (b : List Byte) (r : Nat) (st : StepDef) :
    parseStep b r = some st ↔ stepFits b r ∧ stepDefAt b r = st := by
  unfold parseStep stepFits stepDefAt
  have kinds := fun f : StepKind → Option StepDef => bind_eq_some_of (stepKindOfCode_eq_some (byteAt b r)) f st
  have long := wordAt_lt b (r + 5)
  simp only [kinds, natIn_bind, intIn_bind, pure_eq_some, and_assoc]
  refine and_congr_right fun small => ?_
  have lower : (if (decide ((stepKindOfCode (byteAt b r)).getD .hold = .hold)
      || decide ((stepKindOfCode (byteAt b r)).getD .hold = .settle)) = true then 1 else 0) ≤ wordAt b (r + 5)
      ↔ (byteAt b r = 0 ∨ byteAt b r = 3 → 1 ≤ wordAt b (r + 5)) := by
    rw [← stepKind_timed small]
    split <;> simp_all
  simp only [lower, Nat.zero_le, Nat.le_of_lt_succ long, true_and]

end Sys2Proof.Machine
end

