-- ==== Sys2Proof/Proofs/ImageChannels.lean ====
section
/-! The station section of the image: the channel records and the parameters after them (Tables 12-3, 14-4 and 14-5). -/

namespace Sys2Proof.Machine

/-! ## Channels (Table 14-5) -/

/-- A monitor limit within the range of the quantity of this code; NONE has no range (log 26). -/
def limitFits (code : Nat) (n : Int) : Prop :=
  (code = 1 ∨ code = 2 ∨ code = 8 → -360 ≤ n ∧ n ≤ 360)
    ∧ (code = 3 ∨ code = 4 ∨ code = 5 ∨ code = 7 → -2047 ≤ n ∧ n ≤ 2047)
    ∧ (code = 6 → 0 ≤ n ∧ n ≤ 2047) ∧ (code = 9 → 0 ≤ n ∧ n ≤ 1000)

theorem monitorLimitIn_eq_some {code : Nat} (known : code ≤ 9) (n m : Int) :
    monitorLimitIn ((quantityOfCode code).getD .none) n = some m ↔ limitFits code n ∧ n = m := by
  interval_cases code <;> simp [quantityOfCode, monitorLimitIn, quantityRange, limitFits, intIn_eq_some]

/-- STEER_TORQUE and ACT_CURRENT alone may be differential (R100). -/
theorem differential_iff {code : Nat} (known : code ≤ 9) (head : Nat) :
    (!decide (128 ≤ head) || decide ((quantityOfCode code).getD .none = .steerTorque)
      || decide ((quantityOfCode code).getD .none = .actCurrent)) = true ↔ (128 ≤ head → code = 4 ∨ code = 5) := by
  interval_cases code <;> simp [quantityOfCode]

def channelFits (b : List Byte) (r : Nat) : Prop :=
  byteAt b r / 16 % 8 = 0 ∧ byteAt b r % 16 ≤ 9 ∧ (128 ≤ byteAt b r → byteAt b r % 16 = 4 ∨ byteAt b r % 16 = 5)
    ∧ (0 ≤ wordAt b (r + 1) ∧ wordAt b (r + 1) ≤ 4095) ∧ (-8192 ≤ signedWordAt b (r + 3) ∧ signedWordAt b (r + 3) ≤ 8192)
    ∧ (-127 ≤ signedOf 8 (byteAt b (r + 5)) ∧ signedOf 8 (byteAt b (r + 5)) ≤ 127)
    ∧ limitFits (byteAt b r % 16) (signedWordAt b (r + 6)) ∧ limitFits (byteAt b r % 16) (signedWordAt b (r + 8))
    ∧ signedWordAt b (r + 6) ≤ signedWordAt b (r + 8) ∧ byteAt b (r + 10) / 4 % 4 = 0

def channelAt (b : List Byte) (r : Nat) : ChannelConfig :=
  { quantity := (quantityOfCode (byteAt b r % 16)).getD .none, differential := decide (128 ≤ byteAt b r)
    zero := wordAt b (r + 1), gain := signedWordAt b (r + 3), offset := signedOf 8 (byteAt b (r + 5))
    low := signedWordAt b (r + 6), high := signedWordAt b (r + 8), filter := byteAt b (r + 10) / 16
    level := byteAt b (r + 10) % 4 }

theorem parseChannel_eq_some (b : List Byte) (r : Nat) (cfg : ChannelConfig) :
    parseChannel b r = some cfg ↔ channelFits b r ∧ channelAt b r = cfg := by
  unfold parseChannel channelFits channelAt
  have quantities := fun f : Quantity → Option ChannelConfig => bind_eq_some_of (quantityOfCode_fits (byteAt b r % 16)) f cfg
  simp only [quantities, natIn_bind, Nat.zero_le, Nat.le_zero, true_and, and_assoc]
  refine and_congr_right fun _ => and_congr_right fun known => ?_
  have limits := fun n (f : Int → Option ChannelConfig) => bind_eq_some_of (monitorLimitIn_eq_some known n) f cfg
  simp only [limits, differential_iff known, require_bind, natIn_bind, intIn_bind, decide_eq_true_eq, pure_eq_some, Nat.zero_le,
    Nat.le_zero, true_and, and_assoc]

/-! ## The section (Table 14-4) -/

/-- Codes that fit name different quantities when they differ, and NONE is code 0. -/
theorem quantity_eq_iff {m n : Nat} (first : m ≤ 9) (second : n ≤ 9) :
    (quantityOfCode m).getD .none = (quantityOfCode n).getD .none ↔ m = n := by
  refine ⟨fun same => ?_, fun same => by rw [same]⟩
  interval_cases m <;> interval_cases n <;> simp_all [quantityOfCode]

theorem channelAt_quantity (b : List Byte) (r : Nat) : (channelAt b r).quantity = (quantityOfCode (byteAt b r % 16)).getD .none :=
  rfl

/-- No code but 0 stands at two channels. -/
def codesDistinct (b : List Byte) : Prop :=
  ∀ c d : StationNo, c ≠ d → byteAt b (8 + 11 * c.val) % 16 ≠ 0 →
    byteAt b (8 + 11 * c.val) % 16 ≠ byteAt b (8 + 11 * d.val) % 16

theorem quantitiesDistinct_iff {b : List Byte} (all : ∀ c : StationNo, channelFits b (8 + 11 * c.val)) :
    quantitiesDistinct (Eight.ofFn fun c => channelAt b (8 + 11 * c.val)) = true ↔ codesDistinct b := by
  have known : ∀ c : StationNo, byteAt b (8 + 11 * c.val) % 16 ≤ 9 := fun c => (all c).2.1
  have unmapped : ∀ c : StationNo, (quantityOfCode (byteAt b (8 + 11 * c.val) % 16)).getD .none = .none
      ↔ byteAt b (8 + 11 * c.val) % 16 = 0 := fun c => quantity_eq_iff (known c) (Nat.zero_le 9)
  have listed : ∀ c : StationNo, c ∈ allStations := List.mem_finRange
  simp only [quantitiesDistinct, List.all_eq_true, listed, true_imp_iff, Eight.get_ofFn, channelAt_quantity, ne_eq,
    Bool.or_eq_true, decide_eq_true_eq, quantity_eq_iff (known _) (known _), unmapped, or_assoc]
  simp only [or_iff_not_imp_left, codesDistinct, ne_eq]

def stationFits (b : List Byte) : Prop :=
  (∀ c : StationNo, channelFits b (8 + 11 * c.val)) ∧ codesDistinct b ∧ pulseFits b 96 ∧ pulseFits b 101
    ∧ (0 ≤ wordAt b 106 ∧ wordAt b 106 ≤ 4095) ∧ (0 ≤ wordAt b 108 ∧ wordAt b 108 ≤ 4095)
    ∧ (0 ≤ wordAt b 110 ∧ wordAt b 110 ≤ 4095) ∧ (0 ≤ wordAt b 112 ∧ wordAt b 112 ≤ 4095)
    ∧ (1 ≤ wordAt b 114 ∧ wordAt b 114 ≤ 1000) ∧ (1 ≤ wordAt b 116 ∧ wordAt b 116 ≤ 1000) ∧ byteAt b 118 ≤ 1
    ∧ (2160 ≤ wordAt b 119 ∧ wordAt b 119 ≤ 2480) ∧ (1 ≤ wordAt b 121 ∧ wordAt b 121 ≤ 360)
    ∧ (1 ≤ byteAt b 123 ∧ byteAt b 123 ≤ 15)

def stationAt (b : List Byte) : StationSection :=
  { channels := Eight.ofFn fun c => channelAt b (8 + 11 * c.val), ps0 := pulseAt b 96, ps1 := pulseAt b 101
    kp := wordAt b 106, kd := wordAt b 108, ka := wordAt b 110, kl := wordAt b 112, effortMax := wordAt b 114
    effortSlew := wordAt b 116, dirInverted := decide (byteAt b 118 = 1), applyAt := wordAt b 119, pairBand := wordAt b 121
    pairFilter := byteAt b 123 }

theorem parseStation_eq_some (b : List Byte) (own : StationSection) :
    parseStation b = some own ↔ stationFits b ∧ stationAt b = own := by
  unfold parseStation stationFits stationAt
  have channels := fun f : Eight ChannelConfig → Option StationSection =>
    bind_eq_some_of (eightOf_fits fun k : StationNo => parseChannel_eq_some b (8 + 11 * k.val)) f own
  have pulses := fun r (f : PulseConfig → Option StationSection) => bind_eq_some_of (parsePulse_eq_some b r) f own
  simp only [channels, and_assoc]
  refine and_congr_right fun all => ?_
  simp only [require_bind, quantitiesDistinct_iff all, pulses, natIn_bind, flagIn_bind, pure_eq_some, and_assoc]

end Sys2Proof.Machine
end

