-- ==== Sys2Proof/Proofs/ImageShared.lean ====
section
/-! The shared section of the image and the parameters as a whole (Tables 12-4 and 14-7, R188). -/

namespace Sys2Proof.Machine

/-! ## The shared section (Table 14-7) -/

theorem forall_mem_range_iff {n : Nat} {P : Nat → Prop} : (∀ m ∈ List.range n, P m) ↔ ∀ m : Fin n, P m.val := by
  simp [Fin.forall_iff]

/-- Each speed of the curve lies below the next. -/
def speedsAscend (b : List Byte) (o : Nat) : Prop :=
  ∀ p : Fin 7, wordAt b (o + 394 + 4 * p.val) < wordAt b (o + 398 + 4 * p.val)

theorem curveAscends_iff (b : List Byte) (o : Nat) :
    curveAscends ((List.range 8).map fun p => pointAt b o p) = true ↔ speedsAscend b o := by
  simp [List.range_succ, curveAscends, pointAt, speedsAscend, Fin.forall_fin_succ, Nat.add_assoc]

def sharedFits (b : List Byte) (o : Nat) : Prop :=
  byteAt b o ≤ 1 ∧ (∀ j : StationNo, byteAt b (o + 1 + j.val) ≤ 6) ∧ byteAt b (o + 9) ≤ 7 ∧ byteAt b (o + 10) ≤ 7
    ∧ (∀ m : Fin 5, modeFits b (o + 11 + 5 * m.val)) ∧ (∀ s : Fin 32, stepFits b (o + 36 + 11 * s.val))
    ∧ (2 ≤ wordAt b (o + 388) ∧ wordAt b (o + 388) ≤ 4093) ∧ (3 ≤ wordAt b (o + 390) ∧ wordAt b (o + 390) ≤ 4094)
    ∧ wordAt b (o + 388) < wordAt b (o + 390) ∧ (0 ≤ wordAt b (o + 392) ∧ wordAt b (o + 392) ≤ 1000)
    ∧ (∀ p : Fin 8, pointFits b o p.val) ∧ speedsAscend b o
    ∧ (0 ≤ wordAt b (o + 426) ∧ wordAt b (o + 426) ≤ 360) ∧ (0 ≤ wordAt b (o + 428) ∧ wordAt b (o + 428) ≤ 360)
    ∧ (0 ≤ wordAt b (o + 430) ∧ wordAt b (o + 430) ≤ 360) ∧ (1 ≤ wordAt b (o + 432) ∧ wordAt b (o + 432) ≤ 360)
    ∧ (0 ≤ wordAt b (o + 434) ∧ wordAt b (o + 434) ≤ 4094) ∧ (1 ≤ wordAt b (o + 436) ∧ wordAt b (o + 436) ≤ 2047)
    ∧ (1 ≤ byteAt b (o + 438) ∧ byteAt b (o + 438) ≤ 15) ∧ (1 ≤ byteAt b (o + 439) ∧ byteAt b (o + 439) ≤ 15)
    ∧ (1 ≤ byteAt b (o + 440) ∧ byteAt b (o + 440) ≤ 15) ∧ (1 ≤ byteAt b (o + 441) ∧ byteAt b (o + 441) ≤ 4)
    ∧ (0 ≤ byteAt b (o + 442) ∧ byteAt b (o + 442) ≤ 3) ∧ (8 ≤ byteAt b (o + 443) ∧ byteAt b (o + 443) ≤ 127)
    ∧ (1 ≤ byteAt b (o + 444) ∧ byteAt b (o + 444) ≤ 16) ∧ (1 ≤ byteAt b (o + 445) ∧ byteAt b (o + 445) ≤ 255)
    ∧ (1 ≤ byteAt b (o + 446) ∧ byteAt b (o + 446) ≤ 255) ∧ (1 ≤ byteAt b (o + 447) ∧ byteAt b (o + 447) ≤ 255)

def sharedAt (b : List Byte) (o : Nat) : SharedSection :=
  { slowBitRate := decide (byteAt b o = 1)
    roster := Eight.ofFn fun j => (roleOfCode (byteAt b (o + 1 + j.val))).getD .none
    demandPrimary := Fin.ofNat 8 (byteAt b (o + 9)), demandSecondary := Fin.ofNat 8 (byteAt b (o + 10))
    modes := (List.range 5).map fun m => modeEntryAt b (o + 11 + 5 * m)
    library := (List.range 32).map fun s => stepDefAt b (o + 36 + 11 * s)
    vWalk := wordAt b (o + 388), vGuided := wordAt b (o + 390), vh := wordAt b (o + 392)
    curve := (List.range 8).map fun p => pointAt b o p
    cautionLimit := wordAt b (o + 426), walkLimit := wordAt b (o + 428), soleLimit := wordAt b (o + 430)
    leanBand := wordAt b (o + 432), speedBand := wordAt b (o + 434), steerBand := wordAt b (o + 436)
    leanFilter := byteAt b (o + 438), speedFilter := byteAt b (o + 439), steerFilter := byteAt b (o + 440)
    voteMin := byteAt b (o + 441), rejoinMax := byteAt b (o + 442), rampRounds := byteAt b (o + 443)
    calSamples := byteAt b (o + 444), demandHold := byteAt b (o + 445), lockRamp := byteAt b (o + 446)
    releaseHold := byteAt b (o + 447) }

theorem parseShared_eq_some (b : List Byte) (o : Nat) (sh : SharedSection) :
    parseShared b o = some sh ↔ sharedFits b o ∧ sharedAt b o = sh := by
  unfold parseShared sharedFits sharedAt
  have roster := fun f : Eight Role → Option SharedSection =>
    bind_eq_some_of (eightOf_fits fun j : StationNo => roleOfCode_fits (byteAt b (o + 1 + j.val))) f sh
  have modes := fun f : List ModeEntry → Option SharedSection =>
    bind_eq_some_of (mapM_eq_some (fun m : Nat => parseMode_eq_some b (o + 11 + 5 * m)) (List.range 5)) f sh
  have library := fun f : List StepDef → Option SharedSection =>
    bind_eq_some_of (mapM_eq_some (fun s : Nat => parseStep_eq_some b (o + 36 + 11 * s)) (List.range 32)) f sh
  have curve := fun f : List CurvePoint → Option SharedSection =>
    bind_eq_some_of (mapM_eq_some (parsePoint_eq_some b o) (List.range 8)) f sh
  simp only [roster, modes, library, curve, forall_mem_range_iff, curveAscends_iff, require_bind, natIn_bind, flagIn_bind,
    decide_eq_true_eq, pure_eq_some, and_assoc, Nat.zero_le, true_and]

/-! ## The parameters (Table 12-2) -/

def sharedPlacedAt (b : List Byte) : Prop :=
  wordAt b 6 = 448 ∧ 124 ≤ wordAt b 4 ∧ wordAt b 4 + 448 ≤ wordAt b 1 - 2

theorem sharedPlaced_iff (b : List Byte) : sharedPlaced b = true ↔ sharedPlacedAt b := by
  rw [sharedPlaced, Bool.and_eq_true, Bool.and_eq_true, decide_eq_true_eq, decide_eq_true_eq, decide_eq_true_eq, and_assoc]
  exact Iff.rfl

def paramsAt (b : List Byte) : Params :=
  { role := (roleOfCode (byteAt b 3 % 16)).getD .none, own := stationAt b, shared := sharedAt b (wordAt b 4) }

/-- The roster holds the header's role exactly when it holds the header's code. -/
theorem roster_eq_iff {b : List Byte} {o : Nat} (fits : sharedFits b o) {code : Nat} (role : code ≤ 6) (k : StationNo) :
    (sharedAt b o).roster.get k = (roleOfCode code).getD .none ↔ byteAt b (o + 1 + k.val) = code := by
  have listed : byteAt b (o + 1 + k.val) ≤ 6 := fits.2.1 k
  have entry : (sharedAt b o).roster.get k = (roleOfCode (byteAt b (o + 1 + k.val))).getD .none := Eight.get_ofFn _ k
  rw [entry]
  refine ⟨fun same => ?_, fun same => by rw [same]⟩
  rw [← roleCode_of_fits listed, same, roleCode_of_fits role]

theorem parseParams_eq_some {b : List Byte} (role : byteAt b 3 % 16 ≤ 6) (k : StationNo) (p : Params) :
    parseParams b k = some p ↔
      (sharedPlacedAt b ∧ stationFits b ∧ sharedFits b (wordAt b 4) ∧ byteAt b (wordAt b 4 + 1 + k.val) = byteAt b 3 % 16)
        ∧ paramsAt b = p := by
  unfold parseParams paramsAt
  have roles := fun f : Role → Option Params => bind_eq_some_of (roleOfCode_fits (byteAt b 3 % 16)) f p
  have own := fun f : StationSection → Option Params => bind_eq_some_of (parseStation_eq_some b) f p
  have shared := fun f : SharedSection → Option Params => bind_eq_some_of (parseShared_eq_some b (wordAt b 4)) f p
  simp only [roles, role, own, shared, require_bind, sharedPlaced_iff, decide_eq_true_eq, pure_eq_some, true_and, and_assoc]
  refine and_congr_right fun _ => and_congr_right fun _ => and_congr_right fun fits => ?_
  rw [roster_eq_iff fits role]

/-! ## The six checks (Table 12-2) -/

def headerFits (b : List Byte) (k : StationNo) : Prop :=
  byteAt b 0 = 0x4A ∧ (16 ≤ wordAt b 1 ∧ wordAt b 1 ≤ 1024)
    ∧ (checkBytes (b.take (wordAt b 1 - 2))).toNat = wordAt b (wordAt b 1 - 2)
    ∧ byteAt b 3 / 16 = k.val ∧ (1 ≤ byteAt b 3 % 16 ∧ byteAt b 3 % 16 ≤ 6)

theorem headerFits.role_le {b : List Byte} {k : StationNo} (header : headerFits b k) : byteAt b 3 % 16 ≤ 6 := by
  obtain ⟨-, -, -, -, -, most⟩ := header
  exact most

def imageFits (b : List Byte) (k : StationNo) : Prop :=
  headerFits b k ∧ sharedPlacedAt b ∧ stationFits b ∧ sharedFits b (wordAt b 4)
    ∧ byteAt b (wordAt b 4 + 1 + k.val) = byteAt b 3 % 16

theorem checkImage_of_header {b : List Byte} {k : StationNo} (header : headerFits b k) : checkImage b k = parseParams b k := by
  obtain ⟨format, length, crc, number, role⟩ := header
  have holds : imageCrcHolds b = true := decide_eq_true crc
  simp only [checkImage, Config.formatCode, format, (lengthFits_iff b).mpr length, holds, number, role, ne_eq, not_true,
    if_false, and_self, Bool.true_eq_false]

theorem header_of_checkImage {b : List Byte} {k : StationNo} {p : Params} (good : checkImage b k = some p) : headerFits b k := by
  unfold checkImage at good
  obtain ⟨format, good⟩ := Option.ite_none_left_eq_some.mp good
  obtain ⟨length, good⟩ := Option.ite_none_left_eq_some.mp good
  obtain ⟨crc, good⟩ := Option.ite_none_left_eq_some.mp good
  obtain ⟨number, good⟩ := Option.ite_none_left_eq_some.mp good
  obtain ⟨role, -⟩ := Option.ite_none_left_eq_some.mp good
  exact ⟨not_not.mp format, (lengthFits_iff b).mp (Bool.eq_true_of_not_eq_false length),
    of_decide_eq_true (Bool.eq_true_of_not_eq_false crc), not_not.mp number, not_not.mp role⟩

theorem checkImage_eq_some (b : List Byte) (k : StationNo) (p : Params) :
    checkImage b k = some p ↔ imageFits b k ∧ paramsAt b = p := by
  rw [imageFits, and_assoc]
  constructor
  · intro good
    have header := header_of_checkImage good
    rw [checkImage_of_header header, parseParams_eq_some header.role_le] at good
    exact ⟨header, good⟩
  · rintro ⟨header, parts⟩
    rw [checkImage_of_header header, parseParams_eq_some header.role_le]
    exact parts

theorem checkImage_isSome (b : List Byte) (k : StationNo) : (checkImage b k).isSome = true ↔ imageFits b k := by
  simp [Option.isSome_iff_exists, checkImage_eq_some]

end Sys2Proof.Machine
end

