-- ==== Sys2Proof/Proofs/ImageVerdict.lean ====
section
/-! The end of the read (R185, R188, R189): what the verdict says, and the digest. -/

namespace Sys2Proof.Machine

theorem signedWordAt_eq (b : List Byte) (i : Nat) :
    signedWordAt b i = if wordAt b i < 32768 then (wordAt b i : Int) else (wordAt b i : Int) - 65536 := by
  have half : 2 * wordAt b i < 65536 ↔ wordAt b i < 32768 := by omega
  simp [signedWordAt, signedOf, half]

theorem signedByte_eq (b : List Byte) (i : Nat) :
    signedOf 8 (byteAt b i) = if byteAt b i < 128 then (byteAt b i : Int) else (byteAt b i : Int) - 256 := by
  have half : 2 * byteAt b i < 256 ↔ byteAt b i < 128 := by omega
  simp [signedOf, half]

theorem Loader.check_eq (l : Loader) :
    l.check =
      { l with
        reading := false, csHigh := true, verdict := some (checkImage l.buffer l.straps).isSome
        digest :=
          if 16 ≤ wordAt l.buffer 1 ∧ wordAt l.buffer 1 ≤ 1024 then
            checkBytes ((l.buffer.drop (wordAt l.buffer 4)).take (wordAt l.buffer 6))
          else l.digest } := by
  unfold Loader.check sharedDigest
  simp only [lengthFits_iff, imageLength]

theorem Station.imageReadDone_reading {x : Station} (load : x.member.state = .load) (reading : x.loader.reading = true) :
    x.imageReadDone = { x with loader := x.loader.check } := by
  rw [Station.imageReadDone, if_pos (by simp [load, reading])]

/-- A mapped or unmapped channel's quantity is that of its code. -/
theorem channelFits.quantity {b : List Byte} {r : Nat} (fits : channelFits b r) :
    quantityOfCode (byteAt b r % 16) = some (channelAt b r).quantity := by
  obtain ⟨-, known, -⟩ := fits
  exact (quantityOfCode_fits _ _).mpr ⟨known, rfl⟩

theorem roleCode_roster {b : List Byte} {o : Nat} (fits : sharedFits b o) (j : StationNo) :
    roleCode ((sharedAt b o).roster.get j) = byteAt b (o + 1 + j.val) := by
  obtain ⟨-, listed, -⟩ := fits
  have entry : (sharedAt b o).roster.get j = (roleOfCode (byteAt b (o + 1 + j.val))).getD .none := Eight.get_ofFn _ j
  rw [entry, roleCode_of_fits (listed j)]

/-- Settles O6: the verdict is the conjunction of the ranges of the tables, record by record, and a part that fits is read as
what stands there. -/
theorem readEndFormsTheVerdict : Obligations.ReadEndFormsTheVerdict := by
  unfold Obligations.ReadEndFormsTheVerdict
  intro register
  have registers : register = checkBytes := funext fun bytes => (checkBytes_eq_checkOf bytes).symm
  clear_value register
  subst registers
  intro byteIn wordIn
  refine ⟨fun x q load reading => ?_, ?_⟩
  · have ending := Station.imageReadDone_reading load reading
    rw [Loader.check_eq] at ending
    exact exec_of_effect (c := .imageReadDone) ending q
  · intro b k byte word signed signedByte
    have signs : signed = signedWordAt b := funext fun i => (signedWordAt_eq b i).symm
    have byteSigns : signedByte = fun i => signedOf 8 (byteAt b i) := funext fun i => (signedByte_eq b i).symm
    clear_value signed signedByte
    subst signs byteSigns
    refine ⟨checkImage_isSome b k, fun p good => ?_⟩
    obtain ⟨⟨header, -, station, shared, -⟩, rfl⟩ := (checkImage_eq_some b k p).mp good
    obtain ⟨channels, -⟩ := station
    refine ⟨roleCode_of_fits header.role_le, fun c => ?_, rfl, roleCode_roster shared, rfl⟩
    have entry : (paramsAt b).own.channels.get c = channelAt b (8 + 11 * c.val) := Eight.get_ofFn _ c
    rw [entry]
    exact ⟨(channels c).quantity, rfl, rfl, rfl, rfl, rfl, rfl, rfl, rfl⟩

end Sys2Proof.Machine
end
